-- ==== Sys2Proof/Word.lean ====
section
/-!
DEFINITION. The words of the Pyxon Bludin module: widths and the closed sets of names that the instruction set mentions.
-/

namespace Sys2Proof

/-- A scalar register (R89). -/
abbrev Word := BitVec 64

/-- One byte of ULM or of global memory. -/
abbrev Byte := BitVec 8

/-- One instruction word (R41). -/
abbrev Insn := BitVec 32

/-- One vector register (R172). -/
abbrev Vec := BitVec 1024

/-- One mask register (R172). -/
abbrev Mask := BitVec 128

/-- The two instruction streams of a core (R4, R60). -/
inductive Strm where
  | a
  | e
  deriving DecidableEq, Repr

/-- The other stream of the same core. -/
def Strm.other : Strm → Strm
  | .a => .e
  | .e => .a

/-- A register that an event REGISTER_WRITE names: a system register of a core (R105), or a register of the control space
that the kernel writes from the RV64 complex (R258, R264, R265, R318, R341, R366, R375, R407, R418, R426, R427, R428). -/
inductive CtlReg where
  | sys (str : Strm) (num : BitVec 12)
  | asidTable
  | groupTable (asid : Nat)
  | bindArea (asid : Nat)
  | poolSize
  | poolBase
  | contBase (asid : Nat)
  | contCount (asid : Nat)
  | farEntry (idx : Nat)
  | profileSvec (asid : Nat)
  | profileDeleg (asid : Nat)
  | profileWdog (asid : Nat)
  | windowAsid (port : Nat)
  | windowBase (port : Nat)
  | parkTime
  | leaseCap (asid : Nat)
  | leaseDrop (asid : Nat)
  | migrate (asid : Nat)
  | queueRing (q : Nat)
  | queueCtl (q : Nat)
  | queueWr (q : Nat)
  | cacheCapacity
  | scrubRate
  | errThreshold (unit : Nat)
  | neighbours
  | quorum
  /-- the restarted kernel resumes its schedulers -/
  | schedulers
  deriving DecidableEq, Repr

/-- What an aligned doubleword of the control space is (R366, R369, R418, R428, R436, R437). -/
inductive CtlPlace where
  | absent
  | reg (r : CtlReg)
  | pmode
  /-- a doubleword of a queue's descriptor -/
  | queue (q dw : Nat)
  /-- a doubleword of a die's policy block -/
  | policy (die dw : Nat)
  /-- a doubleword of the migration table -/
  | migration (dw : Nat)
  /-- a unit's counter of corrected errors -/
  | corrected (unit : Nat)
  deriving DecidableEq, Repr, Inhabited

/-- Where a soft error arises (R433, R435): packet is one in the network's stores, and answer the granule on its way to a core's command. -/
inductive ErrSite where
  | hbm (loc : Nat)
  | ulm (core addr : Nat)
  /-- the check value of a granule of a core's ULM no longer fits it -/
  | check (core addr : Nat)
  /-- a granule in the siding of a core's task, or of its contestant -/
  | siding (core loc : Nat)
  /-- the granule that leaves by a host port next -/
  | exit (port : Nat)
  /-- a station's own tables -/
  | tables (station : Nat)
  | reg (core home : Nat)
  | packet (pkt : Nat)
  | answer (core cmd : Nat)
  /-- a beat on a track of an exchange fabric (R313) -/
  | beat (core cycle : Nat)
  deriving DecidableEq, Repr

/-- What a kernel hart on the RV64 complex does to global memory as a party of its own (R274, R280). -/
inductive HartOp where
  | load (asid va len : Nat)
  | store (asid va : Nat) (data : List Byte)
  | fence
  deriving DecidableEq, Repr

end Sys2Proof
end

