-- ==== Sys2Proof/Syntax.lean ====
section
/-!
DEFINITION. The instruction set as syntax: one constructor per row of spec/opcode_table.json.
A row with bits is a 32-bit word of a sequencer; its arguments are the fields of its encoding, named as the table names them
(n is the next-address selector of R42; the table's field s is written x and i is written im).
A row without bits is a step of the device (an event); its arguments name the agent that takes it.
-/

namespace Sys2Proof

/-- Every row of spec/opcode_table.json. -/
inductive Instr where
  /-- R131. A-stream register add, modulo 2^64, with optional .sat and queue operands. -/
  | add (n : BitVec 3) (d : BitVec 5) (x : BitVec 5) (t : BitVec 5) (q : BitVec 2)
  /-- R131. A-stream register subtract, modulo 2^64. -/
  | sub (n : BitVec 3) (d : BitVec 5) (x : BitVec 5) (t : BitVec 5) (q : BitVec 2)
  /-- R131. Bitwise and of two a registers. -/
  | and (n : BitVec 3) (d : BitVec 5) (x : BitVec 5) (t : BitVec 5) (q : BitVec 2)
  /-- R131. Bitwise or of two a registers. -/
  | or (n : BitVec 3) (d : BitVec 5) (x : BitVec 5) (t : BitVec 5) (q : BitVec 2)
  /-- R131. Bitwise exclusive or of two a registers. -/
  | xor (n : BitVec 3) (d : BitVec 5) (x : BitVec 5) (t : BitVec 5) (q : BitVec 2)
  /-- R131. Shift left by the low six bits of a register. -/
  | shl (n : BitVec 3) (d : BitVec 5) (x : BitVec 5) (t : BitVec 5) (q : BitVec 2)
  /-- R131. Logical shift right by a register amount. -/
  | shr (n : BitVec 3) (d : BitVec 5) (x : BitVec 5) (t : BitVec 5) (q : BitVec 2)
  /-- R131. Arithmetic shift right by a register amount. -/
  | sha (n : BitVec 3) (d : BitVec 5) (x : BitVec 5) (t : BitVec 5) (q : BitVec 2)
  /-- R131. Signed minimum of two a registers. -/
  | min (n : BitVec 3) (d : BitVec 5) (x : BitVec 5) (t : BitVec 5) (q : BitVec 2)
  /-- R131. Unsigned minimum of two a registers. -/
  | minZ64 (n : BitVec 3) (d : BitVec 5) (x : BitVec 5) (t : BitVec 5) (q : BitVec 2)
  /-- R131. Signed maximum of two a registers. -/
  | max (n : BitVec 3) (d : BitVec 5) (x : BitVec 5) (t : BitVec 5) (q : BitVec 2)
  /-- R131. Unsigned maximum of two a registers. -/
  | maxZ64 (n : BitVec 3) (d : BitVec 5) (x : BitVec 5) (t : BitVec 5) (q : BitVec 2)
  /-- R131. Count leading zero bits of an a register. -/
  | clz (n : BitVec 3) (d : BitVec 5) (x : BitVec 5) (q : BitVec 2)
  /-- R131. Count one bits of an a register. -/
  | popc (n : BitVec 3) (d : BitVec 5) (x : BitVec 5) (q : BitVec 2)
  /-- R131. Copy an a register, or a queue entry, to a register or queue. -/
  | mov (n : BitVec 3) (d : BitVec 5) (x : BitVec 5) (q : BitVec 2)
  /-- R135. Read an A-stream loop, link, branch-target or predicate control register. -/
  | movFromCtl (n : BitVec 3) (d : BitVec 5) (c : BitVec 5)
  /-- R135. Write an A-stream loop, link, branch-target or predicate control register. -/
  | movToCtl (n : BitVec 3) (c : BitVec 5) (x : BitVec 5)
  /-- R131. Shift left by an immediate 0-63. -/
  | shlImm (n : BitVec 3) (d : BitVec 5) (x : BitVec 5) (im : BitVec 5) (q : BitVec 2) (h : BitVec 1)
  /-- R131. Logical shift right by an immediate. -/
  | shrImm (n : BitVec 3) (d : BitVec 5) (x : BitVec 5) (im : BitVec 5) (q : BitVec 2) (h : BitVec 1)
  /-- R131. Arithmetic shift right by an immediate. -/
  | shaImm (n : BitVec 3) (d : BitVec 5) (x : BitVec 5) (im : BitVec 5) (q : BitVec 2) (h : BitVec 1)
  /-- R131. Select one of two a registers by a predicate. -/
  | sel (n : BitVec 3) (d : BitVec 5) (x : BitVec 5) (t : BitVec 5) (q : BitVec 2) (p : BitVec 3)
  /-- R136. Low 64 bits of a product. -/
  | mul (n : BitVec 3) (d : BitVec 5) (x : BitVec 5) (t : BitVec 5) (q : BitVec 2)
  /-- R136. High 64 bits of a signed 128-bit product. -/
  | mulh (n : BitVec 3) (d : BitVec 5) (x : BitVec 5) (t : BitVec 5) (q : BitVec 2)
  /-- R136. High 64 bits of an unsigned 128-bit product. -/
  | mulhZ64 (n : BitVec 3) (d : BitVec 5) (x : BitVec 5) (t : BitVec 5) (q : BitVec 2)
  /-- R136. Signed quotient, truncating, with fixed results for the borderline cases. -/
  | div (n : BitVec 3) (d : BitVec 5) (x : BitVec 5) (t : BitVec 5) (q : BitVec 2)
  /-- R136. Unsigned quotient. -/
  | divZ64 (n : BitVec 3) (d : BitVec 5) (x : BitVec 5) (t : BitVec 5) (q : BitVec 2)
  /-- R136. Signed remainder. -/
  | rem (n : BitVec 3) (d : BitVec 5) (x : BitVec 5) (t : BitVec 5) (q : BitVec 2)
  /-- R136. Unsigned remainder. -/
  | remZ64 (n : BitVec 3) (d : BitVec 5) (x : BitVec 5) (t : BitVec 5) (q : BitVec 2)
  /-- R137. Integer comparison into a predicate, optionally pushed into boq.ae. -/
  | cmp (n : BitVec 3) (d : BitVec 5) (x : BitVec 5) (t : BitVec 5) (p : BitVec 1) (im : BitVec 1) (k : BitVec 3)
  /-- R138. Extract a sign-extended bit field. -/
  | bfx (n : BitVec 3) (d : BitVec 5) (x : BitVec 5) (t : BitVec 5)
  /-- R138. Extract a zero-extended bit field. -/
  | bfxZ64 (n : BitVec 3) (d : BitVec 5) (x : BitVec 5) (t : BitVec 5)
  /-- R138. Insert a bit field into the destination. -/
  | bfi (n : BitVec 3) (d : BitVec 5) (x : BitVec 5) (t : BitVec 5)
  /-- R139. Form x + y * 2^sc without checks. -/
  | lea (n : BitVec 3) (d : BitVec 5) (x : BitVec 5) (t : BitVec 5) (c : BitVec 2)
  /-- R140. Compute a block's origin, extent or edge mask from GEO. -/
  | geom (n : BitVec 3) (d : BitVec 5) (x : BitVec 5) (c : BitVec 2)
  /-- R133. Add an immediate, extendable by IMM hints. -/
  | addImm (n : BitVec 3) (d : BitVec 5) (x : BitVec 5) (im : BitVec 13)
  /-- R133. And with an immediate. -/
  | andImm (n : BitVec 3) (d : BitVec 5) (x : BitVec 5) (im : BitVec 13)
  /-- R133. Or with an immediate. -/
  | orImm (n : BitVec 3) (d : BitVec 5) (x : BitVec 5) (im : BitVec 13)
  /-- R133. Exclusive or with an immediate. -/
  | xorImm (n : BitVec 3) (d : BitVec 5) (x : BitVec 5) (im : BitVec 13)
  /-- R158. Load from ULM with sign extension. -/
  | ldS (n : BitVec 3) (d : BitVec 5) (b : BitVec 5) (z : BitVec 2) (o : BitVec 11)
  /-- R158. Load from ULM with zero extension. -/
  | ldZ (n : BitVec 3) (d : BitVec 5) (b : BitVec 5) (z : BitVec 2) (o : BitVec 11)
  /-- R158. Store to ULM. -/
  | st (n : BitVec 3) (d : BitVec 5) (b : BitVec 5) (z : BitVec 2) (o : BitVec 11)
  /-- R158. Load from ULM into ldq. -/
  | ldq (n : BitVec 3) (b : BitVec 5) (z : BitVec 2) (o : BitVec 11)
  /-- R158. Pop stq and store it to ULM. -/
  | stq (n : BitVec 3) (b : BitVec 5) (z : BitVec 2) (o : BitVec 11)
  /-- R158. Load a 128-byte row into vldq. -/
  | vldq (n : BitVec 3) (b : BitVec 5) (o : BitVec 11)
  /-- R158. Pop vstq and store a 128-byte row. -/
  | vstq (n : BitVec 3) (b : BitVec 5) (o : BitVec 11)
  /-- R161. Load a zero-extended bit field at a bit address, optionally post-incrementing it. -/
  | ldb (n : BitVec 3) (d : BitVec 5) (b : BitVec 5) (w : BitVec 5) (p : BitVec 1)
  /-- R161. Load a sign-extended bit field at a bit address. -/
  | ldbS64 (n : BitVec 3) (d : BitVec 5) (b : BitVec 5) (w : BitVec 5) (p : BitVec 1)
  /-- R161. Store a bit field at a bit address. -/
  | stb (n : BitVec 3) (b : BitVec 5) (x : BitVec 5) (w : BitVec 5) (p : BitVec 1)
  /-- R164. Joint ring rotation of one region of each ULM of the tile. -/
  | rot (n : BitVec 3) (t : BitVec 5) (a : BitVec 5) (l : BitVec 5) (d : BitVec 2)
  /-- R170. Write up to 512 bytes into another core's ULM through its windows. -/
  | putr (n : BitVec 3) (t : BitVec 5) (l : BitVec 5) (b : BitVec 5)
  /-- R170. Read up to 512 bytes from another core's ULM through its windows. -/
  | getr (n : BitVec 3) (t : BitVec 5) (l : BitVec 5) (b : BitVec 5)
  /-- R253. Copy engine command moving one contiguous region between ULM and global memory. -/
  | copy (n : BitVec 3) (t : BitVec 5) (l : BitVec 5) (b : BitVec 5) (d : BitVec 1) (q : BitVec 1) (e : BitVec 1) (c : BitVec 3) (h : BitVec 2)
  /-- R253. Strided two-dimensional copy between ULM and global memory. -/
  | copy2 (n : BitVec 3) (t : BitVec 5) (l : BitVec 5) (b : BitVec 5) (d : BitVec 1) (q : BitVec 1) (e : BitVec 1) (c : BitVec 3) (h : BitVec 2)
  /-- R253. Row copy permuted by a points register. -/
  | copyp (n : BitVec 3) (t : BitVec 5) (l : BitVec 5) (b : BitVec 5) (d : BitVec 1) (q : BitVec 1) (e : BitVec 1) (c : BitVec 3) (h : BitVec 2)
  /-- R269. Ordinary global read into a token home. -/
  | gld (n : BitVec 3) (t : BitVec 5) (b : BitVec 5) (x : BitVec 1) (z : BitVec 2) (h : BitVec 2)
  /-- R269. Ordinary global write joining the core's write set. -/
  | gst (n : BitVec 3) (t : BitVec 5) (x : BitVec 5) (b : BitVec 5) (z : BitVec 2) (h : BitVec 2)
  /-- R284. Atomic read-modify-write of a global doubleword at its home, with order and scope. -/
  | amo (n : BitVec 3) (t : BitVec 5) (x : BitVec 5) (b : BitVec 5) (o : BitVec 3) (g : BitVec 2) (c : BitVec 3)
  /-- R299. Send a 64-bit value into another core's message register. -/
  | deposit (n : BitVec 3) (t : BitVec 5) (x : BitVec 5) (b : BitVec 5) (y : BitVec 1)
  /-- R299. OR a 32-bit mask into another core's notify register. -/
  | notify (n : BitVec 3) (t : BitVec 5) (x : BitVec 5) (b : BitVec 5)
  /-- R300. Read and clear the core's notify register. -/
  | ntake (n : BitVec 3) (d : BitVec 5)
  /-- R302. Multicast a ULM payload to the masked ranks of a group. -/
  | mcast (n : BitVec 3) (t : BitVec 5) (l : BitVec 5) (b : BitVec 5) (y : BitVec 1)
  /-- R305. Contribute to an in-network reduction of a group and tag. -/
  | reduce (n : BitVec 3) (t : BitVec 5) (l : BitVec 5) (b : BitVec 5) (f : BitVec 1) (o : BitVec 3) (y : BitVec 2)
  /-- R307. Abort the reduction of a group and tag. -/
  | redabort (n : BitVec 3) (t : BitVec 5) (b : BitVec 5)
  /-- R361. Ask a work distributor for items, answer written into ULM. -/
  | query (n : BitVec 3) (t : BitVec 5) (l : BitVec 5) (b : BitVec 5)
  /-- R361. Ask a work distributor for items, answer deposited in a message register. -/
  | queryM (n : BitVec 3) (t : BitVec 5) (l : BitVec 5) (b : BitVec 5)
  /-- R100. Wait for a full message register, read it and clear its full bit. -/
  | take (n : BitVec 3) (d : BitVec 5) (m : BitVec 5)
  /-- R100. Read a message register and its full bit without waiting. -/
  | peek (n : BitVec 3) (d : BitVec 5) (m : BitVec 5) (p : BitVec 5)
  /-- R100. Wait until a masked message register is full and return its index. -/
  | waitm (n : BitVec 3) (d : BitVec 5) (x : BitVec 5)
  /-- R100. Write a message register and set its full bit. -/
  | putm (n : BitVec 3) (m : BitVec 5) (x : BitVec 5)
  /-- R104. Wait until an arrival counter reaches a threshold. -/
  | waitn (n : BitVec 3) (d : BitVec 5) (c : BitVec 5) (t : BitVec 5)
  /-- R104. Set an arrival counter. -/
  | setn (n : BitVec 3) (c : BitVec 5) (x : BitVec 5)
  /-- R104. Decrement an arrival counter. -/
  | decn (n : BitVec 3) (c : BitVec 5) (x : BitVec 5)
  /-- R322. Arrive at a group's barrier and wait for the epoch to complete. -/
  | bar (n : BitVec 3) (d : BitVec 5) (g : BitVec 5)
  /-- R309. Barrier that arms an exchange phase. -/
  | barx (n : BitVec 3) (d : BitVec 5) (g : BitVec 5)
  /-- R286. Release, barrier and acquire at the group's scope. -/
  | phase (n : BitVec 3) (d : BitVec 5) (g : BitVec 5) (c : BitVec 5)
  /-- R282. Wait for access classes, then release and/or acquire at a scope. -/
  | fence (n : BitVec 3) (c : BitVec 3) (o : BitVec 2) (p : BitVec 6) (x : BitVec 6)
  /-- R330. Join neighbouring cores into a gang following one leader. -/
  | gang (d : BitVec 5) (x : BitVec 5)
  /-- R333. Disband the gang and return the position. -/
  | ungang (n : BitVec 3) (d : BitVec 5)
  /-- R344. Create a ready continuation in the task domain. -/
  | spawn (n : BitVec 3) (d : BitVec 5) (a : BitVec 5) (e : BitVec 5)
  /-- R344. Create a committed task with a siding. -/
  | spawnC (n : BitVec 3) (d : BitVec 5) (a : BitVec 5) (e : BitVec 5)
  /-- R347. Suspend the task on a token and become a runner. -/
  | await (d : BitVec 5) (t : BitVec 5)
  /-- R348. Requeue the task if another can run. -/
  | yield (d : BitVec 5)
  /-- R348. End the running task, committing or releasing, and become a runner. -/
  | retire
  /-- R352. Discard a committed task's siding and free its record. -/
  | retireCancel
  /-- R356. Claim the next free slot of the stage's outgoing ring. -/
  | prod (n : BitVec 3) (d : BitVec 5) (x : BitVec 5)
  /-- R356. Claim the next full slot of the stage's incoming ring. -/
  | cons (n : BitVec 3) (d : BitVec 5)
  /-- R356. Free the draining slot and report the stage, taking a pending switch at SP. -/
  | snext (n : BitVec 3) (d : BitVec 5)
  /-- R356. Close the outgoing ring for this core. -/
  | prodClose (n : BitVec 3) (d : BitVec 5)
  /-- R377. Request a lease of consecutive logical tiles from the census. -/
  | lease (n : BitVec 3) (d : BitVec 5) (x : BitVec 5) (t : BitVec 5)
  /-- R377. Renew a live lease. -/
  | leaseR (n : BitVec 3) (d : BitVec 5) (h : BitVec 5) (t : BitVec 5)
  /-- R377. Drop a live lease. -/
  | ldrop (n : BitVec 3) (d : BitVec 5) (h : BitVec 5)
  /-- R378. Query the role map, a lease, a die or the ASID's lease use. -/
  | roleq (n : BitVec 3) (d : BitVec 5) (x : BitVec 5) (c : BitVec 2)
  /-- R392. Send a signed score to the contestant's score register. -/
  | scoreS64 (n : BitVec 3) (x : BitVec 5)
  /-- R392. Send an unsigned score. -/
  | scoreZ64 (n : BitVec 3) (x : BitVec 5)
  /-- R392. Send an FP64 score. -/
  | scoreF64 (n : BitVec 3) (x : BitVec 5)
  /-- R392. Unset the contestant's score. -/
  | scoreClr (n : BitVec 3)
  /-- R393. Stop the core for the rest of the tournament round. -/
  | heat (d : BitVec 5)
  /-- R394. Read a tournament figure: round, share, index, alive or allowance. -/
  | tq (n : BitVec 3) (d : BitVec 5) (c : BitVec 5)
  /-- R142. Scalar floating add. -/
  | fadd (n : BitVec 3) (d : BitVec 5) (x : BitVec 5) (t : BitVec 5) (q : BitVec 2) (f : BitVec 2)
  /-- R142. Scalar floating subtract. -/
  | fsub (n : BitVec 3) (d : BitVec 5) (x : BitVec 5) (t : BitVec 5) (q : BitVec 2) (f : BitVec 2)
  /-- R142. Scalar floating multiply. -/
  | fmul (n : BitVec 3) (d : BitVec 5) (x : BitVec 5) (t : BitVec 5) (q : BitVec 2) (f : BitVec 2)
  /-- R142. Scalar floating minimum. -/
  | fmin (n : BitVec 3) (d : BitVec 5) (x : BitVec 5) (t : BitVec 5) (q : BitVec 2) (f : BitVec 2)
  /-- R142. Scalar floating maximum. -/
  | fmax (n : BitVec 3) (d : BitVec 5) (x : BitVec 5) (t : BitVec 5) (q : BitVec 2) (f : BitVec 2)
  /-- R143. Fused multiply-add into eD with one rounding. -/
  | fma (n : BitVec 3) (d : BitVec 5) (x : BitVec 5) (t : BitVec 5) (f : BitVec 2)
  /-- R144. Scalar floating divide. -/
  | fdiv (n : BitVec 3) (d : BitVec 5) (x : BitVec 5) (t : BitVec 5) (q : BitVec 2) (f : BitVec 2)
  /-- R144. Scalar floating square root. -/
  | fsqrt (n : BitVec 3) (d : BitVec 5) (x : BitVec 5) (q : BitVec 2) (f : BitVec 2)
  /-- R145. Floating comparison into a predicate, optionally pushed into boq.ea. -/
  | fcmp (n : BitVec 3) (d : BitVec 5) (x : BitVec 5) (t : BitVec 5) (p : BitVec 1) (f : BitVec 2) (k : BitVec 3)
  /-- R146. Scalar conversion between floating and integer formats. -/
  | fcvt (n : BitVec 3) (d : BitVec 5) (a : BitVec 5) (c : BitVec 5) (x : BitVec 5)
  /-- R147. One-hot class of a floating value. -/
  | fclass (n : BitVec 3) (d : BitVec 5) (x : BitVec 5) (f : BitVec 2)
  /-- R179. Vector integer add. -/
  | vadd (n : BitVec 3) (d : BitVec 5) (a : BitVec 5) (b : BitVec 5) (k : BitVec 3) (w : BitVec 2)
  /-- R179. Vector integer subtract. -/
  | vsub (n : BitVec 3) (d : BitVec 5) (a : BitVec 5) (b : BitVec 5) (k : BitVec 3) (w : BitVec 2)
  /-- R179. Vector integer multiply. -/
  | vmul (n : BitVec 3) (d : BitVec 5) (a : BitVec 5) (b : BitVec 5) (k : BitVec 3) (w : BitVec 2)
  /-- R179. Vector signed minimum. -/
  | vmin (n : BitVec 3) (d : BitVec 5) (a : BitVec 5) (b : BitVec 5) (k : BitVec 3) (w : BitVec 2)
  /-- R179. Vector signed maximum. -/
  | vmax (n : BitVec 3) (d : BitVec 5) (a : BitVec 5) (b : BitVec 5) (k : BitVec 3) (w : BitVec 2)
  /-- R179. Vector shift left. -/
  | vshl (n : BitVec 3) (d : BitVec 5) (a : BitVec 5) (b : BitVec 5) (k : BitVec 3) (w : BitVec 2)
  /-- R179. Vector logical shift right. -/
  | vshr (n : BitVec 3) (d : BitVec 5) (a : BitVec 5) (b : BitVec 5) (k : BitVec 3) (w : BitVec 2)
  /-- R179. Vector arithmetic shift right. -/
  | vsha (n : BitVec 3) (d : BitVec 5) (a : BitVec 5) (b : BitVec 5) (k : BitVec 3) (w : BitVec 2)
  /-- R180. Vector floating add. -/
  | vfadd (n : BitVec 3) (d : BitVec 5) (a : BitVec 5) (b : BitVec 5) (k : BitVec 3) (f : BitVec 2)
  /-- R180. Vector floating subtract. -/
  | vfsub (n : BitVec 3) (d : BitVec 5) (a : BitVec 5) (b : BitVec 5) (k : BitVec 3) (f : BitVec 2)
  /-- R180. Vector floating multiply. -/
  | vfmul (n : BitVec 3) (d : BitVec 5) (a : BitVec 5) (b : BitVec 5) (k : BitVec 3) (f : BitVec 2)
  /-- R180. Vector floating minimum. -/
  | vfmin (n : BitVec 3) (d : BitVec 5) (a : BitVec 5) (b : BitVec 5) (k : BitVec 3) (f : BitVec 2)
  /-- R180. Vector floating maximum. -/
  | vfmax (n : BitVec 3) (d : BitVec 5) (a : BitVec 5) (b : BitVec 5) (k : BitVec 3) (f : BitVec 2)
  /-- R180. Vector reciprocal. -/
  | vfrcp (n : BitVec 3) (d : BitVec 5) (a : BitVec 5) (k : BitVec 3) (f : BitVec 2)
  /-- R180. Vector reciprocal square root. -/
  | vfrsq (n : BitVec 3) (d : BitVec 5) (a : BitVec 5) (k : BitVec 3) (f : BitVec 2)
  /-- R180. Vector absolute value. -/
  | vfabs (n : BitVec 3) (d : BitVec 5) (a : BitVec 5) (k : BitVec 3) (f : BitVec 2)
  /-- R181. Vector fused multiply-add into the destination. -/
  | vfma (n : BitVec 3) (d : BitVec 5) (a : BitVec 5) (b : BitVec 5) (k : BitVec 3) (f : BitVec 2)
  /-- R181. Vector fused multiply-subtract. -/
  | vfms (n : BitVec 3) (d : BitVec 5) (a : BitVec 5) (b : BitVec 5) (k : BitVec 3) (f : BitVec 2)
  /-- R181. Vector negated multiply-add. -/
  | vfnma (n : BitVec 3) (d : BitVec 5) (a : BitVec 5) (b : BitVec 5) (k : BitVec 3) (f : BitVec 2)
  /-- R181. Widening 16-bit multiply-add into an FP32 pair. -/
  | vfmaw (n : BitVec 3) (d : BitVec 5) (a : BitVec 5) (b : BitVec 5) (k : BitVec 3) (f : BitVec 2)
  /-- R183. Vector format conversion over register groups. -/
  | vcvt (n : BitVec 3) (d : BitVec 5) (a : BitVec 5) (c : BitVec 5) (k : BitVec 3) (x : BitVec 5)
  /-- R184. Apply UE8M0 block scales. -/
  | vscale (n : BitVec 3) (d : BitVec 5) (a : BitVec 5) (b : BitVec 5) (k : BitVec 3) (c : BitVec 2) (f : BitVec 2)
  /-- R184. Remove UE8M0 block scales. -/
  | vunscale (n : BitVec 3) (d : BitVec 5) (a : BitVec 5) (b : BitVec 5) (k : BitVec 3) (c : BitVec 2) (f : BitVec 2)
  /-- R186. Vector integer or floating compare into a mask. -/
  | vcmp (n : BitVec 3) (d : BitVec 5) (a : BitVec 5) (b : BitVec 5) (k : BitVec 3) (f : BitVec 1) (j : BitVec 2) (w : BitVec 2)
  /-- R187. Vector lane permute by indices. -/
  | vperm (n : BitVec 3) (d : BitVec 5) (a : BitVec 5) (b : BitVec 5) (k : BitVec 3) (w : BitVec 2)
  /-- R187. Interleave the low halves. -/
  | vziplo (n : BitVec 3) (d : BitVec 5) (a : BitVec 5) (b : BitVec 5) (k : BitVec 3) (w : BitVec 2)
  /-- R187. Interleave the high halves. -/
  | vziphi (n : BitVec 3) (d : BitVec 5) (a : BitVec 5) (b : BitVec 5) (k : BitVec 3) (w : BitVec 2)
  /-- R187. Gather even lanes. -/
  | vunzipe (n : BitVec 3) (d : BitVec 5) (a : BitVec 5) (b : BitVec 5) (k : BitVec 3) (w : BitVec 2)
  /-- R187. Gather odd lanes. -/
  | vunzipo (n : BitVec 3) (d : BitVec 5) (a : BitVec 5) (b : BitVec 5) (k : BitVec 3) (w : BitVec 2)
  /-- R187. Reverse lanes. -/
  | vrev (n : BitVec 3) (d : BitVec 5) (a : BitVec 5) (k : BitVec 3) (w : BitVec 2)
  /-- R187. Pack active lanes from lane 0. -/
  | vcompress (n : BitVec 3) (d : BitVec 5) (a : BitVec 5) (k : BitVec 3) (w : BitVec 2)
  /-- R189. Integer sum reduction into an e register. -/
  | vradd (n : BitVec 3) (d : BitVec 5) (a : BitVec 5) (k : BitVec 3) (w : BitVec 2)
  /-- R189. Signed minimum reduction. -/
  | vrmin (n : BitVec 3) (d : BitVec 5) (a : BitVec 5) (k : BitVec 3) (w : BitVec 2)
  /-- R189. Signed maximum reduction. -/
  | vrmax (n : BitVec 3) (d : BitVec 5) (a : BitVec 5) (k : BitVec 3) (w : BitVec 2)
  /-- R189. Floating sum reduction by the fixed tree. -/
  | vrfadd (n : BitVec 3) (d : BitVec 5) (a : BitVec 5) (k : BitVec 3) (f : BitVec 2)
  /-- R189. Floating minimum reduction. -/
  | vrfmin (n : BitVec 3) (d : BitVec 5) (a : BitVec 5) (k : BitVec 3) (f : BitVec 2)
  /-- R189. Floating maximum reduction. -/
  | vrfmax (n : BitVec 3) (d : BitVec 5) (a : BitVec 5) (k : BitVec 3) (f : BitVec 2)
  /-- R192. Piecewise quadratic table interpolation per lane. -/
  | vtab (n : BitVec 3) (d : BitVec 5) (a : BitVec 5) (b : BitVec 5) (k : BitVec 3) (f : BitVec 2)
  /-- R191. Load 32 coefficients into a tile table plane. -/
  | tload (n : BitVec 3) (d : BitVec 5) (a : BitVec 5) (b : BitVec 5)
  /-- R191. Configure a tile table. -/
  | tcfg (n : BitVec 3) (d : BitVec 5) (a : BitVec 5)
  /-- R195. Hand a vector body to the vector sequencer, count from a register. -/
  | vrep (c : BitVec 5) (e : BitVec 5)
  /-- R195. Hand a vector body to the vector sequencer, count popped from ldq. -/
  | vrepQ (c : BitVec 5)
  /-- R196. Byte-merged vector move. -/
  | vmov (n : BitVec 3) (d : BitVec 5) (a : BitVec 5) (k : BitVec 3)
  /-- R196. Local pop of vldq into a vector register. -/
  | vmovFromVldq (n : BitVec 3) (d : BitVec 5)
  /-- R196. Local push of a vector register into vstq. -/
  | vmovToVstq (n : BitVec 3) (a : BitVec 5)
  /-- R196. Broadcast an e register into every lane. -/
  | vbcast (n : BitVec 3) (d : BitVec 5) (a : BitVec 5) (k : BitVec 3) (w : BitVec 2)
  /-- R196. Extract a lane into an e register. -/
  | vext (n : BitVec 3) (d : BitVec 5) (a : BitVec 5) (b : BitVec 5) (w : BitVec 2)
  /-- R196. Insert an e register into a lane. -/
  | vins (n : BitVec 3) (d : BitVec 5) (a : BitVec 5) (b : BitVec 5) (w : BitVec 2)
  /-- R196. Vector bitwise and. -/
  | vand (n : BitVec 3) (d : BitVec 5) (a : BitVec 5) (b : BitVec 5) (k : BitVec 3)
  /-- R196. Vector bitwise or. -/
  | vor (n : BitVec 3) (d : BitVec 5) (a : BitVec 5) (b : BitVec 5) (k : BitVec 3)
  /-- R196. Vector bitwise exclusive or. -/
  | vxor (n : BitVec 3) (d : BitVec 5) (a : BitVec 5) (b : BitVec 5) (k : BitVec 3)
  /-- R196. Vector and-not. -/
  | vandn (n : BitVec 3) (d : BitVec 5) (a : BitVec 5) (b : BitVec 5) (k : BitVec 3)
  /-- R196. Bytewise select by a mask. -/
  | vsel (n : BitVec 3) (d : BitVec 5) (a : BitVec 5) (b : BitVec 5) (k : BitVec 3)
  /-- R196. Mask and. -/
  | kand (n : BitVec 3) (d : BitVec 5) (a : BitVec 5) (b : BitVec 5)
  /-- R196. Mask or. -/
  | kor (n : BitVec 3) (d : BitVec 5) (a : BitVec 5) (b : BitVec 5)
  /-- R196. Mask exclusive or. -/
  | kxor (n : BitVec 3) (d : BitVec 5) (a : BitVec 5) (b : BitVec 5)
  /-- R196. Mask not. -/
  | knot (n : BitVec 3) (d : BitVec 5) (a : BitVec 5)
  /-- R196. Mask from the low 128 bits of a vector. -/
  | kfromv (n : BitVec 3) (d : BitVec 5) (a : BitVec 5)
  /-- R196. Vector from a mask. -/
  | vfromk (n : BitVec 3) (d : BitVec 5) (a : BitVec 5)
  /-- R196. Count set bits of a mask. -/
  | kpopc (n : BitVec 3) (d : BitVec 5) (a : BitVec 5)
  /-- R196. Local read of an E-stream control register. -/
  | movEFromCtl (n : BitVec 3) (d : BitVec 5) (c : BitVec 5)
  /-- R196. Local write of an E-stream control register. -/
  | movEToCtl (n : BitVec 3) (c : BitVec 5) (x : BitVec 5)
  /-- R204. Load a matrix latch, scale array or metadata from ULM, by gather, or as a global stream. -/
  | mld (n : BitVec 3) (t : BitVec 5) (l : BitVec 5) (b : BitVec 5) (f : BitVec 2) (x : BitVec 1) (g : BitVec 4)
  /-- R209. Dense matrix multiply-accumulate into an accumulator. -/
  | mma (n : BitVec 3) (c : BitVec 5) (a : BitVec 1) (f : BitVec 4) (b : BitVec 1) (g : BitVec 4) (k : BitVec 3)
  /-- R209. Zero the masked elements of an accumulator. -/
  | mzero (n : BitVec 3) (c : BitVec 5) (k : BitVec 3)
  /-- R211. Joint multiply of the four slices with a broadcast B latch. -/
  | mmaj (n : BitVec 3) (c : BitVec 5) (a : BitVec 1) (f : BitVec 4) (b : BitVec 1) (g : BitVec 4) (k : BitVec 3) (x : BitVec 2)
  /-- R210. N-of-48 sparse matrix multiply-accumulate. -/
  | mmas (n : BitVec 3) (c : BitVec 5) (a : BitVec 1) (f : BitVec 4) (b : BitVec 1) (g : BitVec 4) (k : BitVec 3) (x : BitVec 2)
  /-- R216. Convert an accumulator and send its rows through the row map. -/
  | mst (n : BitVec 3) (t : BitVec 5) (l : BitVec 5) (b : BitVec 5) (c : BitVec 2) (f : BitVec 4)
  /-- R214. Load the 64-entry row map from a vector. -/
  | mmap (n : BitVec 3) (x : BitVec 5)
  /-- R230. Load a points register from an index vector, checking bijection, and request a solve. -/
  | pld (n : BitVec 3) (d : BitVec 5) (a : BitVec 5) (b : BitVec 5)
  /-- R230. Load a points register from switch settings. -/
  | pldSet (n : BitVec 3) (d : BitVec 5) (a : BitVec 5)
  /-- R231. Set an identity of n rows, or invalidate with n = 0. -/
  | pid (n : BitVec 3) (d : BitVec 5) (a : BitVec 5)
  /-- R230. Store a points register's indices into a vector. -/
  | pst (n : BitVec 3) (d : BitVec 5) (a : BitVec 5)
  /-- R230. Store the solved settings of a captured version into a vector. -/
  | pstSet (n : BitVec 3) (d : BitVec 5) (a : BitVec 5)
  /-- R231. Copy a points register. -/
  | pmov (n : BitVec 3) (d : BitVec 5) (a : BitVec 5)
  /-- R232. Build a rotation permutation. -/
  | prot (n : BitVec 3) (d : BitVec 5) (a : BitVec 5) (b : BitVec 5)
  /-- R232. Compose two permutations. -/
  | pcomp (n : BitVec 3) (d : BitVec 5) (a : BitVec 5) (b : BitVec 5)
  /-- R232. Invert a permutation. -/
  | pinv (n : BitVec 3) (d : BitVec 5) (a : BitVec 5)
  /-- R233. Build a Fisher-Yates shuffle from a seed. -/
  | prand (n : BitVec 3) (d : BitVec 5) (a : BitVec 5) (b : BitVec 5)
  /-- R234. Query a cycle-structure figure of a permutation. -/
  | pcyc (n : BitVec 3) (d : BitVec 5) (a : BitVec 5) (b : BitVec 5) (x : BitVec 3)
  /-- R235. Compare two points registers into a predicate. -/
  | peq (n : BitVec 3) (d : BitVec 5) (a : BitVec 5) (b : BitVec 5)
  /-- R237. Permute ULM rows in flight on the points network. -/
  | papply (n : BitVec 3) (t : BitVec 5) (l : BitVec 5) (b : BitVec 5) (im : BitVec 1) (p : BitVec 3)
  /-- R310. Enter an armed exchange phase and redirect the E-stream to the timetable. -/
  | xbegin (d : BitVec 5) (g : BitVec 5) (l : BitVec 5)
  /-- R313. Wait for the phase end and report its status. -/
  | xend (d : BitVec 5)
  /-- R312. Drive a register onto an exchange track at a timetable cycle. -/
  | xmit (c : BitVec 9) (r : BitVec 5) (k : BitVec 1) (t : BitVec 8)
  /-- R312. Latch a track into a register at a timetable cycle. -/
  | xsel (c : BitVec 9) (r : BitVec 5) (k : BitVec 1) (t : BitVec 8)
  /-- R107. Read a system register. -/
  | sysr (n : BitVec 3) (x : BitVec 12) (d : BitVec 5)
  /-- R107. Write a system register under its access codes. -/
  | sysw (n : BitVec 3) (x : BitVec 12) (d : BitVec 5)
  /-- R93. Write the oldest resident register-stack slot to ULM. -/
  | spill (n : BitVec 3) (a : BitVec 5)
  /-- R93. Bring a register-stack slot back from ULM. -/
  | fill (n : BitVec 3) (a : BitVec 5)
  /-- R413. System call to system level. -/
  | trap (c : BitVec 12)
  /-- R414. Return from the active handler of the current level. -/
  | tret
  /-- R272. Invalidate cached translations at all sixteen stations. -/
  | stinv (n : BitVec 3) (k : BitVec 3) (a : BitVec 5)
  /-- R86. No effect besides its selector. -/
  | nop (n : BitVec 3)
  /-- R77. Activate a hardware loop level with a count from a register. -/
  | loop (n : BitVec 3) (l : BitVec 5) (c : BitVec 5) (h : BitVec 5)
  /-- R77. Activate a hardware loop level with a count popped from a queue. -/
  | loopQ (n : BitVec 3) (l : BitVec 5) (h : BitVec 5)
  /-- R77. Re-activate a loop level from its shadow range, count from a register. -/
  | loopr (n : BitVec 3) (c : BitVec 5)
  /-- R77. Re-activate a loop level from its shadow range, count from a queue. -/
  | looprQ (n : BitVec 3)
  /-- R87. Discard later fetched words so they are fetched again. -/
  | ifence (n : BitVec 3)
  /-- R88. Stop or gate the core until a wake condition. -/
  | sleep (n : BitVec 3) (d : BitVec 5) (x : BitVec 5) (t : BitVec 5)
  /-- R413. Breakpoint trap. -/
  | brk (c : BitVec 10)
  /-- R415. End the stream; the core is done once both streams have halted. -/
  | halt (n : BitVec 3)
  /-- R338. Read a core identity value. -/
  | getid (n : BitVec 3) (d : BitVec 5) (x : BitVec 5)
  /-- R48. Hint setting bt and the branch condition for its consumer. -/
  | tgt (p : BitVec 3) (x : BitVec 1) (o : BitVec 16)
  /-- R48. Hint extending the consumer's immediate. -/
  | imm (im : BitVec 20)
  /-- R72. Hint naming the live registers of a safe point. -/
  | live (l : BitVec 20)
  /-- R70. Hint naming the index register and length of a JX table. -/
  | jtab (r : BitVec 5) (l : BitVec 10)
  /-- R47. Hint carrying rounding, saturation, access and short-lived modifiers. -/
  | mod (r : BitVec 3) (x : BitVec 1) (a : BitVec 2) (t : BitVec 1)
  /-- R73. Hint carrying SAU dispatch priority and grouping. -/
  | sched (p : BitVec 2) (g : BitVec 6)
  /-- R47. Hint giving the exchange timetable base for XBEGIN. -/
  | xt (o : BitVec 17)
  /-- R61. A sequencer fetch of 16 aligned bytes into its fetch buffer. -/
  | fetch (core : Nat) (str : Strm)
  /-- R129. A long-latency result becomes ready and is written to its register. -/
  | resultWriteback (core : Nat) (str : Strm)
  /-- R96. A punty entry expires 48 cycles after its write and marks its register expired. -/
  | puntyExpire (core : Nat) (str : Strm) (idx : Nat)
  /-- R94. A gain-cell bank takes its refresh cycle. -/
  | refreshCycle (core bank : Nat)
  /-- R410. A stream takes a trap: records it, stops the other stream and fetches the vector. -/
  | trapEntry (core : Nat) (str : Strm)
  /-- R411. A pending user-level event is delivered at an A-stream safe point. -/
  | eventDelivery (core : Nat)
  /-- R406. The core watchdog count reaches its limit and raises WATCHDOG. -/
  | watchdog (core : Nat)
  /-- R82. Both streams park with queues empty and the pending action is taken or retried. -/
  | pairedSafePoint (core : Nat)
  /-- R335. The kernel asks for a core's pre-emption. -/
  | preemptRequest (core timeoutNs area : Nat) (ranges : List (Nat × Nat))
  /-- R335. The pre-emption timeout passes and the core is reported overdue. -/
  | preemptOverdue (core : Nat)
  /-- R336. The pre-emption is taken and the context record is written. -/
  | contextSave (core : Nat)
  /-- R337. A saved context is resumed at its site or elsewhere. -/
  | contextResume (core target : Nat)
  /-- R335. The kernel kills a core, cancelling commands and departing its groups. -/
  | coreKill (core : Nat)
  /-- R88. A wake condition ends a SLEEP and writes its status. -/
  | sleepWake (core : Nat)
  /-- R88. A SLEEP's timeout expires. -/
  | sleepTimeout (core : Nat)
  /-- R175. The SAU starts up to two dispatched operations or passes. -/
  | sauStart (tile : Nat)
  /-- R177. An SAU operation completes, writing its result and flags. -/
  | sauComplete (core : Nat)
  /-- R195. The vector sequencer issues a body word of a repetition when the queue has room. -/
  | vrepDispatch (core : Nat)
  /-- R204. The loader fills a latch from ULM and marks it full or void. -/
  | mldFill (core : Nat)
  /-- R205. A global-stream MLD writes a latch row. -/
  | globalStreamRow (core id : Nat)
  /-- R200. A queued multiply or MZERO starts once its latches and accumulator are released. -/
  | multiplyStart (core : Nat)
  /-- R209. A multiply completes into its accumulator. -/
  | multiplyComplete (core : Nat)
  /-- R216. The writer converts an accumulator and sends its rows. -/
  | mstRowSend (core : Nat)
  /-- R211. The fourth MMAJ of a join issues and the joint multiply starts. -/
  | mmajJoin (tile : Nat)
  /-- R211. An MMAJ join times out after 2^20 cycles. -/
  | mmajJoinTimeout (tile : Nat)
  /-- R164. All four ROTs join and the rotation is performed or fails. -/
  | rotJoin (tile : Nat)
  /-- R164. A ROT join times out after 2^20 cycles. -/
  | rotJoinTimeout (tile : Nat)
  /-- R225. The signal box starts a queued solve request. -/
  | solveStart (tile : Nat)
  /-- R224. A solve finishes and its settings are written where the version matches. -/
  | solveComplete (tile : Nat)
  /-- R237. The points network applies a PAPPLY and writes its token. -/
  | pointsApplication (core id : Nat)
  /-- R253. The copy engine moves one 64-byte granule of a command. -/
  | engineGranule (core id : Nat)
  /-- R244. A command completes and its status is written to the token home. -/
  | tokenStatusWrite (core id : Nat)
  /-- R294. A router moves a packet to the next channel or holds it. -/
  | routerHop (pkt : Nat)
  /-- R293. Each router recomputes its region count once per network cycle. -/
  | occupancyUpdate
  /-- R296. A packet reaches its destination interface and lands in flow order or waits. -/
  | packetArrival (pkt : Nat)
  /-- R296. A packet refused by a full reorder store is resent after 64 network cycles. -/
  | reorderResend (pkt : Nat)
  /-- R384. A sender receives a REMAP and resolves and resends the packet. -/
  | remapNack (pkt : Nat)
  /-- R101. A deposit reaches a message register, landing or entering the latch. -/
  | depositArrival (pkt : Nat)
  /-- R101. A latched deposit is refused after 256 cycles. -/
  | depositLatchTimeout (core : Nat)
  /-- R101. A deposit given a busy acknowledgement is resent after 64 network cycles. -/
  | busyResend (pkt : Nat)
  /-- R299. A refused deposit with retry set is resent every 64 network cycles. -/
  | retryDepositResend (pkt : Nat)
  /-- R98. A queued device deposit lands in m0 when it is empty. -/
  | deviceDepositLand (core : Nat)
  /-- R299. An admitted notify ORs into the notify register or the always-on latch. -/
  | notifyArrival (pkt : Nat)
  /-- R305. A reduction contribution combines in a router's combining store. -/
  | combine (pkt : Nat)
  /-- R305. The complete reduction result lands at rank 0 and form-1 members. -/
  | reduceResultLand (asid grp tag : Nat)
  /-- R306. A combining entry older than the park time moves to the storage pool. -/
  | combinePark (asid grp tag : Nat)
  /-- R259. A station receives a virtual-address request and translates it. -/
  | translationRequest (core id : Nat)
  /-- R260. A walker reads the table levels, updating a/d or faulting. -/
  | pageWalk (core id : Nat)
  /-- R267. The kernel replies retry and the station walks again. -/
  | faultRetry (core id : Nat)
  /-- R267. The kernel declines a fault and the held requests fail with -5. -/
  | faultDecline (core id : Nat)
  /-- R284. An AMO is performed indivisibly at its home. -/
  | amoHome (core id : Nat)
  /-- R277. A release is performed once its values are written at their homes. -/
  | releasePerformed (core id : Nat)
  /-- R278. An acquire completes and fixes the party's snapshot. -/
  | acquireComplete (core id : Nat)
  /-- R272. The kernel invalidates translations through the stations' control space. -/
  | stationInvalidate (kind operand : Nat)
  /-- R322. An arrival reaches a barrier object and may complete the epoch. -/
  | barrierArrival (core : Nat)
  /-- R325. A withdrawal reaches a barrier object and removes its arrival if the epoch is open. -/
  | barrierWithdrawal (core : Nat)
  /-- R324. The kernel aborts a group; waiting members receive -10. -/
  | groupAbort (asid grp : Nat)
  /-- R310. Every armed member has signalled ready and phase cycle 0 is set. -/
  | exchangeJoin (asid grp : Nat)
  /-- R310. An exchange join times out after 2^20 cycles. -/
  | exchangeJoinTimeout (asid grp : Nat)
  /-- R313. At phase cycle plen every member's E-stream resumes at xret. -/
  | phaseEnd (asid grp : Nat)
  /-- R330. Every member has joined and the gang forms. -/
  | gangJoin (core : Nat)
  /-- R326. A gang join times out after 2^20 cycles. -/
  | gangJoinTimeout (core : Nat)
  /-- R345. The home station hands a ready continuation to a waiting runner. -/
  | taskHandover (asid grp : Nat)
  /-- R345. A drained domain starts its runners at the drain addresses. -/
  | domainDrain (asid grp : Nat)
  /-- R347. A suspended task's detached commands have finished and its record becomes ready. -/
  | taskReady (asid grp rec : Nat)
  /-- R356. The station grants a ring slot to a PROD. -/
  | prodGrant (asid grp ring : Nat)
  /-- R356. The station grants a full slot to a CONS, or end of stream. -/
  | consGrant (asid grp ring : Nat)
  /-- R357. At each interval the shunter marks cores to move between stages. -/
  | shunterInterval (asid grp : Nat)
  /-- R358. A marked core switches stage at a paired safe point. -/
  | stageSwitch (core : Nat)
  /-- R361. A distributor's host performs a QUERY and sends the answer. -/
  | distributorServe (core id : Nat)
  /-- R368. At each 10 us boundary the census computes pressures and may start a re-cast. -/
  | censusInterval
  /-- R379. A re-cast commits at its boundary, or is cancelled. -/
  | recastCommit (tile : Nat)
  /-- R368. The kernel orders a re-cast through the control space. -/
  | recastOrder (die donor target : Nat)
  /-- R366. The kernel writes a die's census policy block. -/
  | censusPolicyWrite (offset : Nat) (value : BitVec 64)
  /-- R377. The census handles a LEASE, LEASE.R, LDROP or ROLEQ and writes aD. -/
  | censusRequest (core id : Nat)
  /-- R375. A lease that was not renewed lapses and its slot frees. -/
  | leaseExpiry (asid slot : Nat)
  /-- R375. The EXPIRING notice time of a lease arrives and the notice is sent. -/
  | expiringNotice (asid slot : Nat)
  /-- R382. A leaving storage tile copies one resident page to its new home. -/
  | pageEvacuation (tile : Nat)
  /-- R383. At commit + 4 us the remaining relay packets are re-injected. -/
  | relayDrainDeadline (tile : Nat)
  /-- R380. A tile finishes annealing and its state becomes normal. -/
  | annealComplete (tile : Nat)
  /-- R392. A SCORE reaches the home station and replaces the score register. -/
  | scoreArrival (scope : Nat)
  /-- R390. A core whose share reached 0 parks at a paired safe point. -/
  | allowanceStop (core : Nat)
  /-- R396. Every core is stopped, so the station compares scores and kills the worse half. -/
  | roundEnd (scope : Nat)
  /-- R389. A new round begins and shares are given. -/
  | roundStart (scope : Nat)
  /-- R397. The kernel aborts a scope, discarding every siding. -/
  | scopeAbort (scope : Nat)
  /-- R418. A released write of wr wakes the queue's scheduler. -/
  | queueWake (q : Nat)
  /-- R419. The scheduler fetches a packet under acquire. -/
  | packetFetch (q : Nat)
  /-- R424. Reserve tiles, load the image, bind ranks and release the cores. -/
  | launchPacket (q idx : Nat)
  /-- R421. Stations copy global memory with acquire and release at SYSTEM. -/
  | copyPacket (q idx : Nat)
  /-- R421. Wait until a masked doubleword passes a test. -/
  | waitPacket (q idx : Nat)
  /-- R421. A WAIT re-reads its word at least every 1 us. -/
  | waitPoll (q idx : Nat)
  /-- R421. A WAIT's timeout expires and the packet fails. -/
  | waitTimeout (q idx : Nat)
  /-- R421. Perform a releasing AMO on a signal word. -/
  | signalPacket (q idx : Nat)
  /-- R422. Run a packet list read fresh from memory. -/
  | indirectPacket (q idx : Nat)
  /-- R422. Run the next k packets n times. -/
  | loopPacket (q idx : Nat)
  /-- R422. Discard fetched packets after it. -/
  | fetchFencePacket (q idx : Nat)
  /-- R387. Start a tournament scope from a descriptor. -/
  | tourneyPacket (q idx : Nat)
  /-- R421. Request a lease on behalf of a named holder core. -/
  | leasePacket (q idx : Nat)
  /-- R425. Reset another queue of the same ASID. -/
  | resetQueuePacket (q idx : Nat)
  /-- R425. The kernel resets a queue through the control space. -/
  | queueResetControl (q : Nat)
  /-- R420. A packet's work completes, updating the signal word or failing the queue. -/
  | packetComplete (q idx : Nat)
  /-- R426. Schedulers send a heartbeat every 1 ms. -/
  | heartbeatSend
  /-- R426. A neighbour misses three beats and sends a reset message. -/
  | heartbeatMiss (nb : Nat)
  /-- R426. The island receives a tagged reset message and may recover the RV64 complex. -/
  | resetMessage (sender target counter : Nat) (tag : BitVec 384)
  /-- R428. A host write through the global window is performed at SYSTEM scope. -/
  | hostWindowWrite (port addr : Nat) (data : List (BitVec 8))
  /-- R428. A host read through the global window returns the latest SYSTEM value. -/
  | hostWindowRead (port addr len : Nat)
  /-- R427. A host port trains to its rate and width. -/
  | hostLinkTrain (port rate width : Nat)
  /-- R430. A scale-up flit failing its CRC is resent on the link. -/
  | linkFlitRetry (port : Nat)
  /-- R431. A scale-up link goes down and outstanding requests move to the next live port. -/
  | scaleupLinkDown (port : Nat)
  /-- R431. A port retrains and rejoins the live set. -/
  | linkRetrain (port : Nat)
  /-- R435. A station scrubs the next HBM granule. -/
  | scrub (station : Nat)
  /-- R437. The kernel requests a power mode through PMODE. -/
  | pmodeWrite (value : BitVec 64)
  /-- R438. Stopped clocks restart at the new frequencies after 2 us. -/
  | modeSwitchRestart
  /-- R439. Power or coolant passes the limit and the island drops a mode. -/
  | powerLimitExceeded
  /-- R439. After 100 ms below 90 % the island returns to the requested mode. -/
  | powerCapRelease
  /-- R441. The island verifies and admits or rejects a new firmware image. -/
  | firmwareImage (image : List (BitVec 8))
  /-- R441. An interrupted flash write leaves the module in recovery state. -/
  | flashWriteInterrupted
  /-- R442. The island answers a nonce with signed measurements and derives the heartbeat key. -/
  | attestationRequest (nonce : BitVec 256) (peer : BitVec 768)
  /-- R263. Device reset zeroes HBM and ULM and resets the role map and firmware checks. -/
  | deviceReset
  /-- R156. A write of a swizzle descriptor waits for earlier ULM accesses and changes the bank function. -/
  | swzWrite (core idx : Nat) (value : BitVec 64)
  /-- R118. A write of FPCTL, trapping on a reserved rounding mode. -/
  | fpctlWrite (core : Nat) (value : BitVec 64)
  /-- R118. An E-stream read of FPCTL waits for every earlier operation's flags. -/
  | fpctlRead (core : Nat) (str : Strm) (dst : BitVec 5)
  /-- R119. A write of SRSEED, storing the reset constant for 0. -/
  | srseedWrite (core : Nat) (value : BitVec 64)
  /-- R109. A write of WIN remaps windowed registers without moving data. -/
  | winWrite (core : Nat) (str : Strm) (value : BitVec 64)
  /-- R107. A write of any system or control register without behaviour of its own. -/
  | registerWrite (core : Nat) (reg : CtlReg) (value : BitVec 64)
  /-- R427. A host snoop arrives on a mode-1 port's CXL.cache link and the device answers it with a miss. -/
  | cxlSnoop (port addr : Nat)
  /-- R337. The kernel evicts a saved core's site; the logical core is unbound, senders receive -2, and a committed task on it is aborted and requeued. -/
  | siteEviction (core : Nat)
  /-- R435. A bit or symbol error arises of itself in HBM, ULM, a register array or a network store. -/
  | softError (site : ErrSite) (multi : Bool)
  /-- R280. A kernel hart on the RV64 complex loads, stores or fences global memory as its own party. -/
  | kernelHartAccess (hart : Nat) (op : HartOp)
  deriving DecidableEq, Repr

end Sys2Proof
end

