-- ==== Sys2Proof/Machine/Form.lean ====
section
/-!
DEFINITION. Which words are legal: the fields whose values leave a word unallocated (R51, R53), the values and selectors that
are reserved, the register fields that break R44 or R45, the streams (R50), the hints that a word admits (R48) and
the privileged words (R402).
-/

namespace Sys2Proof.Machine

/-! ### System registers -/

/-- The numbers that some chapter allots (R105, R109, R118, R119, R155, R160, R165, R206, R212, R213, R238, R239, R320, R331,
R340, R352, R358, R373, R374, R399, R407, R408). -/
def sysAllotted (x : BitVec 12) : Bool :=
  let n := x.toNat
  n == 0x010 || n == 0x011 || n == 0x100 || n == 0x101 || (0x200 ≤ n && n ≤ 0x207) || (0x210 ≤ n && n ≤ 0x217)
    || (0x220 ≤ n && n ≤ 0x223) || (0x300 ≤ n && n ≤ 0x303) || n == 0x308 || n == 0x400 || n == 0x401 || n == 0x410
    || (0x420 ≤ n && n ≤ 0x42E) || n == 0x500 || (0x508 ≤ n && n ≤ 0x50B) || (0x540 ≤ n && n ≤ 0x542)
    || (0x600 ≤ n && n ≤ 0x605) || (0x610 ≤ n && n ≤ 0x613) || (0x618 ≤ n && n ≤ 0x61B) || (0x700 ≤ n && n ≤ 0x702)
    || n == 0x740 || n == 0x741

/-- The registers that only system level may name: WIN, SVEC, TDELEG, WDOG, MGSR and the system trap record (R402). -/
def sysOnly (x : BitVec 12) : Bool :=
  let n := x.toNat
  n == 0x010 || n == 0x600 || n == 0x602 || n == 0x604 || n == 0x702 || (0x610 ≤ n && n ≤ 0x613)

/-- The bit-address registers, which belong to the A-stream (R160). -/
def sysAOnly (x : BitVec 12) : Bool := 0x220 ≤ x.toNat && x.toNat ≤ 0x223

/-! ### Unallocated field values -/

/-- The scalar conversion codes (R146). -/
def cvtCode (c : BitVec 5) : Bool := c.toNat ≤ 8 || (16 ≤ c.toNat && c.toNat ≤ 23)

/-- The vector conversion codes (R182). -/
def vcvtCode (c : BitVec 5) : Bool := cvtCode c || (24 ≤ c.toNat && c.toNat ≤ 30)

/-- The word's fields name no instruction although its row's fixed bits match (R53, subcode unallocated). -/
def unclaimed : Instr → Bool
  | .cmp _ _ _ _ _ _ k => k == 0  -- R137
  | .fcmp _ _ _ _ _ _ k => k == 0 || 5 ≤ k.toNat  -- R145
  | .fcvt _ _ _ _ x => !cvtCode x  -- R146
  | .vcvt _ _ _ _ _ x => !vcvtCode x  -- R182
  | .vtab _ _ _ _ _ f => f == 0  -- R191
  | .vfmaw _ _ _ _ _ f => f.toNat < 2  -- R181
  | .mmas _ _ _ _ _ _ _ x => x == 0 || x == 3  -- R207
  | .rot _ _ _ _ d => d == 0  -- R161
  | .reduce _ _ _ _ _ o _ => 6 ≤ o.toNat  -- R304
  | .pcyc _ _ _ _ x => 6 ≤ x.toNat  -- R228
  | .sysr _ x _ | .sysw _ x _ => !sysAllotted x  -- R107
  | _ => false

/-! ### Reserved values -/

/-- The codes of the control registers (R135). -/
def ctlCode (c : BitVec 5) : Bool :=
  let n := c.toNat
  n ≤ 2 || (4 ≤ n && n ≤ 6) || (8 ≤ n && n ≤ 10) || n == 12 || n == 13 || (16 ≤ n && n ≤ 23)

/-- A register field that a queue flag replaces is not zero (R46, R130). -/
def queueField (q : BitVec 2) (d x : BitVec 5) : Bool := (q.getLsbD 1 && d != 0) || (q.getLsbD 0 && x != 0)

/-- A selector other than SEQ or SP. -/
def notSeqSp (n : BitVec 3) : Bool := n != 0 && n != 7

/-- The reserved values of a copy word (R249): no token, a scope above SYSTEM, a scope without an acquire or a release, hint 3. -/
def copyReserved (t : BitVec 5) (q e : BitVec 1) (c : BitVec 3) (h : BitVec 2) : Bool :=
  t == 0 || 5 ≤ c.toNat || (c != 0 && q == 0 && e == 0) || h == 3

/-- The widths of the matrix element codes (R208). -/
def matWidth (f : BitVec 4) : Nat := if f.toNat < 2 then 16 else if f.toNat < 7 then 8 else 4

/-- Format codes 8 to 15, or two formats of different widths (R208). -/
def matReserved (f g : BitVec 4) : Bool := 8 ≤ f.toNat || 8 ≤ g.toNat || matWidth f != matWidth g

/-- A reserved value stands in a defined field, or the word carries a selector that it forbids (R53, subcode reserved-field).
Non-zero reserved bits are found by the decoder. -/
def reservedBad : Instr → Bool
  | .add _ d x _ q | .sub _ d x _ q | .and _ d x _ q | .or _ d x _ q | .xor _ d x _ q | .shl _ d x _ q | .shr _ d x _ q
  | .sha _ d x _ q | .min _ d x _ q | .minZ64 _ d x _ q | .max _ d x _ q | .maxZ64 _ d x _ q | .clz _ d x q | .popc _ d x q
  | .mov _ d x q | .shlImm _ d x _ q _ | .shrImm _ d x _ q _ | .shaImm _ d x _ q _ | .sel _ d x _ q _ | .mul _ d x _ q
  | .mulh _ d x _ q | .mulhZ64 _ d x _ q | .div _ d x _ q | .divZ64 _ d x _ q | .rem _ d x _ q | .remZ64 _ d x _ q
  | .fadd _ d x _ q _ | .fsub _ d x _ q _ | .fmul _ d x _ q _ | .fmin _ d x _ q _ | .fmax _ d x _ q _ | .fdiv _ d x _ q _
  | .fsqrt _ d x q _ => queueField q d x
  | .movFromCtl _ _ c | .movToCtl _ c _ | .movEFromCtl _ _ c | .movEToCtl _ c _ => !ctlCode c  -- R135, R196
  | .rot n t _ _ _ => t == 0 || notSeqSp n  -- R162
  | .putr _ t _ _ | .getr _ t _ _ => t == 0  -- R244
  | .copy _ t _ _ _ q e c h | .copy2 _ t _ _ _ q e c h | .copyp _ t _ _ _ q e c h => copyReserved t q e c h
  | .gld _ t _ _ _ h => t == 0 || h == 3  -- R268
  | .gst _ t _ _ _ h => t == 0 || h == 3  -- R268
  | .amo _ t _ _ _ _ c => t == 0 || 5 ≤ c.toNat  -- R283
  | .deposit _ t _ _ _ | .notify _ t _ _ | .mcast _ t _ _ _ => t == 0  -- R298
  | .ntake _ d => d == 0  -- R298
  | .reduce _ t _ _ _ _ _ => t == 0  -- R244
  | .redabort _ t _ => t == 0  -- R244
  | .query _ t _ _ | .queryM _ t _ _ => t == 0  -- R360
  | .prod _ d _ | .cons _ d | .prodClose _ d => d == 0  -- R244, R355
  | .phase _ _ _ c => 5 ≤ c.toNat  -- R285
  | .fence _ c _ _ _ => 5 ≤ c.toNat  -- R281
  | .roleq _ _ x c => c == 3 && x != 0  -- R376
  | .tq _ _ c => 5 ≤ c.toNat  -- R391
  | .fcvt _ _ _ c _ => !cvtCode c  -- R146
  | .vcvt _ _ _ c _ _ => !vcvtCode c  -- R182
  | .vtab _ _ _ b _ _ => 8 ≤ b.toNat  -- R191
  | .tload _ _ _ b => 24 ≤ b.toNat  -- R191
  | .vrep c _ | .vrepQ c => 16 ≤ c.toNat  -- R193
  | .mld _ t _ b f x g =>  -- R201
    10 ≤ g.toNat || (x == 1 && 4 ≤ g.toNat) || ((f == 1 || f == 2) && (2 ≤ g.toNat || x == 1))
      || (f == 3 && t == 0) || (f != 3 && t != 0) || (f == 0 && b != 0)
  | .mma _ _ _ f _ g _ | .mmaj _ _ _ f _ g _ _ | .mmas _ _ _ f _ g _ _ => matReserved f g  -- R208
  | .mst _ t _ _ _ f => t == 0 || 6 ≤ f.toNat  -- R214
  | .pcyc _ _ _ b x => x != 4 && b != 0  -- R228
  | .papply _ t _ _ _ _ => t == 0  -- R236
  | .stinv _ k a => 4 ≤ k.toNat || (k == 0 && a != 0)  -- R271
  | .loop n _ _ _ | .loopQ n _ _ | .loopr n _ | .looprQ n => notSeqSp n  -- R75
  | .sleep n _ _ _ | .snext n _ | .halt n => notSeqSp n  -- R88, R355, R412
  | .getid _ _ x => 9 ≤ x.toNat  -- R338
  | .jtab _ l => l == 0  -- R47
  | .mod r _ a _ => 6 ≤ r.toNat || a == 3  -- R47
  | _ => false

/-! ### Operand forms -/

/-- The field names a register beyond the eight of its class (R44). -/
def above7 (f : BitVec 5) : Bool := 8 ≤ f.toNat

/-- The group of w registers from f is misaligned or runs past register 31 (R45). -/
def groupBad (w : Nat) (f : BitVec 5) : Bool := f.toNat % w != 0 || 31 < f.toNat + w - 1

/-- The lane width of a conversion code (R172, R183). -/
def cvtWidth (c : BitVec 5) : Nat :=
  let n := c.toNat
  if n == 0 || n == 19 || n == 23 then 64 else if n == 1 || n == 18 || n == 22 then 32
  else if n == 2 || n == 3 || n == 17 || n == 21 then 16 else if n == 8 then 4 else 8

/-- The number of elements of a VCVT (R183). -/
def vcvtCount (c x : BitVec 5) : Nat :=
  Nat.min (1024 / Nat.min (cvtWidth c) (cvtWidth x)) (8192 / Nat.max (cvtWidth c) (cvtWidth x))

/-- The registers of one operand group of a VCVT (R183): at least one. -/
def vcvtGroup (n : Nat) (c : BitVec 5) : Nat := Nat.max 1 (n * cvtWidth c / 1024)

/-- A register field breaks R44 or R45 (R53, subcode operand-form). -/
def operandBad : Instr → Bool
  | .cmp _ d _ _ _ _ _ | .fcmp _ d _ _ _ _ _ => above7 d
  | .ldb _ _ b _ _ | .ldbS64 _ _ b _ _ | .stb _ b _ _ _ => 4 ≤ b.toNat
  | .take _ _ m | .putm _ m _ => 16 ≤ m.toNat
  | .peek _ _ m p => 16 ≤ m.toNat || above7 p
  | .waitn _ _ c _ => above7 c
  | .setn _ c _ | .decn _ c _ => above7 c
  | .copy2 _ _ l b _ _ _ _ _ | .copyp _ _ l b _ _ _ _ _ => groupBad 2 l || groupBad 2 b
  | .mcast _ _ _ b _ => groupBad 2 b
  | .amo _ _ x _ o _ _ => o == 7 && groupBad 2 x
  | .vfmaw _ d _ _ _ _ => groupBad 2 d
  | .vcvt _ d a c _ x => groupBad (vcvtGroup (vcvtCount c x) x) d || groupBad (vcvtGroup (vcvtCount c x) c) a
  | .vcmp _ d _ _ _ _ _ _ => above7 d
  | .tload _ d _ _ | .tcfg _ d _ => above7 d
  | .kand _ d a b | .kor _ d a b | .kxor _ d a b => above7 d || above7 a || above7 b
  | .knot _ d a => above7 d || above7 a
  | .kfromv _ d _ => above7 d
  | .vfromk _ _ a | .kpopc _ _ a => above7 a
  | .mld _ _ _ b f _ _ => f == 2 && above7 b
  | .mma _ c _ _ _ _ _ | .mzero _ c _ | .mmaj _ c _ _ _ _ _ _ | .mmas _ c _ _ _ _ _ _ => 4 ≤ c.toNat
  | .pld _ d _ _ | .pldSet _ d _ | .pid _ d _ | .prot _ d _ _ | .prand _ d _ _ => above7 d
  | .pst _ _ a | .pstSet _ _ a | .pcyc _ _ a _ _ => above7 a
  | .pmov _ d a | .pinv _ d a => above7 d || above7 a
  | .pcomp _ d a b | .peq _ d a b => above7 d || above7 a || above7 b
  | _ => false

/-! ### Streams, levels and hints -/

/-- What a word admits. -/
structure Form where
  /-- the word exists in the A-stream (R50) -/
  inA : Bool
  /-- the word exists in the E-stream (R50) -/
  inE : Bool
  /-- IMM hints extend its immediate (R133) -/
  imm : Bool := false
  /-- it dispatches to the SAU (R48, R174) -/
  sched : Bool := false
  /-- it takes an XT hint, and needs one (R48) -/
  xt : Bool := false
  /-- a rounding override -/
  round : Bool := false
  /-- saturation -/
  sat : Bool := false
  /-- an access modifier -/
  access : Bool := false
  /-- a short-lived destination (R95) -/
  short : Bool := false
  /-- no hint is admitted but those that the selector needs, and no modifier (R201, R227, R311, R329, R376) -/
  bare : Bool := false
  /-- no MOD hint is admitted, not even one that sets nothing (R76, R86, R194, R207, R298, R412) -/
  noMod : Bool := false
  deriving DecidableEq, Repr

/-- An A-stream word without modifiers. -/
def Form.a : Form := ⟨true, false, false, false, false, false, false, false, false, false, false⟩

/-- An E-stream word without modifiers. -/
def Form.e : Form := ⟨false, true, false, false, false, false, false, false, false, false, false⟩

/-- A word of one stream that admits no hint but those that its selector needs. -/
def Form.bareA : Form := { Form.a with bare := true }

/-- The same in the E-stream. -/
def Form.bareE : Form := { Form.e with bare := true }

/-- A word of both streams without modifiers. -/
def Form.both : Form := ⟨true, true, false, false, false, false, false, false, false, false, false⟩

/-- An E-stream word that dispatches to the SAU. -/
def Form.sau : Form := { Form.e with sched := true }

/-- A vector word with a rounding result. -/
def Form.sauF : Form := { Form.sau with round := true, sat := true, short := true }

/-- The destination stands in a queue, where a short-lived mark is not admitted (R95). -/
def toQueue (q : BitVec 2) : Bool := q.getLsbD 1

/-- The form of each word; a step of the device has none, and its form is not looked at. Of FCVT the spec says only that a conversion into a float takes
`.sat`: it is given every modifier of R141's words, a rounding suffix, `.s`, and `.sat` before an integer destination among them (DESIGN CHOICE). -/
def form : Instr → Form
  | .add _ _ _ _ q | .sub _ _ _ _ q => { Form.a with sat := true, short := !toQueue q }  -- R132
  | .and _ _ _ _ q | .or _ _ _ _ q | .xor _ _ _ _ q | .shl _ _ _ _ q | .shr _ _ _ _ q
  | .sha _ _ _ _ q | .min _ _ _ _ q | .minZ64 _ _ _ _ q | .max _ _ _ _ q | .maxZ64 _ _ _ _ q | .clz _ _ _ q | .popc _ _ _ q
  | .mov _ _ _ q | .shlImm _ _ _ _ q _ | .shrImm _ _ _ _ q _ | .shaImm _ _ _ _ q _ | .sel _ _ _ _ q _ | .mul _ _ _ _ q
  | .mulh _ _ _ _ q | .mulhZ64 _ _ _ _ q | .div _ _ _ _ q | .divZ64 _ _ _ _ q | .rem _ _ _ _ q
  | .remZ64 _ _ _ _ q => { Form.a with short := !toQueue q }  -- R132, R136
  | .movFromCtl .. | .bfx .. | .bfxZ64 .. | .bfi .. | .lea .. | .geom .. | .ldS .. | .ldZ .. | .ldb ..
  | .ldbS64 .. => { Form.a with short := true }  -- R132, R157, R161
  | .addImm .. => { Form.a with imm := true, sat := true, short := true }  -- R133
  | .andImm .. | .orImm .. | .xorImm .. => { Form.a with imm := true, short := true }  -- R133
  | .movToCtl .. | .cmp .. | .st .. | .ldq .. | .stq .. | .vldq .. | .vstq .. | .stb .. | .rot .. | .putr .. | .getr .. | .copy ..
  | .copy2 .. | .copyp .. | .amo .. | .reduce .. | .redabort .. | .query ..
  | .queryM .. | .take .. | .peek .. | .waitm .. | .putm .. | .waitn .. | .setn .. | .decn .. | .bar .. | .barx .. | .phase ..
  | .fence .. | .spawn .. | .spawnC .. | .await .. | .yield .. | .retire | .retireCancel | .prod ..
  | .cons .. | .snext .. | .prodClose .. | .scoreS64 .. | .scoreZ64 ..
  | .scoreF64 .. | .scoreClr .. | .heat .. | .tq .. | .xend .. | .stinv .. | .sleep .. => Form.a
  | .deposit .. | .notify .. | .ntake .. | .mcast .. => { Form.a with noMod := true }  -- R298
  | .gang .. | .ungang .. | .lease .. | .leaseR .. | .ldrop .. | .roleq .. => Form.bareA  -- R329, R376
  | .gld .. | .gst .. => { Form.a with access := true }  -- R268
  | .xbegin .. => { Form.a with xt := true }  -- R310
  | .fadd _ _ _ _ q _ | .fsub _ _ _ _ q _ | .fmul _ _ _ _ q _ | .fmin _ _ _ _ q _ | .fmax _ _ _ _ q _ | .fdiv _ _ _ _ q _
  | .fsqrt _ _ _ q _ => { Form.e with round := true, sat := true, short := !toQueue q }  -- R141
  | .fma .. | .fcvt .. => { Form.e with round := true, sat := true, short := true }  -- R141, R146
  | .fcmp .. | .fclass .. => Form.e
  | .vadd .. | .vsub .. | .vmul .. => { Form.sau with sat := true, short := true }  -- R179
  | .vmin .. | .vmax .. | .vshl .. | .vshr .. | .vsha .. | .vperm .. | .vziplo .. | .vziphi .. | .vunzipe .. | .vunzipo ..
  | .vrev .. | .vcompress .. | .vmov .. | .vbcast .. | .vins .. | .vand .. | .vor .. | .vxor .. | .vandn .. | .vsel ..
  | .vfromk .. => { Form.sau with short := true }  -- R178
  | .vfadd .. | .vfsub .. | .vfmul .. | .vfmin .. | .vfmax .. | .vfrcp .. | .vfrsq .. | .vfabs .. | .vfma .. | .vfms ..
  | .vfnma .. | .vscale .. | .vunscale .. | .vtab .. => Form.sauF  -- R178
  | .vfmaw .. => { Form.sauF with short := false }  -- R178: the destination is a pair
  | .vcvt _ _ _ c _ x => { Form.sauF with short := vcvtGroup (vcvtCount c x) x == 1 }  -- R178
  | .vcmp _ _ _ _ _ f _ _ => if f == 1 then { Form.sau with round := true, sat := true } else Form.sau  -- R178, R186
  | .vradd .. | .vrmin .. | .vrmax .. | .tload .. | .tcfg .. | .vext .. | .kand .. | .kor .. | .kxor .. | .knot ..
  | .kfromv .. | .kpopc .. => Form.sau
  | .vrfadd .. | .vrfmin .. | .vrfmax .. => { Form.sauF with short := false }  -- R178
  | .vmovFromVldq .. => { Form.e with short := true }  -- R178
  | .vrep .. | .vrepQ .. | .mma .. | .mzero .. | .mmaj .. | .mmas .. => { Form.e with noMod := true }  -- R194, R207
  | .vmovToVstq .. | .movEFromCtl .. | .movEToCtl .. | .mmap .. | .papply .. => Form.e  -- R214, R236
  | .mld .. | .pld .. | .pldSet .. | .pid .. | .pst .. | .pstSet .. | .pmov .. | .prot .. | .pcomp .. | .pinv .. | .prand ..
  | .pcyc .. | .peq .. => Form.bareE  -- R201, R227
  | .mst .. => { Form.e with round := true, sat := true }  -- R214
  | .xmit .. | .xsel .. => Form.bareE  -- R311
  | .getid .. => { Form.both with short := true }  -- R338
  | .nop .. | .loop .. | .loopQ .. | .loopr .. | .looprQ .. | .trap .. | .tret | .brk .. | .halt .. => { Form.both with noMod := true }  -- R76, R86, R412
  | _ => Form.both

/-- The words that only system level may issue (R402). -/
def privileged : Instr → Bool
  | .spill .. | .fill .. | .stinv .. => true
  | .sysr _ x _ | .sysw _ x _ => sysOnly x
  | _ => false

/-- The word is valid in the stream (R50, R53, R160). -/
def streamOk (st : Strm) : Instr → Bool
  | .sysr _ x _ | .sysw _ x _ => st == .a || !sysAOnly x
  | i => match st with
    | .a => (form i).inA
    | .e => (form i).inE

/-- The selector of a word: the words without the field have one selector only. -/
def selector : Instr → BitVec 3
  | .add n .. | .sub n .. | .and n .. | .or n .. | .xor n .. | .shl n .. | .shr n .. | .sha n .. | .min n .. | .minZ64 n ..
  | .max n .. | .maxZ64 n .. | .clz n .. | .popc n .. | .mov n .. | .movFromCtl n .. | .movToCtl n .. | .shlImm n ..
  | .shrImm n .. | .shaImm n .. | .sel n .. | .mul n .. | .mulh n .. | .mulhZ64 n .. | .div n .. | .divZ64 n .. | .rem n ..
  | .remZ64 n .. | .cmp n .. | .bfx n .. | .bfxZ64 n .. | .bfi n .. | .lea n .. | .geom n .. | .addImm n .. | .andImm n ..
  | .orImm n .. | .xorImm n .. | .ldS n .. | .ldZ n .. | .st n .. | .ldq n .. | .stq n .. | .vldq n .. | .vstq n .. | .ldb n ..
  | .ldbS64 n .. | .stb n .. | .rot n .. | .putr n .. | .getr n .. | .copy n .. | .copy2 n .. | .copyp n .. | .gld n .. | .gst n ..
  | .amo n .. | .deposit n .. | .notify n .. | .ntake n .. | .mcast n .. | .reduce n .. | .redabort n .. | .query n ..
  | .queryM n .. | .take n .. | .peek n .. | .waitm n .. | .putm n .. | .waitn n .. | .setn n .. | .decn n .. | .bar n ..
  | .barx n .. | .phase n .. | .fence n .. | .ungang n .. | .spawn n .. | .spawnC n .. | .prod n .. | .cons n .. | .snext n ..
  | .prodClose n .. | .lease n .. | .leaseR n .. | .ldrop n .. | .roleq n .. | .scoreS64 n .. | .scoreZ64 n .. | .scoreF64 n ..
  | .scoreClr n .. | .tq n .. | .fadd n .. | .fsub n .. | .fmul n .. | .fmin n .. | .fmax n .. | .fma n .. | .fdiv n ..
  | .fsqrt n .. | .fcmp n .. | .fcvt n .. | .fclass n .. | .vadd n .. | .vsub n .. | .vmul n .. | .vmin n .. | .vmax n ..
  | .vshl n .. | .vshr n .. | .vsha n .. | .vfadd n .. | .vfsub n .. | .vfmul n .. | .vfmin n .. | .vfmax n .. | .vfrcp n ..
  | .vfrsq n .. | .vfabs n .. | .vfma n .. | .vfms n .. | .vfnma n .. | .vfmaw n .. | .vcvt n .. | .vscale n .. | .vunscale n ..
  | .vcmp n .. | .vperm n .. | .vziplo n .. | .vziphi n .. | .vunzipe n .. | .vunzipo n .. | .vrev n .. | .vcompress n ..
  | .vradd n .. | .vrmin n .. | .vrmax n .. | .vrfadd n .. | .vrfmin n .. | .vrfmax n .. | .vtab n .. | .tload n .. | .tcfg n ..
  | .vmov n .. | .vmovFromVldq n .. | .vmovToVstq n .. | .vbcast n .. | .vext n .. | .vins n .. | .vand n .. | .vor n ..
  | .vxor n .. | .vandn n .. | .vsel n .. | .kand n .. | .kor n .. | .kxor n .. | .knot n .. | .kfromv n .. | .vfromk n ..
  | .kpopc n .. | .movEFromCtl n .. | .movEToCtl n .. | .mld n .. | .mma n .. | .mzero n .. | .mmaj n .. | .mmas n ..
  | .mst n .. | .mmap n .. | .pld n .. | .pldSet n .. | .pid n .. | .pst n .. | .pstSet n .. | .pmov n .. | .prot n ..
  | .pcomp n .. | .pinv n .. | .prand n .. | .pcyc n .. | .peq n .. | .papply n .. | .sysr n .. | .sysw n .. | .spill n ..
  | .fill n .. | .stinv n .. | .nop n | .loop n .. | .loopQ n .. | .loopr n .. | .looprQ n | .ifence n | .sleep n .. | .halt n
  | .getid n .. => n
  | .gang .. | .await .. | .yield .. | .retire | .retireCancel | .heat .. => 7  -- R329, R343, R391
  | _ => 0

/-- The hint words (R47). -/
def isHint : Instr → Bool
  | .tgt .. | .imm .. | .live .. | .jtab .. | .mod .. | .sched .. | .xt .. => true
  | _ => false

end Sys2Proof.Machine
end

