-- ==== Sys2Proof/Decode.lean ====
section
/-!
DEFINITION. The decoder: total on any 32 bits, rejecting by name, and after it the encoder, both written from the
formats of R43 and the fields of spec/opcode_table.json. A word is unallocated when no row claims its major opcode and fn
(R50, R51), reserved when a row claims it and a field that must be zero, or a selector, is not as the row has it (R53).
-/

namespace Sys2Proof

/-- What a word decodes to before the stream and the operands are looked at (R53). -/
inductive Decoded where
  | unallocated
  /-- a row claims the word, and a reserved field of it is not zero; the streams in which the row is valid -/
  | reserved (inA inE : Bool)
  | ok (i : Instr)
  deriving DecidableEq, Repr

/-- The word belongs to a row: its instruction, or the reserved-field subcode when zero is false (R53). -/
def claim (zero inA inE : Bool) (i : Instr) : Decoded :=
  if Machine.unclaimed i then .unallocated else if zero then .ok i else .reserved inA inE

/-- Major opcode 0x00 (R50). -/
def decode00 (w : Insn) : Decoded :=
  if w.extractLsb' 0 6 = 1 then claim (true) true false (.add (w.extractLsb' 29 3) (w.extractLsb' 18 5) (w.extractLsb' 13 5) (w.extractLsb' 8 5) (w.extractLsb' 6 2))
  else if w.extractLsb' 0 6 = 2 then claim (true) true false (.sub (w.extractLsb' 29 3) (w.extractLsb' 18 5) (w.extractLsb' 13 5) (w.extractLsb' 8 5) (w.extractLsb' 6 2))
  else if w.extractLsb' 0 6 = 3 then claim (true) true false (.and (w.extractLsb' 29 3) (w.extractLsb' 18 5) (w.extractLsb' 13 5) (w.extractLsb' 8 5) (w.extractLsb' 6 2))
  else if w.extractLsb' 0 6 = 4 then claim (true) true false (.or (w.extractLsb' 29 3) (w.extractLsb' 18 5) (w.extractLsb' 13 5) (w.extractLsb' 8 5) (w.extractLsb' 6 2))
  else if w.extractLsb' 0 6 = 5 then claim (true) true false (.xor (w.extractLsb' 29 3) (w.extractLsb' 18 5) (w.extractLsb' 13 5) (w.extractLsb' 8 5) (w.extractLsb' 6 2))
  else if w.extractLsb' 0 6 = 6 then claim (true) true false (.shl (w.extractLsb' 29 3) (w.extractLsb' 18 5) (w.extractLsb' 13 5) (w.extractLsb' 8 5) (w.extractLsb' 6 2))
  else if w.extractLsb' 0 6 = 7 then claim (true) true false (.shr (w.extractLsb' 29 3) (w.extractLsb' 18 5) (w.extractLsb' 13 5) (w.extractLsb' 8 5) (w.extractLsb' 6 2))
  else if w.extractLsb' 0 6 = 8 then claim (true) true false (.sha (w.extractLsb' 29 3) (w.extractLsb' 18 5) (w.extractLsb' 13 5) (w.extractLsb' 8 5) (w.extractLsb' 6 2))
  else if w.extractLsb' 0 6 = 9 then claim (true) true false (.min (w.extractLsb' 29 3) (w.extractLsb' 18 5) (w.extractLsb' 13 5) (w.extractLsb' 8 5) (w.extractLsb' 6 2))
  else if w.extractLsb' 0 6 = 10 then claim (true) true false (.minZ64 (w.extractLsb' 29 3) (w.extractLsb' 18 5) (w.extractLsb' 13 5) (w.extractLsb' 8 5) (w.extractLsb' 6 2))
  else if w.extractLsb' 0 6 = 11 then claim (true) true false (.max (w.extractLsb' 29 3) (w.extractLsb' 18 5) (w.extractLsb' 13 5) (w.extractLsb' 8 5) (w.extractLsb' 6 2))
  else if w.extractLsb' 0 6 = 12 then claim (true) true false (.maxZ64 (w.extractLsb' 29 3) (w.extractLsb' 18 5) (w.extractLsb' 13 5) (w.extractLsb' 8 5) (w.extractLsb' 6 2))
  else if w.extractLsb' 0 6 = 13 then claim (w.extractLsb' 8 5 == 0) true false (.clz (w.extractLsb' 29 3) (w.extractLsb' 18 5) (w.extractLsb' 13 5) (w.extractLsb' 6 2))
  else if w.extractLsb' 0 6 = 14 then claim (w.extractLsb' 8 5 == 0) true false (.popc (w.extractLsb' 29 3) (w.extractLsb' 18 5) (w.extractLsb' 13 5) (w.extractLsb' 6 2))
  else if w.extractLsb' 0 6 = 16 then claim (w.extractLsb' 8 5 == 0) true false (.mov (w.extractLsb' 29 3) (w.extractLsb' 18 5) (w.extractLsb' 13 5) (w.extractLsb' 6 2))
  else if w.extractLsb' 0 8 = 17 then claim (w.extractLsb' 8 5 == 0) true false (.movFromCtl (w.extractLsb' 29 3) (w.extractLsb' 18 5) (w.extractLsb' 13 5))
  else if w.extractLsb' 0 8 = 18 then claim (w.extractLsb' 8 5 == 0) true false (.movToCtl (w.extractLsb' 29 3) (w.extractLsb' 18 5) (w.extractLsb' 13 5))
  else if w.extractLsb' 1 5 = 16 then claim (true) true false (.shlImm (w.extractLsb' 29 3) (w.extractLsb' 18 5) (w.extractLsb' 13 5) (w.extractLsb' 8 5) (w.extractLsb' 6 2) (w.extractLsb' 0 1))
  else if w.extractLsb' 1 5 = 17 then claim (true) true false (.shrImm (w.extractLsb' 29 3) (w.extractLsb' 18 5) (w.extractLsb' 13 5) (w.extractLsb' 8 5) (w.extractLsb' 6 2) (w.extractLsb' 0 1))
  else if w.extractLsb' 1 5 = 18 then claim (true) true false (.shaImm (w.extractLsb' 29 3) (w.extractLsb' 18 5) (w.extractLsb' 13 5) (w.extractLsb' 8 5) (w.extractLsb' 6 2) (w.extractLsb' 0 1))
  else if w.extractLsb' 3 3 = 5 then claim (true) true false (.sel (w.extractLsb' 29 3) (w.extractLsb' 18 5) (w.extractLsb' 13 5) (w.extractLsb' 8 5) (w.extractLsb' 6 2) (w.extractLsb' 0 3))
  else .unallocated

/-- Major opcode 0x01 (R50). -/
def decode01 (w : Insn) : Decoded :=
  if w.extractLsb' 0 6 = 1 then claim (true) true false (.mul (w.extractLsb' 29 3) (w.extractLsb' 18 5) (w.extractLsb' 13 5) (w.extractLsb' 8 5) (w.extractLsb' 6 2))
  else if w.extractLsb' 0 6 = 2 then claim (true) true false (.mulh (w.extractLsb' 29 3) (w.extractLsb' 18 5) (w.extractLsb' 13 5) (w.extractLsb' 8 5) (w.extractLsb' 6 2))
  else if w.extractLsb' 0 6 = 3 then claim (true) true false (.mulhZ64 (w.extractLsb' 29 3) (w.extractLsb' 18 5) (w.extractLsb' 13 5) (w.extractLsb' 8 5) (w.extractLsb' 6 2))
  else if w.extractLsb' 0 6 = 4 then claim (true) true false (.div (w.extractLsb' 29 3) (w.extractLsb' 18 5) (w.extractLsb' 13 5) (w.extractLsb' 8 5) (w.extractLsb' 6 2))
  else if w.extractLsb' 0 6 = 5 then claim (true) true false (.divZ64 (w.extractLsb' 29 3) (w.extractLsb' 18 5) (w.extractLsb' 13 5) (w.extractLsb' 8 5) (w.extractLsb' 6 2))
  else if w.extractLsb' 0 6 = 6 then claim (true) true false (.rem (w.extractLsb' 29 3) (w.extractLsb' 18 5) (w.extractLsb' 13 5) (w.extractLsb' 8 5) (w.extractLsb' 6 2))
  else if w.extractLsb' 0 6 = 7 then claim (true) true false (.remZ64 (w.extractLsb' 29 3) (w.extractLsb' 18 5) (w.extractLsb' 13 5) (w.extractLsb' 8 5) (w.extractLsb' 6 2))
  else .unallocated

/-- Major opcode 0x02 (R50). -/
def decode02 (w : Insn) : Decoded :=
  if w.extractLsb' 5 2 = 0 ∧ w.extractLsb' 3 1 = 0 then claim (true) true false (.cmp (w.extractLsb' 29 3) (w.extractLsb' 18 5) (w.extractLsb' 13 5) (w.extractLsb' 8 5) (w.extractLsb' 7 1) (w.extractLsb' 4 1) (w.extractLsb' 0 3))
  else .unallocated

/-- Major opcode 0x03 (R50). -/
def decode03 (w : Insn) : Decoded :=
  if w.extractLsb' 0 8 = 1 then claim (true) true false (.bfx (w.extractLsb' 29 3) (w.extractLsb' 18 5) (w.extractLsb' 13 5) (w.extractLsb' 8 5))
  else if w.extractLsb' 0 8 = 2 then claim (true) true false (.bfxZ64 (w.extractLsb' 29 3) (w.extractLsb' 18 5) (w.extractLsb' 13 5) (w.extractLsb' 8 5))
  else if w.extractLsb' 0 8 = 3 then claim (true) true false (.bfi (w.extractLsb' 29 3) (w.extractLsb' 18 5) (w.extractLsb' 13 5) (w.extractLsb' 8 5))
  else if w.extractLsb' 2 6 = 1 then claim (true) true false (.lea (w.extractLsb' 29 3) (w.extractLsb' 18 5) (w.extractLsb' 13 5) (w.extractLsb' 8 5) (w.extractLsb' 0 2))
  else if w.extractLsb' 2 6 = 2 then claim (w.extractLsb' 8 5 == 0) true false (.geom (w.extractLsb' 29 3) (w.extractLsb' 18 5) (w.extractLsb' 13 5) (w.extractLsb' 0 2))
  else .unallocated

/-- Major opcode 0x04 (R50). -/
def decode04 (w : Insn) : Decoded :=
  claim (true) true false (.addImm (w.extractLsb' 29 3) (w.extractLsb' 18 5) (w.extractLsb' 13 5) (w.extractLsb' 0 13))

/-- Major opcode 0x05 (R50). -/
def decode05 (w : Insn) : Decoded :=
  claim (true) true false (.andImm (w.extractLsb' 29 3) (w.extractLsb' 18 5) (w.extractLsb' 13 5) (w.extractLsb' 0 13))

/-- Major opcode 0x06 (R50). -/
def decode06 (w : Insn) : Decoded :=
  claim (true) true false (.orImm (w.extractLsb' 29 3) (w.extractLsb' 18 5) (w.extractLsb' 13 5) (w.extractLsb' 0 13))

/-- Major opcode 0x07 (R50). -/
def decode07 (w : Insn) : Decoded :=
  claim (true) true false (.xorImm (w.extractLsb' 29 3) (w.extractLsb' 18 5) (w.extractLsb' 13 5) (w.extractLsb' 0 13))

/-- Major opcode 0x08 (R50). -/
def decode08 (w : Insn) : Decoded :=
  claim (true) true false (.ldS (w.extractLsb' 29 3) (w.extractLsb' 18 5) (w.extractLsb' 13 5) (w.extractLsb' 11 2) (w.extractLsb' 0 11))

/-- Major opcode 0x09 (R50). -/
def decode09 (w : Insn) : Decoded :=
  claim (true) true false (.ldZ (w.extractLsb' 29 3) (w.extractLsb' 18 5) (w.extractLsb' 13 5) (w.extractLsb' 11 2) (w.extractLsb' 0 11))

/-- Major opcode 0x0A (R50). -/
def decode0A (w : Insn) : Decoded :=
  claim (true) true false (.st (w.extractLsb' 29 3) (w.extractLsb' 18 5) (w.extractLsb' 13 5) (w.extractLsb' 11 2) (w.extractLsb' 0 11))

/-- Major opcode 0x0B (R50). -/
def decode0B (w : Insn) : Decoded :=
  claim (w.extractLsb' 18 5 == 0) true false (.ldq (w.extractLsb' 29 3) (w.extractLsb' 13 5) (w.extractLsb' 11 2) (w.extractLsb' 0 11))

/-- Major opcode 0x0C (R50). -/
def decode0C (w : Insn) : Decoded :=
  claim (w.extractLsb' 18 5 == 0) true false (.stq (w.extractLsb' 29 3) (w.extractLsb' 13 5) (w.extractLsb' 11 2) (w.extractLsb' 0 11))

/-- Major opcode 0x0D (R50). -/
def decode0D (w : Insn) : Decoded :=
  if w.extractLsb' 18 5 = 0 then claim (w.extractLsb' 11 2 == 3) true false (.vldq (w.extractLsb' 29 3) (w.extractLsb' 13 5) (w.extractLsb' 0 11))
  else if w.extractLsb' 18 5 = 1 then claim (w.extractLsb' 11 2 == 3) true false (.vstq (w.extractLsb' 29 3) (w.extractLsb' 13 5) (w.extractLsb' 0 11))
  else .unallocated

/-- Major opcode 0x0E (R50). -/
def decode0E (w : Insn) : Decoded :=
  if w.extractLsb' 3 5 = 0 ∧ w.extractLsb' 0 2 = 1 then claim (true) true false (.ldb (w.extractLsb' 29 3) (w.extractLsb' 18 5) (w.extractLsb' 13 5) (w.extractLsb' 8 5) (w.extractLsb' 2 1))
  else if w.extractLsb' 3 5 = 0 ∧ w.extractLsb' 0 2 = 2 then claim (true) true false (.ldbS64 (w.extractLsb' 29 3) (w.extractLsb' 18 5) (w.extractLsb' 13 5) (w.extractLsb' 8 5) (w.extractLsb' 2 1))
  else if w.extractLsb' 3 5 = 0 ∧ w.extractLsb' 0 2 = 3 then claim (true) true false (.stb (w.extractLsb' 29 3) (w.extractLsb' 18 5) (w.extractLsb' 13 5) (w.extractLsb' 8 5) (w.extractLsb' 2 1))
  else if w.extractLsb' 2 6 = 4 then claim (true) true false (.rot (w.extractLsb' 29 3) (w.extractLsb' 18 5) (w.extractLsb' 13 5) (w.extractLsb' 8 5) (w.extractLsb' 0 2))
  else .unallocated

/-- Major opcode 0x0F (R50). -/
def decode0F (w : Insn) : Decoded :=
  if w.extractLsb' 0 8 = 1 then claim (true) true false (.putr (w.extractLsb' 29 3) (w.extractLsb' 18 5) (w.extractLsb' 13 5) (w.extractLsb' 8 5))
  else if w.extractLsb' 0 8 = 2 then claim (true) true false (.getr (w.extractLsb' 29 3) (w.extractLsb' 18 5) (w.extractLsb' 13 5) (w.extractLsb' 8 5))
  else .unallocated

/-- Major opcode 0x10 (R50). -/
def decode10 (w : Insn) : Decoded :=
  claim (true) true false (.copy (w.extractLsb' 29 3) (w.extractLsb' 18 5) (w.extractLsb' 13 5) (w.extractLsb' 8 5) (w.extractLsb' 7 1) (w.extractLsb' 6 1) (w.extractLsb' 5 1) (w.extractLsb' 2 3) (w.extractLsb' 0 2))

/-- Major opcode 0x11 (R50). -/
def decode11 (w : Insn) : Decoded :=
  claim (true) true false (.copy2 (w.extractLsb' 29 3) (w.extractLsb' 18 5) (w.extractLsb' 13 5) (w.extractLsb' 8 5) (w.extractLsb' 7 1) (w.extractLsb' 6 1) (w.extractLsb' 5 1) (w.extractLsb' 2 3) (w.extractLsb' 0 2))

/-- Major opcode 0x12 (R50). -/
def decode12 (w : Insn) : Decoded :=
  claim (true) true false (.copyp (w.extractLsb' 29 3) (w.extractLsb' 18 5) (w.extractLsb' 13 5) (w.extractLsb' 8 5) (w.extractLsb' 7 1) (w.extractLsb' 6 1) (w.extractLsb' 5 1) (w.extractLsb' 2 3) (w.extractLsb' 0 2))

/-- Major opcode 0x13 (R50). -/
def decode13 (w : Insn) : Decoded :=
  if w.extractLsb' 7 1 = 0 then claim (w.extractLsb' 13 5 == 0 && w.extractLsb' 0 2 == 0) true false (.gld (w.extractLsb' 29 3) (w.extractLsb' 18 5) (w.extractLsb' 8 5) (w.extractLsb' 6 1) (w.extractLsb' 4 2) (w.extractLsb' 2 2))
  else if w.extractLsb' 6 2 = 2 then claim (w.extractLsb' 0 2 == 0) true false (.gst (w.extractLsb' 29 3) (w.extractLsb' 18 5) (w.extractLsb' 13 5) (w.extractLsb' 8 5) (w.extractLsb' 4 2) (w.extractLsb' 2 2))
  else .unallocated

/-- Major opcode 0x14 (R50). -/
def decode14 (w : Insn) : Decoded :=
  claim (true) true false (.amo (w.extractLsb' 29 3) (w.extractLsb' 18 5) (w.extractLsb' 13 5) (w.extractLsb' 8 5) (w.extractLsb' 5 3) (w.extractLsb' 3 2) (w.extractLsb' 0 3))

/-- Major opcode 0x15 (R50). -/
def decode15 (w : Insn) : Decoded :=
  if w.extractLsb' 6 2 = 0 ∧ w.extractLsb' 0 5 = 0 then claim (true) true false (.deposit (w.extractLsb' 29 3) (w.extractLsb' 18 5) (w.extractLsb' 13 5) (w.extractLsb' 8 5) (w.extractLsb' 5 1))
  else if w.extractLsb' 0 8 = 64 then claim (true) true false (.notify (w.extractLsb' 29 3) (w.extractLsb' 18 5) (w.extractLsb' 13 5) (w.extractLsb' 8 5))
  else if w.extractLsb' 0 8 = 65 then claim (w.extractLsb' 8 10 == 0) true false (.ntake (w.extractLsb' 29 3) (w.extractLsb' 18 5))
  else if w.extractLsb' 6 2 = 2 ∧ w.extractLsb' 0 5 = 0 then claim (true) true false (.mcast (w.extractLsb' 29 3) (w.extractLsb' 18 5) (w.extractLsb' 13 5) (w.extractLsb' 8 5) (w.extractLsb' 5 1))
  else .unallocated

/-- Major opcode 0x16 (R50). -/
def decode16 (w : Insn) : Decoded :=
  if w.extractLsb' 7 1 = 0 then claim (w.extractLsb' 5 1 == 0) true false (.reduce (w.extractLsb' 29 3) (w.extractLsb' 18 5) (w.extractLsb' 13 5) (w.extractLsb' 8 5) (w.extractLsb' 6 1) (w.extractLsb' 2 3) (w.extractLsb' 0 2))
  else if w.extractLsb' 6 2 = 2 then claim (w.extractLsb' 13 5 == 0 && w.extractLsb' 0 6 == 0) true false (.redabort (w.extractLsb' 29 3) (w.extractLsb' 18 5) (w.extractLsb' 8 5))
  else .unallocated

/-- Major opcode 0x17 (R50). -/
def decode17 (w : Insn) : Decoded :=
  if w.extractLsb' 0 8 = 0 then claim (true) true false (.query (w.extractLsb' 29 3) (w.extractLsb' 18 5) (w.extractLsb' 13 5) (w.extractLsb' 8 5))
  else if w.extractLsb' 0 8 = 64 then claim (true) true false (.queryM (w.extractLsb' 29 3) (w.extractLsb' 18 5) (w.extractLsb' 13 5) (w.extractLsb' 8 5))
  else .unallocated

/-- Major opcode 0x18 (R50). -/
def decode18 (w : Insn) : Decoded :=
  if w.extractLsb' 0 8 = 1 then claim (w.extractLsb' 8 5 == 0) true false (.take (w.extractLsb' 29 3) (w.extractLsb' 18 5) (w.extractLsb' 13 5))
  else if w.extractLsb' 0 8 = 2 then claim (true) true false (.peek (w.extractLsb' 29 3) (w.extractLsb' 18 5) (w.extractLsb' 13 5) (w.extractLsb' 8 5))
  else if w.extractLsb' 0 8 = 3 then claim (w.extractLsb' 8 5 == 0) true false (.waitm (w.extractLsb' 29 3) (w.extractLsb' 18 5) (w.extractLsb' 13 5))
  else if w.extractLsb' 0 8 = 4 then claim (w.extractLsb' 8 5 == 0) true false (.putm (w.extractLsb' 29 3) (w.extractLsb' 18 5) (w.extractLsb' 13 5))
  else .unallocated

/-- Major opcode 0x19 (R50). -/
def decode19 (w : Insn) : Decoded :=
  if w.extractLsb' 0 8 = 1 then claim (true) true false (.waitn (w.extractLsb' 29 3) (w.extractLsb' 18 5) (w.extractLsb' 13 5) (w.extractLsb' 8 5))
  else if w.extractLsb' 0 8 = 2 then claim (w.extractLsb' 8 5 == 0) true false (.setn (w.extractLsb' 29 3) (w.extractLsb' 18 5) (w.extractLsb' 13 5))
  else if w.extractLsb' 0 8 = 3 then claim (w.extractLsb' 8 5 == 0) true false (.decn (w.extractLsb' 29 3) (w.extractLsb' 18 5) (w.extractLsb' 13 5))
  else .unallocated

/-- Major opcode 0x1A (R50). -/
def decode1A (w : Insn) : Decoded :=
  if w.extractLsb' 0 8 = 1 then claim (w.extractLsb' 8 5 == 0) true false (.bar (w.extractLsb' 29 3) (w.extractLsb' 18 5) (w.extractLsb' 13 5))
  else if w.extractLsb' 0 8 = 2 then claim (w.extractLsb' 8 5 == 0) true false (.barx (w.extractLsb' 29 3) (w.extractLsb' 18 5) (w.extractLsb' 13 5))
  else if w.extractLsb' 0 8 = 3 then claim (true) true false (.phase (w.extractLsb' 29 3) (w.extractLsb' 18 5) (w.extractLsb' 13 5) (w.extractLsb' 8 5))
  else .unallocated

/-- Major opcode 0x1B (R50). -/
def decode1B (w : Insn) : Decoded :=
  if w.extractLsb' 0 6 = 1 then claim (true) true false (.fence (w.extractLsb' 29 3) (w.extractLsb' 20 3) (w.extractLsb' 18 2) (w.extractLsb' 12 6) (w.extractLsb' 6 6))
  else .unallocated

/-- Major opcode 0x1C (R50). -/
def decode1C (w : Insn) : Decoded :=
  if w.extractLsb' 0 8 = 1 then claim (w.extractLsb' 29 3 == 7 && w.extractLsb' 8 5 == 0) true false (.gang (w.extractLsb' 18 5) (w.extractLsb' 13 5))
  else if w.extractLsb' 0 8 = 2 then claim (w.extractLsb' 8 10 == 0) true false (.ungang (w.extractLsb' 29 3) (w.extractLsb' 18 5))
  else if w.extractLsb' 0 8 = 4 then claim (true) true false (.spawn (w.extractLsb' 29 3) (w.extractLsb' 18 5) (w.extractLsb' 13 5) (w.extractLsb' 8 5))
  else if w.extractLsb' 0 8 = 5 then claim (true) true false (.spawnC (w.extractLsb' 29 3) (w.extractLsb' 18 5) (w.extractLsb' 13 5) (w.extractLsb' 8 5))
  else if w.extractLsb' 0 8 = 8 then claim (w.extractLsb' 29 3 == 7 && w.extractLsb' 8 5 == 0) true false (.await (w.extractLsb' 18 5) (w.extractLsb' 13 5))
  else if w.extractLsb' 0 8 = 9 then claim (w.extractLsb' 29 3 == 7 && w.extractLsb' 8 10 == 0) true false (.yield (w.extractLsb' 18 5))
  else if w.extractLsb' 0 8 = 10 then claim (w.extractLsb' 29 3 == 7 && w.extractLsb' 8 15 == 0) true false (.retire)
  else if w.extractLsb' 0 8 = 11 then claim (w.extractLsb' 29 3 == 7 && w.extractLsb' 8 15 == 0) true false (.retireCancel)
  else .unallocated

/-- Major opcode 0x1D (R50). -/
def decode1D (w : Insn) : Decoded :=
  if w.extractLsb' 0 8 = 1 then claim (w.extractLsb' 8 5 == 0) true false (.prod (w.extractLsb' 29 3) (w.extractLsb' 18 5) (w.extractLsb' 13 5))
  else if w.extractLsb' 0 8 = 2 then claim (w.extractLsb' 8 10 == 0) true false (.cons (w.extractLsb' 29 3) (w.extractLsb' 18 5))
  else if w.extractLsb' 0 8 = 3 then claim (w.extractLsb' 8 10 == 0) true false (.snext (w.extractLsb' 29 3) (w.extractLsb' 18 5))
  else if w.extractLsb' 0 8 = 4 then claim (w.extractLsb' 8 10 == 0) true false (.prodClose (w.extractLsb' 29 3) (w.extractLsb' 18 5))
  else .unallocated

/-- Major opcode 0x1E (R50). -/
def decode1E (w : Insn) : Decoded :=
  if w.extractLsb' 0 8 = 1 then claim (true) true false (.lease (w.extractLsb' 29 3) (w.extractLsb' 18 5) (w.extractLsb' 13 5) (w.extractLsb' 8 5))
  else if w.extractLsb' 0 8 = 2 then claim (true) true false (.leaseR (w.extractLsb' 29 3) (w.extractLsb' 18 5) (w.extractLsb' 13 5) (w.extractLsb' 8 5))
  else if w.extractLsb' 0 8 = 3 then claim (w.extractLsb' 8 5 == 0) true false (.ldrop (w.extractLsb' 29 3) (w.extractLsb' 18 5) (w.extractLsb' 13 5))
  else if w.extractLsb' 2 6 = 2 then claim (w.extractLsb' 8 5 == 0) true false (.roleq (w.extractLsb' 29 3) (w.extractLsb' 18 5) (w.extractLsb' 13 5) (w.extractLsb' 0 2))
  else .unallocated

/-- Major opcode 0x1F (R50). -/
def decode1F (w : Insn) : Decoded :=
  if w.extractLsb' 0 8 = 1 then claim (w.extractLsb' 18 5 == 0 && w.extractLsb' 8 5 == 0) true false (.scoreS64 (w.extractLsb' 29 3) (w.extractLsb' 13 5))
  else if w.extractLsb' 0 8 = 2 then claim (w.extractLsb' 18 5 == 0 && w.extractLsb' 8 5 == 0) true false (.scoreZ64 (w.extractLsb' 29 3) (w.extractLsb' 13 5))
  else if w.extractLsb' 0 8 = 3 then claim (w.extractLsb' 18 5 == 0 && w.extractLsb' 8 5 == 0) true false (.scoreF64 (w.extractLsb' 29 3) (w.extractLsb' 13 5))
  else if w.extractLsb' 0 8 = 4 then claim (w.extractLsb' 8 15 == 0) true false (.scoreClr (w.extractLsb' 29 3))
  else if w.extractLsb' 0 8 = 8 then claim (w.extractLsb' 29 3 == 7 && w.extractLsb' 8 10 == 0) true false (.heat (w.extractLsb' 18 5))
  else if w.extractLsb' 0 8 = 16 then claim (w.extractLsb' 8 5 == 0) true false (.tq (w.extractLsb' 29 3) (w.extractLsb' 18 5) (w.extractLsb' 13 5))
  else .unallocated

/-- Major opcode 0x20 (R50). -/
def decode20 (w : Insn) : Decoded :=
  if w.extractLsb' 5 1 = 0 ∧ w.extractLsb' 0 3 = 1 then claim (true) false true (.fadd (w.extractLsb' 29 3) (w.extractLsb' 18 5) (w.extractLsb' 13 5) (w.extractLsb' 8 5) (w.extractLsb' 6 2) (w.extractLsb' 3 2))
  else if w.extractLsb' 5 1 = 0 ∧ w.extractLsb' 0 3 = 2 then claim (true) false true (.fsub (w.extractLsb' 29 3) (w.extractLsb' 18 5) (w.extractLsb' 13 5) (w.extractLsb' 8 5) (w.extractLsb' 6 2) (w.extractLsb' 3 2))
  else if w.extractLsb' 5 1 = 0 ∧ w.extractLsb' 0 3 = 3 then claim (true) false true (.fmul (w.extractLsb' 29 3) (w.extractLsb' 18 5) (w.extractLsb' 13 5) (w.extractLsb' 8 5) (w.extractLsb' 6 2) (w.extractLsb' 3 2))
  else if w.extractLsb' 5 1 = 0 ∧ w.extractLsb' 0 3 = 4 then claim (true) false true (.fmin (w.extractLsb' 29 3) (w.extractLsb' 18 5) (w.extractLsb' 13 5) (w.extractLsb' 8 5) (w.extractLsb' 6 2) (w.extractLsb' 3 2))
  else if w.extractLsb' 5 1 = 0 ∧ w.extractLsb' 0 3 = 5 then claim (true) false true (.fmax (w.extractLsb' 29 3) (w.extractLsb' 18 5) (w.extractLsb' 13 5) (w.extractLsb' 8 5) (w.extractLsb' 6 2) (w.extractLsb' 3 2))
  else .unallocated

/-- Major opcode 0x21 (R50). -/
def decode21 (w : Insn) : Decoded :=
  if w.extractLsb' 5 3 = 0 ∧ w.extractLsb' 0 3 = 1 then claim (true) false true (.fma (w.extractLsb' 29 3) (w.extractLsb' 18 5) (w.extractLsb' 13 5) (w.extractLsb' 8 5) (w.extractLsb' 3 2))
  else .unallocated

/-- Major opcode 0x22 (R50). -/
def decode22 (w : Insn) : Decoded :=
  if w.extractLsb' 5 1 = 0 ∧ w.extractLsb' 0 3 = 1 then claim (true) false true (.fdiv (w.extractLsb' 29 3) (w.extractLsb' 18 5) (w.extractLsb' 13 5) (w.extractLsb' 8 5) (w.extractLsb' 6 2) (w.extractLsb' 3 2))
  else if w.extractLsb' 5 1 = 0 ∧ w.extractLsb' 0 3 = 2 then claim (w.extractLsb' 8 5 == 0) false true (.fsqrt (w.extractLsb' 29 3) (w.extractLsb' 18 5) (w.extractLsb' 13 5) (w.extractLsb' 6 2) (w.extractLsb' 3 2))
  else .unallocated

/-- Major opcode 0x23 (R50). -/
def decode23 (w : Insn) : Decoded :=
  if w.extractLsb' 5 2 = 0 then claim (true) false true (.fcmp (w.extractLsb' 29 3) (w.extractLsb' 18 5) (w.extractLsb' 13 5) (w.extractLsb' 8 5) (w.extractLsb' 7 1) (w.extractLsb' 3 2) (w.extractLsb' 0 3))
  else if w.extractLsb' 5 3 = 1 then claim (true) false true (.fcvt (w.extractLsb' 29 3) (w.extractLsb' 18 5) (w.extractLsb' 13 5) (w.extractLsb' 8 5) (w.extractLsb' 0 5))
  else if w.extractLsb' 5 3 = 2 ∧ w.extractLsb' 0 3 = 1 then claim (w.extractLsb' 8 5 == 0) false true (.fclass (w.extractLsb' 29 3) (w.extractLsb' 18 5) (w.extractLsb' 13 5) (w.extractLsb' 3 2))
  else .unallocated

/-- Major opcode 0x24 (R50). -/
def decode24 (w : Insn) : Decoded :=
  if w.extractLsb' 2 3 = 0 then claim (true) false true (.vadd (w.extractLsb' 29 3) (w.extractLsb' 18 5) (w.extractLsb' 13 5) (w.extractLsb' 8 5) (w.extractLsb' 5 3) (w.extractLsb' 0 2))
  else if w.extractLsb' 2 3 = 1 then claim (true) false true (.vsub (w.extractLsb' 29 3) (w.extractLsb' 18 5) (w.extractLsb' 13 5) (w.extractLsb' 8 5) (w.extractLsb' 5 3) (w.extractLsb' 0 2))
  else if w.extractLsb' 2 3 = 2 then claim (true) false true (.vmul (w.extractLsb' 29 3) (w.extractLsb' 18 5) (w.extractLsb' 13 5) (w.extractLsb' 8 5) (w.extractLsb' 5 3) (w.extractLsb' 0 2))
  else if w.extractLsb' 2 3 = 3 then claim (true) false true (.vmin (w.extractLsb' 29 3) (w.extractLsb' 18 5) (w.extractLsb' 13 5) (w.extractLsb' 8 5) (w.extractLsb' 5 3) (w.extractLsb' 0 2))
  else if w.extractLsb' 2 3 = 4 then claim (true) false true (.vmax (w.extractLsb' 29 3) (w.extractLsb' 18 5) (w.extractLsb' 13 5) (w.extractLsb' 8 5) (w.extractLsb' 5 3) (w.extractLsb' 0 2))
  else if w.extractLsb' 2 3 = 5 then claim (true) false true (.vshl (w.extractLsb' 29 3) (w.extractLsb' 18 5) (w.extractLsb' 13 5) (w.extractLsb' 8 5) (w.extractLsb' 5 3) (w.extractLsb' 0 2))
  else if w.extractLsb' 2 3 = 6 then claim (true) false true (.vshr (w.extractLsb' 29 3) (w.extractLsb' 18 5) (w.extractLsb' 13 5) (w.extractLsb' 8 5) (w.extractLsb' 5 3) (w.extractLsb' 0 2))
  else if w.extractLsb' 2 3 = 7 then claim (true) false true (.vsha (w.extractLsb' 29 3) (w.extractLsb' 18 5) (w.extractLsb' 13 5) (w.extractLsb' 8 5) (w.extractLsb' 5 3) (w.extractLsb' 0 2))
  else .unallocated

/-- Major opcode 0x25 (R50). -/
def decode25 (w : Insn) : Decoded :=
  if w.extractLsb' 2 3 = 0 then claim (true) false true (.vfadd (w.extractLsb' 29 3) (w.extractLsb' 18 5) (w.extractLsb' 13 5) (w.extractLsb' 8 5) (w.extractLsb' 5 3) (w.extractLsb' 0 2))
  else if w.extractLsb' 2 3 = 1 then claim (true) false true (.vfsub (w.extractLsb' 29 3) (w.extractLsb' 18 5) (w.extractLsb' 13 5) (w.extractLsb' 8 5) (w.extractLsb' 5 3) (w.extractLsb' 0 2))
  else if w.extractLsb' 2 3 = 2 then claim (true) false true (.vfmul (w.extractLsb' 29 3) (w.extractLsb' 18 5) (w.extractLsb' 13 5) (w.extractLsb' 8 5) (w.extractLsb' 5 3) (w.extractLsb' 0 2))
  else if w.extractLsb' 2 3 = 3 then claim (true) false true (.vfmin (w.extractLsb' 29 3) (w.extractLsb' 18 5) (w.extractLsb' 13 5) (w.extractLsb' 8 5) (w.extractLsb' 5 3) (w.extractLsb' 0 2))
  else if w.extractLsb' 2 3 = 4 then claim (true) false true (.vfmax (w.extractLsb' 29 3) (w.extractLsb' 18 5) (w.extractLsb' 13 5) (w.extractLsb' 8 5) (w.extractLsb' 5 3) (w.extractLsb' 0 2))
  else if w.extractLsb' 2 3 = 5 then claim (w.extractLsb' 8 5 == 0) false true (.vfrcp (w.extractLsb' 29 3) (w.extractLsb' 18 5) (w.extractLsb' 13 5) (w.extractLsb' 5 3) (w.extractLsb' 0 2))
  else if w.extractLsb' 2 3 = 6 then claim (w.extractLsb' 8 5 == 0) false true (.vfrsq (w.extractLsb' 29 3) (w.extractLsb' 18 5) (w.extractLsb' 13 5) (w.extractLsb' 5 3) (w.extractLsb' 0 2))
  else if w.extractLsb' 2 3 = 7 then claim (w.extractLsb' 8 5 == 0) false true (.vfabs (w.extractLsb' 29 3) (w.extractLsb' 18 5) (w.extractLsb' 13 5) (w.extractLsb' 5 3) (w.extractLsb' 0 2))
  else .unallocated

/-- Major opcode 0x26 (R50). -/
def decode26 (w : Insn) : Decoded :=
  if w.extractLsb' 2 3 = 0 then claim (true) false true (.vfma (w.extractLsb' 29 3) (w.extractLsb' 18 5) (w.extractLsb' 13 5) (w.extractLsb' 8 5) (w.extractLsb' 5 3) (w.extractLsb' 0 2))
  else if w.extractLsb' 2 3 = 1 then claim (true) false true (.vfms (w.extractLsb' 29 3) (w.extractLsb' 18 5) (w.extractLsb' 13 5) (w.extractLsb' 8 5) (w.extractLsb' 5 3) (w.extractLsb' 0 2))
  else if w.extractLsb' 2 3 = 2 then claim (true) false true (.vfnma (w.extractLsb' 29 3) (w.extractLsb' 18 5) (w.extractLsb' 13 5) (w.extractLsb' 8 5) (w.extractLsb' 5 3) (w.extractLsb' 0 2))
  else if w.extractLsb' 2 3 = 3 then claim (true) false true (.vfmaw (w.extractLsb' 29 3) (w.extractLsb' 18 5) (w.extractLsb' 13 5) (w.extractLsb' 8 5) (w.extractLsb' 5 3) (w.extractLsb' 0 2))
  else .unallocated

/-- Major opcode 0x27 (R50). -/
def decode27 (w : Insn) : Decoded :=
  claim (true) false true (.vcvt (w.extractLsb' 29 3) (w.extractLsb' 18 5) (w.extractLsb' 13 5) (w.extractLsb' 8 5) (w.extractLsb' 5 3) (w.extractLsb' 0 5))

/-- Major opcode 0x28 (R50). -/
def decode28 (w : Insn) : Decoded :=
  if w.extractLsb' 4 1 = 0 then claim (true) false true (.vscale (w.extractLsb' 29 3) (w.extractLsb' 18 5) (w.extractLsb' 13 5) (w.extractLsb' 8 5) (w.extractLsb' 5 3) (w.extractLsb' 2 2) (w.extractLsb' 0 2))
  else if w.extractLsb' 4 1 = 1 then claim (true) false true (.vunscale (w.extractLsb' 29 3) (w.extractLsb' 18 5) (w.extractLsb' 13 5) (w.extractLsb' 8 5) (w.extractLsb' 5 3) (w.extractLsb' 2 2) (w.extractLsb' 0 2))
  else .unallocated

/-- Major opcode 0x29 (R50). -/
def decode29 (w : Insn) : Decoded :=
  claim (true) false true (.vcmp (w.extractLsb' 29 3) (w.extractLsb' 18 5) (w.extractLsb' 13 5) (w.extractLsb' 8 5) (w.extractLsb' 5 3) (w.extractLsb' 4 1) (w.extractLsb' 2 2) (w.extractLsb' 0 2))

/-- Major opcode 0x2A (R50). -/
def decode2A (w : Insn) : Decoded :=
  if w.extractLsb' 2 3 = 0 then claim (true) false true (.vperm (w.extractLsb' 29 3) (w.extractLsb' 18 5) (w.extractLsb' 13 5) (w.extractLsb' 8 5) (w.extractLsb' 5 3) (w.extractLsb' 0 2))
  else if w.extractLsb' 2 3 = 1 then claim (true) false true (.vziplo (w.extractLsb' 29 3) (w.extractLsb' 18 5) (w.extractLsb' 13 5) (w.extractLsb' 8 5) (w.extractLsb' 5 3) (w.extractLsb' 0 2))
  else if w.extractLsb' 2 3 = 2 then claim (true) false true (.vziphi (w.extractLsb' 29 3) (w.extractLsb' 18 5) (w.extractLsb' 13 5) (w.extractLsb' 8 5) (w.extractLsb' 5 3) (w.extractLsb' 0 2))
  else if w.extractLsb' 2 3 = 3 then claim (true) false true (.vunzipe (w.extractLsb' 29 3) (w.extractLsb' 18 5) (w.extractLsb' 13 5) (w.extractLsb' 8 5) (w.extractLsb' 5 3) (w.extractLsb' 0 2))
  else if w.extractLsb' 2 3 = 4 then claim (true) false true (.vunzipo (w.extractLsb' 29 3) (w.extractLsb' 18 5) (w.extractLsb' 13 5) (w.extractLsb' 8 5) (w.extractLsb' 5 3) (w.extractLsb' 0 2))
  else if w.extractLsb' 2 3 = 5 then claim (w.extractLsb' 8 5 == 0) false true (.vrev (w.extractLsb' 29 3) (w.extractLsb' 18 5) (w.extractLsb' 13 5) (w.extractLsb' 5 3) (w.extractLsb' 0 2))
  else if w.extractLsb' 2 3 = 6 then claim (w.extractLsb' 8 5 == 0) false true (.vcompress (w.extractLsb' 29 3) (w.extractLsb' 18 5) (w.extractLsb' 13 5) (w.extractLsb' 5 3) (w.extractLsb' 0 2))
  else .unallocated

/-- Major opcode 0x2B (R50). -/
def decode2B (w : Insn) : Decoded :=
  if w.extractLsb' 2 3 = 0 then claim (w.extractLsb' 8 5 == 0) false true (.vradd (w.extractLsb' 29 3) (w.extractLsb' 18 5) (w.extractLsb' 13 5) (w.extractLsb' 5 3) (w.extractLsb' 0 2))
  else if w.extractLsb' 2 3 = 1 then claim (w.extractLsb' 8 5 == 0) false true (.vrmin (w.extractLsb' 29 3) (w.extractLsb' 18 5) (w.extractLsb' 13 5) (w.extractLsb' 5 3) (w.extractLsb' 0 2))
  else if w.extractLsb' 2 3 = 2 then claim (w.extractLsb' 8 5 == 0) false true (.vrmax (w.extractLsb' 29 3) (w.extractLsb' 18 5) (w.extractLsb' 13 5) (w.extractLsb' 5 3) (w.extractLsb' 0 2))
  else if w.extractLsb' 2 3 = 3 then claim (w.extractLsb' 8 5 == 0) false true (.vrfadd (w.extractLsb' 29 3) (w.extractLsb' 18 5) (w.extractLsb' 13 5) (w.extractLsb' 5 3) (w.extractLsb' 0 2))
  else if w.extractLsb' 2 3 = 4 then claim (w.extractLsb' 8 5 == 0) false true (.vrfmin (w.extractLsb' 29 3) (w.extractLsb' 18 5) (w.extractLsb' 13 5) (w.extractLsb' 5 3) (w.extractLsb' 0 2))
  else if w.extractLsb' 2 3 = 5 then claim (w.extractLsb' 8 5 == 0) false true (.vrfmax (w.extractLsb' 29 3) (w.extractLsb' 18 5) (w.extractLsb' 13 5) (w.extractLsb' 5 3) (w.extractLsb' 0 2))
  else .unallocated

/-- Major opcode 0x2C (R50). -/
def decode2C (w : Insn) : Decoded :=
  if w.extractLsb' 2 3 = 0 then claim (true) false true (.vtab (w.extractLsb' 29 3) (w.extractLsb' 18 5) (w.extractLsb' 13 5) (w.extractLsb' 8 5) (w.extractLsb' 5 3) (w.extractLsb' 0 2))
  else if w.extractLsb' 0 5 = 4 then claim (w.extractLsb' 5 3 == 0) false true (.tload (w.extractLsb' 29 3) (w.extractLsb' 18 5) (w.extractLsb' 13 5) (w.extractLsb' 8 5))
  else if w.extractLsb' 0 5 = 8 then claim (w.extractLsb' 5 8 == 0) false true (.tcfg (w.extractLsb' 29 3) (w.extractLsb' 18 5) (w.extractLsb' 13 5))
  else .unallocated

/-- Major opcode 0x2D (R50). -/
def decode2D (w : Insn) : Decoded :=
  if w.extractLsb' 0 5 = 1 then claim (w.extractLsb' 29 3 == 0 && w.extractLsb' 5 8 == 0) false true (.vrep (w.extractLsb' 18 5) (w.extractLsb' 13 5))
  else if w.extractLsb' 0 5 = 2 then claim (w.extractLsb' 29 3 == 0 && w.extractLsb' 5 13 == 0) false true (.vrepQ (w.extractLsb' 18 5))
  else .unallocated

/-- Major opcode 0x2E (R50). -/
def decode2E (w : Insn) : Decoded :=
  if w.extractLsb' 0 5 = 1 then claim (w.extractLsb' 8 5 == 0) false true (.vmov (w.extractLsb' 29 3) (w.extractLsb' 18 5) (w.extractLsb' 13 5) (w.extractLsb' 5 3))
  else if w.extractLsb' 0 5 = 2 then claim (w.extractLsb' 5 13 == 0) false true (.vmovFromVldq (w.extractLsb' 29 3) (w.extractLsb' 18 5))
  else if w.extractLsb' 0 5 = 3 then claim (w.extractLsb' 18 5 == 0 && w.extractLsb' 5 8 == 0) false true (.vmovToVstq (w.extractLsb' 29 3) (w.extractLsb' 13 5))
  else if w.extractLsb' 2 3 = 1 then claim (w.extractLsb' 8 5 == 0) false true (.vbcast (w.extractLsb' 29 3) (w.extractLsb' 18 5) (w.extractLsb' 13 5) (w.extractLsb' 5 3) (w.extractLsb' 0 2))
  else if w.extractLsb' 2 3 = 2 then claim (w.extractLsb' 5 3 == 0) false true (.vext (w.extractLsb' 29 3) (w.extractLsb' 18 5) (w.extractLsb' 13 5) (w.extractLsb' 8 5) (w.extractLsb' 0 2))
  else if w.extractLsb' 2 3 = 3 then claim (w.extractLsb' 5 3 == 0) false true (.vins (w.extractLsb' 29 3) (w.extractLsb' 18 5) (w.extractLsb' 13 5) (w.extractLsb' 8 5) (w.extractLsb' 0 2))
  else if w.extractLsb' 0 5 = 16 then claim (true) false true (.vand (w.extractLsb' 29 3) (w.extractLsb' 18 5) (w.extractLsb' 13 5) (w.extractLsb' 8 5) (w.extractLsb' 5 3))
  else if w.extractLsb' 0 5 = 17 then claim (true) false true (.vor (w.extractLsb' 29 3) (w.extractLsb' 18 5) (w.extractLsb' 13 5) (w.extractLsb' 8 5) (w.extractLsb' 5 3))
  else if w.extractLsb' 0 5 = 18 then claim (true) false true (.vxor (w.extractLsb' 29 3) (w.extractLsb' 18 5) (w.extractLsb' 13 5) (w.extractLsb' 8 5) (w.extractLsb' 5 3))
  else if w.extractLsb' 0 5 = 19 then claim (true) false true (.vandn (w.extractLsb' 29 3) (w.extractLsb' 18 5) (w.extractLsb' 13 5) (w.extractLsb' 8 5) (w.extractLsb' 5 3))
  else if w.extractLsb' 0 5 = 20 then claim (true) false true (.vsel (w.extractLsb' 29 3) (w.extractLsb' 18 5) (w.extractLsb' 13 5) (w.extractLsb' 8 5) (w.extractLsb' 5 3))
  else if w.extractLsb' 0 5 = 21 then claim (w.extractLsb' 5 3 == 0) false true (.kand (w.extractLsb' 29 3) (w.extractLsb' 18 5) (w.extractLsb' 13 5) (w.extractLsb' 8 5))
  else if w.extractLsb' 0 5 = 22 then claim (w.extractLsb' 5 3 == 0) false true (.kor (w.extractLsb' 29 3) (w.extractLsb' 18 5) (w.extractLsb' 13 5) (w.extractLsb' 8 5))
  else if w.extractLsb' 0 5 = 23 then claim (w.extractLsb' 5 3 == 0) false true (.kxor (w.extractLsb' 29 3) (w.extractLsb' 18 5) (w.extractLsb' 13 5) (w.extractLsb' 8 5))
  else if w.extractLsb' 0 5 = 24 then claim (w.extractLsb' 5 8 == 0) false true (.knot (w.extractLsb' 29 3) (w.extractLsb' 18 5) (w.extractLsb' 13 5))
  else if w.extractLsb' 0 5 = 25 then claim (w.extractLsb' 5 8 == 0) false true (.kfromv (w.extractLsb' 29 3) (w.extractLsb' 18 5) (w.extractLsb' 13 5))
  else if w.extractLsb' 0 5 = 26 then claim (w.extractLsb' 5 8 == 0) false true (.vfromk (w.extractLsb' 29 3) (w.extractLsb' 18 5) (w.extractLsb' 13 5))
  else if w.extractLsb' 0 5 = 27 then claim (w.extractLsb' 5 8 == 0) false true (.kpopc (w.extractLsb' 29 3) (w.extractLsb' 18 5) (w.extractLsb' 13 5))
  else if w.extractLsb' 0 5 = 28 then claim (w.extractLsb' 5 8 == 0) false true (.movEFromCtl (w.extractLsb' 29 3) (w.extractLsb' 18 5) (w.extractLsb' 13 5))
  else if w.extractLsb' 0 5 = 29 then claim (w.extractLsb' 5 8 == 0) false true (.movEToCtl (w.extractLsb' 29 3) (w.extractLsb' 18 5) (w.extractLsb' 13 5))
  else .unallocated

/-- Major opcode 0x30 (R50). -/
def decode30 (w : Insn) : Decoded :=
  claim (w.extractLsb' 4 1 == 0) false true (.mld (w.extractLsb' 29 3) (w.extractLsb' 18 5) (w.extractLsb' 13 5) (w.extractLsb' 8 5) (w.extractLsb' 6 2) (w.extractLsb' 5 1) (w.extractLsb' 0 4))

/-- Major opcode 0x31 (R50). -/
def decode31 (w : Insn) : Decoded :=
  if w.extractLsb' 0 5 = 1 then claim (true) false true (.mma (w.extractLsb' 29 3) (w.extractLsb' 18 5) (w.extractLsb' 17 1) (w.extractLsb' 13 4) (w.extractLsb' 12 1) (w.extractLsb' 8 4) (w.extractLsb' 5 3))
  else if w.extractLsb' 0 5 = 2 then claim (w.extractLsb' 8 10 == 0) false true (.mzero (w.extractLsb' 29 3) (w.extractLsb' 18 5) (w.extractLsb' 5 3))
  else .unallocated

/-- Major opcode 0x32 (R50). -/
def decode32 (w : Insn) : Decoded :=
  if w.extractLsb' 2 3 = 0 then claim (true) false true (.mmaj (w.extractLsb' 29 3) (w.extractLsb' 18 5) (w.extractLsb' 17 1) (w.extractLsb' 13 4) (w.extractLsb' 12 1) (w.extractLsb' 8 4) (w.extractLsb' 5 3) (w.extractLsb' 0 2))
  else .unallocated

/-- Major opcode 0x33 (R50). -/
def decode33 (w : Insn) : Decoded :=
  if w.extractLsb' 2 3 = 0 then claim (true) false true (.mmas (w.extractLsb' 29 3) (w.extractLsb' 18 5) (w.extractLsb' 17 1) (w.extractLsb' 13 4) (w.extractLsb' 12 1) (w.extractLsb' 8 4) (w.extractLsb' 5 3) (w.extractLsb' 0 2))
  else .unallocated

/-- Major opcode 0x34 (R50). -/
def decode34 (w : Insn) : Decoded :=
  if w.extractLsb' 6 2 = 1 then claim (true) false true (.mst (w.extractLsb' 29 3) (w.extractLsb' 18 5) (w.extractLsb' 13 5) (w.extractLsb' 8 5) (w.extractLsb' 4 2) (w.extractLsb' 0 4))
  else if w.extractLsb' 0 8 = 128 then claim (w.extractLsb' 18 5 == 0 && w.extractLsb' 8 5 == 0) false true (.mmap (w.extractLsb' 29 3) (w.extractLsb' 13 5))
  else .unallocated

/-- Major opcode 0x35 (R50). -/
def decode35 (w : Insn) : Decoded :=
  if w.extractLsb' 0 5 = 1 then claim (w.extractLsb' 5 3 == 0) false true (.pld (w.extractLsb' 29 3) (w.extractLsb' 18 5) (w.extractLsb' 13 5) (w.extractLsb' 8 5))
  else if w.extractLsb' 0 5 = 2 then claim (w.extractLsb' 5 8 == 0) false true (.pldSet (w.extractLsb' 29 3) (w.extractLsb' 18 5) (w.extractLsb' 13 5))
  else if w.extractLsb' 0 5 = 3 then claim (w.extractLsb' 5 8 == 0) false true (.pid (w.extractLsb' 29 3) (w.extractLsb' 18 5) (w.extractLsb' 13 5))
  else if w.extractLsb' 0 5 = 4 then claim (w.extractLsb' 5 8 == 0) false true (.pst (w.extractLsb' 29 3) (w.extractLsb' 18 5) (w.extractLsb' 13 5))
  else if w.extractLsb' 0 5 = 5 then claim (w.extractLsb' 5 8 == 0) false true (.pstSet (w.extractLsb' 29 3) (w.extractLsb' 18 5) (w.extractLsb' 13 5))
  else if w.extractLsb' 0 5 = 6 then claim (w.extractLsb' 5 8 == 0) false true (.pmov (w.extractLsb' 29 3) (w.extractLsb' 18 5) (w.extractLsb' 13 5))
  else .unallocated

/-- Major opcode 0x36 (R50). -/
def decode36 (w : Insn) : Decoded :=
  if w.extractLsb' 0 5 = 1 then claim (w.extractLsb' 5 3 == 0) false true (.prot (w.extractLsb' 29 3) (w.extractLsb' 18 5) (w.extractLsb' 13 5) (w.extractLsb' 8 5))
  else if w.extractLsb' 0 5 = 2 then claim (w.extractLsb' 5 3 == 0) false true (.pcomp (w.extractLsb' 29 3) (w.extractLsb' 18 5) (w.extractLsb' 13 5) (w.extractLsb' 8 5))
  else if w.extractLsb' 0 5 = 3 then claim (w.extractLsb' 5 8 == 0) false true (.pinv (w.extractLsb' 29 3) (w.extractLsb' 18 5) (w.extractLsb' 13 5))
  else if w.extractLsb' 0 5 = 4 then claim (w.extractLsb' 5 3 == 0) false true (.prand (w.extractLsb' 29 3) (w.extractLsb' 18 5) (w.extractLsb' 13 5) (w.extractLsb' 8 5))
  else if w.extractLsb' 3 2 = 1 then claim (w.extractLsb' 5 3 == 0) false true (.pcyc (w.extractLsb' 29 3) (w.extractLsb' 18 5) (w.extractLsb' 13 5) (w.extractLsb' 8 5) (w.extractLsb' 0 3))
  else if w.extractLsb' 0 5 = 16 then claim (w.extractLsb' 5 3 == 0) false true (.peq (w.extractLsb' 29 3) (w.extractLsb' 18 5) (w.extractLsb' 13 5) (w.extractLsb' 8 5))
  else .unallocated

/-- Major opcode 0x37 (R50). -/
def decode37 (w : Insn) : Decoded :=
  if w.extractLsb' 4 4 = 1 then claim (true) false true (.papply (w.extractLsb' 29 3) (w.extractLsb' 18 5) (w.extractLsb' 13 5) (w.extractLsb' 8 5) (w.extractLsb' 3 1) (w.extractLsb' 0 3))
  else .unallocated

/-- Major opcode 0x38 (R50). -/
def decode38 (w : Insn) : Decoded :=
  if w.extractLsb' 0 8 = 1 then claim (w.extractLsb' 29 3 == 0) true false (.xbegin (w.extractLsb' 18 5) (w.extractLsb' 13 5) (w.extractLsb' 8 5))
  else if w.extractLsb' 0 8 = 2 then claim (w.extractLsb' 29 3 == 0 && w.extractLsb' 8 10 == 0) true false (.xend (w.extractLsb' 18 5))
  else .unallocated

/-- Major opcode 0x39 (R50). -/
def decode39 (w : Insn) : Decoded :=
  claim (w.extractLsb' 29 3 == 0) false true (.xmit (w.extractLsb' 14 9) (w.extractLsb' 9 5) (w.extractLsb' 8 1) (w.extractLsb' 0 8))

/-- Major opcode 0x3A (R50). -/
def decode3A (w : Insn) : Decoded :=
  claim (w.extractLsb' 29 3 == 0) false true (.xsel (w.extractLsb' 14 9) (w.extractLsb' 9 5) (w.extractLsb' 8 1) (w.extractLsb' 0 8))

/-- Major opcode 0x3C (R50). -/
def decode3C (w : Insn) : Decoded :=
  if w.extractLsb' 0 6 = 1 then claim (true) true true (.sysr (w.extractLsb' 29 3) (w.extractLsb' 11 12) (w.extractLsb' 6 5))
  else if w.extractLsb' 0 6 = 2 then claim (true) true true (.sysw (w.extractLsb' 29 3) (w.extractLsb' 11 12) (w.extractLsb' 6 5))
  else if w.extractLsb' 0 6 = 4 then claim (w.extractLsb' 11 12 == 0) true true (.spill (w.extractLsb' 29 3) (w.extractLsb' 6 5))
  else if w.extractLsb' 0 6 = 5 then claim (w.extractLsb' 11 12 == 0) true true (.fill (w.extractLsb' 29 3) (w.extractLsb' 6 5))
  else if w.extractLsb' 0 6 = 8 then claim (w.extractLsb' 29 3 == 0 && w.extractLsb' 6 5 == 0) true true (.trap (w.extractLsb' 11 12))
  else if w.extractLsb' 0 6 = 9 then claim (w.extractLsb' 29 3 == 0 && w.extractLsb' 6 17 == 0) true true (.tret)
  else if w.extractLsb' 0 6 = 16 then claim (w.extractLsb' 11 9 == 0) true false (.stinv (w.extractLsb' 29 3) (w.extractLsb' 20 3) (w.extractLsb' 6 5))
  else .unallocated

/-- Major opcode 0x3D (R50). -/
def decode3D (w : Insn) : Decoded :=
  if w.extractLsb' 0 8 = 0 then claim (w.extractLsb' 8 15 == 0) true true (.nop (w.extractLsb' 29 3))
  else if w.extractLsb' 0 8 = 1 then claim (true) true true (.loop (w.extractLsb' 29 3) (w.extractLsb' 18 5) (w.extractLsb' 13 5) (w.extractLsb' 8 5))
  else if w.extractLsb' 0 8 = 2 then claim (w.extractLsb' 13 5 == 0) true true (.loopQ (w.extractLsb' 29 3) (w.extractLsb' 18 5) (w.extractLsb' 8 5))
  else if w.extractLsb' 0 8 = 3 then claim (w.extractLsb' 18 5 == 0 && w.extractLsb' 8 5 == 0) true true (.loopr (w.extractLsb' 29 3) (w.extractLsb' 13 5))
  else if w.extractLsb' 0 8 = 4 then claim (w.extractLsb' 8 15 == 0) true true (.looprQ (w.extractLsb' 29 3))
  else if w.extractLsb' 0 8 = 8 then claim (w.extractLsb' 8 15 == 0) true true (.ifence (w.extractLsb' 29 3))
  else if w.extractLsb' 0 8 = 9 then claim (true) true false (.sleep (w.extractLsb' 29 3) (w.extractLsb' 18 5) (w.extractLsb' 13 5) (w.extractLsb' 8 5))
  else if w.extractLsb' 0 8 = 16 then claim (w.extractLsb' 29 3 == 0 && w.extractLsb' 8 5 == 0) true true (.brk (w.extractLsb' 13 10))
  else if w.extractLsb' 0 8 = 17 then claim (w.extractLsb' 8 15 == 0) true true (.halt (w.extractLsb' 29 3))
  else if w.extractLsb' 0 8 = 24 then claim (w.extractLsb' 8 5 == 0) true true (.getid (w.extractLsb' 29 3) (w.extractLsb' 18 5) (w.extractLsb' 13 5))
  else .unallocated

/-- Major opcode 0x3F (R50). -/
def decode3F (w : Insn) : Decoded :=
  if w.extractLsb' 20 3 = 0 then claim (w.extractLsb' 29 3 == 0) true true (.tgt (w.extractLsb' 17 3) (w.extractLsb' 16 1) (w.extractLsb' 0 16))
  else if w.extractLsb' 20 3 = 1 then claim (w.extractLsb' 29 3 == 0) true true (.imm (w.extractLsb' 0 20))
  else if w.extractLsb' 20 3 = 2 then claim (w.extractLsb' 29 3 == 0) true true (.live (w.extractLsb' 0 20))
  else if w.extractLsb' 20 3 = 3 then claim (w.extractLsb' 29 3 == 0 && w.extractLsb' 10 5 == 0) true true (.jtab (w.extractLsb' 15 5) (w.extractLsb' 0 10))
  else if w.extractLsb' 20 3 = 4 then claim (w.extractLsb' 29 3 == 0 && w.extractLsb' 0 13 == 0) true true (.mod (w.extractLsb' 17 3) (w.extractLsb' 16 1) (w.extractLsb' 14 2) (w.extractLsb' 13 1))
  else if w.extractLsb' 20 3 = 5 then claim (w.extractLsb' 29 3 == 0 && w.extractLsb' 0 12 == 0) true true (.sched (w.extractLsb' 18 2) (w.extractLsb' 12 6))
  else if w.extractLsb' 20 3 = 6 then claim (w.extractLsb' 29 3 == 0 && w.extractLsb' 17 3 == 0) true true (.xt (w.extractLsb' 0 17))
  else .unallocated

/-- The decoder. -/
def decode (w : Insn) : Decoded :=
  if w = 0 ∨ w = 0xFFFFFFFF then .unallocated  -- R52
  else match (w.extractLsb' 23 6).toNat with
  | 0 => decode00 w
  | 1 => decode01 w
  | 2 => decode02 w
  | 3 => decode03 w
  | 4 => decode04 w
  | 5 => decode05 w
  | 6 => decode06 w
  | 7 => decode07 w
  | 8 => decode08 w
  | 9 => decode09 w
  | 10 => decode0A w
  | 11 => decode0B w
  | 12 => decode0C w
  | 13 => decode0D w
  | 14 => decode0E w
  | 15 => decode0F w
  | 16 => decode10 w
  | 17 => decode11 w
  | 18 => decode12 w
  | 19 => decode13 w
  | 20 => decode14 w
  | 21 => decode15 w
  | 22 => decode16 w
  | 23 => decode17 w
  | 24 => decode18 w
  | 25 => decode19 w
  | 26 => decode1A w
  | 27 => decode1B w
  | 28 => decode1C w
  | 29 => decode1D w
  | 30 => decode1E w
  | 31 => decode1F w
  | 32 => decode20 w
  | 33 => decode21 w
  | 34 => decode22 w
  | 35 => decode23 w
  | 36 => decode24 w
  | 37 => decode25 w
  | 38 => decode26 w
  | 39 => decode27 w
  | 40 => decode28 w
  | 41 => decode29 w
  | 42 => decode2A w
  | 43 => decode2B w
  | 44 => decode2C w
  | 45 => decode2D w
  | 46 => decode2E w
  | 48 => decode30 w
  | 49 => decode31 w
  | 50 => decode32 w
  | 51 => decode33 w
  | 52 => decode34 w
  | 53 => decode35 w
  | 54 => decode36 w
  | 55 => decode37 w
  | 56 => decode38 w
  | 57 => decode39 w
  | 58 => decode3A w
  | 60 => decode3C w
  | 61 => decode3D w
  | 63 => decode3F w
  | _ => .unallocated

/-- The word of an instruction; none for a step of the device, which has no bits. -/
def encode : Instr → Option Insn
  | .add n d x t q => some (n ++ 0#6 ++ d ++ x ++ t ++ q ++ 1#6)
  | .sub n d x t q => some (n ++ 0#6 ++ d ++ x ++ t ++ q ++ 2#6)
  | .and n d x t q => some (n ++ 0#6 ++ d ++ x ++ t ++ q ++ 3#6)
  | .or n d x t q => some (n ++ 0#6 ++ d ++ x ++ t ++ q ++ 4#6)
  | .xor n d x t q => some (n ++ 0#6 ++ d ++ x ++ t ++ q ++ 5#6)
  | .shl n d x t q => some (n ++ 0#6 ++ d ++ x ++ t ++ q ++ 6#6)
  | .shr n d x t q => some (n ++ 0#6 ++ d ++ x ++ t ++ q ++ 7#6)
  | .sha n d x t q => some (n ++ 0#6 ++ d ++ x ++ t ++ q ++ 8#6)
  | .min n d x t q => some (n ++ 0#6 ++ d ++ x ++ t ++ q ++ 9#6)
  | .minZ64 n d x t q => some (n ++ 0#6 ++ d ++ x ++ t ++ q ++ 10#6)
  | .max n d x t q => some (n ++ 0#6 ++ d ++ x ++ t ++ q ++ 11#6)
  | .maxZ64 n d x t q => some (n ++ 0#6 ++ d ++ x ++ t ++ q ++ 12#6)
  | .clz n d x q => some (n ++ 0#6 ++ d ++ x ++ 0#5 ++ q ++ 13#6)
  | .popc n d x q => some (n ++ 0#6 ++ d ++ x ++ 0#5 ++ q ++ 14#6)
  | .mov n d x q => some (n ++ 0#6 ++ d ++ x ++ 0#5 ++ q ++ 16#6)
  | .movFromCtl n d c => some (n ++ 0#6 ++ d ++ c ++ 17#13)
  | .movToCtl n c x => some (n ++ 0#6 ++ c ++ x ++ 18#13)
  | .shlImm n d x im q h => some (n ++ 0#6 ++ d ++ x ++ im ++ q ++ 16#5 ++ h)
  | .shrImm n d x im q h => some (n ++ 0#6 ++ d ++ x ++ im ++ q ++ 17#5 ++ h)
  | .shaImm n d x im q h => some (n ++ 0#6 ++ d ++ x ++ im ++ q ++ 18#5 ++ h)
  | .sel n d x t q p => some (n ++ 0#6 ++ d ++ x ++ t ++ q ++ 5#3 ++ p)
  | .mul n d x t q => some (n ++ 1#6 ++ d ++ x ++ t ++ q ++ 1#6)
  | .mulh n d x t q => some (n ++ 1#6 ++ d ++ x ++ t ++ q ++ 2#6)
  | .mulhZ64 n d x t q => some (n ++ 1#6 ++ d ++ x ++ t ++ q ++ 3#6)
  | .div n d x t q => some (n ++ 1#6 ++ d ++ x ++ t ++ q ++ 4#6)
  | .divZ64 n d x t q => some (n ++ 1#6 ++ d ++ x ++ t ++ q ++ 5#6)
  | .rem n d x t q => some (n ++ 1#6 ++ d ++ x ++ t ++ q ++ 6#6)
  | .remZ64 n d x t q => some (n ++ 1#6 ++ d ++ x ++ t ++ q ++ 7#6)
  | .cmp n d x t p im k => some (n ++ 2#6 ++ d ++ x ++ t ++ p ++ 0#2 ++ im ++ 0#1 ++ k)
  | .bfx n d x t => some (n ++ 3#6 ++ d ++ x ++ t ++ 1#8)
  | .bfxZ64 n d x t => some (n ++ 3#6 ++ d ++ x ++ t ++ 2#8)
  | .bfi n d x t => some (n ++ 3#6 ++ d ++ x ++ t ++ 3#8)
  | .lea n d x t c => some (n ++ 3#6 ++ d ++ x ++ t ++ 1#6 ++ c)
  | .geom n d x c => some (n ++ 3#6 ++ d ++ x ++ 2#11 ++ c)
  | .addImm n d x im => some (n ++ 4#6 ++ d ++ x ++ im)
  | .andImm n d x im => some (n ++ 5#6 ++ d ++ x ++ im)
  | .orImm n d x im => some (n ++ 6#6 ++ d ++ x ++ im)
  | .xorImm n d x im => some (n ++ 7#6 ++ d ++ x ++ im)
  | .ldS n d b z o => some (n ++ 8#6 ++ d ++ b ++ z ++ o)
  | .ldZ n d b z o => some (n ++ 9#6 ++ d ++ b ++ z ++ o)
  | .st n d b z o => some (n ++ 10#6 ++ d ++ b ++ z ++ o)
  | .ldq n b z o => some (n ++ 352#11 ++ b ++ z ++ o)
  | .stq n b z o => some (n ++ 384#11 ++ b ++ z ++ o)
  | .vldq n b o => some (n ++ 416#11 ++ b ++ 3#2 ++ o)
  | .vstq n b o => some (n ++ 417#11 ++ b ++ 3#2 ++ o)
  | .ldb n d b w p => some (n ++ 14#6 ++ d ++ b ++ w ++ 0#5 ++ p ++ 1#2)
  | .ldbS64 n d b w p => some (n ++ 14#6 ++ d ++ b ++ w ++ 0#5 ++ p ++ 2#2)
  | .stb n b x w p => some (n ++ 14#6 ++ b ++ x ++ w ++ 0#5 ++ p ++ 3#2)
  | .rot n t a l d => some (n ++ 14#6 ++ t ++ a ++ l ++ 4#6 ++ d)
  | .putr n t l b => some (n ++ 15#6 ++ t ++ l ++ b ++ 1#8)
  | .getr n t l b => some (n ++ 15#6 ++ t ++ l ++ b ++ 2#8)
  | .copy n t l b d q e c h => some (n ++ 16#6 ++ t ++ l ++ b ++ d ++ q ++ e ++ c ++ h)
  | .copy2 n t l b d q e c h => some (n ++ 17#6 ++ t ++ l ++ b ++ d ++ q ++ e ++ c ++ h)
  | .copyp n t l b d q e c h => some (n ++ 18#6 ++ t ++ l ++ b ++ d ++ q ++ e ++ c ++ h)
  | .gld n t b x z h => some (n ++ 19#6 ++ t ++ 0#5 ++ b ++ 0#1 ++ x ++ z ++ h ++ 0#2)
  | .gst n t x b z h => some (n ++ 19#6 ++ t ++ x ++ b ++ 2#2 ++ z ++ h ++ 0#2)
  | .amo n t x b o g c => some (n ++ 20#6 ++ t ++ x ++ b ++ o ++ g ++ c)
  | .deposit n t x b y => some (n ++ 21#6 ++ t ++ x ++ b ++ 0#2 ++ y ++ 0#5)
  | .notify n t x b => some (n ++ 21#6 ++ t ++ x ++ b ++ 64#8)
  | .ntake n d => some (n ++ 21#6 ++ d ++ 65#18)
  | .mcast n t l b y => some (n ++ 21#6 ++ t ++ l ++ b ++ 2#2 ++ y ++ 0#5)
  | .reduce n t l b f o y => some (n ++ 22#6 ++ t ++ l ++ b ++ 0#1 ++ f ++ 0#1 ++ o ++ y)
  | .redabort n t b => some (n ++ 22#6 ++ t ++ 0#5 ++ b ++ 128#8)
  | .query n t l b => some (n ++ 23#6 ++ t ++ l ++ b ++ 0#8)
  | .queryM n t l b => some (n ++ 23#6 ++ t ++ l ++ b ++ 64#8)
  | .take n d m => some (n ++ 24#6 ++ d ++ m ++ 1#13)
  | .peek n d m p => some (n ++ 24#6 ++ d ++ m ++ p ++ 2#8)
  | .waitm n d x => some (n ++ 24#6 ++ d ++ x ++ 3#13)
  | .putm n m x => some (n ++ 24#6 ++ m ++ x ++ 4#13)
  | .waitn n d c t => some (n ++ 25#6 ++ d ++ c ++ t ++ 1#8)
  | .setn n c x => some (n ++ 25#6 ++ c ++ x ++ 2#13)
  | .decn n c x => some (n ++ 25#6 ++ c ++ x ++ 3#13)
  | .bar n d g => some (n ++ 26#6 ++ d ++ g ++ 1#13)
  | .barx n d g => some (n ++ 26#6 ++ d ++ g ++ 2#13)
  | .phase n d g c => some (n ++ 26#6 ++ d ++ g ++ c ++ 3#8)
  | .fence n c o p x => some (n ++ 27#6 ++ c ++ o ++ p ++ x ++ 1#6)
  | .gang d x => some (476#9 ++ d ++ x ++ 1#13)
  | .ungang n d => some (n ++ 28#6 ++ d ++ 2#18)
  | .spawn n d a e => some (n ++ 28#6 ++ d ++ a ++ e ++ 4#8)
  | .spawnC n d a e => some (n ++ 28#6 ++ d ++ a ++ e ++ 5#8)
  | .await d t => some (476#9 ++ d ++ t ++ 8#13)
  | .yield d => some (476#9 ++ d ++ 9#18)
  | .retire => some (3992977418#32)
  | .retireCancel => some (3992977419#32)
  | .prod n d x => some (n ++ 29#6 ++ d ++ x ++ 1#13)
  | .cons n d => some (n ++ 29#6 ++ d ++ 2#18)
  | .snext n d => some (n ++ 29#6 ++ d ++ 3#18)
  | .prodClose n d => some (n ++ 29#6 ++ d ++ 4#18)
  | .lease n d x t => some (n ++ 30#6 ++ d ++ x ++ t ++ 1#8)
  | .leaseR n d h t => some (n ++ 30#6 ++ d ++ h ++ t ++ 2#8)
  | .ldrop n d h => some (n ++ 30#6 ++ d ++ h ++ 3#13)
  | .roleq n d x c => some (n ++ 30#6 ++ d ++ x ++ 2#11 ++ c)
  | .scoreS64 n x => some (n ++ 992#11 ++ x ++ 1#13)
  | .scoreZ64 n x => some (n ++ 992#11 ++ x ++ 2#13)
  | .scoreF64 n x => some (n ++ 992#11 ++ x ++ 3#13)
  | .scoreClr n => some (n ++ 260046852#29)
  | .heat d => some (479#9 ++ d ++ 8#18)
  | .tq n d c => some (n ++ 31#6 ++ d ++ c ++ 16#13)
  | .fadd n d x t q f => some (n ++ 32#6 ++ d ++ x ++ t ++ q ++ 0#1 ++ f ++ 1#3)
  | .fsub n d x t q f => some (n ++ 32#6 ++ d ++ x ++ t ++ q ++ 0#1 ++ f ++ 2#3)
  | .fmul n d x t q f => some (n ++ 32#6 ++ d ++ x ++ t ++ q ++ 0#1 ++ f ++ 3#3)
  | .fmin n d x t q f => some (n ++ 32#6 ++ d ++ x ++ t ++ q ++ 0#1 ++ f ++ 4#3)
  | .fmax n d x t q f => some (n ++ 32#6 ++ d ++ x ++ t ++ q ++ 0#1 ++ f ++ 5#3)
  | .fma n d x t f => some (n ++ 33#6 ++ d ++ x ++ t ++ 0#3 ++ f ++ 1#3)
  | .fdiv n d x t q f => some (n ++ 34#6 ++ d ++ x ++ t ++ q ++ 0#1 ++ f ++ 1#3)
  | .fsqrt n d x q f => some (n ++ 34#6 ++ d ++ x ++ 0#5 ++ q ++ 0#1 ++ f ++ 2#3)
  | .fcmp n d x t p f k => some (n ++ 35#6 ++ d ++ x ++ t ++ p ++ 0#2 ++ f ++ k)
  | .fcvt n d a c x => some (n ++ 35#6 ++ d ++ a ++ c ++ 1#3 ++ x)
  | .fclass n d x f => some (n ++ 35#6 ++ d ++ x ++ 2#8 ++ f ++ 1#3)
  | .vadd n d a b k w => some (n ++ 36#6 ++ d ++ a ++ b ++ k ++ 0#3 ++ w)
  | .vsub n d a b k w => some (n ++ 36#6 ++ d ++ a ++ b ++ k ++ 1#3 ++ w)
  | .vmul n d a b k w => some (n ++ 36#6 ++ d ++ a ++ b ++ k ++ 2#3 ++ w)
  | .vmin n d a b k w => some (n ++ 36#6 ++ d ++ a ++ b ++ k ++ 3#3 ++ w)
  | .vmax n d a b k w => some (n ++ 36#6 ++ d ++ a ++ b ++ k ++ 4#3 ++ w)
  | .vshl n d a b k w => some (n ++ 36#6 ++ d ++ a ++ b ++ k ++ 5#3 ++ w)
  | .vshr n d a b k w => some (n ++ 36#6 ++ d ++ a ++ b ++ k ++ 6#3 ++ w)
  | .vsha n d a b k w => some (n ++ 36#6 ++ d ++ a ++ b ++ k ++ 7#3 ++ w)
  | .vfadd n d a b k f => some (n ++ 37#6 ++ d ++ a ++ b ++ k ++ 0#3 ++ f)
  | .vfsub n d a b k f => some (n ++ 37#6 ++ d ++ a ++ b ++ k ++ 1#3 ++ f)
  | .vfmul n d a b k f => some (n ++ 37#6 ++ d ++ a ++ b ++ k ++ 2#3 ++ f)
  | .vfmin n d a b k f => some (n ++ 37#6 ++ d ++ a ++ b ++ k ++ 3#3 ++ f)
  | .vfmax n d a b k f => some (n ++ 37#6 ++ d ++ a ++ b ++ k ++ 4#3 ++ f)
  | .vfrcp n d a k f => some (n ++ 37#6 ++ d ++ a ++ 0#5 ++ k ++ 5#3 ++ f)
  | .vfrsq n d a k f => some (n ++ 37#6 ++ d ++ a ++ 0#5 ++ k ++ 6#3 ++ f)
  | .vfabs n d a k f => some (n ++ 37#6 ++ d ++ a ++ 0#5 ++ k ++ 7#3 ++ f)
  | .vfma n d a b k f => some (n ++ 38#6 ++ d ++ a ++ b ++ k ++ 0#3 ++ f)
  | .vfms n d a b k f => some (n ++ 38#6 ++ d ++ a ++ b ++ k ++ 1#3 ++ f)
  | .vfnma n d a b k f => some (n ++ 38#6 ++ d ++ a ++ b ++ k ++ 2#3 ++ f)
  | .vfmaw n d a b k f => some (n ++ 38#6 ++ d ++ a ++ b ++ k ++ 3#3 ++ f)
  | .vcvt n d a c k x => some (n ++ 39#6 ++ d ++ a ++ c ++ k ++ x)
  | .vscale n d a b k c f => some (n ++ 40#6 ++ d ++ a ++ b ++ k ++ 0#1 ++ c ++ f)
  | .vunscale n d a b k c f => some (n ++ 40#6 ++ d ++ a ++ b ++ k ++ 1#1 ++ c ++ f)
  | .vcmp n d a b k f j w => some (n ++ 41#6 ++ d ++ a ++ b ++ k ++ f ++ j ++ w)
  | .vperm n d a b k w => some (n ++ 42#6 ++ d ++ a ++ b ++ k ++ 0#3 ++ w)
  | .vziplo n d a b k w => some (n ++ 42#6 ++ d ++ a ++ b ++ k ++ 1#3 ++ w)
  | .vziphi n d a b k w => some (n ++ 42#6 ++ d ++ a ++ b ++ k ++ 2#3 ++ w)
  | .vunzipe n d a b k w => some (n ++ 42#6 ++ d ++ a ++ b ++ k ++ 3#3 ++ w)
  | .vunzipo n d a b k w => some (n ++ 42#6 ++ d ++ a ++ b ++ k ++ 4#3 ++ w)
  | .vrev n d a k w => some (n ++ 42#6 ++ d ++ a ++ 0#5 ++ k ++ 5#3 ++ w)
  | .vcompress n d a k w => some (n ++ 42#6 ++ d ++ a ++ 0#5 ++ k ++ 6#3 ++ w)
  | .vradd n d a k w => some (n ++ 43#6 ++ d ++ a ++ 0#5 ++ k ++ 0#3 ++ w)
  | .vrmin n d a k w => some (n ++ 43#6 ++ d ++ a ++ 0#5 ++ k ++ 1#3 ++ w)
  | .vrmax n d a k w => some (n ++ 43#6 ++ d ++ a ++ 0#5 ++ k ++ 2#3 ++ w)
  | .vrfadd n d a k f => some (n ++ 43#6 ++ d ++ a ++ 0#5 ++ k ++ 3#3 ++ f)
  | .vrfmin n d a k f => some (n ++ 43#6 ++ d ++ a ++ 0#5 ++ k ++ 4#3 ++ f)
  | .vrfmax n d a k f => some (n ++ 43#6 ++ d ++ a ++ 0#5 ++ k ++ 5#3 ++ f)
  | .vtab n d a b k f => some (n ++ 44#6 ++ d ++ a ++ b ++ k ++ 0#3 ++ f)
  | .tload n d a b => some (n ++ 44#6 ++ d ++ a ++ b ++ 4#8)
  | .tcfg n d a => some (n ++ 44#6 ++ d ++ a ++ 8#13)
  | .vrep c e => some (45#9 ++ c ++ e ++ 1#13)
  | .vrepQ c => some (45#9 ++ c ++ 2#18)
  | .vmov n d a k => some (n ++ 46#6 ++ d ++ a ++ 0#5 ++ k ++ 1#5)
  | .vmovFromVldq n d => some (n ++ 46#6 ++ d ++ 2#18)
  | .vmovToVstq n a => some (n ++ 1472#11 ++ a ++ 3#13)
  | .vbcast n d a k w => some (n ++ 46#6 ++ d ++ a ++ 0#5 ++ k ++ 1#3 ++ w)
  | .vext n d a b w => some (n ++ 46#6 ++ d ++ a ++ b ++ 2#6 ++ w)
  | .vins n d a b w => some (n ++ 46#6 ++ d ++ a ++ b ++ 3#6 ++ w)
  | .vand n d a b k => some (n ++ 46#6 ++ d ++ a ++ b ++ k ++ 16#5)
  | .vor n d a b k => some (n ++ 46#6 ++ d ++ a ++ b ++ k ++ 17#5)
  | .vxor n d a b k => some (n ++ 46#6 ++ d ++ a ++ b ++ k ++ 18#5)
  | .vandn n d a b k => some (n ++ 46#6 ++ d ++ a ++ b ++ k ++ 19#5)
  | .vsel n d a b k => some (n ++ 46#6 ++ d ++ a ++ b ++ k ++ 20#5)
  | .kand n d a b => some (n ++ 46#6 ++ d ++ a ++ b ++ 21#8)
  | .kor n d a b => some (n ++ 46#6 ++ d ++ a ++ b ++ 22#8)
  | .kxor n d a b => some (n ++ 46#6 ++ d ++ a ++ b ++ 23#8)
  | .knot n d a => some (n ++ 46#6 ++ d ++ a ++ 24#13)
  | .kfromv n d a => some (n ++ 46#6 ++ d ++ a ++ 25#13)
  | .vfromk n d a => some (n ++ 46#6 ++ d ++ a ++ 26#13)
  | .kpopc n d a => some (n ++ 46#6 ++ d ++ a ++ 27#13)
  | .movEFromCtl n d c => some (n ++ 46#6 ++ d ++ c ++ 28#13)
  | .movEToCtl n c x => some (n ++ 46#6 ++ c ++ x ++ 29#13)
  | .mld n t l b f x g => some (n ++ 48#6 ++ t ++ l ++ b ++ f ++ x ++ 0#1 ++ g)
  | .mma n c a f b g k => some (n ++ 49#6 ++ c ++ a ++ f ++ b ++ g ++ k ++ 1#5)
  | .mzero n c k => some (n ++ 49#6 ++ c ++ 0#10 ++ k ++ 2#5)
  | .mmaj n c a f b g k x => some (n ++ 50#6 ++ c ++ a ++ f ++ b ++ g ++ k ++ 0#3 ++ x)
  | .mmas n c a f b g k x => some (n ++ 51#6 ++ c ++ a ++ f ++ b ++ g ++ k ++ 0#3 ++ x)
  | .mst n t l b c f => some (n ++ 52#6 ++ t ++ l ++ b ++ 1#2 ++ c ++ f)
  | .mmap n x => some (n ++ 1664#11 ++ x ++ 128#13)
  | .pld n d a b => some (n ++ 53#6 ++ d ++ a ++ b ++ 1#8)
  | .pldSet n d a => some (n ++ 53#6 ++ d ++ a ++ 2#13)
  | .pid n d a => some (n ++ 53#6 ++ d ++ a ++ 3#13)
  | .pst n d a => some (n ++ 53#6 ++ d ++ a ++ 4#13)
  | .pstSet n d a => some (n ++ 53#6 ++ d ++ a ++ 5#13)
  | .pmov n d a => some (n ++ 53#6 ++ d ++ a ++ 6#13)
  | .prot n d a b => some (n ++ 54#6 ++ d ++ a ++ b ++ 1#8)
  | .pcomp n d a b => some (n ++ 54#6 ++ d ++ a ++ b ++ 2#8)
  | .pinv n d a => some (n ++ 54#6 ++ d ++ a ++ 3#13)
  | .prand n d a b => some (n ++ 54#6 ++ d ++ a ++ b ++ 4#8)
  | .pcyc n d a b x => some (n ++ 54#6 ++ d ++ a ++ b ++ 1#5 ++ x)
  | .peq n d a b => some (n ++ 54#6 ++ d ++ a ++ b ++ 16#8)
  | .papply n t l b im p => some (n ++ 55#6 ++ t ++ l ++ b ++ 1#4 ++ im ++ p)
  | .xbegin d g l => some (56#9 ++ d ++ g ++ l ++ 1#8)
  | .xend d => some (56#9 ++ d ++ 2#18)
  | .xmit c r k t => some (57#9 ++ c ++ r ++ k ++ t)
  | .xsel c r k t => some (58#9 ++ c ++ r ++ k ++ t)
  | .sysr n x d => some (n ++ 60#6 ++ x ++ d ++ 1#6)
  | .sysw n x d => some (n ++ 60#6 ++ x ++ d ++ 2#6)
  | .spill n a => some (n ++ 245760#18 ++ a ++ 4#6)
  | .fill n a => some (n ++ 245760#18 ++ a ++ 5#6)
  | .trap c => some (60#9 ++ c ++ 8#11)
  | .tret => some (503316489#32)
  | .stinv n k a => some (n ++ 60#6 ++ k ++ 0#9 ++ a ++ 16#6)
  | .nop n => some (n ++ 511705088#29)
  | .loop n l c h => some (n ++ 61#6 ++ l ++ c ++ h ++ 1#8)
  | .loopQ n l h => some (n ++ 61#6 ++ l ++ 0#5 ++ h ++ 2#8)
  | .loopr n c => some (n ++ 1952#11 ++ c ++ 3#13)
  | .looprQ n => some (n ++ 511705092#29)
  | .ifence n => some (n ++ 511705096#29)
  | .sleep n d x t => some (n ++ 61#6 ++ d ++ x ++ t ++ 9#8)
  | .brk c => some (61#9 ++ c ++ 16#13)
  | .halt n => some (n ++ 511705105#29)
  | .getid n d x => some (n ++ 61#6 ++ d ++ x ++ 24#13)
  | .tgt p x o => some (504#12 ++ p ++ x ++ o)
  | .imm im => some (505#12 ++ im)
  | .live l => some (506#12 ++ l)
  | .jtab r l => some (507#12 ++ r ++ 0#5 ++ l)
  | .mod r x a t => some (508#12 ++ r ++ x ++ a ++ t ++ 0#13)
  | .sched p g => some (509#12 ++ p ++ g ++ 0#12)
  | .xt o => some (4080#15 ++ o)
  | .fetch .. => none
  | .resultWriteback .. => none
  | .puntyExpire .. => none
  | .refreshCycle .. => none
  | .trapEntry .. => none
  | .eventDelivery .. => none
  | .watchdog .. => none
  | .pairedSafePoint .. => none
  | .preemptRequest .. => none
  | .preemptOverdue .. => none
  | .contextSave .. => none
  | .contextResume .. => none
  | .coreKill .. => none
  | .sleepWake .. => none
  | .sleepTimeout .. => none
  | .sauStart .. => none
  | .sauComplete .. => none
  | .vrepDispatch .. => none
  | .mldFill .. => none
  | .globalStreamRow .. => none
  | .multiplyStart .. => none
  | .multiplyComplete .. => none
  | .mstRowSend .. => none
  | .mmajJoin .. => none
  | .mmajJoinTimeout .. => none
  | .rotJoin .. => none
  | .rotJoinTimeout .. => none
  | .solveStart .. => none
  | .solveComplete .. => none
  | .pointsApplication .. => none
  | .engineGranule .. => none
  | .tokenStatusWrite .. => none
  | .routerHop .. => none
  | .occupancyUpdate => none
  | .packetArrival .. => none
  | .reorderResend .. => none
  | .remapNack .. => none
  | .depositArrival .. => none
  | .depositLatchTimeout .. => none
  | .busyResend .. => none
  | .retryDepositResend .. => none
  | .deviceDepositLand .. => none
  | .notifyArrival .. => none
  | .combine .. => none
  | .reduceResultLand .. => none
  | .combinePark .. => none
  | .translationRequest .. => none
  | .pageWalk .. => none
  | .faultRetry .. => none
  | .faultDecline .. => none
  | .amoHome .. => none
  | .releasePerformed .. => none
  | .acquireComplete .. => none
  | .stationInvalidate .. => none
  | .barrierArrival .. => none
  | .barrierWithdrawal .. => none
  | .groupAbort .. => none
  | .exchangeJoin .. => none
  | .exchangeJoinTimeout .. => none
  | .phaseEnd .. => none
  | .gangJoin .. => none
  | .gangJoinTimeout .. => none
  | .taskHandover .. => none
  | .domainDrain .. => none
  | .taskReady .. => none
  | .prodGrant .. => none
  | .consGrant .. => none
  | .shunterInterval .. => none
  | .stageSwitch .. => none
  | .distributorServe .. => none
  | .censusInterval => none
  | .recastCommit .. => none
  | .recastOrder .. => none
  | .censusPolicyWrite .. => none
  | .censusRequest .. => none
  | .leaseExpiry .. => none
  | .expiringNotice .. => none
  | .pageEvacuation .. => none
  | .relayDrainDeadline .. => none
  | .annealComplete .. => none
  | .scoreArrival .. => none
  | .allowanceStop .. => none
  | .roundEnd .. => none
  | .roundStart .. => none
  | .scopeAbort .. => none
  | .queueWake .. => none
  | .packetFetch .. => none
  | .launchPacket .. => none
  | .copyPacket .. => none
  | .waitPacket .. => none
  | .waitPoll .. => none
  | .waitTimeout .. => none
  | .signalPacket .. => none
  | .indirectPacket .. => none
  | .loopPacket .. => none
  | .fetchFencePacket .. => none
  | .tourneyPacket .. => none
  | .leasePacket .. => none
  | .resetQueuePacket .. => none
  | .queueResetControl .. => none
  | .packetComplete .. => none
  | .heartbeatSend => none
  | .heartbeatMiss .. => none
  | .resetMessage .. => none
  | .hostWindowWrite .. => none
  | .hostWindowRead .. => none
  | .hostLinkTrain .. => none
  | .linkFlitRetry .. => none
  | .scaleupLinkDown .. => none
  | .linkRetrain .. => none
  | .scrub .. => none
  | .pmodeWrite .. => none
  | .modeSwitchRestart => none
  | .powerLimitExceeded => none
  | .powerCapRelease => none
  | .firmwareImage .. => none
  | .flashWriteInterrupted => none
  | .attestationRequest .. => none
  | .deviceReset => none
  | .swzWrite .. => none
  | .fpctlWrite .. => none
  | .fpctlRead .. => none
  | .srseedWrite .. => none
  | .winWrite .. => none
  | .registerWrite .. => none
  | .cxlSnoop .. => none
  | .siteEviction .. => none
  | .softError .. => none
  | .kernelHartAccess .. => none

/-- The instruction that the decoder reads from an instruction of nbits bits w, every bit above nbits zero; none where it refuses. -/
def decodeTableWord (nbits w : Nat) : Option Instr :=
  match decode (BitVec.ofNat 32 (w % 2 ^ nbits)) with
  | .ok i => some i
  | _ => none

end Sys2Proof
end

