-- ==== Sys2Proof/Config.lean ====
section
/-!
DEFINITION. What the module fixes once for all, and the values that the spec leaves open.
A value that the spec leaves open is an opaque constant: it has a type and no body that a proof could use.
-/

namespace Sys2Proof.Config

/-! ### Sizes -/

/-- Bytes of one core's ULM (R150). -/
def ulmBytes : Nat := 393216

/-- Number of sites (R3). -/
def sites : Nat := 2304

/-- Number of cores (R3, R7). -/
def cores : Nat := 9216

/-- Number of HBM channels (R7, R263). -/
def channels : Nat := 512

/-- Bytes of one HBM channel (R263). -/
def channelBytes : Nat := 2000000000

/-- Arithmetic cycles after which a join that is not complete times out (R164, R211, R310, R326). -/
def joinCycles : Nat := 1048576

/-- Arithmetic cycles for which a short-lived value stays in the punty buffer (R95). -/
def puntyCycles : Nat := 48

/-- Arithmetic cycles for which a deposit may wait in the latch (R101). -/
def latchCycles : Nat := 256

/-- Arithmetic cycles of one network cycle (R5). -/
def netCycle : Nat := 2

/-- Nanoseconds that pass in one round of default moves while the clocks stand (log entry 4: the plan may hold any other course of time). -/
def nsPerRound : Nat := 1

/-- The reset value of SRSEED (R119). -/
def seed : BitVec 64 := 0x9E3779B97F4A7C15

/-! ### Values that the spec leaves open -/

/-- Which of several admitted outcomes happens, for the n-th choice (R126, R279). -/
opaque pick : Nat → Nat

/-- The byte that a far-tier location holds before anything has been written to it (R278). -/
opaque farInit : Nat → BitVec 8

/-- The value that a register holds which a saved context did not keep, for the n-th such value (R84). -/
opaque freeWord : Nat → BitVec 64

/-- The home location of the context area that the kernel gives a migration of a logical core, where it names none (R335, R381). -/
opaque migrateArea : Nat → Nat

/-- The SHA-384 digest of a run of bytes (R440, R442). -/
opaque sha384 : List (BitVec 8) → BitVec 384

/-- HMAC-SHA-384 of a run of bytes under a key (R426). -/
opaque hmac : BitVec 384 → List (BitVec 8) → BitVec 384

/-- Whether both signatures, given as the bytes 0x040 to 0x89F of an image, verify over its bytes 0x000 to 0x03F (R440). -/
opaque imageSigned : List (BitVec 8) → List (BitVec 8) → Bool

/-- The image that the flash holds when the module leaves its maker (R440). -/
opaque factoryImage : List (BitVec 8)

/-- The bytes of the k-th stage that an image holds (R442). -/
opaque stageBytes : List (BitVec 8) → Nat → List (BitVec 8)

/-- The device identity that heartbeats and reset messages carry (R426). -/
opaque identity : Nat

/-- The mode into which the island straps a host port: 0 endpoint, 1 CXL device, 2 root port, taken modulo 3 (R427). -/
opaque strap : Nat → Nat

/-- The doubleword at an aligned byte offset of the control space (R428). -/
opaque ctlAt : Nat → CtlPlace

/-- The island's signature over its measurements and a nonce (R442). -/
opaque sign : List (BitVec 384) → BitVec 256 → Nat → BitVec 768

/-- The key that an attestation derives from the nonce, the peer's share and the island's own ephemeral key, which is a new one for the n-th
attestation (R442). -/
opaque deriveKey : BitVec 256 → BitVec 768 → Nat → BitVec 384

/-- The track (low 8 bits) and the cycle (next 9 bits) that the finaliser gives a transmission: of an object's streams, a placement class, the
rank of the transmitting member and the logical step (R57, R59). -/
opaque finalSlot : List (BitVec 8) → List Nat → Nat → Nat → Nat

/-- The version of the finaliser that a firmware image holds (R59). -/
opaque finaliserVersion : List (BitVec 8) → Nat

/-- The virtual address from which an ASID's GDATA sections are placed, one launch after another (R40). -/
opaque gdataBase : Nat → Nat

end Sys2Proof.Config
end

