-- ==== Sys2Proof/Event.lean ====
section
/-!
DEFINITION. The steps of the device as the agenda of the state holds them: one constructor per row of spec/opcode_table.json
that has no bits, with the arguments of the constructor of Instr of the same name.
-/

namespace Sys2Proof

/-- A step of the device that is to come. -/
inductive Ev where
  /-- R61. -/
  | fetch (core : Nat) (str : Strm)
  /-- R129. -/
  | resultWriteback (core : Nat) (str : Strm)
  /-- R96. -/
  | puntyExpire (core : Nat) (str : Strm) (idx : Nat)
  /-- R94. -/
  | refreshCycle (core bank : Nat)
  /-- R410. -/
  | trapEntry (core : Nat) (str : Strm)
  /-- R411. -/
  | eventDelivery (core : Nat)
  /-- R406. -/
  | watchdog (core : Nat)
  /-- R82. -/
  | pairedSafePoint (core : Nat)
  /-- R335. -/
  | preemptRequest (core timeoutNs area : Nat) (ranges : List (Nat × Nat))
  /-- R335. -/
  | preemptOverdue (core : Nat)
  /-- R336. -/
  | contextSave (core : Nat)
  /-- R337. -/
  | contextResume (core target : Nat)
  /-- R335. -/
  | coreKill (core : Nat)
  /-- R88. -/
  | sleepWake (core : Nat)
  /-- R88. -/
  | sleepTimeout (core : Nat)
  /-- R175. -/
  | sauStart (tile : Nat)
  /-- R177. -/
  | sauComplete (core : Nat)
  /-- R195. -/
  | vrepDispatch (core : Nat)
  /-- R204. -/
  | mldFill (core : Nat)
  /-- R205. -/
  | globalStreamRow (core id : Nat)
  /-- R200. -/
  | multiplyStart (core : Nat)
  /-- R209. -/
  | multiplyComplete (core : Nat)
  /-- R216. -/
  | mstRowSend (core : Nat)
  /-- R211. -/
  | mmajJoin (tile : Nat)
  /-- R211. -/
  | mmajJoinTimeout (tile : Nat)
  /-- R164. -/
  | rotJoin (tile : Nat)
  /-- R164. -/
  | rotJoinTimeout (tile : Nat)
  /-- R225. -/
  | solveStart (tile : Nat)
  /-- R224. -/
  | solveComplete (tile : Nat)
  /-- R237. -/
  | pointsApplication (core id : Nat)
  /-- R253. -/
  | engineGranule (core id : Nat)
  /-- R244. -/
  | tokenStatusWrite (core id : Nat)
  /-- R294. -/
  | routerHop (pkt : Nat)
  /-- R293. -/
  | occupancyUpdate
  /-- R296. -/
  | packetArrival (pkt : Nat)
  /-- R296. -/
  | reorderResend (pkt : Nat)
  /-- R384. -/
  | remapNack (pkt : Nat)
  /-- R101. -/
  | depositArrival (pkt : Nat)
  /-- R101. -/
  | depositLatchTimeout (core : Nat)
  /-- R101. -/
  | busyResend (pkt : Nat)
  /-- R299. -/
  | retryDepositResend (pkt : Nat)
  /-- R98. -/
  | deviceDepositLand (core : Nat)
  /-- R299. -/
  | notifyArrival (pkt : Nat)
  /-- R305. -/
  | combine (pkt : Nat)
  /-- R305. -/
  | reduceResultLand (asid grp tag : Nat)
  /-- R306. -/
  | combinePark (asid grp tag : Nat)
  /-- R259. -/
  | translationRequest (core id : Nat)
  /-- R260. -/
  | pageWalk (core id : Nat)
  /-- R267. -/
  | faultRetry (core id : Nat)
  /-- R267. -/
  | faultDecline (core id : Nat)
  /-- R284. -/
  | amoHome (core id : Nat)
  /-- R277. -/
  | releasePerformed (core id : Nat)
  /-- R278. -/
  | acquireComplete (core id : Nat)
  /-- R272. -/
  | stationInvalidate (kind operand : Nat)
  /-- R322. -/
  | barrierArrival (core : Nat)
  /-- R325. -/
  | barrierWithdrawal (core : Nat)
  /-- R324. -/
  | groupAbort (asid grp : Nat)
  /-- R310. -/
  | exchangeJoin (asid grp : Nat)
  /-- R310. -/
  | exchangeJoinTimeout (asid grp : Nat)
  /-- R313. -/
  | phaseEnd (asid grp : Nat)
  /-- R330. -/
  | gangJoin (core : Nat)
  /-- R326. -/
  | gangJoinTimeout (core : Nat)
  /-- R345. -/
  | taskHandover (asid grp : Nat)
  /-- R345. -/
  | domainDrain (asid grp : Nat)
  /-- R347. -/
  | taskReady (asid grp rec : Nat)
  /-- R356. -/
  | prodGrant (asid grp ring : Nat)
  /-- R356. -/
  | consGrant (asid grp ring : Nat)
  /-- R357. -/
  | shunterInterval (asid grp : Nat)
  /-- R358. -/
  | stageSwitch (core : Nat)
  /-- R361. -/
  | distributorServe (core id : Nat)
  /-- R368. -/
  | censusInterval
  /-- R379. -/
  | recastCommit (tile : Nat)
  /-- R368. -/
  | recastOrder (die donor target : Nat)
  /-- R366. -/
  | censusPolicyWrite (offset : Nat) (value : BitVec 64)
  /-- R377. -/
  | censusRequest (core id : Nat)
  /-- R375. -/
  | leaseExpiry (asid slot : Nat)
  /-- R375. -/
  | expiringNotice (asid slot : Nat)
  /-- R382. -/
  | pageEvacuation (tile : Nat)
  /-- R383. -/
  | relayDrainDeadline (tile : Nat)
  /-- R380. -/
  | annealComplete (tile : Nat)
  /-- R392. -/
  | scoreArrival (scope : Nat)
  /-- R390. -/
  | allowanceStop (core : Nat)
  /-- R396. -/
  | roundEnd (scope : Nat)
  /-- R389. -/
  | roundStart (scope : Nat)
  /-- R397. -/
  | scopeAbort (scope : Nat)
  /-- R418. -/
  | queueWake (q : Nat)
  /-- R419. -/
  | packetFetch (q : Nat)
  /-- R424. -/
  | launchPacket (q idx : Nat)
  /-- R421. -/
  | copyPacket (q idx : Nat)
  /-- R421. -/
  | waitPacket (q idx : Nat)
  /-- R421. -/
  | waitPoll (q idx : Nat)
  /-- R421. -/
  | waitTimeout (q idx : Nat)
  /-- R421. -/
  | signalPacket (q idx : Nat)
  /-- R422. -/
  | indirectPacket (q idx : Nat)
  /-- R422. -/
  | loopPacket (q idx : Nat)
  /-- R422. -/
  | fetchFencePacket (q idx : Nat)
  /-- R387. -/
  | tourneyPacket (q idx : Nat)
  /-- R421. -/
  | leasePacket (q idx : Nat)
  /-- R425. -/
  | resetQueuePacket (q idx : Nat)
  /-- R425. -/
  | queueResetControl (q : Nat)
  /-- R420. -/
  | packetComplete (q idx : Nat)
  /-- R426. -/
  | heartbeatSend
  /-- R426. -/
  | heartbeatMiss (nb : Nat)
  /-- R426. -/
  | resetMessage (sender target counter : Nat) (tag : BitVec 384)
  /-- R428. -/
  | hostWindowWrite (port addr : Nat) (data : List (BitVec 8))
  /-- R428. -/
  | hostWindowRead (port addr len : Nat)
  /-- R427. -/
  | hostLinkTrain (port rate width : Nat)
  /-- R430. -/
  | linkFlitRetry (port : Nat)
  /-- R431. -/
  | scaleupLinkDown (port : Nat)
  /-- R431. -/
  | linkRetrain (port : Nat)
  /-- R435. -/
  | scrub (station : Nat)
  /-- R437. -/
  | pmodeWrite (value : BitVec 64)
  /-- R438. -/
  | modeSwitchRestart
  /-- R439. -/
  | powerLimitExceeded
  /-- R439. -/
  | powerCapRelease
  /-- R441. -/
  | firmwareImage (image : List (BitVec 8))
  /-- R441. -/
  | flashWriteInterrupted
  /-- R442. -/
  | attestationRequest (nonce : BitVec 256) (peer : BitVec 768)
  /-- R263. -/
  | deviceReset
  /-- R156. -/
  | swzWrite (core idx : Nat) (value : BitVec 64)
  /-- R118. -/
  | fpctlWrite (core : Nat) (value : BitVec 64)
  /-- R118. -/
  | fpctlRead (core : Nat) (str : Strm) (dst : BitVec 5)
  /-- R119. -/
  | srseedWrite (core : Nat) (value : BitVec 64)
  /-- R109. -/
  | winWrite (core : Nat) (str : Strm) (value : BitVec 64)
  /-- R107. -/
  | registerWrite (core : Nat) (reg : CtlReg) (value : BitVec 64)
  /-- R427. -/
  | cxlSnoop (port addr : Nat)
  /-- R337. -/
  | siteEviction (core : Nat)
  /-- R435. -/
  | softError (site : ErrSite) (multi : Bool)
  /-- R280. -/
  | kernelHartAccess (hart : Nat) (op : HartOp)
  deriving DecidableEq, Repr

/-- The step of the device that an instruction is, if it is one. -/
def Instr.toEv? : Instr → Option Ev
  | .fetch core str => some (.fetch core str)
  | .resultWriteback core str => some (.resultWriteback core str)
  | .puntyExpire core str idx => some (.puntyExpire core str idx)
  | .refreshCycle core bank => some (.refreshCycle core bank)
  | .trapEntry core str => some (.trapEntry core str)
  | .eventDelivery core => some (.eventDelivery core)
  | .watchdog core => some (.watchdog core)
  | .pairedSafePoint core => some (.pairedSafePoint core)
  | .preemptRequest core timeoutNs area ranges => some (.preemptRequest core timeoutNs area ranges)
  | .preemptOverdue core => some (.preemptOverdue core)
  | .contextSave core => some (.contextSave core)
  | .contextResume core target => some (.contextResume core target)
  | .coreKill core => some (.coreKill core)
  | .sleepWake core => some (.sleepWake core)
  | .sleepTimeout core => some (.sleepTimeout core)
  | .sauStart tile => some (.sauStart tile)
  | .sauComplete core => some (.sauComplete core)
  | .vrepDispatch core => some (.vrepDispatch core)
  | .mldFill core => some (.mldFill core)
  | .globalStreamRow core id => some (.globalStreamRow core id)
  | .multiplyStart core => some (.multiplyStart core)
  | .multiplyComplete core => some (.multiplyComplete core)
  | .mstRowSend core => some (.mstRowSend core)
  | .mmajJoin tile => some (.mmajJoin tile)
  | .mmajJoinTimeout tile => some (.mmajJoinTimeout tile)
  | .rotJoin tile => some (.rotJoin tile)
  | .rotJoinTimeout tile => some (.rotJoinTimeout tile)
  | .solveStart tile => some (.solveStart tile)
  | .solveComplete tile => some (.solveComplete tile)
  | .pointsApplication core id => some (.pointsApplication core id)
  | .engineGranule core id => some (.engineGranule core id)
  | .tokenStatusWrite core id => some (.tokenStatusWrite core id)
  | .routerHop pkt => some (.routerHop pkt)
  | .occupancyUpdate => some (.occupancyUpdate)
  | .packetArrival pkt => some (.packetArrival pkt)
  | .reorderResend pkt => some (.reorderResend pkt)
  | .remapNack pkt => some (.remapNack pkt)
  | .depositArrival pkt => some (.depositArrival pkt)
  | .depositLatchTimeout core => some (.depositLatchTimeout core)
  | .busyResend pkt => some (.busyResend pkt)
  | .retryDepositResend pkt => some (.retryDepositResend pkt)
  | .deviceDepositLand core => some (.deviceDepositLand core)
  | .notifyArrival pkt => some (.notifyArrival pkt)
  | .combine pkt => some (.combine pkt)
  | .reduceResultLand asid grp tag => some (.reduceResultLand asid grp tag)
  | .combinePark asid grp tag => some (.combinePark asid grp tag)
  | .translationRequest core id => some (.translationRequest core id)
  | .pageWalk core id => some (.pageWalk core id)
  | .faultRetry core id => some (.faultRetry core id)
  | .faultDecline core id => some (.faultDecline core id)
  | .amoHome core id => some (.amoHome core id)
  | .releasePerformed core id => some (.releasePerformed core id)
  | .acquireComplete core id => some (.acquireComplete core id)
  | .stationInvalidate kind operand => some (.stationInvalidate kind operand)
  | .barrierArrival core => some (.barrierArrival core)
  | .barrierWithdrawal core => some (.barrierWithdrawal core)
  | .groupAbort asid grp => some (.groupAbort asid grp)
  | .exchangeJoin asid grp => some (.exchangeJoin asid grp)
  | .exchangeJoinTimeout asid grp => some (.exchangeJoinTimeout asid grp)
  | .phaseEnd asid grp => some (.phaseEnd asid grp)
  | .gangJoin core => some (.gangJoin core)
  | .gangJoinTimeout core => some (.gangJoinTimeout core)
  | .taskHandover asid grp => some (.taskHandover asid grp)
  | .domainDrain asid grp => some (.domainDrain asid grp)
  | .taskReady asid grp rec => some (.taskReady asid grp rec)
  | .prodGrant asid grp ring => some (.prodGrant asid grp ring)
  | .consGrant asid grp ring => some (.consGrant asid grp ring)
  | .shunterInterval asid grp => some (.shunterInterval asid grp)
  | .stageSwitch core => some (.stageSwitch core)
  | .distributorServe core id => some (.distributorServe core id)
  | .censusInterval => some (.censusInterval)
  | .recastCommit tile => some (.recastCommit tile)
  | .recastOrder die donor target => some (.recastOrder die donor target)
  | .censusPolicyWrite offset value => some (.censusPolicyWrite offset value)
  | .censusRequest core id => some (.censusRequest core id)
  | .leaseExpiry asid slot => some (.leaseExpiry asid slot)
  | .expiringNotice asid slot => some (.expiringNotice asid slot)
  | .pageEvacuation tile => some (.pageEvacuation tile)
  | .relayDrainDeadline tile => some (.relayDrainDeadline tile)
  | .annealComplete tile => some (.annealComplete tile)
  | .scoreArrival scope => some (.scoreArrival scope)
  | .allowanceStop core => some (.allowanceStop core)
  | .roundEnd scope => some (.roundEnd scope)
  | .roundStart scope => some (.roundStart scope)
  | .scopeAbort scope => some (.scopeAbort scope)
  | .queueWake q => some (.queueWake q)
  | .packetFetch q => some (.packetFetch q)
  | .launchPacket q idx => some (.launchPacket q idx)
  | .copyPacket q idx => some (.copyPacket q idx)
  | .waitPacket q idx => some (.waitPacket q idx)
  | .waitPoll q idx => some (.waitPoll q idx)
  | .waitTimeout q idx => some (.waitTimeout q idx)
  | .signalPacket q idx => some (.signalPacket q idx)
  | .indirectPacket q idx => some (.indirectPacket q idx)
  | .loopPacket q idx => some (.loopPacket q idx)
  | .fetchFencePacket q idx => some (.fetchFencePacket q idx)
  | .tourneyPacket q idx => some (.tourneyPacket q idx)
  | .leasePacket q idx => some (.leasePacket q idx)
  | .resetQueuePacket q idx => some (.resetQueuePacket q idx)
  | .queueResetControl q => some (.queueResetControl q)
  | .packetComplete q idx => some (.packetComplete q idx)
  | .heartbeatSend => some (.heartbeatSend)
  | .heartbeatMiss nb => some (.heartbeatMiss nb)
  | .resetMessage sender target counter tag => some (.resetMessage sender target counter tag)
  | .hostWindowWrite port addr data => some (.hostWindowWrite port addr data)
  | .hostWindowRead port addr len => some (.hostWindowRead port addr len)
  | .hostLinkTrain port rate width => some (.hostLinkTrain port rate width)
  | .linkFlitRetry port => some (.linkFlitRetry port)
  | .scaleupLinkDown port => some (.scaleupLinkDown port)
  | .linkRetrain port => some (.linkRetrain port)
  | .scrub station => some (.scrub station)
  | .pmodeWrite value => some (.pmodeWrite value)
  | .modeSwitchRestart => some (.modeSwitchRestart)
  | .powerLimitExceeded => some (.powerLimitExceeded)
  | .powerCapRelease => some (.powerCapRelease)
  | .firmwareImage image => some (.firmwareImage image)
  | .flashWriteInterrupted => some (.flashWriteInterrupted)
  | .attestationRequest nonce peer => some (.attestationRequest nonce peer)
  | .deviceReset => some (.deviceReset)
  | .swzWrite core idx value => some (.swzWrite core idx value)
  | .fpctlWrite core value => some (.fpctlWrite core value)
  | .fpctlRead core str dst => some (.fpctlRead core str dst)
  | .srseedWrite core value => some (.srseedWrite core value)
  | .winWrite core str value => some (.winWrite core str value)
  | .registerWrite core reg value => some (.registerWrite core reg value)
  | .cxlSnoop port addr => some (.cxlSnoop port addr)
  | .siteEviction core => some (.siteEviction core)
  | .softError site multi => some (.softError site multi)
  | .kernelHartAccess hart op => some (.kernelHartAccess hart op)
  | _ => none

end Sys2Proof
end

