-- ==== Sys2Proof/Machine/Store.lean ====
section
/-!
DEFINITION. Sparse storage: every array of the machine (memory bytes, register files, tables, cores) is a list of
(index, value) pairs in one canonical form, strictly rising indexes and no pair that holds the default value.
An index that is not listed reads as the default, so equal arrays are equal lists.
-/

namespace Sys2Proof.Machine

/-- A sparse array. For bytes this is a list of Host.Cell. -/
abbrev Store (α : Type) := List (Nat × α)

/-- The value at index k; d is what an unlisted index reads as. -/
def Store.get {α : Type} (d : α) : Store α → Nat → α
  | [], _ => d
  | (j, v) :: m, k => if k < j then d else if k = j then v else Store.get d m k

/-- Write v at index k, keeping the canonical form: writing the default removes the pair. -/
def Store.set {α : Type} [DecidableEq α] (d : α) : Store α → Nat → α → Store α
  | [], k, v => if v = d then [] else [(k, v)]
  | (j, w) :: m, k, v =>
    if k < j then (if v = d then (j, w) :: m else (k, v) :: (j, w) :: m)
    else if k = j then (if v = d then m else (k, v) :: m)
    else (j, w) :: Store.set d m k v

/-- All indexes of m lie above b, rise strictly, and no value is the default. -/
def Store.wfFrom {α : Type} [DecidableEq α] (d : α) : Nat → Store α → Bool
  | _, [] => true
  | b, (j, v) :: m => decide (b ≤ j) && decide (v ≠ d) && Store.wfFrom d (j + 1) m

/-- The canonical form. -/
def Store.wf {α : Type} [DecidableEq α] (d : α) (m : Store α) : Bool := Store.wfFrom d 0 m

/-- Write the values vs at consecutive indexes from k. -/
def Store.setMany {α : Type} [DecidableEq α] (d : α) (m : Store α) : Nat → List α → Store α
  | _, [] => m
  | k, v :: vs => Store.setMany d (Store.set d m k v) (k + 1) vs

/-- Read n values at consecutive indexes from k. -/
def Store.getMany {α : Type} (d : α) (m : Store α) (k : Nat) : Nat → List α
  | 0 => []
  | n + 1 => Store.get d m k :: Store.getMany d m (k + 1) n

/-- Drop every index in [lo, hi). -/
def Store.clear {α : Type} (m : Store α) (lo hi : Nat) : Store α :=
  m.filter fun p => !(decide (lo ≤ p.1) && decide (p.1 < hi))

/-- Replace the value at index k by f of it. -/
def Store.modify {α : Type} [DecidableEq α] (d : α) (m : Store α) (k : Nat) (f : α → α) : Store α :=
  Store.set d m k (f (Store.get d m k))

end Sys2Proof.Machine
end

