-- ==== Sys2Proof/Machine/State.lean ====
section
/-!
DEFINITION. The state of the module as plain data: every core with its two streams, the tiles, the network, the stations,
the census, the queues, the island and the ports. Each field's comment gives its width, the rule that names it and its
value at reset; a value marked DC is a design choice (log entries 1 and 2).
Sparse arrays (Store) hold what differs from the array's default, so the reset state lists almost nothing.
-/

namespace Sys2Proof.Machine

/-! ### One stream of one core -/

/-- One hardware loop level (R74). -/
structure LoopLevel where
  /-- 64 bits. R74. Reset 0 -/
  lc : Word := 0
  /-- 64 bits, live copy. R74. Reset 0 -/
  ls : Word := 0
  /-- 64 bits, live copy. R74. Reset 0 -/
  le : Word := 0
  /-- 64 bits, shadow of ls. R74, R79. Reset 0 -/
  shLs : Word := 0
  /-- 64 bits, shadow of le. R74, R79. Reset 0 -/
  shLe : Word := 0
  /-- 16 bits, call depth when the level was activated. R74. Reset 0 -/
  frame : BitVec 16 := 0
  deriving DecidableEq, Repr

/-- The three loop levels of a stream (R74). -/
structure Levels where
  l0 : LoopLevel := {}
  l1 : LoopLevel := {}
  l2 : LoopLevel := {}
  deriving DecidableEq, Repr

/-- A hint word that waits for its consumer (R47). -/
inductive Hint where
  | tgt (pred : BitVec 3) (sense : BitVec 1) (off : BitVec 16)
  | imm (v : BitVec 20)
  | live (m : BitVec 20)
  | jtab (r : BitVec 5) (len : BitVec 10)
  | mod (round : BitVec 3) (sat : BitVec 1) (access : BitVec 2) (short : BitVec 1)
  | sched (prio : BitVec 2) (grp : BitVec 6)
  | xt (off : BitVec 17)
  deriving DecidableEq, Repr

/-- A live entry of the punty buffer (R95). -/
structure Punty where
  /-- the physical register the entry is tagged with. R95 -/
  home : Nat
  /-- 1,024 bits. R95 -/
  value : Vec
  /-- the arithmetic cycle in which the result was written. R95 -/
  born : Nat
  deriving DecidableEq, Repr

/-- One trap record of a stream (R408): the four registers and the values that no register shows. -/
structure TrapRec where
  /-- xEPC, 64 bits. R408. Reset 0 -/
  epc : Word := 0
  /-- xCAUSE, 64 bits. R408. Reset 0 -/
  cause : Word := 0
  /-- xADDR, 64 bits. R408. Reset 0 (DC: the rule gives the record no reset table entry) -/
  addr : Word := 0
  /-- xINFO, 64 bits. R408. Reset 0 (DC) -/
  info : Word := 0
  /-- saved bt, 64 bits. R408. Reset 0 (DC) -/
  bt : Word := 0
  /-- saved predicate of the branch condition, 3 bits. R408. Reset 0 (DC) -/
  brPred : BitVec 3 := 0
  /-- saved sense of the branch condition, 1 bit. R408. Reset 0 (DC) -/
  brSense : BitVec 1 := 0
  /-- saved call depth, 16 bits. R408. Reset 0 (DC) -/
  depth : BitVec 16 := 0
  /-- saved frame depths and shadows of the three loop levels. R408. Reset 0 (DC) -/
  loops : Levels := {}
  /-- ULM address of the failing granule of a copy. R245. Reset 0 (DC) -/
  ulm : Nat := 0
  /-- xret of the exchange phase that the trap has left, 19 bits. R314. Reset 0 (DC) -/
  xret : BitVec 19 := 0
  deriving DecidableEq, Repr

/-- A trap that a token status has made due on a stream (R245, R405, R409). -/
structure StatusTrap where
  cause : Nat
  sub : Nat
  /-- failing virtual, ULM or remote address. R409 -/
  addr : Word
  /-- token register, class and core. R409 -/
  info : Word
  /-- address of the command word. R409 -/
  word : BitVec 19
  /-- a fault of a VREP repetition: the repetition and the body word; TRET then returns to the VREP word. R195 -/
  vrep : Option (BitVec 32 × BitVec 4) := none
  /-- the address at which TRET resumes, where it is not the stream's next word. R195 -/
  ret : Option (BitVec 19) := none
  /-- ULM address of the failing granule, which no register shows. R245 -/
  ulm : Nat := 0
  /-- the cycle in which the status was written: statuses of one cycle fall due in the order of their token registers. R405 -/
  since : Nat := 0
  deriving DecidableEq, Repr

/-- The control state that a gang's leader forwards with each word (R331). -/
structure Ctl where
  pc : Word := 0
  bt : Word := 0
  lk : Word := 0
  brPred : BitVec 3 := 0
  brSense : BitVec 1 := 0
  depth : BitVec 16 := 0
  loopDepth : Nat := 0
  loops : Levels := {}
  deriving DecidableEq, Repr

/-- A word in a follower's forwarding buffer, with the control state after it (R331, R332). -/
structure Fwd where
  word : Insn
  at_ : Word
  after : Ctl
  /-- the cycle in which the member before it in the chain issued the word -/
  born : Nat := 0
  deriving DecidableEq, Repr

/-- A result of a long-latency unit that is not yet written (R129, R136, R144). -/
structure Late where
  /-- the physical home, or 1,000 for the outgoing queue -/
  home : Nat
  value : Word
  /-- flags to be set at completion. R118 -/
  flags : BitVec 5
  /-- the destination is short-lived. R95 -/
  short : Bool
  deriving DecidableEq, Repr

/-- The state of one stream. Scalar registers are kept by physical home: 1 to 7 for a global register, 32 + e for stack
entry e (R90); in the scoreboard lists 600 + i is v register i, 650 + i mask register i and 700 + i predicate i. -/
structure Seq where
  /-- next address, 64 bits. R69, R71. Reset 0 -/
  pc : Word := 0
  /-- branch target, 64 bits. R48, R69. Reset 0 -/
  bt : Word := 0
  /-- link, 64 bits. R68, R69. Reset 0 -/
  lk : Word := 0
  /-- branch condition, predicate, 3 bits. R48, R69. Reset 0 -/
  brPred : BitVec 3 := 0
  /-- branch condition, sense, 1 bit. R48, R69. Reset 0 -/
  brSense : BitVec 1 := 0
  /-- q1 to q7 in bits 1 to 7 (q0 reads 1), 8 bits. R127. Reset 0 -/
  preds : BitVec 8 := 0
  /-- call depth, WIN.depth, 16 bits. R68, R109. Reset 0 -/
  depth : BitVec 16 := 0
  /-- number of active loop levels, 0 to 3. R74. Reset 0 -/
  loopDepth : Nat := 0
  /-- the three loop levels. R74. Reset 0 -/
  loops : Levels := {}
  /-- globals 1-7 and 512 stack entries, 64 bits each. R89, R90. Reset 0 (DC: the rules give 0 at an entry, R69) -/
  regs : Store Word := []
  /-- 32 link tags, 64 bits each. R90. Reset 0 (DC: 0 at an entry, R69) -/
  links : Store Word := []
  /-- WIN.cur, current slot, 5 bits. R90, R109. Reset 0 -/
  cur : BitVec 5 := 0
  /-- WIN.old, oldest resident slot, 5 bits. R90, R109. Reset 0 -/
  old : BitVec 5 := 0
  /-- the punty buffer, at most 8 live entries. R95. Reset empty -/
  punty : List Punty := []
  /-- homes marked expired. R96. Reset none -/
  expired : List Nat := []
  /-- homes whose value is not yet written: tokens, results in flight, dispatched destinations. R60, R244. Reset none -/
  pend : List Nat := []
  /-- the result of the divider (A-stream) or of the divide-and-root unit (E-stream) that is not yet ready. R129, R136, R144. Reset none -/
  wb : Option Late := none
  /-- the hint group that waits for its consumer. R48. Reset none -/
  hints : List Hint := []
  /-- address of the first word of the group. R49. Reset 0 -/
  group : Word := 0
  /-- address of the last word issued. R71. Reset 0 (DC) -/
  issued : Word := 0
  /-- fetch buffer, at most 8 words with tbuf's: (address, word). R61. Reset empty -/
  buf : List (Nat × Insn) := []
  /-- words of the fetch buffer that were fetched ahead along a known branch target. R61. Reset empty -/
  tbuf : List (Nat × Insn) := []
  /-- the stream has halted. R415. Reset false -/
  halted : Bool := false
  /-- the stream is stopped by a trap of the other stream. R410. Reset false -/
  stopped : Bool := false
  /-- the stream is parked after a safe point. R82. Reset false -/
  parked : Bool := false
  /-- the safe-point word just issued or abandoned, while the stream stands at it. R81, R411. Reset none -/
  safeAt : Option (BitVec 19) := none
  /-- an attempt at that safe point has failed: the stream parks at its next one. R82. Reset false -/
  tried : Bool := false
  /-- LIVE map of the safe point where the stream last stood, 20 bits. R72, R84. Reset all ones: every register live -/
  live : BitVec 20 := 0xFFFFF
  /-- the last word stalled on an inter-stream queue. R406. Reset false -/
  qstall : Bool := false
  /-- that queue is an incoming one, and empty. R88. Reset false -/
  starved : Bool := false
  /-- the word at pc has had its effect, a split-phase command whose token or destination is its own JX index: only its selector is left, which
  waits for that register. R67, R70. Reset false -/
  jx : Bool := false
  /-- the word at pc waits for an outside condition and is no safe point: a trap of the other stream lets it finish. R410. Reset false -/
  waiting : Bool := false
  /-- the stream stops once that word has finished. R410. Reset false -/
  stopNext : Bool := false
  /-- the next word is a handler's first, which waits for R177, R200 and R238. R410. Reset false -/
  drain : Bool := false
  /-- status traps that have fallen due, in the order in which their statuses were written, by token register in one cycle. R405. Reset none -/
  due : List StatusTrap := []
  /-- SVEC, 64 bits. R407. Reset 0 -/
  svec : Word := 0
  /-- UVEC, 64 bits. R407. Reset 0 -/
  uvec : Word := 0
  /-- system trap record SEPC, SCAUSE, SADDR, SINFO. R408 -/
  sysRec : TrapRec := {}
  /-- user trap record UEPC, UCAUSE, UADDR, UINFO. R408 -/
  userRec : TrapRec := {}
  /-- forwarding buffer of a gang follower, at most 8 words. R332. Reset empty -/
  fwd : List Fwd := []
  deriving DecidableEq, Repr

/-! ### The parts of one core -/

/-- An entry of vstq: a row, or the home of the v register whose writer, dispatched earlier, will fill it (R64, R195). -/
inductive VSlot where
  | row (v : Vec)
  | due (home : Nat)
  deriving DecidableEq, Repr

/-- The six inter-stream queues (R63); an entry that is allocated but not filled is none. -/
structure Queues where
  /-- 16 × 64 bits. R63. Reset empty -/
  ldq : List (Option Word) := []
  /-- 16 × 64 bits. R63. Reset empty -/
  stq : List (Option Word) := []
  /-- 8 × 1,024 bits. R63. Reset empty -/
  vldq : List Vec := []
  /-- 8 × 1,024 bits. R63. Reset empty -/
  vstq : List VSlot := []
  /-- 32 × 1 bit. R63. Reset empty -/
  boqAE : List Bool := []
  /-- 32 × 1 bit. R63. Reset empty -/
  boqEA : List Bool := []
  deriving DecidableEq, Repr

/-- What a dispatched SAU operation does when it starts and completes (R174). A result is computed from the operands that
were captured at issue; table words act on the table at their start (R190). -/
inductive SauWork where
  | result (writes : List (Nat × Vec)) (flags : BitVec 5)
  | vtab (vd : Nat) (fmt : Nat) (x old : Vec) (mask : Mask) (tab rm sub : Nat) (sat : Bool) (draws : List (BitVec 32))
  | tload (tab plane chunk : Nat) (x : Vec)
  | tcfg (tab : Nat) (cfg : BitVec 12)
  deriving DecidableEq, Repr

/-- One entry of a core's dispatch queue (R174 to R176). -/
structure SauOp where
  work : SauWork
  /-- passes not yet started. R176 -/
  passes : Nat
  /-- homes marked pending until completion. R174 -/
  dests : List Nat
  /-- the destination is short-lived. R95 -/
  short : Bool
  /-- SCHED prio. R73 -/
  prio : BitVec 2
  /-- SCHED grp. R73 -/
  grp : BitVec 6
  /-- it is a floating-point word that runs alone, because an enable is set. R120 -/
  alone : Bool := false
  /-- it belongs to a body that holds the generator. R117 -/
  rng : Bool := false
  deriving DecidableEq, Repr

/-- A floating-point word of the SAU that has issued while an enable is set, and whose flags are not yet known (R120): what it captured at its
issue (R118, R174), and its results and flags once it has completed. -/
structure FpRun where
  /-- it is a word of a VREP body. R195 -/
  body : Bool
  /-- FPCTL as captured. R118 -/
  fpctl : Word
  /-- its destination is short-lived; a trap meanwhile sends its result to the main file. R95, R97 -/
  short : Bool
  /-- SRSEED before and after the draws that it has reserved: a trap of the word takes them back. R67, R117 -/
  seed : Word × Word
  /-- results and flags, once the operation has completed -/
  done : Option (List (Nat × Vec) × BitVec 5)
  deriving DecidableEq, Repr

/-- The body that the vector sequencer holds (R193 to R195). -/
structure Vrep where
  /-- the body's words. R194 -/
  body : List Insn
  /-- address of the VREP word. R195 -/
  at_ : Word
  /-- address of the first word of its hint group. R49, R195 -/
  start : Word
  /-- repetitions in all. R195 -/
  count : Nat
  /-- current repetition. R195 -/
  rep : Nat
  /-- next word of the body. R195 -/
  idx : Nat
  /-- FPCTL captured at handover. R118 -/
  fpctl : Word
  /-- WIN.cur at handover. R90 -/
  cur : BitVec 5
  /-- homes of the registers, masks (650 + i) and queues (800 vldq, 801 vstq) that the body names. R195 -/
  names : List Nat
  /-- the body holds the stochastic generator. R117 -/
  rng : Bool
  /-- a body word can raise a floating-point exception. R120 -/
  float : Bool
  /-- repetitions are held by a fault. R195 -/
  held : Bool
  deriving DecidableEq, Repr

/-- A word of the matrix queue (R200) with the operands captured at its issue. A global stream and an MST name their command; an MST that
has started holds its converted rows and the next row to send. -/
inductive MatWord where
  | mld (id target : Nat) (tr : Bool) (srcbytes wbits : Nat) (rows : List Nat)
  | stream (id target : Nat)
  | mma (acc la afmt lb bfmt sparse : Nat) (mask : Mask) (joint : Option (Store Byte × Store Byte))
  | mzero (acc : Nat) (mask : Mask)
  | mst (id acc fmt addr stride cols rowbase : Nat) (post : Option Nat) (map : Store (BitVec 16)) (rm sub : Nat) (sat : Bool)
      (draws : List (BitVec 32)) (rows : List (List Byte)) (row : Nat)
  deriving DecidableEq, Repr

/-- An entry of the matrix queue. -/
structure MatEntry where
  word : MatWord
  /-- one of the slice's three units has taken it. R200 -/
  started : Bool := false
  deriving DecidableEq, Repr

/-- A core's matrix slice (R198). -/
structure Matrix where
  /-- c0-c3: FP32 element (acc, row, col) at acc*1024 + row*64 + col, 32 bits each. R198. Reset 0 -/
  acc : Store (BitVec 32) := []
  /-- A latches, 2 × 768 bytes, byte b of latch L at 768 L + b. R198. Reset 0 -/
  aLat : Store Byte := []
  /-- A scale arrays, 2 × 16 bytes. R198, R199. Reset 0x7F -/
  aScale : Store Byte := []
  /-- metadata latches, 2 × 512 bytes. R198. Reset 0 -/
  metaLat : Store Byte := []
  /-- B latches, 2 × 6,144 bytes. R198. Reset 0 -/
  bLat : Store Byte := []
  /-- B scale arrays, 2 × 64 bytes. R198, R199. Reset 0x7F -/
  bScale : Store Byte := []
  /-- latch states as MSTAT codes, 2 bits each: 0,1 A latch; 2,3 B latch; 4,5 metadata latch; 6,7 A scales; 8,9 B scales. R199, R213. Reset 0 (empty) -/
  latch : Store (BitVec 2) := []
  /-- matrix queue in program order: at most 4 words not yet started, and those that run. R198, R200. Reset empty -/
  queue : List MatEntry := []
  /-- rowmap, 64 × 16 bits. R198, R214. Reset 0xC000 -/
  rowmap : Store (BitVec 16) := []
  /-- MGSR, 64 bits. R206. Reset 0 -/
  mgsr : Word := 0
  deriving DecidableEq, Repr

/-- One points register (R220). -/
structure Points where
  /-- 1 bit. R220. Reset true -/
  valid : Bool := true
  /-- 7 bits. R220. Reset 64 -/
  n : Nat := 64
  /-- idx, 64 × 6 bits. R220. Reset the identity -/
  idx : List Nat := List.range 64
  /-- 1 bit. R220. Reset true -/
  solved : Bool := true
  /-- 352 bits. R220. Reset 0 -/
  settings : BitVec 352 := 0
  /-- version, advances on every write. R220. Reset 0 -/
  version : Nat := 0
  deriving DecidableEq, Repr

/-- A deposit in the latch (R101). -/
structure Deposit where
  reg : Nat
  value : Word
  /-- the packet that brought it -/
  pkt : Nat
  /-- cycle in which it entered the latch. R101 -/
  since : Nat
  /-- the 256-cycle limit does not apply (a QUERY answer). R361 -/
  unlimited : Bool
  /-- the retry of this cycle has found the register empty, and lands at the cycle's end. R101 -/
  due : Bool := false
  deriving DecidableEq, Repr

/-- Message registers, counters and notifies of a core. -/
structure Message where
  /-- m0-m15, 64 bits each. R98. Reset 0 (DC: reset clears the full bits only) -/
  m : Store Word := []
  /-- full bits, MFULL, 16 bits. R98, R109. Reset 0 -/
  full : BitVec 16 := 0
  /-- the one-entry deposit latch. R101. Reset none -/
  latch : Option Deposit := none
  /-- device deposits queued for m0, at most 8. R98. Reset empty -/
  devq : List Word := []
  /-- the first of them has found m0 empty in this cycle, and lands at the cycle's end. R98, R101. Reset false -/
  devDue : Bool := false
  /-- n0-n7, 32 bits each. R102. Reset 0 -/
  n : Store (BitVec 32) := []
  /-- notify register, 32 bits. R299. Reset 0 (DC) -/
  notify : BitVec 32 := 0
  /-- always-on notify latch, 32 bits. R88. Reset 0 (DC) -/
  notifyLatch : BitVec 32 := 0
  deriving DecidableEq, Repr

/-- System registers of a core that belong to the core as a whole. -/
structure CtlRegs where
  /-- FPCTL 0x100, 64 bits. R118. Reset 0 -/
  fpctl : Word := 0
  /-- flags of FPCTL that have been set in the cycle flagAt, 5 bits: a write in that cycle leaves them set. R118. Reset 0 -/
  flagSet : BitVec 5 := 0
  /-- the last cycle in which a flag was set. R118. Reset 0 -/
  flagAt : Nat := 0
  /-- SRSEED 0x101, 64 bits. R119. Reset 0x9E3779B97F4A7C15 -/
  srseed : Word := 0x9E3779B97F4A7C15
  /-- GEO 0x700, 64 bits. R212. Reset 0 -/
  geo : Word := 0
  /-- w0-w7 0x200-0x207, 64 bits each. R165. Reset 0 -/
  win : Store Word := []
  /-- SWZ0-SWZ7 0x210-0x217, 64 bits each. R155. Reset 0 -/
  swz : Store Word := []
  /-- b0-b3 0x220-0x223, 22 bits each. R160. Reset 0 -/
  b : Store (BitVec 22) := []
  /-- GMEM0-GMEM3 0x300-0x303, 64 bits each. R320. Reset 0 -/
  gmem : Store Word := []
  /-- TDOM 0x400, 64 bits. R340. Reset 0 -/
  tdom : Word := 0
  /-- TASKST.refused, 19 bits. R352. Reset 0 -/
  refused : BitVec 19 := 0
  /-- STAGE 0x410, 64 bits. R358. Reset 0 -/
  stage : Word := 0
  /-- RSUB0-RSUB3 0x508-0x50B, 64 bits each. R373. Reset 0 -/
  rsub : Store Word := []
  /-- ROLEST.ndrop, 8 bits. R374. Reset 0 -/
  ndrop : BitVec 8 := 0
  /-- TWARN.margin 0x542, 32 bits. R399. Reset 1,024 -/
  twarn : BitVec 32 := 1024
  /-- TSHARE.left 0x541, 64 bits. R399. Reset 0 -/
  tshare : Word := 0
  /-- TSTAT.over, 32 bits. R399. Reset 0 -/
  over_ : BitVec 32 := 0
  /-- TSTAT.st: allowance stop pending, 1 bit. R399. Reset false -/
  allowStop : Bool := false
  /-- pending user-level events: bit 0 NOTICE, 1 EXPIRING, 2 GROW, 3 ALLOWANCE. R411. Reset 0 -/
  events : BitVec 4 := 0
  /-- TDELEG 0x602, 25 bits. R407. Reset 0 -/
  tdeleg : BitVec 25 := 0
  /-- EVEN 0x603, 4 bits. R407. Reset 0 -/
  even : BitVec 4 := 0
  /-- WDOG.limit 0x604, 32 bits. R407. Reset 0x10000 -/
  wdog : BitVec 32 := 0x10000
  /-- watchdog count: cycles without an issue in which every stream that has not halted is stalled only on a queue. R406. Reset 0 -/
  wdogCount : Nat := 0
  /-- TLVL.lvl: true is system level. R402, R407. Reset false -/
  lvl : Bool := false
  /-- TLVL.sb. R407. Reset false -/
  sb : Bool := false
  /-- TLVL.ub. R407. Reset false -/
  ub : Bool := false
  deriving DecidableEq, Repr

/-- What a split-phase command does (R242, R274). Numbers are those captured at issue. -/
inductive CmdOp where
  | copy (out acq rel : Bool) (scope addr lstride rowbytes rows va gstride : Nat) (perm : List Nat) (inv : Bool) (pm version : Nat)
  /-- the bytes stand yet to be read; num is the packet's number in its flow, where it goes onto the network. R296 -/
  | putr (addr len dst raddr : Nat) (num : Option Nat)
  | getr (laddr len : Nat)
  | rot (addr len dist since : Nat)
  | mldUlm
  | mldStream (target nsrc srcbytes va stride : Nat) (tr : Bool) (wbits : Nat)
  | mst
  | papply (pm version n : Nat) (idx : List Nat) (inv : Bool) (src sstride dst dstride wbytes : Nat)
  | gld (va size : Nat) (signed : Bool)
  | gst (va size : Nat) (value : Word)
  | amo (op order scope va : Nat) (opnd new_ : Word)
  | deposit
  | notify
  /-- the bytes stand yet to be read: source, bytes, destination address, arrival, and the ranks with their cores and their numbers in the flows -/
  | mcast (addr len daddr : Nat) (post : Option Nat) (dests : List (Nat × Nat × Option Nat))
  | reduce (asid grp tag : Nat)
  | redabort
  | query (va addr ctr mreg : Nat) (post form : Bool)
  | lease (first count dur : Nat)
  | leaseR (handle dur : Nat)
  | ldrop (handle : Nat)
  | roleq (sel operand : Nat)
  | prod (bytes : Nat)
  | cons
  | prodClose
  deriving DecidableEq, Repr

/-- A split-phase command of a core from issue until its status is written (R242, R244), with its overlap-scoreboard
entries (R246) and its progress record (R254). -/
structure Cmd where
  /-- unique number; its order is issue order. R248 -/
  id : Nat
  strm : Strm
  /-- the command word, 32 bits. R254 -/
  word : Insn
  /-- address of the command word, 19 bits. R409 -/
  at_ : BitVec 19
  /-- token register number, 5 bits. R244 -/
  tok : BitVec 5
  /-- physical home of the token; 0 for none. R244 -/
  home : Nat
  /-- the command occupies a command slot. R242 -/
  slot : Bool
  /-- number of that slot. R242, R266 -/
  slotNo : Nat := 0
  op : CmdOp
  /-- scoreboard entry of kind read: [lo, hi). R246 -/
  rd : Option (Nat × Nat) := none
  /-- scoreboard entry of kind write: [lo, hi). R246 -/
  wr : Option (Nat × Nat) := none
  /-- issued at user level. R262 -/
  user : Bool := true
  /-- row in progress order, 16 bits. R254 -/
  row : Nat := 0
  /-- granules of that row already written, 13 bits. R254 -/
  gran : Nat := 0
  /-- stopped on a fault. R254, R267 -/
  held : Bool := false
  /-- the acquire has been performed. R254 -/
  acqd : Bool := false
  /-- translation of the next granule: its home location, and whether its page is described. R122, R261 -/
  xl : Option (Nat × Bool) := none
  /-- the far-map entry that this translation uses, and the level of its leaf. R265, R431 -/
  far : Option (Nat × Nat) := none
  /-- packets of this command that have not been answered -/
  waitFor : Nat := 0
  /-- the lowest row or rank that failed, its status, core and address. R217, R303 -/
  fail : Option (Nat × Int × Nat × Nat) := none
  /-- the value that a GLD or an AMO returns. R269, R284 -/
  result : Option Word := none
  /-- status written or to be written, and the core and address that the failing packet named. R245, R409 -/
  status : Option (Int × Nat × Nat) := none
  /-- detached by a yield: record index + 1 of the task that waits for it; a number beyond every record when its task has ended as a failure.
  R347, R350 -/
  detached : Nat := 0
  /-- issued by a committed task: its global and remote writes go into that task's siding. R349 -/
  sided : Bool := false
  deriving DecidableEq, Repr

/-- A FENCE that is not yet complete (R282). -/
structure FenceRec where
  id : Nat
  scope : Nat
  /-- 0 sc, 1 acq, 2 rel, 3 acqrel. R281 -/
  order : Nat
  pred : BitVec 6
  succ : BitVec 6
  released : Bool
  deriving DecidableEq, Repr

/-- How far the gating entry of a SLEEP has come (R88): a wake in or before the cycle of its commit aborts it. -/
inductive Entry where
  | waits
  | commits
  | committed
  deriving DecidableEq, Repr

/-- A word of the A-stream that waits for an answer of the device (R60). A join's result is none while it waits, some 0
once formed, and some (sub + 1) when it failed with subcode sub. -/
inductive Wait where
  /-- its arrival has been sent: scope is that of its release and acquire (R286), and late says that a withdrawal came after the epoch had
  completed, so that the stream is not taken at this word (R325) -/
  | barrier (grp epoch kind scope : Nat) (result : Option Int) (late : Bool)
  /-- ready: the core has parked and signalled join (R330) -/
  | gang (size since : Nat) (ready : Bool) (result : Option Nat)
  /-- ready: the E-stream has been redirected, and the core has signalled ready (R310) -/
  | xbegin (grp plen xret since : Nat) (ready : Bool) (result : Option Nat)
  /-- an AWAIT (tok is its token register, and dest its destination) or a YIELD (tok 0) that parks (R347, R348) -/
  | yield (tok dest : Nat) (result : Option Nat)
  | runner (grp since : Nat)
  | heat (result : Option Nat)
  /-- an XEND; ended: its phase has ended (R313) -/
  | xend (ended : Bool)
  /-- entry: how far the gating entry has come (R88); status: a wake has come -/
  | sleep (ctl : Word) (deadline : Option Nat) (entry : Entry) (status : Option Word)
  deriving DecidableEq, Repr

/-- An MMAJ that waits to join (R211). -/
structure JoinWait where
  src : Nat
  acc : Nat
  la : Nat
  afmt : Nat
  lb : Nat
  bfmt : Nat
  mask : Mask
  since : Nat
  /-- none while it waits; some none once joined; some sub when the join failed -/
  result : Option (Option Nat)
  deriving DecidableEq, Repr

/-- An XSEL that has issued and whose beats are not yet latched (R312). -/
structure Sel where
  /-- destination home in the E-stream -/
  home : Nat
  track : Nat
  /-- phase cycle of its first beat -/
  cycle : Nat
  /-- 4 beats for a vector, 1 for a scalar -/
  beats : Nat
  deriving DecidableEq, Repr

/-- A core's part in an exchange phase (R309 to R314). -/
structure XPhase where
  asid : Nat
  grp : Nat
  plen : Nat
  xret : Word
  /-- the arithmetic cycle that is phase cycle 0, once the phase has begun -/
  start : Nat
  /-- the phase has begun -/
  begun : Bool
  /-- first phase cycle in which the next timetable word can issue -/
  next : Nat
  /-- phase cycle from which a register that an XSEL writes is readable, by home -/
  regAt : Store Nat
  /-- XSELs not yet latched, oldest first -/
  sels : List Sel
  txFree : Nat
  rxFree : Nat
  missed : Bool
  collided : Bool
  /-- a beat that an XSEL latched has failed its parity check. R313 -/
  parity : Bool
  left : Bool
  /-- the timetable has ended -/
  ended : Bool
  deriving DecidableEq, Repr

/-- What a core does (R316, R324, R403). -/
inductive Run where
  /-- not launched -/
  | idle
  /-- runs its program -/
  | running
  /-- both streams have halted -/
  | done
  /-- stopped by a double fault (R403) -/
  | dead
  /-- its context is saved with its site still bound (R337) -/
  | saved
  deriving DecidableEq, Repr

/-- The task that a core runs (R340). -/
structure Task where
  /-- record index, 20 bits. R352 -/
  rec_ : Nat
  committed : Bool
  /-- siding: global bytes by home location, in effect the latest per byte. R349 -/
  siding : Store (Option Byte)
  /-- siding: remote writes in issue order: destination core, kind (0 write, 1 deposit, 2 notify), address or register, bytes, arrival. R349 -/
  remote : List (Nat × Nat × Nat × List Byte × Option Nat)
  /-- its copy writes, by virtual address and length, which count in a ring's slot when they are released. R354 -/
  copies : List (Nat × Nat)
  /-- granules of its siding whose check value fails. R433. Reset none -/
  bad : List Nat := []
  deriving DecidableEq, Repr

/-- The position of a core in a gang (R327). -/
structure Gang where
  /-- site core number of the leader -/
  leader : Nat
  /-- 2, 4 or 8 -/
  size : Nat
  pos : Nat
  deriving DecidableEq, Repr

/-- The kernel's request for a pre-emption (R335). -/
structure Preempt where
  /-- ns at which the timeout passes -/
  deadline : Nat
  /-- home location of the context area -/
  area : Nat
  /-- ULM ranges to save: first byte, length; at most eight -/
  ranges : List (Nat × Nat)
  overdue : Bool
  deriving DecidableEq, Repr

/-- One core, kept under its site core number (R3). -/
structure Core where
  /-- what the core does: idle, running, done (both streams halted), dead (double fault) or saved (pre-empted). R316, R324, R337, R403. Reset idle -/
  run : Run := .idle
  /-- logical core number + 1 fixed by the launch; 0 while the core takes the number that the role map gives its site. R316, R317. Reset 0 -/
  logical : Nat := 0
  /-- who the core is as a party of R274, + 1, once it is not the one of its site's own number: it keeps its releases when its program resumes at
  another site. R274, R275, R337. Reset 0 -/
  party : Nat := 0
  /-- 12 bits. R257. Reset 0 (DC: the launch sets it) -/
  asid : BitVec 12 := 0
  /-- A-stream. R60 -/
  a : Seq := {}
  /-- E-stream. R60 -/
  e : Seq := {}
  /-- the six queues between the streams. R63 -/
  q : Queues := {}
  /-- v0-v31, 1,024 bits each. R172. Reset 0 -/
  v : Store Vec := []
  /-- k1-k7, 128 bits each (k0 reads all ones). R172. Reset 0 -/
  k : Store Mask := []
  /-- dispatch queue, at most 8 entries. R174. Reset empty -/
  sauq : List SauOp := []
  /-- operations that have started and not completed. R177. Reset empty -/
  sauFly : List SauOp := []
  /-- the vector sequencer. R193. Reset none -/
  vrep : Option Vrep := none
  /-- the floating-point word that runs alone in the SAU while an enable is set. R120. Reset none -/
  fpRun : Option FpRun := none
  /-- the matrix slice. R198 -/
  mat : Matrix := {}
  /-- pm0-pm7. R220. Reset the identity -/
  pm : Store Points := []
  /-- message registers, counters, notifies. R98, R102 -/
  msg : Message := {}
  /-- system registers. R407 -/
  ctl : CtlRegs := {}
  /-- ULM, 393,216 bytes, kept by physical byte (row, bank, byte). R150, R154. Reset 0 -/
  ulm : Store Byte := []
  /-- 32-bit words of ULM, as they lie in the banks, with an uncorrectable error. R151, R435. Reset none -/
  ulmBad : List Nat := []
  /-- 64-byte granules of ULM whose check value fails. R151. Reset none -/
  ulmChk : List Nat := []
  /-- homes of register arrays with a multi-bit error (stream a: home; stream e: 2,000 + home, where 1,100 + n is accumulator cn; 4,000 more
  for the punty entry of a home). R94. Reset none -/
  regBad : List Nat := []
  /-- outstanding commands with their scoreboard entries. R242, R246. Reset none -/
  cmds : List Cmd := []
  /-- FENCEs not yet complete. R282. Reset none -/
  fences : List FenceRec := []
  /-- what the A-stream's word waits for. R60. Reset none -/
  wait : Option Wait := none
  /-- the core has been taken from its wait as a runner to a handler: the domain's group, and the address of its RETIRE, AWAIT or YIELD, where it
  waits again. R81, R345, R411. Reset none -/
  runnerAt : Option (Nat × Word) := none
  /-- the MMAJ that waits to join. R211 -/
  join : Option JoinWait := none
  /-- write set: latest byte per home location. R276. Reset empty -/
  wset : Store (Option Byte) := []
  /-- values that the core's own AMOs wrote since the last release: part of the write set. R276, R284. Reset empty -/
  amoSet : Store (Option Byte) := []
  /-- the same values at their homes: location, serial, scope of the AMO. R277, R284. Reset none -/
  amoVers : List (Nat × Nat × Nat) := []
  /-- own bytes released since the last acquire. R276. Reset empty -/
  own : Store (Option Byte) := []
  /-- horizon of the last acquire: number of releases performed before it. R278. Reset 0 -/
  acqAt : Nat := 0
  /-- scope of the last acquire. R278. Reset 4 (SYSTEM) -/
  acqScope : Nat := 4
  /-- per home location, the serial of the value that the last read of it returned. R279. Reset none -/
  seen : Store Nat := []
  /-- commits whose values the core has read since its last acquire, by serial. R351. Reset none -/
  commits : List Nat := []
  /-- values observed that reached the core at a scope narrower than SYSTEM: location, serial, that scope. R277. Reset none -/
  observed : List (Nat × Nat × Nat) := []
  /-- the exchange join is armed for this group by the last barrier word. R309. Reset none -/
  armed : Option Nat := none
  /-- the core's part in an exchange phase. R309. Reset none -/
  xph : Option XPhase := none
  /-- bits that the XEND returns which waits for the end of its phase. R313. Reset 0 -/
  xres : BitVec 3 := 0
  /-- that XEND traps INTEGRITY. R313. Reset false -/
  xpar : Bool := false
  /-- the PST.set at the points port that waits for its settings: v register, points register, version. R226, R227. Reset none -/
  port : Option (Nat × Nat × Nat) := none
  /-- task. R340. Reset none -/
  task : Option Task := none
  /-- gang membership. R331. Reset none -/
  gang : Option Gang := none
  /-- the kernel's request for a pre-emption. R335. Reset none -/
  preempt : Option Preempt := none
  /-- entries of the loaded image: main, grow, and stage k at 2 + k, as (A, E) addresses. R69, R31. Reset 0 -/
  entries : Store (Nat × Nat) := []
  /-- the new cause of a double fault, which the kernel receives with the system record: the record that it would have left. R403. Reset none -/
  fatal : Option TrapRec := none
  /-- scope of a tournament + 1, and the contestant. R387. Reset (0, 0) -/
  scope : Nat × Nat := (0, 0)
  /-- the core has stopped for the round. R390. Reset false -/
  roundStop : Bool := false
  deriving DecidableEq, Repr

/-! ### Tiles -/

/-- A solve request in the signal box (R225). -/
structure Solve where
  core : Nat
  reg : Nat
  version : Nat
  idx : List Nat
  started : Bool
  /-- number of commands that captured this version -/
  captured : Nat
  /-- settings, once solved -/
  result : Option (BitVec 352)
  deriving DecidableEq, Repr

/-- A PAPPLY whose rows stand in a staging buffer of the points network, or a COPYP that permutes its rows through one (R237, R238, R253). -/
structure Staged where
  /-- site core number -/
  core : Nat
  /-- command -/
  id : Nat
  rows : List (List Byte)
  deriving DecidableEq, Repr

/-- The parts that a tile's four cores share, kept under the site number. -/
structure Tile where
  /-- coefficient planes, 8 tables × 3 planes × 256 FP32, at table*768 + plane*256 + segment. R190. Reset 0 -/
  tab : Store (BitVec 32) := []
  /-- configuration words, 12 bits each. R190, R191. Reset 0 -/
  tabCfg : Store (BitVec 12) := []
  /-- ASID tags: ASID + 1, 0 for a tag that matches no ASID. R190. Reset 0 -/
  tabTag : Store Nat := []
  /-- round-robin pointer of the SAU. R175. Reset 0 (DC) -/
  sauPtr : Nat := 0
  /-- cores whose ready head was passed over in the last SAU cycle. R175. Reset none -/
  passed : List Nat := []
  /-- requests of the signal box. R225. Reset none -/
  solves : List Solve := []
  /-- core whose turn the signal box serves next. R225. Reset 0 (DC) -/
  solvePtr : Nat := 0
  /-- the two staging buffers of the points network, 8 KiB each. R238. Reset empty -/
  staging : List Staged := []
  /-- core whose turn the points network serves next. R238. Reset 0 (DC) -/
  applyPtr : Nat := 0
  deriving DecidableEq, Repr

/-! ### The routed network -/

/-- A destination of a payload that goes down a tree of routers (R302, R305). -/
structure TreeDest where
  /-- destination logical core number -/
  dst : Nat
  /-- flow sequence number. R296 -/
  seq : Nat
  /-- the command that the copy serves, and its rank in an MCAST, or the status that a reduction's copy gives -/
  cmd : Nat
  idx : Nat
  /-- a copy of a reduction's result: group, tag and rank -/
  red : Option (Nat × Nat × Nat)
  addr : Nat
  post : Option Nat
  deriving DecidableEq, Repr

/-- What a packet does at its destination (R291). -/
inductive Payload where
  /-- bytes to write at a ULM address; kind 0 PUTR, 1 MST row, 2 multicast; arrival posted by the packet itself -/
  | write (kind addr : Nat) (data : List Byte) (post : Option Nat)
  /-- GETR request: what it reads, and the requester's ULM address for its reply -/
  | read (addr len back : Nat)
  /-- GETR reply -/
  | reply (addr : Nat) (data : List Byte)
  /-- answer: a reply of the device to the core itself, which no window checks and no time limit refuses. R166, R361 -/
  | deposit (reg : Nat) (value : Word) (retry answer : Bool)
  | notify (mask : BitVec 32)
  /-- contribution of one or more ranks to a reduction -/
  | contrib (asid grp tag op ty len : Nat) (data : List Byte) (ranks : List Nat)
  /-- the copy of a reduction's result for a rank. R305 -/
  | result (grp tag rank addr : Nat) (data : List Byte) (post : Option Nat)
  /-- one payload on its way to several destinations, which routers copy where they branch. R302, R305 -/
  | tree (leaves : List TreeDest) (data : List Byte)
  /-- acknowledgement of a packet of a core's command: status, and the core and address that a trap record would name. R292 -/
  | ack (core : Nat) (status : Int) (who addr : Nat)
  /-- negative acknowledgement of a packet that its sender keeps: 0 REMAP, 1 the reorder store is full, 2 the latch is busy, 3 a deposit with
  retry is refused; and the current generation. R101, R292, R296, R299, R384 -/
  | nack (pkt how : Nat) (g : BitVec 16)
  /-- an access of a core's command to a page of the storage pool that a storage tile holds, and the page. R264, R384 -/
  | page (core cmd page : Nat)
  deriving DecidableEq, Repr

/-- A packet on the network (R291). -/
structure Packet where
  id : Nat
  /-- sending core, site core number -/
  src : Nat
  /-- destination logical core number. R291 -/
  dst : Nat
  asid : BitVec 12
  /-- flow sequence number when the packet belongs to an ordered flow. R296 -/
  seq : Option Nat
  pay : Payload
  /-- command of the sender that the packet serves -/
  cmd : Nat
  /-- row of an MST or rank of an MCAST that the packet serves. R217, R303 -/
  idx : Nat
  /-- the site where the packet stands -/
  x : Nat
  y : Nat
  /-- destination site -/
  dx : Nat
  dy : Nat
  /-- where in its router it stands: 4 * port + channel for a virtual channel of an input port (1 from the west, 2 from the east, 3 from the north, 4 from the south); 0 the sender's interface; 100 the relay store; 101 the relay store after its drain deadline; 110 + port the drain buffer of an input port; 200 the destination's interface. R294, R364, R383 -/
  vc : Nat
  /-- 0 request, 1 response. R292 -/
  plane : Nat
  /-- generation that the sender resolved against, 16 bits. R291 -/
  gen : BitVec 16
  /-- 0 travelling, 1 in the reorder store, 2 refused with retry, 3 in the deposit latch, 4 busy, 5 remapped, 6 held by an annealing tile, 7 landing at the end of this cycle (R153, R101, R300), 8 discarded before its turn in its flow (R296, R297), 9 a deposit that has found its register full in this cycle (R101) -/
  phase : Nat
  /-- cycle in which the last refusal reached the sender -/
  since : Nat
  /-- a soft error has struck it. R297, R435 -/
  bad : Bool
  deriving DecidableEq, Repr

/-- A reduction in progress, as rank 0's interface holds it (R305 to R307). -/
structure Reduction where
  op : Nat
  ty : Nat
  len : Nat
  partial_ : List Byte
  /-- ranks whose contributions have reached rank 0's interface -/
  ranks : List Nat
  /-- contributions that have passed a router uncombined: site and rank. R306 -/
  passed : List (Nat × Nat) := []
  /-- pending REDUCEs of this use of the tag: core, command, rank, form, daddr, post -/
  waiting : List (Nat × Nat × Nat × Nat × Nat × Option Nat)
  /-- pending REDUCEs of a use whose result is on its way: core, command, rank, form. R305, R307 -/
  out : List (Nat × Nat × Nat × Nat) := []
  /-- 0 gathering, 1 ended with -8, 2 aborted -/
  ended : Nat
  /-- ranks that have received -8 or -9 -/
  told : List Nat
  deriving DecidableEq, Repr

/-- A combining-store entry of a router, in it or parked in the storage pool (R305, R306). -/
structure Comb where
  /-- the router's site -/
  site : Nat
  asid : Nat
  grp : Nat
  tag : Nat
  op : Nat
  ty : Nat
  len : Nat
  data : List Byte
  ranks : List Nat
  /-- ns at which the entry was made -/
  since : Nat
  parked : Bool
  deriving DecidableEq, Repr

/-! ### Global memory -/

/-- A release of a value (R277): the party, where it stood (R275), the scope, the place in the order of performed releases, and whether it is a
task's commit. -/
structure Rel where
  /-- who the party is: a core's own number, or the one that it has had since it came into being where its program has moved -/
  party : Nat
  /-- the site core number, hart or host at which the party stood at the time. R275 -/
  at_ : Nat
  scope : Nat
  serial : Nat
  /-- the commit of a committed task. R351 -/
  commit : Bool
  deriving DecidableEq, Repr

/-- A value of one byte at its home (R278). -/
structure Version where
  val : Byte
  serial : Nat
  rels : List Rel
  deriving DecidableEq, Repr

/-- A cached translation in a station (R259). -/
structure Tlb where
  station : Nat
  asid : Nat
  page : Nat
  size : Nat
  leaf : Word
  deriving DecidableEq, Repr

/-- A next-table entry that a station has cached (R259). -/
structure Tab where
  station : Nat
  asid : Nat
  /-- level of the table that holds it, 0 to 2 -/
  level : Nat
  /-- the virtual address above the bits that lower levels index -/
  index : Nat
  entry : Word
  deriving DecidableEq, Repr

/-- A fault record that a station has sent to the kernel (R266). -/
structure FaultRec where
  asid : Nat
  va : Nat
  /-- 0 not-present, 1 malformed, 2 permission, 3 far-map. R404 -/
  kind : Nat
  level : Nat
  /-- 0 read, 1 write, 2 read-modify-write -/
  access : Nat
  /-- site core number; 10,000 + q for queue q, 20,000 + p for the window of port p, 30,000 for the device itself -/
  core : Nat
  id : Nat
  /-- 0 ordinary, 1 copy, 2 matrix -/
  class_ : Nat := 0
  strm : Strm := .a
  /-- command slot -/
  slot : Nat := 0
  deriving DecidableEq, Repr

/-- A write of the device itself that waits behind a page fault (R266). -/
structure DevWrite where
  asid : Nat
  va : Nat
  bytes : List Byte
  deriving DecidableEq, Repr

/-- The stations' control space as the kernel programs it, and what the stations hold. -/
structure Stations where
  /-- home location of the ASID table; 0 before the kernel programs it. R258. Reset 0 (DC) -/
  asidTable : Nat := 0
  /-- home location of each ASID's group table. R318. Reset 0 (DC) -/
  groupTab : Store Nat := []
  /-- home location of each ASID's binding area. R423. Reset 0 (DC) -/
  bindArea : Store Nat := []
  /-- pool size in pages. R264. Reset 0 (DC) -/
  poolSize : Nat := 0
  /-- bbase of the backing region, in 64-byte units. R264. Reset 0 (DC) -/
  poolBase : Nat := 0
  /-- continuation pools: base VA per ASID. R341. Reset 0 (DC) -/
  contBase : Store Nat := []
  /-- continuation pools: records per ASID. R341. Reset 0 (DC) -/
  contCount : Store Nat := []
  /-- far map, 256 entries: bit 63 valid; bit 62 host memory; [61:52] scale-up peer or host port number; [51:32] port mask (ports 0-17 scale-up, 18-19 host); [31:0] base in frames. R265. Reset 0 (DC: layout PRESUMED) -/
  farMap : Store Word := []
  /-- trap profiles per ASID: SVEC. R407. Reset 0 (DC) -/
  profSvec : Store Word := []
  /-- trap profiles per ASID: TDELEG. R407. Reset 0 (DC) -/
  profDeleg : Store Word := []
  /-- trap profiles per ASID: WDOG. R407. Reset 0x10000 (DC) -/
  profWdog : Store Word := []
  /-- host windows: ASID per port. R428. Reset 0 (DC) -/
  winAsid : Store Nat := []
  /-- host windows: base VA per port. R428. Reset 0 (DC) -/
  winBase : Store Nat := []
  /-- translation caches. R259. Reset empty -/
  tlbs : List Tlb := []
  /-- caches of upper-level table entries. R259. Reset empty -/
  tabs : List Tab := []
  /-- fault records the kernel has not answered. R266. Reset none -/
  faults : List FaultRec := []
  /-- writes of the device itself that a page fault holds, oldest first. R266. Reset none -/
  devHeld : List DevWrite := []
  /-- pages, as ASID and page number, whose read by the device itself the kernel has declined. R267. Reset none -/
  declined : List (Nat × Nat) := []
  /-- offset of the next GDATA placement from the base of an ASID's. R40 (the model's own). Reset 0 -/
  gnext : Store Nat := []
  /-- park time in ns. R306. Reset 50,000 (the rule's default) -/
  parkTime : Nat := 50000
  deriving DecidableEq, Repr

/-- A barrier object (R322). -/
structure Barrier where
  /-- 8 bits. R322. Reset 0 -/
  epoch : Nat := 0
  /-- arrivals of the open epoch: rank, core, kind (0 BAR, 1 BARX, 2 PHASE). R322 -/
  arrived : List (Nat × Nat × Nat) := []
  /-- departed ranks. R324 -/
  departed : List Nat := []
  /-- a size held until the open epoch completes. R321 -/
  held : Option Nat := none
  /-- the size under which the open epoch counts; 0 while the group entry's own size stands. R321 -/
  size : Nat := 0
  /-- the cores for which the last epoch has armed the block's exchange join. R309 -/
  join : List Nat := []
  deriving DecidableEq, Repr

/-- A continuation record (R341). -/
structure ContRec where
  aNext : Word
  eNext : Word
  /-- saved registers: (0 a or 1 e, number, value) -/
  regs : List (Nat × Nat × Word)
  /-- mask word at offset 0x10 -/
  mask : Word
  grp : Nat
  pinned : Option Nat
  committed : Bool
  tok : Nat
  status : Int
  /-- destination register of the AWAIT or YIELD that yielded, + 1; 0 for a SPAWN's record -/
  dest : Nat
  /-- commands detached that have not written their status -/
  outstanding : Nat
  ready : Bool
  /-- the core that last aborted it + 1 -/
  abortedOn : Nat
  deriving DecidableEq, Repr

/-- A task domain at its home station (R340). -/
structure Domain where
  /-- ready queue of record indexes, oldest first. R344 -/
  ready : List Nat := []
  /-- live-task count. R344 -/
  live : Nat := 0
  /-- waiting runners, in order of waiting. R345 -/
  runners : List Nat := []
  /-- committed tasks that ended as failures and were reported to the kernel. R350 -/
  failures : Nat := 0
  deriving DecidableEq, Repr

/-- A slot of a ring (R354): 0 free, 1 filling, 2 full, 3 draining. -/
structure RingSlot where
  /-- 0 free, 1 filling, 2 full, 3 draining. R354. Reset 0 -/
  st : Nat := 0
  /-- pending bytes of the full barrier. R354. Reset 0 -/
  fullPend : Int := 0
  /-- pending bytes of the empty barrier. R354. Reset 0 -/
  emptyPend : Int := 0
  /-- phase of the full barrier. R354. Reset false -/
  fullPhase : Bool := false
  /-- phase of the empty barrier. R354. Reset false -/
  emptyPhase : Bool := false
  /-- bytes produced. R354. Reset 0 -/
  bytes : Nat := 0
  /-- core that fills or drains it. R354, R356. Reset 0 -/
  owner : Nat := 0
  deriving DecidableEq, Repr

/-- A ring between two stages (R353, R358). -/
structure Ring where
  /-- VA of slot 0. R353. Reset 0: no ring declared -/
  va : Nat := 0
  /-- bytes of a slot. R353. Reset 0: no ring declared -/
  slotBytes : Nat := 0
  /-- slots of the ring. R353. Reset 0: no ring declared -/
  nslots : Nat := 0
  /-- high-water mark. R353. Reset 0: no ring declared -/
  hi : Nat := 0
  /-- low-water mark. R353. Reset 0: no ring declared -/
  lo : Nat := 0
  /-- the slots. R354. Reset all free -/
  slots : Store RingSlot := []
  /-- next slot to produce into. R354, R356. Reset 0 -/
  prod : Nat := 0
  /-- next slot to consume. R354, R356. Reset 0 -/
  cons : Nat := 0
  /-- the ring is closed. R358. Reset false -/
  closed : Bool := false
  /-- cores that have issued prod.close. R356. Reset none -/
  closers : List Nat := []
  /-- pending claims in order: core, command. R356 -/
  prodClaims : List (Nat × Nat) := []
  /-- pending consumer claims in order: core, command. R356. Reset none -/
  consClaims : List (Nat × Nat) := []
  deriving DecidableEq, Repr

/-- A declared pipeline (R353). -/
structure Pipe where
  /-- number of stages. R353. Reset 0: none declared -/
  stages : Nat := 0
  /-- shunter interval in microseconds. R353, R357. Reset 0: none declared -/
  intervalUs : Nat := 0
  /-- least number of cores of each stage. R353. Reset 0: none declared -/
  mins : Store Nat := []
  /-- the rings. R353. Reset none -/
  rings : Store Ring := []
  /-- ns of the shunter's next visit. R357 -/
  next : Nat := 0
  deriving DecidableEq, Repr

/-- One contestant of a scope (R387). -/
structure Contestant where
  grp : Nat
  /-- VA of its LAUNCH packet -/
  lp : Nat
  alive : Bool
  failed : Bool
  /-- score value and kind: 0 unset, 1 signed, 2 unsigned, 3 FP64. R392 -/
  score : Word
  kind : Nat
  /-- its siding by home location. R395 -/
  siding : Store (Option Byte)
  /-- waiting remote writes, as Task.remote. R395 -/
  remote : List (Nat × Nat × Nat × List Byte × Option Nat)
  /-- member site cores by rank; a number above them stands for a core that has been evicted or whose site another program has taken -/
  members : List Nat
  /-- the image that growth places again. R398 -/
  parts : List (Nat × List Byte)
  entries : Store (Nat × Nat)
  /-- message registers of its parameters with their values. R398 -/
  params : List (Nat × Word)
  geo : Word
  seed : Word
  /-- granules of its siding whose check value fails. R433. Reset none -/
  bad : List Nat := []
  deriving DecidableEq, Repr

/-- A tournament scope at its home station (R387). -/
structure Scope where
  asid : Nat
  /-- queue and packet that started it -/
  queue : Nat
  pkt : Nat
  rl : Nat
  dir : Bool
  kind : Nat
  lb : Nat
  done : Nat
  sb : Nat
  round : Nat
  /-- the round has begun: its shares are given, and its cores go on. R389, R393 -/
  begun : Bool
  contestants : List Contestant
  /-- SCOREs that have not yet arrived: core, contestant, value, kind. R392 -/
  scores : List (Nat × Nat × Word × Nat)
  over_ : Bool
  /-- the completion record, once the scope is over. R397 -/
  record : List Byte
  deriving DecidableEq, Repr

/-! ### Roles, census and leases -/

/-- A logical tile's entry in the role map (R365). -/
structure TileMap where
  site : Nat
  /-- 0 compute, 1 storage, 2 routing. R364 -/
  role : Nat
  /-- role being entered while annealing. R379 -/
  toward : Option Nat
  /-- generation at which it took its role, 16 bits. R365 -/
  gen : Nat
  deriving DecidableEq, Repr

/-- A re-cast that has been cautioned and not committed (R370). -/
structure Recast where
  tile : Nat
  from_ : Nat
  to_ : Nat
  /-- ns at which it may commit -/
  commitAt : Nat
  /-- a lease has cancelled it. R377 -/
  cancelled : Bool
  /-- cores that have received its caution. R370 -/
  who : List Nat
  deriving DecidableEq, Repr

/-- A lease (R375). -/
structure Lease where
  asid : Nat
  slot : Nat
  first : Nat
  count : Nat
  /-- ns -/
  expiry : Nat
  /-- ns at which the EXPIRING notice is due -/
  expiringAt : Nat
  /-- logical core number -/
  holder : Nat
  sent : Bool
  deriving DecidableEq, Repr

/-- A station's copy of the role map (R365). -/
structure MapCopy where
  map : Store (Option TileMap) := []
  pages : Store Nat := []
  g : BitVec 16 := 0
  deriving DecidableEq, Repr

/-- The census (R365 to R378). -/
structure Census where
  /-- role map of logical tiles that differ from the reset entry (site i, compute, normal, generation 0). R365 -/
  map : Store (Option TileMap) := []
  /-- generation G, 16 bits. R365. Reset 0 -/
  g : BitVec 16 := 0
  /-- decision intervals that have ended. R367. Reset 0 -/
  done : Nat := 0
  /-- policy blocks by byte offset / 8 of the control space, each word kept as its difference (exclusive or) from the reset value that the
  policy table gives. R366. Reset the table's values -/
  policy : Store Word := []
  /-- malformed policy blocks reported, by die. R366. Reset none -/
  badPolicy : List Nat := []
  /-- re-cast tokens per die in units of 1/1,000,000 token. R368. Reset 0 -/
  tokens : Store Nat := []
  /-- ns up to which a die's bucket has been filled. R368. Reset 0 -/
  tokenAt : Store Nat := []
  /-- migration table, 4,096 bits: the ASIDs whose bit is set. R369. Reset none -/
  migrate : List Nat := []
  /-- re-casts cautioned and not committed. R370. Reset none -/
  pending : List Recast := []
  /-- logical cores that a migration moves and that have not resumed. R381. Reset none -/
  moving : List Nat := []
  /-- annealing tiles: ns of the commit. R379. Reset none -/
  annealing : Store Nat := []
  /-- leases held. R375. Reset none -/
  leases : List Lease := []
  /-- slot sequence numbers, 8 bits each, by asid*64 + slot. R375, R377. Reset 0 (DC) -/
  seqs : Store Nat := []
  /-- lease caps that the kernel has lowered, by ASID; default 512. R375. Reset 512 -/
  caps : Store Nat := []
  /-- homes of resident pool pages: page -> frame + 1 of a storage tile (tile*23 + frame); 0 the backing region. R365. Reset 0 -/
  pages : Store Nat := []
  /-- backing-region granules read in this interval, by die. R367. Reset 0 -/
  backReads : Store Nat := []
  /-- logical tiles reserved by a launch. R369. Reset none -/
  reserved : List Nat := []
  /-- leases, by ASID and slot, that have caused a SPARED notice in this interval. R370. Reset none -/
  spared : List (Nat × Nat) := []
  /-- pool pages in transit, each with the home that its copy fills: frame + 1, or 0 for the backing region. R382. Reset none -/
  transit : List (Nat × Nat) := []
  /-- the copies of the role map that the stations hold, by station. R365. Reset as the master copy -/
  copies : Store MapCopy := []
  deriving DecidableEq, Repr

/-! ### Queues -/

/-- A packet that a scheduler has fetched or started (R419, R420). -/
structure QPacket where
  /-- index in the queue, or in a list that runs in its place -/
  idx : Nat
  bytes : List Byte
  started : Bool
  completed : Bool
  /-- cores of its LAUNCH that have not reported done (site core numbers) -/
  cores : List Nat
  /-- err code of a failure that waits for its cores. R420 -/
  failing : Nat
  /-- ns at which a WAIT times out; 0 none -/
  deadline : Nat
  /-- nesting depth: 0 the queue, 1 an INDIRECT list, 2 an inner list -/
  nest : Nat
  /-- packets of its INDIRECT list or LOOP body still to complete -/
  children : Nat
  /-- sequence number of its parent packet + 1 -/
  parent : Nat
  /-- tiles that a LAUNCH asks for while it waits; else 0. R367, R424 -/
  want : Nat
  /-- VA from which it was fetched -/
  va : Nat
  /-- its work has met a page fault that the kernel has not answered. R266 -/
  held : Bool
  /-- its own work has ended. R420 -/
  over_ : Bool
  /-- repetition of the LOOP whose body it belongs to; 0 for none. R422 -/
  iter : Nat
  /-- a LOOP that has started: body length, repetitions still to be added, and whether the body is skipped. R422 -/
  loop : Option (Nat × Nat × Bool)
  seqno : Nat
  deriving DecidableEq, Repr

/-- A command queue (R418). -/
structure Queue where
  /-- VA of the ring, descriptor field. R418. Reset 0 (DC) -/
  ring : Nat := 0
  /-- log2 of the number of packets. R418. Reset 0 (DC) -/
  lsz : Nat := 0
  /-- ASID, 12 bits. R418. Reset 0 (DC) -/
  asid : Nat := 0
  /-- enable, 1 bit. R418. Reset false (DC) -/
  en : Bool := false
  /-- priority. R418. Reset 0 (DC) -/
  prio : Nat := 0
  /-- a reserved field of the descriptor is not zero. R418 -/
  bad : Bool := false
  /-- read index. R418. Reset 0 (DC) -/
  rd : Nat := 0
  /-- write index. R418. Reset 0 (DC) -/
  wr : Nat := 0
  /-- 0 idle, 1 running, 2 error, 3 resetting. R418. Reset 0 (DC: the table has no reset values) -/
  state : Nat := 0
  /-- error code. R420. Reset 0 (DC) -/
  err : Nat := 0
  /-- index of the packet in error. R420. Reset 0 (DC) -/
  pidx : Nat := 0
  /-- next index to fetch. R419 -/
  fetch : Nat := 0
  /-- packets fetched and not retired, oldest first. R419. Reset none -/
  pkts : List QPacket := []
  /-- next sequence number of a packet (the model's own). Reset 0 (DC) -/
  seqno : Nat := 0
  /-- packets of other queues that the scheduler has started while this queue was ready. R418 -/
  passed : Nat := 0
  /-- cores whose packets on the mesh a reset waits for. R425 -/
  killed : List Nat := []
  /-- fault records of far-tier writes that have no live port, as core and request, which a reset waits for. R425. Reset none -/
  farHeld : List (Nat × Nat) := []
  /-- completion records of aborted scopes, as ASID and VA, which a reset waits for. R397, R425. Reset none -/
  recHeld : List (Nat × Nat) := []
  /-- queues whose RESET_QUEUE waits for this reset: queue, sequence number. R425 -/
  askers : List (Nat × Nat) := []
  deriving DecidableEq, Repr

/-! ### Objects as the finaliser keeps them (R37 to R39, R59) -/

/-- A section: kind (0 ASTREAM, 1 ESTREAM, 2 DATA, 3 GDATA), log2 alignment, offset of its contents in the file, procedure, contents. -/
structure Section where
  kind : Nat
  align : Nat
  proc : Nat
  bytes : List Byte
  deriving DecidableEq, Repr

/-- A relocation: section, byte offset in it, type, target section, addend. -/
structure Reloc where
  sec : Nat
  off : Nat
  type : Nat
  target : Nat
  addend : Int
  deriving DecidableEq, Repr

/-- An entry record: procedure, kind (0 main, 1 grow, 2 stage), stage, offsets in the two streams. -/
structure EntryRec where
  proc : Nat
  kind : Nat
  stage : Nat
  a : Nat
  e : Nat
  deriving DecidableEq, Repr

/-- An object, read and checked. -/
structure Obj where
  portable : Bool
  sects : List Section
  rels : List Reloc
  entries : List EntryRec
  /-- procedure and message register of each parameter -/
  params : List (Nat × Nat)
  /-- the file's bytes: header, records, contents, string pool. R59 -/
  raw : List Byte
  deriving DecidableEq, Repr

/-- An image in the finaliser's cache (R59): its key, and the native form for each rank. -/
structure Cached where
  key : BitVec 384
  objs : List Obj
  deriving DecidableEq, Repr

/-! ### Island, ports and power -/

/-- A window access of a host that waits (R428). -/
structure HostAcc where
  port : Nat
  /-- offset in the window -/
  addr : Nat
  /-- bytes of a read -/
  len : Nat
  /-- bytes of a write -/
  data : Option (List Byte)
  deriving DecidableEq, Repr

/-- The management island, the ports and the power state (R426 to R442). -/
structure Island where
  /-- PMODE.req, 4 bits. R437. Reset 0 -/
  req : BitVec 4 := 0
  /-- PMODE.now, 4 bits. R437. Reset 0 -/
  now : BitVec 4 := 0
  /-- PMODE.busy. R437. Reset false -/
  busy : Bool := false
  /-- PMODE.cap. R437. Reset false -/
  cap : Bool := false
  /-- ns at which stopped clocks restart. R438 -/
  restartAt : Nat := 0
  /-- mode that the switch in progress enters. R438 -/
  next : BitVec 4 := 0
  /-- a request written while busy. R438 -/
  again : Option (BitVec 4) := none
  /-- ns since which the measurement has stayed below 90 % of the limit. R439 -/
  coolSince : Nat := 0
  /-- machine-check records sent to the kernel: kind and unit. R435, R436, R439 -/
  records : List (Nat × Nat) := []
  /-- corrected-error counters, 32-bit saturating, by unit. R436. Reset 0 (DC) -/
  corrected : Store Nat := []
  /-- corrected errors of a unit in an hour: the hour since reset, the count, and 1 once the unit has sent its record. R436. Reset (0, 0, 0) -/
  hourly : Store (Nat × Nat × Nat) := []
  /-- each unit's threshold of corrected errors in an hour. R436. Reset 1,024 (the default) -/
  thresholds : Store Nat := []
  /-- next granule of each station's scrub. R435. Reset 0 (DC) -/
  scrub : Store Nat := []
  /-- scrub rate that the kernel sets. R435. Reset 0 (DC) -/
  scrubRate : Nat := 0
  /-- heartbeat counter, 64 bits. R426. Reset 0 (DC) -/
  beat : Word := 0
  /-- ns at which the next heartbeat is due. R426. Reset 0 (DC) -/
  beatAt : Nat := 0
  /-- neighbours configured in the island. R426. Reset 0 (DC) -/
  neighbours : Nat := 0
  /-- quorum set by the island; 0 for the default majority. R426. Reset 0 -/
  quorum : Nat := 0
  /-- consecutive beats that a neighbour has missed, and the last of them. R426. Reset (0, 0) -/
  missed : Store (Nat × Nat) := []
  /-- last counter accepted from each sender. R426 -/
  counters : Store Nat := []
  /-- valid reset messages: sender, ns. R426 -/
  votes : List (Nat × Nat) := []
  /-- discarded messages. R426. Reset 0 -/
  discards : Nat := 0
  /-- resets of the RV64 complex so far. R426. Reset 0 -/
  recoveries : Nat := 0
  /-- the RV64 complex has been reset, and the restarted kernel has not yet resumed its schedulers. R426. Reset false -/
  complexDown : Bool := false
  /-- attestations so far, each of which takes an ephemeral key of its own. R442. Reset 0 -/
  attested : Nat := 0
  /-- key established at attestation. R442. Reset none -/
  key : Option (BitVec 384) := none
  /-- the firmware image in flash; none while it is the maker's. R440. Reset none (DC) -/
  flash : Option (List Byte) := none
  /-- fused floor of the security version. R440. Reset 0 (DC: a fuse) -/
  floor : Nat := 0
  /-- recovery state. R441. Reset false -/
  recovery : Bool := false
  /-- measurement registers, 8 × 384 bits. R442. Reset: the four stages of the stored image, each extended into a register of its own from
  zero (DC) -/
  measures : List (BitVec 384) := []
  /-- last answer to an attestation request: registers, nonce, version, signature. R442 -/
  quote_ : Option (List (BitVec 384) × BitVec 256 × Nat × BitVec 768) := none
  /-- host port link: (rate in GT/s, width); (0, 0) untrained. R427 -/
  hostLink : Store (Nat × Nat) := []
  /-- the 64 MSI-X vectors of a host port, by port*64 + vector: address and data as the host programs them. R427. Reset (0, 0) (DC) -/
  msix : Store (Word × Word) := []
  /-- the 8 HDM decoders of a port in mode 2, by port*8 + decoder: base and size. R427. Reset (0, 0) (DC) -/
  hdm : Store (Word × Word) := []
  /-- bytes returned by the last host window read. R428 -/
  hostRead : List Byte := []
  /-- ports at whose exit the check value of the next read fails. R433. Reset none -/
  exitBad : List Nat := []
  /-- completion status of the last host window access: 0 successful, 1 UR. R428 -/
  hostStatus : Nat := 0
  /-- window accesses that wait behind a page fault, oldest first. R428. Reset none -/
  hostPend : List HostAcc := []
  /-- scale-up ports that are down. R431. Reset none -/
  down : List Nat := []
  /-- link-level retries by port. R430 -/
  retries : Store Nat := []
  /-- snoops answered with a miss, by port. R427 -/
  snoops : Store Nat := []
  /-- capacity of the finaliser's cache in bytes of native words. R59. Reset 0 (DC) -/
  cacheCap : Nat := 0
  /-- images in the finaliser's cache, most recently used first. R59. Reset none -/
  cache : List Cached := []
  /-- HBM granules poisoned. R435. Reset none -/
  poison : List Nat := []
  /-- bytes returned by the last kernel hart load. R280. Reset none -/
  hartRead : List Byte := []
  deriving DecidableEq, Repr

/-- A beat driven on a track of an exchange block (R308). -/
structure Beat where
  block : Nat
  track : Nat
  /-- arithmetic cycle in which it is driven -/
  cycle : Nat
  core : Nat
  data : BitVec 256
  /-- a soft error has struck it. R313 -/
  bad : Bool
  deriving DecidableEq, Repr

/-! ### The whole module -/

/-- What moves next (the model's own: plain data that fixes the interleaving of the agents). -/
inductive Move where
  /-- a stream issues its next word -/
  | issue (core : Nat) (str : Strm)
  /-- a step of the device -/
  | event (e : Ev)
  /-- arithmetic cycles and nanoseconds pass -/
  | tick (cycles ns : Nat)
  deriving DecidableEq, Repr

/-- The state of the module. -/
structure State where
  /-- the core whose stream moves when plan is empty (the model's own). Reset 0 (DC) -/
  cur : Nat := 0
  /-- the stream that moves when plan is empty (the model's own). Reset A (DC) -/
  strm : Strm := .a
  /-- the moves to come (the model's own). Reset none (DC) -/
  plan : List Move := []
  /-- events that were not yet possible, tried again in the next round (the model's own). Reset none (DC) -/
  later : List Ev := []
  /-- number of free values drawn so far (the model's own). Reset 0 (DC) -/
  free : Nat := 0
  /-- fresh numbers for commands, packets and fences (the model's own). Reset 1 (DC) -/
  fresh : Nat := 1
  /-- arithmetic cycles since reset. R5. Reset 0 -/
  cycle : Nat := 0
  /-- wall-clock nanoseconds since reset. R6. Reset 0 -/
  ns : Nat := 0
  /-- cores by site core number; an unlisted one is as after reset. R3, R4 -/
  cores : Store Core := []
  /-- tiles by site number. R4 -/
  tiles : Store Tile := []
  /-- packets on the network. R291. Reset none -/
  packets : List Packet := []
  /-- flows: next sequence number to send and next to land, by source core * 16384 + destination. R296. Reset 0 -/
  flows : Store (Nat × Nat) := []
  /-- region counts, by region*2 + plane, 0-15. R293. Reset 0 -/
  counts : Store Nat := []
  /-- round-robin pointer of each output port on each plane, at (site*5 + port at the neighbour)*2 + plane: one more than the input channel that it served last. R295. Reset 0 (DC) -/
  links : Store Nat := []
  /-- reductions in progress, by (asid*256 + grp)*256 + tag. R305 -/
  reductions : Store (Option Reduction) := []
  /-- combining-store entries of the routers. R305, R306. Reset none -/
  combs : List Comb := []
  /-- beats on the exchange fabrics. R308. Reset none -/
  beats : List Beat := []
  /-- global memory: the versions of each byte at its home, newest first. R263, R278. Reset none: every HBM byte reads 0 -/
  home : Store (List Version) := []
  /-- number of releases performed (the order of R278). Reset 0 -/
  serial : Nat := 0
  /-- stations. R259 -/
  stn : Stations := {}
  /-- barrier objects by asid*256 + grp. R322 -/
  bars : Store Barrier := []
  /-- task domains by asid*256 + grp. R340 -/
  doms : Store Domain := []
  /-- continuation records by asid*2^20 + index. R341 -/
  recs : Store (Option ContRec) := []
  /-- pipelines by asid*256 + grp. R353 -/
  pipes : Store (Option Pipe) := []
  /-- tournament scopes. R387 -/
  scopes : Store (Option Scope) := []
  /-- contexts saved by pre-emption, by logical core number. R336 -/
  saved : Store (Option Core) := []
  /-- census, role map and leases. R365 -/
  census : Census := {}
  /-- command queues. R418 -/
  queues : Store Queue := []
  /-- for each of the four schedulers and each priority, at scheduler*8 + priority, one more than the queue of that priority that it served last;
  0 before any. R418. Reset 0 (DC) -/
  served : Store Nat := []
  /-- island, ports and power. R426, R427, R437 -/
  isl : Island := {}
  /-- reports to the kernel: kind (0 double fault, 1 overdue, 2 task failure, 3 done, 4 queue error, 5 remote write refused at a commit, 6 object rejected by the loader: the subject is the reason), subject. R40, R58, R335, R350, R351, R403, R415, R420 -/
  reports : List (Nat × Nat) := []
  deriving DecidableEq, Repr

/-- Why the machine stops (safe: a claim about a next state says nothing of these). -/
inductive Fault where
  /-- The plan names a core, tile, queue or port that the module does not have (R3, R9). Raised by events only. Safe. -/
  | noSuchAgent
  deriving DecidableEq, Repr

/-- Why an instruction has no meaning. -/
inductive Refusal where
  /-- Raised by the dispatch arm of an instruction that has no meaning yet. Safe. -/
  | notModelled (mnemonic : String)
  deriving DecidableEq, Repr

/-- The measurement registers after a boot of an image: its four stages (the island, the boot stage of the RV64 complex, the station
microcode and the finaliser) extended into registers 0 to 3 (R440, R442). -/
def measured (image : List Byte) : List (BitVec 384) :=
  (List.range 8).map fun k =>
    if k < 4 then Config.sha384 (List.replicate 48 0 ++ ((List.range 48).map fun i => (Config.sha384 (Config.stageBytes image k)).extractLsb' (8 * (47 - i)) 8))
    else 0

/-- The module right after device reset: every field at its default above, and the measurements of the stored image. -/
def State.reset : State := { isl := { measures := measured Config.factoryImage } }

end Sys2Proof.Machine
end

