-- ==== Sys2Proof/Machine/Ops.lean ====
section
/-!
DEFINITION. The named operations over registers, queues and ULM, and taking a trap and returning from one.
A word acts through two state monads: CM on one core, DM on the whole module. Stop says why a word did not issue.
-/

namespace Sys2Proof.Machine

/-! ### Why a word does not issue -/

/-- What a word waits for (R60). -/
inductive Why where
  /-- a register, an engine or another resource of the core -/
  | unit
  /-- an entry of an incoming inter-stream queue, which is empty (R64, R88) -/
  | empty
  /-- the head of an incoming inter-stream queue, which is allocated and not filled (R64) -/
  | unfilled
  /-- room in an outgoing inter-stream queue (R64) -/
  | full
  /-- an outside condition (R81) -/
  | outside
  deriving DecidableEq, Repr

/-- The word stalls on an inter-stream queue (R406). -/
def Why.onQueue : Why → Bool
  | .empty => true
  | .unfilled => true
  | .full => true
  | _ => false

/-- A word that stops: it waits (R60), or it raises a trap (R404) and leaves no effect (R67). -/
inductive Stop where
  | wait (why : Why)
  /-- word: the offending word's address where it is not the issuing word's -/
  | trap (cause sub : Nat) (addr info : Word) (word : Option Word)
  deriving DecidableEq, Repr

/-- Where a word's own effect sends fetch: on, on past words that it has consumed itself, to an address of its own, or nowhere yet (the word
keeps waiting, or has issued and runs until its flags are known, R120). -/
inductive Next where
  | seq
  | skip (a : Word)
  | jump (a : Word)
  | hold
  | run
  deriving DecidableEq, Repr

/-- An operation on one core. -/
abbrev CM := StateT Core (Except Stop)

/-- An operation on the module. -/
abbrev DM := StateT State (Except Stop)

/-- The word stalls (R60). -/
def stall {α : Type} : CM α := throw (.wait .unit)
/-- The word stalls on an empty incoming queue (R64). -/
def stallPop {α : Type} : CM α := throw (.wait .empty)
/-- The word stalls on the head of an incoming queue that is allocated and not filled (R64). -/
def stallFill {α : Type} : CM α := throw (.wait .unfilled)
/-- The word stalls on a full outgoing queue (R64). -/
def stallPush {α : Type} : CM α := throw (.wait .full)
/-- The word waits for an outside condition (R81). -/
def stallOut {α : Type} : CM α := throw (.wait .outside)
/-- Stall when b holds. -/
def stallIf (b : Bool) : CM Unit := if b then stall else pure ()
/-- Raise a trap. -/
def raise {α : Type} (cause sub : Nat) (addr info : Word) : CM α := throw (.trap cause sub addr info none)
/-- Raise a trap when b holds. -/
def raiseIf (b : Bool) (cause sub : Nat) (addr info : Word) : CM Unit := if b then raise cause sub addr info else pure ()

/-! ### Causes (R404) -/

/-- ILLEGAL_INSTRUCTION. -/
def cIllegal : Nat := 0
/-- OPERAND_EXPIRED. -/
def cExpired : Nat := 1
/-- LIVE_MAP. -/
def cLiveMap : Nat := 2
/-- WINDOW_SPILL. -/
def cSpill : Nat := 3
/-- WINDOW_FILL. -/
def cFill : Nat := 4
/-- ALIGN. -/
def cAlign : Nat := 5
/-- LOCAL_RANGE. -/
def cRange : Nat := 6
/-- REMOTE_REFUSED. -/
def cRemote : Nat := 7
/-- DEPOSIT_REFUSED. -/
def cDeposit : Nat := 8
/-- ACCESS_FAULT. -/
def cAccess : Nat := 10
/-- LOOP_DEPTH. -/
def cLoop : Nat := 11
/-- POINTS_INVALID. -/
def cPoints : Nat := 12
/-- MCAST_PARTITION. -/
def cMcast : Nat := 13
/-- INTEGRITY. -/
def cIntegrity : Nat := 14
/-- UNCORRECTABLE. -/
def cUncorrectable : Nat := 15
/-- FP_EXCEPTION. -/
def cFp : Nat := 16
/-- BRK. -/
def cBrk : Nat := 17
/-- TRAP. -/
def cTrap : Nat := 18
/-- WATCHDOG. -/
def cWatchdog : Nat := 19
/-- JOIN_FAILED. -/
def cJoin : Nat := 20
/-- EXCHANGE_FAULT. -/
def cExchange : Nat := 21
/-- GROUP_FAULT. -/
def cGroup : Nat := 22
/-- TASK_FAULT. -/
def cTask : Nat := 23
/-- TOURNEY_FAULT. -/
def cTourney : Nat := 24

/-! ### Agents -/

/-- The core with a site core number. -/
def State.core (s : State) (n : Nat) : Core := Store.get {} s.cores n
/-- Put a core back. -/
def State.setCore (s : State) (n : Nat) (c : Core) : State := { s with cores := Store.set {} s.cores n c }
/-- Change a core. -/
def State.modCore (s : State) (n : Nat) (f : Core → Core) : State := s.setCore n (f (s.core n))
/-- The tile with a site number. -/
def State.tile (s : State) (n : Nat) : Tile := Store.get {} s.tiles n
/-- Put a tile back. -/
def State.setTile (s : State) (n : Nat) (t : Tile) : State := { s with tiles := Store.set {} s.tiles n t }
/-- Change a tile. -/
def State.modTile (s : State) (n : Nat) (f : Tile → Tile) : State := s.setTile n (f (s.tile n))
/-- Append an event to the plan. -/
def State.post (s : State) (e : Ev) : State := { s with plan := s.plan ++ [.event e] }
/-- An event that is not yet possible is tried again in the next round. -/
def State.postpone (s : State) (e : Ev) : State := { s with later := s.later ++ [e] }
/-- An event is due in the next round, once. -/
def State.soon (s : State) (e : Ev) : State := if s.later.contains e then s else s.postpone e
/-- Report to the kernel (R335, R350, R403, R415, R420). -/
def State.report (s : State) (kind subject : Nat) : State := { s with reports := s.reports ++ [(kind, subject)] }

/-- Run a core operation on the core n. -/
def onCore {α : Type} (n : Nat) (m : CM α) : DM α := fun s =>
  match m (s.core n) with
  | .ok (a, c) => .ok (a, s.setCore n c)
  | .error e => .error e

/-- Append an event to the plan. -/
def postEvent (e : Ev) : DM Unit := modify fun s => s.post e

/-- An event is due in the next round, once. -/
def soonEvent (e : Ev) : DM Unit := modify fun s => s.soon e

/-- A number that no command, packet or fence has had (the model's own). -/
def freshId : DM Nat := fun s => .ok (s.fresh, { s with fresh := s.fresh + 1 })

/-- The stream's part of a core. -/
def Core.seq (c : Core) : Strm → Seq
  | .a => c.a
  | .e => c.e

/-- Put a stream's part back. -/
def Core.setSeq (c : Core) (st : Strm) (q : Seq) : Core :=
  match st with
  | .a => { c with a := q }
  | .e => { c with e := q }

/-- Change a stream's part. -/
def Core.modSeq (c : Core) (st : Strm) (f : Seq → Seq) : Core := c.setSeq st (f (c.seq st))

/-- Change a stream's part. -/
def modSeqM (st : Strm) (f : Seq → Seq) : CM Unit := modify fun c => c.modSeq st f

/-- The site of a core (R3). -/
def siteOf (core : Nat) : Nat := core / 4

/-! ### What an issuing word knows -/

/-- The word at issue: where it stands, and what its hint group says (R48). -/
structure Ctx where
  core : Nat
  st : Strm
  /-- address of the word -/
  pc : Word
  cycle : Nat
  ns : Nat
  /-- IMM payloads in the order written -/
  imms : List (BitVec 20)
  /-- rounding override, as a code of FPCTL.rm -/
  rm : Option Nat
  sat : Bool
  short : Bool
  prio : BitVec 2
  grp : BitVec 6
  jtab : Option (BitVec 5 × BitVec 10)
  xt : Option (BitVec 17)
  live : Option (BitVec 20)
  /-- FPCTL as captured (R118) -/
  fpctl : Word
  /-- a body word that the vector sequencer issues (R195) -/
  body : Bool
  deriving DecidableEq, Repr

/-! ### Registers -/

/-- The physical home of scalar register n: 1 to 7 a global, 32 + entry for the stack (R90). -/
def Seq.home (q : Seq) (n : BitVec 5) : Nat :=
  if n.toNat < 8 then n.toNat else 32 + (16 * q.cur.toNat + (n.toNat - 8)) % 512

/-- The main-file value of a home. -/
def Core.main (c : Core) (st : Strm) (h : Nat) : Vec :=
  if h < 600 then (Store.get 0 (c.seq st).regs h).setWidth 1024
  else if h < 650 then Store.get 0 c.v (h - 600)
  else (if h = 650 then BitVec.allOnes 128 else Store.get 0 c.k (h - 650)).setWidth 1024

/-- Write the main file at a home; the constants discard the write (R44). -/
def Core.setMain (c : Core) (st : Strm) (h : Nat) (v : Vec) : Core :=
  if h = 0 ∨ h = 650 then c
  else if h < 600 then c.modSeq st fun q => { q with regs := Store.set 0 q.regs h (v.setWidth 64) }
  else if h < 650 then { c with v := Store.set 0 c.v (h - 600) v }
  else { c with k := Store.set 0 c.k (h - 650) (v.setWidth 128) }

/-- The key of a home in the list of multi-bit errors (R94). -/
def badKey (st : Strm) (h : Nat) : Nat := if st = .a then h else 2000 + h

/-- The key of a home's punty entry in the list of multi-bit errors (R94). -/
def puntyKey (st : Strm) (h : Nat) : Nat := 4000 + badKey st h

/-- Forget what a write to a home ends: its punty entry, its expired mark and an error in either (R94, R95, R96). -/
def Core.freeHome (c : Core) (st : Strm) (h : Nat) : Core :=
  { c.modSeq st (fun q => { q with punty := q.punty.filter (fun p => p.home != h), expired := q.expired.filter (fun j => j != h) }) with
    regBad := c.regBad.filter (fun j => j != badKey st h && j != puntyKey st h) }

/-- Write a home: a result or a status arrives (R95, R96, R244). -/
def Core.putHome (c : Core) (st : Strm) (h : Nat) (v : Vec) : Core := (c.freeHome st h).setMain st h v

/-- A short-lived result arrives: it stands in the punty buffer (R95). -/
def Core.putShort (c : Core) (st : Strm) (h : Nat) (v : Vec) (cycle : Nat) : Core :=
  if h = 0 ∨ h = 650 then c
  else (c.freeHome st h).modSeq st fun q => { q with punty := q.punty ++ [⟨h, v, cycle⟩] }

/-- Mark a home pending (R244). -/
def Core.setPend (c : Core) (st : Strm) (h : Nat) : Core :=
  if h = 0 ∨ h = 650 then c else c.modSeq st fun q => { q with pend := q.pend ++ [h] }

/-- The home is no longer pending. -/
def Core.clearPend (c : Core) (st : Strm) (h : Nat) : Core := c.modSeq st fun q => { q with pend := q.pend.erase h }

/-- The vector sequencer holds a body that names the home, so an E-stream word stalls (R195). -/
def Core.vrepNames (c : Core) (x : Ctx) (h : Nat) : Bool :=
  match c.vrep with
  | some r => x.st == .e && !x.body && !r.held && r.names.contains h
  | none => false

/-- Read a home (R60, R94, R95, R96, R129); cls and n name the register in the trap record of R404. -/
def rdHome (x : Ctx) (h cls n : Nat) : CM Vec := do
  let c ← get
  stallIf (c.vrepNames x h || (c.seq x.st).pend.contains h)
  match (c.seq x.st).punty.find? (fun p => p.home == h) with
  | some p => do
    raiseIf (c.regBad.contains (puntyKey x.st h)) cUncorrectable 0 0 0
    pure p.value
  | none =>
    raiseIf ((c.seq x.st).expired.contains h) cExpired 0 0 (BitVec.ofNat 64 (n + 32 * cls))
    raiseIf (c.regBad.contains (badKey x.st h)) cUncorrectable 0 0 0
    pure (c.main x.st h)

/-- The class code of a stream's scalar registers (R404). -/
def strmClass : Strm → Nat
  | .a => 0
  | .e => 1

/-- Read scalar register n of the issuing stream (R89). -/
def rdX (x : Ctx) (n : BitVec 5) : CM Word :=
  if n = 0 then pure 0
  else do
    let c ← get
    let v ← rdHome x ((c.seq x.st).home n) (strmClass x.st) n.toNat
    pure (v.setWidth 64)

/-- Read v register n (R172). -/
def rdV (x : Ctx) (n : BitVec 5) : CM Vec := rdHome x (600 + n.toNat) 2 n.toNat

/-- Read mask register n; k0 reads all ones (R172). -/
def rdK (x : Ctx) (n : Nat) : CM Mask := do
  let v ← rdHome x (650 + n) 2 n
  pure (v.setWidth 128)

/-- The destination h is free to be written: not pending, not named by a held body (R129, R174, R195). -/
def destFree (x : Ctx) (h : Nat) : CM Unit := do
  let c ← get
  stallIf (c.vrepNames x h || (c.seq x.st).pend.contains h)

/-- Live punty entries of a stream, and those that dispatched or late results will take (R95). -/
def Core.puntyUse (c : Core) (st : Strm) : Nat :=
  (c.seq st).punty.length + (match (c.seq st).wb with | some l => if l.short then 1 else 0 | none => 0)
    + (if st = .e then ((c.sauq ++ c.sauFly).filter (fun o => o.short)).length else 0)

/-- A short-lived destination h needs a free entry at issue, after a live entry of the same register has been freed (R95). -/
def shortFree (x : Ctx) (h : Nat) : CM Unit := do
  let c ← get
  stallIf (x.short && h != 0 && decide (8 ≤ (c.freeHome x.st h).puntyUse x.st))

/-- Write a home now (R95). -/
def wrHome (x : Ctx) (h : Nat) (v : Vec) : CM Unit :=
  if h = 0 ∨ h = 650 then pure ()
  else do
    destFree x h
    shortFree x h
    modify fun c => if x.short then c.putShort x.st h v x.cycle else c.putHome x.st h v

/-- Write scalar register n of the issuing stream; register 0 discards the write (R44, R89). -/
def wrX (x : Ctx) (n : BitVec 5) (v : Word) : CM Unit := do
  let c ← get
  wrHome x (if n = 0 then 0 else (c.seq x.st).home n) (v.setWidth 1024)

/-- Write v register n. -/
def wrV (x : Ctx) (n : BitVec 5) (v : Vec) : CM Unit := wrHome x (600 + n.toNat) v

/-- Predicate n of a stream; q0 reads true (R127). -/
def Seq.pred (q : Seq) (n : Nat) : Bool := n == 0 || q.preds.getLsbD n

/-- Write predicate n; q0 discards the write (R127). -/
def Seq.setPred (q : Seq) (n : Nat) (b : Bool) : Seq :=
  if n = 0 then q
  else { q with preds := if b then q.preds ||| (1#8 <<< n) else q.preds &&& ~~~(1#8 <<< n) }

/-- Read a predicate. -/
def rdP (x : Ctx) (n : Nat) : CM Bool := do
  let c ← get
  pure ((c.seq x.st).pred n)

/-- Write a predicate. -/
def wrP (x : Ctx) (n : Nat) (b : Bool) : CM Unit := modSeqM x.st fun q => q.setPred n b

/-! ### The queues between the streams (R63 to R65, R83) -/

/-- Push an entry into the stream's outgoing data queue; none is an allocated entry that is not filled (R64). -/
def pushData (x : Ctx) (v : Option Word) : CM Unit := do
  let c ← get
  if (c.seq x.st.other).halted then pure ()
  else match x.st with
    | .a => if 16 ≤ c.q.ldq.length then stallPush else set { c with q := { c.q with ldq := c.q.ldq ++ [v] } }
    | .e => if 16 ≤ c.q.stq.length then stallPush else set { c with q := { c.q with stq := c.q.stq ++ [v] } }

/-- Pop the stream's incoming data queue. -/
def popData (x : Ctx) : CM Word := do
  let c ← get
  match x.st with
  | .a =>
    match c.q.stq with
    | some v :: r => do set { c with q := { c.q with stq := r } }; pure v
    | none :: _ => stallFill
    | [] => stallPop
  | .e =>
    match c.q.ldq with
    | some v :: r => do set { c with q := { c.q with ldq := r } }; pure v
    | none :: _ => stallFill
    | [] => stallPop

/-- A word waits for the room that m will need before it raises anything (R60): the stalls of m and nothing else of it. -/
def room (m : CM Unit) : CM Unit := do
  let c ← get
  m
  set c

/-- Fill the oldest entry of a list that is allocated and not filled (R64). -/
def fillFirst (v : Word) : List (Option Word) → List (Option Word)
  | [] => []
  | none :: r => some v :: r
  | some w :: r => some w :: fillFirst v r

/-- A late result fills its entry of the stream's outgoing queue. -/
def Core.fillData (c : Core) (st : Strm) (v : Word) : Core :=
  match st with
  | .a => { c with q := { c.q with ldq := fillFirst v c.q.ldq } }
  | .e => { c with q := { c.q with stq := fillFirst v c.q.stq } }

/-- Push a bit into the stream's outgoing branch-outcome queue (R66). -/
def pushBit (x : Ctx) (b : Bool) : CM Unit := do
  let c ← get
  if (c.seq x.st.other).halted then pure ()
  else match x.st with
    | .a => if 32 ≤ c.q.boqAE.length then stallPush else set { c with q := { c.q with boqAE := c.q.boqAE ++ [b] } }
    | .e => if 32 ≤ c.q.boqEA.length then stallPush else set { c with q := { c.q with boqEA := c.q.boqEA ++ [b] } }

/-- The stream's incoming branch-outcome queue (R68). -/
def Core.bits (c : Core) : Strm → List Bool
  | .a => c.q.boqEA
  | .e => c.q.boqAE

/-- Pop the stream's incoming branch-outcome queue. -/
def popBit (x : Ctx) : CM Bool := do
  let c ← get
  match x.st, c.bits x.st with
  | .a, b :: r => do set { c with q := { c.q with boqEA := r } }; pure b
  | .e, b :: r => do set { c with q := { c.q with boqAE := r } }; pure b
  | _, [] => stallPop

/-- Push a row into vldq (A-stream, R158). -/
def pushVldq (v : Vec) : CM Unit := do
  let c ← get
  if c.e.halted then pure ()
  else if 8 ≤ c.q.vldq.length then stallPush else set { c with q := { c.q with vldq := c.q.vldq ++ [v] } }

/-- Pop vldq (E-stream, R196). -/
def popVldq (x : Ctx) : CM Vec := do
  let c ← get
  stallIf (c.vrepNames x 800)
  match c.q.vldq with
  | v :: r => do set { c with q := { c.q with vldq := r } }; pure v
  | [] => stallPop

/-- Push an entry into vstq (E-stream, R195, R196). -/
def pushVstq (x : Ctx) (v : VSlot) : CM Unit := do
  let c ← get
  stallIf (c.vrepNames x 801)
  if c.a.halted then pure ()
  else if 8 ≤ c.q.vstq.length then stallPush else set { c with q := { c.q with vstq := c.q.vstq ++ [v] } }

/-- The writer of v register home h has completed with v: it fills the entries of vstq that wait for it (R195). -/
def Core.fillVstq (c : Core) (h : Nat) (v : Vec) : Core :=
  { c with q := { c.q with vstq := c.q.vstq.map fun e => if e = .due h then .row v else e } }

/-- Pop vstq (A-stream, R158). -/
def popVstq : CM Vec := do
  let c ← get
  match c.q.vstq with
  | .row v :: r => do set { c with q := { c.q with vstq := r } }; pure v
  | .due _ :: _ => stallFill
  | [] => stallPop

/-- All six queues are empty (R65, R82). -/
def Queues.isEmpty (q : Queues) : Bool :=
  q.ldq.isEmpty && q.stq.isEmpty && q.vldq.isEmpty && q.vstq.isEmpty && q.boqAE.isEmpty && q.boqEA.isEmpty

/-! ### ULM -/

/-- A swizzle descriptor covers the row (R154, R155). -/
def swzCovers (d : Word) (row : Nat) : Bool :=
  d.getLsbD 63 && decide ((d.extractLsb' 16 12).toNat ≤ row)
    && decide (row < (d.extractLsb' 16 12).toNat + (d.extractLsb' 0 12).toNat)

/-- The bank of a word under a descriptor (R154). -/
def swzBank (d : Word) (row lbank : Nat) : Nat :=
  lbank ^^^ ((row / 2 ^ (d.extractLsb' 40 3).toNat) % 32 &&& (d.extractLsb' 32 5).toNat)

/-- The lowest-numbered enabled descriptor that covers the row applies (R154). -/
def Core.bank (c : Core) (row lbank : Nat) : Nat :=
  match (List.range 8).find? (fun n => swzCovers (Store.get 0 c.ctl.swz n) row) with
  | some n => swzBank (Store.get 0 c.ctl.swz n) row lbank
  | none => lbank

/-- The physical byte that a ULM address names (R154). -/
def Core.phys (c : Core) (a : Nat) : Nat := a / 128 * 128 + 4 * c.bank (a / 128) (a / 4 % 32) + a % 4

/-- One byte of ULM. -/
def Core.ulmByte (c : Core) (a : Nat) : Byte := Store.get 0 c.ulm (c.phys a)

/-- n bytes of ULM from address a. -/
def Core.ulmBytes (c : Core) (a : Nat) : Nat → List Byte
  | 0 => []
  | n + 1 => c.ulmByte a :: c.ulmBytes (a + 1) n

/-- A little-endian number (R10). -/
def leNat : List Byte → Nat
  | [] => 0
  | b :: r => b.toNat + 256 * leNat r

/-- The n low bytes of a number, little-endian (R10). -/
def toBytes : Nat → Nat → List Byte
  | 0, _ => []
  | n + 1, v => BitVec.ofNat 8 v :: toBytes n (v / 256)

/-- Write bytes to ULM from address a. -/
def Core.putUlm (c : Core) (a : Nat) : List Byte → Core
  | [] => c
  | b :: r => Core.putUlm { c with ulm := Store.set 0 c.ulm (c.phys a) b } (a + 1) r

/-- The 64-byte granules, as they lie in the banks, that the bytes from a touch. -/
def Core.granules (c : Core) (a : Nat) : Nat → List Nat
  | 0 => []
  | n + 1 => c.phys a / 64 :: c.granules (a + 1) n

/-- The first byte from a whose word holds an uncorrectable error (15), or whose granule fails its check value (14) (R151, R435). -/
def Core.ulmError (c : Core) (a : Nat) : Nat → Option (Nat × Nat)
  | 0 => none
  | n + 1 =>
    if c.ulmBad.contains (c.phys a / 4) then some (cUncorrectable, a)
    else if c.ulmChk.contains (c.phys a / 64) then some (cIntegrity, a)
    else c.ulmError (a + 1) n

/-- The bytes that a partial write of [a, a + n) keeps: those of its granules outside the range (R434). -/
def keptBytes (a n : Nat) : List Nat :=
  if n = 0 then []
  else (List.range ((a + n + 63) / 64 * 64 - a / 64 * 64)).filterMap fun i =>
    let b := a / 64 * 64 + i
    if a ≤ b ∧ b < a + n then none else some b

/-- The first error among the bytes that rows of w bytes keep, as one write (R237, R434). -/
def Core.keepErrors (c : Core) (rows : List Nat) (w : Nat) : Option (Nat × Nat) :=
  rows.findSome? fun a => (keptBytes a w).findSome? fun b =>
    if rows.any fun d => decide (d ≤ b) && decide (b < d + w) then none else c.ulmError b 1

/-- The first error among the bytes that a partial write keeps (R434). -/
def Core.keepError (c : Core) (a n : Nat) : Option (Nat × Nat) := (keptBytes a n).findSome? fun b => c.ulmError b 1

/-- The 32-bit words, as they lie in the banks, that the bytes from a touch. -/
def Core.ulmWords (c : Core) (a : Nat) : Nat → List Nat
  | 0 => []
  | n + 1 => c.phys a / 4 :: c.ulmWords (a + 1) n

/-- A write that lands ends the errors of the words, and the failed checks of the granules, that it replaces or has verified (R151, R434). -/
def Core.clean (c : Core) (a n : Nat) : Core :=
  if c.ulmBad = [] ∧ c.ulmChk = [] then c
  else
    let ws := c.ulmWords a n
    let gs := c.granules a n
    { c with ulmBad := c.ulmBad.filter (fun w => !ws.contains w), ulmChk := c.ulmChk.filter (fun g => !gs.contains g) }

/-- A landing write of bytes, without the checks of R434. -/
def Core.landUlm (c : Core) (a : Nat) (bs : List Byte) : Core := (c.putUlm a bs).clean a bs.length

/-- Ranges [a, a + n) and [lo, hi) meet. -/
def meets (a n : Nat) : Option (Nat × Nat) → Bool
  | some (lo, hi) => decide (a < hi) && decide (lo < a + n)
  | none => false

/-- A read of ULM waits for an older write that covers one of its bytes (R247). -/
def readBlocked (cs : List Cmd) (a n : Nat) : Bool := cs.any fun k => meets a n k.wr

/-- A write of ULM waits for any older entry that covers one of its bytes (R247). -/
def writeBlocked (cs : List Cmd) (a n : Nat) : Bool := cs.any fun k => meets a n k.wr || meets a n k.rd

/-- Raise the machine-check cause of an error (R151). -/
def raiseError : Option (Nat × Nat) → CM Unit
  | some (cause, a) => raise cause 0 (BitVec.ofNat 64 a) 0
  | none => pure ()

/-- A word of the core reads n bytes of ULM (R151, R158, R247). -/
def rdUlm (a n : Nat) : CM (List Byte) := do
  let c ← get
  stallIf (readBlocked c.cmds a n)
  raiseError (c.ulmError a n)
  pure (c.ulmBytes a n)

/-- A word of the core writes bytes to ULM (R158, R247, R434). -/
def wrUlm (a : Nat) (bs : List Byte) : CM Unit := do
  let c ← get
  stallIf (writeBlocked c.cmds a bs.length)
  raiseError (c.keepError a bs.length)
  set (c.landUlm a bs)

/-- The checks of an aligned access of n bytes (R158). -/
def checkUlm (addr : Word) (n : Nat) : CM Unit := do
  raiseIf (addr.toNat % n != 0) cAlign 0 addr 0
  raiseIf (decide (Config.ulmBytes < addr.toNat + n)) cRange 0 addr 0

/-! ### Taking a trap (R410) -/

/-- What a trap record says (R408). -/
structure TrapInfo where
  cause : Nat
  sub : Nat
  addr : Word
  info : Word
  /-- address of the offending, command or safe-point word -/
  word : BitVec 19
  /-- address at which TRET resumes -/
  ret : BitVec 19
  async : Bool
  /-- repetition and body word of a fault in a VREP repetition (R195) -/
  vrep : Option (BitVec 32 × BitVec 4)
  /-- ULM address of a copy's failing granule (R245) -/
  ulm : Nat := 0
  deriving DecidableEq, Repr

/-- Causes that TDELEG cannot delegate (R403, R407); 9 is never raised. -/
def undelegable (cause : Nat) : Bool := [3, 4, 9, 14, 15, 18, 19].contains cause

/-- The level to which a cause goes: true is system (R403). -/
def Core.toSystem (c : Core) (cause : Nat) : Bool :=
  let user := decide (48 ≤ cause) || (decide (cause < 25) && !undelegable cause && c.ctl.tdeleg.getLsbD cause)
  !user || c.ctl.ub

/-- xCAUSE (R408). -/
def causeWord (st : Strm) (lvl : Bool) (depth : Nat) (t : TrapInfo) : Word :=
  let base := t.cause + 2 ^ 8 * t.sub + (if st = .e then 2 ^ 16 else 0) + (if lvl then 2 ^ 17 else 0) + 2 ^ 18 * depth
    + (if t.async then 2 ^ 20 else 0)
  match t.vrep with
  | some (rep, body) => BitVec.ofNat 64 (base + 2 ^ 21 + 2 ^ 22 * body.toNat + 2 ^ 32 * rep.toNat)
  | none => BitVec.ofNat 64 base

/-- An entry goes back to its register in the main file, which then holds what the entry held, a multi-bit error among it (R94, R97). -/
def Core.spillEntry (c : Core) (st : Strm) (p : Punty) : Core :=
  { c.setMain st p.home p.value with
    regBad := (c.regBad.filter fun k => k != badKey st p.home).map fun k => if k = puntyKey st p.home then badKey st p.home else k }

/-- Every live punty entry of a stream goes back to the main file and is freed; an entry whose result is still on its way is live too, and its
result will go to the main file (R95, R97). -/
def Core.spillPunty (c : Core) (st : Strm) : Core :=
  let c := ((c.seq st).punty.foldl (fun c p => c.spillEntry st p) c).modSeq st fun q =>
    { q with punty := [], wb := q.wb.map fun l => { l with short := false } }
  match st with
  | .a => c
  | .e => { c with
    sauq := c.sauq.map fun o => { o with short := false }
    sauFly := c.sauFly.map fun o => { o with short := false }
    fpRun := c.fpRun.map fun r => { r with short := false } }

/-- The record that the trap leaves (R408, R410). -/
def Seq.record (q : Seq) (st : Strm) (lvl : Bool) (t : TrapInfo) : TrapRec where
  epc := (t.word.setWidth 64 <<< 32) ||| t.ret.setWidth 64
  cause := causeWord st lvl q.loopDepth t
  addr := t.addr
  info := t.info
  bt := q.bt
  brPred := q.brPred
  brSense := q.brSense
  depth := q.depth
  loops := q.loops
  ulm := t.ulm

/-- The table address of a vector register: bits [18:12] (R407). -/
def vectorBase (v : Word) : Word := v &&& 0x7F000

/-- The stream that takes the trap (R410). -/
def Seq.enter (q : Seq) (sys : Bool) (r : TrapRec) (cause : Nat) : Seq :=
  { q with
    sysRec := if sys then r else q.sysRec
    userRec := if sys then q.userRec else r
    loopDepth := 0
    hints := []
    buf := []
    tbuf := []
    pc := vectorBase (if sys then q.svec else q.uvec) + BitVec.ofNat 64 (64 * cause)
    drain := true
    safeAt := none
    tried := false
    parked := false
    qstall := false
    starved := false
    jx := false
    waiting := false
    stopNext := false }

/-- A hint group whose consumer has not issued is abandoned: its first word is the next to issue, and nothing of it has had an effect (R49). -/
def Seq.regroup (q : Seq) : Seq := if q.hints.isEmpty then q else { q with pc := q.group, hints := [] }

/-- The other stream stops at its boundary: a word that waits and is no safe point first finishes; otherwise its current word is abandoned, with
the hint group that it belongs to (R49, R410). -/
def Seq.halt (q : Seq) : Seq :=
  { (if q.waiting then q else q.regroup) with
    stopped := !q.waiting, stopNext := q.waiting, parked := false, safeAt := none, tried := false, qstall := false,
    starved := false }

/-- The A-stream waits at a barrier word, whose arrival has been sent and not been answered (R325). -/
def Core.atBarrier (c : Core) : Bool :=
  match c.wait with
  | some (.barrier _ _ _ _ none _) => true
  | _ => false

/-- The A-stream stands at a barrier word whose epoch has completed: the word completes before anything else happens (R325). -/
def Core.barDone (c : Core) : Bool :=
  match c.wait with
  | some (.barrier _ _ _ _ (some _) _) => true
  | _ => false

/-- The A-stream waits at an XBEGIN that is not decided (R310). -/
def Core.atXbegin (c : Core) : Bool :=
  match c.wait with
  | some (.xbegin _ _ _ _ _ none) => true
  | _ => false

/-- A wake reaches a core that sleeps (R88): the bit is set when the control word asks for it, and bit 0 until the cycle in which the entry
commits has ended; ask 64 stands for a wake that needs no bit of the control word. -/
def Core.wake (c : Core) (ask : Nat) (bit : Word) : Core :=
  match c.wait with
  | some (.sleep ctl dl en st) =>
    if ask = 64 || ctl.getLsbD ask then
      { c with wait := some (.sleep ctl dl en (some (st.getD 0 ||| bit ||| (if en = .committed then 0 else 1)))) }
    else c
  | _ => c

/-- The latched notify bits stand in the notify register when a sleep ends (R88). -/
def Core.mergeNotify (c : Core) : Core :=
  { c with msg := { c.msg with notify := c.msg.notify ||| c.msg.notifyLatch, notifyLatch := 0 } }

/-- What a waiting word of the A-stream keeps when it is abandoned: an arrival that a withdrawal will take back, and a wait that must
finish first (R81, R325, R410). A sleep that is abandoned wakes the core (R88), and a runner waits again at its word (R345). -/
def Core.abandon (c : Core) : Core :=
  match c.wait with
  | some (.barrier ..) => c
  | some (.runner grp _) => { c with wait := none, runnerAt := some (grp, c.a.pc) }
  | _ => { c.mergeNotify with wait := none }

/-- A word of the E-stream has issued and runs alone in the SAU (R120). -/
def Core.ownRun (c : Core) : Bool := match c.fpRun with
  | some r => !r.body
  | none => false

/-- A word that runs alone, of a body or of the stream, is taken back with the draws that it has reserved (R67, R120). -/
def Core.dropRun (c : Core) (body : Bool) : Core :=
  match c.fpRun.filter fun r => r.body == body with
  | some r => { c with fpRun := none, ctl := { c.ctl with srseed := if c.ctl.srseed = r.seed.2 then r.seed.1 else c.ctl.srseed } }
  | none => c

/-- The xret of a phase that has begun (R314). -/
def Core.phaseXret (c : Core) : BitVec 19 :=
  match c.xph with
  | some p => if p.begun && !p.left then p.xret.setWidth 19 else 0
  | none => 0

/-- The core after stream st has taken a trap (R410); a double fault stops it instead (R403). An XBEGIN that waits for the E-stream's next boundary
then finds it at the handler's first word (R310). -/
def Core.trap (c : Core) (st : Strm) (t : TrapInfo) : Core :=
  let sys := c.toSystem t.cause
  if sys && c.ctl.sb then { c with run := .dead, fatal := some ((c.seq st).record st c.ctl.lvl t) }
  else
    let c := if st = .e then c.dropRun false else c
    let c := (c.spillPunty .a).spillPunty .e
    let c := if st = .e then c.wake 64 0x40 else c
    let c := if st = .a || !c.a.waiting then c.abandon else c
    let r := { (c.seq st).record st c.ctl.lvl t with xret := c.phaseXret }
    let c := c.modSeq st fun q => q.enter sys r t.cause
    let c := c.modSeq st.other fun q => { q with waiting := (q.waiting && !(st = .e && c.atBarrier)) || (st = .e && c.barDone) }
    let c := c.modSeq st.other Seq.halt
    { c with
      ctl := { c.ctl with
        lvl := if sys then true else c.ctl.lvl
        sb := if sys then true else c.ctl.sb
        ub := if sys then c.ctl.ub else true }
      join := if st = .e then none else c.join
      xph := match c.xph with
        | some p => if p.begun then some { p with left := true } else if st = .e && c.atXbegin then some p else none
        | none => none }

/-- Every core of the gang that the core belongs to goes on alone (R333). -/
def disbandGang (s : State) (core : Nat) : State :=
  match (s.core core).gang with
  | none => s
  | some g =>
    s.cores.foldl (fun s p =>
      match p.2.gang with
      | some h => if h.leader = g.leader then
          s.modCore p.1 fun c => { c with gang := none, a := { c.a with fwd := [], buf := [], tbuf := [] }, e := { c.e with fwd := [], buf := [], tbuf := [] } }
        else s
      | none => s) s

/-- A core drives no more beats after this cycle (R314). -/
def State.silence (s : State) (core : Nat) : State :=
  { s with beats := s.beats.filter fun b => b.core != core || decide (b.cycle ≤ s.cycle) }

/-- Stream st of a core takes a trap (R314, R333, R403, R410, R416). -/
def takeTrap (s : State) (core : Nat) (st : Strm) (t : TrapInfo) : State :=
  let s := (disbandGang s core).silence core
  let c := s.core core
  let s' := s.setCore core (c.trap st t)
  let s' := if st = .e && c.atBarrier then s'.post (.barrierWithdrawal core) else s'
  if c.toSystem t.cause && c.ctl.sb then
    let s' := s'.report 0 core
    -- a core that a double fault stops is held in a trap for good, and its round may end (R396)
    if c.scope.1 = 0 then s' else s'.post (.roundEnd (c.scope.1 - 1))
  else s'

/-! ### Loop levels (R74) -/

/-- Loop level i of the three; there is no other. -/
def Levels.get (m : Levels) : Nat → LoopLevel
  | 0 => m.l0
  | 1 => m.l1
  | 2 => m.l2
  | _ => {}

/-- Put loop level i. -/
def Levels.set (m : Levels) (i : Nat) (l : LoopLevel) : Levels :=
  match i with
  | 0 => { m with l0 := l }
  | 1 => { m with l1 := l }
  | 2 => { m with l2 := l }
  | _ => m

/-! ### Returning from a trap (R414) -/

/-- Restore frame depths and shadows of the loop levels; live lc, ls and le stay (R414). -/
def restoreLoops (now saved : Levels) : Levels :=
  let back := fun (l r : LoopLevel) => { l with shLs := r.shLs, shLe := r.shLe, frame := r.frame }
  ⟨back now.l0 saved.l0, back now.l1 saved.l1, back now.l2 saved.l2⟩

/-- The stream after TRET from a record (R414). -/
def Seq.leave (q : Seq) (r : TrapRec) : Seq :=
  { q with
    bt := r.bt
    brPred := r.brPred
    brSense := r.brSense
    depth := r.depth
    loops := restoreLoops q.loops r.loops
    loopDepth := (r.cause.extractLsb' 18 2).toNat }

/-- TRET (R412, R414): outside a handler of its level the word is illegal. -/
def tretM (x : Ctx) : CM Next := do
  let c ← get
  let sys := c.ctl.lvl
  raiseIf (if sys then !c.ctl.sb else !c.ctl.ub) cIllegal 1 0 0
  let q := c.seq x.st
  let r := if sys then q.sysRec else q.userRec
  let c := (c.modSeq x.st fun q => q.leave r).modSeq x.st.other fun q => { q with stopped := false, stopNext := false }
  -- a runner's E-stream stands still until the A-stream waits again (R345)
  set { c with e := { c.e with parked := c.e.parked || c.runnerAt.isSome }, ctl := { c.ctl with
    lvl := r.cause.getLsbD 17
    sb := if sys then false else c.ctl.sb
    ub := if sys then c.ctl.ub else false } }
  pure (.jump ((r.epc.extractLsb' 0 19).setWidth 64))

end Sys2Proof.Machine
end

