-- ==== Sys2Proof/Machine/Issue.lean ====
section
/-!
DEFINITION. How a word issues (R48, R49, R53, R54, R67 to R71, R78, R80): its hint group, its legality, its effect, its selector, the loop
end check, and the commit. Every meaning of a word is this pipeline around an effect.
-/

namespace Sys2Proof.Machine

/-- The outcomes of a step. -/
abbrev Out := Host.Outcome State Fault Refusal

/-! ### Hint groups (R47, R48) -/

/-- The IMM payloads of a group, in the order written. -/
def immsOf : List Hint → List (BitVec 20)
  | [] => []
  | .imm v :: r => v :: immsOf r
  | _ :: r => immsOf r

/-- The kind of a hint (R47). -/
def Hint.kind : Hint → Nat
  | .tgt .. => 0
  | .imm _ => 1
  | .live _ => 2
  | .jtab .. => 3
  | .mod .. => 4
  | .sched .. => 5
  | .xt _ => 6

/-- How many hints of a kind the group holds. -/
def kindCount (k : Nat) (hs : List Hint) : Nat := (hs.filter fun h => h.kind == k).length

/-- The word admits the MOD hint: it admits each modifier that the hint sets (R48). -/
def modOk (f : Form) (round : BitVec 3) (sat : BitVec 1) (access : BitVec 2) (short : BitVec 1) : Bool :=
  !f.bare && !f.noMod && (round == 0 || f.round) && (sat == 0 || f.sat) && (access == 0 || f.access) && (short == 0 || f.short)

/-- The selector goes where bt says, or reads its table there (R68, R70). -/
def usesBt (n : BitVec 3) : Bool := (1 ≤ n.toNat && n.toNat ≤ 4) || n == 6

/-- The word admits the hint (R48). -/
def hintOk (f : Form) (n : BitVec 3) : Hint → Bool
  | .tgt .. => !f.bare || usesBt n
  | .imm _ => f.imm
  | .live _ => n == 7
  | .jtab .. => n == 6
  | .mod r s a t => modOk f r s a t
  | .sched .. => f.sched
  | .xt _ => f.xt

/-- The group breaks a rule of R48. -/
def groupBad48 (f : Form) (n : BitVec 3) (hs : List Hint) : Bool :=
  hs.any (fun h => !hintOk f n h) || (List.range 7).any (fun k => decide ((if k = 1 then 2 else 1) < kindCount k hs))
    || (n == 6 && kindCount 3 hs == 0) || (f.xt && kindCount 6 hs == 0)

/-- A LIVE map of the A-stream whose bit 16 is set, which names no register of that stream (R72). -/
def liveReserved (st : Strm) : Instr → Bool
  | .live m => st == .a && m.getLsbD 16
  | _ => false

/-- The first subcode of R53 that applies, in the order of R54. -/
def illegal (st : Strm) (user : Bool) (hs : List Hint) (i : Instr) : Option Nat :=
  if unclaimed i then some 0
  else if !streamOk st i then some 2
  else if reservedBad i || liveReserved st i || (!isHint i && groupBad48 (form i) (selector i) hs) then some 1
  else if user && privileged i then some 3
  else if operandBad i then some 4
  else none

/-- What the group tells its consumer (R48, R73). -/
def mkCtx (core : Nat) (st : Strm) (s : State) (q : Seq) (fpctl : Word) : Ctx where
  core := core
  st := st
  pc := q.pc
  cycle := s.cycle
  ns := s.ns
  imms := immsOf q.hints
  rm := q.hints.findSome? fun | .mod r _ _ _ => if r = 0 then none else some (r.toNat - 1) | _ => none
  sat := q.hints.any fun | .mod _ s _ _ => s == 1 | _ => false
  short := q.hints.any fun | .mod _ _ _ t => t == 1 | _ => false
  prio := (q.hints.findSome? fun | .sched p _ => some p | _ => none).getD 0
  grp := (q.hints.findSome? fun | .sched _ g => some g | _ => none).getD 0
  jtab := q.hints.findSome? fun | .jtab r l => some (r, l) | _ => none
  xt := q.hints.findSome? fun | .xt o => some o | _ => none
  live := q.hints.findSome? fun | .live m => some m | _ => none
  fpctl := fpctl
  body := false

/-- A TGT of the group sets bt and the branch condition before the effect (R48, R67). -/
def Seq.takeTgt (q : Seq) : Seq :=
  match q.hints.findSome? fun | .tgt p s o => some (p, s, o) | _ => none with
  | some (p, s, o) => { q with bt := q.pc + 4 * o.signExtend 64, brPred := p, brSense := s }
  | none => q

/-- The address reported for a fault of the group or its consumer: the group's first word (R49). -/
def Seq.groupStart (q : Seq) : Word := if q.hints.isEmpty then q.pc else q.group

/-! ### Next addresses (R68, R70, R78, R80) -/

/-- A loop level of a stream. -/
def Seq.level (q : Seq) (i : Nat) : LoopLevel := q.loops.get i

/-- Change a loop level. -/
def Seq.setLevel (q : Seq) (i : Nat) (l : LoopLevel) : Seq := { q with loops := q.loops.set i l }

/-- The end check (R78): the next address, whether it is a loop return, and the stream; k bounds the levels looked at. -/
def endCheck (q : Seq) (addr next : Word) : Nat → Word × Bool × Seq
  | 0 => (next, false, q)
  | k + 1 =>
    if q.loopDepth = 0 then (next, false, q)
    else
      let lvl := q.loopDepth - 1
      let l := q.level lvl
      if l.frame ≠ q.depth ∨ addr ≠ l.le then (next, false, q)
      else if l.lc = 0 then endCheck { q with loopDepth := lvl } addr next k
      else (l.ls, true, q.setLevel lvl { l with lc := l.lc - 1 })

/-- A taken transfer to next ends the levels it leaves (R80). -/
def leaveLoops (q : Seq) (next : Word) : Nat → Seq
  | 0 => q
  | k + 1 =>
    if q.loopDepth = 0 then q
    else
      let l := q.level (q.loopDepth - 1)
      if l.frame ≠ q.depth ∨ (l.ls.toNat ≤ next.toNat ∧ next.toNat ≤ l.le.toNat) then q
      else leaveLoops { q with loopDepth := q.loopDepth - 1 } next k

/-- A RET from call depth d ends every level that was activated at d or deeper (R80). -/
def endFrames (q : Seq) (d : BitVec 16) : Nat → Seq
  | 0 => q
  | k + 1 =>
    if q.loopDepth = 0 then q
    else if (q.level (q.loopDepth - 1)).frame.toNat < d.toNat then q
    else endFrames { q with loopDepth := q.loopDepth - 1 } d k

/-- CALL slides the window (R68, R91). -/
def callM (x : Ctx) : CM Unit := do
  let c ← get
  let q := c.seq x.st
  raiseIf (q.cur + 2 == q.old) cSpill 0 0 0
  set (c.setSeq x.st { q with
    links := Store.set 0 q.links (q.cur + 1).toNat q.lk
    cur := q.cur + 1
    lk := x.pc + 4
    depth := q.depth + 1 })

/-- RET: the next address, and the window slides back (R68, R80, R91). -/
def retM (x : Ctx) : CM Word := do
  let c ← get
  let q := c.seq x.st
  if q.depth = 0 then
    set (c.setSeq x.st (leaveLoops q q.lk 3))
    pure q.lk
  else do
    raiseIf (q.cur == q.old) cFill 0 0 0
    let q' := endFrames q q.depth 3
    set (c.setSeq x.st { q' with lk := Store.get 0 q.links q.cur.toNat, cur := q.cur - 1, depth := q.depth - 1 })
    pure q.lk

/-- What a physical register will hold once the results that are on their way have arrived, the latest word's last. -/
def Core.coming (c : Core) (st : Strm) (h : Nat) : Option Word :=
  match (c.seq st).wb with
  | some l => if l.home = h then some l.value else none
  | none => if st = .a then none else (c.sauFly ++ c.sauq).reverse.findSome? fun o => match o.work with
    | .result ws _ => (ws.find? fun w => w.1 == h).map fun w => w.2.setWidth 64
    | _ => none

/-- The index register of a JX will hold what the word's own effect has set going, and nothing tells yet what: a split-phase command's token or
destination (R67, R70, R244); q0 is the stream before the effect. Only the leader of a gang resolves a JX (R331). -/
def Core.jxWaits (c : Core) (x : Ctx) (q0 : Seq) : Bool :=
  let r := (x.jtab.getD (0, 0)).1
  let h := (c.seq x.st).home r
  !(match c.gang with | some g => g.pos != 0 | none => false) && r != 0 && (c.seq x.st).pend.contains h && !q0.pend.contains h
    && (c.coming x.st h).isNone

/-- The index register of a JX after the word's own effect, which may itself be the word that has made it pending (R67, R70); q0 is the
stream before the effect. -/
def rdOwn (x : Ctx) (q0 : Seq) (r : BitVec 5) : CM Word := do
  let c ← get
  let h := (c.seq x.st).home r
  if r != 0 && (c.seq x.st).pend.contains h && !q0.pend.contains h then
    match c.coming x.st h with
    | some v => pure v
    | none => stall
  else rdX x r

/-- JX (R70): bt is the table; q0 is the stream before the word's own effect. -/
def jxM (x : Ctx) (q0 : Seq) : CM Word := do
  let (r, len) := x.jtab.getD (0, 0)
  let v ← rdOwn x q0 r
  let ea := q0.bt.toNat + 4 * Nat.min len.toNat v.toNat
  raiseIf (ea % 4 != 0) cAlign 0 (BitVec.ofNat 64 ea) 0
  raiseIf (decide (Config.ulmBytes < ea + 4)) cRange 0 (BitVec.ofNat 64 ea) 0
  let c ← get
  match c.ulmError ea 4 with
  | some (cause, _) => raise cause 0 (BitVec.ofNat 64 ea) 0
  | none => pure ()
  let t := leNat (c.ulmBytes ea 4)
  raiseIf (t % 4 != 0) cAlign 0 (BitVec.ofNat 64 ea) 0
  raiseIf (decide (Config.ulmBytes ≤ t)) cRange 0 (BitVec.ofNat 64 ea) 0
  pure (BitVec.ofNat 64 t)

/-- The next address in sequence, when no transfer is taken. -/
def Next.after (nx : Next) (pc : Word) : Word :=
  match nx with
  | .jump a => a
  | .skip a => a
  | _ => pc + 4

/-- The effect leaves fetch in sequence. -/
def Next.inSequence : Next → Bool
  | .jump _ => false
  | _ => true

/-- The core is a follower of a gang. -/
def Core.follower (c : Core) : Bool := match c.gang with | some g => g.pos != 0 | none => false

/-- The selector is resolved (R67, R68): the next address and whether a transfer is taken. q0 is the stream after the hint group. Only the
leader of a gang resolves a JX (R331). -/
def selectM (x : Ctx) (n : BitVec 3) (q0 : Seq) (nx : Next) : CM (Word × Bool) := do
  match n.toNat with
  | 1 => pure (q0.bt, true)
  | 2 => do
    let c ← get
    let p := (c.seq x.st).pred q0.brPred.toNat
    pure (if p != (q0.brSense == 1) then (q0.bt, true) else (x.pc + 4, false))
  | 3 => do
    let b ← popBit x
    pure (if b then (q0.bt, true) else (x.pc + 4, false))
  | 4 => do
    callM x
    pure (q0.bt, true)
  | 5 => do
    let a ← retM x
    pure (a, true)
  | 6 => do
    let c ← get
    if c.follower then pure (x.pc, true)
    else do
      let a ← jxM x q0
      pure (a, true)
  | _ => pure (nx.after x.pc, false)

/-- Loops after the selector: the ends of R80 for a taken transfer, else the end check of R78. The next address, and whether the fetch
buffer keeps its words (R61). -/
def loopsM (x : Ctx) (n : BitVec 3) (nx : Next) (next : Word) (taken : Bool) : CM (Word × Bool) := do
  let c ← get
  let q := c.seq x.st
  if taken then do
    set (c.setSeq x.st (if n = 1 ∨ n = 2 ∨ n = 3 ∨ n = 6 then leaveLoops q next 3 else q))
    pure (next, false)
  else do
    let (a, ret, q') := endCheck q x.pc next 3
    set (c.setSeq x.st q')
    pure (a, ret || a == x.pc + 4 || (nx.inSequence && a == next))

/-! ### The waits of a safe point (R84, R177, R200, R238) -/

/-- No dispatched operation and no body of the vector sequencer is left (R177). -/
def Core.sauIdle (c : Core) : Bool := c.sauq.isEmpty && c.sauFly.isEmpty && c.vrep.isNone && c.fpRun.isNone

/-- A command of the matrix slice or the points network (R200, R238). -/
def CmdOp.ofE : CmdOp → Bool
  | .mldUlm | .mldStream .. | .mst | .papply .. => true
  | _ => false

/-- Everything that an E-stream safe point waits for is done (R177, R200, R238). -/
def Core.eSafe (c : Core) : Bool := c.sauIdle && c.mat.queue.isEmpty && !c.cmds.any (fun k => k.op.ofE)

/-- A word that the slice finishes before a handler's first word: not a global stream and no MST (R200). -/
def MatWord.local : MatWord → Bool
  | .stream .. => false
  | .mst .. => false
  | _ => true

/-- The E-stream's word has issued and runs until its flags or its join are known (R120, R211): what its safe point waits for was done before. -/
def Core.wordRuns (c : Core) : Bool := c.ownRun || c.join.isSome

/-- A handler's first word may issue: every dispatched operation has completed, and the slice has finished what it has started (R177, R200,
R410). -/
def Core.drained (c : Core) : Bool :=
  c.sauq.isEmpty && c.sauFly.isEmpty && c.fpRun.isNone && !c.mat.queue.any fun e => e.word.local

/-! ### Issue and commit -/

/-- The E-stream may issue under an exchange phase (R310, R311): before it begins only to finish an instruction, and then until the
timetable ends; after the core has left the phase, once the XSELs that it has performed are written (R314). -/
def Core.phaseFree (c : Core) : Bool :=
  match c.xph with
  | some p => if p.left then p.sels.isEmpty else if p.begun then !p.ended else !c.e.hints.isEmpty || c.join.isSome
  | none => true

/-- A follower of a gang issues what reaches it down the chain, a cycle or more after the member before it, once its own GANG has completed
(R330 to R332). -/
def Core.forwarded (c : Core) (q : Seq) (cycle : Nat) : Bool :=
  match c.gang with
  | some g => g.pos == 0 || (match q.fwd with
    | f :: _ => decide (f.born < cycle)
    | [] => match c.wait with | some (.gang ..) => true | _ => false)
  | none => true

/-- The stream can issue its next word. A handler of the E-stream begins once a barrier word of the A-stream has been withdrawn or has completed
(R325, R410). -/
def State.canIssue (s : State) : Bool :=
  let c := s.core s.cur
  let q := c.seq s.strm
  c.run == .running && !q.halted && !q.stopped && !q.parked && !c.roundStop && (!q.drain || (c.drained && !(s.strm == .e && (c.atBarrier || c.barDone))))
    && (s.strm == .a || c.phaseFree) && c.forwarded q s.cycle

/-- The word ends the timetable of an exchange phase (R311): it is neither XMIT nor XSEL, or its cycle lies beyond the phase. -/
def endsTimetable (plen : Nat) : Instr → Bool
  | .xmit c .. => decide (plen ≤ c.toNat)
  | .xsel c .. => decide (plen ≤ c.toNat)
  | _ => true

/-- The E-stream is in the timetable of a phase that has begun, whose length it gives (R311). -/
def State.inTimetable (s : State) : Option Nat :=
  match s.strm, (s.core s.cur).xph with
  | .e, some p => if p.begun && !p.left && !p.ended then some p.plen else none
  | _, _ => none

/-- The timetable ends here (R311). -/
def State.endTimetable (s : State) : State := s.modCore s.cur fun c => { c with xph := c.xph.map fun p => { p with ended := true } }

/-- A share is at or below a margin (R399). -/
def marginMet (left : Word) (margin : BitVec 32) : Bool := margin != 0 && decide (left.toNat ≤ margin.toNat)

/-- A word lowers the share of a tournament (R389, R390). -/
def Core.countIssue (c : Core) : Core :=
  if c.scope.1 = 0 then c
  else if c.ctl.tshare = 0 then { c with ctl := { c.ctl with over_ := if c.ctl.over_ = 0xFFFFFFFF then c.ctl.over_ else c.ctl.over_ + 1 } }
  else
    let left := c.ctl.tshare - 1
    let warn := marginMet left c.ctl.twarn && !marginMet c.ctl.tshare c.ctl.twarn
    { c with ctl := { c.ctl with
      tshare := left
      events := if warn then c.ctl.events ||| 8 else c.ctl.events
      allowStop := c.ctl.allowStop || left == 0 } }

/-- What the fetch buffer holds after a transfer: the words that were fetched ahead along the branch target, when it is where fetch goes (R61). -/
def Seq.landed (q : Seq) (next : Nat) : List (Nat × Insn) :=
  match q.tbuf with
  | p :: r => if p.1 = next then p :: r else []
  | [] => []

/-- The stream after a word has issued with next address next. -/
def Seq.advance (q : Seq) (x : Ctx) (n : BitVec 3) (next : Word) (keep : Bool) : Seq :=
  { q with
    pc := next
    hints := []
    issued := x.pc
    buf := if keep then q.buf else q.landed next.toNat
    tbuf := if keep && !usesBt n && n != 5 then q.tbuf else []
    safeAt := if n = 7 then some (x.pc.setWidth 19) else none
    tried := false
    live := if n = 7 then x.live.getD 0xFFFFF else q.live
    stopped := q.stopped || q.stopNext
    stopNext := false
    jx := false
    waiting := false
    qstall := false
    starved := false
    drain := false }

/-- The control state that a leader forwards (R331). -/
def Seq.toCtl (q : Seq) : Ctl where
  pc := q.pc
  bt := q.bt
  lk := q.lk
  brPred := q.brPred
  brSense := q.brSense
  depth := q.depth
  loopDepth := q.loopDepth
  loops := q.loops

/-- A follower takes the leader's control state with the word it has performed (R331). -/
def Seq.follow (q : Seq) : Seq :=
  match q.fwd with
  | f :: r =>
    { q with
      pc := f.after.pc
      bt := f.after.bt
      lk := f.after.lk
      brPred := f.after.brPred
      brSense := f.after.brSense
      depth := f.after.depth
      loopDepth := f.after.loopDepth
      loops := f.after.loops
      fwd := r }
  | [] => q

/-- The followers of a leader, by site core number (R331). -/
def State.followers (s : State) (core : Nat) : List Nat :=
  match (s.core core).gang with
  | some g => if g.pos = 0 then (s.cores.filter fun p => match p.2.gang with | some h => h.leader == g.leader && h.pos != 0 | none => false).map Prod.fst else []
  | none => []

/-- The member that follows in the forwarding chain, which runs in position order (R331). -/
def State.successor (s : State) (core : Nat) : Option Nat :=
  match (s.core core).gang with
  | some g => (s.cores.find? fun p => match p.2.gang with | some h => h.leader == g.leader && h.pos == g.pos + 1 | none => false).map Prod.fst
  | none => none

/-- A member of a gang stalls while the buffer of the member after it is full (R332). -/
def State.fwdFull (s : State) (core : Nat) (st : Strm) : Bool :=
  match s.successor core with
  | some n => decide (8 ≤ ((s.core n).seq st).fwd.length)
  | none => false

/-- A word that a member has issued goes on to the member after it, with the leader's control state (R331). The chain passes a word on as it
issues, which keeps position p at least p cycles behind the leader (R332; DEDUCED). -/
def forward (s : State) (x : Ctx) (w : Insn) : State :=
  match s.successor x.core with
  | some n =>
    let after := ((s.core x.core).seq x.st).toCtl
    s.modCore n fun c => c.modSeq x.st fun q => { q with fwd := q.fwd ++ [⟨w, x.pc, after, s.cycle⟩] }
  | none => s

/-- The word reaches the member after: its member is the leader, or has taken it from its own buffer. -/
def State.passesOn (s : State) (x : Ctx) : Bool := !(s.core x.core).follower || !((s.core x.core).seq x.st).fwd.isEmpty

/-- The word has issued (R67): its stream goes on, and the next member of a gang gets it. -/
def commit (s : State) (x : Ctx) (i : Instr) (n : BitVec 3) (next : Word) (keep : Bool) : State :=
  let passes := s.passesOn x
  let s := s.modCore x.core fun c =>
    let c := c.countIssue.modSeq x.st fun q => q.advance x n next keep
    let c := { c with ctl := { c.ctl with wdogCount := 0 } }
    if c.follower then c.modSeq x.st Seq.follow else c
  if passes then forward s x ((encode i).getD 0) else s

/-- The word's trap, taken from the state before the word (R49, R67, R410). -/
def wordTrap (s : State) (x : Ctx) (start : Word) (cause sub : Nat) (addr info : Word) (word : Option Word) : State :=
  takeTrap s x.core x.st {
    cause := cause
    sub := sub
    addr := addr
    info := info
    word := (word.getD x.pc).setWidth 19
    ret := (if cause = cTrap then x.pc + 4 else if cause = cBrk then x.pc else start).setWidth 19
    async := false
    vrep := none }

/-- The stream stands at a word that did not issue (R60, R81, R406): stuck tells that it is stalled on an inter-stream queue and on nothing else.
A wait with selector SP is a safe point, unless a live punty entry would make it raise LIVE_MAP (R84). -/
def standing (s : State) (x : Ctx) (n : BitVec 3) (why : Why) (stuck : Bool) : State :=
  s.modCore x.core fun c => c.modSeq x.st fun q =>
    let safe := why == Why.outside && n == 7 && q.punty.isEmpty
    { q with
      qstall := stuck
      starved := why == Why.empty
      waiting := why == Why.outside && n != 7 || q.jx || x.st == Strm.e && c.ownRun
      safeAt := if safe then some (x.pc.setWidth 19) else none
      tried := false
      live := if safe then x.live.getD 0xFFFFF else q.live }

/-- The word keeps waiting after a change of its own: its stream's control state stands as it was. -/
def holding (s s' : State) (x : Ctx) (n : BitVec 3) : State :=
  let q := (s.core x.core).seq x.st
  standing (s'.modCore x.core fun c => c.modSeq x.st fun r =>
    { r with bt := q.bt, brPred := q.brPred, brSense := q.brSense, hints := q.hints, pc := q.pc }) x n .outside false

/-- The word has issued and runs until its flags, its join or its own JX index are known, and its stream issues nothing meanwhile (R67, R120, R211):
it is no safe point, and a trap of the other stream lets it finish. -/
def runningOn (s s' : State) (x : Ctx) : State :=
  let q := (s.core x.core).seq x.st
  s'.modCore x.core fun c => { c with ctl := { c.ctl with wdogCount := 0 } }.modSeq x.st fun r =>
    { r with
      bt := q.bt
      brPred := q.brPred
      brSense := q.brSense
      qstall := false
      starved := false
      waiting := true
      safeAt := none
      tried := false }

/-- The word's short-lived results and those of earlier words are live punty entries (R95). -/
def Core.livePunty (c : Core) (st : Strm) : Bool := c.puntyUse st != 0

/-- The parts of R67 that follow an effect: the selector and the loop ends. q0 is the stream before the effect. -/
def resolveM (x : Ctx) (n : BitVec 3) (q0 : Seq) (nx : Next) : DM (Next × Word × Bool) := do
  let r ← onCore x.core do
    let (next, taken) ← selectM x n q0 nx
    loopsM x n nx next taken
  pure (nx, r.1, r.2)

/-- The parts of R67 that lie around an effect: pops, effect, selector, loop ends. A safe point waits for the E-stream's work (R177, R200, R238),
and raises LIVE_MAP if it issues with a live punty entry (R84). A JX whose index the word's own command will deliver waits for it with its effect
done (R70). -/
def performM (x : Ctx) (n : BitVec 3) (eff : Ctx → DM Next) : DM (Next × Word × Bool) := do
  onCore x.core do
    modSeqM x.st Seq.takeTgt
    let c ← get
    stallIf (n == 7 && x.st == .e && !c.eSafe && !c.wordRuns)
    if n = 3 then do
      let c ← get
      if (c.bits x.st).isEmpty then stallPop else pure ()
    else pure ()
  let s ← get
  let c0 := s.core x.core
  if (c0.seq x.st).jx then resolveM x n (c0.seq x.st) .seq
  else do
    let nx ← eff x
    match nx with
    | .hold => pure (nx, 0, false)
    | .run => pure (nx, 0, false)
    | _ => do
      onCore x.core (raiseIf (n == 7 && c0.livePunty x.st) cLiveMap 0 0 0)
      let s1 ← get
      if n == 6 && (s1.core x.core).jxWaits x (c0.seq x.st) then do
        set (s1.modCore x.core fun c => c.modSeq x.st fun q => { q with jx := true })
        pure (.run, 0, false)
      else resolveM x n (c0.seq x.st) nx

/-- INFO of a trap that a word raises: for ILLEGAL_INSTRUCTION the word itself (R53), but where VREP names a word of its body (R194). -/
def trapInfo (i : Instr) (cause : Nat) (info : BitVec 64) (word : Option Word) : BitVec 64 :=
  if cause = cIllegal && word.isNone then ((encode i).getD 0).setWidth 64 else info

/-- The core as it would be if every register could be read: no expired mark and no error. -/
def Core.readable (c : Core) (st : Strm) : Core := { c.modSeq st fun q => { q with expired := [] } with regBad := [] }

/-- What a word waits for before an operand can make it trap: a word has no effect until every condition of its issue holds (R60). -/
def firstWait (s : State) (x : Ctx) (n : BitVec 3) (eff : Ctx → DM Next) : Option Why :=
  let c := s.core x.core
  if (c.seq x.st).expired.isEmpty && c.regBad.isEmpty then none
  else match performM x n eff (s.setCore x.core (c.readable x.st)) with
    | .error (.wait .outside) => none
    | .error (.wait w) => some w
    | _ => none

/-- Every queue between the streams holds an entry and has room. -/
def Core.unqueued (c : Core) : Core := { c with q := ⟨[some 0], [some 0], [0], [.row 0], [true], [true]⟩ }

/-- The word would not wait if the queues let it: it is stalled only on a queue (R406). -/
def onlyQueue (s : State) (x : Ctx) (n : BitVec 3) (eff : Ctx → DM Next) : Bool :=
  match performM x n eff (s.modCore x.core Core.unqueued) with
  | .error (.wait _) => false
  | _ => true

/-- The word waits (R60). -/
def waits (s : State) (x : Ctx) (n : BitVec 3) (eff : Ctx → DM Next) (w : Why) : State := standing s x n w (w.onQueue && onlyQueue s x n eff)

/-- A core that was taken to a handler from its wait as a runner waits no more once its A-stream has issued another word outside a handler (R345). -/
def Core.leaveRunner (c c0 : Core) (x : Ctx) : Core :=
  if x.st == .a && !c0.ctl.ub && !c0.ctl.sb && c.runnerAt.any (fun r => r.2 != x.pc) then { c with runnerAt := none } else c

/-- A word that can be decided on issues, waits or traps (R60, R67). -/
def tryWord (i : Instr) (s : State) (x : Ctx) (eff : Ctx → DM Next) : State :=
  let n := selector i
  match firstWait s x n eff with
  | some w => waits s x n eff w
  | none => match performM x n eff s with
    | .ok ((.hold, _, _), s') => holding s s' x n
    | .ok ((.run, _, _), s') => runningOn s s' x
    | .ok ((_, next, keep), s') => commit (s'.modCore x.core fun c => c.leaveRunner (s.core x.core) x) x i n next keep
    | .error (.wait w) => waits s x n eff w
    | .error (.trap cause sub addr info word) => wordTrap s x ((s.core x.core).seq x.st).groupStart cause sub addr (trapInfo i cause info word) word

/-- A word issues, waits or traps (R60, R67). -/
def issue (i : Instr) (eff : Ctx → DM Next) (s : State) : Out :=
  if !s.canIssue || s.fwdFull s.cur s.strm then .next s
  else if (match s.inTimetable with | some n => endsTimetable n i | none => false) then .next s.endTimetable
  else
    let c := s.core s.cur
    let q := c.seq s.strm
    let x := mkCtx s.cur s.strm s q c.ctl.fpctl
    match illegal s.strm (!c.ctl.lvl) q.hints i with
    | some sub => .next (wordTrap s x q.groupStart cIllegal sub 0 (((encode i).getD 0).setWidth 64) none)
    | none => .next (tryWord i s x eff)

/-- A word whose effect lies in its core. -/
def issueC (i : Instr) (eff : Ctx → CM Next) (s : State) : Out := issue i (fun x => onCore x.core (eff x)) s

/-- A word whose effect lies in its core and that goes on with its selector. -/
def issueU (i : Instr) (eff : Ctx → CM Unit) (s : State) : Out := issueC i (fun x => do eff x; pure .seq) s

/-- A hint word issues: it joins the group, and the end check runs (R47, R49, R78). -/
def issueHint (i : Instr) (h : Hint) (s : State) : Out :=
  if !s.canIssue || s.fwdFull s.cur s.strm then .next s
  else if s.inTimetable.isSome then .next s.endTimetable
  else
    let c := s.core s.cur
    let q := c.seq s.strm
    let x := mkCtx s.cur s.strm s q c.ctl.fpctl
    match illegal s.strm (!c.ctl.lvl) q.hints i with
    | some sub => .next (wordTrap s x q.groupStart cIllegal sub 0 (((encode i).getD 0).setWidth 64) none)
    | none =>
      let (a, ret, q') := endCheck q x.pc (x.pc + 4) 3
      let s' := s.setCore s.cur (c.setSeq s.strm q')
      let s' := commit s' x i 0 a true
      if (ret && !c.follower) || ((s'.core s.cur).seq s.strm).pc != x.pc + 4 then .next s'
      else .next (s'.modCore s.cur fun c => c.modSeq s.strm fun r => { r with hints := q.hints ++ [h], group := q.groupStart })

end Sys2Proof.Machine
end

