-- ==== Sys2Proof/Machine/Float.lean ====
section
/-!
DEFINITION. Number formats and rounding (R110 to R117): values are exact (a sign and a quotient of naturals), and every
result is rounded once, at the end.
-/

namespace Sys2Proof.Machine

/-! ### Formats -/

/-- A floating-point format (R112). kind 0 has infinities and NaNs, kind 1 is E4M3 (one NaN, no infinity), kind 2 has neither. -/
structure Fmt where
  eb : Nat
  mb : Nat
  bias : Nat
  kind : Nat
  deriving DecidableEq, Repr

/-- FP64. -/
def Fmt.f64 : Fmt := ⟨11, 52, 1023, 0⟩
/-- FP32. -/
def Fmt.f32 : Fmt := ⟨8, 23, 127, 0⟩
/-- BF16. -/
def Fmt.bf16 : Fmt := ⟨8, 7, 127, 0⟩
/-- FP16. -/
def Fmt.f16 : Fmt := ⟨5, 10, 15, 0⟩
/-- FP8 E4M3. -/
def Fmt.e4m3 : Fmt := ⟨4, 3, 7, 1⟩
/-- FP8 E5M2. -/
def Fmt.e5m2 : Fmt := ⟨5, 2, 15, 0⟩
/-- FP6 E3M2. -/
def Fmt.e3m2 : Fmt := ⟨3, 2, 3, 2⟩
/-- FP6 E2M3. -/
def Fmt.e2m3 : Fmt := ⟨2, 3, 1, 2⟩
/-- FP4 E2M1. -/
def Fmt.e2m1 : Fmt := ⟨2, 1, 1, 2⟩

/-- The four formats of the arithmetic words by their code (R141). -/
def Fmt.ofCode (f : BitVec 2) : Fmt :=
  if f = 0 then .f64 else if f = 1 then .f32 else if f = 2 then .bf16 else .f16

/-- Width of an encoding. -/
def Fmt.width (f : Fmt) : Nat := 1 + f.eb + f.mb

/-- Exponent of the smallest normal. -/
def Fmt.emin (f : Fmt) : Int := 1 - (f.bias : Int)

/-- Encoding of the largest finite magnitude. -/
def Fmt.maxMag (f : Fmt) : Nat :=
  match f.kind with
  | 0 => (2 ^ f.eb - 1) * 2 ^ f.mb - 1
  | 1 => 2 ^ (f.eb + f.mb) - 2
  | _ => 2 ^ (f.eb + f.mb) - 1

/-- The canonical NaN (R114); 0 in a format without NaNs. -/
def Fmt.nan (f : Fmt) : Nat :=
  match f.kind with
  | 0 => (2 ^ f.eb - 1) * 2 ^ f.mb + 2 ^ (f.mb - 1)
  | 1 => 2 ^ (f.eb + f.mb) - 1
  | _ => 0

/-- The encoding of an infinity of kind 0, without its sign. -/
def Fmt.infMag (f : Fmt) : Nat := (2 ^ f.eb - 1) * 2 ^ f.mb

/-- Put a sign before a magnitude. -/
def Fmt.signed (f : Fmt) (neg : Bool) (mag : Nat) : Nat := if neg then 2 ^ (f.eb + f.mb) + mag else mag

/-! ### Values -/

/-- An exact value: a NaN (sig for a signalling one), an infinity, or (-1)^neg * num / den. -/
inductive Val where
  | nan (sig : Bool)
  | inf (neg : Bool)
  | fin (neg : Bool) (num den : Nat)
  deriving DecidableEq, Repr

/-- m * 2^k as a quotient. -/
def scaleNat (m : Nat) (k : Int) : Nat × Nat :=
  if 0 ≤ k then (m * 2 ^ k.toNat, 1) else (m, 2 ^ (-k).toNat)

/-- The value of an encoding (R112). -/
def Fmt.decode (f : Fmt) (b : Nat) : Val :=
  let m := b % 2 ^ f.mb
  let e := b / 2 ^ f.mb % 2 ^ f.eb
  let neg := b / 2 ^ (f.eb + f.mb) % 2 = 1
  if f.kind = 0 ∧ e = 2 ^ f.eb - 1 then
    if m = 0 then .inf neg else .nan (decide (m < 2 ^ (f.mb - 1)) && decide (8 < f.width))
  else if f.kind = 1 ∧ e = 2 ^ f.eb - 1 ∧ m = 2 ^ f.mb - 1 then .nan false
  else if e = 0 then let r := scaleNat m (f.emin - f.mb); .fin neg r.1 r.2
  else let r := scaleNat (2 ^ f.mb + m) ((e : Int) - f.bias - f.mb); .fin neg r.1 r.2

/-- The encoding is subnormal. -/
def Fmt.isSub (f : Fmt) (b : Nat) : Bool :=
  let mag := b % 2 ^ (f.eb + f.mb)
  mag != 0 && decide (mag < 2 ^ f.mb)

/-- Decode an input under the subnormal policy (R116). -/
def Fmt.input (f : Fmt) (sub b : Nat) : Val :=
  if (sub = 1 ∨ sub = 3) ∧ f.isSub b = true then .fin (decide (b / 2 ^ (f.eb + f.mb) % 2 = 1)) 0 1 else f.decode b

/-- The value of an integer. -/
def Val.ofInt (i : Int) : Val := .fin (decide (i < 0)) i.natAbs 1

/-- A NaN. -/
def Val.isNan : Val → Bool
  | .nan _ => true
  | _ => false

/-- A signalling NaN. -/
def Val.isSig : Val → Bool
  | .nan s => s
  | _ => false

/-- The value is zero. -/
def Val.isZero : Val → Bool
  | .fin _ n _ => n == 0
  | _ => false

/-- The sign. -/
def Val.neg : Val → Bool
  | .nan _ => false
  | .inf s => s
  | .fin s _ _ => s

/-- The value with its sign reversed. -/
def Val.negate : Val → Val
  | .nan s => .nan s
  | .inf s => .inf !s
  | .fin s n d => .fin (!s) n d

/-- The magnitude. -/
def Val.abs : Val → Val
  | .nan s => .nan s
  | .inf _ => .inf false
  | .fin _ n d => .fin false n d

/-- Sign of a < b, for values that are not NaNs; -0 and +0 compare equal. -/
def Val.lt : Val → Val → Bool
  | .fin s n d, .fin t m c =>
    decide ((if s then -(n * c : Int) else (n * c : Int)) < (if t then -(m * d : Int) else (m * d : Int)))
  | .inf s, .inf t => s && !t
  | .inf s, _ => s
  | _, .inf t => !t
  | _, _ => false

/-- Equality of values that are not NaNs. -/
def Val.eq (a b : Val) : Bool := !a.isNan && !b.isNan && !a.lt b && !b.lt a

/-! ### Flags -/

/-- Inexact (R114). -/
def fNX : BitVec 5 := 1
/-- Underflow (R114). -/
def fUF : BitVec 5 := 2
/-- Overflow (R114). -/
def fOF : BitVec 5 := 4
/-- Divide by zero (R114). -/
def fDZ : BitVec 5 := 8
/-- Invalid (R114). -/
def fNV : BitVec 5 := 16

/-- A flag when a condition holds. -/
def flagIf (b : Bool) (f : BitVec 5) : BitVec 5 := if b then f else 0

/-! ### Rounding -/

/-- The rounding modes (R115), by the codes of FPCTL.rm (R118). -/
inductive Rm where
  | rne
  | rtz
  | rdn
  | rup
  | sr
  deriving DecidableEq, Repr

/-- The mode with a code of FPCTL.rm; 5 to 7 cannot stand there (R118). -/
def Rm.ofCode (n : Nat) : Rm := if n = 1 then .rtz else if n = 2 then .rdn else if n = 3 then .rup else if n = 4 then .sr else .rne

/-- floor(log2(n / d)) for n, d > 0. -/
def log2Quot (n d : Nat) : Int :=
  let l : Int := (n.log2 : Int) - d.log2
  let below := if 0 ≤ l then decide (n < d * 2 ^ l.toNat) else decide (n * 2 ^ (-l).toNat < d)
  if below then l - 1 else l

/-- Round the quotient n / d to an integer (R115, R117): the integer and whether it is exact. -/
def roundInt (rm : Rm) (neg : Bool) (draw : BitVec 32) (n d : Nat) : Nat × Bool :=
  let k := n / d
  let r := n % d
  let up := match rm with
    | .rne => decide (d < 2 * r) || (decide (2 * r = d) && decide (k % 2 = 1))
    | .rtz => false
    | .rdn => neg && decide (r ≠ 0)
    | .rup => !neg && decide (r ≠ 0)
    | .sr => decide (draw.toNat < r * 2 ^ 32 / d)
  (if up then k + 1 else k, decide (r = 0))

/-- Round n / d on the grid of multiples of 2^q. -/
def roundGrid (rm : Rm) (neg : Bool) (draw : BitVec 32) (n d : Nat) (q : Int) : Nat × Bool :=
  if 0 ≤ q then roundInt rm neg draw n (d * 2 ^ q.toNat) else roundInt rm neg draw (n * 2 ^ (-q).toNat) d

/-- What a finite result beyond the largest finite value is delivered as (R115, the table of step 3). -/
def Fmt.overflow (f : Fmt) (rm : Rm) (neg sat : Bool) : Nat :=
  let toInf := match rm with
    | .rne | .sr => true
    | .rtz => false
    | .rdn => neg
    | .rup => !neg
  if f.kind = 2 then f.signed neg f.maxMag
  else if sat || !toInf then f.signed neg f.maxMag
  else if f.kind = 1 then f.nan else f.signed neg f.infMag

/-- The result is non-zero and, rounded with an unbounded exponent, lies below the smallest normal (R114). -/
def Fmt.tiny (f : Fmt) (rm : Rm) (neg : Bool) (draw : BitVec 32) (n d : Nat) : Bool :=
  let l := log2Quot n d
  decide (l < f.emin) && !(decide (l = f.emin - 1) && decide ((roundGrid rm neg draw n d (l - f.mb)).1 = 2 ^ (f.mb + 1)))

/-- A finite value larger than the largest finite one of the format. -/
def Fmt.beyond (f : Fmt) (n d : Nat) : Bool :=
  match f.decode f.maxMag with
  | .fin _ m c => decide (m * d < n * c)
  | _ => false

/-- round_to (R115): the encoding and the flags. -/
def Fmt.round (f : Fmt) (v : Val) (rm : Rm) (sat : Bool) (draw : BitVec 32) : Nat × BitVec 5 :=
  match v with
  | .nan s => if f.kind = 2 then (0, fNV) else (f.nan, flagIf s fNV)
  | .inf neg =>
    if f.kind = 0 ∧ sat = false then (f.signed neg f.infMag, 0)
    else if f.kind = 1 ∧ sat = false then (f.nan, fNX)
    else (f.signed neg f.maxMag, fNX)
  | .fin neg n d =>
    if n = 0 then (f.signed neg 0, 0)
    else
      let rm' := if rm = .sr ∧ f.beyond n d = true then .rne else rm
      let l := log2Quot n d
      let e := if l < f.emin then f.emin else l
      let r := roundGrid rm' neg draw n d (e - f.mb)
      let mag := (e - f.emin).toNat * 2 ^ f.mb + r.1
      if f.maxMag < mag then (f.overflow rm' neg sat, fOF ||| fNX)
      else if r.2 then (f.signed neg mag, 0)
      else (f.signed neg mag, fNX ||| flagIf (f.tiny rm' neg draw n d) fUF)

/-- Deliver a result under the subnormal policy (R116). -/
def Fmt.output (f : Fmt) (sub : Nat) (r : Nat × BitVec 5) : Nat × BitVec 5 :=
  if (sub = 2 ∨ sub = 3) ∧ f.isSub r.1 = true then
    (f.signed (decide (r.1 / 2 ^ (f.eb + f.mb) % 2 = 1)) 0, r.2 ||| fUF ||| fNX)
  else r

/-- Round into an integer range (R111). Stochastic rounding applies to every value, also beyond the range (DESIGN CHOICE: R146 and R117 give no
cut-off for integers). -/
def roundToInt (lo hi : Int) (v : Val) (rm : Rm) (draw : BitVec 32) : Int × BitVec 5 :=
  match v with
  | .nan _ => (0, fNV)
  | .inf neg => (if neg then lo else hi, fNV)
  | .fin neg n d =>
    let r := roundInt rm neg draw n d
    let i : Int := if neg then -(r.1 : Int) else r.1
    if i < lo then (lo, fNV) else if hi < i then (hi, fNV) else (i, if r.2 then 0 else fNX)

/-! ### Exact operations: a value and the flags that the operands raise -/

/-- Flags of the inputs: a signalling NaN is invalid (R114). -/
def sigFlag (vs : List Val) : BitVec 5 := flagIf (vs.any Val.isSig) fNV

/-- The exact sum; zneg is the sign of an exact zero sum of unlike signs (R141). -/
def Val.add (zneg : Bool) (a b : Val) : Val × BitVec 5 :=
  match a, b with
  | .nan _, _ | _, .nan _ => (.nan false, sigFlag [a, b])
  | .inf s, .inf t => if s = t then (.inf s, 0) else (.nan false, fNV)
  | .inf s, .fin .. => (.inf s, 0)
  | .fin .., .inf t => (.inf t, 0)
  | .fin s n d, .fin t m c =>
    if n = 0 ∧ m = 0 then (.fin (if s = t then s else zneg) 0 1, 0)
    else
      let x : Int := if s then -(n * c : Int) else (n * c : Int)
      let y : Int := if t then -(m * d : Int) else (m * d : Int)
      let z := x + y
      if z = 0 then (.fin zneg 0 1, 0) else (.fin (decide (z < 0)) z.natAbs (d * c), 0)

/-- The exact product. Its sign is the exclusive or of the operands' signs, also where one operand is an integer 0 and the other is negative
(DESIGN CHOICE: R124 does not say whether the zero of an integer format has a sign in a product). -/
def Val.mul (a b : Val) : Val × BitVec 5 :=
  match a, b with
  | .nan _, _ | _, .nan _ => (.nan false, sigFlag [a, b])
  | .inf s, .inf t => (.inf (s != t), 0)
  | .inf s, .fin t m _ => if m = 0 then (.nan false, fNV) else (.inf (s != t), 0)
  | .fin s n _, .inf t => if n = 0 then (.nan false, fNV) else (.inf (s != t), 0)
  | .fin s n d, .fin t m c => (.fin (s != t) (n * m) (d * c), 0)

/-- x * y + z exactly (R143): 0 * inf is invalid even beside a quiet NaN. -/
def Val.fma (zneg : Bool) (x y z : Val) : Val × BitVec 5 :=
  let p := x.mul y
  if p.2 ≠ 0 ∧ x.isNan = false ∧ y.isNan = false then (.nan false, fNV)
  else if x.isNan || y.isNan || z.isNan then (.nan false, sigFlag [x, y, z])
  else p.1.add zneg z

/-- The exact quotient (R144). -/
def Val.div (a b : Val) : Val × BitVec 5 :=
  match a, b with
  | .nan _, _ | _, .nan _ => (.nan false, sigFlag [a, b])
  | .inf _, .inf _ => (.nan false, fNV)
  | .inf s, .fin t _ _ => (.inf (s != t), 0)
  | .fin s _ _, .inf t => (.fin (s != t) 0 1, 0)
  | .fin s n d, .fin t m c =>
    if m = 0 then (if n = 0 then (.nan false, fNV) else (.inf (s != t), fDZ))
    else (.fin (s != t) (n * c) (d * m), 0)

/-- floor of the square root, by bits from the top; structural on the number of bits. -/
def sqrtBits (n : Nat) : Nat → Nat → Nat
  | 0, r => r
  | k + 1, r => let c := r + 2 ^ k; if c * c ≤ n then sqrtBits n k c else sqrtBits n k r

/-- floor of the square root. -/
def natSqrt (n : Nat) : Nat := sqrtBits n (n.log2 / 2 + 1) 0

/-- The square root of n / d, exact where it is rational with the given scale and otherwise a value that every rounding
of this chapter treats as the exact root: it lies in the same gap of the grid of 2^-1400. -/
def sqrtQuot (n d : Nat) : Nat × Nat :=
  let s := natSqrt (n * 2 ^ 2800 / d)
  if s * s * d = n * 2 ^ 2800 then (s, 2 ^ 1400) else (2 * s + 1, 2 ^ 1401)

/-- The square root (R144). -/
def Val.sqrt (a : Val) : Val × BitVec 5 :=
  match a with
  | .nan s => (.nan false, flagIf s fNV)
  | .inf s => if s then (.nan false, fNV) else (.inf false, 0)
  | .fin s n d =>
    if n = 0 then (.fin s 0 1, 0)
    else if s then (.nan false, fNV)
    else let r := sqrtQuot n d; (.fin false r.1 r.2, 0)

/-- 1 / x (R180). -/
def Val.rcp (a : Val) : Val × BitVec 5 := (Val.fin false 1 1).div a

/-- 1 / sqrt x (R180). -/
def Val.rsqrt (a : Val) : Val × BitVec 5 :=
  match a with
  | .nan s => (.nan false, flagIf s fNV)
  | .inf s => if s then (.nan false, fNV) else (.fin false 0 1, 0)
  | .fin s n d =>
    if n = 0 then (.inf s, fDZ)
    else if s then (.nan false, fNV)
    else let r := sqrtQuot d n; (.fin false r.1 r.2, 0)

/-- The lesser (less) or the greater, with -0 below +0 (R142). -/
def Val.minMax (less : Bool) (a b : Val) : Val × BitVec 5 :=
  let fl := sigFlag [a, b]
  if a.isNan && b.isNan then (.nan false, fl)
  else if a.isNan then (b, fl)
  else if b.isNan then (a, fl)
  else
    let aLess := a.lt b || (!b.lt a && a.neg && !b.neg)
    (if aLess = less then a else b, fl)

/-- Comparison kinds of FCMP (R145): 1 eq, 2 lt, 3 le, 4 un; the result and the flags. -/
def Val.cmp (k : Nat) (a b : Val) : Bool × BitVec 5 :=
  let un := a.isNan || b.isNan
  if k = 1 then (!un && a.eq b, sigFlag [a, b])
  else if k = 2 then (!un && a.lt b, flagIf un fNV)
  else if k = 3 then (!un && !b.lt a, flagIf un fNV)
  else (un, sigFlag [a, b])

/-- The one-hot class (R147). -/
def Fmt.classOf (f : Fmt) (b : Nat) : Nat :=
  match f.decode b with
  | .nan s => if s then 2 ^ 8 else 2 ^ 9
  | .inf s => if s then 2 ^ 0 else 2 ^ 7
  | .fin s n _ =>
    if n = 0 then (if s then 2 ^ 3 else 2 ^ 4)
    else if f.isSub b then (if s then 2 ^ 2 else 2 ^ 5)
    else if s then 2 ^ 1 else 2 ^ 6

/-! ### The stochastic generator -/

/-- One draw (R117): the next state and bits [63:32] of it. -/
def rngNext (s : Word) : Word × BitVec 32 :=
  let s1 := s ^^^ (s <<< 13)
  let s2 := s1 ^^^ (s1 >>> 7)
  let s3 := s2 ^^^ (s2 <<< 17)
  (s3, s3.extractLsb' 32 32)

/-- n draws in order. -/
def rngDraws : Nat → Word → Word × List (BitVec 32)
  | 0, s => (s, [])
  | n + 1, s =>
    let r := rngNext s
    let t := rngDraws n r.1
    (t.1, r.2 :: t.2)

/-! ### Conversion codes (R146, R182) -/

/-- What a conversion code names: a floating-point format, or an integer range of a width. -/
inductive Conv where
  | flt (f : Fmt)
  | int (signed : Bool) (w : Nat)
  | bp (k : Nat)
  deriving DecidableEq, Repr

/-- The format of a code. -/
def Conv.ofCode (c : BitVec 5) : Conv :=
  match c.toNat with
  | 0 => .flt .f64
  | 1 => .flt .f32
  | 2 => .flt .bf16
  | 3 => .flt .f16
  | 4 => .flt .e4m3
  | 5 => .flt .e5m2
  | 6 => .flt .e3m2
  | 7 => .flt .e2m3
  | 8 => .flt .e2m1
  | 16 => .int true 8
  | 17 => .int true 16
  | 18 => .int true 32
  | 19 => .int true 64
  | 20 => .int false 8
  | 21 => .int false 16
  | 22 => .int false 32
  | 23 => .int false 64
  | n => .bp (n - 22)

/-- Sign-extend the low w bits. -/
def sextNat (w n : Nat) : Int := let m := n % 2 ^ w; if w ≠ 0 ∧ 2 ^ (w - 1) ≤ m then (m : Int) - 2 ^ w else m

/-- The low w bits of an integer in two's complement. -/
def toBits (w : Nat) (i : Int) : Nat := (i % (2 ^ w : Int)).toNat

/-- The value of a source element (R128, R146). -/
def Conv.value (sub : Nat) (n : Nat) : Conv → Val
  | .flt f => f.input sub (n % 2 ^ f.width)
  | .int s w => .ofInt (if s then sextNat w n else ((n % 2 ^ w : Nat) : Int))
  | .bp k => .ofInt (sextNat k n)

/-- The conversion takes a draw under stochastic rounding (R146): into a floating-point format, or from one. -/
def Conv.draws (dst src : Conv) : Bool :=
  match dst, src with
  | .flt _, _ => true
  | _, .flt _ => true
  | _, _ => false

/-- Convert a value into the format: the encoding in the format's own width, and the flags (R146, R182). -/
def Conv.convert (dst : Conv) (sub : Nat) (v : Val) (rm : Rm) (sat : Bool) (draw : BitVec 32) : Nat × BitVec 5 :=
  match dst with
  | .flt f => f.output sub (f.round v rm sat draw)
  | .int s w =>
    let r := roundToInt (if s then -(2 ^ (w - 1) : Int) else 0) (if s then 2 ^ (w - 1) - 1 else 2 ^ w - 1) v rm draw
    (toBits w r.1, r.2)
  | .bp k =>
    let r := roundToInt (-(2 ^ (k - 1) : Int)) (2 ^ (k - 1) - 1) v rm draw
    (toBits k r.1, r.2)

end Sys2Proof.Machine
end

