-- ==== Sys2Proof/Machine/Flags.lean ====
section
/-!
DEFINITION. The floating-point status (R114, R117, R118, R120): the mode, the policy and the enables in force for a word, its draws,
and what becomes of the flags it raises; and the predicates that comparisons write (R137, R145).
-/

namespace Sys2Proof.Machine

/-- FPCTL.sub (R118). -/
def fpSub (fpctl : Word) : Nat := (fpctl.extractLsb' 4 2).toNat

/-- FPCTL.enables (R118). -/
def fpEnables (fpctl : Word) : BitVec 5 := fpctl.extractLsb' 16 5

/-- The rounding mode in force: the word's own override, or FPCTL.rm (R118). -/
def Ctx.mode (x : Ctx) : Rm := Rm.ofCode (x.rm.getD (x.fpctl.extractLsb' 0 3).toNat)

/-- Flags that become set in a cycle (R118). -/
def Core.orFlags (c : Core) (fl : BitVec 5) (cycle : Nat) : Core :=
  { c with ctl := { c.ctl with
    fpctl := c.ctl.fpctl ||| (fl.setWidth 64 <<< 24)
    flagSet := if c.ctl.flagAt = cycle then c.ctl.flagSet ||| fl else fl
    flagAt := cycle } }

/-- The subcode of FP_EXCEPTION: the first of NV, DZ, OF, UF, NX (R120). -/
def fpSubcode (fl : BitVec 5) : Nat :=
  if fl.getLsbD 4 then 4 else if fl.getLsbD 3 then 3 else if fl.getLsbD 2 then 2 else if fl.getLsbD 1 then 1 else 0

/-- A body of the vector sequencer can still raise a floating-point exception (R120, R195). -/
def Core.bodyFloat (c : Core) : Bool := match c.vrep with
  | some r => r.float && !r.held
  | none => false

/-- An MST that is not done: it too can raise a floating-point exception (R216). -/
def Core.mstPending (c : Core) : Bool := c.mat.queue.any fun e => match e.word with
  | .mst .. => true
  | _ => false

/-- With an enable set, the word issues only after every earlier operation, a body's and an MST among them, has completed (R120). -/
def fpBegin (x : Ctx) : CM Unit := do
  let c ← get
  stallIf (fpEnables x.fpctl != 0
    && (!(c.sauq.isEmpty && c.sauFly.isEmpty && c.e.wb.isNone && c.fpRun.isNone) || c.mstPending || !x.body && c.bodyFloat))

/-- An enabled flag traps and leaves nothing; otherwise the flags are set (R120). -/
def fpEnd (x : Ctx) (fl : BitVec 5) : CM Unit := do
  raiseIf (fl &&& fpEnables x.fpctl != 0) cFp (fpSubcode (fl &&& fpEnables x.fpctl)) 0 (fl.setWidth 64)
  modify fun c => c.orFlags fl x.cycle

/-- A body of the vector sequencer holds the generator: from its handover until its last operation has completed (R117). -/
def Core.rngHeld (c : Core) : Bool := (match c.vrep with | some r => r.rng | none => false) || (c.sauq ++ c.sauFly).any fun o => o.rng

/-- A word that draws stalls while a body of the vector sequencer holds the generator (R117). -/
def rngFree (x : Ctx) : CM Unit := do
  let c ← get
  stallIf (!x.body && c.rngHeld)

/-- Reserve n draws in order when the mode is stochastic (R117). -/
def drawsM (x : Ctx) (n : Nat) : CM (List (BitVec 32)) :=
  match x.mode with
  | .sr => do
    rngFree x
    let c ← get
    let (seed, ds) := rngDraws n c.ctl.srseed
    set { c with ctl := { c.ctl with srseed := seed } }
    pure ds
  | _ => pure (List.replicate n 0)

/-- Reserve one draw. -/
def drawM (x : Ctx) : CM (BitVec 32) := do
  let ds ← drawsM x 1
  pure (ds.headD 0)

/-- Write a comparison's result, and push it where the word asks (R66, R137, R145). -/
def setCompare (x : Ctx) (d : BitVec 5) (push : BitVec 1) (b : Bool) : CM Unit := do
  wrP x d.toNat b
  if push = 1 then pushBit x b else pure ()

/-- The result of an integer comparison, by kind (R137). -/
def compareInt (k : BitVec 3) (x y : Word) : Bool :=
  match k.toNat with
  | 1 => x == y
  | 2 => x != y
  | 3 => x.slt y
  | 4 => x.sle y
  | 5 => x.ult y
  | 6 => x.ule y
  | _ => x &&& y != 0

end Sys2Proof.Machine
end

