-- ==== Sys2Proof/Machine/Operands.lean ====
section
/-!
DEFINITION. Operand forms: registers and data queues (R130), late results (R129), immediates (R48, R133), control registers (R135),
addresses of the M format (R158) and the fields of the operand registers of the engine words.
-/

namespace Sys2Proof.Machine

/-! ### Registers and queues -/

/-- The first source: the register, or the stream's incoming data queue (R130). -/
def rdSrc (cx : Ctx) (q : BitVec 2) (n : BitVec 5) : CM Word := if q.getLsbD 0 then popData cx else rdX cx n

/-- The destination: the register, or the stream's outgoing data queue (R130). -/
def wrDst (cx : Ctx) (q : BitVec 2) (n : BitVec 5) (v : Word) : CM Unit :=
  if q.getLsbD 1 then pushData cx (some v) else wrX cx n v

/-- The stream's long-latency unit is free (R136, R144). -/
def unitFree (cx : Ctx) : CM Unit := do
  let c ← get
  stallIf (c.seq cx.st).wb.isSome

/-- A late result: its register is pending, or its queue entry allocated and not filled, until RESULT_WRITEBACK (R64, R129). -/
def wrLate (cx : Ctx) (q : BitVec 2) (n : BitVec 5) (v : Word) (fl : BitVec 5) : CM Unit := do
  unitFree cx
  if q.getLsbD 1 then do
    pushData cx none
    modSeqM cx.st fun r => { r with wb := some ⟨1000, v, fl, false⟩ }
  else do
    let c ← get
    let h := if n = 0 then 0 else (c.seq cx.st).home n
    destFree cx h
    shortFree cx h
    modify fun c => (c.modSeq cx.st fun r => { r with wb := some ⟨h, v, fl, cx.short⟩ }).setPend cx.st h

/-- The late result of a stream becomes ready (R64, R129). -/
def Core.writeback (c : Core) (st : Strm) (cycle : Nat) : Core :=
  match (c.seq st).wb with
  | none => c
  | some l =>
    let c := (c.modSeq st fun r => { r with wb := none }).orFlags l.flags cycle
    if l.home = 1000 then c.fillData st l.value
    else if l.short then (c.clearPend st l.home).putShort st l.home (l.value.setWidth 1024) cycle
    else (c.clearPend st l.home).putHome st l.home (l.value.setWidth 1024)

/-! ### Immediates -/

/-- imm13, or the 33-bit or 53-bit value of one or two IMM hints (R48, R133). -/
def immValue (cx : Ctx) (im : BitVec 13) : Word :=
  match cx.imms with
  | a :: b :: _ => (a ++ b ++ im : BitVec 53).signExtend 64
  | [a] => (a ++ im : BitVec 33).signExtend 64
  | [] => im.signExtend 64

/-! ### Control registers (R79, R135) -/

/-- The value of a control register. -/
def Seq.readCtl (q : Seq) (c : BitVec 5) : Word :=
  let n := c.toNat
  if n < 4 then (q.loops.get n).lc
  else if n < 8 then (q.loops.get (n - 4)).ls
  else if n < 12 then (q.loops.get (n - 8)).le
  else if n = 12 then q.lk
  else if n = 13 then q.bt
  else if q.pred (n - 16) then 1 else 0

/-- Write a control register; ls and le of an active level change only in their shadows (R79). -/
def Seq.writeCtl (q : Seq) (c : BitVec 5) (v : Word) : Seq :=
  let n := c.toNat
  let put (i : Nat) (f : LoopLevel → LoopLevel) : Seq := { q with loops := q.loops.set i (f (q.loops.get i)) }
  if n < 4 then put n fun l => { l with lc := v }
  else if n < 8 then put (n - 4) fun l => { l with shLs := v, ls := if n - 4 < q.loopDepth then l.ls else v }
  else if n < 12 then put (n - 8) fun l => { l with shLe := v, le := if n - 8 < q.loopDepth then l.le else v }
  else if n = 12 then { q with lk := v }
  else if n = 13 then { q with bt := v }
  else q.setPred (n - 16) (v.getLsbD 0)

/-! ### Addresses -/

/-- The ULM address of an M-format word (R158). -/
def memAddr (cx : Ctx) (b : BitVec 5) (z : BitVec 2) (o : BitVec 11) : CM Word := do
  let v ← rdX cx b
  pure (v + o.signExtend 64 <<< z.toNat)

/-- Field [hi:lo] of an operand register, of w bits from lo. -/
def fieldOf (v : Word) (lo w : Nat) : Nat := (v.extractLsb' lo w).toNat

/-- The next register of a pair (R45). -/
def pairNext (n : BitVec 5) : BitVec 5 := n + 1

end Sys2Proof.Machine
end

