-- ==== Sys2Proof/Machine/ScalarInt.lean ====
section
/-!
DEFINITION. The scalar integer, address and control-register words of the A-stream (R131 to R140).
-/

namespace Sys2Proof.Machine

/-! ### Shared operations -/

/-- Two sources and one result (R130, R131). -/
def alu2 (f : Word → Word → Word) (q : BitVec 2) (d x t : BitVec 5) (cx : Ctx) : CM Unit := do
  let a ← rdSrc cx q x
  let b ← rdX cx t
  wrDst cx q d (f a b)

/-- One source and one result. -/
def alu1 (f : Word → Word) (q : BitVec 2) (d x : BitVec 5) (cx : Ctx) : CM Unit := do
  let a ← rdSrc cx q x
  wrDst cx q d (f a)

/-- A late result of two sources (R136). -/
def aluLate (f : Word → Word → Word) (q : BitVec 2) (d x t : BitVec 5) (cx : Ctx) : CM Unit := do
  unitFree cx
  let a ← rdSrc cx q x
  let b ← rdX cx t
  wrLate cx q d (f a b) 0

/-- A source and an immediate (R133). -/
def aluImm (f : Word → Word → Word) (d x : BitVec 5) (im : BitVec 13) (cx : Ctx) : CM Unit := do
  let a ← rdX cx x
  wrX cx d (f a (immValue cx im))

/-- Clamp an integer to the signed 64-bit range (R132). -/
def clamp64 (i : Int) : Word :=
  if i < -(2 ^ 63) then BitVec.ofInt 64 (-(2 ^ 63)) else if 2 ^ 63 - 1 < i then BitVec.ofInt 64 (2 ^ 63 - 1) else BitVec.ofInt 64 i

/-- Sum, wrapping or saturating (R131, R132). -/
def addSat (sat : Bool) (a b : Word) : Word := if sat then clamp64 (a.toInt + b.toInt) else a + b

/-- Difference, wrapping or saturating (R131, R132). -/
def subSat (sat : Bool) (a b : Word) : Word := if sat then clamp64 (a.toInt - b.toInt) else a - b

/-- Shift left by the low six bits (R131). -/
def shlW (a b : Word) : Word := a <<< (b.toNat % 64)

/-- Logical shift right by the low six bits (R131). -/
def shrW (a b : Word) : Word := a >>> (b.toNat % 64)

/-- Arithmetic shift right by the low six bits (R131). -/
def shaW (a b : Word) : Word := a.sshiftRight (b.toNat % 64)

/-- Leading zero bits (R131). -/
def clzW (a : Word) : Word := if a = 0 then 64 else BitVec.ofNat 64 (63 - a.toNat.log2)

/-- One bits (R131). -/
def popcW (a : Word) : Word := BitVec.ofNat 64 ((List.range 64).countP fun i => a.getLsbD i)

/-- The amount of an immediate shift (R131). -/
def shiftImm (im : BitVec 5) (h : BitVec 1) : Word := BitVec.ofNat 64 (32 * h.toNat + im.toNat)

/-- Bits [127:64] of the signed product (R136). -/
def mulhS (a b : Word) : Word := BitVec.ofInt 64 (a.toInt * b.toInt / 2 ^ 64)

/-- Bits [127:64] of the unsigned product (R136). -/
def mulhU (a b : Word) : Word := BitVec.ofNat 64 (a.toNat * b.toNat / 2 ^ 64)

/-- Signed quotient with its borderline cases (R136). -/
def divS (a b : Word) : Word := if b = 0 then BitVec.allOnes 64 else BitVec.ofInt 64 (a.toInt.tdiv b.toInt)

/-- Unsigned quotient (R136). -/
def divU (a b : Word) : Word := if b = 0 then BitVec.allOnes 64 else BitVec.ofNat 64 (a.toNat / b.toNat)

/-- Signed remainder (R136). -/
def remS (a b : Word) : Word := if b = 0 then a else BitVec.ofInt 64 (a.toInt.tmod b.toInt)

/-- Unsigned remainder (R136). -/
def remU (a b : Word) : Word := if b = 0 then a else BitVec.ofNat 64 (a.toNat % b.toNat)

/-- Position and length of a bit field from its control value (R138). -/
def fieldPos (y : Word) : Nat := fieldOf y 0 6
/-- Length of a bit field (R138). -/
def fieldLen (y : Word) : Nat := Nat.min (fieldOf y 8 7) (64 - fieldPos y)

/-- A sign-extended field (R138). -/
def bfxS (x y : Word) : Word := BitVec.ofInt 64 (sextNat (fieldLen y) (x.toNat / 2 ^ fieldPos y))

/-- A zero-extended field (R138). -/
def bfxZ (x y : Word) : Word := BitVec.ofNat 64 (x.toNat / 2 ^ fieldPos y % 2 ^ fieldLen y)

/-- Insert a field (R138). -/
def bfiW (d x y : Word) : Word :=
  let m := BitVec.ofNat 64 ((2 ^ fieldLen y - 1) * 2 ^ fieldPos y)
  (d &&& ~~~m) ||| ((x <<< fieldPos y) &&& m)

/-- Quotient rounded up. -/
def ceilDiv (a b : Nat) : Nat := (a + b - 1) / b

/-- GEOM (R140). -/
def geomW (geo : Word) (idx : Nat) (sel : BitVec 2) : Word :=
  let gm := fieldOf geo 48 16
  let gn := fieldOf geo 32 16
  let bm := fieldOf geo 16 16
  let bn := fieldOf geo 0 16
  if bm = 0 ∨ bn = 0 then 0
  else
    let gw := ceilDiv gn bn
    let gh := ceilDiv gm bm
    if gw * gh ≤ idx then 0
    else
      let row0 := idx / gw * bm
      let col0 := idx % gw * bn
      let rows := Nat.min bm (gm - row0)
      let cols := Nat.min bn (gn - col0)
      match sel.toNat with
      | 0 => BitVec.ofNat 64 (rows * 2 ^ 32 + row0)
      | 1 => BitVec.ofNat 64 (cols * 2 ^ 32 + col0)
      | 2 => BitVec.ofNat 64 (2 ^ Nat.min rows 64 - 1)
      | _ => BitVec.ofNat 64 (2 ^ Nat.min cols 64 - 1)

/-! ### Meanings -/

/-- ADD (R131, R132). -/
def execAdd (n : BitVec 3) (d x t : BitVec 5) (q : BitVec 2) : State → Out :=
  issueU (.add n d x t q) fun cx => alu2 (addSat cx.sat) q d x t cx

/-- SUB (R131, R132). -/
def execSub (n : BitVec 3) (d x t : BitVec 5) (q : BitVec 2) : State → Out :=
  issueU (.sub n d x t q) fun cx => alu2 (subSat cx.sat) q d x t cx

/-- AND (R131). -/
def execAnd (n : BitVec 3) (d x t : BitVec 5) (q : BitVec 2) : State → Out := issueU (.and n d x t q) (alu2 (· &&& ·) q d x t)

/-- OR (R131). -/
def execOr (n : BitVec 3) (d x t : BitVec 5) (q : BitVec 2) : State → Out := issueU (.or n d x t q) (alu2 (· ||| ·) q d x t)

/-- XOR (R131). -/
def execXor (n : BitVec 3) (d x t : BitVec 5) (q : BitVec 2) : State → Out := issueU (.xor n d x t q) (alu2 (· ^^^ ·) q d x t)

/-- SHL (R131). -/
def execShl (n : BitVec 3) (d x t : BitVec 5) (q : BitVec 2) : State → Out := issueU (.shl n d x t q) (alu2 shlW q d x t)

/-- SHR (R131). -/
def execShr (n : BitVec 3) (d x t : BitVec 5) (q : BitVec 2) : State → Out := issueU (.shr n d x t q) (alu2 shrW q d x t)

/-- SHA (R131). -/
def execSha (n : BitVec 3) (d x t : BitVec 5) (q : BitVec 2) : State → Out := issueU (.sha n d x t q) (alu2 shaW q d x t)

/-- MIN, signed (R131). -/
def execMin (n : BitVec 3) (d x t : BitVec 5) (q : BitVec 2) : State → Out :=
  issueU (.min n d x t q) (alu2 (fun a b => if a.slt b then a else b) q d x t)

/-- MIN, unsigned (R131). -/
def execMinZ64 (n : BitVec 3) (d x t : BitVec 5) (q : BitVec 2) : State → Out :=
  issueU (.minZ64 n d x t q) (alu2 (fun a b => if a.ult b then a else b) q d x t)

/-- MAX, signed (R131). -/
def execMax (n : BitVec 3) (d x t : BitVec 5) (q : BitVec 2) : State → Out :=
  issueU (.max n d x t q) (alu2 (fun a b => if a.slt b then b else a) q d x t)

/-- MAX, unsigned (R131). -/
def execMaxZ64 (n : BitVec 3) (d x t : BitVec 5) (q : BitVec 2) : State → Out :=
  issueU (.maxZ64 n d x t q) (alu2 (fun a b => if a.ult b then b else a) q d x t)

/-- CLZ (R131). -/
def execClz (n : BitVec 3) (d x : BitVec 5) (q : BitVec 2) : State → Out := issueU (.clz n d x q) (alu1 clzW q d x)

/-- POPC (R131). -/
def execPopc (n : BitVec 3) (d x : BitVec 5) (q : BitVec 2) : State → Out := issueU (.popc n d x q) (alu1 popcW q d x)

/-- MOV (R131). -/
def execMov (n : BitVec 3) (d x : BitVec 5) (q : BitVec 2) : State → Out := issueU (.mov n d x q) (alu1 id q d x)

/-- The value of a control register goes to a scalar register (R135, R196). -/
def movFrom (d c : BitVec 5) (cx : Ctx) : CM Unit := do
  let s ← get
  wrX cx d ((s.seq cx.st).readCtl c)

/-- A scalar register goes to a control register (R135, R196). -/
def movTo (c x : BitVec 5) (cx : Ctx) : CM Unit := do
  let v ← rdX cx x
  modSeqM cx.st fun q => q.writeCtl c v

/-- MOV from a control register (R135). -/
def execMovFromCtl (n : BitVec 3) (d c : BitVec 5) : State → Out := issueU (.movFromCtl n d c) (movFrom d c)

/-- MOV to a control register (R135). -/
def execMovToCtl (n : BitVec 3) (c x : BitVec 5) : State → Out := issueU (.movToCtl n c x) (movTo c x)

/-- SHL by an immediate (R131). -/
def execShlImm (n : BitVec 3) (d x im : BitVec 5) (q : BitVec 2) (h : BitVec 1) : State → Out :=
  issueU (.shlImm n d x im q h) (alu1 (fun a => shlW a (shiftImm im h)) q d x)

/-- SHR by an immediate (R131). -/
def execShrImm (n : BitVec 3) (d x im : BitVec 5) (q : BitVec 2) (h : BitVec 1) : State → Out :=
  issueU (.shrImm n d x im q h) (alu1 (fun a => shrW a (shiftImm im h)) q d x)

/-- SHA by an immediate (R131). -/
def execShaImm (n : BitVec 3) (d x im : BitVec 5) (q : BitVec 2) (h : BitVec 1) : State → Out :=
  issueU (.shaImm n d x im q h) (alu1 (fun a => shaW a (shiftImm im h)) q d x)

/-- SEL (R131). -/
def execSel (n : BitVec 3) (d x t : BitVec 5) (q : BitVec 2) (p : BitVec 3) : State → Out :=
  issueU (.sel n d x t q p) fun cx => do
    let b ← rdP cx p.toNat
    alu2 (fun u v => if b then u else v) q d x t cx

/-- MUL (R136). -/
def execMul (n : BitVec 3) (d x t : BitVec 5) (q : BitVec 2) : State → Out := issueU (.mul n d x t q) (alu2 (· * ·) q d x t)

/-- MULH, signed (R136). -/
def execMulh (n : BitVec 3) (d x t : BitVec 5) (q : BitVec 2) : State → Out := issueU (.mulh n d x t q) (alu2 mulhS q d x t)

/-- MULH, unsigned (R136). -/
def execMulhZ64 (n : BitVec 3) (d x t : BitVec 5) (q : BitVec 2) : State → Out := issueU (.mulhZ64 n d x t q) (alu2 mulhU q d x t)

/-- A word whose late result RESULT_WRITEBACK delivers. -/
def issueLate (i : Instr) (eff : Ctx → CM Unit) : State → Out :=
  issue i fun cx => do
    onCore cx.core (eff cx)
    postEvent (.resultWriteback cx.core cx.st)
    pure .seq

/-- DIV, signed (R136). -/
def execDiv (n : BitVec 3) (d x t : BitVec 5) (q : BitVec 2) : State → Out := issueLate (.div n d x t q) (aluLate divS q d x t)

/-- DIV, unsigned (R136). -/
def execDivZ64 (n : BitVec 3) (d x t : BitVec 5) (q : BitVec 2) : State → Out := issueLate (.divZ64 n d x t q) (aluLate divU q d x t)

/-- REM, signed (R136). -/
def execRem (n : BitVec 3) (d x t : BitVec 5) (q : BitVec 2) : State → Out := issueLate (.rem n d x t q) (aluLate remS q d x t)

/-- REM, unsigned (R136). -/
def execRemZ64 (n : BitVec 3) (d x t : BitVec 5) (q : BitVec 2) : State → Out := issueLate (.remZ64 n d x t q) (aluLate remU q d x t)

/-- CMP (R137). -/
def execCmp (n : BitVec 3) (d x t : BitVec 5) (p im : BitVec 1) (k : BitVec 3) : State → Out :=
  issueU (.cmp n d x t p im k) fun cx => do
    let a ← rdX cx x
    let b ← if im = 1 then pure (t.signExtend 64) else rdX cx t
    setCompare cx d p (compareInt k a b)

/-- BFX, signed (R138). -/
def execBfx (n : BitVec 3) (d x t : BitVec 5) : State → Out := issueU (.bfx n d x t) (alu2 bfxS 0 d x t)

/-- BFX, unsigned (R138). -/
def execBfxZ64 (n : BitVec 3) (d x t : BitVec 5) : State → Out := issueU (.bfxZ64 n d x t) (alu2 bfxZ 0 d x t)

/-- BFI (R138). -/
def execBfi (n : BitVec 3) (d x t : BitVec 5) : State → Out :=
  issueU (.bfi n d x t) fun cx => do
    let old ← rdX cx d
    alu2 (bfiW old) 0 d x t cx

/-- LEA (R139). -/
def execLea (n : BitVec 3) (d x t : BitVec 5) (c : BitVec 2) : State → Out :=
  issueU (.lea n d x t c) (alu2 (fun a b => a + b <<< c.toNat) 0 d x t)

/-- GEOM (R140). -/
def execGeom (n : BitVec 3) (d x : BitVec 5) (c : BitVec 2) : State → Out :=
  issueU (.geom n d x c) fun cx => do
    let s ← get
    alu1 (fun a => geomW s.ctl.geo a.toNat c) 0 d x cx

/-- ADD with an immediate (R133). -/
def execAddImm (n : BitVec 3) (d x : BitVec 5) (im : BitVec 13) : State → Out :=
  issueU (.addImm n d x im) fun cx => aluImm (addSat cx.sat) d x im cx

/-- AND with an immediate (R133). -/
def execAndImm (n : BitVec 3) (d x : BitVec 5) (im : BitVec 13) : State → Out := issueU (.andImm n d x im) (aluImm (· &&& ·) d x im)

/-- OR with an immediate (R133). -/
def execOrImm (n : BitVec 3) (d x : BitVec 5) (im : BitVec 13) : State → Out := issueU (.orImm n d x im) (aluImm (· ||| ·) d x im)

/-- XOR with an immediate (R133). -/
def execXorImm (n : BitVec 3) (d x : BitVec 5) (im : BitVec 13) : State → Out := issueU (.xorImm n d x im) (aluImm (· ^^^ ·) d x im)

/-- RESULT_WRITEBACK: a long-latency result is written to its register or queue entry (R64, R129). -/
def execResultWriteback (core : Nat) (str : Strm) (s : State) : Out :=
  .next (s.modCore core fun c => c.writeback str s.cycle)

end Sys2Proof.Machine
end

