-- ==== Sys2Proof/Machine/Control.lean ====
section
/-!
DEFINITION. Control words (R72 to R88, R413, R414), hints (R47 to R49), message registers and arrival counters (R98 to R104), and the events
of the sequencers that serve them.
-/

namespace Sys2Proof.Machine

/-! ### Hints -/

/-- TGT (R47, R48). -/
def execTgt (p : BitVec 3) (x : BitVec 1) (o : BitVec 16) : State → Out := issueHint (.tgt p x o) (.tgt p x o)

/-- IMM (R47, R48). -/
def execImm (im : BitVec 20) : State → Out := issueHint (.imm im) (.imm im)

/-- LIVE (R72). -/
def execLive (l : BitVec 20) : State → Out := issueHint (.live l) (.live l)

/-- JTAB (R47, R70). -/
def execJtab (r : BitVec 5) (l : BitVec 10) : State → Out := issueHint (.jtab r l) (.jtab r l)

/-- MOD (R47). -/
def execMod (r : BitVec 3) (x : BitVec 1) (a : BitVec 2) (t : BitVec 1) : State → Out := issueHint (.mod r x a t) (.mod r x a t)

/-- SCHED (R73). -/
def execSched (p : BitVec 2) (g : BitVec 6) : State → Out := issueHint (.sched p g) (.sched p g)

/-- XT (R47, R310). -/
def execXt (o : BitVec 17) : State → Out := issueHint (.xt o) (.xt o)

/-! ### NOP, IFENCE and the loops -/

/-- NOP (R86). -/
def execNop (n : BitVec 3) : State → Out := issueU (.nop n) fun _ => pure ()

/-- IFENCE (R87): the words after it are fetched again; in the E-stream once no VREP body is held. -/
def execIfence (n : BitVec 3) : State → Out :=
  issueU (.ifence n) fun cx => do
    let c ← get
    stallIf (cx.st == .e && c.vrep.isSome)
    modSeqM cx.st fun q => { q with buf := [], tbuf := [] }

/-- LOOP and LOOPR (R77): range is the body of a LOOP, or none for the shadow range of the level. -/
def loopM (range : Option (Word × Word)) (count : Ctx → CM Word) (cx : Ctx) : CM Next := do
  let n ← count cx
  let c ← get
  let q := c.seq cx.st
  let depth := q.loopDepth
  raiseIf (depth == 3) cLoop 0 0 0
  let l := q.level depth
  let (start, stop) := range.getD (l.shLs, l.shLe)
  raiseIf (range.isNone && (start.toNat % 4 != 0 || stop.toNat % 4 != 0 || decide (stop.toNat < start.toNat)
    || decide (Config.ulmBytes < stop.toNat + 4))) cLoop 2 0 0
  let o := q.level (depth - 1)
  raiseIf (decide (0 < depth) && o.frame == q.depth && decide (o.le.toNat < stop.toNat)) cLoop 1 0 0
  modSeqM cx.st fun q =>
    let l := { l with ls := start, shLs := start, le := stop, shLe := stop }
    if n = 0 then q.setLevel depth l
    else { q.setLevel depth { l with lc := n - 1, frame := q.depth } with loopDepth := depth + 1 }
  pure (.jump (if n = 0 then stop + 4 else start))

/-- The body of a LOOP word (R75, R77). -/
def loopRange (cx : Ctx) (l h : BitVec 5) : Word × Word :=
  (cx.pc + 4, cx.pc + 4 + BitVec.ofNat 64 (4 * (32 * l.toNat + h.toNat)))

/-- LOOP with a count register (R77). -/
def execLoop (n : BitVec 3) (l c h : BitVec 5) : State → Out :=
  issueC (.loop n l c h) fun cx => loopM (some (loopRange cx l h)) (fun cx => rdX cx c) cx

/-- LOOP with a count from the incoming data queue (R77). -/
def execLoopQ (n : BitVec 3) (l h : BitVec 5) : State → Out :=
  issueC (.loopQ n l h) fun cx => loopM (some (loopRange cx l h)) popData cx

/-- LOOPR with a count register (R77). -/
def execLoopr (n : BitVec 3) (c : BitVec 5) : State → Out := issueC (.loopr n c) fun cx => loopM none (fun cx => rdX cx c) cx

/-- LOOPR with a count from the incoming data queue (R77). -/
def execLooprQ (n : BitVec 3) : State → Out := issueC (.looprQ n) fun cx => loopM none popData cx

/-! ### TRAP, BRK and TRET -/

/-- TRAP (R413). -/
def execTrap (c : BitVec 12) : State → Out := issueC (.trap c) fun _ => raise cTrap 0 0 (c.setWidth 64)

/-- BRK (R413). -/
def execBrk (c : BitVec 10) : State → Out := issueC (.brk c) fun _ => raise cBrk 0 0 (c.setWidth 64)

/-- TRET (R414). A trap of this word names the word itself in INFO (R404). -/
def execTret : State → Out :=
  issueC .tret tretM

/-! ### Message registers (R98 to R101) -/

/-- A message register. -/
def Message.get (m : Message) (i : Nat) : Word := Store.get 0 m.m i

/-- Write a message register and set its full bit. -/
def Message.put (m : Message) (i : Nat) (v : Word) : Message :=
  { m with m := Store.set 0 m.m i v, full := m.full ||| (1#16 <<< i) }

/-- TAKE (R100). -/
def execTake (n : BitVec 3) (d m : BitVec 5) : State → Out :=
  issueU (.take n d m) fun cx => do
    let c ← get
    if c.msg.full.getLsbD m.toNat then pure () else stallOut
    wrX cx d (c.msg.get m.toNat)
    modify fun c => { c with msg := { c.msg with full := c.msg.full &&& ~~~(1#16 <<< m.toNat) } }

/-- PEEK (R100). -/
def execPeek (n : BitVec 3) (d m p : BitVec 5) : State → Out :=
  issueU (.peek n d m p) fun cx => do
    let c ← get
    wrX cx d (c.msg.get m.toNat)
    wrP cx p.toNat (c.msg.full.getLsbD m.toNat)

/-- The lowest set bit of a 16-bit mask. -/
def lowestBit (m : BitVec 16) : Option Nat := (List.range 16).find? fun i => m.getLsbD i

/-- WAITM (R100). -/
def execWaitm (n : BitVec 3) (d x : BitVec 5) : State → Out :=
  issueU (.waitm n d x) fun cx => do
    let v ← rdX cx x
    let c ← get
    let mask := v.setWidth 16
    if mask = 0 then wrX cx d (BitVec.allOnes 64)
    else match lowestBit (c.msg.full &&& mask) with
      | some i => wrX cx d (BitVec.ofNat 64 i)
      | none => stallOut

/-- PUTM (R100). -/
def execPutm (n : BitVec 3) (m x : BitVec 5) : State → Out :=
  issueU (.putm n m x) fun cx => do
    let v ← rdX cx x
    modify fun c => { c with msg := c.msg.put m.toNat v }

/-! ### Arrival counters (R102 to R104) -/

/-- An arrival counter. -/
def Message.ctr (m : Message) (i : Nat) : BitVec 32 := Store.get 0 m.n i

/-- Write an arrival counter. -/
def Message.setCtr (m : Message) (i : Nat) (v : BitVec 32) : Message := { m with n := Store.set 0 m.n i v }

/-- WAITN (R104). -/
def execWaitn (n : BitVec 3) (d c t : BitVec 5) : State → Out :=
  issueU (.waitn n d c t) fun cx => do
    let v ← rdX cx t
    let s ← get
    let k := s.msg.ctr c.toNat
    if k.slt (v.setWidth 32) then stallOut else pure ()
    wrX cx d (k.signExtend 64)

/-- SETN (R104). -/
def execSetn (n : BitVec 3) (c x : BitVec 5) : State → Out :=
  issueU (.setn n c x) fun cx => do
    let v ← rdX cx x
    modify fun s => { s with msg := s.msg.setCtr c.toNat (v.setWidth 32) }

/-- DECN (R104). -/
def execDecn (n : BitVec 3) (c x : BitVec 5) : State → Out :=
  issueU (.decn n c x) fun cx => do
    let v ← rdX cx x
    modify fun s => { s with msg := s.msg.setCtr c.toNat (s.msg.ctr c.toNat - v.setWidth 32) }

/-- NTAKE (R300). -/
def execNtake (n : BitVec 3) (d : BitVec 5) : State → Out :=
  issueU (.ntake n d) fun cx => do
    let c ← get
    wrX cx d (c.msg.notify.setWidth 64)
    modify fun c => { c with msg := { c.msg with notify := 0 } }

/-- An arrival is added to a counter, and wakes a sleep that waits for one (R88, R102). -/
def Core.arrive (c : Core) (ctr amount : Nat) : Core :=
  { c with msg := c.msg.setCtr ctr (c.msg.ctr ctr + BitVec.ofNat 32 amount) }.wake 10 8

/-- A deposit lands in a message register, and wakes a sleep that waits for one (R88, R98). -/
def Core.landDeposit (c : Core) (reg : Nat) (v : Word) : Core := { c with msg := c.msg.put reg v }.wake 9 4

/-- The notify aperture is gated (R88). -/
def Core.gated (c : Core) : Bool :=
  match c.wait with
  | some (.sleep ctl _ en none) => en != .waits && ctl.extractLsb' 0 2 != 0
  | _ => false

/-- A notify lands in the register, or in the always-on latch while the aperture is gated, and wakes a sleep (R88, R299). -/
def Core.landNotify (c : Core) (m : BitVec 32) : Core :=
  (if c.gated then { c with msg := { c.msg with notifyLatch := c.msg.notifyLatch ||| m } }
   else { c with msg := { c.msg with notify := c.msg.notify ||| m } }).wake 8 2

/-- The event that a device deposit makes pending when it lands: EXPIRING for kind 3, GROW for kind 8, else NOTICE (R372, R398, R411). -/
def depositEvent (v : Word) : BitVec 4 :=
  match (v.extractLsb' 60 4).toNat with
  | 3 => 2
  | 8 => 4
  | _ => 1

/-- DEVICE_DEPOSIT_LAND: the first device deposit that waits finds m0 empty, and lands at the cycle's end (R98, R101). -/
def execDeviceDepositLand (core : Nat) (s : State) : Out :=
  let c := s.core core
  if c.msg.devq.isEmpty then .next s
  else if c.msg.full.getLsbD 0 || c.msg.devDue then .next (s.soon (.deviceDepositLand core))
  else .next (s.setCore core { c with msg := { c.msg with devDue := true } })

/-- A device deposit lands in m0, and its event becomes pending (R98, R372). -/
def Core.landDevice (c : Core) : Core :=
  match c.msg.devq with
  | [] => c
  | v :: r => { c with
      msg := { c.msg with devq := r }
      ctl := { c.ctl with events := c.ctl.events ||| depositEvent v } }.landDeposit 0 v

/-- At the end of a cycle the device deposit that was due lands, unless the cycle has filled m0 (R98, R101). -/
def State.landDevice (s : State) (core : Nat) : State :=
  let c := s.core core
  if !c.msg.devDue then s
  else
    let c := { c with msg := { c.msg with devDue := false } }
    let c := if c.msg.full.getLsbD 0 then c else c.landDevice
    let s := s.setCore core c
    if c.msg.devq.isEmpty then s else s.soon (.deviceDepositLand core)

/-- The device raises a deposit to m0: it queues, up to 8 (R98); a notice beyond them is dropped and counted (R372). -/
def deviceDeposit (s : State) (core : Nat) (v : Word) : State :=
  let c := s.core core
  if 8 ≤ c.msg.devq.length then
    s.setCore core { c with ctl := { c.ctl with ndrop := if v.getLsbD 63 || c.ctl.ndrop == 255 then c.ctl.ndrop else c.ctl.ndrop + 1 } }
  else (s.setCore core { c with msg := { c.msg with devq := c.msg.devq ++ [v] } }).soon (.deviceDepositLand core)

/-! ### SLEEP (R88) -/

/-- A user-level event is pending and its EVEN bit is set (R88, R411). -/
def Core.eventReady (c : Core) : Bool := c.ctl.events &&& c.ctl.even != 0

/-- A pre-emption, an allowance stop or another paired action is pending at the core. -/
def Core.preemptPending (c : Core) : Bool := c.preempt.isSome

/-- The wakes that stand as conditions: a notify and bit [8], a deliverable event or a pre-emption. -/
def Core.standingWakes (c : Core) (ctl : Word) : Word :=
  (if ctl.getLsbD 8 && (c.msg.notify != 0 || c.msg.notifyLatch != 0) then 2 else 0)
    ||| (if c.eventReady || c.preemptPending then 0x20 else 0)

/-- The gating entry may commit: level 0, or the E-stream stalls on an empty queue or has halted and nothing is dispatched (R88). -/
def Core.gateReady (c : Core) (ctl : Word) : Bool :=
  ctl.extractLsb' 0 2 == 0 || ((c.e.halted || c.e.starved) && c.sauq.isEmpty)

/-- The sleep ends: the latched notify bits first stand in the notify register, then the status is written (R88). -/
def sleepEnd (d : BitVec 5) (st : Word) (cx : Ctx) : CM Next := do
  modify fun c => { c.mergeNotify with wait := none }
  wrX cx d st
  pure .seq

/-- One attempt of SLEEP (R88): it enters, keeps sleeping, or returns a status. With selector SP a pending event or pre-emption is
taken at the safe point instead. -/
def sleepM (n : BitVec 3) (d x t : BitVec 5) (cx : Ctx) : CM Next := do
  let c ← get
  let taken := n == 7 && !c.ctl.ub && !c.ctl.sb && (c.preemptPending || (!c.ctl.lvl && c.eventReady))
  match c.wait with
  | some (.sleep ctl dl en st) =>
    if taken then pure .hold
    else
      let w := c.standingWakes ctl
      match st with
      | some b => sleepEnd d (b ||| w) cx
      | none =>
        if w ≠ 0 then sleepEnd d (if en = .committed then w else w ||| 1) cx
        else do
          modify fun c => { c with wait := some (.sleep ctl dl (if en = .waits && c.gateReady ctl then .commits else en) none) }
          pure .hold
  | _ => do
    let ctl ← rdX cx x
    let tmo ← rdX cx t
    destFree cx (if d = 0 then 0 else (c.seq cx.st).home d)
    if taken then pure .hold
    else
      let w := c.standingWakes ctl
      if w ≠ 0 then sleepEnd d (w ||| 1) cx
      else do
        modify fun c => { c with
          wait := some (.sleep ctl (if tmo = 0 then none else some (cx.ns + tmo.toNat)) (if c.gateReady ctl then .commits else .waits) none) }
        pure .hold

/-- A gang is disbanded in the cycle before its leader would issue the word (R333). -/
def solo (f : State → Out) (s : State) : Out :=
  if s.canIssue && (s.core s.cur).gang.isSome then .next (disbandGang s s.cur) else f s

/-- SLEEP (R88). -/
def execSleep (n : BitVec 3) (d x t : BitVec 5) : State → Out :=
  solo fun s =>
    let had := (s.core s.cur).wait.isSome
    let cur := s.cur
    match issueC (.sleep n d x t) (sleepM n d x t) s with
    | .next s' => .next (if !had && (s'.core cur).wait.isSome then s'.post (.sleepTimeout cur) else s')
    | o => o

/-- SLEEP_TIMEOUT (R88). -/
def execSleepTimeout (core : Nat) (s : State) : Out :=
  let c := s.core core
  match c.wait with
  | some (.sleep _ (some dl) _ none) =>
    if dl ≤ s.ns then .next (s.setCore core (c.wake 64 0x10)) else .next (s.postpone (.sleepTimeout core))
  | _ => .next s

/-- SLEEP_WAKE: a wake condition ends a SLEEP; without one it is the kernel's wake, which sets no bit (R88). -/
def execSleepWake (core : Nat) (s : State) : Out := .next (s.modCore core fun c => c.wake 64 (match c.wait with
  | some (.sleep ctl ..) => c.standingWakes ctl
  | _ => 0))

/-! ### Events of the sequencers -/

/-- PUNTY_EXPIRE: the entry frees, and its register is marked expired, 48 cycles after its result was written (R95, R96). -/
def execPuntyExpire (core : Nat) (str : Strm) (idx : Nat) (s : State) : Out :=
  let c := s.core core
  match (c.seq str).punty[idx]? with
  | none => .next s
  | some p =>
    if s.cycle < p.born + Config.puntyCycles then .next (s.postpone (.puntyExpire core str idx))
    else .next (s.setCore core (c.modSeq str fun q =>
      { q with punty := q.punty.filter (fun r => r.home != p.home), expired := q.expired ++ [p.home] }))

/-- REFRESH_CYCLE: a bank takes its refresh cycle, which changes no value that a program can see (R94). -/
def execRefreshCycle (_core _bank : Nat) (s : State) : Out := .next s

/-- The core has both streams stalled on queues, so its watchdog counts (R406). -/
def Core.queueStuck (c : Core) : Bool :=
  c.run == .running && !(c.a.halted && c.e.halted) && (c.a.halted || c.a.qstall) && (c.e.halted || c.e.qstall)

/-- WATCHDOG (R406). -/
def execWatchdog (core : Nat) (s : State) : Out :=
  let c := s.core core
  if c.queueStuck && c.ctl.wdog != 0 && decide (c.ctl.wdog.toNat ≤ c.ctl.wdogCount) then
    let st : Strm := if c.a.halted then .e else .a
    let q := c.seq st
    .next (takeTrap s core st {
      cause := cWatchdog
      sub := 0
      addr := 0
      info := 0
      word := q.pc.setWidth 19
      ret := q.groupStart.setWidth 19
      async := false
      vrep := none })
  else .next s

/-- The event that is delivered first: GROW, ALLOWANCE, EXPIRING, NOTICE (R411). -/
def Core.nextEvent (c : Core) : Option Nat :=
  let p := c.ctl.events &&& c.ctl.even
  if p.getLsbD 2 then some 2 else if p.getLsbD 3 then some 3 else if p.getLsbD 1 then some 1 else if p.getLsbD 0 then some 0 else none

/-- The core waits as a runner, and nothing is pending at it that would go first (R345, R362). -/
def Core.idleRunner (c : Core) : Bool :=
  (match c.wait with | some (.runner ..) => true | _ => false) && c.preempt.isNone && !c.ctl.allowStop && !c.ctl.stage.getLsbD 52

/-- An event can be delivered at the safe point where the A-stream stands, and is not parked for an action that goes first (R411). -/
def Core.deliverable (c : Core) : Bool :=
  c.run == .running && c.a.safeAt.isSome && (!c.a.parked || c.idleRunner) && !c.barDone && !c.a.halted && !c.a.stopped && !c.ctl.lvl && !c.ctl.ub && c.nextEvent.isSome

/-- EVENT_DELIVERY: a pending user-level event is delivered at the safe point (R411); ret is the next word to issue, which is the
abandoned word itself when the safe point is a wait. A barrier word's arrival is withdrawn first (R325). -/
def execEventDelivery (core : Nat) (s : State) : Out :=
  let c := s.core core
  match c.a.safeAt, c.nextEvent with
  | some w, some e =>
    if !c.deliverable then .next s
    else if c.atBarrier then .next (s.soon (.barrierWithdrawal core))
    else
      let s := s.setCore core { c with ctl := { c.ctl with events := c.ctl.events &&& ~~~(1#4 <<< e) } }
      .next (takeTrap s core .a {
        cause := 48 + e
        sub := 0
        addr := 0
        info := 0
        word := w
        ret := c.a.groupStart.setWidth 19
        async := true
        vrep := none })
  | _, _ => .next s

/-- The A-stream waits at an XBEGIN that has signalled ready (R310). -/
def Core.atJoin (c : Core) : Bool :=
  match c.wait with
  | some (.xbegin _ _ _ _ ready _) => ready
  | _ => false

/-- The stream stands at a boundary (R49, R67, R120, R211): no hint group waits for its consumer, unless the consumer is a safe point that waits,
and no word of its has issued that is not complete. -/
def Core.atBoundary (c : Core) (st : Strm) : Bool :=
  let q := c.seq st
  (q.hints.isEmpty || q.safeAt.isSome || q.parked) && !q.jx && !(st == .e && c.wordRuns)

/-- The word at an address as the stream fetches it (R61). -/
def Core.fetchWord (c : Core) (st : Strm) (a : Nat) : Insn :=
  match (c.seq st).buf.find? (fun p => p.1 == a) with
  | some p => p.2
  | none => BitVec.ofNat 32 (leNat (c.ulmBytes a 4))

/-- The next word of the stream is HALT, whose wait a status trap ends although a hint stands before it (R415). -/
def Core.atHalt (c : Core) (st : Strm) : Bool :=
  let q := c.seq st
  match decode (match (if c.follower then q.fwd.head? else none) with
    | some f => f.word
    | none => c.fetchWord st q.pc.toNat) with
  | .ok (.halt _) => true
  | _ => false

/-- A status trap is due on the stream, and the stream stands at a boundary (R245, R405): a barrier word whose arrival has been sent
first completes or is withdrawn, and the E-stream does not resume before an XBEGIN is decided (R310). -/
def Core.trapDue (c : Core) (st : Strm) : Bool :=
  let q := c.seq st
  c.run == .running && !q.due.isEmpty && !q.halted && !q.stopped && (c.atBoundary st || c.atHalt st) && !(st = .a && (c.atBarrier || c.barDone || c.atJoin))
    && !(st = .e && c.atXbegin)

/-- TRAP_ENTRY: a stream takes the status trap that fell due first (R405, R409, R410). -/
def execTrapEntry (core : Nat) (str : Strm) (s : State) : Out :=
  let c := s.core core
  match (c.seq str).due with
  | [] => .next s
  | t :: r =>
    if !c.trapDue str then .next s
    else
      let s := s.setCore core (c.modSeq str fun q => { q with due := r })
      .next (takeTrap s core str {
        cause := t.cause
        sub := t.sub
        addr := t.addr
        info := t.info
        word := t.word
        ret := t.ret.getD ((c.seq str).groupStart.setWidth 19)
        async := t.vrep.isNone
        vrep := t.vrep
        ulm := t.ulm })

end Sys2Proof.Machine
end

