-- ==== Sys2Proof/Machine/Home.lean ====
section
/-!
DEFINITION. Global memory at its homes (R263 to R265, R274 to R280): scopes, versions, releases, acquires and reads.
A home location is a number: channel * 2,000,000,000 + byte of the channel for HBM and the backing region of the pool, and from
2^50 upward for the far tier. A party is a core (its site core number), a kernel hart (9,216 + h), the stations (9,999) or a host
(10,000 + port).
-/

namespace Sys2Proof.Machine

/-! ### Parties and scopes (R3, R275) -/

/-- The exchange block of a core (R3). -/
def blockOf (core : Nat) : Nat := core / 4 / 48 / 8 * 6 + core / 4 % 48 / 8

/-- The compute die of a core (R3). -/
def dieOf (core : Nat) : Nat := core / 4 % 48 / 24 + 2 * (core / 4 / 48 / 24)

/-- The party number of the stations. -/
def stationParty : Nat := 9999

/-- A party at q lies in the scope sc of one at p, by where they stand (R275). CORE holds no other party. -/
def inScope (p sc q : Nat) : Bool :=
  if 4 ≤ sc then true
  else if 10000 ≤ p ∨ 10000 ≤ q then false
  else if sc = 3 then true
  else if Config.cores ≤ p ∨ Config.cores ≤ q then false
  else if sc = 2 then blockOf p == blockOf q
  else if sc = 1 then siteOf p == siteOf q
  else false

/-- Who a site core, a hart or a host is as a party: a core whose program has come from another site keeps the number that it had there (R274,
R337). -/
def State.partyOf (s : State) (n : Nat) : Nat :=
  let p := (s.core n).party
  if n < Config.cores ∧ p ≠ 0 then p - 1 else n

/-- A release pairs with an acquire at scope t by the party q that stands at site core (hart, host) n: each stands in the other's scope at its own
time, and a party pairs with itself (R275). -/
def Rel.pairs (r : Rel) (q n t : Nat) : Bool := r.party == q || (inScope r.at_ r.scope n && inScope n t r.at_)

/-! ### Versions (R277, R278) -/

/-- Global memory: the versions of every byte at its home, newest first. A location that is not listed holds its initial value. -/
abbrev Memory := Store (List Version)

/-- The canonical form of global memory: rising locations, and none listed without a version. -/
def Memory.wf (m : Memory) : Bool := Store.wf [] m

/-- First far-tier location. -/
def farBase : Nat := 2 ^ 50

/-- The initial value of a byte (R263, R278). -/
def initByte (loc : Nat) : Byte := if loc < farBase then 0 else Config.farInit loc

/-- The versions of a byte, newest first. -/
def State.versions (s : State) (loc : Nat) : List Version := Store.get [] s.home loc

/-- The releases by which a version is visible to the acquirer q, at n, at scope t, under horizon h or by a commit that q has read of. -/
def Version.visible (v : Version) (q n t h : Nat) (commits : List Nat) : List Rel :=
  v.rels.filter fun r => (decide (r.serial ≤ h) || commits.contains r.serial) && r.pairs q n t

/-- The latest value in a byte's release order (R284). -/
def State.latest (s : State) (loc : Nat) : Byte :=
  match s.versions loc with
  | v :: _ => v.val
  | [] => initByte loc

/-- The latest value released to the DEVICE scope (R260). -/
def State.deviceByte (s : State) (loc : Nat) : Byte :=
  match (s.versions loc).find? fun v => v.rels.any fun r => decide (3 ≤ r.scope) with
  | some v => v.val
  | none => initByte loc

/-- n bytes as a walk reads them. -/
def State.deviceBytes (s : State) (loc n : Nat) : List Byte := (List.range n).map fun i => s.deviceByte (loc + i)

/-! ### Releases -/

/-- A release by a party at a scope is performed: new values, and a wider scope for observed values that came by a narrower one (R277). -/
def State.perform (s : State) (party sc : Nat) (bytes : Store (Option Byte)) (observed : List (Nat × Nat × Nat)) (commit : Bool := false) : State :=
  let n := s.serial + 1
  let rel : Rel := ⟨s.partyOf party, party, sc, n, commit⟩
  let home := (observed.filter fun p => decide (p.2.2 < sc)).foldl (fun m p => Store.modify [] m p.1 fun vs => vs.map fun v =>
    if v.serial = p.2.1 then { v with rels := rel :: v.rels } else v) s.home
  let home := bytes.foldl (fun m p => match p.2 with
    | some b => Store.modify [] m p.1 fun vs => ⟨b, n, [rel]⟩ :: vs
    | none => m) home
  { s with home := home, serial := n }

/-- Bytes at consecutive locations, as a write set holds them. -/
def asBytes (loc : Nat) (bs : List Byte) : Store (Option Byte) := bs.mapIdx fun i b => (loc + i, some b)

/-- A machine-check record to the kernel: kind (0 uncorrectable, 1 corrected errors, 2 power, 3 a write dropped on account of an error) and unit. -/
def State.machineCheck (s : State) (kind unit : Nat) : State := { s with isl := { s.isl with records := s.isl.records ++ [(kind, unit)] } }

/-- The station that holds a home location (R7, R263). -/
def stationOfLoc (loc : Nat) : Nat := loc / Config.channelBytes / 32

/-- A party other than a core writes bytes at a scope. -/
def State.partyWrite (s : State) (party sc loc : Nat) (bs : List Byte) : State := s.perform party sc (asBytes loc bs) []

/-- Put all of b's entries over a's. -/
def overlay (a b : Store (Option Byte)) : Store (Option Byte) := b.foldl (fun m p => Store.set none m p.1 p.2) a

/-- The contestant of a tournament that a core belongs to (R387). -/
def State.contestant (s : State) (core : Nat) : Option (Nat × Scope × Contestant) :=
  let c := s.core core
  if c.scope.1 = 0 then none
  else match Store.get none s.scopes (c.scope.1 - 1) with
    | some sc => match sc.contestants[c.scope.2]? with
      | some k => some (c.scope.1 - 1, sc, k)
      | none => none
    | none => none

/-- Change a contestant. -/
def State.modContestant (s : State) (scope idx : Nat) (f : Contestant → Contestant) : State :=
  { s with scopes := Store.modify none s.scopes scope fun o => o.map fun sc => { sc with contestants := sc.contestants.modify idx f } }

/-- The core runs a committed task (R348). -/
def Core.committed (c : Core) : Bool := match c.task with | some t => t.committed | none => false

/-- Observed values after the core has released at a scope. -/
def widen (sc : Nat) (observed : List (Nat × Nat × Nat)) : List (Nat × Nat × Nat) :=
  if 4 ≤ sc then [] else observed.map fun p => (p.1, p.2.1, Nat.max p.2.2 sc)

/-- A core's release at a scope (R277, R349, R395): a member of a tournament releases into its contestant's siding, and a committed task's
writes already stand in its own. -/
def State.release (s : State) (core sc : Nat) : State :=
  let c := s.core core
  match s.contestant core with
  | some (n, _, _) =>
    (s.modContestant n c.scope.2 fun k => { k with siding := overlay k.siding c.wset }).setCore core { c with wset := [] }
  | none =>
    if c.committed then s
    else
      let s := s.perform core sc c.wset (c.amoVers ++ c.observed)
      s.setCore core { c with
        wset := []
        amoSet := []
        amoVers := []
        own := overlay (overlay c.own c.amoSet) c.wset
        observed := widen sc c.observed }

/-- A core's acquire at a scope completes (R278). -/
def State.acquire (s : State) (core sc : Nat) : State :=
  s.modCore core fun c => { c with own := [], acqAt := s.serial, acqScope := sc, commits := [] }

/-! ### Reads (R276, R279, R349, R395) -/

/-- The byte that a core reads from its own writes. -/
def State.ownByte (s : State) (core loc : Nat) : Option Byte :=
  let c := s.core core
  match Store.get none c.wset loc with
  | some b => some b
  | none => match Store.get none c.amoSet loc with
    | some b => some b
    | none => match Store.get none c.own loc with
      | some b => some b
      | none =>
        match (match c.task with | some t => Store.get none t.siding loc | none => none) with
        | some b => some b
        | none => match s.contestant core with
          | some (_, _, k) => Store.get none k.siding loc
          | none => none

/-- The serials of the values that the last reads of n bytes have returned. -/
def Core.known (c : Core) (loc n : Nat) : List Nat := (List.range n).map fun i => Store.get 0 c.seen (loc + i)

/-- The version that a read with horizon h returns: the latest that is released to the core, or that it has read before; known holds the
serials that the bytes of the access have returned before, so that no aligned word is torn (R279). -/
def State.versionAt (s : State) (core loc h : Nat) (known : List Nat) : Option Version :=
  let c := s.core core
  (s.versions loc).find? fun v => !(v.visible (s.partyOf core) core c.acqScope h c.commits).isEmpty || known.contains v.serial

/-- The widest scope of some releases. -/
def widest (rs : List Rel) : Nat := rs.foldl (fun n r => Nat.max n r.scope) 0

/-- The core has observed a value that reached it at a scope (R277, R279). -/
def Core.observe (c : Core) (loc serial sc : Nat) : Core :=
  if decide (4 ≤ sc) || c.observed.any (fun p => p.1 == loc && p.2.1 == serial) then c
  else { c with observed := c.observed ++ [(loc, serial, sc)] }

/-- The core has read a version (R277, R279, R351). -/
def Core.reads (c : Core) (party core loc h : Nat) (v : Version) : Core :=
  let rs := v.visible party core c.acqScope h c.commits
  let c := if rs.isEmpty then c else c.observe loc v.serial (widest rs)
  { c with
    seen := Store.set 0 c.seen loc v.serial
    commits := (rs.filter fun r => r.commit && decide (c.acqAt < r.serial) && !c.commits.contains r.serial).foldl (fun l r => l ++ [r.serial]) c.commits }

/-- Note that the core has read a location with horizon h (R277, R279). A value of its own that it has released since its last acquire is
observed when it is read back (DEDUCED). -/
def State.noteRead (s : State) (core loc h : Nat) (known : List Nat) : State :=
  let c := s.core core
  if (Store.get none c.wset loc).isSome || (Store.get none c.amoSet loc).isSome then s
  else if (Store.get none c.own loc).isSome then
    let own := fun (v : Version) => v.rels.filter fun r => r.party == s.partyOf core
    match (s.versions loc).find? fun v => !(own v).isEmpty with
    | some v => s.setCore core (c.observe loc v.serial (widest (own v)))
    | none => s
  else if (s.ownByte core loc).isSome then s
  else match s.versionAt core loc h known with
    | none => s
    | some v => s.setCore core (c.reads (s.partyOf core) core loc h v)

/-- The value of a byte in a read with horizon h. -/
def State.byteAt (s : State) (core loc h : Nat) (known : List Nat) : Byte :=
  match s.ownByte core loc with
  | some b => b
  | none => match s.versionAt core loc h known with
    | some v => v.val
    | none => initByte loc

/-- Reads of the backing region of the storage pool are counted for the reader's die (R367). -/
def State.noteBack (s : State) (core loc n : Nat) : State :=
  let off := loc % Config.channelBytes / 64
  let page := (off - s.stn.poolBase) / 2
  if farBase ≤ loc ∨ off < s.stn.poolBase ∨ s.stn.poolSize ≤ page ∨ Store.get 0 s.census.pages page ≠ 0 then s
  else { s with census := { s.census with backReads := Store.modify 0 s.census.backReads (dieOf core) fun k => k + (n + 63) / 64 } }

/-- A core reads n consecutive bytes at their home (R279): one horizon for all of them, not before the last acquire. Where the rule admits
several, the choice is free. -/
def State.readHome (s : State) (core loc n : Nat) : List Byte × State :=
  let c := s.core core
  let known := c.known loc n
  let open_ := decide (c.acqAt < s.serial)
  let h := if open_ then c.acqAt + Config.pick s.free % (s.serial - c.acqAt + 1) else c.acqAt
  let s1 := if open_ then { s with free := s.free + 1 } else s
  ((List.range n).map fun i => s.byteAt core (loc + i) h known,
    (List.range n).foldl (fun t i => t.noteRead core (loc + i) h known) (s1.noteBack core loc n))

/-- An uncorrectable error in one of n bytes of HBM (R435). -/
def State.poisoned (s : State) (loc n : Nat) : Bool := s.isl.poison.any fun g => decide (loc / 64 ≤ g) && decide (g ≤ (loc + n - 1) / 64)

/-- The granules of the siding that a core writes to whose check value fails: its committed task's, or its contestant's (R349, R395, R433). -/
def State.sideBad (s : State) (core : Nat) : List Nat :=
  match s.contestant core with
  | some (_, _, k) => k.bad
  | none => match (s.core core).task with
    | some t => t.bad
    | none => []

/-- Change the list of those granules. -/
def State.setSideBad (s : State) (core : Nat) (f : List Nat → List Nat) : State :=
  match s.contestant core with
  | some (n, _, _) => s.modContestant n (s.core core).scope.2 fun k => { k with bad := f k.bad }
  | none => s.modCore core fun c => { c with task := c.task.map fun t => { t with bad := f t.bad } }

/-- What a core's access to n bytes of global memory ends with when they fail: -6 in a poisoned granule, -3 in one of its siding whose check value
fails; 0 when they are sound (R245, R433, R435). -/
def State.accessFails (s : State) (core loc n : Nat) : Int :=
  if s.poisoned loc n then -6
  else if (s.sideBad core).any fun g => decide (loc / 64 ≤ g) && decide (g ≤ (loc + n - 1) / 64) then -3
  else 0

/-- The bytes of a siding that its commit lands: those of granules whose check value holds (R433). -/
def soundBytes (bad : List Nat) (siding : Store (Option Byte)) : Store (Option Byte) := siding.filter fun p => !bad.contains (p.1 / 64)

/-- Locations of one write whose granule is poisoned and is not wholly among the locations: its kept bytes fail (R434). -/
def State.keepsPoison (s : State) (locs : List Nat) : Bool :=
  locs.any fun l => s.isl.poison.contains (l / 64) && !(List.range 64).all fun i => locs.contains (l / 64 * 64 + i)

/-- A write that covers whole granules replaces them, poisoned or not (R434, R435). -/
def State.unpoisonAll (s : State) (locs : List Nat) : State :=
  { s with isl := { s.isl with poison := s.isl.poison.filter fun g => !(List.range 64).all fun i => locs.contains (64 * g + i) } }

/-- Bytes at their homes that a write may land: those of granules that it replaces, or whose kept bytes hold no error (R434). -/
def State.landable (s : State) (bytes : List (Nat × Byte)) : List (Nat × Byte) :=
  let locs := bytes.map Prod.fst
  bytes.filter fun p => !s.keepsPoison (locs.filter fun l => l / 64 == p.1 / 64)

/-- A write of the device itself, or of a kernel hart, at its homes: the granules whose kept bytes are poisoned are dropped and reported, and
those that it replaces are clean (R434, R435; log entry 89). -/
def State.landHome (s : State) (bytes : List (Nat × Byte)) (write : State → List (Nat × Byte) → State) : State :=
  let ok := s.landable bytes
  let bad := bytes.filter fun p => !ok.contains p
  let s := write (s.unpoisonAll (ok.map Prod.fst)) ok
  match bad with
  | p :: _ => s.machineCheck 3 (stationOfLoc p.1)
  | [] => s

/-! ### Writes -/

/-- Number of different 64-byte granules in a store. -/
def granuleCount : Store (Option Byte) → Nat
  | [] => 0
  | [_] => 1
  | a :: b :: r => (if a.1 / 64 = b.1 / 64 then 0 else 1) + granuleCount (b :: r)

/-- A write would add a granule beyond the write set's limit (R276). -/
def Core.setFull (c : Core) (loc n : Nat) : Bool := decide (1024 < granuleCount (overlay (overlay c.amoSet c.wset) (asBytes loc (List.replicate n 0))))

/-- A core's global write completes: that of a committed task's command joins its siding, or nothing once the task has ended as a failure; any
other joins the write set (R276, R349, R350). -/
def State.putGlobal (s : State) (core loc : Nat) (bs : List Byte) (sided : Bool) : State :=
  let c := s.core core
  if sided then
    match c.task with
    | some t => if t.committed then s.setCore core { c with task := some { t with siding := overlay t.siding (asBytes loc bs) } } else s
    | none => s
  else
    let s := if c.setFull loc bs.length then s.release core 3 else s
    s.modCore core fun c => { c with
      wset := overlay c.wset (asBytes loc bs)
      amoSet := bs.mapIdx (fun i _ => loc + i) |>.foldl (fun m l => Store.set none m l none) c.amoSet
      amoVers := c.amoVers.filter fun p => !(decide (loc ≤ p.1) && decide (p.1 < loc + bs.length)) }

/-- An AMO replaces bytes at their home (R284): it observes the old values, and its write is performed at its scope and joins the write set,
which first makes room (R276). -/
def State.amoWrite (s : State) (core sc loc : Nat) (bs : List Byte) : State :=
  let s := if (s.core core).setFull loc bs.length then s.release core 3 else s
  let s := (List.range bs.length).foldl (fun s i => match s.versions (loc + i) with
    | v :: _ => s.modCore core fun c => c.observe (loc + i) v.serial (widest v.rels)
    | [] => s) s
  let s := s.perform core sc (asBytes loc bs) []
  s.modCore core fun c => { c with
    wset := bs.mapIdx (fun i _ => loc + i) |>.foldl (fun m l => Store.set none m l none) c.wset
    amoSet := overlay c.amoSet (asBytes loc bs)
    amoVers := (c.amoVers.filter fun p => !(decide (loc ≤ p.1) && decide (p.1 < loc + bs.length))) ++ bs.mapIdx fun i _ => (loc + i, s.serial, sc) }

/-- The writes of a core to n bytes are released at a scope on their own: before an AMO on them (R284), or as a copy has filled them into a ring's slot
(R354). Those of a member of a tournament go into its contestant's siding (R395). -/
def State.releasePart (s : State) (core sc loc n : Nat) : State :=
  let c := s.core core
  let here := fun l => decide (loc ≤ l) && decide (l < loc + n)
  let part := c.wset.filter fun p => here p.1
  let amos := c.amoVers.filter fun p => here p.1
  if part.isEmpty && amos.isEmpty then s
  else if (s.contestant core).isSome then
    (s.modContestant (c.scope.1 - 1) c.scope.2 fun k => { k with siding := overlay k.siding part }).setCore core { c with
      wset := c.wset.filter fun p => !here p.1 }
  else
    (s.perform core sc part amos).setCore core { c with
      wset := c.wset.filter fun p => !here p.1
      amoSet := c.amoSet.filter fun p => !here p.1
      amoVers := c.amoVers.filter fun p => !here p.1
      own := overlay (overlay c.own (c.amoSet.filter fun p => here p.1)) part }

/-- Sizes of a siding as R349 counts it: granules of global writes, and payload bytes of remote writes rounded up to 64. -/
def sidingUse (bytes : Store (Option Byte)) (remote : List (Nat × Nat × Nat × List Byte × Option Nat)) : Nat :=
  64 * granuleCount bytes + remote.foldl (fun n r => n + (r.2.2.2.1.length + 63) / 64 * 64) 0

end Sys2Proof.Machine
end

