-- ==== Sys2Proof/Machine/Translate.lean ====
section
/-!
DEFINITION. Translation (R257 to R266): walks, leaves, placement, the stations' caches and fault records.
-/

namespace Sys2Proof.Machine

/-- How a request uses the memory it names (R262, R266): 0 read, 1 write, 2 read-modify-write. -/
structure Access where
  kind : Nat
  user : Bool
  deriving DecidableEq, Repr

/-- A walk's fault (R266): its kind (0 not-present, 1 malformed, 2 permission, 3 far-map) and level. -/
structure WalkFault where
  kind : Nat
  level : Nat
  deriving DecidableEq, Repr

/-- A leaf that a walk has found: its entry, its home location, its level and the page size. -/
structure Leaf where
  entry : Word
  loc : Nat
  level : Nat
  size : Nat
  /-- the next-table entries that the walk has passed: level and entry -/
  path : List (Nat × Word) := []
  deriving DecidableEq, Repr

/-- Field [hi:lo] of an entry. -/
def bitsOf (v : Word) (lo w : Nat) : Nat := (v.extractLsb' lo w).toNat

/-- The virtual address in a register (R257). -/
def vaOf (v : Word) : Nat := bitsOf v 0 52

/-- An 8-byte table entry as a walk reads it (R260). -/
def State.entryAt (s : State) (loc : Nat) : Word := BitVec.ofNat 64 (leNat (s.deviceBytes loc 8))

/-- Home location of a table that an entry names (R260). -/
def tableLoc (e : Word) : Nat := bitsOf e 20 9 * Config.channelBytes + bitsOf e 29 25 * 64

/-- A next-table entry is well formed (R260). DESIGN CHOICE: a table that would reach beyond its channel's last byte is none of the rule's
malformed entries; the model admits it and reads on into the next channel. -/
def tableOk (e : Word) : Bool := bitsOf e 54 10 == 0 && bitsOf e 2 18 == 0 && bitsOf e 29 25 % 64 == 0

/-- Page size of a leaf at a level (R260). -/
def pageSize (level : Nat) : Nat := 2 ^ (16 + 9 * (3 - level))

/-- Stripe granule of a leaf (R261). -/
def stripeG (e : Word) : Nat :=
  match bitsOf e 16 2 with
  | 0 => 256
  | 1 => 1024
  | 2 => 4096
  | _ => 65536

/-- A leaf breaks one of the rules R12 and R261 to R265 that do not depend on the far map. -/
def leafBad (poolSize : Nat) (e : Word) (level : Nat) : Bool :=
  let size := pageSize level
  let sw := bitsOf e 12 4
  let tier := bitsOf e 8 2
  let pool := e.getLsbD 10
  bitsOf e 18 2 != 0 || tier == 3 ||
    (if pool then
      level != 3 || tier != 0 || sw != 0 || bitsOf e 16 2 != 0 || bitsOf e 40 24 != 0 || decide (poolSize ≤ bitsOf e 20 20)
    else if tier == 0 then
      bitsOf e 54 10 != 0 || decide (9 < sw) || decide (size < stripeG e * 2 ^ sw) || bitsOf e 29 25 * 64 % stripeG e != 0
        || decide (Config.channelBytes < bitsOf e 29 25 * 64 + size / 2 ^ sw)
    else bitsOf e 48 16 != 0 || decide (5 < sw))

/-- The part of a virtual address that indexes down to a level (R260). -/
def levelIndex (level va : Nat) : Nat := va / 2 ^ (16 + 9 * (3 - level))

/-- The walk from a table (R260); fuel bounds the levels, and use gives the entries that a station has cached (R259). -/
def State.walkFrom (s : State) (use : Nat → Option Word) (va : Nat) : Nat → Nat → Nat → List (Nat × Word) → Except WalkFault Leaf
  | 0, level, _, _ => .error ⟨1, level⟩
  | k + 1, level, table, path =>
    let loc := table + 8 * (levelIndex level va % 512)
    let e := (use level).getD (s.entryAt loc)
    match bitsOf e 0 2 with
    | 0 => .error ⟨0, level⟩
    | 1 => if level = 3 ∨ tableOk e = false then .error ⟨1, level⟩ else s.walkFrom use va k (level + 1) (tableLoc e) (path ++ [(level, e)])
    | 2 => if level = 0 ∨ leafBad s.stn.poolSize e level = true then .error ⟨1, level⟩ else .ok ⟨e, loc, level, pageSize level, path⟩
    | _ => .error ⟨1, level⟩

/-- A walk from the ASID table (R258, R260). -/
def State.walkWith (s : State) (use : Nat → Option Word) (asid va : Nat) : Except WalkFault Leaf :=
  let loc := s.stn.asidTable + 16 * asid
  let e := s.entryAt loc
  match bitsOf e 0 2 with
  | 0 => .error ⟨0, 0⟩
  | 1 => if tableOk e = false ∨ s.entryAt (loc + 8) ≠ 0 then .error ⟨1, 0⟩ else s.walkFrom use va 4 0 (tableLoc e) []
  | _ => .error ⟨1, 0⟩

/-- A walk that reads every entry at its home. -/
def State.walk (s : State) (asid va : Nat) : Except WalkFault Leaf := s.walkWith (fun _ => none) asid va

/-- The table entries that a station has cached, as a walk may use them; whether one is still cached at a level is left open (R259). -/
def State.cachedTabs (s : State) (station asid va : Nat) (level : Nat) : Option Word :=
  if Config.pick s.free / 2 ^ level % 2 = 1 then none
  else (s.stn.tabs.find? fun t => t.station == station && t.asid == asid && t.level == level && t.index == levelIndex level va).map fun t => t.entry

/-- The access lacks a permission (R262). -/
def permBad (e : Word) (a : Access) : Bool :=
  (a.user && !e.getLsbD 4) || (a.kind != 1 && !e.getLsbD 2) || (a.kind != 0 && !e.getLsbD 3)

/-- The far frame that byte o of a page names, and its entry of the far map (R265). -/
def State.farEntry (s : State) (e : Word) (o : Nat) : Nat × Word :=
  let frame := bitsOf e 20 28 + o / 65536
  (frame, Store.get 0 s.stn.farMap (frame / 2 ^ 20))

/-- A far-map entry has a live port in its mask (R431); host ports are ports 18 and 19. -/
def State.farLive (s : State) (m : Word) : Bool := (List.range 20).any fun p => m.getLsbD (32 + p) && !s.isl.down.contains p

/-- A far-map entry names a host port that is strapped to mode 0, in its mask or as the port behind which its memory lies (R265, R427). -/
def farEndpoint (m : Word) : Bool :=
  (List.range 2).any fun p => (m.getLsbD (50 + p) || (m.getLsbD 62 && bitsOf m 52 10 == p)) && Config.strap p % 3 == 0

/-- Check the far map for byte o of a far page (R265, R427, R431): valid, of the tier's kind, and with a live port. -/
def State.farCheck (s : State) (e : Word) (level o : Nat) : Except WalkFault Unit :=
  let tier := bitsOf e 8 2
  if e.getLsbD 10 || tier == 0 then .ok ()
  else
    let m := (s.farEntry e o).2
    if !m.getLsbD 63 then .error ⟨3, level⟩
    else if m.getLsbD 62 != (tier == 2) || farEndpoint m then .error ⟨1, level⟩
    else if !s.farLive m then .error ⟨3, level⟩
    else .ok ()

/-- Home location of byte o of a page (R263 to R265). -/
def State.placeOf (s : State) (e : Word) (o : Nat) : Nat :=
  if e.getLsbD 10 then o / 128 * Config.channelBytes + (s.stn.poolBase + 2 * bitsOf e 20 20) * 64 + o % 128
  else if bitsOf e 8 2 = 0 then
    let g := stripeG e
    let w := 2 ^ bitsOf e 12 4
    (bitsOf e 20 9 + o / g % w) % 512 * Config.channelBytes + bitsOf e 29 25 * 64 + o / (g * w) * g + o % g
  else
    let (frame, m) := s.farEntry e o
    farBase + bitsOf m 52 11 * 2 ^ 49 + (bitsOf m 0 32 + frame % 2 ^ 20) * 65536 + o % 65536

/-- The far-map entry that an access at va of a far page uses, and the level of its leaf (R265, R431). -/
def State.farUse (s : State) (e : Word) (size va : Nat) : Option (Nat × Nat) :=
  if e.getLsbD 10 || bitsOf e 8 2 == 0 then none else some ((s.farEntry e (va % size)).1 / 2 ^ 20, if size = 2 ^ 34 then 1 else if size = 2 ^ 25 then 2 else 3)

/-- The station that translates a core's request (R259). -/
def stationOf (core va : Nat) : Nat := 4 * dieOf core + va / 2 ^ 16 % 4

/-- A cached translation serves the request (R259). -/
def Tlb.hits (t : Tlb) (station asid va : Nat) : Bool :=
  t.station == station && (t.asid == asid || t.leaf.getLsbD 5) && t.page == va / t.size

/-- A translation whose leaf is known: the first of its faults, malformed before permission before far-map, or the place (R262, R265, R266). -/
def State.useLeaf (s : State) (e : Word) (level size va : Nat) (a : Access) : Except WalkFault Nat :=
  match s.farCheck e level (va % size) with
  | .error f => if f.kind ≠ 1 ∧ permBad e a = true then .error ⟨2, level⟩ else .error f
  | .ok _ => if permBad e a then .error ⟨2, level⟩ else .ok (s.placeOf e (va % size))

/-- The level of a page size. -/
def levelOfSize (size : Nat) : Nat := if size = 2 ^ 34 then 1 else if size = 2 ^ 25 then 2 else 3

/-- A leaf's entry after an access: accessed, and dirty after a write (R261). -/
def Leaf.used (l : Leaf) (a : Access) : Word := l.entry ||| 0x40 ||| (if a.kind = 0 then 0 else 0x80)

/-- The station sets the accessed and dirty bits of a leaf at its home (R261). -/
def State.markLeaf (s : State) (l : Leaf) (a : Access) : State :=
  if l.used a = l.entry then s else s.partyWrite stationParty 3 l.loc [(l.used a).extractLsb' 0 8]

/-- A walk that succeeds: the place, the leaf and its page's size, and the state with the accessed and dirty bits set and the translation and the table entries
cached (R259, R261). The walk may use the station's cached table entries. -/
def State.walkFor (s : State) (station asid va : Nat) (a : Access) : Except WalkFault (Nat × Word × Nat × State) :=
  match s.walkWith (s.cachedTabs station asid va) asid va with
  | .error f => .error f
  | .ok l => match s.useLeaf l.entry l.level l.size va a with
    | .error f => .error f
    | .ok loc =>
      let s1 := s.markLeaf l a
      let t : Tlb := ⟨station, asid, va / l.size, l.size, l.used a⟩
      let tabs := l.path.map fun p => (⟨station, asid, p.1, levelIndex p.1 va, p.2⟩ : Tab)
      .ok (loc, l.used a, l.size, { s1 with stn := { s1.stn with
        tlbs := (s1.stn.tlbs.filter fun o => !(o.station == station && o.asid == asid && o.page == t.page && o.size == l.size)) ++ [t]
        tabs := (s1.stn.tabs.filter fun o => !tabs.any fun n => o.station == n.station && o.asid == n.asid && o.level == n.level && o.index == n.index)
          ++ tabs } })

/-- A cached translation that the request can use: the place, the leaf and its page's size. A first write to a page is not served by the cache, so that
its walk sets the dirty bit (R261); and whether an entry is still cached is left open (R259). -/
def State.cached (s : State) (station asid va : Nat) (a : Access) : Option (Except WalkFault Nat × Word × Nat) :=
  match s.stn.tlbs.find? fun t => t.hits station asid va with
  | none => none
  | some t =>
    if a.kind ≠ 0 ∧ t.leaf.getLsbD 7 = false then none
    else if Config.pick s.free % 2 = 1 then none
    else some (s.useLeaf t.leaf (levelOfSize t.size) t.size va a, t.leaf, t.size)

/-- A translation made at once, on behalf of the device itself (packets, descriptors, window accesses): the place of a byte. State.touch sets
the page's accessed and dirty bits. -/
def State.place (s : State) (asid va : Nat) (a : Access) : Except WalkFault Nat :=
  match s.walk asid va with
  | .error f => .error f
  | .ok l => s.useLeaf l.entry l.level l.size va a

/-- An access that the device makes for itself sets the accessed bit of a page, and a write the dirty bit (R261). -/
def State.touchPage (s : State) (asid va : Nat) (a : Access) : State :=
  match s.walk asid va with
  | .error _ => s
  | .ok l => match s.useLeaf l.entry l.level l.size va a with
    | .error _ => s
    | .ok _ => s.markLeaf l a

/-- The same for every page of n bytes. -/
def State.touch (s : State) (asid va n : Nat) (a : Access) : State :=
  if n = 0 then s else (List.range ((va + n - 1) / 65536 + 1 - va / 65536)).foldl (fun s i => s.touchPage asid ((va / 65536 + i) * 65536) a) s

/-- The storage-pool page whose backing bytes hold a location (R264). -/
def State.locPage (s : State) (loc : Nat) : Option Nat :=
  let g := loc % Config.channelBytes / 64
  if s.stn.poolBase ≤ g ∧ g < s.stn.poolBase + 2 * s.stn.poolSize then some ((g - s.stn.poolBase) / 2) else none

/-- A location lies in a page in transit, on which no access acts (R382). -/
def State.heldLoc (s : State) (loc : Nat) : Bool := s.census.transit.any fun t => s.locPage loc == some t.1

/-- Bytes of virtual memory as the device reads them for itself; none where a byte is not mapped. -/
def State.deviceRead (s : State) (asid va n : Nat) : Option (List Byte) :=
  (List.range n).mapM fun i => match s.place asid (va + i) ⟨0, false⟩ with
    | .ok loc => some (s.deviceByte loc)
    | .error _ => none

/-- The first of n bytes that the device itself cannot reach, with its fault (R266). -/
def State.deviceFault (s : State) (asid va n kind : Nat) : Option (Nat × WalkFault) :=
  (List.range n).findSome? fun i => match s.place asid (va + i) ⟨kind, false⟩ with
    | .ok _ => none
    | .error f => some (va + i, f)

/-- A request of the device itself is held on a fault, and a record goes to the kernel; one on the same page joins the record (R266). -/
def State.holdDevice (s : State) (asid va kind : Nat) (f : WalkFault) : State :=
  if s.stn.faults.any fun r => r.core == 30000 && r.asid == asid && r.va / 65536 == va / 65536 && r.access == kind then s
  else { s with
    fresh := s.fresh + 1
    stn := { s.stn with faults := s.stn.faults ++ [⟨asid, va, f.kind, f.level, kind, 30000, s.fresh, 0, .a, 0⟩] } }

/-- The device writes bytes of virtual memory at SYSTEM scope; a write that meets a fault is held, and those to its bytes after it (R266). -/
def State.deviceWrite (s : State) (asid va : Nat) (bs : List Byte) : State :=
  let wait := fun (s : State) => { s with stn := { s.stn with devHeld := s.stn.devHeld ++ [⟨asid, va, bs⟩] } }
  match s.deviceFault asid va bs.length 1 with
  | some (a, f) => wait (s.holdDevice asid a 1 f)
  | none =>
    if s.stn.devHeld.any fun w => w.asid == asid && decide (w.va < va + bs.length) && decide (va < w.va + w.bytes.length) then wait s
    else
      (s.touch asid va bs.length ⟨1, false⟩).landHome ((bs.mapIdx fun i b => match s.place asid (va + i) ⟨1, false⟩ with
        | .ok loc => [(loc, b)]
        | .error _ => []).flatten) fun s ws => s.perform stationParty 4 (ws.map fun w => (w.1, some w.2)) []

/-- The writes of the device itself that are held are tried again, in order; those to a page whose fault the kernel has declined are dropped
(R266, R267). -/
def State.retryDevice (s : State) (declined : Option (Nat × Nat)) : State :=
  let drop := fun (w : DevWrite) => match declined with
    | some (asid, va) => w.asid == asid && decide (w.va / 65536 ≤ va / 65536) && decide (va / 65536 ≤ (w.va + w.bytes.length - 1) / 65536)
    | none => false
  (s.stn.devHeld.filter fun w => !drop w).foldl (fun s w => s.deviceWrite w.asid w.va w.bytes) { s with stn := { s.stn with devHeld := [] } }

/-- The kernel has answered a record of the device itself: a read is tried again by what makes it, or is declined; writes are tried again, or are
dropped (R267). -/
def State.answerDevice (s : State) (r : FaultRec) (decline : Bool) : State :=
  if r.access = 0 then
    if decline then { s with stn := { s.stn with declined := s.stn.declined ++ [(r.asid, r.va / 65536)] } } else s
  else s.retryDevice (if decline then some (r.asid, r.va) else none)

/-- STINV and the stations' own invalidation (R271, R272): the entries that stay. -/
def keepsTlb (kind : Nat) (operand : Word) (t : Tlb) : Bool :=
  let asid := bitsOf operand 52 12
  let lo := bitsOf operand 16 36
  let hi := lo + bitsOf operand 0 16
  let first := t.page * (t.size / 65536)
  let meet := decide (first ≤ hi) && decide (lo < first + t.size / 65536)
  let g := t.leaf.getLsbD 5
  match kind with
  | 0 => false
  | 1 => g || t.asid != asid
  | 2 => g || t.asid != asid || !meet
  | _ => !meet

/-- The cached table entries that stay (R271). -/
def keepsTab (kind : Nat) (operand : Word) (t : Tab) : Bool :=
  match kind with
  | 1 | 2 => t.asid != bitsOf operand 52 12
  | _ => false

/-- Drop cached translations and table entries (R271). -/
def State.invalidate (s : State) (kind : Nat) (operand : Word) : State :=
  { s with stn := { s.stn with tlbs := s.stn.tlbs.filter (keepsTlb kind operand), tabs := s.stn.tabs.filter (keepsTab kind operand) } }

end Sys2Proof.Machine
end

