-- ==== Sys2Proof/Machine/Agents.lean ====
section
/-!
DEFINITION. Names of cores, tiles and groups (R316 to R320, R365), and the split-phase commands with their tokens (R242 to R245).
-/

namespace Sys2Proof.Machine

/-! ### Logical tiles and cores (R316, R365) -/

/-- The role map's entry of a logical tile (R365). -/
def State.tileMap (s : State) (t : Nat) : TileMap := (Store.get none s.census.map t).getD ⟨t, 0, none, 0⟩

/-- Put an entry of the role map. -/
def State.setTileMap (s : State) (t : Nat) (m : TileMap) : State :=
  { s with census := { s.census with map := Store.set none s.census.map t (if m = ⟨t, 0, none, 0⟩ then none else some m) } }

/-- The logical tile at a site. -/
def State.tileAt (s : State) (site : Nat) : Nat :=
  match s.census.map.find? fun p => match p.2 with | some m => m.site == site | none => false with
  | some p => p.1
  | none => site

/-- The role that a tile serves or is entering (R379). -/
def TileMap.roleNow (m : TileMap) : Nat := m.toward.getD m.role

/-- Logical number of a core (R316, R317). -/
def State.logicalOf (s : State) (core : Nat) : Nat :=
  let c := s.core core
  if c.logical ≠ 0 then c.logical - 1 else 4 * s.tileAt (siteOf core) + core % 4

/-- The site core that a logical number stands at: the core that a launch has bound to it, or the one that the role map gives (R316, R317,
R337). -/
def State.siteCore (s : State) (logical : Nat) : Nat :=
  match s.cores.find? fun p => p.2.logical == logical + 1 with
  | some p => p.1
  | none => 4 * (s.tileMap (logical / 4)).site + logical % 4

/-- The core counts as running for an access from an ASID (R316, R337). -/
def Core.runsIn (c : Core) (asid : BitVec 12) : Bool := (c.run == .running || c.run == .saved) && c.asid == asid

/-- The site core that a number names for an access from an ASID; none when it names no core (R316). -/
def State.named (s : State) (logical : Nat) (asid : BitVec 12) : Option Nat :=
  if Config.cores ≤ logical then none
  else if (s.tileMap (logical / 4)).roleNow ≠ 0 then none
  else
    let n := s.siteCore logical
    if (s.core n).runsIn asid && s.logicalOf n == logical then some n else none

/-- The cores of a tile. -/
def tileCores (tile : Nat) : List Nat := [4 * tile, 4 * tile + 1, 4 * tile + 2, 4 * tile + 3]

/-- A core that cannot take part in a join of an ASID (R164, R211, R326): it is idle or has halted, or runs another ASID. A core that a double fault
has stopped is not idle, so that a join waits for its time-out (DESIGN CHOICE, log 30). -/
def Core.absent (c : Core) (asid : BitVec 12) : Bool := c.run == .idle || c.run == .done || c.asid != asid

/-! ### Groups (R318 to R320) -/

/-- A valid entry of a group table: size, home station, and location of the binding table. -/
structure Group where
  size : Nat
  home : Nat
  binding : Nat
  deriving DecidableEq, Repr

/-- The entry of a group; none when it is invalid or malformed (R318). -/
def State.group (s : State) (asid grp : Nat) : Option Group :=
  let loc := Store.get 0 s.stn.groupTab asid + 16 * grp
  let e := s.entryAt loc
  let f := s.entryAt (loc + 8)
  let size := bitsOf f 32 14
  if bitsOf e 0 2 ≠ 1 ∨ bitsOf e 54 10 ≠ 0 ∨ bitsOf e 2 18 ≠ 0 ∨ bitsOf f 46 18 ≠ 0 ∨ bitsOf f 24 8 ≠ 0 ∨ bitsOf f 0 20 ≠ 0 ∨ size = 0 ∨ Config.cores < size then none
  else some ⟨size, bitsOf f 20 4, tableLoc e⟩

/-- The logical core bound to a rank (R319). -/
def State.binding (s : State) (g : Group) (rank : Nat) : Nat := Nat.min (leNat (s.deviceBytes (g.binding + 2 * rank) 2)) 0x3FFF

/-- A membership slot (R320). -/
def Core.gmem (c : Core) (n : Nat) : Word := Store.get 0 c.ctl.gmem n

/-- Put a membership slot. -/
def Core.setGmem (c : Core) (n : Nat) (v : Word) : Core := { c with ctl := { c.ctl with gmem := Store.set 0 c.ctl.gmem n v } }

/-- The slot that holds a group (R322). -/
def Core.slotOf (c : Core) (grp : Nat) : Option Nat :=
  (List.range 4).find? fun n => (c.gmem n).getLsbD 63 && bitsOf (c.gmem n) 40 8 == grp

/-- Rank in a slot. -/
def gmemRank (v : Word) : Nat := bitsOf v 16 14

/-- Epoch in a slot. -/
def gmemEpoch (v : Word) : Nat := bitsOf v 48 8

/-- A slot's word (R320). -/
def mkGmem (epoch grp rank size : Nat) : Word := BitVec.ofNat 64 (2 ^ 63 + epoch % 256 * 2 ^ 48 + grp * 2 ^ 40 + rank * 2 ^ 16 + size)

/-- The key of a group's objects in the state. -/
def groupKey (asid grp : Nat) : Nat := asid * 256 + grp

/-- The cores whose slot names a group, in the ASID (R320). -/
def State.membersOf (s : State) (asid grp : Nat) : List Nat :=
  (s.cores.filter fun p => p.2.asid.toNat == asid && p.2.run != .idle && (p.2.slotOf grp).isSome).map Prod.fst

/-! ### Commands (R242 to R248) -/

/-- The classes of R274: R, W, CR, CW, MR, MW. -/
def clR : BitVec 6 := 1
/-- GST and the write of an AMO. -/
def clW : BitVec 6 := 2
/-- Global reads of copies, and GETR. -/
def clCR : BitVec 6 := 4
/-- Global writes of copies, and remote writes. -/
def clCW : BitVec 6 := 8
/-- Global-stream reads. -/
def clMR : BitVec 6 := 16
/-- MST rows. -/
def clMW : BitVec 6 := 32

/-- The classes of the accesses that a command makes (R274). -/
def CmdOp.classes : CmdOp → BitVec 6
  | .copy out .. => if out then clCW else clCR
  | .putr .. | .deposit | .notify | .mcast .. | .reduce .. => clCW
  | .getr .. => clCR
  | .mldStream .. => clMR
  | .mst => clMW
  | .gld .. => clR
  | .gst .. => clW
  | .amo .. => clR ||| clW
  | _ => 0

/-- An acquiring AMO of the core is not complete (R284). -/
def Cmd.acquiring (k : Cmd) : Bool :=
  match k.op with
  | .amo _ order .. => order % 2 == 1
  | _ => false

/-- A PHASE of the core is not complete (R286). -/
def Core.inPhase (c : Core) : Bool :=
  match c.wait with
  | some (.barrier _ _ kind _ _ _) => kind == 2
  | _ => false

/-- Accesses of some classes may start: no FENCE that names them as successors, no acquiring AMO and no PHASE holds them back (R282, R284,
R286). -/
def classFree (cx : Ctx) (cl : BitVec 6) : CM Unit := do
  let c ← get
  stallIf (c.fences.any (fun f => f.succ &&& cl != 0) || (cl &&& 0x1F != 0 && c.cmds.any Cmd.acquiring)
    || (cl != 0 && cx.st == .e && c.inPhase))

/-- Command slots in use (R242). -/
def Core.slotsUsed (c : Core) : Nat := c.cmds.countP fun k => k.slot

/-- The lowest command slot that is free (R242). -/
def Core.freeSlot (c : Core) : Nat := ((List.range 8).find? fun n => !c.cmds.any fun k => k.slot && k.slotNo == n).getD 0

/-- Scoreboard entries in use (R246). -/
def Core.entriesUsed (c : Core) : Nat := c.cmds.foldl (fun n k => n + (if k.rd.isSome then 1 else 0) + (if k.wr.isSome then 1 else 0)) 0

/-- What a command word asks for at its issue. -/
structure Start where
  tok : BitVec 5
  slot : Bool := true
  op : CmdOp
  rd : Option (Nat × Nat) := none
  wr : Option (Nat × Nat) := none
  deriving DecidableEq, Repr

/-- What a command word waits for before it issues, and so before it raises anything: its classes may start, and a slot, scoreboard entries and
its token are free (R60, R242, R244, R246, R282). -/
def cmdRoom (cx : Ctx) (cl : BitVec 6) (slot : Bool) (tok : BitVec 5) (entries : Nat) : CM Unit := do
  classFree cx cl
  let c ← get
  stallIf (slot && decide (8 ≤ c.slotsUsed))
  stallIf (decide (16 < c.entriesUsed + entries))
  destFree cx (if tok = 0 then 0 else (c.seq cx.st).home tok)

/-- A command starts: its slot, entries, token home and captured operands (R242, R244, R246). -/
def startCmd (cx : Ctx) (i : Instr) (k : Start) : DM Nat := do
  let id ← freshId
  onCore cx.core do
    cmdRoom cx k.op.classes k.slot k.tok ((if k.rd.isSome then 1 else 0) + (if k.wr.isSome then 1 else 0))
    let c ← get
    let h := if k.tok = 0 then 0 else (c.seq cx.st).home k.tok
    set (Core.setPend { c with cmds := c.cmds ++ [{
      id := id
      strm := cx.st
      word := (encode i).getD 0
      at_ := cx.pc.setWidth 19
      tok := k.tok
      home := h
      slot := k.slot
      slotNo := if k.slot then c.freeSlot else 0
      op := k.op
      rd := k.rd
      wr := k.wr
      user := !c.ctl.lvl
      sided := c.committed }] } cx.st h)
  pure id

/-- A command of a core. -/
def Core.cmd? (c : Core) (id : Nat) : Option Cmd := c.cmds.find? fun k => k.id == id

/-- Change a command of a core. -/
def Core.modCmd (c : Core) (id : Nat) (f : Cmd → Cmd) : Core := { c with cmds := c.cmds.map fun k => if k.id = id then f k else k }

/-- Change a command. -/
def State.modCmd (s : State) (core id : Nat) (f : Cmd → Cmd) : State := s.modCore core fun c => c.modCmd id f

/-- Where the state of a target stands: 0 to 3 the A and B latches and 4, 5 the metadata latches, which MSTAT shows, then the four scale arrays
(R199, R213). The codes are 0 empty, 1 full, 2 pending, 3 void. -/
def latchOf (target : Nat) : Nat := if target < 4 then target else if 8 ≤ target then target - 4 else target + 2

/-- Put the state of a target. -/
def Core.setLatch (c : Core) (target : Nat) (st : BitVec 2) : Core :=
  { c with mat := { c.mat with latch := Store.set 0 c.mat.latch (latchOf target) st } }

/-- The target of a load. -/
def MatWord.target? : MatWord → Option Nat
  | .mld _ t .. => some t
  | .stream _ t => some t
  | _ => none

/-- A load into a target has ended, and left the queue: the target stays pending while a later load into it is queued, and is otherwise full or,
after a failure, void; elements have also reset their scale array (R199, R204, R205). -/
def Core.endLoad (c : Core) (target : Nat) (ok : Bool) : Core :=
  let later := fun t => c.mat.queue.any fun e => e.word.target? == some t
  let c := c.setLatch target (if later target then 2 else if ok then 1 else 3)
  if target < 4 ∧ later (target + 4) = false then c.setLatch (target + 4) 0 else c

/-- MGSR while a stream runs, after so many latch rows (R206). -/
def mgsrOf (done va : Nat) : Word := BitVec.ofNat 64 (2 ^ 63 + done % 128 * 2 ^ 55 + va % 2 ^ 52)

/-- A global stream has ended: it leaves the queue, and its target is full or void (R205). -/
def Core.endStream (c : Core) (k : Cmd) (ok : Bool) : Core :=
  match k.op with
  | .mldStream target .. =>
    { c with mat := { c.mat with
      mgsr := c.mat.mgsr &&& 0x7FFFFFFFFFFFFFFF
      queue := c.mat.queue.filter fun e => match e.word with
        | .stream id _ => id != k.id
        | _ => true } }.endLoad target ok
  | _ => c

/-- The units of the matrix slice look at their queue (R200). -/
def State.kickMat (s : State) (core : Nat) : State := ((s.post (.mldFill core)).post (.multiplyStart core)).post (.mstRowSend core)

/-- A command gives back the staging buffer of its tile's points network (R238). -/
def State.unstage (s : State) (core id : Nat) : State :=
  if (s.tile (siteOf core)).staging.any fun g => g.core == core && g.id == id then
    s.modTile (siteOf core) fun t => { t with staging := t.staging.filter fun g => !(g.core == core && g.id == id) }
  else s

/-- A command ends with a status; its scoreboard entries are freed (R247), and the status is to be written. who and addr are the core and the
address that a trap record would name (R409). -/
def State.endCmd (s : State) (core id : Nat) (status : Int) (who addr : Nat) : State :=
  let s := match (s.core core).cmd? id with
    | some k => match k.op with
      | .mldStream .. => (s.modCore core fun c => c.endStream k (status = 0)).kickMat core
      | _ => s
    | none => s
  ((s.unstage core id).modCmd core id fun k => { k with status := some (status, who, addr), rd := none, wr := none, xl := none, held := false }).post
    (.tokenStatusWrite core id)

/-- A command that returns a value ends (R269, R284). -/
def State.endCmdWith (s : State) (core id : Nat) (v : Word) : State := (s.modCmd core id fun k => { k with result := some v }).endCmd core id 0 0 0

/-- The trap that a status raises, as cause and subcode (R164, R170, R205, R245, R270, R303, R361). -/
def statusCause (op : CmdOp) (st : Int) : Option (Nat × Nat) :=
  if st = -1 then some (cRemote, 0)
  else if st = -2 then some (cRemote, 1)
  else if st = -3 then some (cIntegrity, 0)
  else if st = -4 then some (cDeposit, 0)
  else if st = -5 then some (cAccess, match op with
    | .mldStream .. => 1
    | .gld .. | .gst .. | .amo .. => 2
    | .query .. => 8
    | _ => 0)
  else if st = -6 then some (cUncorrectable, 0)
  else if st = -7 then some (cAccess, 4)
  else if st = -15 then some (cJoin, 0)
  else if st = -16 then some (cJoin, 1)
  else if st = -17 then some (cJoin, 2)
  else none

/-- Granule number g of a row of n bytes at va: its offset in the row and its length. Granules end at 64-byte boundaries of the virtual
address (R253). -/
def chunkOf (va n g : Nat) : Nat × Nat :=
  let off := if g = 0 then 0 else (va / 64 + g) * 64 - va
  (off, Nat.min n ((va / 64 + g + 1) * 64 - va) - off)

/-- ULM row and global row of row i in progress order (R253). -/
def copyRow (perm : List Nat) (out inv : Bool) (i : Nat) : Nat × Nat :=
  let p := perm.getD i i
  if inv == out then (i, p) else (p, i)

/-- The virtual address and length of the next access of a command, and how it uses the memory (R262); none when it makes none. -/
def Cmd.target (k : Cmd) : Option (Nat × Nat × Nat) :=
  match k.op with
  | .copy out _ _ _ _ _ rb rows va gs perm inv _ _ =>
    if rows ≤ k.row then none
    else
      let r := va + (copyRow perm out inv k.row).2 * gs
      let (off, n) := chunkOf r rb k.gran
      some (r + off, n, if out then 1 else 0)
  | .mldStream _ _ srcbytes va stride _ _ =>
    let r := va + k.row * stride
    let (off, n) := chunkOf r srcbytes k.gran
    some ((r + off) % 2 ^ 52, n, 0)
  | .gld va size _ => some (va, 2 ^ size, 0)
  | .gst va size _ => some (va, 2 ^ size, 1)
  | .amo _ _ _ va .. => some (va, 8, 2)
  | .query va .. => some (va, 64, 2)
  | _ => none

/-- The address that the trap of a failed access names: of a stream, that of the failing row (R205, R270). -/
def Cmd.failVa (k : Cmd) (va : Nat) : Nat :=
  match k.op with
  | .mldStream _ _ _ base stride _ _ => (base + k.row * stride) % 2 ^ 52
  | _ => va

/-- The address that the trap names of a command whose next access fails. -/
def Cmd.badVa (k : Cmd) : Nat := match k.target with | some (va, _, _) => k.failVa va | none => 0

/-- The ULM address of the granule at which a copy stands (R245). -/
def Cmd.ulmAddr (k : Cmd) : Nat :=
  match k.op with
  | .copy out _ _ _ addr ls rb _ va gs perm inv _ _ =>
    let (ur, gr) := copyRow perm out inv k.row
    addr + ur * ls + (chunkOf (va + gr * gs) rb k.gran).1
  | _ => 0

/-- The status trap of a command, when its status raises one (R245, R409). -/
def Cmd.statusTrap (k : Cmd) : Option StatusTrap :=
  match k.status with
  | none => none
  | some (st, who, addr) =>
    match statusCause k.op st with
    | none => none
    | some (cause, sub) => some {
      cause := cause
      sub := sub
      addr := BitVec.ofNat 64 addr
      info := BitVec.ofNat 64 (k.tok.toNat + (if k.strm = .e then 32 else 0) + 2 ^ 32 * who)
      word := k.at_
      ulm := k.ulmAddr }

/-- The number of no record: one more than the greatest index (R341, R350). -/
def noRecord : Nat := 2 ^ 20

/-- A detached command of a task that yielded reports to its record (R347); one of a task that has ended as a failure reports to none (R350). -/
def State.noteDetached (s : State) (asid : Nat) (k : Cmd) : State :=
  if noRecord < k.detached then s
  else match k.status with
  | none => s
  | some (st, _, _) =>
    let key := asid * 2 ^ 20 + (k.detached - 1)
    match Store.get none s.recs key with
    | none => s
    | some r =>
      let st' := if k.strm = .a ∧ r.tok = k.tok.toNat ∧ st ≠ 0 then st else if r.status = 0 then st else r.status
      let r' := { r with outstanding := r.outstanding - 1, status := st' }
      let s := { s with recs := Store.set none s.recs key (some r') }
      if r'.outstanding = 0 then s.post (.taskReady asid r.grp (k.detached - 1)) else s

/-- The token register and class of a status trap, as its INFO holds them (R409). -/
def StatusTrap.tokNo (t : StatusTrap) : Nat := bitsOf t.info 0 6

/-- A status trap takes its place among those that are due: after those whose statuses were written before, and in one cycle by token register
(R405). -/
def insertDue (t : StatusTrap) : List StatusTrap → List StatusTrap
  | [] => [t]
  | u :: r => if t.since = u.since ∧ u.vrep = none ∧ t.tokNo < u.tokNo then t :: u :: r else u :: insertDue t r

/-- TOKEN_STATUS_WRITE: the status, or the value, is written to the captured home; a status other than 0 makes its trap due (R244, R245). -/
def execTokenStatusWrite (core id : Nat) (s : State) : Out :=
  let c := s.core core
  match c.cmd? id with
  | none => .next s
  | some k =>
    match k.status with
    | none => .next s
    | some (st, _, _) =>
      let c1 := { c with cmds := c.cmds.filter fun j => j.id != id }
      if k.detached ≠ 0 then .next ((s.setCore core c1).noteDetached c.asid.toNat k)
      else
        let v := k.result.getD (BitVec.ofInt 64 st)
        let c2 := (c1.clearPend k.strm k.home).putHome k.strm k.home (v.setWidth 1024)
        let c3 := match k.statusTrap with
          | some t => c2.modSeq k.strm fun q => { q with due := insertDue { t with since := s.cycle } q.due }
          | none => c2
        .next (s.setCore core c3)

/-- An engine's access to n bytes of ULM from a waits for an older entry that conflicts with it (R247, R248). -/
def Core.engineBlocked (c : Core) (id a n : Nat) (write : Bool) : Bool :=
  c.cmds.any fun k => decide (k.id < id) && (meets a n k.wr || (write && meets a n k.rd))

end Sys2Proof.Machine
end

