-- ==== Sys2Proof/Machine/ScalarFloat.lean ====
section
/-!
DEFINITION. The scalar floating-point words of the E-stream (R141 to R148).
-/

namespace Sys2Proof.Machine

/-- The encoding of a format in the low bits of a register (R128). -/
def low (f : Fmt) (w : Word) : Nat := w.toNat % 2 ^ f.width

/-- The sign of an exact zero sum (R141). -/
def zeroNeg (rm : Rm) : Bool := rm == .rdn

/-- Round a result under the word's mode, its saturation and the subnormal policy (R115, R116, R141). -/
def deliver (cx : Ctx) (f : Fmt) (draw : BitVec 32) (r : Val × BitVec 5) : Nat × BitVec 5 :=
  let o := f.output (fpSub cx.fpctl) (f.round r.1 cx.mode cx.sat draw)
  (o.1, o.2 ||| r.2)

/-- Deliver a result that is not rounded: FMIN, FMAX (R142). The suffix .sat, which R141 admits, has no effect on it (DESIGN CHOICE: R142 does not
say whether an infinite operand is then delivered as the largest finite value). -/
def deliverExact (cx : Ctx) (f : Fmt) (r : Val × BitVec 5) : Nat × BitVec 5 :=
  let o := f.output (fpSub cx.fpctl) (f.round r.1 .rne false 0)
  (o.1, o.2 ||| r.2)

/-- Two sources, one rounding (R141, R142). -/
def fpu2 (op : Rm → Val → Val → Val × BitVec 5) (f : BitVec 2) (q : BitVec 2) (d x t : BitVec 5) (cx : Ctx) : CM Unit := do
  fpBegin cx
  let fm := Fmt.ofCode f
  let a ← rdSrc cx q x
  let b ← rdX cx t
  let dr ← drawM cx
  let sub := fpSub cx.fpctl
  let r := deliver cx fm dr (op cx.mode (fm.input sub (low fm a)) (fm.input sub (low fm b)))
  room (wrDst cx q d 0)
  fpEnd cx r.2
  wrDst cx q d (BitVec.ofNat 64 r.1)

/-- FMIN and FMAX (R142). -/
def fpuMin (less : Bool) (f : BitVec 2) (q : BitVec 2) (d x t : BitVec 5) (cx : Ctx) : CM Unit := do
  fpBegin cx
  let fm := Fmt.ofCode f
  let a ← rdSrc cx q x
  let b ← rdX cx t
  let sub := fpSub cx.fpctl
  let r := deliverExact cx fm (Val.minMax less (fm.input sub (low fm a)) (fm.input sub (low fm b)))
  room (wrDst cx q d 0)
  fpEnd cx r.2
  wrDst cx q d (BitVec.ofNat 64 r.1)

/-- FADD (R142). -/
def execFadd (n : BitVec 3) (d x t : BitVec 5) (q f : BitVec 2) : State → Out :=
  issueU (.fadd n d x t q f) (fpu2 (fun rm a b => Val.add (zeroNeg rm) a b) f q d x t)

/-- FSUB (R142). -/
def execFsub (n : BitVec 3) (d x t : BitVec 5) (q f : BitVec 2) : State → Out :=
  issueU (.fsub n d x t q f) (fpu2 (fun rm a b => Val.add (zeroNeg rm) a b.negate) f q d x t)

/-- FMUL (R142). -/
def execFmul (n : BitVec 3) (d x t : BitVec 5) (q f : BitVec 2) : State → Out :=
  issueU (.fmul n d x t q f) (fpu2 (fun _ a b => a.mul b) f q d x t)

/-- FMIN (R142). -/
def execFmin (n : BitVec 3) (d x t : BitVec 5) (q f : BitVec 2) : State → Out := issueU (.fmin n d x t q f) (fpuMin true f q d x t)

/-- FMAX (R142). -/
def execFmax (n : BitVec 3) (d x t : BitVec 5) (q f : BitVec 2) : State → Out := issueU (.fmax n d x t q f) (fpuMin false f q d x t)

/-- FMA (R143). -/
def execFma (n : BitVec 3) (d x t : BitVec 5) (f : BitVec 2) : State → Out :=
  issueU (.fma n d x t f) fun cx => do
    fpBegin cx
    let fm := Fmt.ofCode f
    let a ← rdX cx x
    let b ← rdX cx t
    let c ← rdX cx d
    let dr ← drawM cx
    let sub := fpSub cx.fpctl
    let r := deliver cx fm dr
      (Val.fma (zeroNeg cx.mode) (fm.input sub (low fm a)) (fm.input sub (low fm b)) (fm.input sub (low fm c)))
    room (wrX cx d 0)
    fpEnd cx r.2
    wrX cx d (BitVec.ofNat 64 r.1)

/-- The result of the divide-and-root unit: late, with its flags set at completion, unless an enable asks for a precise trap (R120,
R144). -/
def fpuLate (r : Nat × BitVec 5) (q : BitVec 2) (d : BitVec 5) (cx : Ctx) : CM Unit :=
  if fpEnables cx.fpctl ≠ 0 then do
    room (wrDst cx q d 0)
    fpEnd cx r.2
    wrDst cx q d (BitVec.ofNat 64 r.1)
  else wrLate cx q d (BitVec.ofNat 64 r.1) r.2

/-- FDIV (R144). -/
def execFdiv (n : BitVec 3) (d x t : BitVec 5) (q f : BitVec 2) : State → Out :=
  issueLate (.fdiv n d x t q f) fun cx => do
    fpBegin cx
    unitFree cx
    let fm := Fmt.ofCode f
    let a ← rdSrc cx q x
    let b ← rdX cx t
    let dr ← drawM cx
    let sub := fpSub cx.fpctl
    fpuLate (deliver cx fm dr ((fm.input sub (low fm a)).div (fm.input sub (low fm b)))) q d cx

/-- FSQRT (R144). -/
def execFsqrt (n : BitVec 3) (d x : BitVec 5) (q f : BitVec 2) : State → Out :=
  issueLate (.fsqrt n d x q f) fun cx => do
    fpBegin cx
    unitFree cx
    let fm := Fmt.ofCode f
    let a ← rdSrc cx q x
    let dr ← drawM cx
    fpuLate (deliver cx fm dr (fm.input (fpSub cx.fpctl) (low fm a)).sqrt) q d cx

/-- FCMP (R145). -/
def execFcmp (n : BitVec 3) (d x t : BitVec 5) (p : BitVec 1) (f : BitVec 2) (k : BitVec 3) : State → Out :=
  issueU (.fcmp n d x t p f k) fun cx => do
    fpBegin cx
    let fm := Fmt.ofCode f
    let a ← rdX cx x
    let b ← rdX cx t
    let sub := fpSub cx.fpctl
    let r := Val.cmp k.toNat (fm.input sub (low fm a)) (fm.input sub (low fm b))
    room (setCompare cx d p false)
    fpEnd cx r.2
    setCompare cx d p r.1

/-- An element of a format in a register: zeros above a floating-point value, sign or zero extension of an integer (R128). -/
def Conv.toReg (c : Conv) (b : Nat) : Word :=
  match c with
  | .int true w => BitVec.ofInt 64 (sextNat w b)
  | _ => BitVec.ofNat 64 b

/-- FCVT (R146). -/
def execFcvt (n : BitVec 3) (d a c x : BitVec 5) : State → Out :=
  issueU (.fcvt n d a c x) fun cx => do
    fpBegin cx
    let dst := Conv.ofCode x
    let src := Conv.ofCode c
    let v ← rdX cx a
    let dr ← if dst.draws src then drawM cx else pure 0
    let sub := fpSub cx.fpctl
    let r := dst.convert sub (src.value sub v.toNat) cx.mode cx.sat dr
    room (wrX cx d 0)
    fpEnd cx r.2
    wrX cx d (dst.toReg r.1)

/-- FCLASS (R147). -/
def execFclass (n : BitVec 3) (d x : BitVec 5) (f : BitVec 2) : State → Out :=
  issueU (.fclass n d x f) fun cx => do
    let fm := Fmt.ofCode f
    let v ← rdX cx x
    wrX cx d (BitVec.ofNat 64 (fm.classOf (low fm v)))

end Sys2Proof.Machine
end

