-- ==== Sys2Proof/Machine/Lanes.lean ====
section
/-!
DEFINITION. Lanes, masks and the lane functions of the vector words (R172, R173, R179 to R192): what an operation computes from the
operands that were captured at issue.
-/

namespace Sys2Proof.Machine

/-! ### Lanes -/

/-- Lane i of width w (R172). -/
def lane (w : Nat) (v : Vec) (i : Nat) : Nat := v.toNat / 2 ^ (w * i) % 2 ^ w

/-- A register from its lanes. -/
def ofLanes (w : Nat) (ls : List Nat) : Vec := BitVec.ofNat 1024 (ls.foldr (fun x acc => x % 2 ^ w + 2 ^ w * acc) 0)

/-- Element i of an operation over n elements is active (R173). -/
def active (k : Mask) (n i : Nat) : Bool := k.getLsbD (128 * i / n)

/-- The elements of an operation over n elements: f of the active ones, old of the others; and the flags of the active ones (R173). -/
def mapLanes (n : Nat) (k : Mask) (old : Nat → Nat) (f : Nat → Nat × BitVec 5) : List Nat × BitVec 5 :=
  let r := (List.range n).map fun i => if active k n i then f i else (old i, 0)
  (r.map Prod.fst, r.foldl (fun a p => a ||| p.2) 0)

/-- Width of an integer lane code (R178). -/
def laneWidth (w : BitVec 2) : Nat := 8 * 2 ^ w.toNat

/-- Clamp to the signed range of w bits. -/
def clampS (w : Nat) (i : Int) : Nat :=
  if i < -(2 ^ (w - 1) : Int) then toBits w (-(2 ^ (w - 1) : Int)) else if (2 ^ (w - 1) - 1 : Int) < i then 2 ^ (w - 1) - 1 else toBits w i

/-! ### Integer lanes (R179) -/

/-- The integer operations by fn[4:2]. -/
def laneInt (op w : Nat) (sat : Bool) (x y : Nat) : Nat :=
  let sx := sextNat w x
  let sy := sextNat w y
  match op with
  | 0 => if sat then clampS w (sx + sy) else (x + y) % 2 ^ w
  | 1 => if sat then clampS w (sx - sy) else toBits w ((x : Int) - y)
  | 2 => if sat then clampS w (sx * sy) else (x * y) % 2 ^ w
  | 3 => if sx < sy then x else y
  | 4 => if sx < sy then y else x
  | 5 => if w ≤ y then 0 else (x * 2 ^ y) % 2 ^ w
  | 6 => if w ≤ y then 0 else x / 2 ^ y
  | _ => toBits w (sx / (2 ^ Nat.min y (w - 1) : Nat))

/-! ### Floating lanes (R180, R181, R184) -/

/-- Round one lane under the captured mode (R141, R180). -/
def laneFp (cx : Ctx) (f : Fmt) (draw : BitVec 32) (r : Val × BitVec 5) : Nat × BitVec 5 := deliver cx f draw r

/-- The floating-point operations of major 0x25 by fn[4:2] (R180). -/
def laneFlt (cx : Ctx) (f : Fmt) (op : Nat) (draw : BitVec 32) (x y : Nat) : Nat × BitVec 5 :=
  let sub := fpSub cx.fpctl
  let a := f.input sub x
  let b := f.input sub y
  match op with
  | 0 => laneFp cx f draw (Val.add (zeroNeg cx.mode) a b)
  | 1 => laneFp cx f draw (Val.add (zeroNeg cx.mode) a b.negate)
  | 2 => laneFp cx f draw (a.mul b)
  | 3 => deliverExact cx f (Val.minMax true a b)
  | 4 => deliverExact cx f (Val.minMax false a b)
  | 5 => laneFp cx f draw a.rcp
  | 6 => laneFp cx f draw a.rsqrt
  | _ => deliverExact cx f (a.abs, sigFlag [a])

/-- The multiply-add forms of major 0x26 by fn[4:2] (R181): g is the format of the addend and the result. -/
def laneFma (cx : Ctx) (f g : Fmt) (op : Nat) (draw : BitVec 32) (x y d : Nat) : Nat × BitVec 5 :=
  let sub := fpSub cx.fpctl
  let a := f.input sub x
  let b := f.input sub y
  let c := g.input sub d
  let z := zeroNeg cx.mode
  laneFp cx g draw (match op with
    | 1 => Val.fma z a b c.negate
    | 2 => Val.fma z a.negate b c
    | _ => Val.fma z a b c)

/-- VSCALE and VUNSCALE (R184). -/
def laneScale (cx : Ctx) (f : Fmt) (un : Bool) (draw : BitVec 32) (x s : Nat) : Nat × BitVec 5 :=
  if s = 0xFF then (f.nan, fNV)
  else
    let a := f.input (fpSub cx.fpctl) x
    let k : Int := if un then 127 - (s : Int) else (s : Int) - 127
    let p := scaleNat 1 k
    laneFp cx f draw (match a with
      | .fin n m d => (.fin n (m * p.1) (d * p.2), 0)
      | .nan g => (.nan false, flagIf g fNV)
      | .inf n => (.inf n, 0))

/-- One lane of a compare (R185, R186): kinds of the integers, or of the floats. -/
def laneCmp (cx : Ctx) (flt : Bool) (kind : Nat) (ty : BitVec 2) (x y : Nat) : Bool × BitVec 5 :=
  if flt then
    let f := Fmt.ofCode ty
    let sub := fpSub cx.fpctl
    Val.cmp (kind + 1) (f.input sub x) (f.input sub y)
  else
    let w := laneWidth ty
    (match kind with
      | 0 => x == y
      | 1 => decide (sextNat w x < sextNat w y)
      | 2 => decide (x < y)
      | _ => (x &&& y) != 0, 0)

/-! ### Conversions over groups (R182, R183) -/

/-- Element i of a group of registers in a format of lane width w; a bit-plane format reads its k planes (R121, R172). -/
def elemOf (c : Conv) (w : Nat) (regs : List Vec) (i : Nat) : Nat :=
  match c with
  | .bp k =>
    let v := regs.getD (i / 128) 0
    (List.range k).foldl (fun acc p => 2 * acc + (if v.getLsbD (128 * p + i % 128) then 1 else 0)) 0
  | _ => lane w (regs.getD (i / (1024 / w)) 0) (i % (1024 / w))

/-- The register of a bit-plane group from its 128 elements of k bits (R121, R172). -/
def ofPlanes (k : Nat) (es : List Nat) : Vec :=
  ofLanes 128 ((List.range k).map fun p => es.foldr (fun e acc => e / 2 ^ (k - 1 - p) % 2 + 2 * acc) 0)

/-- The destination group from its elements (R183). -/
def groupOf (c : Conv) (w : Nat) (es : List Nat) (g : Nat) : List Vec :=
  (List.range g).map fun j =>
    match c with
    | .bp k => ofPlanes k ((es.drop (128 * j)).take 128)
    | _ => ofLanes w ((es.drop (1024 / w * j)).take (1024 / w))

/-! ### Shuffles (R187) -/

/-- Lane i of a shuffle of lane count n, by fn[4:2]. -/
def laneShuffle (op w n : Nat) (a b : Vec) (i : Nat) : Nat :=
  match op with
  | 0 => let y := lane w b i; if n ≤ y then 0 else lane w a y
  | 1 => lane w (if i % 2 = 0 then a else b) (i / 2)
  | 2 => lane w (if i % 2 = 0 then a else b) (n / 2 + i / 2)
  | 3 => if i < n / 2 then lane w a (2 * i) else lane w b (2 * (i - n / 2))
  | 4 => if i < n / 2 then lane w a (2 * i + 1) else lane w b (2 * (i - n / 2) + 1)
  | _ => lane w a (n - 1 - i)

/-! ### Reductions (R125, R188, R189) -/

/-- One level of the tree: nodes of neighbours, each with its draw; the draws that are left, and the flags. -/
def treeLevel (f : BitVec 32 → Nat → Nat → Nat × BitVec 5) : List Nat → List (BitVec 32) → List Nat × List (BitVec 32) × BitVec 5
  | a :: b :: r, ds =>
    let n := f (ds.headD 0) a b
    let t := treeLevel f r ds.tail
    (n.1 :: t.1, t.2.1, n.2 ||| t.2.2)
  | r, ds => (r, ds, 0)

/-- The fixed pairwise tree over lanes; k bounds the number of levels. -/
def treeReduce (f : BitVec 32 → Nat → Nat → Nat × BitVec 5) : Nat → List Nat → List (BitVec 32) → Nat × BitVec 5
  | 0, r, _ => (r.headD 0, 0)
  | k + 1, r, ds =>
    if r.length ≤ 1 then (r.headD 0, 0)
    else
      let t := treeLevel f r ds
      let u := treeReduce f k t.1 t.2.1
      (u.1, t.2.2 ||| u.2)

/-- A node of an integer reduction (R188). -/
def nodeInt (op w : Nat) (_ : BitVec 32) (x y : Nat) : Nat × BitVec 5 :=
  (match op with
    | 0 => (x + y) % 2 ^ w
    | 1 => if sextNat w x < sextNat w y then x else y
    | _ => if sextNat w x < sextNat w y then y else x, 0)

/-- The identity of an integer reduction (R188). -/
def identInt (op w : Nat) : Nat :=
  match op with
  | 0 => 0
  | 1 => 2 ^ (w - 1) - 1
  | _ => 2 ^ (w - 1)

/-- The lesser or the greater of two values at a node of a reduction: any NaN gives the canonical NaN (R189). -/
def Val.minMaxNode (less : Bool) (a b : Val) : Val × BitVec 5 :=
  if a.isNan || b.isNan then (.nan false, sigFlag [a, b]) else Val.minMax less a b

/-- A node of a floating-point reduction: 3 sum, 4 minimum, 5 maximum (R188, R189). -/
def nodeFlt (cx : Ctx) (f : Fmt) (op : Nat) (draw : BitVec 32) (x y : Nat) : Nat × BitVec 5 :=
  if op = 3 then laneFlt cx f 0 draw x y
  else deliverExact cx f (Val.minMaxNode (op = 4) (f.input (fpSub cx.fpctl) x) (f.input (fpSub cx.fpctl) y))

/-- The identity of a floating-point reduction (R125, R188). -/
def identFlt (f : Fmt) (op : Nat) : Nat :=
  match op with
  | 3 => f.signed true 0
  | 4 => f.signed false f.infMag
  | _ => f.signed true f.infMag

/-! ### The table-interpolation unit (R190 to R192) -/

/-- A coefficient of a table. -/
def Tile.coef (t : Tile) (tab plane seg : Nat) : Nat := (Store.get 0 t.tab (tab * 768 + plane * 256 + seg)).toNat

/-- The configuration word of a table: sgn, mb and emin (R191). -/
def Tile.tabConfig (t : Tile) (tab : Nat) : Nat × Nat × Int :=
  let c := (Store.get 0 t.tabCfg tab).toNat
  (c / 2 ^ 11 % 2, c / 2 ^ 8 % 8, sextNat 8 c)

/-- The exact value of a finite quotient times a power of two, divided by a power of two and shifted: (ax - lo) / width. -/
def segOffset (n d : Nat) (ex : Int) (top mb : Nat) : Val :=
  -- lo = 2^ex * (2^mb + top) / 2^mb and width = 2^(ex - mb), so (ax - lo) / width = ax / 2^(ex - mb) - (2^mb + top)
  let p := scaleNat 1 ((mb : Int) - ex)
  let num : Int := (n * p.1 : Int) - ((2 ^ mb + top) * (d * p.2) : Int)
  .fin (decide (num < 0)) num.natAbs (d * p.2)

/-- The segment, its exponent and its top bits (R192). -/
def segment (ax : Val) (sgn mb : Nat) (emin : Int) : Nat × Int × Nat :=
  let nb := 8 - sgn
  let eb := nb - mb
  let etop := emin + (2 ^ eb : Nat) - 1
  match ax with
  | .fin _ n d =>
    if n = 0 then (0, emin, 0)
    else
      let ex := log2Quot n d
      if ex < emin then (0, emin, 0)
      else if etop < ex then (2 ^ nb - 1, etop, 2 ^ mb - 1)
      else
        let p := scaleNat 1 ((mb : Int) - ex)
        let top := n * p.1 / (d * p.2) - 2 ^ mb
        ((ex - emin).toNat * 2 ^ mb + top, ex, top)
  | _ => (2 ^ nb - 1, etop, 2 ^ mb - 1)

/-- One lane of VTAB (R192): x an encoding of format f. -/
def laneTab (t : Tile) (tab asid : Nat) (f : Fmt) (sub : Nat) (rm : Rm) (sat : Bool) (draw : BitVec 32) (x : Nat) : Nat × BitVec 5 :=
  let v := f.input sub x
  match v with
  | .nan s => (f.nan, flagIf s fNV)
  | _ =>
    if Store.get 0 t.tabTag tab ≠ asid + 1 then (f.nan, fNV)
    else
      let (sgn, mb, emin) := t.tabConfig tab
      let half := if sgn = 1 ∧ v.neg = true then 2 ^ (8 - sgn) else 0
      let (seg, ex, top) := segment v.abs sgn mb emin
      let ff : Val := match v.abs with
        | .fin _ n d => Fmt.f32.decode (Fmt.f32.round (segOffset n d ex top mb) .rne false 0).1
        | w => w
      let c (p : Nat) : Val := Fmt.f32.decode (t.coef tab p (half + seg))
      let t1 := (c 1).mul ff
      let f2 := ff.mul ff
      let t2 := (c 2).mul f2.1
      let s1 := Val.add false (c 0) t1.1
      let s2 := Val.add false s1.1 t2.1
      let cs := [c 0, c 1, c 2]
      let fl := sigFlag cs ||| (if cs.any Val.isNan then 0 else t1.2 ||| f2.2 ||| t2.2 ||| s1.2 ||| s2.2)
      let poly := Fmt.f32.round (if cs.any Val.isNan then .nan false else s2.1) .rne false 0
      let r := f.output sub (f.round (Fmt.f32.decode poly.1) rm sat draw)
      (r.1, fl ||| (poly.2 &&& (fNX ||| fOF)) ||| r.2)

end Sys2Proof.Machine
end

