-- ==== Sys2Proof/Machine/Points.lean ====
section
/-!
DEFINITION. Points registers, the points network and the signal box (R220 to R240).
-/

namespace Sys2Proof.Machine

/-! ### The register (R220, R221) -/

/-- A points register. -/
def Core.points (c : Core) (i : Nat) : Points := Store.get {} c.pm i

/-- Put a points register; its version advances (R220). -/
def Core.setPoints (c : Core) (i : Nat) (p : Points) : Core :=
  { c with pm := Store.set {} c.pm i { p with version := (c.points i).version + 1 } }

/-- The register that is not valid (R220). -/
def Points.void : Points := ⟨false, 0, List.replicate 64 0, false, 0, 0⟩

/-- A register that is valid and not yet solved. -/
def Points.fresh (n : Nat) (idx : List Nat) : Points := ⟨true, n, idx, false, 0, 0⟩

/-- Source row of output row i. -/
def Points.at (p : Points) (i : Nat) : Nat := p.idx.getD i i

/-- The row i with idx[i] = r. -/
def invRow (idx : List Nat) (r : Nat) : Nat := ((List.range idx.length).find? fun i => idx.getD i i == r).getD r

/-! ### Settings (R223, R224) -/

/-- Setting of a switch. -/
def setting (s : BitVec 352) (stage switch : Nat) : Bool := s.getLsbD (32 * stage + switch)

/-- What the ports of B(m) deliver for the values at its inputs (R223). -/
def network (s : BitVec 352) : Nat → Nat → Nat → Nat → List Nat → List Nat
  | 0, _, _, _, xs => xs
  | 1, slo, _, sub, xs => if setting s slo sub then [xs.getD 1 0, xs.getD 0 0] else [xs.getD 0 0, xs.getD 1 0]
  | m + 2, slo, shi, sub, xs =>
    let half := 2 ^ (m + 1)
    let cross := fun j => setting s slo (sub * half + j)
    let u := network s (m + 1) (slo + 1) (shi - 1) (2 * sub) ((List.range half).map fun j => xs.getD (if cross j then 2 * j + 1 else 2 * j) 0)
    let l := network s (m + 1) (slo + 1) (shi - 1) (2 * sub + 1) ((List.range half).map fun j => xs.getD (if cross j then 2 * j else 2 * j + 1) 0)
    ((List.range half).map fun k =>
      if setting s shi (sub * half + k) then [l.getD k 0, u.getD k 0] else [u.getD k 0, l.getD k 0]).flatten

/-- The input port that reaches each output under settings (R230). -/
def idxOf (s : BitVec 352) : List Nat := network s 6 0 10 0 (List.range 64)

/-- The loop of R224 that gives the ports of one chain their sides; true is U. -/
def chain (dst src : List Nat) : Nat → Nat → List (Option Bool) → List (Option Bool)
  | 0, _, side => side
  | k + 1, p, side =>
    if (side.getD p none).isSome then side
    else chain dst src k (src.getD (dst.getD (p ^^^ 1) 0 ^^^ 1) 0) ((side.set p (some true)).set (p ^^^ 1) (some false))

/-- The sides of all ports (R224). -/
def sides (dst src : List Nat) (half : Nat) : List (Option Bool) :=
  (List.range half).foldl (fun side j => chain dst src (2 * half) (2 * j) side) (List.replicate (2 * half) none)

/-- The settings of one stage's switches: crossed unless the port is on side U. -/
def stageBits (stage first : Nat) (ports : List Bool) : BitVec 352 :=
  BitVec.ofNat 352 ((ports.mapIdx fun j up => if up then 0 else 2 ^ (32 * stage + first + j)).foldl (· + ·) 0)

/-- The canonical settings (R224). -/
def solve : Nat → List Nat → Nat → Nat → Nat → BitVec 352
  | 0, _, _, _, _ => 0
  | 1, dst, slo, _, sub => if dst.getD 0 0 = 0 then 0 else BitVec.ofNat 352 (2 ^ (32 * slo + sub))
  | m + 2, dst, slo, shi, sub =>
    let half := 2 ^ (m + 1)
    let src := (List.range (2 * half)).map fun o => invRow dst o
    let side := sides dst src half
    let up := fun p => side.getD p none == some true
    let first := stageBits slo (sub * half) ((List.range half).map fun j => up (2 * j))
    let last := stageBits shi (sub * half) ((List.range half).map fun j => up (src.getD (2 * j) 0))
    let port := fun (want : Bool) j => if up (2 * j) == want then 2 * j else 2 * j + 1
    let udst := (List.range half).map fun j => dst.getD (port true j) 0 / 2
    let ldst := (List.range half).map fun j => dst.getD (port false j) 0 / 2
    first ||| last ||| solve (m + 1) udst (slo + 1) (shi - 1) (2 * sub) ||| solve (m + 1) ldst (slo + 1) (shi - 1) (2 * sub + 1)

/-- The signal box's solution for an index vector. -/
def solveIdx (idx : List Nat) : BitVec 352 := solve 6 ((List.range 64).map fun p => invRow idx p) 0 10 0

/-! ### The signal box (R225, R226) -/

/-- A solve request for a register's present version (R225): it replaces one of the register that has not started and that no command has
captured. -/
def State.askSolve (s : State) (core reg : Nat) : State :=
  let p := (s.core core).points reg
  let keep := fun (q : Solve) => !(q.core == core && q.reg == reg && !q.started && q.captured == 0)
  (s.modTile (siteOf core) fun t =>
    { t with solves := t.solves.filter keep ++ [⟨core, reg, p.version, p.idx, false, 0, none⟩] }).post (.solveStart (siteOf core))

/-- A version of a register is still to be solved. -/
def State.unsolved (s : State) (core reg version : Nat) : Bool :=
  (s.tile (siteOf core)).solves.any fun q => q.core == core && q.reg == reg && q.version == version

/-- A command captures a register's version (R226). -/
def State.capture (s : State) (core reg version : Nat) : State :=
  s.modTile (siteOf core) fun t => { t with solves := t.solves.map fun q =>
      if q.core = core ∧ q.reg = reg ∧ q.version = version then { q with captured := q.captured + 1 } else q }

/-- What a tile's shared units hold for a core is dropped: solve requests and staged rows, when the core's program is gone. A request that has
started still finishes, for a register that no program has (R225). -/
def State.dropRequests (s : State) (core : Nat) : State :=
  s.modTile (siteOf core) fun t => { t with
    solves := (t.solves.filter fun q => q.core != core || q.started).map fun q => if q.core = core then { q with reg := 8 } else q
    staging := t.staging.filter fun g => g.core != core }

/-- SOLVE_START: the box takes the oldest request of the next core in turn (R225). -/
def execSolveStart (tile : Nat) (s : State) : Out :=
  let t := s.tile tile
  if t.solves.any fun q => q.started then .next s
  else match (List.range 4).findSome? fun k => t.solves.find? fun q => q.core % 4 == (t.solvePtr + k) % 4 with
    | none => .next s
    | some q =>
      .next ((s.setTile tile { t with
        solves := t.solves.map fun r => if r = q then { r with started := true } else r
        solvePtr := (q.core + 1) % 4 }).post (.solveComplete tile))

/-- The PST.set at a core's points port gets the settings of the version that it has captured (R226, R230). -/
def Core.portDone (c : Core) (reg version : Nat) (st : BitVec 352) : Core :=
  match c.port with
  | some (d, r, v) => if r = reg ∧ v = version then { c.putHome .e (600 + d) (st.setWidth 1024) with port := none } else c
  | none => c

/-- SOLVE_COMPLETE: the settings go into the register when it still holds the version, and to what has captured it (R224 to R226). -/
def execSolveComplete (tile : Nat) (s : State) : Out :=
  let t := s.tile tile
  match t.solves.find? fun q => q.started with
  | none => .next s
  | some q =>
    let s := s.setTile tile { t with solves := t.solves.filter fun r => !r.started }
    let p := (s.core q.core).points q.reg
    let s := s.modCore q.core fun c => c.portDone q.reg q.version (solveIdx q.idx)
    let s := if p.version = q.version ∧ p.valid = true then
        s.modCore q.core fun c => { c with pm := Store.set {} c.pm q.reg { p with solved := true, settings := solveIdx p.idx } }
      else s
    .next (if (s.tile tile).solves.isEmpty then s else s.post (.solveStart tile))

/-! ### Points words (R227 to R235) -/

/-- The points port runs one word at a time, in program order (R227). -/
def portFree : CM Unit := do
  let c ← get
  stallIf c.port.isSome

/-- A points word: its result from the core as it stands; the second part says that a solve is requested. -/
def pointsM (d : BitVec 5) (f : Ctx → Core → CM (Points × Bool)) (cx : Ctx) : DM Next := do
  onCore cx.core portFree
  let c ← onCore cx.core get
  let (p, ask) ← onCore cx.core (f cx c)
  onCore cx.core (modify fun c => c.setPoints d.toNat p)
  let s ← get
  set (if ask then s.askSolve cx.core d.toNat else s)
  pure .seq

/-- The trap of R229. -/
def pointsTrap {α : Type} (sub info : Nat) : CM α := raise cPoints sub 0 (BitVec.ofNat 64 info)

/-- A number of rows from 1 to 64 (R229). -/
def rowsOk (n : Nat) : CM Unit := if n = 0 ∨ 64 < n then pointsTrap 3 n else pure ()

/-- A register that must be valid (R229). -/
def validM (c : Core) (reg : BitVec 5) : CM Points :=
  let p := c.points reg.toNat
  if p.valid then pure p else pointsTrap 2 reg.toNat

/-- The first row that fails a test of R229: its subcode and INFO; k rows are left. -/
def badRow (cand : List Nat) (n : Nat) : Nat → Option (Nat × Nat)
  | 0 => none
  | k + 1 =>
    let r := n - (k + 1)
    let v := cand.getD r 0
    if n ≤ v then some (1, r + 2 ^ 8 * v)
    else match (List.range r).find? fun j => cand.getD j 0 == v with
      | some j => some (0, r + 2 ^ 8 * v + 2 ^ 16 * j)
      | none => badRow cand n k

/-- Rows from n upward are fixed points (R221). -/
def fixRows (n : Nat) (f : Nat → Nat) : List Nat := (List.range 64).map fun i => if i < n then f i else i

/-- PLD (R230). -/
def execPld (n : BitVec 3) (d a b : BitVec 5) : State → Out :=
  issue (.pld n d a b) (pointsM d fun cx _ => do
    let v ← rdV cx a
    let k ← rdX cx b
    rowsOk k.toNat
    let cand := (List.range 64).map fun i => lane 16 v i
    match badRow cand k.toNat k.toNat with
    | some (sub, info) => pointsTrap sub info
    | none => pure (Points.fresh k.toNat (fixRows k.toNat fun i => cand.getD i 0), true))

/-- PLD_SET (R230). -/
def execPldSet (n : BitVec 3) (d a : BitVec 5) : State → Out :=
  issue (.pldSet n d a) (pointsM d fun cx _ => do
    let v ← rdV cx a
    let st : BitVec 352 := v.setWidth 352
    pure (⟨true, 64, idxOf st, true, st, 0⟩, false))

/-- PID (R231). -/
def execPid (n : BitVec 3) (d a : BitVec 5) : State → Out :=
  issue (.pid n d a) (pointsM d fun cx _ => do
    let k ← rdX cx a
    if 64 < k.toNat then pointsTrap 3 k.toNat
    else pure (if k = 0 then Points.void else ⟨true, k.toNat, List.range 64, true, 0, 0⟩, false))

/-- PST (R230). -/
def execPst (n : BitVec 3) (d a : BitVec 5) : State → Out :=
  issueU (.pst n d a) fun cx => do
    portFree
    let c ← get
    let p := c.points a.toNat
    wrV cx d (if p.valid then ofLanes 16 p.idx else 0)

/-- PST_SET (R226, R230): it captures the version that stands at its issue, and waits at the points port until that version is solved. -/
def execPstSet (n : BitVec 3) (d a : BitVec 5) : State → Out :=
  issue (.pstSet n d a) fun cx => do
    onCore cx.core portFree
    let c ← onCore cx.core get
    let p ← onCore cx.core (validM c a)
    onCore cx.core (if p.solved then wrV cx d (p.settings.setWidth 1024) else do
      destFree cx (600 + d.toNat)
      modify fun c => Core.setPend { c with port := some (d.toNat, a.toNat, p.version) } .e (600 + d.toNat))
    let s ← get
    set (if p.solved then s else s.capture cx.core a.toNat p.version)
    pure .seq

/-- PMOV (R231). -/
def execPmov (n : BitVec 3) (d a : BitVec 5) : State → Out :=
  issue (.pmov n d a) (pointsM d fun _ c =>
    let p := c.points a.toNat
    pure (p, p.valid && !p.solved))

/-- PROT (R232). -/
def execProt (n : BitVec 3) (d a b : BitVec 5) : State → Out :=
  issue (.prot n d a b) (pointsM d fun cx _ => do
    let k ← rdX cx a
    let v ← rdX cx b
    rowsOk k.toNat
    pure (Points.fresh k.toNat (fixRows k.toNat fun i => (i + v.toNat % k.toNat) % k.toNat), true))

/-- PCOMP (R232). DESIGN CHOICE: where neither operand is valid, the trap of R229 names the first. -/
def execPcomp (n : BitVec 3) (d a b : BitVec 5) : State → Out :=
  issue (.pcomp n d a b) (pointsM d fun _ c => do
    let p ← validM c a
    let q ← validM c b
    pure (Points.fresh (Nat.max p.n q.n) ((List.range 64).map fun i => q.at (p.at i)), true))

/-- PINV (R232). -/
def execPinv (n : BitVec 3) (d a : BitVec 5) : State → Out :=
  issue (.pinv n d a) (pointsM d fun _ c => do
    let p ← validM c a
    pure (Points.fresh p.n ((List.range 64).map fun i => invRow p.idx i), true))

/-- One step of the generator (R117, R233). -/
def xorshift (st : Word) : Word :=
  let st := st ^^^ st <<< 13
  let st := st ^^^ st >>> 7
  st ^^^ st <<< 17

/-- Exchange two rows. -/
def swapRows (idx : List Nat) (i j : Nat) : List Nat := (idx.set i (idx.getD j 0)).set j (idx.getD i 0)

/-- The shuffle from row i downward (R233). -/
def shuffle : Nat → Word → List Nat → Word × List Nat
  | 0, st, idx => (st, idx)
  | i + 1, st, idx =>
    let st := xorshift st
    shuffle i st (swapRows idx (i + 1) ((st.extractLsb' 32 32).toNat * (i + 2) / 2 ^ 32))

/-- PRAND (R233). -/
def execPrand (n : BitVec 3) (d a b : BitVec 5) : State → Out :=
  issue (.prand n d a b) (pointsM d fun cx _ => do
    let k ← rdX cx a
    let v ← rdX cx b
    rowsOk k.toNat
    let (st, idx) := shuffle (k.toNat - 1) (if v = 0 then 0x9E3779B97F4A7C15 else v) (List.range 64)
    wrX cx b st
    pure (Points.fresh k.toNat idx, true))

/-- Length of the cycle that holds row r, following k rows from i. -/
def cycleLen (p : Points) (r : Nat) : Nat → Nat → Nat
  | 0, _ => 0
  | k + 1, i => if p.at i = r then 1 else 1 + cycleLen p r k (p.at i)

/-- The lengths of the cycles of rows 0 to n - 1, each counted at its lowest row. -/
def cycles (p : Points) : List Nat :=
  (List.range p.n).filterMap fun r => if lowest r 64 r then some (cycleLen p r 64 r) else none
where
  lowest (r : Nat) : Nat → Nat → Bool
    | 0, _ => true
    | k + 1, i => if p.at i = r then true else decide (r ≤ p.at i) && lowest r k (p.at i)

/-- The figures of R234. -/
def cycleFigure (p : Points) (sel row : Nat) : Nat :=
  let ls := cycles p
  match sel with
  | 0 => ls.length
  | 1 => (ls.filter fun l => l == 1).length
  | 2 => (p.n - ls.length) % 2
  | 3 => ls.foldl Nat.lcm 1
  | 4 => if p.n ≤ row then 1 else cycleLen p row 64 row
  | _ => p.n

/-- PCYC (R234). -/
def execPcyc (n : BitVec 3) (d a b : BitVec 5) (x : BitVec 3) : State → Out :=
  issueU (.pcyc n d a b x) fun cx => do
    portFree
    let c ← get
    let r ← rdX cx b
    let p ← if x = 5 then pure (c.points a.toNat) else validM c a
    wrX cx d (BitVec.ofNat 64 (cycleFigure p x.toNat r.toNat))

/-- PEQ (R235). -/
def execPeq (n : BitVec 3) (d a b : BitVec 5) : State → Out :=
  issueU (.peq n d a b) fun cx => do
    portFree
    let c ← get
    let p := c.points a.toNat
    let q := c.points b.toNat
    wrP cx d.toNat (p.valid && q.valid && p.idx == q.idx)

/-! ### PAPPLY (R236, R237) -/

/-- The event that carries out a PAPPLY, once its settings are solved. -/
def execPapply (n : BitVec 3) (t l b : BitVec 5) (im : BitVec 1) (p : BitVec 3) : State → Out :=
  issue (.papply n t l b im p) fun cx => do
    let x ← onCore cx.core (rdX cx l)
    let y ← onCore cx.core (rdX cx b)
    onCore cx.core (cmdRoom cx 0 true t 2)
    let c ← onCore cx.core get
    let pm ← onCore cx.core (validM c (p.setWidth 5))
    let words := fieldOf x 42 5
    let w := (if words = 0 then 32 else words) * 4
    let src := fieldOf x 0 19
    let ss := fieldOf x 20 15
    let dst := fieldOf y 0 19
    let ds := fieldOf y 20 15
    let hs := (pm.n - 1) * ss + w
    let hd := (pm.n - 1) * ds + w
    onCore cx.core do
      raiseIf (src % 4 != 0 || ss % 4 != 0) cAlign 0 (BitVec.ofNat 64 src) 0
      raiseIf (dst % 4 != 0 || ds % 4 != 0) cAlign 0 (BitVec.ofNat 64 dst) 0
      raiseIf (decide (Config.ulmBytes < src + hs)) cRange 0 (BitVec.ofNat 64 src) 0
      raiseIf (decide (Config.ulmBytes < dst + hd)) cRange 0 (BitVec.ofNat 64 dst) 0
    let id ← startCmd cx (.papply n t l b im p) {
      tok := t
      op := .papply p.toNat pm.version pm.n pm.idx (im == 1) src ss dst ds w
      rd := some (src, src + hs)
      wr := some (dst, dst + hd) }
    let s ← get
    set ((s.capture cx.core p.toNat pm.version).post (.pointsApplication cx.core id))
    pure .seq

/-- Write rows to ULM. -/
def Core.putRows (c : Core) (rows : List (Nat × List Byte)) : Core := rows.foldl (fun c r => c.landUlm r.1 r.2) c

/-- The machine-check status of an error (R151, R237). -/
def errorStatus (cause : Nat) : Int := if cause = cIntegrity then -3 else -6

/-- A PAPPLY can start: its version is solved, and no older entry covers its source or destination (R226, R237, R247). A COPYP can, once its version
is solved and it has a granule to move that no older entry covers (R247, R253). -/
def State.applyReady (s : State) (core : Nat) (k : Cmd) : Bool :=
  let c := s.core core
  match k.op with
  | .papply pm version n _ _ src ss dst ds w =>
    !s.unsolved core pm version && !c.engineBlocked k.id src ((n - 1) * ss + w) false && !c.engineBlocked k.id dst ((n - 1) * ds + w) true
  | .copy out _ _ _ addr ls rb _ va gs perm inv pm version =>
    let (ur, gr) := copyRow perm out inv k.row
    let (off, n) := chunkOf (va + gr * gs) rb k.gran
    !perm.isEmpty && k.status.isNone && k.xl.isSome && !s.unsolved core pm version && !c.engineBlocked k.id (addr + ur * ls + off) n (!out)
  | _ => false

/-- The command's rows stand in a staging buffer of its tile (R238). -/
def State.staged? (s : State) (core id : Nat) : Option Staged := (s.tile (siteOf core)).staging.find? fun g => g.core == core && g.id == id

/-- Both staging buffers of a tile are in use (R238). -/
def Tile.stagingFull (t : Tile) : Bool := decide (2 ≤ t.staging.length)

/-- The application that a tile's points network takes next: round-robin over the cores (R238). DESIGN CHOICE: of one core's
applications that wait, the oldest that is ready. -/
def State.nextApply (s : State) (site : Nat) : Option (Nat × Nat) :=
  (List.range 4).findSome? fun i =>
    let n := 4 * site + ((s.tile site).applyPtr + i) % 4
    ((s.core n).cmds.find? fun k => s.applyReady n k && (s.staged? n k.id).isNone).map fun k => (n, k.id)

/-- A COPYP has a staging buffer, or takes one in its turn (R238). -/
def State.stageCopy (s : State) (core id : Nat) : Option State :=
  let site := siteOf core
  if (s.staged? core id).isSome then some s
  else if (s.tile site).stagingFull || s.nextApply site != some (core, id) then none
  else some (s.modTile site fun t => { t with applyPtr := (core + 1) % 4, staging := t.staging ++ [⟨core, id, []⟩] })

/-- POINTS_APPLICATION: the application takes a staging buffer in its turn and reads its rows; then, with every row read and the kept bytes of
every destination granule verified, it writes them (R237, R238). -/
def execPointsApplication (core id : Nat) (s : State) : Out :=
  let c := s.core core
  let site := siteOf core
  match c.cmd? id with
  | none => .next s
  | some k =>
    match k.op with
    | .papply _ _ n idx inv src ss dst ds w =>
      match s.staged? core id with
      | none =>
        if (s.tile site).stagingFull || s.nextApply site != some (core, id) then .next (s.postpone (.pointsApplication core id))
        else
          let s := s.modTile site fun t => { t with applyPtr := (core + 1) % 4 }
          match (List.range n).findSome? fun r => c.ulmError (src + r * ss) w with
          | some (cause, a) => .next (s.endCmd core id (errorStatus cause) 0 a)
          | none =>
            let rows := (List.range n).map fun r => c.ulmBytes (src + r * ss) w
            .next (((s.modTile site fun t => { t with staging := t.staging ++ [⟨core, id, rows⟩] }).modCmd core id fun k => { k with rd := k.rd.map fun _ => (0, 0) }).post
              (.pointsApplication core id))
      | some g =>
        let s := s.modTile site fun t => { t with staging := t.staging.filter fun h => h != g }
        let dests := (List.range n).map fun o => if inv then dst + idx.getD o o * ds else dst + o * ds
        match c.keepErrors dests w with
        | some (cause, a) => .next (s.endCmd core id (errorStatus cause) 0 a)
        | none =>
          let rows := (List.range n).map fun o => (dests.getD o 0, g.rows.getD (if inv then o else idx.getD o o) [])
          .next ((s.setCore core (c.putRows rows)).endCmd core id 0 0 0)
    | _ => .next s

end Sys2Proof.Machine
end

