-- ==== Sys2Proof/Machine/Network.lean ====
section
/-!
DEFINITION. The routed network (R291 to R297): sending, hops, flows and landing; remote accesses at their owner (R165 to R171), deposits and
notifies (R98, R101, R299), and the results of reductions (R305 to R307).
-/

namespace Sys2Proof.Machine

/-! ### Sending -/

/-- The site of a core, as coordinates (R3). -/
def siteXY (site : Nat) : Nat × Nat := (site % 48, site / 48)

/-- The key of a flow (R296). -/
def flowKey (src dst : Nat) : Nat := src * 16384 + dst

/-- What a sender gives for a packet. -/
structure Send where
  src : Nat
  dst : Nat
  asid : BitVec 12
  ordered : Bool
  plane : Nat := 0
  pay : Payload
  cmd : Nat
  idx : Nat := 0
  deriving DecidableEq, Repr

/-- A contribution to a reduction, which takes the dimension-order path (R305). -/
def Packet.isContrib (p : Packet) : Bool :=
  match p.pay with
  | .contrib .. => true
  | _ => false

/-- A packet enters the network where it stands, with its first event. -/
def State.enterNet (s : State) (p : Packet) (first : Nat → Ev) : State :=
  { s with fresh := s.fresh + 1, packets := s.packets ++ [{ p with id := s.fresh }] }.post (first s.fresh)

/-- A packet enters the network where it stands; a contribution looks for its combining entry first (R305). -/
def State.inject (s : State) (p : Packet) : State := s.enterNet p fun id => if p.isContrib then .combine id else .routerHop id

/-- The packet of a sender, at its interface, on its way to a site (R291, R317). -/
def State.packetOf (s : State) (k : Send) (seq : Option Nat) (site : Nat) : Packet :=
  let (x, y) := siteXY (siteOf k.src)
  let (dx, dy) := siteXY site
  { id := 0
    src := k.src
    dst := k.dst
    asid := k.asid
    seq := seq
    pay := k.pay
    cmd := k.cmd
    idx := k.idx
    x := x
    y := y
    dx := dx
    dy := dy
    vc := 0
    plane := k.plane
    gen := s.census.g
    phase := 0
    since := s.cycle
    bad := false }

/-- The next number of a flow, and the state in which it is taken (R296). -/
def State.takeSeq (s : State) (src dst : Nat) : Nat × State :=
  let f := Store.get (0, 0) s.flows (flowKey src dst)
  (f.1, { s with flows := Store.set (0, 0) s.flows (flowKey src dst) (f.1 + 1, f.2) })

/-- A packet leaves its sender's interface with a number in its flow, or none (R291, R296, R317). -/
def State.sendAs (s : State) (k : Send) (num : Option Nat) : State := s.inject (s.packetOf k num (siteOf (s.siteCore k.dst)))

/-- A packet leaves its sender's interface; one of an ordered flow takes the flow's next number (R291, R296, R317). -/
def State.send (s : State) (k : Send) : State :=
  if k.ordered then
    let (n, s) := s.takeSeq k.src k.dst
    s.sendAs k (some n)
  else s.sendAs k none

/-- One payload leaves for several cores down a tree of routers; each copy has its number in its own flow (R296, R302, R305). -/
def State.sendLeaves (s : State) (src : Nat) (asid : BitVec 12) (leaves : List TreeDest) (data : List Byte) : State :=
  if leaves.isEmpty then s
  else s.inject (s.packetOf ⟨src, 0, asid, true, 0, .tree leaves data, 0, 0⟩ none (siteOf src))

/-- The same, when each copy takes its flow's next number as it leaves. -/
def State.sendTree (s : State) (src : Nat) (asid : BitVec 12) (leaves : List TreeDest) (data : List Byte) : State :=
  let r := leaves.foldl (fun (r : State × List TreeDest) l =>
    let (n, s) := r.1.takeSeq src l.dst
    (s, r.2 ++ [{ l with seq := n }])) (s, [])
  r.1.sendLeaves src asid r.2 data

/-- A packet. -/
def State.packet? (s : State) (id : Nat) : Option Packet := s.packets.find? fun p => p.id == id

/-- Change a packet. -/
def State.modPacket (s : State) (id : Nat) (f : Packet → Packet) : State :=
  { s with packets := s.packets.map fun p => if p.id = id then f p else p }

/-- Change a packet that comes to a new place, behind those that have come there before it. -/
def State.movePacket (s : State) (id : Nat) (f : Packet → Packet) : State :=
  { s with packets := (s.packets.filter fun p => p.id != id) ++ (s.packets.filter fun p => p.id == id).map f }

/-- A packet has been performed or discarded. -/
def State.dropPacket (s : State) (id : Nat) : State := { s with packets := s.packets.filter fun p => p.id != id }

/-! ### Acknowledgements -/

/-- The lower of two failures, by row or rank. -/
def lowerFail (a : Option (Nat × Int × Nat × Nat)) (b : Nat × Int × Nat × Nat) : Option (Nat × Int × Nat × Nat) :=
  match a with
  | some f => if b.1 < f.1 then some b else some f
  | none => some b

/-- A remote write refused at a commit is counted and reported (R351). -/
def State.noteRefused (s : State) (core : Nat) : State :=
  (s.modCore core fun c => { c with ctl := { c.ctl with
    refused := if c.ctl.refused = 0x7FFFF then c.ctl.refused else c.ctl.refused + 1 } }).report 5 core

/-- One packet of a command is answered with a status (R170, R217, R303); the command ends with its last packet. Number 0 stands for the
remote writes that a commit sends (R351). -/
def State.ack (s : State) (core id idx : Nat) (status : Int) (who addr : Nat) : State :=
  match (s.core core).cmd? id with
  | none => if id = 0 ∧ status ≠ 0 then s.noteRefused core else s
  | some k =>
    let fail := if status = 0 then k.fail else lowerFail k.fail (idx, status, who, addr)
    let s := s.modCmd core id fun k => { k with waitFor := k.waitFor - 1, fail := fail }
    if 1 < k.waitFor then s
    else match fail with
      | some (_, st, w, a) => s.endCmd core id st w a
      | none => s.endCmd core id 0 0 0

/-- The remote address or register that a payload names. -/
def Payload.addr : Payload → Nat
  | .write _ a _ _ => a
  | .read a _ _ => a
  | .reply a _ => a
  | .deposit r _ _ _ => r
  | .result _ _ _ a _ _ => a
  | _ => 0

/-- The destination interface of a packet sends a response to its sender, on the response plane (R292). -/
def State.respond (s : State) (p : Packet) (pay : Payload) : State :=
  s.inject (s.packetOf ⟨4 * (p.dy * 48 + p.dx) + p.dst % 4, s.logicalOf p.src, p.asid, false, 1, pay, p.cmd, p.idx⟩ none (siteOf p.src))

/-- The destination interface of a packet sends an acknowledgement with a status (R170, R303). -/
def State.answer (s : State) (p : Packet) (status : Int) : State := s.respond p (.ack p.src status p.dst p.pay.addr)

/-- The destination interface refuses a packet that its sender keeps: phase names what the packet waits for, and how the negative
acknowledgement. -/
def State.refuse (s : State) (p : Packet) (phase how : Nat) : State :=
  (s.modPacket p.id fun q => { q with phase := phase }).respond p (.nack p.id how s.census.g)

/-! ### Windows (R165, R166) -/

/-- The window filter of the sender's group (R166). -/
def filterOk (w : Word) (sender : Core) : Bool := !w.getLsbD 47 || (sender.slotOf (bitsOf w 48 8)).isSome

/-- A window grants a read (bit 62) or a write (bit 61) of n bytes from a (R165). -/
def windowGrants (w : Word) (bit a n : Nat) (sender : Core) : Bool :=
  w.getLsbD 63 && w.getLsbD bit && decide (bitsOf w 29 13 * 64 ≤ a)
    && decide (a + n ≤ Nat.min (bitsOf w 29 13 * 64 + bitsOf w 16 13 * 64) Config.ulmBytes) && filterOk w sender

/-- A window admits a deposit into a register, or a notify (R98, R165, R299). -/
def windowDeposits (w : Word) (reg : Option Nat) (sender : Core) : Bool :=
  w.getLsbD 63 && w.getLsbD 60 && filterOk w sender && (match reg with | some r => r == 0 || w.getLsbD r | none => true)

/-- The lowest-numbered window that admits. -/
def Core.admitting (c : Core) (f : Word → Bool) : Option Word := ((List.range 8).map fun n => Store.get 0 c.ctl.win n).find? f

/-! ### Reductions as rank 0's interface holds them (R305 to R307) -/

/-- The key of a reduction. -/
def redKey (asid grp tag : Nat) : Nat := groupKey asid grp * 256 + tag

/-- The reduction of a key; one that has not begun holds nothing. -/
def State.red (s : State) (key : Nat) : Reduction := (Store.get none s.reductions key).getD ⟨0, 0, 0, [], [], [], [], [], 0, []⟩

/-- Nothing of the reduction is in progress (R307). -/
def Reduction.idle (r : Reduction) : Bool := r.ended == 0 && r.ranks.isEmpty && r.waiting.isEmpty && r.out.isEmpty

/-- Put a reduction; one that is no longer in progress is forgotten, and its tag is free (R307). -/
def State.setRed (s : State) (key : Nat) (r : Reduction) : State :=
  { s with reductions := Store.set none s.reductions key (if r.idle then none else some r) }

/-- Ranks of a group that have departed (R324). -/
def State.departed (s : State) (asid grp : Nat) : List Nat := (Store.get {} s.bars (groupKey asid grp)).departed

/-- A contribution of a rank is under way to rank 0's interface: in a packet, or in a router's entry (R305, R306). -/
def State.underWay (s : State) (asid grp tag rank : Nat) : Bool :=
  (s.packets.any fun p => match p.pay with
    | .contrib a g t _ _ _ _ ranks => a == asid && g == grp && t == tag && ranks.contains rank
    | _ => false)
  || s.combs.any fun e => e.asid == asid && e.grp == grp && e.tag == tag && e.ranks.contains rank

/-- Every member's contribution is in a list of ranks, or the member has departed without one: a contribution made before the departure stands,
and is waited for (R306). -/
def State.gathered (s : State) (asid grp tag : Nat) (ranks : List Nat) : Bool :=
  match s.group asid grp with
  | none => true
  | some g => (List.range g.size).all fun r => ranks.contains r || ((s.departed asid grp).contains r && !s.underWay asid grp tag r)

/-- Every member that has not departed is in a list of ranks. -/
def State.allRanks (s : State) (asid grp : Nat) (ranks : List Nat) : Bool :=
  match s.group asid grp with
  | none => true
  | some g => (List.range g.size).all fun r => ranks.contains r || (s.departed asid grp).contains r

/-- A reduction that has ended hands its status to its pending members; it is forgotten once every member that has not departed has it
(R306, R307). -/
def State.handOut (s : State) (asid grp tag : Nat) (r : Reduction) : State :=
  let st : Int := if r.ended = 1 then -8 else -9
  let s := r.waiting.foldl (fun s w => s.endCmd w.1 w.2.1 st 0 0) s
  let r := { r with told := r.told ++ r.waiting.map fun w => w.2.2.1, waiting := [], partial_ := [], ranks := [], passed := [] }
  s.setRed (redKey asid grp tag) (if s.allRanks asid grp r.told then { r with ended := 0 } else r)

/-- The entries and contributions of a reduction's use that are under way are discarded (R306, R307). -/
def State.dropParts (s : State) (asid grp tag : Nat) : State :=
  { s with
    packets := s.packets.filter fun p => match p.pay with
      | .contrib a g t .. => !(a == asid && g == grp && t == tag)
      | _ => true
    combs := s.combs.filter fun e => !(e.asid == asid && e.grp == grp && e.tag == tag) }

/-- A reduction ends with -8 (1) or -9 (2): what is under way is discarded; an abort reaches the members whose copies are on their way too
(R306, R307). -/
def State.endRed (s : State) (asid grp tag how : Nat) (r : Reduction) : State :=
  let out := if how = 2 then r.out.map fun w => (w.1, w.2.1, w.2.2.1, w.2.2.2, 0, none) else []
  (s.dropParts asid grp tag).handOut asid grp tag { r with
    ended := how, told := [], waiting := out ++ r.waiting, out := if how = 2 then [] else r.out }

/-- A copy of a reduction's result has landed at a member, or has failed there: the member's token receives its status, and rank 0's also the
tokens of the members that asked for no copy (R305, R306). -/
def State.resultDone (s : State) (p : Packet) (grp tag rank : Nat) (status : Int) : State :=
  let asid := p.asid.toNat
  let r := s.red (redKey asid grp tag)
  let st : Int := if status = 0 then Int.ofNat p.idx else status
  let ends := r.out.filter fun w => w.2.2.1 == rank || (rank == 0 && w.2.2.2 == 0)
  let s := s.setRed (redKey asid grp tag) { r with out := r.out.filter fun w => !(w.2.2.1 == rank || (rank == 0 && w.2.2.2 == 0)) }
  ends.foldl (fun s w =>
    if w.2.2.1 = rank then s.ack w.1 w.2.1 0 st p.dst p.pay.addr
    else s.respond { p with src := w.1, cmd := w.2.1, idx := 0 } (.ack w.1 st 0 0)) s

/-- The contributions of some ranks are lost in transit: their tokens receive -3, and the reduction goes on without a contribution of theirs
(R297, R303). -/
def State.lostRanks (s : State) (p : Packet) (asid grp tag : Nat) (ranks : List Nat) : State :=
  let r := s.red (redKey asid grp tag)
  let lost := r.waiting.filter fun w => ranks.contains w.2.2.1
  let s := s.setRed (redKey asid grp tag) { r with waiting := r.waiting.filter fun w => !ranks.contains w.2.2.1 }
  -- entries and the result may have waited for a contribution that is no more (R306)
  ((lost.foldl (fun s w => s.respond { p with src := w.1, cmd := w.2.1, idx := 0, dx := p.x, dy := p.y } (.ack w.1 (-3) p.dst 0)) s).post
    (.combinePark asid grp tag)).post (.reduceResultLand asid grp tag)

/-! ### Landing -/

/-- A write lands in ULM (R434): its status. -/
def landRemote (s : State) (n a : Nat) (bs : List Byte) : Int × State :=
  let c := s.core n
  match c.keepError a bs.length with
  | some (cause, _) => (if cause = cIntegrity then -3 else -6, s)
  | none => (0, s.setCore n (c.landUlm a bs))

/-- An arrival is posted where one is asked for (R102, R170). -/
def postArrival (s : State) (n : Nat) (post : Option Nat) : State :=
  match post with
  | some k => s.modCore n fun c => c.arrive k 1
  | none => s

/-- Bytes land and post their arrival. -/
def landPosted (s : State) (n a : Nat) (bs : List Byte) (post : Option Nat) : Int × State :=
  let r := landRemote s n a bs
  (r.1, if r.1 = 0 then postArrival r.2 n post else r.2)

/-- A write packet at its owner (R166, R170, R216, R302): kind 0 PUTR, 1 MST row, 2 multicast. -/
def landWrite (s : State) (p : Packet) (n kind a : Nat) (bs : List Byte) (post : Option Nat) : Int × State :=
  if kind = 2 ∧ n = p.src then landPosted s n a bs post
  else match (s.core n).admitting fun w => windowGrants w 61 a bs.length (s.core p.src) with
    | none => (-1, s)
    | some w => landPosted s n a bs (if kind = 0 then (if w.getLsbD 59 then some (bitsOf w 56 3) else none) else post)

/-- The number that a flow lands next, from n on: numbers of discarded packets are passed over (R296, R297). -/
def State.nextSeq (s : State) (src dst : Nat) : Nat → Nat → Nat
  | 0, n => n
  | k + 1, n =>
    if s.packets.any fun q => q.phase == 8 && q.src == src && q.dst == dst && q.seq == some n then s.nextSeq src dst k (n + 1) else n

/-- The arrival event of a packet's kind. -/
def Packet.arrival (p : Packet) : Ev :=
  match p.pay with
  | .deposit .. => .depositArrival p.id
  | .notify _ => .notifyArrival p.id
  | .contrib .. => .combine p.id
  | _ => .packetArrival p.id

/-- The next packet of a flow that waits in the reorder store may land (R296). -/
def State.advanceFlow (s : State) (p : Packet) : State :=
  match p.seq with
  | none => s
  | some n =>
    let k := flowKey p.src p.dst
    let f := Store.get (0, 0) s.flows k
    let m := Nat.max f.2 (s.nextSeq p.src p.dst s.packets.length (n + 1))
    let s := { s with
      flows := Store.set (0, 0) s.flows k (f.1, m)
      packets := s.packets.filter fun q => !(q.phase == 8 && q.src == p.src && q.dst == p.dst && (match q.seq with | some i => decide (i < m) | none => true)) }
    match s.packets.find? fun q => q.phase == 1 && q.src == p.src && q.dst == p.dst && q.seq == some m with
    | some q => (s.modPacket q.id fun q => { q with phase := 0 }).post q.arrival
    | none => s

/-- A packet is done: it leaves the network, its sender is answered, and its flow goes on. -/
def State.settle (s : State) (p : Packet) (status : Int) : State := ((s.dropPacket p.id).answer p status).advanceFlow p

/-- The packet's predecessors in its flow have not landed (R296). -/
def State.isEarly (s : State) (p : Packet) : Bool :=
  match p.seq with
  | some n => decide ((Store.get (0, 0) s.flows (flowKey p.src p.dst)).2 < n)
  | none => false

/-- A number that a command has taken in its flow, and with which it sends nothing, is passed over (R296). -/
def State.passNumber (s : State) (src dst n : Nat) : State :=
  let p := { s.packetOf ⟨src, dst, 0, true, 0, .notify 0, 0, 0⟩ (some n) (siteOf src) with id := s.fresh, phase := 8 }
  if s.isEarly p then { s with fresh := s.fresh + 1, packets := s.packets ++ [p] } else s.advanceFlow p

/-- The numbers that a command has taken and not yet used. -/
def CmdOp.numbers : CmdOp → List (Nat × Nat)
  | .putr _ _ dst _ (some n) => [(dst, n)]
  | .mcast _ _ _ _ dests => dests.filterMap fun d => d.2.2.map fun n => (d.2.1, n)
  | _ => []

/-- A command that sends nothing any more gives its numbers back to their flows (R296). -/
def State.passNumbers (s : State) (core : Nat) (k : Cmd) : State :=
  if k.waitFor ≠ 0 ∨ k.status.isSome = true then s else k.op.numbers.foldl (fun s d => s.passNumber core d.1 d.2) s

/-- A packet whose check values fail is discarded, and the token that it serves receives -3; the number of an early one keeps its turn in its
flow (R296, R297). -/
def State.lose (s : State) (p : Packet) : State :=
  match p.pay with
  | .ack core _ who addr => (s.dropPacket p.id).ack core p.cmd p.idx (-3) who addr
  | .nack pkt _ _ => match s.packet? pkt with
    | some q => (((s.dropPacket p.id).dropPacket pkt).ack q.src q.cmd q.idx (-3) q.dst q.pay.addr).advanceFlow q
    | none => s.dropPacket p.id
  | .reply a _ => (s.dropPacket p.id).ack (s.siteCore p.dst) p.cmd 0 (-3) (s.logicalOf p.src) a
  | .contrib asid grp tag _ _ _ _ ranks => (s.dropPacket p.id).lostRanks p asid grp tag ranks
  | .result grp tag rank .. => ((s.dropPacket p.id).resultDone p grp tag rank (-3)).advanceFlow p
  | .page core cmd _ => (s.dropPacket p.id).endCmd core cmd (-3) 0 (match (s.core core).cmd? cmd with | some k => k.badVa | none => 0)
  | _ => if s.isEarly p then (s.modPacket p.id fun q => { q with phase := 8 }).answer p (-3) else s.settle p (-3)

/-- Tile at which a packet's destination stands under the map. -/
def State.destSite (s : State) (p : Packet) : Nat := siteOf (s.siteCore p.dst)

/-- What keeps a packet that has reached its destination site from being performed there: it is discarded (R297), sent on after a
re-cast (R381, R384), held, refused or kept for its order (R296); otherwise the core it names (R316). -/
inductive Landing where
  | bad
  | remap
  | forward
  | hold
  | early
  | refused
  | nobody
  | at_ (core : Nat)
  deriving DecidableEq, Repr

/-- A site anneals, and a target was resolved there before its commit (R384). -/
def State.leaving (s : State) (site : Nat) (gen : BitVec 16) : Bool :=
  let m := s.tileMap (s.tileAt site)
  let age := (m.gen + 65536 - gen.toNat) % 65536
  m.toward.isSome && decide (0 < age) && decide (age < 32768)

/-- The first event of a packet that goes on from where it stands. -/
def Packet.onward (p : Packet) : Ev := if p.isContrib then .combine p.id else .routerHop p.id

/-- An annealing tile's interface forwards a packet to the site where its target now stands (R381, R382, R384). -/
def State.forward (s : State) (p : Packet) (site : Nat) : State :=
  let (dx, dy) := siteXY site
  (s.movePacket p.id fun q => { q with phase := 0, dx := dx, dy := dy, vc := 0, gen := s.census.g }).post p.onward

/-- Decide how a packet lands. -/
def State.landing (s : State) (p : Packet) : Landing :=
  let here := p.dy * 48 + p.dx
  if p.bad then .bad
  else if p.dst < Config.cores ∧ s.census.moving.contains p.dst = true ∧ (s.core (s.siteCore p.dst)).run = .saved then .hold
  else if p.dst < Config.cores ∧ s.destSite p ≠ here then (if s.leaving here p.gen then .forward else .remap)
  else if s.isEarly p then
    if 256 ≤ (s.packets.countP fun q => q.phase == 1 && q.dst / 4 == p.dst / 4) then .refused else .early
  else match p.pay with
    | .reply .. => .at_ (s.siteCore p.dst)
    | _ => match s.named p.dst p.asid with
      | some n => .at_ n
      | none => .nobody

/-- A packet that no core takes is answered with -2 (R316); a reduction's copy has no one to land at. -/
def State.nobody (s : State) (p : Packet) : State :=
  match p.pay with
  | .result grp tag rank .. => ((s.dropPacket p.id).resultDone p grp tag rank 2).advanceFlow p
  | _ => s.settle p (-2)

/-- Perform a packet's landing decision, or the packet itself. -/
def State.land (s : State) (p : Packet) (perform : Nat → State) : State :=
  match s.landing p with
  | .bad => s.lose p
  | .remap => s.refuse p 5 0
  | .forward => s.forward p (s.destSite p)
  | .hold => s.movePacket p.id fun q => { q with phase := 6 }
  | .early => s.modPacket p.id fun q => { q with phase := 1 }
  | .refused => s.refuse p 2 1
  | .nobody => s.nobody p
  | .at_ n => perform n

/-- A deposit takes its register, which it has found empty in this cycle and which the cycle's words have left empty; else it goes into the
latch, or is told that the latch is busy (R101). -/
def State.landDepositPacket (s : State) (p : Packet) (n reg : Nat) (v : Word) (own sawFull : Bool) : State :=
  let c := s.core n
  if !sawFull && !c.msg.full.getLsbD reg then (s.setCore n (c.landDeposit reg v)).settle p 0
  else match c.msg.latch with
    | some _ => s.refuse p 4 2
    | none => ((s.setCore n { c with msg := { c.msg with latch := some { reg := reg, value := v, pkt := p.id, since := s.cycle, unlimited := own } } }).modPacket
        p.id fun q => { q with phase := 3 }).soon (.depositLatchTimeout n)

/-- A packet takes effect at its core, after the core's own accesses of the cycle (R101, R153, R170, R300, R302, R305). -/
def State.landNow (s : State) (p : Packet) (sawFull : Bool) : State :=
  s.land p fun n =>
    match p.pay with
    | .deposit reg v _ own => s.landDepositPacket p n reg v own sawFull
    | .notify m => (s.modCore n fun c => c.landNotify m).settle p 0
    | .write kind a bs post =>
      -- the sender's own copy of a multicast waits on the scoreboard, and frees its entry once it has landed (R247, R302)
      let own := kind = 2 ∧ n = p.src
      if own ∧ (s.core n).engineBlocked p.cmd a bs.length true = true then s
      else
        let r := landWrite s p n kind a bs post
        let s := if own then r.2.modCore n fun c => c.modCmd p.cmd fun k => { k with wr := k.wr.map fun _ => (0, 0) } else r.2
        s.settle p r.1
    | .result grp tag rank a bs post =>
      let r := landPosted s n a bs post
      ((r.2.dropPacket p.id).resultDone p grp tag rank r.1).advanceFlow p
    | _ => s.dropPacket p.id

/-- The deposit in a core's latch that has found its register empty in this cycle lands, if the cycle's words have left it empty (R101). -/
def State.landLatch (s : State) (n : Nat) : State :=
  let c := s.core n
  match c.msg.latch with
  | some d =>
    if !d.due then s
    else if c.msg.full.getLsbD d.reg then
      (s.setCore n { c with msg := { c.msg with latch := some { d with due := false } } }).soon (.depositLatchTimeout n)
    else
      let s := s.setCore n ({ c with msg := { c.msg with latch := none } }.landDeposit d.reg d.value)
      match s.packet? d.pkt with | some p => s.settle p 0 | none => s
  | none => s

/-- At the end of a cycle what has arrived in it lands, in the order of its arrival: writes, deposits and notifies (R101, R153, R300), and then what
the cores' latches and their queues of device deposits hold. -/
def State.landAll (s : State) : State :=
  let due := (s.cores.filter fun p => (match p.2.msg.latch with | some d => d.due | none => false) || p.2.msg.devDue).map Prod.fst
  let s := (s.packets.filter fun p => p.phase == 7 || p.phase == 9).foldl (fun s p => s.landNow { p with phase := 0 } (p.phase == 9)) s
  due.foldl (fun s n => (s.landDevice n).landLatch n) s

/-! ### Pages of the storage pool at their tiles (R264, R382, R384) -/

/-- The logical storage tile that holds a page; none when the backing region does. -/
def State.pageTile (s : State) (page : Nat) : Option Nat :=
  match Store.get 0 s.census.pages page with
  | 0 => none
  | n + 1 => some (n / 23)

/-- A page is in transit (R382). -/
def State.inTransit (s : State) (page : Nat) : Bool := s.census.transit.any fun t => t.1 == page

/-- The event that carries out a command's access once it is translated and has reached its bytes. -/
def Cmd.access (core : Nat) (k : Cmd) : Ev :=
  match k.op with
  | .amo .. => .amoHome core k.id
  | .query .. => .distributorServe core k.id
  | .mldStream .. => .globalStreamRow core k.id
  | _ => .engineGranule core k.id

/-- A command's access has reached its bytes. -/
def State.reached (s : State) (core cmd : Nat) : State :=
  match (s.core core).cmd? cmd with
  | some k => s.post (k.access core)
  | none => s

/-- An access to a page reaches a tile: it is performed at the page's home, held while the page is in transit from there, as far as the hold
store has room, forwarded from a tile that the page has left, or answered REMAP (R382, R384). -/
def State.landPage (s : State) (p : Packet) (core cmd page : Nat) : State :=
  let here := p.dy * 48 + p.dx
  if p.bad then s.lose p
  else if !((s.pageTile page).any fun t => (s.tileMap t).site == here) && s.leaving here p.gen then
    match s.pageTile page with
    | some t => s.forward p (s.tileMap t).site
    | none => (s.dropPacket p.id).reached core cmd
  else if (s.pageTile page).any fun t => (s.tileMap t).site == here then
    if !s.inTransit page then (s.dropPacket p.id).reached core cmd
    else if (s.packets.countP fun q => q.phase == 6 && q.dx == p.dx && q.dy == p.dy && (match q.pay with | .page .. => true | _ => false)) < 96 then
      s.movePacket p.id fun q => { q with phase := 6 }
    else s.refuse p 2 1
  else s.refuse p 5 0

/-- An access to a page leaves for the tile that holds it; the backing region is reached at once. -/
def State.sendPage (s : State) (core cmd page : Nat) : State :=
  match s.pageTile page with
  | none => s.reached core cmd
  | some t => s.inject (s.packetOf ⟨core, Config.cores, (s.core core).asid, false, 0, .page core cmd page, cmd, 0⟩ none (s.tileMap t).site)

/-- A negative acknowledgement reaches the sender of the packet that it refuses (R101, R292, R296, R299, R384). -/
def State.nacked (s : State) (pkt how : Nat) (g : BitVec 16) : State :=
  (s.modPacket pkt fun q => { q with since := s.cycle, gen := if how = 0 then g else q.gen }).post (match how with
    | 0 => .remapNack pkt
    | 1 => .reorderResend pkt
    | 2 => .busyResend pkt
    | _ => .retryDepositResend pkt)

/-- PACKET_ARRIVAL: a PUTR, an MST row, a multicast payload, a reduction result, a GETR's request or reply, an access to a page or a response
reaches its destination (R170, R292, R296). What writes ULM takes effect at the end of the cycle (R153), and a reply once the scoreboard lets it
(R247). -/
def execPacketArrival (pkt : Nat) (s : State) : Out :=
  match s.packet? pkt with
  | none => .next s
  | some p =>
    if p.phase ≠ 0 then .next s
    else match p.pay with
    | .ack core status who addr => .next (if p.bad then s.lose p else (s.dropPacket p.id).ack core p.cmd p.idx status who addr)
    | .nack pkt how g => .next (if p.bad then s.lose p else (s.dropPacket p.id).nacked pkt how g)
    | .page core cmd page => .next (s.landPage p core cmd page)
    | .reply a bs =>
      -- a reply to a command that is no more lands nothing (R243)
      if ((s.core (s.siteCore p.dst)).cmd? p.cmd).isNone then .next (s.dropPacket p.id)
      else if (s.core (s.siteCore p.dst)).engineBlocked p.cmd a bs.length true then .next (s.postpone (.packetArrival pkt))
      else .next (s.land p fun n =>
        let r := landRemote (s.dropPacket p.id) n a bs
        r.2.ack n p.cmd 0 r.1 (s.logicalOf p.src) a)
    | .read a len back => .next (s.land p fun n =>
      let c := s.core n
      match c.admitting fun w => windowGrants w 62 a len (s.core p.src) with
      | none => s.settle p (-1)
      | some _ =>
        match c.ulmError a len with
        | some _ => s.settle p (-3)
        | none => (s.dropPacket p.id).send ⟨n, s.logicalOf p.src, p.asid, false, 1, .reply back (c.ulmBytes a len), p.cmd, n⟩)
    | _ => .next (s.land p fun _ => s.movePacket p.id fun q => { q with phase := 7 })

/-! ### Deposits and notifies (R98, R101, R299) -/

/-- DEPOSIT_ARRIVAL: a window admits the deposit or refuses it; it takes effect at the end of the cycle, by whether its register was full as it
arrived (R98, R101, R299). -/
def execDepositArrival (pkt : Nat) (s : State) : Out :=
  match s.packet? pkt with
  | none => .next s
  | some p =>
    match p.pay with
    | .deposit reg _ _ own => if p.phase ≠ 0 then .next s else .next (s.land p fun n =>
      let c := s.core n
      if !own && (c.admitting fun w => windowDeposits w (some reg) (s.core p.src)).isNone then s.settle p (-1)
      else if reg = 0 then s.settle p (-4)
      else s.movePacket p.id fun q => { q with phase := if c.msg.full.getLsbD reg then 9 else 7 })
    | _ => .next s

/-- DEPOSIT_LATCH_TIMEOUT: the latch tries again; the deposit lands at the end of a cycle that has found its register empty and leaves it so, and is
refused after 256 cycles (R101). -/
def execDepositLatchTimeout (core : Nat) (s : State) : Out :=
  let c := s.core core
  match c.msg.latch with
  | none => .next s
  | some d =>
    if d.due then .next s
    else if !c.msg.full.getLsbD d.reg then .next (s.setCore core { c with msg := { c.msg with latch := some { d with due := true } } })
    else if !d.unlimited && decide (d.since + Config.latchCycles ≤ s.cycle) then
      let s := s.setCore core { c with msg := { c.msg with latch := none } }
      .next (match s.packet? d.pkt with
        | some p => match p.pay with
          | .deposit _ _ true _ => s.refuse p 2 3
          | _ => s.settle p (-4)
        | none => s)
    else .next (s.soon (.depositLatchTimeout core))

/-- A refused packet is sent again from its sender's interface, 64 network cycles after the refusal has reached it: 128 arithmetic cycles (R5,
R101, R296, R299). -/
def resend (s : State) (pkt : Nat) (again : Ev) : State :=
  match s.packet? pkt with
  | none => s
  | some p =>
    if s.cycle < p.since + 64 * Config.netCycle then s.postpone again
    else
      let (x, y) := siteXY (siteOf p.src)
      (s.movePacket pkt fun q => { q with phase := 0, x := x, y := y, vc := 0 }).post p.onward

/-- BUSY_RESEND: the owner's latch was occupied (R101). -/
def execBusyResend (pkt : Nat) (s : State) : Out := .next (resend s pkt (.busyResend pkt))

/-- RETRY_DEPOSIT_RESEND: a refused deposit with its retry flag (R299). -/
def execRetryDepositResend (pkt : Nat) (s : State) : Out := .next (resend s pkt (.retryDepositResend pkt))

/-- REORDER_RESEND: an early packet found the reorder store full (R296), or an access a tile's hold store (R382). -/
def execReorderResend (pkt : Nat) (s : State) : Out := .next (resend s pkt (.reorderResend pkt))

/-- A station's copy of the map (R365). -/
def State.copyAt (s : State) (station : Nat) : MapCopy := Store.get {} s.census.copies station

/-- A station's copy is the master copy's, of its generation (R365, R384). -/
def State.syncCopy (s : State) (station : Nat) : State :=
  { s with census := { s.census with copies := Store.set {} s.census.copies station ⟨s.census.map, s.census.pages, s.census.g⟩ } }

/-- REMAP_NACK: the sender resolves the target again at a station, which first brings its copy of the map up to date, and resends the packet
(R297, R384). -/
def execRemapNack (pkt : Nat) (s : State) : Out :=
  match s.packet? pkt with
  | none => .next s
  | some p =>
    let station := 4 * dieOf p.src
    -- a copy older than the generation that the REMAP has named
    let age := (p.gen - (s.copyAt station).g).toNat
    let s := if 0 < age ∧ age < 32768 then s.syncCopy station else s
    let (x, y) := siteXY (siteOf p.src)
    let at_ := fun (site : Nat) =>
      let (dx, dy) := siteXY site
      (s.movePacket pkt fun q => { q with phase := 0, x := x, y := y, dx := dx, dy := dy, vc := 0, gen := s.census.g }).post p.onward
    match p.pay with
    | .page core cmd page => match s.pageTile page with
      | some t => .next (at_ (s.tileMap t).site)
      | none => .next ((s.dropPacket pkt).reached core cmd)
    | _ => .next (at_ (s.destSite p))

/-- NOTIFY_ARRIVAL: a window admits the notify or refuses it; it is ORed in at the end of the cycle (R299, R300). -/
def execNotifyArrival (pkt : Nat) (s : State) : Out :=
  match s.packet? pkt with
  | none => .next s
  | some p =>
    match p.pay with
    | .notify _ => if p.phase ≠ 0 then .next s else .next (s.land p fun n =>
      let c := s.core n
      if (c.admitting fun w => windowDeposits w none (s.core p.src)).isNone then s.settle p (-1)
      else s.movePacket p.id fun q => { q with phase := 7 })
    | _ => .next s

/-! ### Hops (R292 to R295) -/

/-- Flits of a packet (R291). -/
def Packet.flits (p : Packet) : Nat :=
  1 + (match p.pay with
    | .write _ _ bs _ => (bs.length + 63) / 64
    | .reply _ bs => (bs.length + 63) / 64
    | .contrib _ _ _ _ _ _ bs _ => (bs.length + 63) / 64
    | .result _ _ _ _ bs _ => (bs.length + 63) / 64
    | .tree _ bs => (bs.length + 63) / 64
    | _ => 0)

/-- The region of a site (R293). -/
def regionOf (x y : Nat) : Nat := y / 4 * 12 + x / 4

/-- The count of a region on a plane as the routers know it. -/
def State.countAt (s : State) (x y plane : Nat) : Nat := Store.get 0 s.counts (regionOf x y * 2 + plane)

/-- A productive direction: its port at the neighbour, the neighbour, and a site of the next region beyond in that direction. -/
structure Dir where
  port : Nat
  x : Nat
  y : Nat
  bx : Nat
  by_ : Nat
  /-- the region beyond lies within the rectangle of R294 -/
  inside : Bool
  deriving DecidableEq, Repr

/-- The productive directions, X first (R294). -/
def Packet.dirs (p : Packet) : List Dir :=
  (if p.x < p.dx then [⟨1, p.x + 1, p.y, (p.x + 1) / 4 * 4 + 4, p.y, decide ((p.x + 1) / 4 * 4 + 4 ≤ p.dx)⟩]
   else if p.dx < p.x then [⟨2, p.x - 1, p.y, (p.x - 1) / 4 * 4 - 1, p.y, decide (p.dx < (p.x - 1) / 4 * 4)⟩] else [])
  ++ (if p.y < p.dy then [⟨3, p.x, p.y + 1, p.x, (p.y + 1) / 4 * 4 + 4, decide ((p.y + 1) / 4 * 4 + 4 ≤ p.dy)⟩]
   else if p.dy < p.y then [⟨4, p.x, p.y - 1, p.x, (p.y - 1) / 4 * 4 - 1, decide (p.dy < (p.y - 1) / 4 * 4)⟩] else [])

/-- The score of a direction (R294 step 2). -/
def State.dirScore (s : State) (d : Dir) (plane : Nat) : Nat :=
  s.countAt d.x d.y plane + (if d.inside then s.countAt d.bx d.by_ plane else 0)

/-- Flits that stand in a place of a router on a plane. -/
def State.flitsAt (s : State) (x y plane vc : Nat) : Nat :=
  s.packets.foldl (fun n q => n + (if q.phase = 0 ∧ q.plane = plane ∧ q.x = x ∧ q.y = y ∧ q.vc = vc then q.flits else 0)) 0

/-- Free flit slots of a virtual channel of a neighbour's input port (R294). -/
def State.freeSlots (s : State) (d : Dir) (plane ch : Nat) : Nat := 9 - s.flitsAt d.x d.y plane (4 * d.port + ch)

/-- A virtual channel of a neighbour can hold the whole packet (R294). -/
def State.channelFree (s : State) (p : Packet) (d : Dir) (ch : Nat) : Bool := decide (p.flits ≤ s.freeSlots d p.plane ch)

/-- The free adaptive channel of a direction with the most free slots, the lower number on a tie (R294 step 3). -/
def State.adaptive (s : State) (p : Packet) (d : Dir) : Option Nat :=
  [1, 2, 3].foldl (fun best ch =>
    if !s.channelFree p d ch then best
    else match best with
      | some b => if s.freeSlots d p.plane b < s.freeSlots d p.plane ch then some ch else best
      | none => some ch) none

/-- The directions in order of preference (R294 step 3). -/
def State.preferred (s : State) (p : Packet) : List Dir :=
  match p.dirs with
  | [a, b] => if s.dirScore b p.plane < s.dirScore a p.plane then [b, a] else [a, b]
  | l => l

/-- A tree of a reduction's result, which goes back on the members' dimension-order paths: Y first (R305). -/
def TreeDest.back (l : TreeDest) : Bool := l.red.isSome

/-- The directions that a packet may take, in order of preference: a contribution goes X first, a tree stays on its path (R294, R302, R305). -/
def State.ways (s : State) (p : Packet) : List Dir :=
  match p.pay with
  | .contrib .. => p.dirs.take 1
  | .tree leaves _ => if leaves.any TreeDest.back then p.dirs.reverse.take 1 else p.dirs.take 1
  | _ => s.preferred p

/-- The channel that a packet takes next: an adaptive one, or the escape channel in dimension order (R294, R305). -/
def State.nextChannel (s : State) (p : Packet) : Option (Dir × Nat) :=
  match (s.ways p).findSome? fun d => (s.adaptive p d).map fun ch => (d, ch) with
  | some r => some r
  | none => match (match p.pay with | .tree .. => s.ways p | _ => p.dirs) with
    | d :: _ => if s.channelFree p d 0 then some (d, 0) else none
    | [] => none

/-- Where a packet goes next: the neighbour and the place there. A packet that a relay store re-injects goes to a drain buffer, in the
direction that it was not waiting on where it has two (R383). -/
def State.exit (s : State) (p : Packet) : Option (Dir × Nat) :=
  if p.vc = 101 then
    match (s.preferred p).reverse with
    | d :: _ => if s.flitsAt d.x d.y p.plane (110 + d.port) = 0 then some (d, 110 + d.port) else none
    | [] => none
  else (s.nextChannel p).map fun r => (r.1, 4 * r.1.port + r.2)

/-- A packet stands in a router on a plane and has not been delivered. -/
def Packet.waitsAt (q p : Packet) : Bool := q.phase == 0 && q.plane == p.plane && q.x == p.x && q.y == p.y && q.vc != 200

/-- The packet stands at its destination's router. -/
def Packet.home (p : Packet) : Bool := p.x == p.dx && p.y == p.dy

/-- The output port that a packet can take: 0 is the one to the tile itself. -/
def State.port? (s : State) (p : Packet) : Option Nat := if p.home then some 0 else (s.exit p).map fun r => r.1.port

/-- The output ports that a packet waits for, whether or not there is room beyond them. -/
def State.ports (s : State) (p : Packet) : List Nat := if p.home then [0] else (s.ways p ++ p.dirs.take 1).map fun d => d.port

/-- The packet stands first in its channel; in a relay store, no packet that entered before it waits for its output port (R294, R364). -/
def State.isHead (s : State) (p : Packet) : Bool :=
  match s.packets.find? fun q => q.waitsAt p && q.vc == p.vc
      && (q.id == p.id || decide (p.vc ≠ 100 ∧ p.vc ≠ 101) || (match s.port? p with | some d => (s.ports q).contains d | none => false)) with
  | some q => q.id == p.id
  | none => true

/-- The key of an output port's pointer (R295). -/
def linkKey (p : Packet) (port : Nat) : Nat := ((p.y * 48 + p.x) * 5 + port) * 2 + p.plane

/-- The network cycle is a link's reserved flit slot, one in 32 (R295). -/
def State.reservedSlot (s : State) : Bool := s.cycle / Config.netCycle % 32 == 31

/-- The output port, of a link or to the tile itself, serves the packet: among the heads of the channels that contend for it, the next in round-robin order (R295). A packet of a
drain goes in the reserved slot, which it takes from the others (R295, R383). -/
def State.granted (s : State) (p : Packet) (port : Nat) : Bool :=
  let rivals := s.packets.filter fun q => q.waitsAt p && s.port? q == some port && s.isHead q
  let last := Store.get 0 s.links (linkKey p port)
  let turn := fun (vc : Nat) => (vc + 256 - last) % 256
  if port = 0 then s.isHead p && rivals.all fun q => decide (turn p.vc ≤ turn q.vc)
  else if p.vc = 101 then s.reservedSlot && s.isHead p
  else s.isHead p && !(s.reservedSlot && rivals.any fun q => q.vc == 101)
    && rivals.all fun q => q.vc == 101 || decide (turn p.vc ≤ turn q.vc)

/-- A routing tile's relay store has room, and the tile is not leaving its role (R364, R383). -/
def State.relayRoom (s : State) (x y : Nat) : Bool :=
  let m := s.tileMap (s.tileAt (y * 48 + x))
  m.role == 2 && m.toward.isNone && decide ((s.packets.countP fun q => q.phase == 0 && q.x == x && q.y == y && q.vc == 100) < 2048)

/-- A packet arrives, moves to the next router, enters a relay store, or waits (R294, R295, R364). -/
def State.hop (s : State) (p : Packet) : State :=
  if p.home then
    if s.granted p 0 then
      let s := { s with links := Store.set 0 s.links (linkKey p 0) (p.vc + 1) }
      (s.movePacket p.id fun q => { q with vc := 200 }).post p.arrival
    else s.postpone (.routerHop p.id)
  else match (s.exit p).filter fun r => s.granted p r.1.port with
    | some (d, vc) =>
      let s := { s with links := Store.set 0 s.links (linkKey p d.port) (p.vc + 1) }
      (s.movePacket p.id fun q => { q with x := d.x, y := d.y, vc := vc }).post p.onward
    | none =>
      let relay := (s.exit p).isNone && p.vc != 100 && p.vc != 101 && s.relayRoom p.x p.y
      (if relay then s.movePacket p.id fun q => { q with vc := 100 } else s).postpone (.routerHop p.id)

/-- The packet of one destination of a tree, from where the tree stands (R302, R305). -/
def leafPacket (p : Packet) (data : List Byte) (l : TreeDest) (site : Nat) : Packet :=
  { p with
    dst := l.dst
    seq := some l.seq
    cmd := l.cmd
    idx := l.idx
    dx := site % 48
    dy := site / 48
    pay := match l.red with
      | some (grp, tag, rank) => .result grp tag rank l.addr data l.post
      | none => .write 2 l.addr data l.post }

/-- The way on from a router towards a site: the port at the neighbour, X first, or Y first on the way back (R302, R305). -/
def wayPort (x y site : Nat) (back : Bool) : Nat :=
  let h := if x < site % 48 then 1 else if site % 48 < x then 2 else 0
  let v := if y < site / 48 then 3 else if site / 48 < y then 4 else 0
  if back then (if v ≠ 0 then v else h) else if h ≠ 0 then h else v

/-- A tree in a router: a copy leaves for every destination at this site and for every branch; with one branch it goes on as it is (R302,
R305). -/
def State.branch (s : State) (p : Packet) (leaves : List TreeDest) (data : List Byte) : State :=
  let site := fun (l : TreeDest) => siteOf (s.siteCore l.dst)
  let ways := [0, 1, 2, 3, 4].map fun w => leaves.filter fun l => wayPort p.x p.y (site l) l.back == w
  let toward := fun (ls : List TreeDest) => match ls with
    | [] => p
    | l :: _ => { p with pay := .tree ls data, dx := site l % 48, dy := site l / 48 }
  match ways with
  | [] => s
  | here :: on =>
    let on := on.filter fun ls => !ls.isEmpty
    if here.isEmpty && on.length == 1 && decide (1 < leaves.length) then
      let q := toward leaves
      (s.modPacket p.id fun _ => q).hop q
    else
      let s := here.foldl (fun s l => s.inject (leafPacket p data l (site l))) (s.dropPacket p.id)
      on.foldl (fun s ls => match ls with
        | [l] => s.inject (leafPacket p data l (site l))
        | ls => s.inject (toward ls)) s

/-- ROUTER_HOP: a packet moves to the next router, branches, arrives, or waits (R294, R302). -/
def execRouterHop (pkt : Nat) (s : State) : Out :=
  match s.packet? pkt with
  | none => .next s
  | some p =>
    let s := s.soon .occupancyUpdate
    if p.phase ≠ 0 then .next s
    else match p.pay with
      | .tree leaves data => .next (s.branch p leaves data)
      | _ => .next (s.hop p)

/-- Flit slots of a region's routers on one plane: five input ports of four channels of nine flits, and the relay stores (R293, R294, R364). -/
def State.regionSlots (s : State) (r : Nat) : Nat :=
  (List.range 16).foldl (fun n i =>
    let site := (r / 12 * 4 + i / 4) * 48 + (r % 12 * 4 + i % 4)
    n + 180 + (if (s.tileMap (s.tileAt site)).role = 2 then 2048 * 9 else 0)) 0

/-- The packet stands in the relay store of a tile that leaves its role. -/
def State.inDrain (s : State) (p : Packet) : Bool :=
  (p.vc == 100 || p.vc == 101) && (s.tileMap (s.tileAt (p.y * 48 + p.x))).toward.isSome

/-- Occupied flit slots of a region on one plane; a relay store that its tile is leaving counts as full, whatever it holds (R293, R383). -/
def State.regionUsed (s : State) (r plane : Nat) : Nat :=
  (s.packets.foldl (fun n p => n + (if p.phase = 0 ∧ p.plane = plane ∧ p.vc ≠ 200 ∧ regionOf p.x p.y = r ∧ s.inDrain p = false then p.flits else 0)) 0)
    + (List.range 16).foldl (fun n i =>
      let site := (r / 12 * 4 + i / 4) * 48 + (r % 12 * 4 + i % 4)
      let m := s.tileMap (s.tileAt site)
      n + (if m.role = 2 ∧ m.toward ≠ none then 2048 * 9 else 0)) 0

/-- OCCUPANCY_UPDATE: every region's counts (R293). -/
def execOccupancyUpdate (s : State) : Out :=
  let counts := (List.range 288).foldl (fun m k =>
    let slots := s.regionSlots (k / 2)
    Store.set 0 m k (Nat.min 15 (15 * s.regionUsed (k / 2) (k % 2) / slots))) s.counts
  .next { s with counts := counts }

/-! ### Remote writes of tasks and contestants (R349, R395) -/

/-- Where a core's remote write to a core goes: into the siding of its committed task, into its contestant's siding when the core lies
outside the contestant, or onto the network. -/
inductive Route where
  | task
  /-- the committed task has ended as a failure, and nothing of it is kept (R350) -/
  | nowhere
  | contestant
  | net
  deriving DecidableEq, Repr

/-- The route of a remote write of a command. -/
def State.route (s : State) (core id dst : Nat) : Route :=
  if (match (s.core core).cmd? id with | some k => k.sided | none => false) then (if (s.core core).committed then .task else .nowhere)
  else match s.contestant core with
    | some (_, _, k) => if dst < Config.cores ∧ k.members.contains (s.siteCore dst) = true then .net else .contestant
    | none => .net

/-- A remote write as a siding holds it: destination, kind (0 write, 1 deposit, 2 notify, 3 deposit with retry, 4 MST row or multicast), address
or register, bytes, arrival. -/
def Payload.held (dst : Nat) : Payload → Option (Nat × Nat × Nat × List Byte × Option Nat)
  | .write kind a bs post => some (dst, if kind = 0 then 0 else 4, a, bs, post)
  | .deposit r v retry _ => some (dst, if retry then 3 else 1, r, toBytes 8 v.toNat, none)
  | .notify m => some (dst, 2, 0, toBytes 4 m.toNat, none)
  | _ => none

/-- The payload of a remote write that a siding held. -/
def heldPayload (r : Nat × Nat × Nat × List Byte × Option Nat) : Payload :=
  let (_, kind, a, bs, post) := r
  match kind with
  | 0 => .write 0 a bs none
  | 1 => .deposit a (BitVec.ofNat 64 (leNat bs)) false false
  | 2 => .notify (BitVec.ofNat 32 (leNat bs))
  | 3 => .deposit a (BitVec.ofNat 64 (leNat bs)) true false
  | _ => .write 2 a bs post

/-- A remote write of a command takes its number in its flow as the command issues, where it is to go onto the network (R296). -/
def State.reserve (s : State) (core id dst : Nat) : Option Nat × State :=
  if s.route core id dst = .net ∧ dst < Config.cores then
    let (n, s) := s.takeSeq core dst
    (some n, s)
  else (none, s)

/-- A remote write of a core: into a siding, which answers at once, or onto the network (R170, R349, R395). -/
def State.remoteWrite (s : State) (k : Send) : State :=
  match s.route k.src k.cmd k.dst, k.pay.held k.dst with
  | .nowhere, _ => s.ack k.src k.cmd k.idx 0 0 0
  | .task, some r => (s.modCore k.src fun c => { c with task := c.task.map fun t => { t with remote := t.remote ++ [r] } }).ack k.src k.cmd k.idx 0 0 0
  | .contestant, some r =>
    let c := s.core k.src
    (s.modContestant (c.scope.1 - 1) c.scope.2 fun t => { t with remote := t.remote ++ [r] }).ack k.src k.cmd k.idx 0 0 0
  | _, _ =>
    if Config.cores ≤ k.dst then s.ack k.src k.cmd k.idx (-2) k.dst k.pay.addr
    else s.send k

end Sys2Proof.Machine
end

