-- ==== Sys2Proof/Machine/Remote.lean ====
section
/-!
DEFINITION. Remote words of the A-stream: PUTR and GETR (R168 to R171), DEPOSIT, NOTIFY and MCAST (R298 to R303), REDUCE and REDABORT (R304 to
R307).
-/

namespace Sys2Proof.Machine

/-! ### Words that tasks and contestants may not issue -/

/-- A committed task must not issue the word (R346, R350). -/
def forbidTask : CM Unit := do
  let c ← get
  raiseIf c.committed cTask 4 0 0

/-- A member of a tournament must not issue the word (R395). -/
def forbidTourney : CM Unit := do
  let c ← get
  raiseIf (c.scope.1 != 0) cTourney 0 0 0

/-! ### PUTR and GETR -/

/-- The local region and the remote address of PUTR and GETR (R168), after the checks of R169, which wait until the command can issue (R60). -/
def remoteArgs (cx : Ctx) (cl : BitVec 6) (t l b : BitVec 5) : CM (Nat × Nat × Nat × Nat) := do
  let x ← rdX cx l
  let y ← rdX cx b
  cmdRoom cx cl true t 1
  let a := fieldOf x 0 19
  let n := fieldOf x 32 10
  let r := fieldOf y 0 19
  raiseIf (n == 0 || decide (512 < n) || n % 4 != 0 || a % 4 != 0 || r % 4 != 0) cAlign 0 (BitVec.ofNat 64 a) 0
  raiseIf (decide (Config.ulmBytes < a + n)) cRange 0 (BitVec.ofNat 64 a) 0
  pure (a, n, r, fieldOf y 32 14)

/-- The status of an error in a granule of a command's source (R170, R303). -/
def sourceStatus (cause : Nat) : Int := if cause = cIntegrity then -3 else -6

/-- The command has read its source, which its scoreboard entry holds no longer, and has so many packets to send; the entry is the command's until
it ends (R247). -/
def State.armCmd (s : State) (core id packets : Nat) : State :=
  s.modCmd core id fun k => { k with rd := k.rd.map fun _ => (0, 0), waitFor := packets }

/-- The copies of an MCAST leave: those that a siding keeps are answered at once, and the others, which have their numbers, go down a tree (R296,
R302, R349, R395). -/
def State.multicast (s : State) (core id : Nat) (daddr : Nat) (post : Option Nat) (dests : List (Nat × Nat × Option Nat)) (bs : List Byte) : State :=
  let asid := (s.core core).asid
  let s1 := (dests.filter fun p => p.2.2.isNone).foldl (fun (s : State) p => s.remoteWrite ⟨core, p.2.1, asid, true, 0, .write 2 daddr bs post, id, p.1⟩)
    (s.armCmd core id dests.length)
  s1.sendLeaves core asid (dests.filterMap fun p => p.2.2.map fun n => ⟨p.2.1, n, id, p.1, none, daddr, post⟩) bs

/-- The destinations of an MCAST take their numbers as it issues (R296). -/
def State.reserveAll (s : State) (core id : Nat) (dests : List (Nat × Nat)) : List (Nat × Nat × Option Nat) × State :=
  dests.foldl (fun (r : List (Nat × Nat × Option Nat) × State) d =>
    let (n, s) := r.2.reserve core id d.2
    (r.1 ++ [(d.1, d.2, n)], s)) ([], s)

/-- A PUTR or an MCAST reads its source once no older write covers it, and its packets leave; a granule that fails ends the command, and nothing
is sent (R169, R170, R247, R303). -/
def State.sendSource (s : State) (core id : Nat) : State :=
  let c := s.core core
  match c.cmd? id with
  | none => s
  | some k =>
    if k.status.isSome || k.waitFor != 0 then s
    else match k.op with
      | .putr a len dst r num =>
        if c.engineBlocked id a len false then s.postpone (.engineGranule core id)
        else match c.ulmError a len with
          | some (cause, _) => (s.passNumbers core k).endCmd core id (sourceStatus cause) dst r
          | none =>
            let pkt : Send := ⟨core, dst, c.asid, true, 0, .write 0 r (c.ulmBytes a len) none, id, 0⟩
            if num.isSome then (s.armCmd core id 1).sendAs pkt num else (s.armCmd core id 1).remoteWrite pkt
      | .mcast a len d post dests =>
        if dests.isEmpty then s.endCmd core id 1 0 0
        else if c.engineBlocked id a len false then s.postpone (.engineGranule core id)
        else match c.ulmError a len with
          | some (cause, _) => (s.passNumbers core k).endCmd core id (sourceStatus cause) 0 a
          | none => s.multicast core id d post dests (c.ulmBytes a len)
      | _ => s

/-- PUTR (R168 to R170). -/
def execPutr (n : BitVec 3) (t l b : BitVec 5) : State → Out :=
  issue (.putr n t l b) fun cx => do
    let (a, len, r, dst) ← onCore cx.core (remoteArgs cx clCW t l b)
    let id ← startCmd cx (.putr n t l b) { tok := t, op := .putr a len dst r none, rd := some (a, a + len) }
    let s ← get
    let (num, s) := s.reserve cx.core id dst
    set ((s.modCmd cx.core id fun k => { k with op := .putr a len dst r num }).sendSource cx.core id)
    pure .seq

/-- GETR (R168 to R170). -/
def execGetr (n : BitVec 3) (t l b : BitVec 5) : State → Out :=
  issue (.getr n t l b) fun cx => do
    let (a, len, r, dst) ← onCore cx.core (remoteArgs cx clCR t l b)
    let id ← startCmd cx (.getr n t l b) { tok := t, op := .getr a len, wr := some (a, a + len) }
    let s ← get
    if Config.cores ≤ dst then set (s.endCmd cx.core id (-2) dst r)
    else set ((s.armCmd cx.core id 1).send
      ⟨cx.core, dst, (s.core cx.core).asid, false, 0, .read r len a, id, 0⟩)
    pure .seq

/-! ### DEPOSIT and NOTIFY -/

/-- A one-packet remote word. -/
def remoteM (i : Instr) (t : BitVec 5) (op : CmdOp) (dst : Nat) (pay : Payload) (cx : Ctx) : DM Next := do
  let id ← startCmd cx i { tok := t, op := op }
  let s ← get
  set ((s.armCmd cx.core id 1).remoteWrite
    ⟨cx.core, dst, (s.core cx.core).asid, true, 0, pay, id, 0⟩)
  pure .seq

/-- DEPOSIT (R298, R299). -/
def execDeposit (n : BitVec 3) (t x b : BitVec 5) (y : BitVec 1) : State → Out :=
  issue (.deposit n t x b y) fun cx => do
    let v ← onCore cx.core (rdX cx x)
    let r ← onCore cx.core (rdX cx b)
    remoteM (.deposit n t x b y) t .deposit (fieldOf r 32 14) (.deposit (fieldOf r 0 4) v (y == 1) false) cx

/-- NOTIFY (R298, R299). -/
def execNotify (n : BitVec 3) (t x b : BitVec 5) : State → Out :=
  issue (.notify n t x b) fun cx => do
    let v ← onCore cx.core (rdX cx x)
    let r ← onCore cx.core (rdX cx b)
    remoteM (.notify n t x b) t .notify (fieldOf r 32 14) (.notify (v.setWidth 32)) cx

/-! ### MCAST -/

/-- The ranks that a mask selects (R301). -/
def maskRanks (mask : Word) (base : Nat) : List Nat := ((List.range 64).filter fun i => mask.getLsbD i).map fun i => base + i

/-- The cores that a list of ranks names, or the trap of R302. -/
def rankCores (s : State) (asid : BitVec 12) (grp : Nat) : List Nat → Except Stop (List (Nat × Nat))
  | [] => .ok []
  | r :: rest =>
    match s.group asid.toNat grp with
    | none => .error (.trap cMcast 1 0 (BitVec.ofNat 64 r) none)
    | some g =>
      if g.size ≤ r then .error (.trap cMcast 1 0 (BitVec.ofNat 64 r) none)
      else
        let l := s.binding g r
        match s.named l asid with
        | none => .error (.trap cMcast 0 0 (BitVec.ofNat 64 r) none)
        | some _ => match rankCores s asid grp rest with
          | .ok ls => .ok ((r, l) :: ls)
          | .error e => .error e

/-- MCAST (R301, R302). -/
def execMcast (n : BitVec 3) (t l b : BitVec 5) (y : BitVec 1) : State → Out :=
  issue (.mcast n t l b y) fun cx => do
    let x ← onCore cx.core (rdX cx l)
    let r ← onCore cx.core (rdX cx b)
    let mask ← onCore cx.core (rdX cx (pairNext b))
    let a := fieldOf x 0 19
    let len := fieldOf x 32 10
    let d := fieldOf r 0 19
    onCore cx.core do
      cmdRoom cx clCW true t 1
      raiseIf (a % 4 != 0 || d % 4 != 0 || len % 4 != 0 || len == 0 || decide (512 < len)) cAlign 0 (BitVec.ofNat 64 a) 0
      raiseIf (decide (Config.ulmBytes < a + len) || decide (Config.ulmBytes < d + len)) cRange 0 (BitVec.ofNat 64 a) 0
    let s ← get
    let asid := (s.core cx.core).asid
    match rankCores s asid (fieldOf r 20 8) (maskRanks mask (fieldOf r 32 14)) with
    | .error e => throw e
    | .ok all =>
      let me := s.logicalOf cx.core
      let dests := if y = 1 then all.filter fun p => p.2 != me else all
      let own := dests.any fun p => p.2 == me
      let post := if r.getLsbD 31 then some (fieldOf r 28 3) else none
      let id ← startCmd cx (.mcast n t l b y) { tok := t, op := .mcast a len d post [], rd := some (a, a + len), wr := if own then some (d, d + len) else none }
      let s ← get
      let (nums, s) := s.reserveAll cx.core id dests
      set ((s.modCmd cx.core id fun k => { k with op := .mcast a len d post nums }).sendSource cx.core id)
      pure .seq

/-! ### REDUCE and REDABORT (R304 to R307) -/

/-- Bytes of an element of a reduction (R304). -/
def redBytes (op ty : Nat) : Nat := if op < 3 then 2 ^ ty else (Fmt.ofCode (BitVec.ofNat 2 ty)).width / 8

/-- Combine two elements (R305). -/
def redElem (op ty a b : Nat) : Nat :=
  let w := 8 * redBytes op ty
  let f := Fmt.ofCode (BitVec.ofNat 2 ty)
  match op with
  | 0 => (a + b) % 2 ^ w
  | 1 => if sextNat w a < sextNat w b then a else b
  | 2 => if sextNat w a < sextNat w b then b else a
  | 3 => (f.round (Val.add false (f.decode a) (f.decode b)).1 .rne false 0).1
  | 4 => (f.round (Val.minMax true (f.decode a) (f.decode b)).1 .rne false 0).1
  | _ => (f.round (Val.minMax false (f.decode a) (f.decode b)).1 .rne false 0).1

/-- Combine two contributions, element by element; n bounds the elements. -/
def redCombine (op ty : Nat) : Nat → List Byte → List Byte → List Byte
  | 0, _, _ => []
  | n + 1, a, b =>
    let e := redBytes op ty
    if a.isEmpty then []
    else toBytes e (redElem op ty (leNat (a.take e)) (leNat (b.take e))) ++ redCombine op ty n (a.drop e) (b.drop e)

/-- The membership that REDUCE and REDABORT need: rank in the group (R305). -/
def memberRank (c : Core) (s : State) (grp : Nat) : CM Nat :=
  match c.slotOf grp, s.group c.asid.toNat grp with
  | some n, some _ => pure (gmemRank (c.gmem n))
  | _, _ => raise cMcast 2 0 0

/-- REDUCE (R304, R305). -/
def execReduce (n : BitVec 3) (t l b : BitVec 5) (f : BitVec 1) (o : BitVec 3) (y : BitVec 2) : State → Out :=
  issue (.reduce n t l b f o y) fun cx => do
    let x ← onCore cx.core (rdX cx l)
    let r ← onCore cx.core (rdX cx b)
    onCore cx.core (cmdRoom cx clCW true t 0)
    onCore cx.core forbidTask
    onCore cx.core forbidTourney
    let a := fieldOf x 0 19
    let len := fieldOf x 32 10
    let d := fieldOf r 0 19
    let grp := fieldOf r 20 8
    let tag := fieldOf r 32 8
    let e := redBytes o.toNat y.toNat
    onCore cx.core do
      raiseIf (a % e != 0 || d % e != 0 || len % e != 0 || len == 0 || decide (512 < len)) cAlign 0 (BitVec.ofNat 64 a) 0
      raiseIf (decide (Config.ulmBytes < a + len) || decide (Config.ulmBytes < d + len)) cRange 0 (BitVec.ofNat 64 a) 0
    let s ← get
    let c := s.core cx.core
    let rank ← onCore cx.core (memberRank c s grp)
    let bs ← onCore cx.core (rdUlm a len)
    let asid := c.asid.toNat
    let id ← startCmd cx (.reduce n t l b f o y) { tok := t, op := .reduce asid grp tag }
    let s ← get
    let key := redKey asid grp tag
    let post := if r.getLsbD 31 then some (fieldOf r 28 3) else none
    let red := s.red key
    let red := if red.waiting.isEmpty && red.ranks.isEmpty then { red with op := o.toNat, ty := y.toNat, len := len } else red
    let red := { red with waiting := red.waiting ++ [(cx.core, id, rank, f.toNat, d, post)] }
    if red.ended ≠ 0 then set (s.handOut asid grp tag red)
    else
      let root := match s.group asid grp with | some g => s.binding g 0 | none => 0
      set (((s.armCmd cx.core id 1).setRed key red).send
        ⟨cx.core, root, c.asid, false, 0, .contrib asid grp tag o.toNat y.toNat len bs [rank], id, 0⟩)
      soonEvent (.combinePark asid grp tag)
    pure .seq

/-- REDABORT (R307). -/
def execRedabort (n : BitVec 3) (t b : BitVec 5) : State → Out :=
  issue (.redabort n t b) fun cx => do
    let r ← onCore cx.core (rdX cx b)
    onCore cx.core (cmdRoom cx 0 true t 0)
    onCore cx.core forbidTask
    onCore cx.core forbidTourney
    let s ← get
    let c := s.core cx.core
    let grp := fieldOf r 20 8
    let tag := fieldOf r 32 8
    let _ ← onCore cx.core (memberRank c s grp)
    let asid := c.asid.toNat
    let id ← startCmd cx (.redabort n t b) { tok := t, op := .redabort }
    let s ← get
    let red := s.red (redKey asid grp tag)
    if red.ended ≠ 0 then set (s.endCmd cx.core id (-9) 0 0)
    else set ((s.endRed asid grp tag 2 red).endCmd cx.core id 0 0 0)
    pure .seq

/-! ### Combining in the network (R305, R306) -/

/-- A value lies between two others. -/
def between (a b v : Nat) : Bool := (decide (a ≤ v) && decide (v ≤ b)) || (decide (b ≤ v) && decide (v ≤ a))

/-- The dimension-order path from a site to another passes through a router: X first, then Y (R305). -/
def onPath (src dst here : Nat) : Bool :=
  (here / 48 == src / 48 && between (src % 48) (dst % 48) (here % 48)) || (here % 48 == dst % 48 && between (src / 48) (dst / 48) (here / 48))

/-- The site of the core that a rank is bound to. -/
def State.rankSite (s : State) (g : Group) (rank : Nat) : Nat := siteOf (s.siteCore (s.binding g rank))

/-- Every member whose path passes through the entry's router has contributed there, has passed it uncombined, or has departed with no contribution
under way (R305, R306). -/
def State.combDone (s : State) (e : Comb) : Bool :=
  match s.group e.asid e.grp with
  | none => true
  | some g =>
    let passed := (s.red (redKey e.asid e.grp e.tag)).passed
    (List.range g.size).all fun r => !onPath (s.rankSite g r) (s.rankSite g 0) e.site || e.ranks.contains r
      || passed.contains (e.site, r) || ((s.departed e.asid e.grp).contains r && !s.underWay e.asid e.grp e.tag r)

/-- The combining-store entries of a router that are in use: those that are not parked (R306). -/
def State.combsAt (s : State) (site : Nat) : Nat := s.combs.countP fun e => e.site == site && !e.parked

/-- A router has a free combining-store entry: 16 in all, 512 in a routing tile that is not leaving its role (R306, R364, R383). -/
def State.combRoom (s : State) (site : Nat) : Bool :=
  let m := s.tileMap (s.tileAt site)
  decide (s.combsAt site < (if m.role = 2 ∧ m.toward = none then 512 else 16))

/-- The entry is the one of a reduction in a router. -/
def Comb.isFor (e : Comb) (site asid grp tag : Nat) : Bool := e.site == site && e.asid == asid && e.grp == grp && e.tag == tag

/-- An entry that is complete forwards one combined packet (R305). -/
def State.flushComb (s : State) (e : Comb) : State :=
  if !s.combDone e then s
  else
    let s := { s with combs := s.combs.filter fun f => !f.isFor e.site e.asid e.grp e.tag }
    match s.group e.asid e.grp with
    | none => s
    | some g =>
      let src := 4 * e.site + s.siteCore (s.binding g (e.ranks.headD 0)) % 4
      s.enterNet (s.packetOf ⟨src, s.binding g 0, BitVec.ofNat 12 e.asid, false, 0,
        .contrib e.asid e.grp e.tag e.op e.ty e.len e.data e.ranks, 0, 0⟩ none (s.rankSite g 0)) .routerHop

/-- A contribution reaches rank 0's interface (R305, R306). -/
def State.contribute (s : State) (p : Packet) (asid grp tag op ty len : Nat) (bs : List Byte) (ranks : List Nat) : State :=
  let s := s.dropPacket p.id
  let key := redKey asid grp tag
  match Store.get none s.reductions key with
  | none => s
  | some r =>
    if r.ended ≠ 0 then s
    else if r.op ≠ op ∨ r.ty ≠ ty ∨ r.len ≠ len then s.endRed asid grp tag 1 r
    else
      let data := if r.ranks.isEmpty then bs else redCombine op ty len r.partial_ bs
      let r := { r with partial_ := data, ranks := r.ranks ++ ranks }
      let s := s.setRed key r
      if s.gathered asid grp tag r.ranks then s.post (.reduceResultLand asid grp tag) else s

/-- A contribution is delivered at the tile of rank 0: like any other packet it is discarded, held, sent on or answered REMAP (R297, R381, R384), and
otherwise it reaches rank 0's interface, whatever the core does. -/
def State.landContribution (s : State) (p : Packet) (asid grp tag op ty len : Nat) (bs : List Byte) (ranks : List Nat) : State :=
  match s.landing p with
  | .at_ _ | .nobody | .early | .refused => s.contribute p asid grp tag op ty len bs ranks
  | _ => s.land p fun _ => s

/-- COMBINE: a contribution combines in a router's entry for its reduction, takes a free entry, goes on uncombined, or reaches rank 0's
interface; the order of combination is the order of these steps (R126, R305, R306). -/
def execCombine (pkt : Nat) (s : State) : Out :=
  match s.packet? pkt with
  | none => .next s
  | some p =>
    match p.pay with
    | .contrib asid grp tag op ty len bs ranks =>
      let site := p.y * 48 + p.x
      let key := redKey asid grp tag
      let on := fun (s : State) =>
        let r := s.red key
        (s.setRed key { r with passed := r.passed ++ ranks.map fun r => (site, r) }).post (.routerHop pkt)
      if p.phase ≠ 0 then .next s
      else if p.bad then .next (s.lose p)
      else if p.home then
        if p.vc ≠ 200 then .next (s.post (.routerHop pkt)) else .next (s.landContribution p asid grp tag op ty len bs ranks)
      else match s.combs.find? fun e => e.isFor site asid grp tag with
        | some e =>
          if e.op ≠ op ∨ e.ty ≠ ty ∨ e.len ≠ len then .next (on s)
          else
            let e' := { e with data := redCombine op ty len e.data bs, ranks := e.ranks ++ ranks }
            .next ({ s.dropPacket pkt with combs := s.combs.map fun (f : Comb) => if f.isFor site asid grp tag then e' else f }.flushComb e')
        | none =>
          if s.combRoom site then
            let e : Comb := ⟨site, asid, grp, tag, op, ty, len, bs, ranks, s.ns, false⟩
            .next ({ s.dropPacket pkt with combs := s.combs ++ [e] }.flushComb e)
          else .next (on s)
    | _ => .next s

/-- A pending REDUCE: core, command, rank, form, daddr and arrival. -/
abbrev RedWait := Nat × Nat × Nat × Nat × Nat × Option Nat

/-- REDUCE_RESULT_LAND: the complete result goes to rank 0, and down the tree to the members that asked for a copy; a rank 0 that has departed
leaves only the copies, and status 2 (R305, R306). -/
def execReduceResultLand (asid grp tag : Nat) (s : State) : Out :=
  let key := redKey asid grp tag
  let r := s.red key
  if r.ended ≠ 0 ∨ r.ranks.isEmpty = true ∨ s.gathered asid grp tag r.ranks = false then .next s
  else
    let gone := s.departed asid grp
    let st : Nat := if (gone.filter fun d => !r.ranks.contains d).isEmpty then 0 else 2
    let (root, rootCore) := match s.group asid grp with
      | some g => (s.binding g 0, s.siteCore (s.binding g 0))
      | none => (0, 0)
    let a := (s.core rootCore).asid
    let first : Option RedWait := if gone.contains 0 then none else r.waiting.find? fun w => w.2.2.1 == 0
    let copies : List RedWait := r.waiting.filter fun w => w.2.2.1 != 0 && w.2.2.2.1 != 0 && !gone.contains w.2.2.1
    let plain : List RedWait := r.waiting.filter fun w => w.2.2.1 != 0 && w.2.2.2.1 == 0
    let out := (match first with | some w => w :: plain | none => []) ++ copies
    let s := s.setRed key { r with
      partial_ := [], ranks := [], passed := [], waiting := [], out := r.out ++ out.map fun w => (w.1, w.2.1, w.2.2.1, w.2.2.2.1) }
    let s := match first with
      | some (_, cmd, _, _, d, post) => s.send ⟨rootCore, root, a, true, 0, .result grp tag 0 d r.partial_ post, cmd, st⟩
      | none =>
        -- rank 0 has departed: the members that asked for no copy receive their status at once
        let st := if gone.contains 0 then 2 else Int.ofNat st
        plain.foldl (fun (s : State) (w : RedWait) =>
          s.inject (s.packetOf ⟨rootCore, s.logicalOf w.1, a, false, 1, .ack w.1 st 0 0, w.2.1, 0⟩ none (siteOf w.1))) s
    .next (s.sendTree rootCore a (copies.map fun (w : RedWait) =>
      ⟨s.logicalOf w.1, 0, w.2.1, st, some (grp, tag, w.2.2.1), w.2.2.2.2.1, w.2.2.2.2.2⟩) r.partial_)

/-- COMBINE_PARK: entries that wait for nobody any more are forwarded, and an entry older than the park time moves to the storage pool, where later
contributions reach it; its router's place is free (R306). -/
def execCombinePark (asid grp tag : Nat) (s : State) : Out :=
  let ours := fun (e : Comb) => e.asid == asid && e.grp == grp && e.tag == tag
  let s := (s.combs.filter ours).foldl State.flushComb s
  let combs := s.combs.map fun e => if ours e = true ∧ e.since + s.stn.parkTime ≤ s.ns then { e with parked := true } else e
  let s' := { s with combs := combs }
  .next (if (combs.any fun e => ours e && !e.parked) || !(s.red (redKey asid grp tag)).waiting.isEmpty then s'.soon (.combinePark asid grp tag) else s')

/-- The reductions of a group look again at their members after a departure: entries stop waiting for the member, a complete result goes out, and
one that has handed out its status to every member that is left is forgotten (R306, R307). -/
def State.recheckReds (s : State) (asid grp : Nat) : State :=
  let s := (s.combs.filter fun e => e.asid == asid && e.grp == grp).foldl State.flushComb s
  s.reductions.foldl (fun s p =>
    if p.1 / 256 ≠ groupKey asid grp then s
    else
      let r := s.red p.1
      if r.ended ≠ 0 then s.handOut asid grp (p.1 % 256) r else s.post (.reduceResultLand asid grp (p.1 % 256))) s

/-- The combining-store entries of a router move to the storage pool as parked entries (R383). -/
def State.parkCombs (s : State) (site : Nat) : State := { s with combs := s.combs.map fun e => if e.site = site then { e with parked := true } else e }

end Sys2Proof.Machine
end

