-- ==== Sys2Proof/Machine/Rings.lean ====
section
/-!
DEFINITION. The barriers of a pipeline's ring slots as copies meet them (R354).
-/

namespace Sys2Proof.Machine

/-- A pipeline of a group. -/
def State.pipe (s : State) (asid grp : Nat) : Option Pipe := Store.get none s.pipes (groupKey asid grp)

/-- Change a pipeline. -/
def State.modPipe (s : State) (asid grp : Nat) (f : Pipe → Pipe) : State :=
  { s with pipes := Store.modify none s.pipes (groupKey asid grp) fun o => o.map f }

/-- A ring of a pipeline. -/
def Pipe.ring (p : Pipe) (j : Nat) : Ring := Store.get {} p.rings j

/-- Change a ring. -/
def State.modRing (s : State) (asid grp j : Nat) (f : Ring → Ring) : State :=
  s.modPipe asid grp fun p => { p with rings := Store.modify {} p.rings j f }

/-- A slot of a ring. -/
def Ring.slot (r : Ring) (i : Nat) : RingSlot := Store.get {} r.slots i

/-- Put a slot. -/
def Ring.setSlot (r : Ring) (i : Nat) (v : RingSlot) : Ring := { r with slots := Store.set {} r.slots i v }

/-- The slot that holds an address, if the ring holds it. -/
def Ring.slotAt (r : Ring) (va : Nat) : Option Nat :=
  if r.slotBytes = 0 ∨ va < r.va ∨ r.va + r.nslots * r.slotBytes ≤ va then none else some ((va - r.va) / r.slotBytes)

/-- The group, ring and slot that an address of an ASID lies in. -/
def State.ringAt (s : State) (asid va : Nat) : Option (Nat × Nat × Nat) :=
  s.pipes.findSome? fun p => if p.1 / 256 ≠ asid then none else match p.2 with
    | none => none
    | some pipe => pipe.rings.findSome? fun r => (r.2.slotAt va).map fun i => (p.1 % 256, r.1, i)

/-- A slot becomes free: its empty phase toggles, and a producer may be granted it (R354). -/
def State.freeSlot (s : State) (asid grp j i : Nat) : State :=
  (s.modRing asid grp j fun r =>
    let v := r.slot i
    r.setSlot i { v with st := 0, emptyPhase := !v.emptyPhase }).post (.prodGrant asid grp j)

/-- n released bytes of a copy write are counted in the filling slot that they lie in (R354). -/
def State.ringCount (s : State) (asid va n : Nat) : State :=
  match s.ringAt asid va with
  | none => s
  | some (grp, j, i) =>
    match s.pipe asid grp with
    | none => s
    | some p =>
      let v := (p.ring j).slot i
      if v.st ≠ 1 then s
      else
        let left := v.fullPend - n
        if left = 0 then
          (s.modRing asid grp j fun r =>
            r.setSlot i { v with st := 2, fullPend := 0, fullPhase := !v.fullPhase, emptyPend := v.bytes }).post (.consGrant asid grp j)
        else s.modRing asid grp j fun r => r.setSlot i { v with fullPend := left }

/-- A copy write of n bytes has been accepted (R354): in a filling slot it is released at DEVICE scope and counted. One that stands in a siding is
counted when the task's commit releases it (R351). -/
def State.copyWrote (s : State) (core : Nat) (sided : Bool) (va loc n : Nat) : State :=
  let asid := (s.core core).asid.toNat
  let filling := match s.ringAt asid va with
    | some (grp, j, i) => match s.pipe asid grp with
      | some p => ((p.ring j).slot i).st == 1
      | none => false
    | none => false
  if sided then s.modCore core fun c => { c with task := c.task.map fun t => { t with copies := t.copies ++ [(va, n)] } }
  else if filling then (s.releasePart core 3 loc n).ringCount asid va n
  else s

/-- A copy read of n bytes by a draining slot's consumer is counted (R354). -/
def State.ringRead (s : State) (core va n : Nat) : State :=
  let asid := (s.core core).asid.toNat
  match s.ringAt asid va with
  | none => s
  | some (grp, j, i) =>
    match s.pipe asid grp with
    | none => s
    | some p =>
      let v := (p.ring j).slot i
      if v.st ≠ 3 ∨ v.owner ≠ core then s
      else
        let left := v.emptyPend - n
        if left = 0 then (s.modRing asid grp j fun r => r.setSlot i { v with emptyPend := 0 }).freeSlot asid grp j i
        else s.modRing asid grp j fun r => r.setSlot i { v with emptyPend := left }

end Sys2Proof.Machine
end

