-- ==== Sys2Proof/Machine/Copy.lean ====
section
/-!
DEFINITION. Copies (R249 to R255), GLD and GST (R268 to R270), and the translation of every command's accesses (R259 to R267).
-/

namespace Sys2Proof.Machine

/-! ### Described blocks (R122) -/

/-- Payload bits that a format uses; none for a format that is malformed. -/
def blockBits (fmt : Nat) : Option Nat :=
  if fmt = 3 ∨ fmt = 4 then some 492
  else if (1 ≤ fmt ∧ fmt ≤ 2) ∨ (5 ≤ fmt ∧ fmt ≤ 9) then some 496
  else if 0x12 ≤ fmt ∧ fmt ≤ 0x18 then some (62 * (fmt - 0x10))
  else none

/-- The 64 bytes form a described block. -/
def blockOk (bs : List Byte) : Bool :=
  let fmt := leNat (bs.take 1)
  let payload := leNat (bs.drop 2)
  if fmt = 0 then leNat (bs.drop 1) == 0
  else match blockBits fmt with
    | some n => payload / 2 ^ n == 0
    | none => false

/-! ### Order among the global accesses of one core -/

/-- The bytes that a command writes or reads in global memory, and what it is: 0 GLD, 1 GST, 2 a copy out, 3 AMO. -/
def CmdOp.span : CmdOp → Option (Nat × Nat × Nat)
  | .gld va size _ => some (va, 2 ^ size, 0)
  | .gst va size _ => some (va, 2 ^ size, 1)
  | .copy true _ _ _ _ _ rb rows va gs _ _ _ _ => if rows = 0 ∨ rb = 0 then none else some (va, (rows - 1) * gs + rb, 2)
  | .amo _ _ _ va .. => some (va, 8, 3)
  | _ => none

/-- The command has not completed its accesses. -/
def Cmd.open_ (k : Cmd) : Bool := k.status.isNone

/-- An access of kind a to n bytes at va waits for an older access of the core to a common byte: writes are made in issue order (R276,
R284), and GLD and GST take effect in issue order (R269). -/
def Core.orderBlocked (c : Core) (id va n a : Nat) : Bool :=
  c.cmds.any fun k => decide (k.id < id) && k.open_ && (match k.op.span with
    | some (lo, m, b) => decide (va < lo + m) && decide (lo < va + n) && (if a = 0 then b ≤ 1 else if a = 1 then true else 1 ≤ b)
    | none => false)

/-- Every older access of some classes has completed (R282). -/
def Core.classDone (c : Core) (id : Nat) (cl : BitVec 6) : Bool :=
  !c.cmds.any fun k => decide (k.id < id) && k.open_ && k.op.classes &&& cl != 0

/-- The classes that write global memory or another core's ULM. -/
def clWrites : BitVec 6 := clW ||| clCW ||| clMW

/-- A command that writes global memory (R284). -/
def CmdOp.writesGlobal : CmdOp → Bool
  | .copy out .. => out
  | .gst .. => true
  | .amo .. => true
  | _ => false

/-- Every older global write of the core has completed (R284). -/
def Core.globalDone (c : Core) (id : Nat) : Bool := !c.cmds.any fun k => decide (k.id < id) && k.open_ && k.op.writesGlobal

/-- A command that ends with a release, or begins with one. -/
def CmdOp.releases : CmdOp → Bool
  | .copy _ _ rel .. => rel
  | .amo _ order .. => decide (2 ≤ order)
  | _ => false

/-- Every release that the core issued before has been performed (R276). -/
def Core.releasesDone (c : Core) (id : Nat) : Bool :=
  !c.cmds.any (fun k => decide (k.id < id) && k.open_ && k.op.releases)
    && !c.fences.any (fun f => decide (f.id < id) && f.order != 1 && !f.released)

/-! ### Translation (R259 to R267) -/

/-- A command's accesses as a fault record names them: 0 ordinary, 1 copy, 2 matrix (R266). -/
def CmdOp.class_ : CmdOp → Nat
  | .copy .. => 1
  | .mldStream .. => 2
  | _ => 0

/-- A command stops on a fault, and a record goes to the kernel; a fault that meets one on the same page in the same station joins it (R254,
R259, R266). -/
def State.hold (s : State) (core id va kind : Nat) (f : WalkFault) : State :=
  let asid := (s.core core).asid.toNat
  let rec_ : FaultRec := match (s.core core).cmd? id with
    | some k => ⟨asid, va, f.kind, f.level, kind, core, id, k.op.class_, k.strm, k.slotNo⟩
    | none => ⟨asid, va, f.kind, f.level, kind, core, id, 0, .a, 0⟩
  let s := s.modCmd core id fun k => { k with held := true }
  if s.stn.faults.any fun r => r.asid == asid && r.va / 65536 == va / 65536 && dieOf r.core == dieOf core then s
  else { s with stn := { s.stn with faults := s.stn.faults ++ [rec_] } }

/-- A GLD or GST whose access has been translated is performed (R269, R270, R434). -/
def State.performWord (s : State) (core : Nat) (k : Cmd) (loc : Nat) : State :=
  match k.op with
  | .gld va size sg =>
    if s.accessFails core loc (2 ^ size) ≠ 0 then s.endCmd core k.id (s.accessFails core loc (2 ^ size)) 0 va
    else
      let (bs, s) := s.readHome core loc (2 ^ size)
      let v := BitVec.ofNat 64 (leNat bs)
      s.endCmdWith core k.id (if sg then (v.setWidth (8 * 2 ^ size)).signExtend 64 else v)
  | .gst va size v =>
    if s.accessFails core loc (2 ^ size) ≠ 0 then s.endCmd core k.id (s.accessFails core loc (2 ^ size)) 0 va
    else (s.putGlobal core loc (toBytes (2 ^ size) v.toNat) k.sided).endCmd core k.id 0 0 0
  | _ => s

/-- An access is translated: one to a page that a storage tile holds leaves for that tile (R264); else a GLD or GST is performed, and another
command's access becomes due. -/
def State.translated (s : State) (core : Nat) (k : Cmd) (loc : Nat) (leaf : Word) (size : Nat) : State :=
  let va := match k.target with | some (va, _, _) => va | none => 0
  let s1 := s.modCmd core k.id fun k => { k with xl := some (loc, leaf.getLsbD 11), far := s.farUse leaf size va }
  if leaf.getLsbD 10 && (s.pageTile (bitsOf leaf 20 20)).isSome then s1.sendPage core k.id (bitsOf leaf 20 20)
  else match k.op with
    | .gld .. => s.performWord core k loc
    | .gst .. => s.performWord core k loc
    | _ => s1.post (k.access core)

/-- An access that has been translated cannot act now: its page is in transit (R382), or the far-map entry that it uses has lost its last live port,
and the request is held and reported (R431); the state in which it waits. -/
def State.accessWaits (s : State) (core : Nat) (k : Cmd) : Option State :=
  match k.xl, k.target with
  | some (loc, _), some (va, _, kind) =>
    if s.heldLoc loc then some (s.postpone (k.access core))
    else match k.far with
      | some (i, level) =>
        if s.farLive (Store.get 0 s.stn.farMap i) then none
        else some ((s.modCmd core k.id fun k => { k with xl := none, far := none }).hold core k.id va kind ⟨3, level⟩)
      | none => none
  | _, _ => none

/-- A GLD or GST waits for an older access of its core to a common byte (R269). -/
def Core.wordWaits (c : Core) (k : Cmd) (va n : Nat) : Bool :=
  match k.op with
  | .gld .. => c.orderBlocked k.id va n 0
  | .gst .. => c.orderBlocked k.id va n 1
  | _ => false

/-- TRANSLATION_REQUEST: the station's cache serves the request, or a walk begins (R259, R262). -/
def execTranslationRequest (core id : Nat) (s : State) : Out :=
  let c := s.core core
  match c.cmd? id with
  | none => .next s
  | some k =>
    match k.target with
    | none => .next s
    | some (va, n, kind) =>
      if !k.open_ || k.held || k.xl.isSome then .next s
      else if c.wordWaits k va n then .next (s.postpone (.translationRequest core id))
      else
        match s.cached (stationOf core va) c.asid.toNat va ⟨kind, k.user⟩ with
        | some (r, leaf, size) =>
          let s := { s with free := s.free + 1 }
          match r with
          | .ok loc => .next (s.translated core k loc leaf size)
          | .error f => .next (s.hold core id va kind f)
        | none => .next ({ s with free := s.free + 1 }.post (.pageWalk core id))

/-- PAGE_WALK (R260, R261, R266). -/
def execPageWalk (core id : Nat) (s : State) : Out :=
  let c := s.core core
  match c.cmd? id with
  | none => .next s
  | some k =>
    match k.target with
    | none => .next s
    | some (va, n, kind) =>
      if !k.open_ || k.held || k.xl.isSome then .next s
      else if c.wordWaits k va n then .next (s.postpone (.pageWalk core id))
      else match s.walkFor (stationOf core va) c.asid.toNat va ⟨kind, k.user⟩ with
        | .ok (loc, leaf, size, s) => .next ({ s with free := s.free + 1 }.translated core k loc leaf size)
        | .error f => .next ({ s with free := s.free + 1 }.hold core id va kind f)

/-- The commands that the kernel's answer to a record concerns: those held on its page in its station. -/
def State.heldOn (s : State) (r : FaultRec) : List (Nat × Nat × Nat) :=
  (s.cores.map fun p =>
    if p.2.asid.toNat = r.asid ∧ dieOf p.1 = dieOf r.core then
      p.2.cmds.filterMap fun k => match k.target with
        | some (va, _, _) => if k.held ∧ k.open_ ∧ va / 65536 = r.va / 65536 then some (p.1, k.id, k.failVa va) else none
        | none => none
    else []).flatten

/-- The records of a core go with its commands; the station still holds the requests of other cores that have joined one, and the record then
names one of those (R254, R259, R266). -/
def State.dropFaults (s : State) (core : Nat) : State :=
  let faults := s.stn.faults.filterMap fun r =>
    if r.core ≠ core then some r
    else match (s.heldOn r).find? fun h => h.1 != core with
      | some (n, id, va) => match (s.core n).cmd? id with
        | some k => some { r with core := n, id := id, va := va, class_ := k.op.class_, strm := k.strm, slot := k.slotNo }
        | none => none
      | none => none
  { s with stn := { s.stn with faults := faults } }

/-- A station forgets the table entries of an ASID, so that its next walk reads every entry again (R267). -/
def State.freshWalk (s : State) (station asid : Nat) : State :=
  { s with stn := { s.stn with tabs := s.stn.tabs.filter fun t => !(t.station == station && t.asid == asid) } }

/-- The record of a command's fault, and the state without it. -/
def State.takeFault (s : State) (core id : Nat) : Option (FaultRec × State) :=
  match s.stn.faults.find? fun r => r.core == core && r.id == id with
  | some r => some (r, { s with stn := { s.stn with faults := s.stn.faults.filter fun q => q != r } })
  | none => none

/-- The kernel has answered the fault of a packet's work: it goes on, or it fails with err 3 (R420). A record names queue q as core 10,000 + q. -/
def State.answerPacket (s : State) (core id err : Nat) : State :=
  let f := fun (p : QPacket) => if p.seqno = id then { p with held := false, failing := if err = 0 then p.failing else err } else p
  ({ s with queues := Store.modify {} s.queues (core - 10000) fun d => { d with pkts := d.pkts.map f } }.post (.queueWake (core - 10000))).post
    (.packetComplete (core - 10000) id)

/-- The homes of n bytes of a host's window, and its ASID's VA (R428). -/
def State.windowPlaces (s : State) (port addr kind : Nat) : Nat → Except (Nat × WalkFault) (List Nat)
  | 0 => .ok []
  | n + 1 =>
    let va := Store.get 0 s.stn.winBase port + addr
    match s.place (Store.get 0 s.stn.winAsid port) va ⟨kind, false⟩ with
    | .error f => .error (va, f)
    | .ok loc => match s.windowPlaces port (addr + 1) kind n with
      | .ok r => .ok (loc :: r)
      | .error e => .error e

/-- The latest value released at SYSTEM scope (R428). -/
def State.systemByte (s : State) (loc : Nat) : Byte :=
  match (s.versions loc).find? fun v => v.rels.any fun r => decide (4 ≤ r.scope) with
  | some v => v.val
  | none => initByte loc

/-- A window access is performed: a write at its home at SYSTEM scope, or dropped where it keeps poisoned bytes; a read of the latest SYSTEM
value, where a poisoned granule, or one whose check value fails at the port's exit, completes with all ones and UR (R428, R433, R434). -/
def State.hostAccess (s : State) (a : HostAcc) (locs : List Nat) : State :=
  match a.data with
  | some bs =>
    if s.keepsPoison locs then { s with isl := { s.isl with records := s.isl.records ++ [(0, a.port)] } }
    else
      let s := s.perform (10000 + a.port) 4 ((locs.zip bs).map fun p => (p.1, some p.2)) []
      s.unpoisonAll locs
  | none =>
    if s.isl.exitBad.contains a.port then
      { s with isl := { s.isl with hostRead := List.replicate a.len 0xFF, hostStatus := 1, exitBad := s.isl.exitBad.filter fun p => p != a.port } }
    else if locs.any fun l => s.isl.poison.contains (l / 64) then { s with isl := { s.isl with hostRead := List.replicate a.len 0xFF, hostStatus := 1 } }
    else { s with isl := { s.isl with hostRead := locs.map s.systemByte, hostStatus := 0 } }

/-- The accesses of a port's window that wait are performed in order, as far as they meet no fault (R428) and no page in transit (R382); n bounds
the steps. -/
def State.drainWindow (s : State) (port : Nat) : Nat → State
  | 0 => s
  | n + 1 =>
    match s.isl.hostPend.find? fun a => a.port == port with
    | none => s
    | some a =>
      let (kind, len) := match a.data with | some bs => (1, bs.length) | none => (0, a.len)
      match s.windowPlaces port a.addr kind len with
      | .error (va, f) => { s with stn := { s.stn with faults := s.stn.faults ++ [⟨Store.get 0 s.stn.winAsid port, va, f.kind, f.level, kind, 20000 + port, 0, 0, .a, 0⟩] } }
      | .ok locs =>
        if locs.any s.heldLoc then s.soon (.faultRetry (20000 + port) 0)
        else
          let s := { s with isl := { s.isl with hostPend := s.isl.hostPend.erase a } }
          let s := s.touch (Store.get 0 s.stn.winAsid port) (Store.get 0 s.stn.winBase port + a.addr) len ⟨kind, false⟩
          (s.hostAccess a locs).drainWindow port n

/-- The kernel has declined the fault of a window's oldest access: a read completes with all ones and UR, and a write is dropped (R428). -/
def State.declineWindow (s : State) (port : Nat) : State :=
  match s.isl.hostPend.find? fun a => a.port == port with
  | none => s
  | some a =>
    let isl := { s.isl with hostPend := s.isl.hostPend.erase a }
    let isl := if a.data.isSome then isl else { isl with hostRead := List.replicate a.len 0xFF, hostStatus := 1 }
    { s with isl := isl }.drainWindow port isl.hostPend.length

/-- The write behind a record holds a queue's reset (R425), and its far-map entry still has no live port (R431). -/
def State.stillFar (s : State) (core id : Nat) : Bool :=
  (s.queues.any fun q => q.2.farHeld.contains (core, id)) && s.stn.faults.any fun r => r.core == core && r.id == id &&
    (match s.place r.asid r.va ⟨1, false⟩ with | .error f => f.kind == 3 | .ok _ => false)

/-- FAULT_RETRY: the kernel answers a record, and the station walks again (R254, R267). A window whose oldest access waits for a page in transit is
tried again (R382). While the RV64 complex is down no answer comes (R426). -/
def execFaultRetry (core id : Nat) (s : State) : Out :=
  if s.isl.complexDown then .next (s.soon (.faultRetry core id))
  else if s.stillFar core id then .next s
  else match s.takeFault core id with
  | none => .next (if 20000 ≤ core ∧ core < 30000 ∧ (s.stn.faults.any fun r => r.core == core) = false then s.drainWindow (core - 20000) s.isl.hostPend.length else s)
  | some (r, s) => if 30000 ≤ core then .next (s.answerDevice r false)
    else if 20000 ≤ core then .next (s.drainWindow (core - 20000) s.isl.hostPend.length)
    else if 10000 ≤ core then .next (s.answerPacket core id 0) else .next ((s.heldOn r).foldl (fun s h =>
      (s.modCmd h.1 h.2.1 fun k => { k with held := false }).post (.pageWalk h.1 h.2.1)) (s.freshWalk (stationOf r.core r.va) r.asid))

/-- FAULT_DECLINE: the held requests are dropped, and their commands end with -5 (R267, R270). -/
def execFaultDecline (core id : Nat) (s : State) : Out :=
  if s.isl.complexDown then .next (s.soon (.faultDecline core id))
  else match s.takeFault core id with
  | none => .next s
  | some (r, s) => if 30000 ≤ core then .next (s.answerDevice r true)
    else if 20000 ≤ core then .next (s.declineWindow (core - 20000))
    else if 10000 ≤ core then .next (s.answerPacket core id 3) else .next ((s.heldOn r).foldl (fun s h => s.endCmd h.1 h.2.1 (-5) 0 h.2.2) s)

/-! ### COPY, COPY2 and COPYP (R249 to R253) -/

/-- A copy begins, after its acquire: an empty one goes to its release. -/
def State.copyBegin (s : State) (core id : Nat) (rel empty : Bool) : State :=
  if !empty then s.post (.translationRequest core id)
  else if rel then s.post (.releasePerformed core id)
  else s.endCmd core id 0 0 0

/-- The operands of a copy (R251). -/
structure CopyArgs where
  addr : Nat
  lstride : Nat
  rowbytes : Nat
  rows : Nat
  va : Nat
  gstride : Nat
  perm : List Nat := []
  inv : Bool := false
  pm : Nat := 0
  version : Nat := 0
  deriving DecidableEq, Repr

/-- The checks of R252 that all copies make. -/
def copyChecks (a : CopyArgs) : CM Unit := do
  raiseIf (a.addr % 4 != 0 || a.rowbytes % 4 != 0 || a.lstride % 4 != 0 || a.va % 4 != 0 || a.gstride % 4 != 0) cAlign 0
    (BitVec.ofNat 64 a.addr) 0
  if a.rows = 0 ∨ a.rowbytes = 0 then pure ()
  else do
    raiseIf (decide (Config.ulmBytes < a.addr + (a.rows - 1) * a.lstride + a.rowbytes)) cRange 0 (BitVec.ofNat 64 a.addr) 0
    raiseIf (decide (2 ^ 52 < a.va + (a.rows - 1) * a.gstride + a.rowbytes)) cAccess 3 (BitVec.ofNat 64 a.va) 0

/-- A copy word's operands have been read; it now waits until it can issue, with a scoreboard entry unless it is empty (R60, R242). -/
def copyRoom (cx : Ctx) (t : BitVec 5) (d : BitVec 1) (empty : Bool) : CM Unit :=
  cmdRoom cx (if d = 1 then clCW else clCR) true t (if empty then 0 else 1)

/-- A copy word (R252, R253): args reads its operands. -/
def copyM (i : Instr) (t : BitVec 5) (d q e : BitVec 1) (sc : BitVec 3) (args : Ctx → CM CopyArgs) (cx : Ctx) : DM Next := do
  let a ← onCore cx.core (args cx)
  onCore cx.core (copyChecks a)
  let out := d == 1
  let empty := a.rows == 0 || a.rowbytes == 0
  let entry := if empty then none else some (a.addr, a.addr + (a.rows - 1) * a.lstride + a.rowbytes)
  let id ← startCmd cx i {
    tok := t
    op := .copy out (q == 1) (e == 1) sc.toNat a.addr a.lstride a.rowbytes (if empty then 0 else a.rows) a.va a.gstride a.perm a.inv a.pm a.version
    rd := if out then entry else none
    wr := if out then none else entry }
  let s ← get
  let s := if a.perm.isEmpty then s else s.capture cx.core a.pm a.version
  set (if q = 1 then s.post (.acquireComplete cx.core id) else s.copyBegin cx.core id (e == 1) empty)
  pure .seq

/-- COPY. -/
def execCopy (n : BitVec 3) (t l b : BitVec 5) (d q e : BitVec 1) (c : BitVec 3) (h : BitVec 2) : State → Out :=
  issue (.copy n t l b d q e c h) (copyM (.copy n t l b d q e c h) t d q e c fun cx => do
    let x ← rdX cx l
    let y ← rdX cx b
    copyRoom cx t d (fieldOf x 32 19 == 0)
    pure ⟨fieldOf x 0 19, 0, fieldOf x 32 19, 1, vaOf y, 0, [], false, 0, 0⟩)

/-- COPY2. -/
def execCopy2 (n : BitVec 3) (t l b : BitVec 5) (d q e : BitVec 1) (c : BitVec 3) (h : BitVec 2) : State → Out :=
  issue (.copy2 n t l b d q e c h) (copyM (.copy2 n t l b d q e c h) t d q e c fun cx => do
    let x ← rdX cx l
    let x1 ← rdX cx (pairNext l)
    let y ← rdX cx b
    let y1 ← rdX cx (pairNext b)
    copyRoom cx t d (fieldOf x1 0 19 == 0 || fieldOf x1 32 16 == 0)
    pure ⟨fieldOf x 0 19, fieldOf x 32 19, fieldOf x1 0 19, fieldOf x1 32 16, vaOf y, vaOf y1, [], false, 0, 0⟩)

/-- COPYP. -/
def execCopyp (n : BitVec 3) (t l b : BitVec 5) (d q e : BitVec 1) (c : BitVec 3) (h : BitVec 2) : State → Out :=
  issue (.copyp n t l b d q e c h) (copyM (.copyp n t l b d q e c h) t d q e c fun cx => do
    let x ← rdX cx l
    let x1 ← rdX cx (pairNext l)
    let y ← rdX cx b
    let y1 ← rdX cx (pairNext b)
    let core ← get
    let pm := fieldOf x1 32 3
    let p := core.points pm
    copyRoom cx t d (!p.valid || p.n == 0 || fieldOf x1 0 8 == 0)
    raiseIf (!p.valid) cPoints 2 0 (BitVec.ofNat 64 pm)
    let rb := fieldOf x1 0 8
    let addr := fieldOf x 0 19
    raiseIf (decide (rb < 4) || decide (128 < rb)) cAlign 0 (BitVec.ofNat 64 addr) 0
    pure ⟨addr, fieldOf x 32 19, rb, p.n, vaOf y, vaOf y1, p.idx, x1.getLsbD 35, pm, p.version⟩)

/-! ### The engine (R247, R253, R254) -/

/-- The lowest ULM byte that a copy may still touch, when it stands at offset off of row r in progress order (R247). -/
def copyLow (addr ls rows : Nat) (perm : List Nat) (out inv : Bool) (r off : Nat) : Nat :=
  let base := fun i => addr + (copyRow perm out inv i).1 * ls
  if perm.isEmpty then (if r + 1 < rows then Nat.min (base r + off) (base (r + 1)) else base r + off)
  else (List.range rows).foldl (fun m i => if i ≤ r then m else Nat.min m (base i)) (base r + off)

/-- The address that a trap names for the global bytes of a command that are now under way, to the core or from it (R205, R270, R409); none where there
are none. -/
def Cmd.inFlight (k : Cmd) : Option Nat :=
  if k.status.isSome || k.result.isSome || k.held || k.waitFor != 0 then none
  else match k.op with
    | .gld va .. => some va
    | .amo _ _ _ va .. => if k.xl.isSome then some va else none
    | .query va .. => if k.xl.isSome then some va else none
    | .gst va .. => if k.xl.isSome then some va else none
    | .mldStream _ _ _ va stride .. => if k.xl.isSome then some (va + k.row * stride) else none
    | .copy out _ _ _ _ _ rb rows va gs perm inv _ _ =>
      if decide (rows ≤ k.row) || k.xl.isNone then none
      else
        let g := va + (copyRow perm out inv k.row).2 * gs
        some (g + (chunkOf g rb k.gran).1)
    | _ => none

/-- A whole granule replaces a poisoned one at its home, or one of a siding whose check value fails (R434, R435). -/
def State.unpoison (s : State) (core : Nat) (sided : Bool) (loc n : Nat) : State :=
  if n ≠ 64 then s
  else if sided = false ∧ (s.core core).scope.1 = 0 then { s with isl := { s.isl with poison := s.isl.poison.filter fun g => g != loc / 64 } }
  else s.setSideBad core fun l => l.filter fun g => g != loc / 64

/-- The copy has moved the granule at offset off, of length n, of its row: on to the next, or to its end. -/
def State.copyStep (s : State) (core : Nat) (k : Cmd) (off n : Nat) : State :=
  match k.op with
  | .copy out _ rel _ addr ls rb rows _ _ perm inv _ _ =>
    let more := decide (off + n < rb)
    let row := if more then k.row else k.row + 1
    if rows ≤ row then
      -- every byte is released; the entries stay until the command ends (R247)
      let s := (s.unstage core k.id).modCmd core k.id fun k => { k with row := row, gran := 0, xl := none, rd := k.rd.map fun _ => (0, 0), wr := k.wr.map fun _ => (0, 0) }
      if rel then s.post (.releasePerformed core k.id) else s.endCmd core k.id 0 0 0
    else
      let lo := copyLow addr ls rows perm out inv row (if more then off + n else 0)
      let low := fun (e : Option (Nat × Nat)) => e.map fun p => (Nat.max p.1 lo, p.2)
      (s.modCmd core k.id fun k => { k with row := row, gran := if more then k.gran + 1 else 0, xl := none, rd := low k.rd, wr := low k.wr }).post
        (.translationRequest core k.id)
  | _ => s

/-- ENGINE_GRANULE: the engine moves one granule of a copy (R253, R254), or reads the source of a PUTR or MCAST that has waited for it (R247); a
GLD or GST that has reached its page is performed (R264, R269). -/
def execEngineGranule (core id : Nat) (s : State) : Out :=
  let c := s.core core
  match c.cmd? id with
  | none => .next s
  | some k =>
    match k.op, k.xl with
    | .copy out _ _ _ addr ls rb _ va gs perm inv _ _, some (loc, desc) =>
      let (ur, gr) := copyRow perm out inv k.row
      let (off, n) := chunkOf (va + gr * gs) rb k.gran
      let a := addr + ur * ls + off
      let g := va + gr * gs + off
      match (if k.open_ then s.accessWaits core k else some s) with
      | some s => .next s
      | none =>
        if c.engineBlocked id a n (!out) || (out && c.orderBlocked id g n 2) then .next (s.postpone (.engineGranule core id))
        else match (if perm.isEmpty then some s else s.stageCopy core id) with
          | none => .next (s.postpone (.engineGranule core id))
          | some s =>
            if out then
              match c.ulmError a n with
              | some (cause, _) => .next (s.endCmd core id (errorStatus cause) 0 g)
              | none =>
                if n < 64 ∧ s.accessFails core loc n ≠ 0 then .next (s.endCmd core id (s.accessFails core loc n) 0 g)
                else
                  let s := ((s.putGlobal core loc (c.ulmBytes a n) k.sided).unpoison core k.sided loc n).copyWrote core k.sided g loc n
                  .next (s.copyStep core k off n)
            else if s.accessFails core loc n ≠ 0 then .next (s.endCmd core id (s.accessFails core loc n) 0 g)
            else
              let whole := desc && g % 64 == 0
              let (bs, s) := s.readHome core loc (if whole then 64 else n)
              if whole && !blockOk bs then .next (s.endCmd core id (-7) 0 g)
              else
                let c := s.core core
                match c.keepError a n with
                | some (cause, _) => .next (s.endCmd core id (errorStatus cause) 0 g)
                | none =>
                  let s := (s.setCore core (c.landUlm a (bs.take n))).ringRead core g n
                  .next (s.copyStep core k off n)
    | .putr .., _ => .next (s.sendSource core id)
    | .mcast .., _ => .next (s.sendSource core id)
    | .gld va size _, some (loc, _) =>
      match (if k.open_ then s.accessWaits core k else some s) with
      | some s => .next s
      | none => .next (if c.wordWaits k va (2 ^ size) then s.postpone (.engineGranule core id) else s.performWord core k loc)
    | .gst va size _, some (loc, _) =>
      match (if k.open_ then s.accessWaits core k else some s) with
      | some s => .next s
      | none => .next (if c.wordWaits k va (2 ^ size) then s.postpone (.engineGranule core id) else s.performWord core k loc)
    | _, _ => .next s

/-! ### GLD and GST (R268, R269) -/

/-- GLD. -/
def execGld (n : BitVec 3) (t b : BitVec 5) (x : BitVec 1) (z h : BitVec 2) : State → Out :=
  issue (.gld n t b x z h) fun cx => do
    let v ← onCore cx.core (rdX cx b)
    onCore cx.core (cmdRoom cx clR true t 0)
    onCore cx.core (raiseIf (vaOf v % 2 ^ z.toNat != 0) cAlign 0 (BitVec.ofNat 64 (vaOf v)) 0)
    let id ← startCmd cx (.gld n t b x z h) { tok := t, op := .gld (vaOf v) z.toNat (x == 0) }
    postEvent (.translationRequest cx.core id)
    pure .seq

/-- GST. -/
def execGst (n : BitVec 3) (t x b : BitVec 5) (z h : BitVec 2) : State → Out :=
  issue (.gst n t x b z h) fun cx => do
    let w ← onCore cx.core (rdX cx x)
    let v ← onCore cx.core (rdX cx b)
    onCore cx.core (cmdRoom cx clW true t 0)
    onCore cx.core (raiseIf (vaOf v % 2 ^ z.toNat != 0) cAlign 0 (BitVec.ofNat 64 (vaOf v)) 0)
    let id ← startCmd cx (.gst n t x b z h) { tok := t, op := .gst (vaOf v) z.toNat w }
    postEvent (.translationRequest cx.core id)
    pure .seq

end Sys2Proof.Machine
end

