-- ==== Sys2Proof/Machine/Ordering.lean ====
section
/-!
DEFINITION. Releases and acquires (R276 to R280), FENCE (R281, R282), AMO (R283, R284), work distributors (R359 to R361), STINV (R271, R272)
and the kernel's harts (R280).
-/

namespace Sys2Proof.Machine

/-! ### FENCE -/

/-- FENCE (R281, R282): order 0 sc, 1 acq, 2 rel, 3 acqrel. -/
def execFence (n c : BitVec 3) (o : BitVec 2) (p x : BitVec 6) : State → Out :=
  issue (.fence n c o p x) fun cx => do
    let id ← freshId
    let all := o == 0
    onCore cx.core (modify fun k => { k with fences := k.fences ++
      [⟨id, c.toNat, o.toNat, if all then 63 else p, if all then 63 else x, false⟩] })
    postEvent (if o = 1 then .acquireComplete cx.core id else .releasePerformed cx.core id)
    pure .seq

/-- A FENCE of the core. -/
def Core.fence? (c : Core) (id : Nat) : Option FenceRec := c.fences.find? fun f => f.id == id

/-- The FENCE is complete. -/
def State.dropFence (s : State) (core id : Nat) : State := s.modCore core fun c => { c with fences := c.fences.filter fun f => f.id != id }

/-- RELEASE_PERFORMED: the release of a FENCE, once the classes of its mask are done, or of a copy, once every older global write is (R253,
R277, R282, R287). -/
def execReleasePerformed (core id : Nat) (s : State) : Out :=
  let c := s.core core
  match c.fence? id with
  | some f =>
    if f.released then .next s
    else if !c.classDone id f.pred then .next (s.postpone (.releasePerformed core id))
    else
      let s := s.release core f.scope
      if f.order = 2 then .next (s.dropFence core id)
      else .next ((s.modCore core fun c => { c with fences := c.fences.map fun g => if g.id = id then { g with released := true } else g }).post
        (.acquireComplete core id))
  | none =>
    match c.cmd? id with
    | none => .next s
    | some k =>
      match k.op with
      | .copy _ _ true sc .. =>
        if !k.open_ then .next s
        else if !c.globalDone id then .next (s.postpone (.releasePerformed core id))
        else .next ((s.release core sc).endCmd core id 0 0 0)
      | _ => .next s

/-- ACQUIRE_COMPLETE: the acquire of a FENCE, a copy or an AMO, once every older release of the core has been performed (R276, R278, R282,
R284). -/
def execAcquireComplete (core id : Nat) (s : State) : Out :=
  let c := s.core core
  match c.fence? id with
  | some f =>
    if f.order = 2 then .next s
    else if !c.releasesDone id || (f.order = 1 && !c.classDone id f.pred) || (f.order != 1 && !f.released) then
      .next (s.postpone (.acquireComplete core id))
    else .next ((s.acquire core f.scope).dropFence core id)
  | none =>
    match c.cmd? id with
    | none => .next s
    | some k =>
      if !k.open_ then .next s
      else match k.op with
        | .copy _ true rel sc _ _ _ rows .. =>
          if k.acqd then .next s
          else if !c.releasesDone id then .next (s.postpone (.acquireComplete core id))
          else
            let s := (s.acquire core sc).modCmd core id fun k => { k with acqd := true }
            .next (s.copyBegin core id rel (rows == 0))
        | .amo _ _ sc .. =>
          match k.result with
          | none => .next s
          | some v =>
            if !c.releasesDone id then .next (s.postpone (.acquireComplete core id))
            else .next ((s.acquire core sc).endCmdWith core id v)
        | _ => .next s

/-! ### AMO -/

/-- AMO (R283, R284). -/
def execAmo (n : BitVec 3) (t x b : BitVec 5) (o : BitVec 3) (g : BitVec 2) (c : BitVec 3) : State → Out :=
  issue (.amo n t x b o g c) fun cx => do
    let v ← onCore cx.core (rdX cx x)
    let w ← onCore cx.core (if o = 7 then rdX cx (pairNext x) else pure 0)
    let a ← onCore cx.core (rdX cx b)
    onCore cx.core do
      cmdRoom cx (clR ||| clW) true t 0
      forbidTask
      forbidTourney
    onCore cx.core (raiseIf (vaOf a % 8 != 0) cAlign 0 (BitVec.ofNat 64 (vaOf a)) 0)
    let id ← startCmd cx (.amo n t x b o g c) { tok := t, op := .amo o.toNat g.toNat c.toNat (vaOf a) v w }
    postEvent (.translationRequest cx.core id)
    pure .seq

/-- The value that an AMO writes (R284). -/
def amoValue (op : Nat) (old opnd new_ : Word) : Word :=
  match op with
  | 0 => old + opnd
  | 1 => if opnd.slt old then opnd else old
  | 2 => if old.slt opnd then opnd else old
  | 3 => old &&& opnd
  | 4 => old ||| opnd
  | 5 => old ^^^ opnd
  | 6 => opnd
  | _ => if old = opnd then new_ else old

/-- The latest doubleword at a home location (R284). -/
def State.latestWord (s : State) (loc : Nat) : Word := BitVec.ofNat 64 (leNat ((List.range 8).map fun i => s.latest (loc + i)))

/-- AMO_HOME: the release of a releasing AMO, or of the core's own writes to the doubleword, and then the operation, indivisibly (R284). -/
def execAmoHome (core id : Nat) (s : State) : Out :=
  let c := s.core core
  match c.cmd? id with
  | none => .next s
  | some k =>
    match k.op, k.xl with
    | .amo op order sc va opnd new_, some (loc, _) =>
      if !k.open_ || k.result.isSome then .next s
      else if let some s := s.accessWaits core k then .next s
      else if c.orderBlocked id va 8 2 || (decide (2 ≤ order) && !c.globalDone id) then .next (s.postpone (.amoHome core id))
      else if s.poisoned loc 8 then .next (s.endCmd core id (-6) 0 va)
      else
        let s := if 2 ≤ order then s.release core sc else s.releasePart core sc loc 8
        let old := s.latestWord loc
        let s := s.amoWrite core sc loc (toBytes 8 (amoValue op old opnd new_).toNat)
        if order % 2 = 1 then .next ((s.modCmd core id fun k => { k with result := some old }).post (.acquireComplete core id))
        else .next (s.endCmdWith core id old)
    | _, _ => .next s

/-! ### QUERY (R359 to R361) -/

/-- A QUERY's issue (R361). -/
def queryM (i : Instr) (t l b : BitVec 5) (form : Bool) (cx : Ctx) : DM Next := do
  let x ← onCore cx.core (rdX cx l)
  let a ← onCore cx.core (rdX cx b)
  onCore cx.core do
    cmdRoom cx 0 true t 0
    forbidTask
    forbidTourney
  let va := vaOf a
  let addr := fieldOf x 0 19
  let mreg := fieldOf x 0 4
  onCore cx.core do
    raiseIf (va % 64 != 0 || (!form && addr % 16 != 0)) cAlign 0 (BitVec.ofNat 64 va) 0
    raiseIf (!form && decide (Config.ulmBytes < addr + 16)) cRange 0 (BitVec.ofNat 64 addr) 0
    raiseIf (form && mreg == 0) cAccess 8 0 0
  let id ← startCmd cx i { tok := t, op := .query va addr (fieldOf x 20 3) mreg (x.getLsbD 23) form }
  postEvent (.translationRequest cx.core id)
  pure .seq

/-- QUERY, answered into ULM. -/
def execQuery (n : BitVec 3) (t l b : BitVec 5) : State → Out := issue (.query n t l b) (queryM (.query n t l b) t l b false)

/-- QUERY_M, answered as a deposit. -/
def execQueryM (n : BitVec 3) (t l b : BitVec 5) : State → Out := issue (.queryM n t l b) (queryM (.queryM n t l b) t l b true)

/-- A distributor's fields: next, limit, chunk and served; none when the object is malformed (R359). -/
def State.distributor (s : State) (loc : Nat) : Option (Nat × Nat × Nat × Nat) :=
  let w := fun i => (s.latestWord (loc + 8 * i)).toNat
  if farBase ≤ loc ∨ w 2 = 0 ∨ 2 ^ 32 < w 2 ∨ ([4, 5, 6, 7].any fun i => w i != 0) = true then none else some (w 0, w 1, w 2, w 3)

/-- DISTRIBUTOR_SERVE: the host hands out the next items, indivisibly, and the answer goes to the core (R361). -/
def execDistributorServe (core id : Nat) (s : State) : Out :=
  let c := s.core core
  match c.cmd? id with
  | none => .next s
  | some k =>
    match k.op, k.xl with
    | .query va addr ctr mreg post form, some (loc, _) =>
      if !k.open_ || k.result.isSome || k.waitFor != 0 then .next s
      else if let some s := s.accessWaits core k then .next s
      else if !form && c.engineBlocked id addr 16 true then .next (s.postpone (.distributorServe core id))
      else if s.poisoned loc 64 then .next (s.endCmd core id (-6) 0 va)
      else match s.distributor loc with
        | none => .next (s.endCmd core id (-5) 0 va)
        | some (next, limit, chunk, served) =>
          let over_ := decide (limit ≤ next)
          let first := if over_ then 2 ^ 64 - 1 else next
          let count := if over_ then 0 else Nat.min chunk (limit - next)
          let s := s.perform stationParty 3 (asBytes loc (toBytes 8 (if over_ then next else next + count))
            ++ asBytes (loc + 24) (toBytes 8 ((served + 1) % 2 ^ 64))) []
          if form then
            .next ((s.modCmd core id fun k => { k with waitFor := 1, xl := none }).send
              ⟨core, s.logicalOf core, c.asid, false, 1, .deposit mreg (BitVec.ofNat 64 first) false true, id, 0⟩)
          else
            let r := landRemote s core addr (toBytes 8 first ++ toBytes 8 count)
            let s := if r.1 = 0 ∧ post then r.2.modCore core fun c => c.arrive ctr 1 else r.2
            .next (s.endCmd core id r.1 0 addr)
    | _, _ => .next s

/-! ### STINV (R271, R272) -/

/-- STINV: every station drops the entries that the word names. -/
def execStinv (n k : BitVec 3) (a : BitVec 5) : State → Out :=
  issue (.stinv n k a) fun cx => do
    let v ← onCore cx.core (rdX cx a)
    modify fun s => s.invalidate k.toNat v
    pure .seq

/-- STATION_INVALIDATE: the kernel's invalidation through the stations' control space (R272). -/
def execStationInvalidate (kind operand : Nat) (s : State) : Out := .next (s.invalidate kind (BitVec.ofNat 64 operand))

end Sys2Proof.Machine
end

