-- ==== Sys2Proof/Machine/Groups.lean ====
section
/-!
DEFINITION. Barriers (R285, R286, R321 to R325), gangs (R326 to R334) and GETID (R338).
-/

namespace Sys2Proof.Machine

/-! ### Barrier objects (R321 to R324) -/

/-- A group's barrier object. -/
def State.bar (s : State) (asid grp : Nat) : Barrier := Store.get {} s.bars (groupKey asid grp)

/-- Put a barrier object. -/
def State.setBar (s : State) (asid grp : Nat) (b : Barrier) : State := { s with bars := Store.set {} s.bars (groupKey asid grp) b }

/-- The size under which a group's open epoch counts (R321). -/
def State.epochSize (s : State) (asid grp : Nat) : Nat :=
  let b := s.bar asid grp
  if b.size ≠ 0 then b.size else match s.group asid grp with | some g => g.size | none => 0

/-- The answer of a barrier reaches a core that waits at it, and arms the exchange join or not (R309, R323). A stream that a trap of the other
has stopped at the word first completes it (R325). -/
def Core.answerBar (c : Core) (grp : Nat) (st : Int) (arm : Bool) : Core :=
  match c.wait with
  | some (.barrier g ep kind sc none late) =>
    if g = grp then
      { c with
        wait := some (.barrier g ep kind sc (some st) late)
        armed := if arm then some grp else none
        a := if c.a.stopped then { c.a with stopped := false, stopNext := true, waiting := true } else c.a }
    else c
  | _ => c

/-- The status of a complete epoch (R323). -/
def Barrier.status (b : Barrier) : Int :=
  if b.arrived.any (fun a => a.2.2 == 1) && b.arrived.any (fun a => a.2.2 != 1) then 2 else if b.departed.isEmpty then 0 else 1

/-- A group's new size reaches the slots of its members (R320, R321). -/
def State.resizeSlots (s : State) (asid grp size : Nat) : State :=
  (s.membersOf asid grp).foldl (fun s n => s.modCore n fun c => match c.slotOf grp with
    | some i => c.setGmem i (mkGmem (gmemEpoch (c.gmem i)) grp (gmemRank (c.gmem i)) size)
    | none => c) s

/-- The site cores of a group's members. -/
def State.memberSites (s : State) (g : Group) : List Nat := (List.range g.size).map fun r => s.siteCore (s.binding g r)

/-- The group's scope (R286). -/
def State.groupScope (s : State) (g : Group) : Nat :=
  match s.memberSites g with
  | [] => 0
  | [_] => 0
  | n :: r =>
    if r.all fun m => siteOf m == siteOf n then 1
    else if r.all fun m => blockOf m == blockOf n then 2
    else 3

/-- The group meets R309: at most 256 members, all in one exchange block. -/
def State.oneBlock (s : State) (g : Group) : Bool := decide (g.size ≤ 256) && decide (s.groupScope g ≤ 2)

/-- The object completes its epoch when arrivals and departed members make up the size (R321, R322), and then arms the exchange join of every
member that arrived with BARX (R309). -/
def State.checkBar (s : State) (asid grp : Nat) : State :=
  let b := s.bar asid grp
  if b.arrived.isEmpty ∨ (b.arrived.countP fun a => !b.departed.contains a.1) + b.departed.length < s.epochSize asid grp then s
  else
    let fits := b.status == 0 && (match s.group asid grp with | some g => s.oneBlock g | none => false)
    let s := b.arrived.foldl (fun s a => s.modCore a.2.1 fun c => c.answerBar grp b.status (fits && a.2.2 == 1)) s
    let s := match b.held with | some n => s.resizeSlots asid grp n | none => s
    s.setBar asid grp { b with
      epoch := (b.epoch + 1) % 256
      arrived := []
      held := none
      size := 0
      join := if fits then (b.arrived.filter fun a => a.2.2 == 1).map fun a => a.2.1 else [] }

/-- A group's size changes (R321): at once when no epoch is open, in place of a change that the object still holds; else when the open epoch
completes. -/
def State.resize (s : State) (asid grp old new : Nat) : State :=
  let b := s.bar asid grp
  if b.arrived.isEmpty then (s.setBar asid grp { b with held := none, size := 0 }).resizeSlots asid grp new
  else s.setBar asid grp { b with held := some new, size := if b.size = 0 then old else b.size }

/-- Arrivals leave a barrier object; without one its epoch is no longer open (R321). -/
def Barrier.without (b : Barrier) (p : Nat × Nat × Nat → Bool) : Barrier :=
  let left := b.arrived.filter fun a => !p a
  { b with arrived := left, size := if left.isEmpty ∧ b.held = none then 0 else b.size }

/-- A core departs from its groups (R324, R306). -/
def State.depart (s : State) (core : Nat) : State :=
  let c := s.core core
  (List.range 4).foldl (fun s i =>
    let v := c.gmem i
    if !v.getLsbD 63 then s
    else
      let asid := c.asid.toNat
      let grp := bitsOf v 40 8
      let b := s.bar asid grp
      let rank := gmemRank v
      let s := s.setBar asid grp { b.without (fun a => a.1 == rank) with
        departed := if b.departed.contains rank then b.departed else b.departed ++ [rank] }
      let s := s.recheckReds asid grp
      (s.checkBar asid grp).post (.domainDrain asid grp)) s

/-- GROUP_ABORT: the kernel makes a group's entry invalid, and every member that waits at a barrier word receives -10, also where its arrival
is still on its way (R324). -/
def execGroupAbort (asid grp : Nat) (s : State) : Out :=
  let s := s.cores.foldl (fun s p => if p.2.asid.toNat = asid then s.modCore p.1 fun c => c.answerBar grp (-10) false else s) s
  let loc := Store.get 0 s.stn.groupTab asid + 16 * grp
  let s := s.partyWrite stationParty 4 loc [s.deviceByte loc &&& 0xFC]
  .next (s.setBar asid grp {})

/-! ### BAR, BARX and PHASE -/

/-- The epoch of a slot advances (R322). -/
def Core.nextEpoch (c : Core) (grp : Nat) : Core :=
  match c.slotOf grp with
  | some i => c.setGmem i (mkGmem (gmemEpoch (c.gmem i) + 1) grp (gmemRank (c.gmem i)) (bitsOf (c.gmem i) 0 14))
  | none => c

/-- A FENCE of the core has yet to make its release (R276). -/
def Core.releasing (c : Core) : Bool := c.fences.any fun f => f.order != 1 && !f.released

/-- A barrier word: kind 0 BAR, 1 BARX, 2 PHASE with a scope (R322, R286). It sends an arrival, waits, and completes with the object's
answer, a PHASE once the releases before it have been performed (R276). -/
def barM (d g : BitVec 5) (kind scope : Nat) (cx : Ctx) : DM Next := do
  let s ← get
  let c := s.core cx.core
  let asid := c.asid.toNat
  match c.wait with
  | some (.barrier grp _ _ wide result _) =>
    match result with
    | none => pure .hold
    | some st =>
      if kind = 2 ∧ c.releasing = true then pure .hold
      else do
        onCore cx.core do
          modify fun c => { c.nextEpoch grp with wait := none }
          wrX cx d (BitVec.ofInt 64 st)
        if kind = 2 then modify fun s => s.acquire cx.core wide else pure ()
        pure .seq
  | _ => do
    let v ← onCore cx.core (rdX cx g)
    onCore cx.core do
      destFree cx (if d = 0 then 0 else (c.seq cx.st).home d)
      forbidTask
    let grp := fieldOf v 0 8
    match c.slotOf grp with
    | none => onCore cx.core (raise cGroup 0 0 0)
    | some i =>
      match s.group asid grp with
      | none => onCore cx.core (raise cGroup 1 0 0)
      | some gr => do
        let wide := Nat.max scope (s.groupScope gr)
        if kind = 2 ∧ (c.cmds.any fun k => k.open_ && k.op.classes != 0) = true then onCore cx.core stallOut else pure ()
        if kind = 2 then modify fun s => s.release cx.core wide else pure ()
        onCore cx.core (modify fun c => { c with wait := some (.barrier grp (gmemEpoch (c.gmem i)) kind wide none false) })
        postEvent (.barrierArrival cx.core)
        pure .hold

/-- A withdrawal reached the core's barrier word too late (R325). -/
def Core.barLate (c : Core) : Bool :=
  match c.wait with
  | some (.barrier _ _ _ _ _ late) => late
  | _ => false

/-- A barrier word issues: one that a withdrawal reached too late is no safe point once it has completed (R325). -/
def issueBar (i : Instr) (eff : Ctx → DM Next) (s : State) : Out :=
  let cur := s.cur
  let late := (s.core cur).barLate
  match issue i eff s with
  | .next s' => .next (if late && !(s'.core cur).barDone then s'.modCore cur fun c => { c with a := { c.a with safeAt := none } } else s')
  | o => o

/-- BAR. -/
def execBar (n : BitVec 3) (d g : BitVec 5) : State → Out := issueBar (.bar n d g) (barM d g 0 0)

/-- BARX. -/
def execBarx (n : BitVec 3) (d g : BitVec 5) : State → Out := issueBar (.barx n d g) (barM d g 1 0)

/-- PHASE. -/
def execPhase (n : BitVec 3) (d g c : BitVec 5) : State → Out := issueBar (.phase n d g c) (barM d g 2 c.toNat)

/-- BARRIER_ARRIVAL: a core's arrival reaches the object (R322); the first of an epoch fixes the size under which it counts (R321). -/
def execBarrierArrival (core : Nat) (s : State) : Out :=
  let c := s.core core
  match c.wait with
  | some (.barrier grp _ kind _ none _) =>
    match c.slotOf grp with
    | none => .next s
    | some i =>
      let asid := c.asid.toNat
      let b := s.bar asid grp
      let rank := gmemRank (c.gmem i)
      if b.arrived.any fun a => a.1 == rank then .next s
      else if gmemEpoch (c.gmem i) ≠ b.epoch then .next (s.soon (.barrierArrival core))
      else
        let size := if b.size = 0 then s.epochSize asid grp else b.size
        .next ((s.setBar asid grp { b with arrived := b.arrived ++ [(rank, core, kind)], size := size }).checkBar asid grp)
  | _ => .next s

/-- BARRIER_WITHDRAWAL: an abandoned word's arrival is removed if its epoch has not completed, and the word executes again from its beginning
when its stream comes back to it; otherwise the withdrawal has no effect, and the word completes (R325). -/
def execBarrierWithdrawal (core : Nat) (s : State) : Out :=
  let c := s.core core
  match c.wait with
  | some (.barrier grp _ _ _ none _) =>
    let asid := c.asid.toNat
    .next ((s.setBar asid grp ((s.bar asid grp).without fun a => a.2.1 == core)).setCore core { c with wait := none })
  | some (.barrier grp ep kind sc (some st) _) => .next (s.setCore core { c with wait := some (.barrier grp ep kind sc (some st) true) })
  | _ => .next s

/-! ### Gangs (R327 to R333) -/

/-- The members of the gang of a size around a core, in position order (R327). -/
def gangCores (core size : Nat) : List Nat :=
  if size = 2 then [4 * siteOf core + core % 4 / 2 * 2, 4 * siteOf core + core % 4 / 2 * 2 + 1]
  else if size = 4 then tileCores (siteOf core)
  else tileCores (siteOf core / 2 * 2) ++ tileCores (siteOf core / 2 * 2 + 1)

/-- The neighbourhood of a gang of 8 is available: compute tiles of one die, whose cores all run in one ASID (R328). -/
def State.gangFits (s : State) (core size : Nat) : Bool :=
  size != 8 || (gangCores core 8).all fun m =>
    dieOf m == dieOf core && (s.tileMap (s.tileAt (siteOf m))).roleNow == 0 && !(s.core m).absent (s.core core).asid && (s.core m).run != .dead

/-- The core waits at a GANG whose join is not decided: the size, and whether it has signalled join. -/
def Core.ganging (c : Core) : Option (Nat × Nat × Bool) :=
  match c.wait with
  | some (.gang size since ready none) => some (size, since, ready)
  | _ => none

/-- The core waits at a GANG, whatever its state. -/
def Core.atGang (c : Core) : Bool :=
  match c.wait with
  | some (.gang ..) => true
  | _ => false

/-- Both streams go on from where they are parked. They park again at their next safe points, and an event may be taken at the one at which they stand
(R82, R411). -/
def Core.unpark (c : Core) : Core := { c with a := { c.a with parked := false, tried := true }, e := { c.e with parked := false, tried := true } }

/-- Position of a core in a list of members. -/
def posIn (members : List Nat) (core : Nat) : Nat := (members.findIdx? fun m => m == core).getD 0

/-- GANG: it waits for its paired safe point, and then for every member (R330). -/
def gangM (d x : BitVec 5) (cx : Ctx) : DM Next := do
  let s ← get
  let c := s.core cx.core
  match c.wait with
  | some (.gang size _ _ result) =>
    match result with
    | none => pure .hold
    | some 0 =>
      let ms := gangCores cx.core size
      let pos := posIn ms cx.core
      if pos = 0 ∧ (ms.any fun m => m != cx.core && (s.core m).atGang) = true then pure .hold
      else do
        onCore cx.core do
          modify fun c => { c with wait := none }
          wrX cx d (BitVec.ofNat 64 pos)
        pure .seq
    | some (k + 1) => onCore cx.core (raise cGroup k 0 0)
  | _ => do
    let v ← onCore cx.core (rdX cx x)
    onCore cx.core do
      destFree cx (if d = 0 then 0 else c.a.home d)
      raiseIf c.gang.isSome cGroup 5 0 0
    let code := fieldOf v 0 2
    let size := 2 ^ code
    onCore cx.core (raiseIf (code == 0 || !s.gangFits cx.core size) cGroup 4 0 0)
    let ms := gangCores cx.core size
    let first := !ms.any fun m => (s.core m).ganging.isSome
    onCore cx.core do
      raiseIf (first && ms.any fun m => (s.core m).absent c.asid || (s.core m).scope != c.scope) cGroup 3 0 0
      modify fun c => { c with wait := some (.gang size s.cycle false none) }
    soonEvent (.gangJoinTimeout cx.core)
    pure .hold

/-- A follower takes the leader's control state (R330, R331). -/
def Seq.takeCtl (q leader : Seq) : Seq :=
  { q with
    pc := leader.pc
    bt := leader.bt
    lk := leader.lk
    brPred := leader.brPred
    brSense := leader.brSense
    depth := leader.depth
    loopDepth := leader.loopDepth
    loops := leader.loops
    hints := []
    buf := []
    tbuf := []
    fwd := []
    parked := false
    safeAt := none
    tried := false }

/-- The leader has completed its GANG: every member goes on at the leader's next addresses (R330). -/
def State.gangGo (s : State) (leader : Nat) : State :=
  let l := s.core leader
  let s := (s.followers leader).foldl (fun s n => s.modCore n fun c => { c with a := c.a.takeCtl l.a, e := c.e.takeCtl l.e }) s
  s.modCore leader Core.unpark

/-- GANG. -/
def execGang (d x : BitVec 5) (s : State) : Out :=
  let cur := s.cur
  match issue (.gang d x) (gangM d x) s with
  | .next s' =>
    if (s.core cur).atGang && !(s'.core cur).atGang && (match (s'.core cur).gang with | some g => g.pos == 0 | none => false) then
      .next (s'.gangGo cur)
    else .next s'
  | o => o

/-- Waiting GANGs of some cores get their result; a failure lets both streams go on. -/
def State.setGangs (s : State) (ms : List Nat) (r : Nat) : State :=
  ms.foldl (fun s m => s.modCore m fun c => match c.wait with
    | some (.gang size since ready none) => { c.unpark with wait := some (.gang size since ready (some r)) }
    | _ => c) s

/-- GANG_JOIN: a core signals join; the gang forms when every member has, or fails when two name different sizes (R326, R330). -/
def execGangJoin (core : Nat) (s : State) : Out :=
  let c := s.core core
  match c.ganging with
  | some (size, _, true) =>
    let ms := gangCores core size
    let joined := ms.filter fun m => (s.core m).ganging.isSome
    let sized := fun m => match (s.core m).ganging with | some (k, _, _) => k == size | none => true
    if !ms.all sized then .next (s.setGangs joined 4)
    else if !ms.all fun m => match (s.core m).ganging with | some (_, _, r) => r | none => false then .next s
    else
      let s := ms.foldl (fun s m => s.modCore m fun c =>
        { c with
          gang := some ⟨ms.headD 0, size, posIn ms m⟩
          wait := some (.gang size 0 true (some 0))
          a := { c.a with parked := false } }) s
      .next s
  | _ => .next s

/-- GANG_JOIN_TIMEOUT (R326). -/
def execGangJoinTimeout (core : Nat) (s : State) : Out :=
  match (s.core core).ganging with
  | none => .next s
  | some (size, since, _) =>
    let joined := (gangCores core size).filter fun m => (s.core m).ganging.isSome
    let first := joined.foldl (fun t m => match (s.core m).ganging with | some (_, u, _) => Nat.min t u | none => t) since
    if s.cycle < first + Config.joinCycles then .next (s.soon (.gangJoinTimeout core)) else .next (s.setGangs joined 3)

/-- UNGANG: each member writes its position, and the last of the chain disbands the gang, once its word has issued, which names the word in
`issued`; outside a gang the word writes -1 (R333). -/
def execUngang (n : BitVec 3) (d : BitVec 5) (s : State) : Out :=
  let cur := s.cur
  let c := s.core cur
  let word := issueU (.ungang n d) fun cx => do
    let c ← get
    wrX cx d (match c.gang with | some g => BitVec.ofNat 64 g.pos | none => BitVec.allOnes 64)
  if (match c.gang with | some g => g.pos + 1 != g.size | none => true) then word s
  else match word (s.setCore cur { c with a := { c.a with issued := ~~~c.a.pc } }) with
    | .next s' =>
      if (s'.core cur).a.issued = c.a.pc then .next (disbandGang s' cur)
      else .next (s'.modCore cur fun k => { k with a := { k.a with issued := c.a.issued } })
    | o => o

/-! ### GETID (R338) -/

/-- The code of a gang's size (R334). -/
def gangCode (size : Nat) : Nat := if size = 2 then 1 else if size = 4 then 2 else if size = 8 then 3 else 0

/-- The results of GETID. -/
def State.idOf (s : State) (core sel : Nat) : Word :=
  let c := s.core core
  let site := siteOf core
  match sel with
  | 0 => BitVec.ofNat 64 (s.logicalOf core)
  | 1 => BitVec.ofNat 64 core
  | 2 => BitVec.ofNat 64 (site % 48 + 2 ^ 8 * (site / 48) + 2 ^ 16 * dieOf core + 2 ^ 24 * blockOf core)
  | 3 => c.asid.setWidth 64
  | 4 => c.gmem 0
  | 5 => c.gmem 1
  | 6 => c.gmem 2
  | 7 => c.gmem 3
  | _ => match c.gang with
    | some g => BitVec.ofNat 64 (g.pos + 2 ^ 4 * gangCode g.size + (if g.pos = 0 then 2 ^ 8 else 0))
    | none => 0

/-- GETID. -/
def execGetid (n : BitVec 3) (d x : BitVec 5) : State → Out :=
  issue (.getid n d x) fun cx => do
    let s ← get
    onCore cx.core (wrX cx d (s.idOf cx.core x.toNat))
    pure .seq

end Sys2Proof.Machine
end

