-- ==== Sys2Proof/Machine/Exchange.lean ====
section
/-!
DEFINITION. The timetabled exchange (R308 to R314). A word of the timetable issues at its phase cycle or, where the agenda brings its core's
turn later, after it; what it drives and latches is fixed by its own cycle, as if it had issued in time. A beat records the arithmetic cycle in
which it is driven, and an XSEL's beats are latched once every core of the block has passed the cycles that could reach it.
-/

namespace Sys2Proof.Machine

/-! ### XBEGIN -/

/-- The E-stream has stopped at a boundary, and everything that XBEGIN waits for is done (R310). -/
def Core.exchangeReady (c : Core) : Bool := c.e.hints.isEmpty && c.join.isNone && c.sauIdle && c.mat.queue.isEmpty && c.port.isNone

/-- The part that a core takes in a phase, before it begins. -/
def freshPhase (asid grp plen : Nat) : XPhase := ⟨asid, grp, plen, 0, 0, false, 0, [], [], 0, 0, false, false, false, false, false⟩

/-- XBEGIN (R309, R310): the core's last barrier word must have armed the join. -/
def xbeginM (d g l : BitVec 5) (cx : Ctx) : DM Next := do
  let s ← get
  let c := s.core cx.core
  let asid := c.asid.toNat
  let tt := (Store.get (0, 0) c.entries 0).2 + 4 * ((cx.xt.getD 0).toNat)
  match c.wait with
  | some (.xbegin grp plen xret since ready result) =>
    match result with
    | some 0 => do
      onCore cx.core do
        modify fun c => { c with wait := none, armed := none }
        wrX cx d 0
      pure .seq
    | some (k + 1) => onCore cx.core (raise cExchange k 0 (BitVec.ofNat 64 xret))
    | none =>
      if ready || !c.exchangeReady then pure .hold
      else do
        let xret := c.e.pc
        onCore cx.core (modify fun c =>
          let c := c.spillPunty .e
          { c with
            wait := some (.xbegin grp plen (xret.toNat % 2 ^ 19) since true none)
            xph := c.xph.map fun p => { p with xret := xret }
            e := { c.e with pc := BitVec.ofNat 64 tt, buf := [], tbuf := [] } })
        postEvent (.exchangeJoin asid grp)
        pure .hold
  | _ => do
    let v ← onCore cx.core (rdX cx g)
    let w ← onCore cx.core (rdX cx l)
    let grp := fieldOf v 0 8
    let plen := fieldOf w 0 10
    let here := (c.e.pc.toNat % 2 ^ 19 : Nat)
    let fits := match s.group asid grp with | some gr => s.oneBlock gr | none => false
    onCore cx.core do
      destFree cx (if d = 0 then 0 else c.a.home d)
      raiseIf (c.armed != some grp || !fits || plen == 0 || decide (512 < plen)) cExchange 1 0 (BitVec.ofNat 64 here)
      raiseIf (decide (Config.ulmBytes ≤ tt)) cRange 0 (BitVec.ofNat 64 tt) 0
      modify fun c => { c with
        wait := some (.xbegin grp plen 0 s.cycle false none)
        xph := some (freshPhase asid grp plen) }
    soonEvent (.exchangeJoinTimeout asid grp)
    pure .hold

/-- XBEGIN. -/
def execXbegin (d g l : BitVec 5) : State → Out := issue (.xbegin d g l) (xbeginM d g l)

/-- The members of a group for which the last barrier has armed the exchange join (R309). -/
def State.armedMembers (s : State) (asid grp : Nat) : List Nat := (s.bar asid grp).join

/-- A core's undecided XBEGIN: its length, when it issued, and whether it has signalled ready. -/
def Core.xwait (c : Core) (grp : Nat) : Option (Nat × Nat × Bool) :=
  match c.wait with
  | some (.xbegin g plen _ since ready none) => if g = grp then some (plen, since, ready) else none
  | _ => none

/-- An XBEGIN fails, and its core's E-stream goes back to xret (R310). -/
def Core.failXbegin (c : Core) (k : Nat) : Core :=
  match c.wait with
  | some (.xbegin g plen xret since ready none) =>
    { c with
      wait := some (.xbegin g plen xret since ready (some k))
      xph := none
      e := if ready then { c.e with pc := BitVec.ofNat 64 xret, buf := [], tbuf := [] } else c.e }
  | _ => c

/-- A phase begins for a core, with its cycle 0 at an arithmetic cycle. -/
def Core.beginPhase (start : Nat) (c : Core) : Core :=
  match c.wait with
  | some (.xbegin g plen xret since ready none) =>
    { c with
      wait := some (.xbegin g plen xret since ready (some 0))
      xph := c.xph.map fun p => { p with begun := true, start := start } }
  | _ => c

/-- EXCHANGE_JOIN: once every armed member has signalled ready, the phase begins 16 cycles later, or the lengths do not match (R310). -/
def execExchangeJoin (asid grp : Nat) (s : State) : Out :=
  let ms := s.armedMembers asid grp
  if ms.isEmpty ∨ (ms.all fun m => match (s.core m).xwait grp with | some (_, _, r) => r | none => false) = false then .next s
  else
    let lens := ms.filterMap fun m => ((s.core m).xwait grp).map fun w => w.1
    if lens.any fun n => n != lens.headD 0 then .next (ms.foldl (fun s m => s.modCore m fun c => c.failXbegin 3) s)
    else
      let s := s.setBar asid grp { s.bar asid grp with join := [] }
      .next ((ms.foldl (fun s m => s.modCore m (Core.beginPhase (s.cycle + 16))) s).soon (.phaseEnd asid grp))

/-- EXCHANGE_JOIN_TIMEOUT (R310). -/
def execExchangeJoinTimeout (asid grp : Nat) (s : State) : Out :=
  let ms := (s.armedMembers asid grp).filter fun m => ((s.core m).xwait grp).isSome
  if ms.isEmpty then .next s
  else
    let first := ms.foldl (fun t m => match (s.core m).xwait grp with | some (_, u, _) => Nat.min t u | none => t) s.cycle
    if s.cycle < first + Config.joinCycles then .next (s.soon (.exchangeJoinTimeout asid grp))
    else .next (ms.foldl (fun s m => s.modCore m fun c => c.failXbegin 1) s)

/-! ### Beats (R308) -/

/-- |a - b|. -/
def distNat (a b : Nat) : Nat := (a - b) + (b - a)

/-- Arithmetic cycles from a core's transmit port to the receive ports of a site (R308). -/
def delay (core site : Nat) : Nat :=
  if siteOf core = site then 2
  else 3 + distNat (siteOf core % 48) (site % 48) + distNat (siteOf core / 48) (site / 48)

/-- The sites of an exchange block (R3). -/
def blockSites (block : Nat) : List Nat := (List.range 64).map fun i => (block / 6 * 8 + i / 8) * 48 + block % 6 * 8 + i % 8

/-- A core takes part in the phase of a group. -/
def Core.inGroupPhase (c : Core) (asid grp : Nat) : Bool :=
  match c.xph with
  | some p => p.begun && p.asid == asid && p.grp == grp
  | none => false

/-- The beats on a track of a block that are present at a site's ports in a cycle. -/
def State.present (s : State) (block track site t : Nat) : List Beat :=
  s.beats.filter fun b => b.block == block && b.track == track && b.cycle + delay b.core site == t

/-- What a latch of one beat marks: missed, collided, a failed parity check. -/
structure Marks where
  missed : Bool := false
  collided : Bool := false
  parity : Bool := false
  deriving DecidableEq, Repr

/-- Marks together. -/
def Marks.or (a b : Marks) : Marks := ⟨a.missed || b.missed, a.collided || b.collided, a.parity || b.parity⟩

/-- The beat that a core latches from a track in a cycle, with its marks; where R308 admits two outcomes the choice is free. -/
def State.latchBeat (s : State) (core track t : Nat) : (BitVec 256 × Marks) × State :=
  let block := blockOf core
  let here := s.present block track (siteOf core) t
  let clash := (blockSites block).any fun site => decide (2 ≤ (s.present block track site t).length)
  let plain : BitVec 256 × Marks := match here with
    | [b] => if b.bad then (0, { parity := true }) else (b.data, {})
    | _ => (0, { missed := true })
  let hit : BitVec 256 × Marks := (0, { missed := true, collided := true })
  if 2 ≤ here.length then (hit, s)
  else if !clash then (plain, s)
  else (if Config.pick s.free % 2 = 0 then plain else hit, { s with free := s.free + 1 })

/-- Latch the beats of one XSEL, from beat i on of cycle t: the register's value and the marks. -/
def State.latchBeats (s : State) (core track t : Nat) : Nat → Nat → Vec → Marks → (Vec × Marks) × State
  | 0, _, v, m => ((v, m), s)
  | k + 1, i, v, m =>
    let (r, s) := s.latchBeat core track (t + i)
    s.latchBeats core track t k (i + 1) (v ||| (r.1.setWidth 1024 <<< (256 * i))) (m.or r.2)

/-- An XSEL's beats are latched and its register is written (R312). -/
def State.resolveSel (s : State) (core : Nat) (w : Sel) : State :=
  match (s.core core).xph with
  | none => s
  | some p =>
    let (r, s) := s.latchBeats core w.track (p.start + w.cycle) w.beats 0 0 {}
    let v : Vec := if w.beats = 1 then (r.1.setWidth 64).setWidth 1024 else r.1
    s.modCore core fun c =>
      { c.putHome .e w.home v with xph := some { p with
          sels := p.sels.filter fun q => q != w
          missed := p.missed || r.2.missed
          collided := p.collided || r.2.collided
          parity := p.parity || r.2.parity } }

/-- The members of a phase. -/
def State.phaseMembers (s : State) (asid grp : Nat) : List Nat :=
  (s.cores.filter fun p => p.2.inGroupPhase asid grp).map Prod.fst

/-- A member drives nothing more in the phase. -/
def Core.silent (c : Core) : Bool :=
  match c.xph with
  | some p => p.left || p.ended || c.e.halted || c.run != .running
  | none => true

/-- Every beat that can reach a port of the core's block up to an arithmetic cycle has been driven: a core that takes part in a phase drives its
next beat no earlier than its next timetable word, and a phase that begins later reaches no port within 18 cycles. -/
def State.settled (s : State) (core t : Nat) : Bool :=
  decide (t < s.cycle + 18) && s.cores.all fun m => blockOf m.1 != blockOf core || m.2.silent || (match m.2.xph with
    | some p => !p.begun || decide (t < p.start + p.next + 2)
    | none => true)

/-- The XSELs of a core whose beats are known are latched, oldest first; k bounds them. -/
def State.latchDue (s : State) (core : Nat) : Nat → State
  | 0 => s
  | k + 1 => match (s.core core).xph with
    | none => s
    | some p => match p.sels with
      | [] => s
      | w :: _ => if s.settled core (p.start + w.cycle + w.beats - 1) then (s.resolveSel core w).latchDue core k else s

/-! ### XMIT and XSEL (R311, R312) -/

/-- The checks that XMIT and XSEL share: the phase, and that the word is neither late nor runs past the end. -/
def phaseM (cyc nb busy reg : Nat) : CM XPhase := do
  let c ← get
  match c.xph with
  | none => raise cExchange 3 0 0
  | some p => do
    let info : Word := (p.xret.setWidth 19).setWidth 64
    raiseIf (p.left || !p.begun) cExchange 3 0 info
    raiseIf (decide (cyc < p.next) || decide (cyc < busy) || decide (cyc < Store.get 0 p.regAt reg)) cExchange 4 0 info
    raiseIf (decide (p.plen < cyc + nb)) cExchange 4 0 info
    pure p

/-- The physical home of a timetable word's register. -/
def xHome (c : Core) (k : BitVec 1) (r : BitVec 5) : Nat := if k = 0 then 600 + r.toNat else if r = 0 then 0 else c.e.home r

/-- XMIT: it waits for its phase cycle, and for a register that an XSEL still has to latch. -/
def xmitM (c : BitVec 9) (r : BitVec 5) (k : BitVec 1) (t : BitVec 8) (cx : Ctx) : DM Next := do
  let s ← get
  let core := s.core cx.core
  let h := xHome core k r
  let nb := if k = 0 then 4 else 1
  let cyc := c.toNat
  let p ← onCore cx.core (phaseM cyc nb (match core.xph with | some p => p.txFree | none => 0) h)
  if cx.cycle < p.start + cyc then pure .hold
  else match p.sels.find? fun w => w.home == h && h != 0 with
  | some w =>
    if !s.settled cx.core (p.start + w.cycle + w.beats - 1) then do
      onCore cx.core (modify fun c => { c with xph := some { p with next := cyc } })
      pure .hold
    else do
      set ((s.modCore cx.core fun c => { c with xph := some { p with next := cyc } }).resolveSel cx.core w)
      pure .hold
  | none => do
    let v ← onCore cx.core (if k = 0 then rdV cx r else do
      let e ← rdX cx r
      pure (e.setWidth 1024))
    let bs := (List.range nb).map fun b => (⟨blockOf cx.core, t.toNat, p.start + cyc + b, cx.core, v.extractLsb' (256 * b) 256, false⟩ : Beat)
    modify fun s => { s with beats := s.beats ++ bs }
    onCore cx.core (modify fun c => { c with xph := some { p with next := cyc + 1, txFree := cyc + nb } })
    pure .seq

/-- A timetable word that stands for its cycle waits for nothing outside (R60). -/
def issueTimed (i : Instr) (eff : Ctx → DM Next) (s : State) : Out :=
  let cur := s.cur
  match issue i eff s with
  | .next s' => .next (s'.modCore cur fun c => c.modSeq .e fun q => { q with waiting := false })
  | o => o

/-- XMIT. -/
def execXmit (c : BitVec 9) (r : BitVec 5) (k : BitVec 1) (t : BitVec 8) : State → Out := issueTimed (.xmit c r k t) (xmitM c r k t)

/-- XSEL: its beats are latched once they are known, at the latest when the phase ends. -/
def execXsel (c : BitVec 9) (r : BitVec 5) (k : BitVec 1) (t : BitVec 8) : State → Out :=
  issueTimed (.xsel c r k t) fun cx => do
    let s ← get
    let core := s.core cx.core
    let h := xHome core k r
    let nb := if k = 0 then 4 else 1
    let cyc := c.toNat
    let p ← onCore cx.core (phaseM cyc nb (match core.xph with | some p => p.rxFree | none => 0) 0)
    if cx.cycle < p.start + cyc then pure .hold
    else do
      onCore cx.core do
        destFree cx h
        modify fun c => { c with xph := some { p with
          next := cyc + 1
          rxFree := cyc + nb
          regAt := Store.set 0 p.regAt h (cyc + nb)
          sels := p.sels ++ [⟨h, t.toNat, cyc, nb⟩] } }
      pure .seq

/-! ### The end of a phase (R313) -/

/-- The bits that XEND returns. -/
def XPhase.bits (p : XPhase) : BitVec 3 := (if p.missed then 1 else 0) ||| (if p.left then 2 else 0) ||| (if p.collided then 4 else 0)

/-- A core's phase ends: its E-stream resumes at xret, unless the core has left, and the XEND that waits gets its bits. -/
def Core.endPhase (c : Core) : Core :=
  match c.xph with
  | none => c
  | some p =>
    let waits := c.wait == some (.xend false)
    { c with
      xph := none
      xres := if waits then p.bits else c.xres
      xpar := if waits then p.parity else c.xpar
      wait := if waits then some (.xend true) else c.wait
      e := if p.left then c.e else { c.e with pc := p.xret, buf := [], tbuf := [], hints := [] } }

/-- Beats that have passed every port leave the fabric, once no phase goes on in their block (R308): a beat has passed after 17 cycles. -/
def State.clearBeats (s : State) (block : Nat) : State :=
  if s.cores.any fun m => blockOf m.1 == block && (match m.2.xph with | some p => p.begun | none => false) then s
  else { s with beats := s.beats.filter fun b => b.block != block || decide (s.cycle < b.cycle + 17) }

/-- PHASE_END: at phase cycle plen, with every timetable ended, what is still to be latched is, and every member goes on in the same step. Before
that, the XSELs of a core that has left are written as soon as their beats are known (R314). -/
def execPhaseEnd (asid grp : Nat) (s : State) : Out :=
  let ms := s.phaseMembers asid grp
  match ms with
  | [] => .next s
  | m0 :: _ =>
    let s := ms.foldl (fun s m => s.latchDue m 512) s
    let over_ := fun m => match (s.core m).xph with
      | some p => (s.core m).silent && p.sels.isEmpty && decide (p.start + p.plen ≤ s.cycle)
      | none => true
    if !ms.all over_ then .next (s.soon (.phaseEnd asid grp))
    else .next ((ms.foldl (fun s m => s.modCore m Core.endPhase) s).clearBeats (blockOf m0))

/-- XEND (R313): during a phase it waits for its end; outside a phase it writes 0. -/
def xendM (d : BitVec 5) (cx : Ctx) : CM Next := do
  let c ← get
  match c.wait with
  | some (.xend true) =>
    set { c with wait := none, xres := 0, xpar := false }
    wrX cx d (c.xres.setWidth 64)
    pure .seq
  | _ =>
    if (match c.xph with | some p => p.begun | none => false) then do
      destFree cx (if d = 0 then 0 else (c.seq cx.st).home d)
      set { c with wait := some (.xend false) }
      pure .hold
    else do
      wrX cx d 0
      pure .seq

/-- XEND: a parity failure of a beat that its core has latched makes it trap INTEGRITY after it has written its status (R313). -/
def execXend (d : BitVec 5) (s : State) : Out :=
  let cur := s.cur
  let before := s.core cur
  match issueC (.xend d) (xendM d) s with
  | .next s' =>
    .next (if before.xpar && !(s'.core cur).xpar then takeTrap s' cur .a {
        cause := cIntegrity
        sub := 0
        addr := 0
        info := 0
        word := before.a.pc.setWidth 19
        ret := before.a.groupStart.setWidth 19
        async := false
        vrep := none }
      else s')
  | o => o

end Sys2Proof.Machine
end

