-- ==== Sys2Proof/Machine/Context.lean ====
section
/-!
DEFINITION. Entries (R69), HALT (R415), the paired safe point's parking (R81 to R83), and pre-emption with its contexts (R84, R335 to R337).
-/

namespace Sys2Proof.Machine

/-! ### Entries (R69) -/

/-- A stream's control state at an entry; its vectors and trap records are no part of it. -/
def Seq.entry (q : Seq) (pc : Nat) : Seq := { svec := q.svec, uvec := q.uvec, sysRec := q.sysRec, userRec := q.userRec, pc := BitVec.ofNat 64 pc }

/-- Every points register becomes the identity (R222). -/
def Core.resetPoints (c : Core) : Core := (List.range 8).foldl (fun c i => c.setPoints i {}) c

/-- Both streams start at addresses with scalar registers, loops, windows and queues as at an entry (R69, R345). -/
def Core.enterSeqs (c : Core) (pa pe : Nat) : Core :=
  { c with
    a := c.a.entry pa
    e := c.e.entry pe
    q := {}
    regBad := c.regBad.filter fun k => 2600 ≤ k && k < 4000
    wait := none
    runnerAt := none
    join := none
    port := none }

/-- Both streams start at an entry at user level and in no handler, with the vector, mask, matrix and points state of R69 as well (R402). -/
def Core.enterAt (c : Core) (pa pe : Nat) : Core :=
  { (c.enterSeqs pa pe).resetPoints with
    ctl := { c.ctl with lvl := false, ub := false, sb := false }
    v := []
    k := []
    mat := { mgsr := c.mat.mgsr }
    regBad := [] }

/-- A core starts at an entry, with the acquire of R280. -/
def State.startAt (s : State) (core pa pe : Nat) : State := (s.modCore core fun c => { c.enterAt pa pe with run := .running }).acquire core 4

/-! ### Tasks and claims of a core that ends -/

/-- The domain of a group (R340). -/
def State.dom (s : State) (asid grp : Nat) : Domain := Store.get {} s.doms (groupKey asid grp)

/-- Change a domain. -/
def State.modDom (s : State) (asid grp : Nat) (f : Domain → Domain) : State :=
  { s with doms := Store.modify {} s.doms (groupKey asid grp) f }

/-- The key of a continuation record (R341). -/
def recKey (asid idx : Nat) : Nat := asid * 2 ^ 20 + idx

/-- A continuation record. -/
def State.rec? (s : State) (asid idx : Nat) : Option ContRec := Store.get none s.recs (recKey asid idx)

/-- Put a record, or free it. -/
def State.setRec (s : State) (asid idx : Nat) (r : Option ContRec) : State := { s with recs := Store.set none s.recs (recKey asid idx) r }

/-- A committed task is aborted: its siding is discarded, and its record runs again from its start (R352). A core that ends under another task
ends that task's run, whose record stays live. -/
def State.abortTask (s : State) (core : Nat) : State :=
  let c := s.core core
  match c.task with
  | none => s
  | some t =>
    let s := s.modCore core fun c => { c with task := none }
    if !t.committed then s
    else
      let asid := c.asid.toNat
      match s.rec? asid t.rec_ with
      | none => s
      | some r =>
        ((s.setRec asid t.rec_ (some { r with ready := true, abortedOn := core + 1 })).modDom asid r.grp fun d =>
          { d with ready := d.ready ++ [t.rec_] }).post (.taskHandover asid r.grp)

/-- A core is no runner of any domain. -/
def State.dropRunner (s : State) (core : Nat) : State :=
  s.doms.foldl (fun s d => if d.2.runners.contains core then
    { s with doms := Store.modify {} s.doms d.1 fun e => { e with runners := e.runners.filter fun n => n != core } } else s) s

/-- The group and stage of a core's pipeline, when it is in a stage (R358). -/
def Core.inStage (c : Core) : Option (Nat × Nat) := if c.ctl.stage.getLsbD 63 then some (bitsOf c.ctl.stage 4 8, bitsOf c.ctl.stage 0 4) else none

/-- Remove a core's claims from the rings of its pipeline. -/
def State.dropClaims (s : State) (core : Nat) : State :=
  let c := s.core core
  match c.inStage with
  | none => s
  | some (grp, _) => s.modPipe c.asid.toNat grp fun p => { p with rings := p.rings.map fun r => (r.1, { r.2 with
      prodClaims := r.2.prodClaims.filter fun k => k.1 != core
      consClaims := r.2.consClaims.filter fun k => k.1 != core }) }

/-- A PROD or a CONS. -/
def CmdOp.claim : CmdOp → Bool
  | .prod _ => true
  | .cons => true
  | _ => false

/-- Every pending claim of a core is withdrawn with -13 (R356). -/
def State.withdrawClaims (s : State) (core : Nat) : State :=
  ((s.core core).cmds.filter fun k => k.op.claim && k.open_).foldl (fun s k => s.endCmd core k.id (-13) 0 0) (s.dropClaims core)

/-- The core fills or drains a slot of its pipeline (R358). -/
def State.holdsSlot (s : State) (core : Nat) : Bool :=
  let c := s.core core
  match c.inStage with
  | none => false
  | some (grp, _) => match s.pipe c.asid.toNat grp with
    | none => false
    | some p => p.rings.any fun r => r.2.slots.any fun v => v.2.owner == core && (v.2.st == 1 || v.2.st == 3)

/-! ### The end of a core -/

/-- A packet's launch no longer waits for a core. -/
def QPacket.without (p : QPacket) (core : Nat) : QPacket := { p with cores := p.cores.filter fun n => n != core }

/-- A packet whose core the kernel kills after a double fault fails once its other cores have ended (R420). -/
def QPacket.doubleFault (p : QPacket) (core : Nat) : QPacket := if p.cores.contains core then { p with failing := 6 } else p

/-- Change a queue. -/
def State.modQueue (s : State) (q : Nat) (f : Queue → Queue) : State := { s with queues := Store.modify {} s.queues q f }

/-- A core has ended: the packet that launched it and the scope that it played in, + 1, are told (R396, R420, R424). -/
def State.endOf (s : State) (core scope : Nat) : State :=
  let s := s.queues.foldl (fun s q =>
    (q.2.pkts.filter fun p => p.cores.contains core).foldl (fun s p => s.post (.packetComplete q.1 p.seqno))
      (s.modQueue q.1 fun d => { d with pkts := d.pkts.map fun p => p.without core })) s
  if scope = 0 then s else s.post (.roundEnd (scope - 1))

/-- A core has reported done, or has been killed (R396, R420, R424): no migration moves it any more, and the producing ring of its stage may close
(R356, R369). -/
def State.coreDone (s : State) (core logical : Nat) : State :=
  let c := s.core core
  let s := { s with census := { s.census with moving := s.census.moving.filter fun l => l != logical } }
  let s := match c.inStage with
    | some (grp, k) => s.post (.consGrant c.asid.toNat grp k)
    | none => s
  s.endOf core c.scope.1

/-- Both streams of a core have halted: release, departure and report (R280, R324, R415). -/
def State.coreHalts (s : State) (core : Nat) : State :=
  let l := s.logicalOf core
  let s := ((s.release core 4).depart core).dropRunner core
  ((s.modCore core fun c => { c with run := .done, logical := 0 }).report 3 core).coreDone core l

/-- What a core holds that an end without its program's doing takes away: commands, waits and queued work (R243, R335). -/
def Core.stopAll (c : Core) : Core :=
  { c with
    cmds := []
    fences := []
    wait := none
    runnerAt := none
    join := none
    xph := c.xph.map fun p => { p with left := true }
    preempt := none
    gang := none
    sauq := []
    sauFly := []
    vrep := none
    fpRun := none
    port := none
    mat := { c.mat with queue := [], mgsr := c.mat.mgsr &&& 0x7FFFFFFFFFFFFFFF }
    task := none
    roundStop := false }

/-- The kernel kills a core (R335): its streams stop, its commands are cancelled, its write set is released, it departs its groups and its gang
disbands. -/
def State.killCore (s : State) (core : Nat) : State :=
  let c := s.core core
  if c.run = .idle ∨ c.run = .done then s
  else
    let l := s.logicalOf core
    let saved := Store.set none s.saved l none
    let s := if c.run = .dead then { s with queues := s.queues.map fun q => (q.1, { q.2 with pkts := q.2.pkts.map fun p => p.doubleFault core }) } else s
    let s := c.cmds.foldl (fun s k => s.passNumbers core k) { (s.dropFaults core).dropRequests core with saved := saved }
    let s := ((((disbandGang s core).abortTask core).release core 4).dropRunner core).dropClaims core
    let s := s.depart core
    (s.modCore core fun c => { c.stopAll with run := .done, logical := 0 }).coreDone core l

/-- CORE_KILL (R335). -/
def execCoreKill (core : Nat) (s : State) : Out := .next (s.killCore core)

/-! ### Cores whose programs move (R337) -/

/-- What stands for an evicted logical core where a list of site cores names it. -/
def evictedAs (logical : Nat) : Nat := 40000 + logical

/-- What stands for a core that had ended when its site took another program. -/
def goneBase : Nat := 50000

/-- Every value of a store changed. -/
def Store.mapAll {α : Type} [DecidableEq α] (d : α) (f : α → α) (m : Store α) : Store α := m.foldl (fun a p => Store.set d a p.1 (f p.2)) []

/-- A ring whose slots and closers name core a as core b. -/
def Ring.rename (r : Ring) (a b : Nat) : Ring :=
  let n := fun k => if k = a then b else k
  { r with
    slots := Store.mapAll {} (fun v => { v with owner := if v.st = 0 then v.owner else n v.owner }) r.slots
    closers := r.closers.map n }

/-- Every list that the device keeps of a program's cores names core a as core b: the packets that wait for it, its scope, its ring slots, the
re-casts that it has been cautioned of and the records that it has aborted. -/
def State.rename (s : State) (a b : Nat) : State :=
  let n := fun k => if k = a then b else k
  { s with
    queues := Store.mapAll {} (fun q => { q with pkts := q.pkts.map fun p => { p with cores := p.cores.map n } }) s.queues
    scopes := Store.mapAll none (fun o => o.map fun sc => { sc with
      contestants := sc.contestants.map fun k => { k with members := k.members.map n }
      scores := sc.scores.map fun v => (n v.1, v.2) }) s.scopes
    pipes := Store.mapAll none (fun o => o.map fun p => { p with rings := Store.mapAll {} (fun r => r.rename a b) p.rings }) s.pipes
    recs := Store.mapAll none (fun o => o.map fun r => if r.abortedOn = a + 1 then { r with abortedOn := b + 1 } else r) s.recs
    census := { s.census with pending := s.census.pending.map fun r => { r with who := r.who.map n } } }

/-- A site that a program has left: it is a party of its own from now on (R275). -/
def State.leaveSite (s : State) (core : Nat) : State :=
  { s.modCore core fun c => { c with run := .idle, logical := 0, party := 20001 + s.fresh } with fresh := s.fresh + 1 }

/-- The kernel ends an evicted logical core: its context is dropped. -/
def State.killEvicted (s : State) (logical : Nat) : State :=
  match Store.get none s.saved logical with
  | none => s
  | some r => { s with saved := Store.set none s.saved logical none }.endOf (evictedAs logical) r.scope.1

/-- The kernel kills a core that a list of a program's cores names. -/
def State.killNamed (s : State) (m : Nat) : State :=
  if m < Config.cores then s.killCore m else if m < goneBase then s.killEvicted (m - evictedAs 0) else s

/-! ### HALT (R415) -/

/-- The queues that only a halted stream pops are emptied (R83). -/
def Queues.halt (q : Queues) : Strm → Queues
  | .a => { q with stq := [], vstq := [], boqEA := [] }
  | .e => { q with ldq := [], vldq := [], boqAE := [] }

/-- A stream halts for good. In a handler it leaves the other stream stopped, and no TRET comes: that stream goes on, so that it can halt too and the
core ends (DEDUCED, log entry 145: R415 has HALT end the core with a handler active in the same way). -/
def Core.haltStream (c : Core) (st : Strm) : Core :=
  let c := if c.ctl.ub || c.ctl.sb then c.modSeq st.other fun q => { q with stopped := false, stopNext := false } else c
  { c.modSeq st (fun q => { q with halted := true }) with q := c.q.halt st }

/-- HALT waits for the commands of its stream, whose status traps come first, and in the E-stream for R177, R200 and R238; then the stream stops
for good. -/
def haltM (cx : Ctx) : CM Unit := do
  let c ← get
  stallIf (c.cmds.any fun k => k.strm == cx.st && k.detached == 0)
  stallIf (!(c.seq cx.st).due.isEmpty)
  stallIf (cx.st == .e && !c.eSafe)
  modify fun c => c.haltStream cx.st

/-- HALT. -/
def execHalt (n : BitVec 3) : State → Out :=
  solo fun s =>
    match issueU (.halt n) haltM s with
    | .next s' =>
      let c := s'.core s.cur
      .next (if c.run = .running ∧ c.a.halted = true ∧ c.e.halted = true then s'.coreHalts s.cur else s')
    | o => o

/-! ### Parking (R82, R83) -/

/-- The stream counts as parked at a safe point. -/
def Seq.still (q : Seq) : Bool := q.parked || q.halted

/-- Both streams of a core are parked or halted, and not both halted (R82, R83). -/
def Core.pairParked (c : Core) : Bool := c.run == .running && c.a.still && c.e.still && !(c.a.halted && c.e.halted)

/-- The members of a core's gang, or the core alone. -/
def State.gangOf (s : State) (core : Nat) : List Nat :=
  match (s.core core).gang with
  | none => [core]
  | some g => (s.cores.filter fun p => match p.2.gang with | some h => h.leader == g.leader | none => false).map Prod.fst

/-- What a paired safe point is for, in the order in which it is taken. -/
inductive PairAct where
  | preempt
  | allow
  | switch
  | gang
  | yield
  | heat
  deriving DecidableEq, Repr

/-- The core's GANG has signalled join and is not decided (R330). -/
def Core.gangReady (c : Core) : Bool :=
  match c.wait with
  | some (.gang _ _ true none) => true
  | _ => false

/-- A core of the stage has issued prod.close, so that the shunter moves no core into it or out of it (R356). -/
def Pipe.shut (p : Pipe) (k : Nat) : Bool := !(p.ring k).closers.isEmpty && decide (k + 1 < p.stages)

/-- The stage that a core is in, counting a mark as done (R357). -/
def Core.stageNext (c : Core) : Nat := if c.ctl.stage.getLsbD 52 then bitsOf c.ctl.stage 48 4 else bitsOf c.ctl.stage 0 4

/-- A marked core can switch: neither its stage nor the next has begun to close, and it holds no slot (R356, R358). -/
def State.canSwitch (s : State) (core : Nat) : Bool :=
  let c := s.core core
  c.ctl.stage.getLsbD 52 && !s.holdsSlot core && (match c.inStage with
    | none => false
    | some (grp, k) => match s.pipe c.asid.toNat grp with
      | none => true
      | some p => !p.shut k && !p.shut c.stageNext)

/-- The action that is pending at a core (R82, R330, R347, R358, R390, R393). A handler holds back those that are not a word's own. -/
def State.pairAct (s : State) (core : Nat) : Option PairAct :=
  let c := s.core core
  let free := !c.ctl.ub && !c.ctl.sb && !c.gangReady
  if free && (s.gangOf core).any fun m => (s.core m).preempt.isSome then some .preempt
  else if free && !c.roundStop && (s.gangOf core).any fun m => (s.core m).ctl.allowStop then some .allow
  else if free && !c.roundStop && s.canSwitch core then some .switch
  else match c.wait with
    | some (.gang _ _ false none) => some .gang
    | some (.yield _ _ none) => some .yield
    | some (.heat none) => if c.roundStop then none else some .heat
    | _ => none

/-- The core stays parked without a pending action: it has stopped for a round, or it waits for a gang or a record. -/
def Core.staysParked (c : Core) : Bool :=
  c.roundStop || c.gangReady || c.runnerAt.isSome || (match c.wait with | some (.runner ..) => true | _ => false)

/-- A gang's follower can park: its leader has parked, and every word up to it has been performed (R335). -/
def State.canFollow (s : State) (g : Gang) (st : Strm) : Bool :=
  ((s.core g.leader).seq st).still && s.cores.all fun p => match p.2.gang with
    | some h => h.leader != g.leader || decide (g.pos < h.pos) || (p.2.seq st).fwd.isEmpty
    | none => true

/-- The stream parked where it stands, if it can: a gang's follower parks after its leader, at the leader's word (R82, R335). -/
def State.parkAt (s : State) (core : Nat) (st : Strm) : Option Seq :=
  let c := s.core core
  let q := c.seq st
  let own := if q.safeAt.isSome && !q.tried && !(st == .a && c.barDone) then some { q with parked := true } else none
  match c.gang with
  | none => own
  | some g =>
    let l := (s.core g.leader).seq st
    if g.pos = 0 then own else if s.canFollow g st then some { q with parked := true, safeAt := l.safeAt, live := l.live } else none

/-- Every stream of a core that is parked goes on (R82). -/
def State.unparkAll (s : State) (ms : List Nat) : State := ms.foldl (fun s m => s.modCore m Core.unpark) s

/-- What happens at the boundary before a stream's next word on account of a paired safe point (R82, R325); none when nothing does. -/
def State.parkStep (s : State) (core : Nat) (st : Strm) : Option State :=
  let c := s.core core
  let q := c.seq st
  if c.run ≠ .running ∨ q.stopped = true then none
  else if q.still then
    if c.a.halted && c.e.halted then none
    else match s.pairAct core with
      | some _ => if c.pairParked then some (s.soon (.pairedSafePoint core)) else none
      | none => if q.parked && !c.staysParked then some (s.modCore core Core.unpark) else none
  else match s.pairAct core with
    | none => none
    | some _ =>
      match s.parkAt core st with
      | some p =>
        if st = .a ∧ c.atBarrier = true then some (s.soon (.barrierWithdrawal core)) else some (s.setCore core (c.setSeq st p))
      | none => if q.qstall && (c.seq st.other).parked then some (s.unparkAll (s.gangOf core))
      else none

/-- A stream that stalls on a queue with hints of its group issued lets the parked other stream go on (R49, R82). -/
def State.stallStep (s : State) (core : Nat) (st : Strm) : Option State :=
  let c := s.core core
  if c.run = .running ∧ (c.seq st).stopped = false ∧ (c.seq st).qstall = true ∧ (c.seq st.other).parked = true ∧ (s.pairAct core).isSome = true then
    some (s.unparkAll (s.gangOf core))
  else none

/-! ### The context record (R336) -/

/-- Slots old to cur - 1 of a stream's register stack, oldest first (R336). -/
def Seq.resident (q : Seq) : List Nat := (List.range (q.cur - q.old).toNat).map fun i => (q.old + BitVec.ofNat 5 i).toNat

/-- A physical home whose value a context keeps under a LIVE map (R72, R84, R336). -/
def Seq.keeps (q : Seq) (live : BitVec 20) (h : Nat) : Bool :=
  if h < 32 then live.getLsbD (h / 2)
  else if h < 600 then q.resident.contains ((h - 32) / 16) || ((List.range 24).any fun i => q.home (BitVec.ofNat 5 (8 + i)) == h && live.getLsbD ((8 + i) / 2))
  else if h < 616 then live.getLsbD 19
  else if h < 650 then live.getLsbD 18
  else live.getLsbD 17

/-- A stream as a context keeps it. The link tag of the current slot is no part of the record: its value is free. -/
def Seq.context (q : Seq) (live : BitVec 20) (tag : Word) : Seq :=
  { q with
    pc := q.groupStart
    hints := []
    regs := q.regs.filter fun p => q.keeps live p.1
    links := Store.set 0 (q.links.filter fun p => q.resident.contains p.1) q.cur.toNat tag
    expired := q.expired.filter fun h => q.keeps live h
    buf := []
    tbuf := []
    fwd := []
    parked := false
    safeAt := none
    tried := false
    qstall := false
    starved := false
    waiting := false }

/-- A wait that a context keeps: that of a runner (R362), and that of a HEAT, whose core stays stopped (R400); any other word re-executes
(R81). -/
def Core.keptWait (c : Core) : Option Wait :=
  match c.wait with
  | some (.runner g t) => some (.runner g t)
  | some (.heat r) => some (.heat r)
  | _ => none

/-- A physical place in ULM lies in a range of a context. -/
def Core.inRanges (c : Core) (ranges : List (Nat × Nat)) (at_ : Nat) : Bool :=
  ranges.any fun r => decide (r.1 ≤ c.phys at_) && decide (c.phys at_ < r.1 + r.2)

/-- A core as a context keeps it, under two LIVE maps and with some ranges of ULM (R84, R199, R222, R336): a word of ULM in error stays so (R435). A
FENCE that is not complete is met by the release of the save and the acquire of the resumption (R280, R282). -/
def Core.context (c : Core) (la le : BitVec 20) (ta te : Word) (ranges : List (Nat × Nat)) : Core :=
  let c := (List.range 8).foldl (fun c i =>
    let p := c.points i
    if p.valid then c.setPoints i { p with settings := 0, solved := false } else c) c
  { c with
    a := c.a.context la ta
    e := c.e.context le te
    q := {}
    v := c.v.filter fun p => c.e.keeps le (600 + p.1)
    k := c.k.filter fun p => c.e.keeps le (650 + p.1)
    mat := { acc := if le.getLsbD 16 then c.mat.acc else [], rowmap := c.mat.rowmap, mgsr := c.mat.mgsr }
    ctl := { c.ctl with b := if la.getLsbD 17 then c.ctl.b else [] }
    msg := {
      m := if la.getLsbD 19 then c.msg.m else []
      full := if la.getLsbD 19 then c.msg.full else 0
      n := if la.getLsbD 18 then c.msg.n else []
      notify := c.msg.notify }
    ulm := c.ulm.filter fun p => c.inRanges ranges p.1
    ulmBad := c.ulmBad.filter fun w => c.inRanges ranges (4 * w)
    ulmChk := c.ulmChk.filter fun g => c.inRanges ranges (64 * g)
    fences := []
    wait := c.keptWait
    runnerAt := none
    join := none
    xph := none
    preempt := none }

/-- A value as a doubleword of the record. -/
def dword (n : Nat) : List Byte := toBytes 8 n

/-- WIN (R109). -/
def Seq.win (q : Seq) : Word := BitVec.ofNat 64 (q.depth.toNat * 2 ^ 16 + q.old.toNat * 2 ^ 8 + q.cur.toNat)

/-- The control section of a stream; its next address is the first word of a hint group that has begun (R49, R81). -/
def Seq.ctlBytes (q : Seq) : List Byte :=
  let lv := fun f => (List.range 3).map fun i => f (q.level i)
  (([q.groupStart.toNat, (q.preds &&& 0xFE).toNat, q.lk.toNat, q.bt.toNat, q.brPred.toNat + 8 * q.brSense.toNat, q.win.toNat, q.loopDepth]
    ++ lv (fun l => l.lc.toNat) ++ lv (fun l => l.ls.toNat) ++ lv (fun l => l.le.toNat) ++ lv (fun l => l.shLs.toNat)
    ++ lv (fun l => l.shLe.toNat) ++ lv fun l => l.frame.toNat).map dword).flatten

/-- The register section of a stream: the pairs that a LIVE map marks, from an offset. -/
def Core.regBytes (c : Core) (st : Strm) (live : BitVec 20) (off : Nat) : List (Nat × List Byte) :=
  ((List.range 16).filter fun i => live.getLsbD i).map fun i =>
    let v := fun n => if n = 0 then 0 else Store.get 0 (c.seq st).regs ((c.seq st).home (BitVec.ofNat 5 n))
    (off + 16 * i, dword (v (2 * i)).toNat ++ dword (v (2 * i + 1)).toNat)

/-- The resident stack slots of a stream (R93, R336). -/
def Seq.stackBytes (q : Seq) : List Byte :=
  (q.resident.map fun t => ((List.range 16).map fun i => dword (Store.get 0 q.regs (32 + 16 * t + i)).toNat).flatten
    ++ dword (Store.get 0 q.links t).toNat).flatten

/-- GANGST (R334). -/
def Core.gangst (c : Core) : Nat :=
  match c.gang with
  | some g => 2 ^ 7 + 4 * gangCode g.size
  | none => 0

/-- The sections of a context record, as offsets and bytes (R336). Within a section the items follow one another in the order of the rule. -/
def Core.recordBytes (c : Core) (core : Nat) (la le : BitVec 20) (ranges : List (Nat × Nat)) : List (Nat × List Byte) :=
  let pos := match c.gang with | some g => g.pos | none => 0
  let cond := fun (b : Bool) (x : Nat × List Byte) => if b then [x] else []
  let n16 := List.range 16
  let n8 := List.range 8
  [(0, ([1, la.toNat, le.toNat, c.gangst + 2 ^ 8 * pos, core, c.asid.toNat, ranges.length, 0].map dword).flatten),
    (0x40, c.a.ctlBytes), (0x140, c.e.ctlBytes)]
  ++ c.regBytes .a la 0x240 ++ c.regBytes .e le 0x340
  ++ cond (la.getLsbD 19) (0x440, ((n16.map fun i => dword (c.msg.get i).toNat).flatten) ++ dword c.msg.full.toNat)
  ++ cond (la.getLsbD 18) (0x4C8, (n8.map fun i => dword (c.msg.ctr i).toNat).flatten)
  ++ cond (la.getLsbD 17) (0x508, ((List.range 4).map fun i => dword (Store.get 0 c.ctl.b i).toNat).flatten)
  ++ [(0x528, dword c.msg.notify.toNat),
    (0x540, dword c.ctl.fpctl.toNat ++ dword c.ctl.srseed.toNat ++ dword c.ctl.geo.toNat
      ++ ((List.range 4).map fun i => dword (c.gmem i).toNat).flatten
      ++ ((List.range 64).map fun i => toBytes 2 (Store.get 0xC000 c.mat.rowmap i).toNat).flatten
      ++ (n8.map fun i => dword (Store.get 0 c.ctl.swz i).toNat).flatten ++ (n8.map fun i => dword (Store.get 0 c.ctl.win i).toNat).flatten
      ++ (n8.map fun i => toBytes 1 (if (c.points i).valid then 1 else 0) ++ toBytes 1 (c.points i).n
        ++ ((c.points i).idx.map fun r => toBytes 1 r).flatten).flatten),
    (0x940, c.a.stackBytes ++ c.e.stackBytes)]
  ++ cond (le.getLsbD 19) (0x2B40, (n16.map fun i => toBytes 128 (Store.get 0 c.v i).toNat).flatten)
  ++ cond (le.getLsbD 18) (0x3340, (n16.map fun i => toBytes 128 (Store.get 0 c.v (16 + i)).toNat).flatten)
  ++ cond (le.getLsbD 17) (0x3B40, ((List.range 7).map fun i => toBytes 16 (Store.get 0 c.k (1 + i)).toNat).flatten)
  ++ cond (le.getLsbD 16) (0x3BC0, ((List.range 4096).map fun i => toBytes 4 (Store.get 0 c.mat.acc i).toNat).flatten)
  ++ [(0x8000, (ranges.map fun r => c.ulmBytes r.1 r.2).flatten)]

/-! ### Pre-emption (R335 to R337) -/

/-- The timeout of a request in ns: 200 us where the kernel gives none (0); none when it lies outside 1 us to 1 s (R335). -/
def preemptTimeout (ns : Nat) : Option Nat :=
  if ns = 0 then some 200000 else if 1000 ≤ ns ∧ ns ≤ 1000000000 then some ns else none

/-- PREEMPT_REQUEST: the kernel asks for a core's pre-emption. -/
def execPreemptRequest (core timeoutNs area : Nat) (ranges : List (Nat × Nat)) (s : State) : Out :=
  match preemptTimeout timeoutNs with
  | none => .next s
  | some t =>
    if (s.core core).run ≠ .running then .next s
    else .next ((s.modCore core fun c => { c with preempt := some ⟨s.ns + t, area, ranges.take 8, false⟩ }).soon (.preemptOverdue core))

/-- PREEMPT_OVERDUE: the timeout has passed, and the kernel is told once. -/
def execPreemptOverdue (core : Nat) (s : State) : Out :=
  match (s.core core).preempt with
  | none => .next s
  | some p =>
    if p.overdue then .next s
    else if s.ns < p.deadline then .next (s.soon (.preemptOverdue core))
    else .next ((s.modCore core fun c => { c with preempt := some { p with overdue := true } }).report 1 core)

/-- The waits of a save or a stage switch are over (R177, R200, R238, R255): no command, no dispatched work, no late result. -/
def Core.quiet (c : Core) : Bool := c.eSafe && c.port.isNone && c.cmds.isEmpty && c.a.wb.isNone && c.e.wb.isNone

/-- A deposit that waits in a migrating core's latch is a packet that the tile's interface holds (R101, R381). -/
def State.holdLatch (s : State) (core : Nat) : State :=
  match (s.core core).msg.latch with
  | none => s
  | some d => (s.movePacket d.pkt fun p => { p with phase := 6 }).modCore core fun c => { c with msg := { c.msg with latch := none } }

/-- The sections of a record are written to the context area (R336). -/
def State.saveRecord (s : State) (core area : Nat) (la le : BitVec 20) (ranges : List (Nat × Nat)) : State :=
  ((s.core core).recordBytes core la le ranges).foldl (fun s w => s.partyWrite stationParty 4 (area + w.1) w.2) s

/-- A core whose context has been saved: its site stays bound (R337). -/
def Core.asSaved (c : Core) : Core := { c with run := .saved, preempt := none, wait := c.keptWait, fences := [], gang := none, roundStop := false }

/-- A migrating core's context: every register and the whole ULM, and the device's deposits and notifies that it has not yet taken (R381). -/
def Core.moved (c : Core) : Core :=
  let r := c.context 0xFFFFF 0xFFFFF (Store.get 0 c.a.links c.a.cur.toNat) (Store.get 0 c.e.links c.e.cur.toNat) [(0, Config.ulmBytes)]
  { r with msg := { r.msg with devq := c.msg.devq, notifyLatch := c.msg.notifyLatch } }

/-- CONTEXT_SAVE (for a migration every section and all of ULM are saved, and the core is resumed at its tile's new site, R381): pending claims are
withdrawn, the waits pass, the write set is released and the record is written (R280, R336, R356). The core's site stays bound (R337), and what the
core is as a party goes with its context (R275). -/
def execContextSave (core : Nat) (s : State) : Out :=
  let c := s.core core
  match c.preempt with
  | none => .next s
  | some p =>
    if !c.pairParked || !c.q.isEmpty || s.pairAct core != some .preempt then .next s
    else if c.cmds.any fun k => k.op.claim && k.open_ then .next ((s.withdrawClaims core).soon (.contextSave core))
    else if !c.quiet then .next (s.soon (.contextSave core))
    else
      let l := s.logicalOf core
      let party := s.partyOf core + 1
      let s := s.release core 4
      if s.census.moving.contains l then
        let s := s.holdLatch core
        let s := s.saveRecord core (if p.area = 0 then Config.migrateArea l else p.area) 0xFFFFF 0xFFFFF [(0, Config.ulmBytes)]
        .next ({ s.modCore core Core.asSaved with
          saved := Store.set none s.saved l (some { (s.core core).moved with party := party }) }.post
            (.contextResume l (4 * (s.tileMap (l / 4)).site + l % 4)))
      else
        let s := s.saveRecord core p.area (s.core core).a.live (s.core core).e.live p.ranges
        let c := s.core core
        let r := c.context c.a.live c.e.live (Config.freeWord s.free) (Config.freeWord (s.free + 1)) p.ranges
        .next { s.modCore core Core.asSaved with
          free := s.free + 2
          saved := Store.set none s.saved l (some { r with party := party }) }

/-- Packets that an interface held for a core are forwarded to the core's new site, in the order of their arrival (R381). -/
def State.forwardHeld (s : State) (logical : Nat) : State :=
  (s.packets.filter fun p => p.phase == 6 && p.dst == logical).foldl (fun s p =>
    let (dx, dy) := siteXY (s.destSite p)
    (s.movePacket p.id fun q => { q with phase := 0, dx := dx, dy := dy, vc := 0, gen := s.census.g }).post p.onward) s

/-- A core that has been resumed as a runner waits in its domain again. -/
def State.rejoin (s : State) (core : Nat) : State :=
  let c := s.core core
  match c.wait with
  | some (.runner grp _) => (s.modDom c.asid.toNat grp fun d =>
      { d with runners := if d.runners.contains core then d.runners else d.runners ++ [core] }).post (.taskHandover c.asid.toNat grp)
  | _ => s

/-- A core goes on with a restored context: points registers to be solved again (R222), and the acquire of R280. -/
def State.goOn (s : State) (target logical : Nat) (c : Core) : State :=
  let run := match c.wait with | some (.runner ..) => true | _ => false
  let c := { c with run := .running, logical := logical + 1 }
  let c := { c with a := { c.a with parked := run || c.roundStop }, e := { c.e with parked := run || c.roundStop } }
  let s := { (s.dropRequests target).setCore target c with saved := Store.set none s.saved logical none }
  let s := (List.range 8).foldl (fun s i => if (c.points i).valid then s.askSolve target i else s) s
  let s := ((s.acquire target 4).rejoin target).forwardHeld logical
  -- a core that had stopped for its round resumes stopped (R400)
  if c.scope.1 ≠ 0 ∧ c.roundStop = true then s.post (.roundEnd (c.scope.1 - 1)) else s

/-- A context returns to the site where it was saved: what stayed in place is kept (R337). -/
def Core.restoreHere (t r : Core) : Core :=
  { r with
    ulm := t.ulm
    ulmBad := t.ulmBad
    ulmChk := t.ulmChk
    msg := t.msg
    ctl := { r.ctl with win := t.ctl.win, swz := t.ctl.swz, gmem := t.ctl.gmem, events := t.ctl.events, ndrop := t.ctl.ndrop, refused := t.ctl.refused } }

/-- The site where a context was saved, when it is still bound. -/
def State.savedSite (s : State) (logical : Nat) : Option Nat :=
  (s.cores.find? fun p => p.2.run == .saved && p.2.logical == logical + 1).map Prod.fst

/-- The records of a gang's members, by position, when every one is saved: logical number and record (R337). -/
def State.gangRecords (s : State) (g : Gang) : List (Nat × Core) :=
  let rs := (List.range g.size).filterMap fun pos => s.saved.findSome? fun p => match p.2 with
    | some r => match r.gang with
      | some h => if h.leader = g.leader ∧ h.size = g.size ∧ h.pos = pos then some (p.1, r) else none
      | none => none
    | none => none
  if rs.length = g.size then rs else []

/-- A site core can take a context: it is idle, and its tile serves the compute role (R337, R364). -/
def State.canTake (s : State) (target : Nat) : Bool :=
  let t := s.core target
  let m := s.tileMap (s.tileAt (siteOf target))
  (t.run == .idle || t.run == .done) && m.role == 0 && m.toward.isNone

/-- A logical core goes on away from the site where it was saved, or after its eviction (R337). What the device names by cores follows it. -/
def State.resumeAway (s : State) (target logical : Nat) (r : Core) : State :=
  let s := { s.rename target (goneBase + s.fresh) with fresh := s.fresh + 1 }
  let s := match s.savedSite logical with
    | some n => (((s.dropRunner n).modCore n fun c => { c with wait := none }).leaveSite n).rename n target
    | none => s.rename (evictedAs logical) target
  let s := { s with census := { s.census with moving := s.census.moving.filter fun l => l != logical } }
  s.goOn target logical r

/-- A logical core can be resumed at a site core: its context stays there, or the core can take one (R337). -/
def State.canHost (s : State) (target logical : Nat) : Bool := s.savedSite logical == some target || s.canTake target

/-- A logical core goes on at a site core, in place or elsewhere (R337). -/
def State.resumeAt (s : State) (target logical : Nat) (r : Core) : State :=
  if s.savedSite logical = some target then s.goOn target logical ((s.core target).restoreHere r)
  else if s.canTake target then s.resumeAway target logical r
  else s

/-- CONTEXT_RESUME: the context of a logical core is resumed at a site core (R337). Where every member of the record's gang is saved, the kernel may
resume the members together at the cores of one neighbourhood, each in place or elsewhere, and the gang reforms; that choice is free. -/
def execContextResume (core target : Nat) (s : State) : Out :=
  match Store.get none s.saved core with
  | none => .next s
  | some r =>
    match r.gang with
    | none => .next (s.resumeAt target core r)
    | some g =>
      let ms := s.gangRecords g
      let sites := gangCores target g.size
      let s1 := { s with free := s.free + 1 }
      let together := Config.pick s.free % 2 == 1 && ms.length == g.size && sites[g.pos]? == some target
        && (sites.zip ms).all fun p => s.canHost p.1 p.2.1
      if together then
        .next ((sites.zip ms).foldl (fun s p =>
          s.resumeAt p.1 p.2.1 { p.2.2 with gang := p.2.2.gang.map fun g => { g with leader := sites.headD 0 } }) s1)
      else .next (s1.resumeAt target core { r with gang := none })

/-- SITE_EVICTION: the site of a saved core is freed, and the logical core is unbound; a committed task is aborted and queued again (R337, R352). -/
def execSiteEviction (core : Nat) (s : State) : Out :=
  let c := s.core core
  if c.run ≠ .saved then .next s
  else
    let l := s.logicalOf core
    let lost := c.committed
    let s := (s.abortTask core).dropRunner core
    let s := ((s.modCore core Core.stopAll).leaveSite core).rename core (evictedAs l)
    .next { s with
      saved := if lost then Store.modify none s.saved l (fun o => o.map fun r => { r with task := none, wait := some (.runner (bitsOf r.ctl.tdom 48 8) s.cycle) })
        else s.saved }

end Sys2Proof.Machine
end

