-- ==== Sys2Proof/Machine/Census.lean ====
section
/-!
DEFINITION. Roles, the census, notices and leases (R364 to R386).
-/

namespace Sys2Proof.Machine

/-! ### Policy (R366) -/

/-- Reset value of a word of the policy blocks, by byte offset / 8. -/
def policyReset (i : Nat) : Word :=
  if 32 ≤ i then 0 else if i % 8 = 1 then 0x000000FF00FF00FF else if i % 8 = 2 then 0x0000000000320040 else 0

/-- A word of the policy blocks. -/
def Census.policyWord (c : Census) (i : Nat) : Word := Store.get 0 c.policy i ^^^ policyReset i

/-- Put a word of the policy blocks. -/
def Census.setPolicy (c : Census) (i : Nat) (v : Word) : Census := { c with policy := Store.set 0 c.policy i (v ^^^ policyReset i) }

/-- The minimum number of tiles of a role on a die. -/
def Census.minOf (c : Census) (die role : Nat) : Nat := bitsOf (c.policyWord (8 * die)) (16 * role) 10

/-- The threshold of a role's pressure on a die. -/
def Census.hi (c : Census) (die role : Nat) : Nat := bitsOf (c.policyWord (8 * die + 1)) (16 * role) 8

/-- The hysteresis of a role on a die. -/
def Census.hyst (c : Census) (die role : Nat) : Nat := bitsOf (c.policyWord (8 * die + 1)) (16 * role + 8) 8

/-- The notice lead of a die, in units of 100 ns. -/
def Census.lead (c : Census) (die : Nat) : Nat := Nat.max 10 (bitsOf (c.policyWord (8 * die + 2)) 16 16)

/-- Re-casts per ms of a die. -/
def Census.rate (c : Census) (die : Nat) : Nat := Nat.min 64 (bitsOf (c.policyWord (8 * die + 2)) 0 7)

/-- The census may migrate resident work on a die. -/
def Census.mig (c : Census) (die : Nat) : Bool := (c.policyWord (8 * die + 2)).getLsbD 33

/-- A reserved field of a die's block is not zero. -/
def Census.bad (c : Census) (die : Nat) : Bool :=
  let w := fun i => c.policyWord (8 * die + i)
  bitsOf (w 0) 42 22 != 0 || bitsOf (w 0) 26 6 != 0 || bitsOf (w 0) 10 6 != 0 || bitsOf (w 1) 48 16 != 0 || bitsOf (w 2) 34 30 != 0
    || bitsOf (w 2) 7 9 != 0 || [3, 4, 5, 6, 7].any fun i => w i != 0

/-- The census runs on a die. -/
def Census.runs (c : Census) (die : Nat) : Bool :=
  (c.policyWord (8 * die + 2)).getLsbD 32 && !c.bad die && decide (c.minOf die 0 + c.minOf die 1 + c.minOf die 2 ≤ 576)

/-- A die's bucket of tokens, filled up to a time (R368). -/
def Census.fill (c : Census) (die now : Nat) : Census :=
  let t := Store.get 0 c.tokens die + c.rate die * (now - Store.get 0 c.tokenAt die)
  { c with
    tokens := Store.set 0 c.tokens die (Nat.min t (c.rate die * 1000000))
    tokenAt := Store.set 0 c.tokenAt die (Nat.max now (Store.get 0 c.tokenAt die)) }

/-- CENSUS_POLICY_WRITE: the kernel writes a doubleword of a policy block or of the migration table (R366, R368, R369). -/
def execCensusPolicyWrite (offset : Nat) (value : BitVec 64) (s : State) : Out :=
  let c := s.census
  if offset % 8 ≠ 0 then .next s
  else if offset < 0x100 then
    let die := offset / 0x40
    let c1 := c.fill die s.ns
    let c2 := c1.setPolicy (offset / 8) value
    let on := (c2.policyWord (8 * die + 2)).getLsbD 32 && !(c1.policyWord (8 * die + 2)).getLsbD 32
    let c3 := if on then { c2 with tokens := Store.set 0 c2.tokens die 0 } else c2
    let rest := c3.badPolicy.filter fun d => d != die
    .next { s with census := { c3 with badPolicy := if c3.bad die then rest ++ [die] else rest } }
  else if offset < 0x300 then
    let base := 8 * (offset - 0x100)
    .next { s with census := { c with
      migrate := c.migrate.filter (fun a => a < base || base + 64 ≤ a) ++ ((List.range 64).filter fun i => value.getLsbD i).map fun i => base + i } }
  else .next s

/-! ### Tiles -/

/-- The compute die of a site. -/
def siteDie (site : Nat) : Nat := dieOf (4 * site)

/-- The sites of a die, in rising order. -/
def dieSites (die : Nat) : List Nat := (List.range 576).map fun i => (die / 2 * 24 + i / 24) * 48 + die % 2 * 24 + i % 24

/-- The logical tiles whose sites lie on a die. -/
def State.dieTiles (s : State) (die : Nat) : List Nat := (dieSites die).map s.tileAt

/-- The cores at a logical tile's site. -/
def State.coresOf (s : State) (t : Nat) : List Nat := tileCores (s.tileMap t).site

/-- The tile has resident work (R369). -/
def State.resident (s : State) (t : Nat) : Bool :=
  s.census.reserved.contains t || (s.coresOf t).any (fun n => (s.core n).run == .running || (s.core n).run == .saved || (s.core n).run == .dead)
    || s.census.moving.any fun l => l / 4 == t

/-- A lease covers a tile. -/
def Lease.covers (l : Lease) (t : Nat) : Bool := decide (l.first ≤ t) && decide (t < l.first + l.count)

/-- An implicit lease covers a tile: it runs a contestant's core (R375, R388). -/
def State.implicit (s : State) (t : Nat) : Bool := (s.coresOf t).any fun n => (s.core n).scope.1 != 0

/-- A caution for a tile is pending. -/
def State.cautioned (s : State) (t : Nat) : Bool := s.census.pending.any fun r => r.tile == t

/-- A tile that can receive migrated cores. -/
def State.receives (s : State) (t : Nat) : Bool :=
  let m := s.tileMap t
  m.role == 0 && m.toward.isNone && !s.resident t && !s.cautioned t

/-- The tile that receives a tile's cores: the lowest on its die. -/
def State.receiver (s : State) (t : Nat) : Option Nat :=
  (s.dieTiles (siteDie (s.tileMap t).site)).foldl (fun b u => if u ≠ t ∧ s.receives u = true then (match b with | some v => some (Nat.min u v) | none => some u) else b) none

/-- Every core of a tile can be migrated (R369). -/
def State.movable (s : State) (t : Nat) : Bool :=
  s.census.mig (siteDie (s.tileMap t).site) && !s.census.reserved.contains t && (s.coresOf t).all (fun n =>
    let c := s.core n
    !(c.run == .running || c.run == .saved || c.run == .dead) ||
      ((c.run == .running || c.run == .saved) && s.census.migrate.contains c.asid.toNat && c.xph.isNone && (match c.gang with | some g => g.size != 8 | none => true)))
    && (s.receiver t).isSome

/-- A tile may leave its role (R369); own says that its own pending caution is ignored. -/
def State.eligible (s : State) (t : Nat) (own : Bool) : Bool :=
  let m := s.tileMap t
  m.toward.isNone && (own || !s.cautioned t) && !(s.census.leases.any fun l => l.covers t) && !s.implicit t
    && (m.role != 0 || !s.resident t || s.movable t)

/-- Tiles of a role on a die that are not annealing, and those that anneal toward it (R368). -/
def State.roleCount (s : State) (die role : Nat) : Nat := (s.dieTiles die).countP fun t => (s.tileMap t).roleNow == role

/-! ### Notices (R370 to R372) -/

/-- A notice's value (R371). -/
def noticeWord (kind from_ to_ gen tile site detail : Nat) : Word :=
  BitVec.ofNat 64 (kind * 2 ^ 60 + from_ * 2 ^ 58 + to_ * 2 ^ 56 + gen * 2 ^ 40 + tile * 2 ^ 28 + site * 2 ^ 16 + detail % 2 ^ 16)

/-- A notice is sent to a core; a halted or idle one receives none (R372). -/
def State.notice (s : State) (core : Nat) (v : Word) : State :=
  if (s.core core).run = .running ∨ (s.core core).run = .saved then deviceDeposit s core v else s

/-- The mesh neighbours of a site. -/
def neighbours (site : Nat) : List Nat :=
  (if site % 48 = 0 then [] else [site - 1]) ++ (if site % 48 = 47 then [] else [site + 1]) ++ (if site < 48 then [] else [site - 48])
    ++ (if 2256 ≤ site then [] else [site + 48])

/-- A subscription covers a tile (R373). -/
def subscribed (v : Word) (t : Nat) : Bool := v.getLsbD 63 && decide (bitsOf v 0 12 ≤ t) && decide (t ≤ bitsOf v 32 12)

/-- The recipients of a caution (R370). -/
def State.cautionTo (s : State) (t : Nat) : List Nat :=
  let m := s.tileMap t
  let near := (neighbours m.site).map s.tileAt
  let subs := (s.cores.filter fun p => (p.2.run == .running || p.2.run == .saved) && (List.range 4).any fun i => subscribed (Store.get 0 p.2.ctl.rsub i) t).map Prod.fst
  let holders := (s.census.leases.filter fun l => near.any l.covers).map fun l => s.siteCore l.holder
  let own := if m.role = 0 ∧ s.resident t = true then s.coresOf t else []
  (subs ++ holders ++ own).eraseDups

/-- A re-cast of a tile starts: the caution is sent (R370). -/
def State.startRecast (s : State) (t from_ to_ now : Nat) : State :=
  let site := (s.tileMap t).site
  let lead := s.census.lead (siteDie site)
  let who := s.cautionTo t
  let s := who.foldl (fun s n => s.notice n (noticeWord 1 from_ to_ s.census.g.toNat t site lead)) s
  { s with census := { s.census with pending := s.census.pending ++ [⟨t, from_, to_, now + 100 * lead, false, who⟩] } }

/-! ### The interval (R367, R368) -/

/-- Compute pressure. -/
def State.pressureC (s : State) (die : Nat) : Nat :=
  let home := fun (k : Nat) => match s.group (k / 256) (k % 256) with | some g => g.home / 4 == die | none => false
  let lt := s.queues.foldl (fun n q => n + (q.2.pkts.map fun p => p.want).sum) 0
  let rt := s.doms.foldl (fun n d => n + (if home d.1 then d.2.ready.length else 0)) 0
  let hr := s.pipes.foldl (fun n p => n + (match p.2 with
    | some q => if home p.1 then q.rings.countP fun r => decide (r.2.hi ≤ r.2.slots.countP fun v => v.2.st != 0) else 0
    | none => 0)) 0
  Nat.min 255 (lt + rt / 4 + 16 * hr)

/-- Pages whose home is a frame of a tile, in rising order. -/
def State.pagesOf (s : State) (t : Nat) : List Nat := (s.census.pages.filter fun p => p.2 != 0 && (p.2 - 1) / 23 == t).map Prod.fst

/-- Storage pressure. -/
def State.pressureS (s : State) (die : Nat) : Nat :=
  let ts := (s.dieTiles die).filter fun t => (s.tileMap t).role == 1 && (s.tileMap t).toward.isNone
  let bk := Store.get 0 s.census.backReads die
  let used := (ts.map fun t => (s.pagesOf t).length).sum
  if ts.isEmpty then (if bk = 0 then 0 else 255) else Nat.min 255 (255 * used / (23 * ts.length) + bk / 256)

/-- Network pressure. -/
def State.pressureN (s : State) (die : Nat) : Nat :=
  17 * ((List.range 36).foldl (fun n i =>
    let r := (die / 2 * 6 + i / 6) * 12 + die % 2 * 6 + i % 6
    n + Store.get 0 s.counts (2 * r) + Store.get 0 s.counts (2 * r + 1)) 0) / 72

/-- Pressure of a role. -/
def State.pressure (s : State) (die role : Nat) : Nat :=
  match role with
  | 0 => s.pressureC die
  | 1 => s.pressureS die
  | _ => s.pressureN die

/-- Insert by a key: smaller keys first, and an equal key after those before it. -/
def insertBy {α : Type} (key : α → Nat) (x : α) : List α → List α
  | [] => [x]
  | y :: r => if key x < key y then x :: y :: r else y :: insertBy key x r

/-- Sort by a key, stably. -/
def sortBy {α : Type} (key : α → Nat) (l : List α) : List α := l.foldl (fun m x => insertBy key x m) []

/-- The tiles of a role on a die in census order (R368). -/
def State.censusOrder (s : State) (die role target : Nat) : List Nat :=
  let ts := sortBy id ((s.dieTiles die).filter fun t => (s.tileMap t).role == role && (s.tileMap t).toward.isNone)
  if target = 2 then
    sortBy (fun t =>
      let site := (s.tileMap t).site
      30 - (s.countAt (site % 48) (site / 48) 0 + s.countAt (site % 48) (site / 48) 1)) ts
  else sortBy (fun t => if s.resident t then 1 else 0) ts

/-- SPARED notices for the first tile in census order, when a lease passes it over: one for each ASID that covers it, and one in an interval
for each lease (R370). -/
def State.spare (s : State) (t from_ to_ : Nat) : State :=
  let ls := s.census.leases.filter fun l => l.covers t
  let first := ls.filter fun l => !ls.any fun k => k.asid == l.asid && decide (k.slot < l.slot)
  (first.filter fun l => !s.census.spared.contains (l.asid, l.slot)).foldl (fun s l =>
    { s with census := { s.census with spared := s.census.spared ++ [(l.asid, l.slot)] } }.notice (s.siteCore l.holder)
      (noticeWord 2 from_ to_ s.census.g.toNat t (s.tileMap t).site (Store.get 0 s.census.seqs (l.asid * 64 + l.slot) * 64 + l.slot))) s

/-- The first eligible tile of a role in census order starts its re-cast; a leased one that stands first is spared (R368, R370). -/
def State.donateFrom (s : State) (die role target now : Nat) : State × Bool :=
  let order := s.censusOrder die role target
  let s := match order with
    | t :: _ => if (s.census.leases.any fun l => l.covers t) then s.spare t role target else s
    | [] => s
  match order.find? fun t => s.eligible t false with
  | some t =>
    let s := s.startRecast t role target now
    ({ s with census := { s.census with tokens := Store.modify 0 s.census.tokens die fun n => n - 1000000 } }, true)
  | none => (s, false)

/-- Look for a donor among roles in the order of R368, and start the first re-cast possible. -/
def State.donate (s : State) (die target now : Nat) : List Nat → State
  | [] => s
  | y :: r =>
    let (s, done) := s.donateFrom die y target now
    if done then s else s.donate die target now r

/-- The census acts on a die at the end of an interval (R368). -/
def State.censusDie (s : State) (die now : Nat) : State :=
  let s := { s with census := s.census.fill die now }
  let c := s.census
  if !c.runs die || decide (Store.get 0 c.tokens die < 1000000) then s
  else
    let p := fun x => s.pressure die x
    let pressed := [0, 1, 2].filter fun x => decide (c.hi die x ≤ p x)
    match pressed.foldl (fun (b : Option Nat) x => match b with
        | none => some x
        | some y => if p y - c.hi die y < p x - c.hi die x then some x else some y) none with
    | none => s
    | some target =>
      let donors := [2, 1, 0].filter fun y => y != target && decide (p y + c.hyst die y < c.hi die y) && decide (c.minOf die y < s.roleCount die y)
      s.donate die target now (sortBy p donors)

/-- Leases whose time has passed have lapsed; the census finds it so at whatever it decides (R375, R376). -/
def State.lapse (s : State) : State := { s with census := { s.census with leases := s.census.leases.filter fun l => decide (s.ns < l.expiry) } }

/-- CENSUS_INTERVAL: at each 10 us boundary re-casts that are due commit, and the census acts on every die (R367, R368, R370). -/
def execCensusInterval (s : State) : Out :=
  let now := 10000 * (s.census.done + 1)
  if s.ns < now then .next (s.soon .censusInterval)
  else
    let s := s.lapse
    let s := (s.census.pending.filter fun r => decide (r.commitAt ≤ now)).foldl (fun s r => s.post (.recastCommit r.tile)) s
    let s := (List.range 4).foldl (fun (s : State) d => s.censusDie d now) { s with census := { s.census with spared := [] } }
    .next ({ s with census := { s.census with done := s.census.done + 1, backReads := [] } }.soon .censusInterval)

/-- RECAST_ORDER: the kernel orders a re-cast, which obeys R369, R370 and the tokens (R368). -/
def execRecastOrder (die donor target : Nat) (s : State) : Out :=
  let s := { s.lapse with census := s.lapse.census.fill die s.ns }
  if 4 ≤ die ∨ 3 ≤ donor ∨ 3 ≤ target ∨ donor = target ∨ Store.get 0 s.census.tokens die < 1000000 then .next s
  else .next (s.donateFrom die donor target s.ns).1

/-! ### Annealing (R379 to R383) -/

/-- A core in reset: its windows are cleared, and nothing of its program is left (R381). -/
def resetCore (s : State) (n : Nat) : State := (s.dropRequests n).setCore n { ulm := (s.core n).ulm, party := (s.core n).party }

/-- A core whose context is saved with its site bound moves with that site's contents, and with what it is as a party (R275, R337, R381). -/
def State.moveSaved (s : State) (from_ to_ : Nat) : State :=
  if (s.core from_).run = .saved then
    let c := { s.core from_ with party := s.partyOf from_ + 1 }
    let s := { s.rename to_ (goneBase + s.fresh) with fresh := s.fresh + 1 }
    ((((s.dropRunner from_).setCore to_ c).setCore from_ {}).leaveSite from_).rename from_ to_
  else s

/-- A migration: T's logical tile moves to the receiving site, whose logical tile takes T's site and anneals there; the kernel pre-empts T's cores
(R379, R381). -/
def State.migrateTile (s : State) (t u to_ : Nat) (g : BitVec 16) : State :=
  let mt := s.tileMap t
  let mu := s.tileMap u
  let s := (s.setTileMap t ⟨mu.site, 0, none, mt.gen⟩).setTileMap u ⟨mt.site, 0, some to_, g.toNat⟩
  let ms := (tileCores mt.site).filter fun n => (s.core n).run == .running
  let s := { s with census := { s.census with moving := s.census.moving ++ ms.map s.logicalOf } }
  let s := (List.range 4).foldl (fun s i => s.moveSaved (4 * mt.site + i) (4 * mu.site + i)) s
  ms.foldl (fun s n => s.modCore n fun c => { c with preempt := some ⟨s.ns + 200000, 0, [], false⟩ }) s

/-- RECAST_COMMIT: a cautioned re-cast commits, or is cancelled, at the first boundary of an interval that is not before its time (R370, R379,
R380). -/
def execRecastCommit (tile : Nat) (s : State) : Out :=
  match s.census.pending.find? fun r => r.tile == tile && decide (r.commitAt ≤ 10000 * s.census.done) with
  | none => .next s
  | some r =>
    let m := s.tileMap tile
    let die := siteDie m.site
    let s := s.lapse
    let s := { s with census := { s.census with pending := s.census.pending.filter fun q => q.tile != tile } }
    if r.cancelled || !s.eligible tile true || decide (s.roleCount die r.from_ ≤ s.census.minOf die r.from_) then
      .next (r.who.foldl (fun s n => s.notice n (noticeWord 4 r.from_ r.to_ s.census.g.toNat tile m.site 0)) s)
    else
      let g := s.census.g + 1
      let s := { s with census := { s.census with g := g } }
      let (s, t) := match (if m.role = 0 ∧ s.resident tile = true then s.receiver tile else none) with
        | some u => (s.migrateTile tile u r.to_ g, u)
        | none =>
          let s := s.setTileMap tile ⟨m.site, m.role, some r.to_, g.toNat⟩
          (if m.role = 0 then (tileCores m.site).foldl resetCore s else s, tile)
      let s := { s with census := { s.census with annealing := Store.set 0 s.census.annealing t s.ns } }
      -- the stations' copies hold the new generation's entries (R365), and a routing tile's combining entries are parked (R383)
      let s := (List.range 16).foldl State.syncCopy s
      let s := if m.role = 2 then s.parkCombs m.site else s
      let s := if m.role = 1 then s.post (.pageEvacuation t) else if m.role = 2 then s.soon (.relayDrainDeadline t) else s
      .next (s.soon (.annealComplete t))

/-- The bytes that a storage tile's frame holds: those of its page, which the model keeps once, at the page's place in the backing region
(R364, log 51). Frame f lies in the ULM of core f / 6 at byte 65,536 (f mod 6). -/
def State.frameByte (s : State) (t f o : Nat) : Byte :=
  match s.census.pages.find? fun p => p.2 == t * 23 + f + 1 with
  | some p => s.deviceByte (s.placeOf (BitVec.ofNat 64 (p.1 * 2 ^ 20 + 2 ^ 10)) o)
  | none => 0

/-- A free frame of a storage tile. -/
def State.freeFrame (s : State) (t : Nat) : Option Nat :=
  (List.range 23).find? fun f => !(s.census.pages ++ s.census.transit).any fun p => p.2 == t * 23 + f + 1

/-- The storage tile that takes an evacuated page: the nearest with a free frame, the lower number on a tie (R382). -/
def State.evacTo (s : State) (t : Nat) : Option Nat :=
  let site := (s.tileMap t).site
  let ts := (s.dieTiles (siteDie site)).filter fun u =>
    u != t && (s.tileMap u).role == 1 && (s.tileMap u).toward.isNone && (s.freeFrame u).isSome
  (sortBy (fun u => distNat ((s.tileMap u).site % 48) (site % 48) + distNat ((s.tileMap u).site / 48) (site / 48)) (sortBy id ts)).head?

/-- The copy of a page has ended: its home changes, and the tile forwards the requests that it has held, in the order of their arrival (R382). -/
def State.endTransit (s : State) (page home site : Nat) : State :=
  let held := s.packets.filter fun p => p.phase == 6 && p.dy * 48 + p.dx == site && (match p.pay with | .page _ _ q => q == page | _ => false)
  let s := { s with census := { s.census with
    pages := Store.set 0 s.census.pages page home
    transit := s.census.transit.filter fun t => t.1 != page } }
  held.foldl (fun s p => match p.pay, s.pageTile page with
    | .page .., some t =>
      let (dx, dy) := siteXY (s.tileMap t).site
      (s.movePacket p.id fun q => { q with phase := 0, dx := dx, dy := dy, vc := 0, gen := s.census.g }).post p.onward
    | .page core cmd _, none => (s.dropPacket p.id).reached core cmd
    | _, _ => s) s

/-- PAGE_EVACUATION: a leaving storage tile copies its lowest-numbered page to its new home, or ends that copy (R382). -/
def execPageEvacuation (tile : Nat) (s : State) : Out :=
  match (if (s.tileMap tile).toward.isSome then (s.pagesOf tile).head? else none) with
  | none => .next s
  | some page =>
    match s.census.transit.find? fun t => t.1 == page with
    | some (_, home) => .next ((s.endTransit page home (s.tileMap tile).site).post (.pageEvacuation tile))
    | none =>
      let home := match s.evacTo tile with
        | some u => u * 23 + (s.freeFrame u).getD 0 + 1
        | none => 0
      .next ({ s with census := { s.census with transit := s.census.transit ++ [(page, home)] } }.soon (.pageEvacuation tile))

/-- RELAY_DRAIN_DEADLINE: 4 us after the commit, the packets still in the relay store are injected again (R383). -/
def execRelayDrainDeadline (tile : Nat) (s : State) : Out :=
  let m := s.tileMap tile
  if m.toward = none then .next s
  else if s.ns < Store.get 0 s.census.annealing tile + 4000 then .next (s.soon (.relayDrainDeadline tile))
  else .next { s with packets := s.packets.map fun p => if p.vc = 100 ∧ p.phase = 0 ∧ p.y * 48 + p.x = m.site then { p with vc := 101 } else p }

/-- The leaving steps of a tile are over. -/
def State.left (s : State) (t : Nat) : Bool :=
  let m := s.tileMap t
  (tileCores m.site).all (fun n => (s.core n).run == .idle || (s.core n).run == .done) && (s.pagesOf t).isEmpty
    && !s.packets.any fun p => (p.vc == 100 || p.vc == 101) && p.phase == 0 && p.y * 48 + p.x == m.site

/-- ANNEAL_COMPLETE: all four ULMs are zeroed, and the tile's state becomes normal (R379, R380). -/
def execAnnealComplete (tile : Nat) (s : State) : Out :=
  let m := s.tileMap tile
  match m.toward with
  | none => .next s
  | some to_ =>
    if !s.left tile then .next (s.soon (.annealComplete tile))
    else
      let s := (tileCores m.site).foldl (fun s n => s.setCore n { party := (s.core n).party }) s
      let s := { s with census := { s.census with annealing := Store.set 0 s.census.annealing tile 0 } }
      .next (s.setTileMap tile { m with role := to_, toward := none })

/-! ### Leases (R375 to R378) -/

/-- An ASID's cap: the kernel may lower it, and 512 tiles is the most (R9, R375). -/
def Census.cap (c : Census) (asid : Nat) : Nat := Nat.min 512 (Store.get 512 c.caps asid)

/-- Tiles that an ASID holds by lease. -/
def Census.leased (c : Census) (asid : Nat) : Nat := ((c.leases.filter fun l => l.asid == asid).map fun l => l.count).sum

/-- The live lease of an ASID that a handle names. -/
def Census.lease? (c : Census) (asid handle : Nat) : Option Lease :=
  c.leases.find? fun l => l.asid == asid && l.slot == handle % 64 && Store.get 0 c.seqs (asid * 64 + l.slot) == handle / 64

/-- When the EXPIRING notice of a lease is due (R375). -/
def State.expiringAt (s : State) (first count expiry : Nat) : Nat :=
  let lead := (List.range count).foldl (fun n i => Nat.max n (s.census.lead (siteDie (s.tileMap (first + i)).site))) 0
  Nat.max s.ns (expiry - 100 * lead)

/-- A lease's slot is written, and its events become due. -/
def State.putLease (s : State) (l : Lease) : State :=
  let c := s.census
  (({ s with census := { c with leases := c.leases.filter (fun (k : Lease) => !(k.asid == l.asid && k.slot == l.slot)) ++ [l] } }.soon
    (.expiringNotice l.asid l.slot))).soon (.leaseExpiry l.asid l.slot)

/-- LEASE (R377): the handle, or a negative code. -/
def State.lease (s : State) (asid holder first count dur : Nat) : Int × State :=
  let s := s.lapse
  let c := s.census
  if count = 0 ∨ 64 < count ∨ 2304 < first + count ∨ dur = 0 ∨ 100000 < dur then (-22, s)
  else match (List.range 64).find? fun i => !c.leases.any fun l => l.asid == asid && l.slot == i with
    | none => (-23, s)
    | some slot =>
      if c.cap asid < c.leased asid + count then (-20, s)
      else
        let seq := (Store.get 0 c.seqs (asid * 64 + slot) + 1) % 256
        let expiry := s.ns + 1000 * dur
        let at_ := s.expiringAt first count expiry
        let s := s.putLease ⟨asid, slot, first, count, expiry, at_, holder, false⟩
        (seq * 64 + slot, { s with census := { s.census with
          seqs := Store.set 0 s.census.seqs (asid * 64 + slot) seq
          pending := s.census.pending.map fun r => if first ≤ r.tile ∧ r.tile < first + count then { r with cancelled := true } else r } })

/-- LEASE_R (R377). -/
def State.renew (s : State) (asid holder handle dur : Nat) : Int × State :=
  let s := s.lapse
  if dur = 0 ∨ 100000 < dur then (-22, s)
  else match s.census.lease? asid handle with
    | none => (-21, s)
    | some l =>
      let expiry := s.ns + 1000 * dur
      (handle, s.putLease { l with expiry := expiry, expiringAt := s.expiringAt l.first l.count expiry, holder := holder, sent := false })

/-- LDROP (R377). -/
def State.ldrop (s : State) (asid handle : Nat) : Int × State :=
  let s := s.lapse
  match s.census.lease? asid handle with
  | none => (-21, s)
  | some l => (l.count, { s with census := { s.census with leases := s.census.leases.filter fun k => k != l } })

/-- ROLEQ (R378). -/
def State.roleq (s : State) (asid sel operand : Nat) : Int :=
  let c := s.census
  match sel with
  | 0 =>
    let t := operand % 2 ^ 12
    if 2304 ≤ t then -22
    else
      let m := s.tileMap t
      let mine := c.leases.any fun l => l.asid == asid && l.covers t
      let any := (c.leases.any fun l => l.covers t) || s.implicit t
      let b := fun (x : Bool) (k : Nat) => if x then 2 ^ k else 0
      (BitVec.ofNat 64 (c.g.toNat * 2 ^ 48 + m.gen * 2 ^ 32 + m.site * 2 ^ 8 + b mine 7 + b any 6 + b (s.cautioned t) 5 + b m.toward.isSome 4
        + 4 * m.toward.getD 0 + m.role)).toInt
  | 1 => match c.lease? asid (operand % 2 ^ 14) with
    | none => -21
    | some l => (if l.sent then 2 ^ 44 else 0) + l.first * 2 ^ 32 + l.count * 2 ^ 24 + (l.expiry - s.ns) / 1000
  | 2 =>
    let ts := s.dieTiles (operand % 4)
    let n := fun r => ts.countP fun t => (s.tileMap t).toward.isNone && (s.tileMap t).role == r
    (ts.countP fun t => (s.tileMap t).toward.isSome) * 2 ^ 48 + n 2 * 2 ^ 32 + n 1 * 2 ^ 16 + n 0
  | _ => c.cap asid * 2 ^ 32 + (c.leases.countP fun l => l.asid == asid) * 2 ^ 16 + c.leased asid

/-- A lease word's token must be free before it can trap, as a member of a tournament must not issue one (R60, R376, R395). -/
def leaseFree (cx : Ctx) (d : BitVec 5) : CM Unit := do
  cmdRoom cx 0 false d 0
  forbidTourney

/-- A word that asks the census (R376). -/
def censusM (i : Instr) (d : BitVec 5) (op : CmdOp) (cx : Ctx) : DM Next := do
  let id ← startCmd cx i { tok := d, slot := false, op := op }
  postEvent (.censusRequest cx.core id)
  pure .seq

/-- LEASE. -/
def execLease (n : BitVec 3) (d x t : BitVec 5) : State → Out :=
  issue (.lease n d x t) fun cx => do
    let v ← onCore cx.core (rdX cx x)
    let w ← onCore cx.core (rdX cx t)
    onCore cx.core (leaseFree cx d)
    censusM (.lease n d x t) d (.lease (fieldOf v 0 12) (fieldOf v 16 7) (fieldOf w 0 17)) cx

/-- LEASE_R. -/
def execLeaseR (n : BitVec 3) (d h t : BitVec 5) : State → Out :=
  issue (.leaseR n d h t) fun cx => do
    let v ← onCore cx.core (rdX cx h)
    let w ← onCore cx.core (rdX cx t)
    onCore cx.core (leaseFree cx d)
    censusM (.leaseR n d h t) d (.leaseR (fieldOf v 0 14) (fieldOf w 0 17)) cx

/-- LDROP. -/
def execLdrop (n : BitVec 3) (d h : BitVec 5) : State → Out :=
  issue (.ldrop n d h) fun cx => do
    let v ← onCore cx.core (rdX cx h)
    onCore cx.core (leaseFree cx d)
    censusM (.ldrop n d h) d (.ldrop (fieldOf v 0 14)) cx

/-- ROLEQ. -/
def execRoleq (n : BitVec 3) (d x : BitVec 5) (c : BitVec 2) : State → Out :=
  issue (.roleq n d x c) fun cx => do
    let v ← onCore cx.core (rdX cx x)
    censusM (.roleq n d x c) d (.roleq c.toNat (fieldOf v 0 14)) cx

/-- CENSUS_REQUEST: the census answers a word (R377, R378). -/
def execCensusRequest (core id : Nat) (s : State) : Out :=
  let c := s.core core
  let asid := c.asid.toNat
  match c.cmd? id with
  | none => .next s
  | some k =>
    if !k.open_ then .next s
    else
      let ans : Option (Int × State) := match k.op with
        | .lease first count dur => some (s.lease asid (s.logicalOf core) first count dur)
        | .leaseR h dur => some (s.renew asid (s.logicalOf core) h dur)
        | .ldrop h => some (s.ldrop asid h)
        | .roleq sel x => some (s.lapse.roleq asid sel x, s.lapse)
        | _ => none
      match ans with
      | some (v, s) => .next (s.endCmdWith core id (BitVec.ofInt 64 v))
      | none => .next s

/-- LEASE_EXPIRY (R375). -/
def execLeaseExpiry (asid slot : Nat) (s : State) : Out :=
  let s := s.lapse
  .next (if s.census.leases.any fun l => l.asid == asid && l.slot == slot then s.soon (.leaseExpiry asid slot) else s)

/-- EXPIRING_NOTICE (R375). -/
def execExpiringNotice (asid slot : Nat) (s : State) : Out :=
  let s := s.lapse
  match s.census.leases.find? fun l => l.asid == asid && l.slot == slot with
  | none => .next s
  | some l =>
    if l.sent then .next s
    else if s.ns < l.expiringAt then .next (s.soon (.expiringNotice asid slot))
    else
      let h := Store.get 0 s.census.seqs (asid * 64 + slot) * 64 + slot
      let s := { s with census := { s.census with leases := s.census.leases.map fun k => if k = l then { k with sent := true } else k } }
      .next (s.notice (s.siteCore l.holder) (noticeWord 3 0 0 s.census.g.toNat 0 0 h))

end Sys2Proof.Machine
end

