-- ==== Sys2Proof/Machine/Matrix.lean ====
section
/-!
DEFINITION. The joint matrix array (R198 to R218): loads, multiplies, the row map and MST. A core's matrix words run in program order where
they touch the same latch or accumulator; the loader, the multiplier and the writer each take their own words in order.
-/

namespace Sys2Proof.Machine

/-! ### Latches (R198, R199) -/

/-- Bytes that a target holds (R202). -/
def capacity (target : Nat) : Nat :=
  if target < 2 then 768 else if target < 4 then 6144 else if target < 6 then 16 else if target < 8 then 64 else 512

/-- Byte b of a target. -/
def Matrix.lat (m : Matrix) (target b : Nat) : Byte :=
  let k := capacity target * (target % 2) + b
  match target / 2 with
  | 0 => Store.get 0 m.aLat k
  | 1 => Store.get 0 m.bLat k
  | 2 => Store.get 0x7F m.aScale k
  | 3 => Store.get 0x7F m.bScale k
  | _ => Store.get 0 m.metaLat k

/-- Write bytes of a target from byte b. -/
def Matrix.setLat (m : Matrix) (target b : Nat) (bs : List Byte) : Matrix :=
  let k := capacity target * (target % 2) + b
  match target / 2 with
  | 0 => { m with aLat := Store.setMany 0 m.aLat k bs }
  | 1 => { m with bLat := Store.setMany 0 m.bLat k bs }
  | 2 => { m with aScale := Store.setMany 0x7F m.aScale k bs }
  | 3 => { m with bScale := Store.setMany 0x7F m.bScale k bs }
  | _ => { m with metaLat := Store.setMany 0 m.metaLat k bs }

/-- A whole target at its empty contents: zero, or 0x7F for a scale array (R204). -/
def Matrix.clearLat (m : Matrix) (target : Nat) : Matrix :=
  let lo := capacity target * (target % 2)
  let hi := lo + capacity target
  match target / 2 with
  | 0 => { m with aLat := Store.clear m.aLat lo hi }
  | 1 => { m with bLat := Store.clear m.bLat lo hi }
  | 2 => { m with aScale := Store.clear m.aScale lo hi }
  | 3 => { m with bScale := Store.clear m.bScale lo hi }
  | _ => { m with metaLat := Store.clear m.metaLat lo hi }

/-- A load begins: its target is emptied, and for elements their scale array (R204). -/
def Matrix.beginLoad (m : Matrix) (target : Nat) : Matrix :=
  let m := m.clearLat target
  if target < 4 then m.clearLat (target + 4) else m

/-- Element i, of w bits, of a row of bytes read as a number. -/
def elemAt (row w i : Nat) : Nat := row / 2 ^ (w * i) % 2 ^ w

/-- Bytes of latch row r of a transposed load: element el is element r of source row el (R204). -/
def transposed (srcs : List Nat) (wbits r : Nat) : List Byte :=
  toBytes (srcs.length * wbits / 8) (srcs.foldr (fun s acc => elemAt s wbits r + 2 ^ wbits * acc) 0)

/-- A load from the bytes of its source rows (R204). -/
def Matrix.fill (m : Matrix) (target : Nat) (tr : Bool) (srcbytes wbits : Nat) (srcs : List (List Byte)) : Matrix :=
  let m := m.beginLoad target
  if tr then
    let ns := srcs.map leNat
    let w := srcs.length * wbits / 8
    (List.range (srcbytes * 8 / wbits)).foldl (fun m r => m.setLat target (r * w) (transposed ns wbits r)) m
  else (srcs.mapIdx fun r bs => (r, bs)).foldl (fun m p => m.setLat target (p.1 * srcbytes) p.2) m

/-- Put one element of w bits at a bit position of a target. -/
def Matrix.setElem (m : Matrix) (target pos w v : Nat) : Matrix :=
  if w = 4 then
    let old := (m.lat target (pos / 8)).toNat
    let new := if pos % 8 = 0 then old / 16 * 16 + v % 16 else old % 16 + 16 * (v % 16)
    m.setLat target (pos / 8) [BitVec.ofNat 8 new]
  else m.setLat target (pos / 8) (toBytes (w / 8) v)

/-- A piece of source row r, at byte off of it, arrives in a global stream (R204, R205). -/
def Matrix.streamPiece (m : Matrix) (target : Nat) (tr : Bool) (nsrc srcbytes wbits r off : Nat) (bs : List Byte) : Matrix :=
  if tr then
    let n := leNat bs
    let pitch := nsrc * wbits
    (List.range (bs.length * 8 / wbits)).foldl (fun m i =>
      m.setElem target ((off * 8 / wbits + i) * pitch + r * wbits) wbits (elemAt n wbits i)) m
  else m.setLat target (r * srcbytes + off) bs

/-! ### The queue (R200) -/

/-- The unit that runs a word: 0 the loader, 1 the multiplier, 2 the writer. -/
def MatWord.unit : MatWord → Nat
  | .mld .. => 0
  | .stream .. => 0
  | .mma .. => 1
  | .mzero .. => 1
  | .mst .. => 2

/-- A multiply reads a target. -/
def MatWord.reads : MatWord → Nat → Bool
  | .mma _ la _ lb _ sp _ joint, t =>
    t == la || t == 4 + la || (sp != 0 && t == 8 + la) || (joint.isNone && (t == 2 + lb || t == 6 + lb))
  | _, _ => false

/-- The accumulator that a word writes. -/
def MatWord.writesAcc : MatWord → Option Nat
  | .mma a .. => some a
  | .mzero a _ => some a
  | _ => none

/-- The accumulator that an MST reads. -/
def MatWord.readsAcc : MatWord → Option Nat
  | .mst _ a .. => some a
  | _ => none

/-- A later word must wait for an earlier one (R200). -/
def waitsFor (w : MatWord) (e : MatEntry) : Bool :=
  w.unit == e.word.unit
    || (match w.target? with | some t => e.word.reads t | none => false)
    || (match e.word.target? with | some t => w.reads t | none => false)
    || (match w.writesAcc, e.word.readsAcc with | some a, some b => a == b && !e.started | _, _ => false)
    || (match w.readsAcc, e.word.writesAcc with | some a, some b => a == b | _, _ => false)

/-- The first word of a unit, the entries before it, and those after it. -/
def headOf (u : Nat) : List MatEntry → Option (List MatEntry × MatEntry × List MatEntry)
  | [] => none
  | e :: r => if e.word.unit = u then some ([], e, r) else (headOf u r).map fun p => (e :: p.1, p.2)

/-- The first word of a unit, when it may run. -/
def Core.matHead (c : Core) (u : Nat) : Option (List MatEntry × MatEntry × List MatEntry) :=
  match headOf u c.mat.queue with
  | some (a, e, b) => if !e.started && a.any (fun f => waitsFor e.word f) then none else some (a, e, b)
  | none => none

/-- Put a queue. -/
def Core.setQueue (c : Core) (q : List MatEntry) : Core := { c with mat := { c.mat with queue := q } }

/-- A matrix word needs a place in the queue (R200). -/
def queueRoom : CM Unit := do
  let c ← get
  stallIf (decide (4 ≤ c.mat.queue.countP fun e => !e.started))

/-- A word enters the queue. -/
def pushMat (w : MatWord) (started : Bool) : CM Unit := modify fun c => c.setQueue (c.mat.queue ++ [⟨w, started⟩])

/-! ### MLD (R201 to R206) -/

/-- The shape of a load, after the checks of R204. -/
structure MldArgs where
  srcbytes : Nat
  wbits : Nat
  rows : List Nat
  deriving DecidableEq, Repr

/-- Source row addresses and the checks of R204. -/
def mldArgs (cx : Ctx) (l b : BitVec 5) (f : BitVec 2) (x : BitVec 1) (g : BitVec 4) : CM MldArgs := do
  let s ← rdX cx l
  let words := fieldOf s 42 5
  let wbytes := (if words = 0 then 32 else words) * 4
  let rows := fieldOf s 35 7
  let far ← if f = 3 then rdX cx b else pure 0
  let vec ← if f = 1 then rdV cx b else pure 0
  let c ← get
  let pm := c.points b.toNat
  let base := if f = 3 then vaOf far else fieldOf s 0 19
  let stride := if f = 3 then fieldOf s 0 35 else fieldOf s 20 15
  let at_ := BitVec.ofNat 64 base
  raiseIf (rows == 0 || decide (capacity g.toNat < rows * wbytes)) cAccess 7 0 0
  raiseIf ((f == 1 || f == 2) && decide (16 < rows)) cAccess 7 0 0
  let ew := fieldOf s 56 2
  raiseIf (x == 1 && ew == 3) cAccess 7 0 0
  let wbits := if x = 1 then 16 / 2 ^ ew else 8
  raiseIf (x == 1 && rows * wbits % 32 != 0) cAlign 0 at_ 0
  let nsrc := if x = 1 then wbytes * 8 / wbits else rows
  let srcbytes := if x = 1 then rows * wbits / 8 else wbytes
  let addrs := (List.range nsrc).map fun r =>
    base + (if f = 1 then lane 16 vec r else if f = 2 then pm.idx.getD ((fieldOf s 48 6 + r) % 64) 0 else r) * stride
  raiseIf (base % 4 != 0 || stride % 4 != 0 || addrs.any fun a => a % 4 != 0) cAlign 0 at_ 0
  match (if f = 3 then none else addrs.find? fun a => decide (Config.ulmBytes < a + srcbytes)) with
  | some a => raise cRange 0 (BitVec.ofNat 64 a) 0
  | none => pure ()
  raiseIf (f == 2 && !pm.valid) cPoints 2 0 (BitVec.ofNat 64 b.toNat)
  pure ⟨srcbytes, wbits, addrs⟩

/-- The lowest address of a list of rows, and the end of the highest. -/
def hullOf (rows : List Nat) (n : Nat) : Nat × Nat := (rows.foldl Nat.min (rows.headD 0), rows.foldl Nat.max 0 + n)

/-- The range of a list of rows; none for no row. -/
def hullOf? (rows : List Nat) (n : Nat) : Option (Nat × Nat) := if rows.isEmpty then none else some (hullOf rows n)

/-- MLD (R201 to R205). -/
def execMld (n : BitVec 3) (t l b : BitVec 5) (f : BitVec 2) (x : BitVec 1) (g : BitVec 4) : State → Out :=
  issue (.mld n t l b f x g) fun cx => do
    let a ← onCore cx.core do
      queueRoom
      if f = 3 then cmdRoom cx clCR true t 0 else cmdRoom cx 0 false 0 1
      mldArgs cx l b f x g
    let tr := x == 1
    if f = 3 then do
      let r ← onCore cx.core (rdX cx b)
      let s ← onCore cx.core (rdX cx l)
      let id ← startCmd cx (.mld n t l b f x g) {
        tok := t
        op := .mldStream g.toNat a.rows.length a.srcbytes (vaOf r) (fieldOf s 0 35) tr a.wbits }
      onCore cx.core (pushMat (.stream id g.toNat) false)
    else do
      let id ← startCmd cx (.mld n t l b f x g) { tok := 0, slot := false, op := .mldUlm, rd := some (hullOf a.rows a.srcbytes) }
      onCore cx.core (pushMat (.mld id g.toNat tr a.srcbytes a.wbits a.rows) false)
    onCore cx.core (modify fun c => c.setLatch g.toNat 2)
    postEvent (.mldFill cx.core)
    pure .seq

/-- A command without a token is done. -/
def Core.dropCmd (c : Core) (id : Nat) : Core := { c with cmds := c.cmds.filter fun k => k.id != id }

/-- MLD_FILL: the loader takes its next word: it fills a latch from ULM, or begins a global stream (R200, R204, R205). -/
def execMldFill (core : Nat) (s : State) : Out :=
  let c := s.core core
  match c.matHead 0 with
  | none => .next s
  | some (before, e, after) =>
    if e.started then .next s
    else match e.word with
      | .mld id target tr srcbytes wbits rows =>
        if rows.any fun a => c.engineBlocked id a srcbytes false then .next (s.soon (.mldFill core))
        else
          let c0 := (c.setQueue (before ++ after)).dropCmd id
          match rows.findSome? fun a => c.ulmError a srcbytes with
          | some (cause, a) =>
            let at_ := match c.cmd? id with | some k => k.at_ | none => 0
            let trap : StatusTrap := { cause := cause, sub := 0, addr := BitVec.ofNat 64 a, info := 0, word := at_, since := s.cycle }
            .next ((s.setCore core ((c0.endLoad target false).modSeq .e fun q => { q with due := q.due ++ [trap] })).kickMat core)
          | none =>
            let m := c0.mat.fill target tr srcbytes wbits (rows.map fun a => c.ulmBytes a srcbytes)
            .next ((s.setCore core ({ c0 with mat := m }.endLoad target true)).kickMat core)
      | .stream id target =>
        let va := match c.cmd? id with | some k => (match k.op with | .mldStream _ _ _ va .. => va | _ => 0) | none => 0
        let c := c.setQueue (before ++ ⟨e.word, true⟩ :: after)
        .next ((s.setCore core { c with mat := { c.mat.beginLoad target with mgsr := mgsrOf 0 va } }).post (.translationRequest core id))
      | _ => .next s

/-- GLOBAL_STREAM_ROW: the next piece of a source row arrives; after its last row the load is done (R205). -/
def execGlobalStreamRow (core id : Nat) (s : State) : Out :=
  match (s.core core).cmd? id with
  | none => .next s
  | some k =>
    match k.op, k.xl with
    | .mldStream target nsrc srcbytes va stride tr wbits, some (loc, _) =>
      let (off, n) := chunkOf (va + k.row * stride) srcbytes k.gran
      if !k.open_ then .next s
      else match s.accessWaits core k with
      | some s => .next s
      | none =>
      if s.accessFails core loc n ≠ 0 then .next (s.endCmd core id (s.accessFails core loc n) 0 (va + k.row * stride))
      else
        let (bs, s) := s.readHome core loc n
        let more := decide (off + n < srcbytes)
        let row := if more then k.row else k.row + 1
        -- a transposed load has written a latch row only once its last source row is there
        let done := if !tr then row else if row < nsrc then 0 else srcbytes * 8 / wbits
        let s := s.modCore core fun c =>
          let m := c.mat.streamPiece target tr nsrc srcbytes wbits k.row off bs
          { c with mat := { m with mgsr := mgsrOf done (va + row * stride) } }
        if row < nsrc then
          .next ((s.modCmd core id fun k => { k with row := row, gran := if more then k.gran + 1 else 0, xl := none }).post (.translationRequest core id))
        else .next (s.endCmd core id 0 0 0)
    | _, _ => .next s

/-! ### Multiplying (R207 to R211) -/

/-- The formats of R208. -/
def matFmt (code : Nat) : Conv :=
  match code with
  | 0 => .flt .bf16
  | 1 => .flt .f16
  | 2 => .flt .e4m3
  | 3 => .flt .e5m2
  | 4 => .flt .e3m2
  | 5 => .flt .e2m3
  | 6 => .int true 8
  | _ => .flt .e2m1

/-- Width of a format code (R208). -/
def codeWidth (code : Nat) : Nat := if code < 2 then 16 else if code < 7 then 8 else 4

/-- A block scale as a factor (R113); 0xFF makes every product a NaN (R209). -/
def scaled (sc : Byte) (v : Val) : Val :=
  if sc = 0xFF then .nan false
  else match v with
    | .fin s n d => let r := scaleNat 1 ((sc.toNat : Int) - 127); .fin s (n * r.1) (d * r.2)
    | v => v

/-- Element i, of w bits, of the packed row at byte base, as lat reads it. -/
def packedElem (lat : Nat → Byte) (base w i : Nat) : Nat :=
  let b := base + i * w / 8
  if w = 16 then (lat b).toNat + 256 * (lat (b + 1)).toNat
  else if w = 8 then (lat b).toNat
  else (lat b).toNat / 16 ^ (i % 2) % 16

/-- The metadata word of group j of a row (R210). -/
def Matrix.metaWord (m : Matrix) (la g row j : Nat) : Nat := leNat ((List.range 8).map fun i => m.lat (8 + la) ((row * g + j) * 8 + i))

/-- A metadata word is well formed for N kept elements (R123). -/
def metaOk (keep w : Nat) : Bool := w / 2 ^ 48 == 0 && (List.range 48).countP (fun i => w.testBit i) == keep

/-- The elements of a row of A: kept ones at the positions of their mask, an exact +0 elsewhere (R210); n is the next packed element. -/
def expand (vals : Nat → Val) : List Bool → Nat → List Val
  | [], _ => []
  | true :: r, n => vals n :: expand vals r (n + 1)
  | false :: r, n => .fin false 0 1 :: expand vals r n

/-- A row of the A operand, with its scale (R209, R210). -/
def Matrix.aRow (m : Matrix) (la afmt sparse row : Nat) : List Val :=
  let w := codeWidth afmt
  let g := 16 / w
  let pitch := if sparse = 0 then 32 else sparse * g * w / 8
  let val := fun i => scaled (m.lat (4 + la) row) ((matFmt afmt).value 0 (packedElem (m.lat la) (row * pitch) w i))
  if sparse = 0 then (List.range (256 / w)).map val
  else expand val ((List.range g).map fun j => (List.range 48).map fun i => (m.metaWord la g row j).testBit i).flatten 0

/-- A column of the B operand, with its scale (R209): k rows. -/
def bCol (lat scale : Nat → Byte) (bfmt k col : Nat) : List Val :=
  let w := codeWidth bfmt
  (List.range k).map fun kk => scaled (scale col) ((matFmt bfmt).value 0 (packedElem lat (kk * (8 * w)) w col))

/-- The exact sum of the products of one group (R124). -/
def groupSum : List (Val × Val) → Val
  | [] => .fin false 0 1
  | p :: r => r.foldl (fun s q => (Val.add false s (q.1.mul q.2).1).1) (p.1.mul p.2).1

/-- Accumulate groups of n products, one rounding each (R124). -/
def accumulate (n : Nat) : Nat → Nat → List (Val × Val) → Nat
  | 0, acc, _ => acc
  | k + 1, acc, ps => accumulate n k (Fmt.f32.round (Val.add false (Fmt.f32.decode acc) (groupSum (ps.take n))).1 .rne false 0).1 (ps.drop n)

/-- The index of an accumulator's element. -/
def accIdx (acc row col : Nat) : Nat := acc * 1024 + row * 64 + col

/-- An edge mask selects an element (R209). -/
def edge (k : Mask) (row col : Nat) : Bool := k.getLsbD col && k.getLsbD (64 + row)

/-- Update the elements that a mask selects. -/
def Matrix.mapAcc (m : Matrix) (acc : Nat) (k : Mask) (f : Nat → Nat → Nat → Nat) : Matrix :=
  { m with acc := (List.range 1024).foldl (fun st i =>
    if edge k (i / 64) (i % 64) then Store.modify 0 st (acc * 1024 + i) (fun v => BitVec.ofNat 32 (f (i / 64) (i % 64) v.toNat)) else st) m.acc }

/-- A multiply (R209, R210). -/
def Matrix.multiply (m : Matrix) (acc la afmt lb bfmt sparse : Nat) (k : Mask) (joint : Option (Store Byte × Store Byte)) : Matrix :=
  let w := codeWidth afmt
  let deep := if sparse = 0 then 256 / w else 48 * (16 / w)
  let src : Matrix := match joint with
    | some (b, sc) => { m with bLat := b, bScale := sc }
    | none => m
  let rows := (List.range 16).map fun r => m.aRow la afmt sparse r
  let cols := (List.range 64).map fun c => bCol (src.lat (2 + lb)) (src.lat (6 + lb)) bfmt deep c
  m.mapAcc acc k fun r c v => accumulate (64 / w) (deep * w / 64) v ((rows.getD r []).zip (cols.getD c []))

/-- A multiply reads latches: it waits while one of them is pending, and traps when one is void (R60, R200). -/
def latchesReady (targets : List Nat) : CM Unit := do
  let c ← get
  let st := fun t => Store.get 0 c.mat.latch (latchOf t)
  stallIf (targets.any fun t => st t == 2)
  raiseIf (targets.any fun t => st t == 3) cAccess 6 0 0

/-- A word that reads an accumulator traps on a multi-bit error in it (R94). -/
def accGood (acc : Nat) : CM Unit := do
  let c ← get
  raiseIf (c.regBad.contains (badKey .e (1100 + acc))) cUncorrectable 0 0 0

/-- MMA and MMAS issue; sparse is N, or 0 for a dense operand (R207 to R210). -/
def mmaM (c : BitVec 5) (a : BitVec 1) (f : BitVec 4) (b : BitVec 1) (g : BitVec 4) (k : BitVec 3) (sparse : Nat) (cx : Ctx) : DM Next := do
  onCore cx.core do
    let mask ← rdK cx k.toNat
    queueRoom
    latchesReady ([a.toNat, 4 + a.toNat, 2 + b.toNat, 6 + b.toNat] ++ if sparse = 0 then [] else [8 + a.toNat])
    accGood c.toNat
    if sparse = 0 then pure ()
    else do
      let core ← get
      let gr := 16 / codeWidth f.toNat
      raiseIf ((List.range 16).any fun r => (List.range gr).any fun j => !metaOk sparse (core.mat.metaWord a.toNat gr r j)) cAccess 5 0 0
    pushMat (.mma c.toNat a.toNat f.toNat b.toNat g.toNat sparse mask none) false
  postEvent (.multiplyStart cx.core)
  pure .seq

/-- MMA. -/
def execMma (n : BitVec 3) (c : BitVec 5) (a : BitVec 1) (f : BitVec 4) (b : BitVec 1) (g : BitVec 4) (k : BitVec 3) : State → Out :=
  issue (.mma n c a f b g k) (mmaM c a f b g k 0)

/-- MMAS: N is 24 for fn 1 and 12 for fn 2. -/
def execMmas (n : BitVec 3) (c : BitVec 5) (a : BitVec 1) (f : BitVec 4) (b : BitVec 1) (g : BitVec 4) (k : BitVec 3) (x : BitVec 2) : State → Out :=
  issue (.mmas n c a f b g k x) (mmaM c a f b g k (if x = 1 then 24 else 12))

/-- MZERO (R209). -/
def execMzero (n : BitVec 3) (c : BitVec 5) (k : BitVec 3) : State → Out :=
  issue (.mzero n c k) fun cx => do
    onCore cx.core do
      let mask ← rdK cx k.toNat
      queueRoom
      pushMat (.mzero c.toNat mask) false
    postEvent (.multiplyStart cx.core)
    pure .seq

/-- MULTIPLY_START (R200). -/
def execMultiplyStart (core : Nat) (s : State) : Out :=
  let c := s.core core
  match c.matHead 1 with
  | some (before, e, after) =>
    if e.started then .next s
    else .next ((s.setCore core (c.setQueue (before ++ ⟨e.word, true⟩ :: after))).post (.multiplyComplete core))
  | none => .next s

/-- MULTIPLY_COMPLETE (R209, R210). -/
def execMultiplyComplete (core : Nat) (s : State) : Out :=
  let c := s.core core
  match c.matHead 1 with
  | some (before, e, after) =>
    if !e.started then .next s
    else
      let m := match e.word with
        | .mma acc la afmt lb bfmt sp k joint => c.mat.multiply acc la afmt lb bfmt sp k joint
        | .mzero acc k => c.mat.mapAcc acc k fun _ _ _ => 0
        | _ => c.mat
      let healed := match e.word with
        | .mzero acc k => if k = BitVec.allOnes 128 then [badKey .e (1100 + acc)] else []
        | _ => []
      .next ((s.setCore core { c with
        mat := { m with queue := before ++ after }
        regBad := c.regBad.filter fun k => !healed.contains k }).kickMat core)
  | none => .next s

/-! ### MMAJ (R211) -/

/-- The joins of a tile that wait. -/
def State.joins (s : State) (tile : Nat) : List (Nat × JoinWait) :=
  (tileCores tile).filterMap fun n => match (s.core n).join with
    | some j => if j.result.isNone then some (n, j) else none
    | none => none

/-- Some core of the tile is absent: idle, or in another ASID (R164, R211). -/
def State.partnerAbsent (s : State) (tile : Nat) (asid : BitVec 12) : Bool := (tileCores tile).any fun m => (s.core m).absent asid

/-- MMAJ: the first of a join traps when a partner is absent; otherwise it waits until the tile's four cores have joined, and is no safe point
meanwhile (R211). -/
def execMmaj (n : BitVec 3) (c : BitVec 5) (a : BitVec 1) (f : BitVec 4) (b : BitVec 1) (g : BitVec 4) (k : BitVec 3) (x : BitVec 2) : State → Out :=
  issue (.mmaj n c a f b g k x) fun cx => do
    let core ← onCore cx.core get
    match core.join with
    | some j =>
      match j.result with
      | none => pure .run
      | some none => do
        onCore cx.core (modify fun c => { c with join := none })
        postEvent (.multiplyStart cx.core)
        pure .seq
      | some (some sub) => onCore cx.core (raise cJoin sub 0 0)
    | none => do
      let s ← get
      onCore cx.core do
        let mask ← rdK cx k.toNat
        queueRoom
        latchesReady ([a.toNat, 4 + a.toNat] ++ if x.toNat = cx.core % 4 then [2 + b.toNat, 6 + b.toNat] else [])
        accGood c.toNat
        raiseIf ((s.joins (siteOf cx.core)).isEmpty && s.partnerAbsent (siteOf cx.core) core.asid) cJoin 1 0 0
        modify fun k => { k with join := some ⟨x.toNat, c.toNat, a.toNat, f.toNat, b.toNat, g.toNat, mask, s.cycle, none⟩ }
      postEvent (.mmajJoin (siteOf cx.core))
      postEvent (.mmajJoinTimeout (siteOf cx.core))
      pure .run

/-- Give waiting joins their result. -/
def State.setJoins (s : State) (js : List (Nat × JoinWait)) (r : Option Nat) : State :=
  js.foldl (fun s p => s.modCore p.1 fun c => { c with join := some { p.2 with result := some r } }) s

/-- The four words of a join do not fit together (R211). -/
def joinMismatch (js : List (Nat × JoinWait)) : Bool :=
  match js with
  | [] => false
  | (_, j) :: _ => js.any fun p => p.2.src != j.src || p.2.lb != j.lb || p.2.bfmt != j.bfmt || codeWidth p.2.afmt != codeWidth p.2.bfmt

/-- A joined core's part of the multiply enters its queue, with the B operand of the source core (R211). -/
def State.joinMultiply (s : State) (joint : Store Byte × Store Byte) (p : Nat × JoinWait) : State :=
  (s.modCore p.1 fun c =>
    c.setQueue (c.mat.queue ++ [⟨.mma p.2.acc p.2.la p.2.afmt p.2.lb p.2.bfmt 0 p.2.mask (some joint), false⟩])).post (.multiplyStart p.1)

/-- MMAJ_JOIN: once the four have issued, they start together or do not match (R211). -/
def execMmajJoin (tile : Nat) (s : State) : Out :=
  let js := s.joins tile
  match js with
  | (_, j) :: _ =>
    if js.length < 4 then .next s
    else if joinMismatch js then .next (s.setJoins js (some 2))
    else
      let src := s.core (4 * tile + j.src)
      if src.mat.queue.any fun e => match e.word.target? with | some t => t == 2 + j.lb || t == 6 + j.lb | none => false then
        .next (s.postpone (.mmajJoin tile))
      else .next (js.foldl (fun s p => s.joinMultiply (src.mat.bLat, src.mat.bScale) p) (s.setJoins js none))
  | [] => .next s

/-- MMAJ_JOIN_TIMEOUT (R211). -/
def execMmajJoinTimeout (tile : Nat) (s : State) : Out :=
  let js := s.joins tile
  match js with
  | [] => .next s
  | (_, j) :: r =>
    let first := r.foldl (fun m p => Nat.min m p.2.since) j.since
    if s.cycle < first + Config.joinCycles ∨ js.length = 4 then .next (s.soon (.mmajJoinTimeout tile)) else .next (s.setJoins js (some 0))

/-! ### MMAP and MST (R214 to R217) -/

/-- MMAP: entry i of the row map becomes lane i, after every earlier MST has captured the map at its issue (R214). -/
def execMmap (n : BitVec 3) (x : BitVec 5) : State → Out :=
  issueU (.mmap n x) fun cx => do
    let v ← rdV cx x
    queueRoom
    modify fun c => { c with mat := { c.mat with
      rowmap := (List.range 64).foldl (fun m i => Store.set 0xC000 m i (BitVec.ofNat 16 (lane 16 v i))) c.mat.rowmap } }

/-- Where a row goes under a map: nowhere, to the core itself, or to a core by number (R214). -/
def rowDest (map : Store (BitVec 16)) (me rowbase row : Nat) : Option (Option Nat) :=
  let e := Store.get 0xC000 map ((rowbase + row) % 64)
  if !e.getLsbD 15 then none
  else
    let core := e.toNat % 2 ^ 14
    if e.getLsbD 14 || core == me then some none else some (some core)

/-- The format of an MST (R214). -/
def mstFmt (f : Nat) : Conv :=
  match f with
  | 0 => .flt .f32
  | 1 => .flt .bf16
  | 2 => .flt .f16
  | 3 => .flt .e4m3
  | 4 => .flt .e5m2
  | _ => .int true 8

/-- Element bytes of an MST's format. -/
def mstBytes (f : Nat) : Nat := if f = 0 then 4 else if f < 3 then 2 else 1

/-- An accumulator converted, row by row, with the flags of all 1,024 elements (R216). -/
def Matrix.convert (m : Matrix) (acc fmt cols : Nat) (rm : Rm) (sub : Nat) (sat : Bool) (draws : List (BitVec 32)) : List (List Byte) × BitVec 5 :=
  let es := ((List.range 1024).zip draws).map fun p =>
    (mstFmt fmt).convert sub ((Conv.flt .f32).value sub (Store.get 0 m.acc (acc * 1024 + p.1)).toNat) rm sat p.2
  let rows := (List.range 16).map fun r =>
    (((es.drop (64 * r)).take cols).map fun e => toBytes (mstBytes fmt) e.1).flatten
  (rows, es.foldl (fun a e => a ||| e.2) 0)

/-- The code of the mode in force, as FPCTL.rm codes it. -/
def Ctx.modeOf (x : Ctx) : Nat := x.rm.getD (x.fpctl.extractLsb' 0 3).toNat

/-- Addresses of the rows from a row on that a core sends to itself (R216). -/
def ownRows (map : Store (BitVec 16)) (me rowbase addr stride row : Nat) : List Nat :=
  ((List.range 16).filter fun r => decide (row ≤ r) && rowDest map me rowbase r == some none).map fun r => addr + r * stride

/-- MST (R214 to R217). A count of columns beyond 64, of which the spec says nothing, is taken as 64 (DESIGN CHOICE). -/
def execMst (n : BitVec 3) (t l b : BitVec 5) (c : BitVec 2) (f : BitVec 4) : State → Out :=
  issue (.mst n t l b c f) fun cx => do
    let x ← onCore cx.core (rdX cx l)
    let y ← onCore cx.core (rdX cx b)
    let addr := fieldOf x 0 19
    let stride := fieldOf x 20 15
    let cols := if fieldOf y 16 7 = 0 then 64 else Nat.min 64 (fieldOf y 16 7)
    let esz := mstBytes f.toNat
    let rb := cols * esz
    let base := fieldOf y 0 6
    let post := if y.getLsbD 11 then some (fieldOf y 8 3) else none
    let s ← get
    let me := s.logicalOf cx.core
    let map := (s.core cx.core).mat.rowmap
    let own := ownRows map me base addr stride 0
    let careful := fpEnables cx.fpctl != 0
    let draws ← onCore cx.core do
      queueRoom
      cmdRoom cx clMW true t (if own.isEmpty then 0 else 1)
      if careful then do
        fpBegin cx
        let core ← get
        stallIf (core.mat.queue.any fun e => e.word.writesAcc == some c.toNat)
      else pure ()
      let draws ← drawsM cx 1024
      accGood c.toNat
      raiseIf (addr % esz != 0 || stride % esz != 0) cAlign 0 (BitVec.ofNat 64 addr) 0
      raiseIf (decide (Config.ulmBytes < addr + 15 * stride + rb)) cRange 0 (BitVec.ofNat 64 addr) 0
      pure draws
    let core ← onCore cx.core get
    let early ← if careful then onCore cx.core do
        let r := core.mat.convert c.toNat f.toNat cols cx.mode (fpSub cx.fpctl) cx.sat draws
        fpEnd cx r.2
        pure r.1
      else pure []
    let id ← startCmd cx (.mst n t l b c f) { tok := t, op := .mst, wr := hullOf? own rb }
    onCore cx.core (pushMat (.mst id c.toNat f.toNat addr stride cols base post map cx.modeOf (fpSub cx.fpctl) cx.sat draws early 0) careful)
    let sent := (List.range 16).countP fun r => (rowDest map me base r).isSome
    let s ← get
    set ((s.modCmd cx.core id fun k => { k with waitFor := sent }).post (.mstRowSend cx.core))
    pure .seq

/-- An MST takes its next row in hand, or leaves the queue after its last. -/
def State.mstNext (s : State) (core id : Nat) (before after : List MatEntry) (w : MatWord) : State :=
  match w with
  | .mst i acc fmt addr stride cols base post map rm sub sat draws rows row =>
    if row < 15 then
      -- the rows that have left release their bytes, in ascending order (R247)
      let left := hullOf? (ownRows map (s.logicalOf core) base addr stride (row + 1)) (cols * mstBytes fmt)
      (s.modCore core fun c =>
        (c.setQueue (before ++ ⟨.mst i acc fmt addr stride cols base post map rm sub sat draws rows (row + 1), true⟩ :: after)).modCmd id fun k =>
          { k with wr := k.wr.map fun _ => left.getD (0, 0) }).post (.mstRowSend core)
    else
      let s := (s.modCore core fun c => (c.setQueue (before ++ after)).modCmd id fun k => { k with wr := k.wr.map fun _ => (0, 0) }).kickMat core
      match (s.core core).cmd? id with
      | some k => if k.waitFor = 0 ∧ k.status.isNone then s.endCmd core id 0 0 0 else s
      | none => s
  | _ => s

/-- MST_ROW_SEND: the writer reads and converts an accumulator, and then sends one row at a time (R200, R216). -/
def execMstRowSend (core : Nat) (s : State) : Out :=
  let c := s.core core
  match c.matHead 2 with
  | none => .next s
  | some (before, e, after) =>
    match e.word with
    | .mst id acc fmt addr stride cols base post map rm sub sat draws rows row =>
      if !e.started then
        let r := c.mat.convert acc fmt cols (Rm.ofCode rm) sub sat draws
        let w := MatWord.mst id acc fmt addr stride cols base post map rm sub sat [] r.1 0
        .next ((s.setCore core ((c.orFlags r.2 s.cycle).setQueue (before ++ ⟨w, true⟩ :: after))).kickMat core)
      else
        let a := addr + row * stride
        let bs := rows.getD row []
        match rowDest map (s.logicalOf core) base row with
        | none => .next (s.mstNext core id before after e.word)
        | some none =>
          if c.engineBlocked id a bs.length true then .next (s.soon (.mstRowSend core))
          else
            let r := landRemote s core a bs
            let s := if r.1 = 0 then postArrival r.2 core post else r.2
            .next ((s.mstNext core id before after e.word).ack core id row r.1 (s.logicalOf core) a)
        | some (some dst) =>
          .next ((s.mstNext core id before after e.word).remoteWrite ⟨core, dst, c.asid, true, 0, .write 1 a bs post, id, row⟩)
    | _ => .next s

/-! ### ROT (R162 to R164) -/

/-- ROT. -/
def execRot (n : BitVec 3) (t a l : BitVec 5) (d : BitVec 2) : State → Out :=
  issue (.rot n t a l d) fun cx => do
    let x ← onCore cx.core (rdX cx a)
    let y ← onCore cx.core (rdX cx l)
    onCore cx.core do
      raiseIf (x.toNat % 128 != 0 || y.toNat % 128 != 0 || y == 0) cAlign 0 x 0
      raiseIf (decide (Config.ulmBytes < x.toNat + y.toNat)) cRange 0 x 0
    let _ ← startCmd cx (.rot n t a l d) { tok := t, op := .rot x.toNat y.toNat d.toNat cx.cycle, wr := some (x.toNat, x.toNat + y.toNat) }
    let s ← get
    let tile := siteOf cx.core
    set ((s.soon (.rotJoin tile)).soon (.rotJoinTimeout tile))
    pure .seq

/-- The oldest ROT of each core that has one: core, command, address, length, distance. -/
def State.rots (s : State) (tile : Nat) : List (Nat × Nat × Nat × Nat × Nat) :=
  (tileCores tile).filterMap fun n => (s.core n).cmds.findSome? fun k => match k.op with
    | .rot a len d _ => if k.open_ then some (n, k.id, a, len, d) else none
    | _ => none

/-- The cycle in which the first ROT of the join that waits was issued (R164). -/
def State.rotSince (s : State) (tile : Nat) : Option Nat :=
  (tileCores tile).foldl (fun m n => match (s.core n).cmds.findSome? fun k => match k.op with
      | .rot _ _ _ t => if k.open_ then some t else none
      | _ => none with
    | some t => some (match m with | some u => Nat.min u t | none => t)
    | none => m) none

/-- A join has ended with a status; the next one begins if a core has another ROT. -/
def State.endRots (s : State) (tile : Nat) (rs : List (Nat × Nat × Nat × Nat × Nat)) (st : Int) (who addr : Nat) : State :=
  let s := rs.foldl (fun s r => s.endCmd r.1 r.2.1 st who addr) s
  if (s.rots tile).isEmpty then s else (s.soon (.rotJoin tile)).soon (.rotJoinTimeout tile)

/-- ROT_JOIN: a partner is absent, the four do not match, a granule fails, or the regions move on (R164). -/
def execRotJoin (tile : Nat) (s : State) : Out :=
  match s.rots tile with
  | [] => .next s
  | (n, id, a, len, d) :: rest =>
    let rs := (n, id, a, len, d) :: rest
    if (tileCores tile).any fun m => (s.core m).absent (s.core n).asid then .next (s.endRots tile rs (-16) 0 0)
    else if rs.length < 4 then .next (s.soon (.rotJoin tile))
    else if rest.any fun r => r.2.2.2.1 != len || r.2.2.2.2 != d then .next (s.endRots tile rs (-17) 0 0)
    else if rs.any fun r => (s.core r.1).engineBlocked r.2.1 r.2.2.1 len true then .next (s.soon (.rotJoin tile))
    else match rs.findSome? fun r => ((s.core r.1).ulmError r.2.2.1 len).map fun e => (r.1, e) with
      | some (m, cause, b) => .next (s.endRots tile rs (errorStatus cause) (s.logicalOf m) b)
      | none =>
        let old := rs.map fun r => (s.core r.1).ulmBytes r.2.2.1 len
        let s := rs.foldl (fun s r => s.modCore r.1 fun c => c.landUlm r.2.2.1 (old.getD ((r.1 + 4 - d) % 4) [])) s
        .next (s.endRots tile rs 0 0 0)

/-- ROT_JOIN_TIMEOUT (R164). -/
def execRotJoinTimeout (tile : Nat) (s : State) : Out :=
  match s.rotSince tile with
  | none => .next s
  | some t =>
    let rs := s.rots tile
    if s.cycle < t + Config.joinCycles ∨ rs.length = 4 then .next (s.soon (.rotJoinTimeout tile))
    else .next (s.endRots tile rs (-15) 0 0)

end Sys2Proof.Machine
end

