-- ==== Sys2Proof/Machine/Loader.lean ====
section
/-!
DEFINITION. The loader's reading of an object (R37 to R40) and the finaliser of the portable form (R55 to R59).
What an object holds is read through the ASID's own address space at the time of the launch.
-/

namespace Sys2Proof.Machine

/-! ### Reads of the device on behalf of a packet -/

/-- Why an object is rejected (R40, R58), or a launch that names a sound object (R424). -/
inductive Reject where
  /-- the magic or the form is unknown -/
  | magic
  /-- a reserved field is not zero -/
  | reserved
  /-- an offset lies outside the file or outside its section -/
  | offset
  /-- a relocation's type or target is not one of R39's -/
  | relocation
  /-- the sections do not fit -/
  | fit
  /-- a record's field has a value that R38 does not give it, or a procedure lacks a stream or its main entry -/
  | record
  /-- a portable record has an invalid rkind or a non-zero reserved bit -/
  | rkind
  /-- a portable record that attaches has no INSN after it -/
  | noInsn
  /-- a label is defined twice, or used and not defined -/
  | label
  /-- a TGT offset out of range -/
  | target
  /-- an attached record that R48 does not admit -/
  | hint
  /-- an INSN that would raise ILLEGAL_INSTRUCTION -/
  | illegal
  /-- the tracks and cycles break the rules of R308 and R312 -/
  | timetable
  /-- the launch itself cannot be -/
  | launch
  deriving DecidableEq, Repr

/-- The reason as the report to the kernel's loading service carries it (the numbers are the model's own); 0 for a launch. -/
def Reject.code : Reject → Nat
  | .launch => 0
  | .magic => 1
  | .reserved => 2
  | .offset => 3
  | .relocation => 4
  | .fit => 5
  | .record => 6
  | .rkind => 7
  | .noInsn => 8
  | .label => 9
  | .target => 10
  | .hint => 11
  | .illegal => 12
  | .timetable => 13

/-- Why the device's own work on a packet stops: the packet is malformed or rejected (R420), a page fault (R266), an uncorrectable error, or for a
time a page in transit (R382). -/
inductive LoadErr where
  | malformed
  | reject (why : Reject)
  | fault (va kind : Nat) (f : WalkFault)
  | broken
  | transit
  deriving DecidableEq, Repr

/-- n bytes of an ASID's memory as an acquire at SYSTEM scope by a kernel hart reads them (R275, R419). -/
def State.readFor (s : State) (asid va : Nat) : Nat → Except LoadErr (List Byte)
  | 0 => .ok []
  | n + 1 =>
    match s.place asid va ⟨0, false⟩ with
    | .error f => .error (.fault va 0 f)
    | .ok loc =>
      if s.heldLoc loc then .error .transit
      else if s.poisoned loc 1 then .error .broken
      else match s.readFor asid (va + 1) n with
        | .ok r => .ok (s.deviceByte loc :: r)
        | .error e => .error e

/-- The homes of n bytes that the device is to write (kind 1), or to read and write (kind 2). -/
def State.placesFor (s : State) (asid va kind : Nat) : Nat → Except LoadErr (List Nat)
  | 0 => .ok []
  | n + 1 =>
    match s.place asid va ⟨kind, false⟩ with
    | .error f => .error (.fault va kind f)
    | .ok loc =>
      if s.heldLoc loc then .error .transit
      else match s.placesFor asid (va + 1) kind n with
        | .ok r => .ok (loc :: r)
        | .error e => .error e

/-- A little-endian field of a record. -/
def fieldAt (bs : List Byte) (off n : Nat) : Nat := leNat ((bs.drop off).take n)

/-- Rejection unless b holds. -/
def need (b : Bool) (why : Reject := .launch) : Except LoadErr Unit := if b then .ok () else .error (.reject why)

/-- A rejection of an object stops the work on its packet. -/
def rejecting {α : Type} : Except Reject α → Except LoadErr α
  | .ok a => .ok a
  | .error w => .error (.reject w)

/-! ### Objects (R37 to R39) -/

/-- The header and its records are read at an offset of the file, which must not pass the end of the address space (R37, R40). -/
def State.fileBytes (s : State) (asid va off n : Nat) : Except LoadErr (List Byte) :=
  if 2 ^ 52 < va + off + n then .error (.reject .offset) else s.readFor asid (va + off) n

/-- The records of one kind. -/
def recsOf (bs : List Byte) (size : Nat) : List (List Byte) := (List.range (bs.length / size)).map fun i => (bs.drop (size * i)).take size

/-- A section record and its contents (R38). -/
def State.readSection (s : State) (asid va : Nat) (r : List Byte) : Except LoadErr Section := do
  let kind := fieldAt r 0 4
  let align := fieldAt r 4 4
  let proc := fieldAt r 16 4
  need (fieldAt r 20 4 == 0) .reserved
  need (decide (kind ≤ 3) && decide (2 ≤ align) && decide (align ≤ 12) && ((kind == 3) == (proc == 0xFFFFFFFF))) .record
  let bs ← s.fileBytes asid va (fieldAt r 12 4) (fieldAt r 8 4)
  pure ⟨kind, align, proc, bs⟩

/-- The bytes that a relocation of a type patches (R39). -/
def relocBytes (type : Nat) : Nat := if type = 1 then 4 else if type = 4 then 12 else 8

/-- A relocation record (R38, R39). -/
def readReloc (sects : List Section) (r : List Byte) : Except LoadErr Reloc := do
  let k : Reloc := ⟨fieldAt r 0 4, fieldAt r 4 4, fieldAt r 8 2, fieldAt r 10 2, (BitVec.ofNat 32 (fieldAt r 12 4)).toInt⟩
  need (decide (1 ≤ k.type) && decide (k.type ≤ 4)) .relocation
  match sects[k.sec]?, sects[k.target]? with
  | some a, some t =>
    need (if k.type ≤ 2 then t.kind != 3 && a.proc == t.proc else t.kind == 3) .relocation
    pure k
  | _, _ => .error (.reject .relocation)

/-- An entry record (R38, R31). -/
def readEntry (r : List Byte) : Except LoadErr EntryRec := do
  need (decide (fieldAt r 4 2 ≤ 2) && decide (fieldAt r 6 2 ≤ 15)) .record
  pure ⟨fieldAt r 0 4, fieldAt r 4 2, fieldAt r 6 2, fieldAt r 8 4, fieldAt r 12 4⟩

/-- A parameter record (R38). -/
def readParam (r : List Byte) : Except LoadErr (Nat × Nat) := do
  need (decide (1 ≤ fieldAt r 4 4) && decide (fieldAt r 4 4 ≤ 15)) .record
  pure (fieldAt r 0 4, fieldAt r 4 4)

/-- An object is read and checked (R37, R38, R40). -/
def State.readObj (s : State) (asid va : Nat) : Except LoadErr Obj := do
  let h ← s.fileBytes asid va 0 64
  need (fieldAt h 0 4 == 0x014F5842 && decide (fieldAt h 4 2 ≤ 1)) .magic
  need (fieldAt h 6 2 == 0 && fieldAt h 56 8 == 0) .reserved
  let part := fun (i size count : Nat) => s.fileBytes asid va (fieldAt h (32 + 4 * i) 4) (size * count)
  let secBytes ← part 0 24 (fieldAt h 8 4)
  let symBytes ← part 1 16 (fieldAt h 12 4)
  let relBytes ← part 2 16 (fieldAt h 16 4)
  let entBytes ← part 3 20 (fieldAt h 20 4)
  let parBytes ← part 4 12 (fieldAt h 24 4)
  let names ← part 5 1 (fieldAt h 28 4)
  let sects ← (recsOf secBytes 24).mapM (s.readSection asid va)
  let rels ← (recsOf relBytes 16).mapM (readReloc sects)
  let ents ← (recsOf entBytes 20).mapM readEntry
  let pars ← (recsOf parBytes 12).mapM readParam
  pure ⟨fieldAt h 4 2 == 1, sects, rels, ents, pars,
    h ++ secBytes ++ symBytes ++ relBytes ++ entBytes ++ parBytes ++ names ++ (sects.map fun c => c.bytes).flatten⟩

/-! ### The portable form (R55 to R58) -/

/-- An INSN with what is attached to it. -/
structure PItem where
  /-- byte offsets of its LABEL records and of the INSN -/
  offs : List Nat
  labels : List Nat
  /-- attached records: kind, argument, value -/
  atts : List (Nat × Nat × Nat)
  /-- byte offset of its WIDE record -/
  wide : Option Nat
  word : Insn
  deriving DecidableEq, Repr

/-- What the next INSN has gathered. -/
def PItem.empty : PItem := ⟨[], [], [], none, 0⟩

/-- A record of a kind has its reserved bits zero (R55, R56); X-format records are checked at their INSN. -/
def recOk (kind arg value : Nat) : Bool :=
  if kind = 0 then arg == 0 && value / 2 ^ 23 % 64 != 0x3F
  else if kind = 1 then value == 0
  else if kind = 2 then decide (value < 16)
  else if kind = 3 then decide (arg < 2 ^ 21)
  else if kind = 4 ∨ kind = 6 then arg == 0 && decide (value < 2 ^ 20)
  else if kind = 5 then decide (value < 2 ^ 15)
  else if kind = 7 then true
  else kind == 8 && value == 0

/-- The INSNs of a section, or why R58 rejects it; a trailing LABEL record, which R58 does not list, is rejected as well (DESIGN CHOICE). -/
def parseItems : List Byte → Nat → Nat → PItem → Except Reject (List PItem)
  | _, _, 0, p => if p.labels.isEmpty && p.atts.isEmpty then .ok [] else .error .noInsn
  | bs, off, n + 1, p =>
    let kind := fieldAt bs 7 1
    let arg := fieldAt bs 4 3
    let value := fieldAt bs 0 4
    if recOk kind arg value = false then .error .rkind
    else if kind = 0 then
      (parseItems (bs.drop 8) (off + 8) n PItem.empty).map fun r => { p with
        offs := p.offs ++ [off]
        word := BitVec.ofNat 32 value } :: r
    else if kind = 1 then parseItems (bs.drop 8) (off + 8) n { p with
      offs := p.offs ++ [off]
      labels := p.labels ++ [arg] }
    else if p.atts.any (fun a => a.1 == kind) then .error .hint
    else parseItems (bs.drop 8) (off + 8) n { p with
      atts := p.atts ++ [(kind, arg, value)]
      wide := if kind = 3 then some off else p.wide }

/-- The record of a kind that is attached. -/
def PItem.att (p : PItem) (kind : Nat) : Option (Nat × Nat) := (p.atts.find? fun a => a.1 == kind).map Prod.snd

/-- The immediate that a WIDE record gives (R56). -/
def PItem.imm (p : PItem) : Option (BitVec 53) := (p.att 3).map fun a => BitVec.ofNat 53 (a.1 * 2 ^ 32 + a.2)

/-- How many IMM hints an INSN gets: those of R26, or those that its relocation patches (R39). -/
def PItem.imms (p : PItem) (reloc : Nat) : Nat :=
  if reloc = 2 then 1
  else if reloc = 4 then 2
  else match p.imm with
    | none => 0
    | some v => if v.toInt < -4096 ∨ 4095 < v.toInt then (if v.toInt < -4294967296 ∨ 4294967295 < v.toInt then 2 else 1) else 0

/-- How many hint words come before an INSN. -/
def PItem.hintCount (p : PItem) (reloc : Nat) : Nat :=
  p.imms reloc + (p.atts.countP fun a => a.1 != 3 && a.1 != 7) + (p.atts.countP fun a => a.1 == 5)

/-- The INSNs of a section with the native offsets of their groups. -/
def layItems (rel : PItem → Nat) : Nat → List PItem → List (Nat × PItem)
  | _, [] => []
  | off, p :: r => (off, p) :: layItems rel (off + 4 * (p.hintCount (rel p) + 1)) r

/-- A hint word (R47). -/
def hintWord (kind payload : Nat) : Insn := BitVec.ofNat 32 (0x1F800000 + kind * 2 ^ 20 + payload)

/-- A portable section that has been laid out: its index, kind, and INSNs. -/
structure PSection where
  idx : Nat
  kind : Nat
  proc : Nat
  items : List (Nat × PItem)
  deriving DecidableEq, Repr

/-- The type of the relocation that names an INSN's WIDE record; 0 for none. -/
def relocOf (rels : List Reloc) (sec : Nat) (p : PItem) : Nat :=
  match p.wide with
  | none => 0
  | some off => match rels.find? fun r => r.sec == sec && r.off == off with
    | some r => r.type
    | none => 0

/-- Where a label stands: section index, native offset. -/
def labelAt (ps : List PSection) (l : Nat) : Option (Nat × Nat) :=
  ps.findSome? fun p => (p.items.find? fun i => i.2.labels.contains l).map fun i => (p.idx, i.1)

/-- The native offset that a record offset of a section names (R56). -/
def nativeOff (ps : List PSection) (sec off : Nat) : Option Nat :=
  match ps.find? fun p => p.idx == sec with
  | none => none
  | some p => (p.items.find? fun i => i.2.offs.contains off).map Prod.fst

/-- The relative offset of a TGT (R22): within the section, and in 16 bits. -/
def tgtOff (ps : List PSection) (sec at_ label : Nat) : Except Reject Nat :=
  match labelAt ps label with
  | none => .error .label
  | some (t, o) =>
    let d := ((o : Int) - at_) / 4
    if t ≠ sec ∨ d < -32768 ∨ 32767 < d then .error .target else .ok (BitVec.ofInt 16 d).toNat

/-- What the finaliser knows of a launch: the sites of the cores by rank, and the track and the cycle that it gives the transmission of a member in
a logical step (R57, R59); dry stands for a first look at the object, which gives every X-format word track 0 and cycle 0. -/
structure Final where
  given : Nat → Nat → Nat × Nat
  cores : List Nat
  rank : Nat
  dry : Bool

/-- The placement class (R59): each core's site offset within its exchange block. -/
def placeOfCores (cores : List Nat) : List Nat := cores.map fun c => (siteOf c / 48 % 8 * 8 + siteOf c % 48 % 8) * 4 + c % 4

/-- The track and the cycle of an X-format word of a member: the finaliser chooses those of a transmission, and a selection takes the track and
the cycle at which the beat is present (R57, R308). The spec names no reason for a rejection where an XSTEP record gives a rank beyond the launched
members, or an XMIT a rank, or stands before a word of another format: the model rejects the first two as an invalid record, the third as a hint that
the word does not admit (DESIGN CHOICE). -/
def Final.slot (f : Final) (i : Instr) (rank step : Nat) : Except Reject (Nat × Nat) :=
  if f.dry then .ok (0, 0)
  else match i with
    | .xmit .. => if rank ≠ 0 then .error .rkind else .ok (f.given f.rank step)
    | .xsel .. => match f.cores[rank]?, f.cores[f.rank]? with
      | some t, some r =>
        let c := (f.given rank step).2 + delay t (siteOf r)
        if 512 ≤ c then .error .timetable else .ok ((f.given rank step).1, c)
      | _, _ => .error .rkind
    | _ => .error .hint

/-- The hint words of an INSN's group, each with the hint as it pends, in the order of R25. That rule names no place for an XT hint: it stands
after LIVE and before the TGT of a table (DESIGN CHOICE). Of the SCHED hints that the finaliser may insert (R57) it inserts none (DESIGN CHOICE). -/
def hintsOf (ps : List PSection) (sec : PSection) (reloc at_ : Nat) (p : PItem) : Except Reject (List (Hint × Insn)) := do
  let v := p.imm.getD 0
  let imm := fun (lo : Nat) => (Hint.imm (v.extractLsb' lo 20), hintWord 1 (v.extractLsb' lo 20).toNat)
  let imms := match p.imms reloc with
    | 0 => []
    | 1 => [imm 13]
    | _ => [imm 33, imm 13]
  let tgt := fun (pred sense o : Nat) => (Hint.tgt (BitVec.ofNat 3 pred) (BitVec.ofNat 1 sense) (BitVec.ofNat 16 o), hintWord 0 (pred * 2 ^ 17 + sense * 2 ^ 16 + o))
  let mods := (p.att 6).map fun a =>
    let b : BitVec 20 := BitVec.ofNat 20 a.2
    (Hint.mod (b.extractLsb' 17 3) (b.extractLsb' 16 1) (b.extractLsb' 14 2) (b.extractLsb' 13 1), hintWord 4 a.2)
  let tabs ← match p.att 5 with
    | none => Except.ok []
    | some a => (tgtOff ps sec.idx at_ a.1).map fun o =>
      [(Hint.jtab (BitVec.ofNat 5 (a.2 / 1024)) (BitVec.ofNat 10 a.2), hintWord 3 (a.2 / 1024 * 2 ^ 15 + a.2 % 1024)), tgt 0 0 o]
  let lives := (p.att 4).map fun a => (Hint.live (BitVec.ofNat 20 a.2), hintWord 2 a.2)
  let xts ← match p.att 8 with
    | none => Except.ok []
    | some a => match labelAt ps a.1 with
      | some (t, o) => match ps.find? fun q => q.idx == t with
        | some q =>
          if q.kind ≠ 1 ∨ q.proc ≠ sec.proc ∨ 2 ^ 19 ≤ o then Except.error Reject.target else Except.ok [(Hint.xt (BitVec.ofNat 17 (o / 4)), hintWord 6 (o / 4))]
        | none => Except.error Reject.label
      | none => Except.error Reject.label
  let tgts ← match p.att 2 with
    | none => Except.ok []
    | some a => (tgtOff ps sec.idx at_ a.1).map fun o => [tgt (a.2 % 8) (a.2 / 8) o]
  pure (mods.toList ++ imms ++ tabs.take 1 ++ lives.toList ++ xts ++ tabs.drop 1 ++ tgts)

/-- The words of an INSN's group (R57), or why R58 rejects it. An X-format word without an XSTEP record, of which the spec says nothing, keeps the
cycle and the track that its INSN holds (DESIGN CHOICE). -/
def emit (ps : List PSection) (sec : PSection) (f : Final) (reloc off : Nat) (p : PItem) : Except Reject (List Insn) := do
  let st : Strm := if sec.kind = 0 then .a else .e
  let i ← match decode p.word with
    | .ok i => Except.ok i
    | _ => Except.error Reject.illegal
  let v := p.imm.getD 0
  let word : Insn ← match p.att 7 with
    | none => Except.ok p.word
    | some (rank, step) => (f.slot i rank step).map fun (tc : Nat × Nat) =>
      (p.word &&& 0xFF803F00) ||| BitVec.ofNat 32 (tc.2 * 2 ^ 14 + tc.1)
  let word := if p.wide.isSome then (word &&& 0xFFFFE000) ||| (v.extractLsb' 0 13).setWidth 32 else word
  let hs ← hintsOf ps sec reloc (off + 4 * p.hintCount reloc) p
  let bad := illegal st false (hs.map Prod.fst) i
  let hintsBad := hs.any fun h => match decode h.2 with
    | .ok w => (illegal st false [] w).isSome
    | _ => true
  if bad.isSome && (illegal st false [] i).isSome then Except.error Reject.illegal
  else if bad.isSome || hintsBad || (p.wide.isSome && !(form i).imm) then Except.error Reject.hint
  else Except.ok (hs.map Prod.snd ++ [word])

/-- A stream section becomes native (R57). -/
def finalise (ps : List PSection) (sec : PSection) (f : Final) (rels : List Reloc) : Except Reject (List Byte) :=
  (sec.items.mapM fun i => emit ps sec f (relocOf rels sec.idx i.2) i.1 i.2).map fun gs => (gs.flatten.map fun w => toBytes 4 w.toNat).flatten

/-- The labels of a portable object are each defined once (R58). -/
def labelsOnce (ps : List PSection) : Bool := ((ps.map fun p => (p.items.map fun i => i.2.labels).flatten).flatten).Nodup

/-- The portable stream sections of an object, laid out, or why R58 rejects them. A section that is no whole number of records, which R58 does not
list, is rejected as an invalid record (DESIGN CHOICE). -/
def Obj.lay (o : Obj) : Except Reject (List PSection) :=
  ((o.sects.mapIdx fun i sec => (i, sec)).filter fun p => decide (p.2.kind ≤ 1)).mapM fun p =>
    if p.2.bytes.length % 8 ≠ 0 then .error .rkind
    else (parseItems p.2.bytes 0 (p.2.bytes.length / 8) PItem.empty).map fun items =>
      ⟨p.1, p.2.kind, p.2.proc, layItems (relocOf o.rels p.1) 0 items⟩

/-- An offset translated to the native form. -/
def moved (ps : List PSection) (sec off : Nat) : Except Reject Nat :=
  match nativeOff ps sec off with
  | some n => .ok n
  | none => .error .offset

/-- A relocation of a portable object as one of its native form: a relocation of a stream section names a WIDE record, and an addend into one
names a LABEL or an INSN. The spec translates no negative addend into such a section: it is rejected (DESIGN CHOICE). -/
def Obj.moveReloc (ps : List PSection) (r : Reloc) : Except Reject Reloc := do
  let off ← match ps.find? fun p => p.idx == r.sec with
    | none => Except.ok r.off
    | some p => match p.items.find? fun i => i.2.wide == some r.off with
      | some i =>
        let before := i.2.atts.countP fun a => a.1 == 6
        if r.type = 2 ∨ r.type = 4 then Except.ok (i.1 + 4 * before) else Except.error Reject.relocation
      | none => Except.error Reject.offset
  let addend ← if ps.any fun p => p.idx == r.target then
      (if r.addend < 0 then Except.error Reject.offset else (moved ps r.target r.addend.toNat).map Int.ofNat)
    else Except.ok r.addend
  pure { r with
    off := off
    addend := addend }

/-- The index of the first section of a kind in a procedure. -/
def Obj.sectOf (o : Obj) (proc kind : Nat) : Option Nat := o.sects.findIdx? fun s => s.kind == kind && s.proc == proc

/-- A portable object becomes native for one member of a launch (R57, R58). -/
def Obj.native (o : Obj) (f : Final) : Except Reject Obj :=
  if !o.portable then .ok o
  else do
    let ps ← o.lay
    if labelsOnce ps then pure () else Except.error Reject.label
    let sects ← (o.sects.mapIdx fun i s => (i, s)).mapM fun p => match ps.find? fun q => q.idx == p.1 with
      | none => Except.ok p.2
      | some q => (finalise ps q f o.rels).map fun bs => { p.2 with bytes := bs }
    let rels ← o.rels.mapM (Obj.moveReloc ps)
    let ents ← o.entries.mapM fun r => match o.sectOf r.proc 0, o.sectOf r.proc 1 with
      | some a, some e => do
        let x ← moved ps a r.a
        let y ← moved ps e r.e
        pure { r with
          a := x
          e := y }
      | _, _ => Except.error Reject.record
    pure { o with
      sects := sects
      rels := rels
      entries := ents }

/-! ### The timetables that the finaliser makes (R57, R308, R312) -/

/-- An X-format word of a portable section. -/
structure XWord where
  send : Bool
  /-- kind and number of its register -/
  reg : Nat × Nat
  /-- the rank that its XSTEP record names and the logical step; none without such a record -/
  step : Option (Nat × Nat)
  /-- the track and the cycle in the INSN itself -/
  track : Nat
  cycle : Nat
  deriving DecidableEq, Repr

/-- The X-format word of an INSN. -/
def PItem.xword (p : PItem) : Option XWord :=
  match decode p.word with
  | .ok (.xmit c r k t) => some ⟨true, (k.toNat, r.toNat), p.att 7, t.toNat, c.toNat⟩
  | .ok (.xsel c r k t) => some ⟨false, (k.toNat, r.toNat), p.att 7, t.toNat, c.toNat⟩
  | _ => none

/-- The timetables of a section: its maximal runs of X-format words. -/
def timetables : List PItem → List (List XWord)
  | [] => [[]]
  | p :: r => match p.xword, timetables r with
    | some w, t :: ts => (w :: t) :: ts
    | some w, [] => [[w]]
    | none, ts => [] :: ts

/-- The timetables of an object's E-streams. -/
def tablesOf (ps : List PSection) : List (List XWord) := ((ps.filter fun p => p.kind == 1).map fun p => timetables (p.items.map Prod.snd)).flatten

/-- The tracks and cycles that transmissions have been given: rank and step, track and cycle. -/
abbrev Slots := List ((Nat × Nat) × (Nat × Nat))

/-- What some slots give a transmission. -/
def Slots.at? (a : Slots) (rank step : Nat) : Option (Nat × Nat) := (a.find? fun p => p.1 == (rank, step)).map Prod.snd

/-- The transmission that a word of a member sends or selects, when the finaliser gives it its slot. -/
def XWord.key (w : XWord) (rank : Nat) : Option (Nat × Nat) := w.step.map fun p => (if w.send then rank else p.1, p.2)

/-- The track and the cycle of a word of a member, once its transmission has its slot. -/
def XWord.slot (w : XWord) (cores : List Nat) (rank : Nat) (a : Slots) : Option (Nat × Nat) :=
  match w.key rank with
  | none => some (w.track, w.cycle)
  | some k => (a.at? k.1 k.2).map fun p =>
    if w.send then p else (p.1, p.2 + delay (cores.getD k.1 0) (siteOf (cores.getD rank 0)))

/-- Beats of a word. -/
def XWord.beats (w : XWord) : Nat := if w.reg.1 = 0 then 4 else 1

/-- No word of a timetable is late, runs past the longest phase, or meets a busy port (R312); next, tx and rx are the first free cycles, and the
list holds those from which a register is readable. Each word stands with its track and cycle. -/
def tableFits : List (XWord × Nat × Nat) → Nat → Nat → Nat → List ((Nat × Nat) × Nat) → Bool
  | [], _, _, _, _ => true
  | (w, _, c) :: r, next, tx, rx, at_ =>
    let n := w.beats
    let free := decide (next ≤ c) && decide (c + n ≤ 512)
    if w.send then free && decide (tx ≤ c) && (at_.all fun p => p.1 != w.reg || decide (p.2 ≤ c)) && tableFits r (c + 1) (c + n) rx at_
    else free && decide (rx ≤ c) && tableFits r (c + 1) tx (c + n) ((w.reg, c + n) :: at_)

/-- Two transmissions on one track are together at some port of the block (R308): core, first cycle, beats, track. -/
def together (a b : Nat × Nat × Nat × Nat) : Bool :=
  a.2.2.2 == b.2.2.2 && (blockSites (blockOf a.1)).any fun site =>
    decide (a.2.1 + delay a.1 site < b.2.1 + delay b.1 site + b.2.2.1) && decide (b.2.1 + delay b.1 site < a.2.1 + delay a.1 site + a.2.2.1)

/-- No two of some transmissions are together at a port. -/
def apart : List (Nat × Nat × Nat × Nat) → Bool
  | [] => true
  | a :: r => !r.any (together a) && apart r

/-- The words of a member's timetable that have their slots, each with its track and cycle. -/
def slotted (t : List XWord) (cores : List Nat) (rank : Nat) (a : Slots) : List (XWord × Nat × Nat) :=
  t.filterMap fun w => (w.slot cores rank a).map fun p => (w, p.1, p.2)

/-- A timetable, at every member, keeps the rules of R308 and R312 as far as its words have their slots. -/
def tableOk1 (cores : List Nat) (a : Slots) (t : List XWord) : Bool :=
  let ms := (List.range cores.length).map fun r => (cores.getD r 0, slotted t cores r a)
  (ms.all fun m => tableFits m.2 0 0 0 []) &&
    apart ((ms.map fun m => (m.2.filter fun w => w.1.send).map fun w => (m.1, w.2.2, w.1.beats, w.2.1)).flatten)

/-- The transmissions that need a slot. -/
def transmissions (ts : List (List XWord)) (n : Nat) : List (Nat × Nat) :=
  ((ts.flatten.map fun w => (List.range n).filterMap w.key).flatten).eraseDups

/-- Every track at every cycle of a phase. -/
def allSlots : List (Nat × Nat) := ((List.range 512).map fun c => (List.range 256).map fun t => (t, c)).flatten

/-- Slots for some transmissions beside those that are given, so that every timetable keeps the rules; none when there are none. -/
def findSlots (ok : Slots → Bool) : List (Nat × Nat) → Slots → Option Slots
  | [], a => some a
  | k :: r, a => allSlots.findSome? fun p => if ok ((k, p) :: a) then findSlots ok r ((k, p) :: a) else none

/-- The slots that the finaliser gives the transmissions of a launch (R57): those of Config where they keep the rules of R308 and R312, and else the
first that do. An object for which there are none cannot be finalised: it is rejected (DESIGN CHOICE). -/
def Obj.assign (o : Obj) (ts : List (List XWord)) (cores : List Nat) : Except Reject Slots :=
  let streams := ((o.sects.filter fun s => decide (s.kind ≤ 1)).map fun s => s.bytes).flatten
  let ks := transmissions ts cores.length
  let free : Slots := ks.map fun k =>
    let n := Config.finalSlot streams (placeOfCores cores) k.1 k.2
    (k, n % 256, n / 256 % 512)
  let ok := fun a => ts.all (tableOk1 cores a)
  if ok free then .ok free
  else match findSlots ok ks [] with
    | some a => .ok a
    | none => .error .timetable

/-- A portable object becomes native for every member of a launch (R57). -/
def Obj.natives (o : Obj) (cores : List Nat) : Except Reject (List Obj) :=
  if !o.portable then .ok [o]
  else do
    let _ ← o.native ⟨fun _ _ => (0, 0), [], 0, true⟩
    let ps ← o.lay
    let a ← o.assign (tablesOf ps) cores
    (List.range cores.length).mapM fun r => o.native ⟨fun rank step => (a.at? rank step).getD (0, 0), cores, r, false⟩

/-! ### The finaliser's cache (R59) -/

/-- The version of the finaliser in the firmware that runs. -/
def State.finaliser (s : State) : Nat := Config.finaliserVersion (s.isl.flash.getD Config.factoryImage)

/-- The key of an object for a launch (R59). -/
def State.cacheKey (s : State) (o : Obj) (cores : List Nat) : BitVec 384 :=
  Config.sha384 (o.raw ++ toBytes 8 s.finaliser ++ ((placeOfCores cores).map fun n => toBytes 2 n).flatten)

/-- The native form of an object for a launch: the cached image of an equal key, else a translation (R57, R59). -/
def State.natives (s : State) (o : Obj) (cores : List Nat) : Except Reject (List Obj) :=
  if !o.portable then .ok [o]
  else match s.isl.cache.find? fun e => e.key == s.cacheKey o cores with
    | some e => .ok e.objs
    | none => o.natives cores

/-- Bytes of native words that a cached image takes. -/
def Cached.bytes (e : Cached) : Nat := (e.objs.map fun o => (o.sects.filter fun s => decide (s.kind ≤ 1)).map fun s => s.bytes.length).flatten.foldl (· + ·) 0

/-- The most recently used images that a capacity holds; the others are evicted, the least recently used first. -/
def withinCap : Nat → List Cached → List Cached
  | _, [] => []
  | cap, e :: r => if cap < e.bytes then [] else e :: withinCap (cap - e.bytes) r

/-- An image has been made or used again (R59). -/
def State.remember (s : State) (key : BitVec 384) (objs : List Obj) : State :=
  { s with isl := { s.isl with cache := withinCap s.isl.cacheCap (⟨key, objs⟩ :: s.isl.cache.filter fun e => e.key != key) } }

/-! ### Placement (R40) -/

/-- Round up to a multiple of 2^n. -/
def alignUp (x n : Nat) : Nat := (x + 2 ^ n - 1) / 2 ^ n * 2 ^ n

/-- The sections of a procedure in ULM from byte 0: section index and base. They lie by falling alignment, streams and data in their order where
it is equal, so that each size, rounded up to its section's alignment, is all that the section takes (DESIGN CHOICE: the loader chooses the bases). -/
def Obj.bases (o : Obj) (proc : Nat) : List (Nat × Nat) :=
  let idx := fun k => ((o.sects.mapIdx fun i s => (i, s)).filter fun p => p.2.kind == k && p.2.proc == proc)
  let all := idx 0 ++ idx 1 ++ idx 2
  let sorted := (List.range 11).foldl (fun l i => l ++ all.filter fun p => p.2.align == 12 - i) []
  (sorted.foldl (fun (acc : Nat × List (Nat × Nat)) p => (acc.1 + alignUp p.2.bytes.length p.2.align, acc.2 ++ [(p.1, acc.1)])) (0, [])).2

/-- The sizes of a procedure's sections, each rounded up to its alignment, sum to no more than the ULM (R40). -/
def Obj.fits (o : Obj) (proc : Nat) : Bool :=
  decide (((o.sects.filter fun s => s.kind != 3 && s.proc == proc).map fun s => alignUp s.bytes.length s.align).foldl (· + ·) 0 ≤ Config.ulmBytes)

/-- Replace bytes in a list. -/
def patch (bs : List Byte) (off : Nat) (new_ : List Byte) : List Byte := bs.take off ++ new_ ++ bs.drop (off + new_.length)

/-- Replace the low bits of the 32-bit word at an offset. -/
def patchWord (bs : List Byte) (off bits v : Nat) : List Byte :=
  patch bs off (toBytes 4 (fieldAt bs off 4 / 2 ^ bits * 2 ^ bits + v % 2 ^ bits))

/-- A relocation patches its section (R39). Where another hint word stands between an IMM and the instruction, the spec does not say which word's low
13 bits are meant: the model patches the word right after the IMM (DESIGN CHOICE). -/
def applyReloc (bs : List Byte) (r : Reloc) (base : Nat) : List Byte :=
  let v := (BitVec.ofInt 64 (base + r.addend)).toNat
  if r.type = 1 then patch bs r.off (toBytes 4 v)
  else if r.type = 2 then patchWord (patchWord bs r.off 20 (v / 2 ^ 13)) (r.off + 4) 13 v
  else if r.type = 3 then patch bs r.off (toBytes 8 v)
  else patchWord (patchWord (patchWord bs r.off 20 (v / 2 ^ 33)) (r.off + 4) 20 (v / 2 ^ 13)) (r.off + 8) 13 v

/-- The contents of a section once every relocation of it is applied (R40). -/
def Obj.placed (o : Obj) (bases : List (Nat × Nat)) (idx : Nat) : List Byte :=
  (o.rels.filter fun r => r.sec == idx).foldl (fun bs r =>
    applyReloc bs r (((bases.find? fun p => p.1 == r.target).map Prod.snd).getD 0)) ((o.sects[idx]?).map fun s => s.bytes).get!

/-- Every relocation patches bytes that its section has (R40). Which offsets count as a record's offset the rule does not say: name offsets, and the
offsets of a native object's entries, are not held against anything (DESIGN CHOICE). -/
def Obj.relocsFit (o : Obj) : Bool :=
  o.rels.all fun r => decide (r.off + relocBytes r.type ≤ ((o.sects[r.sec]?).map fun s => s.bytes.length).getD 0)

/-- What a loaded procedure is: the parts of its image in ULM, its entries (main 0, grow 1, stage k at 2 + k), the message registers of its
parameters, and its GDATA. -/
structure Image where
  parts : List (Nat × List Byte)
  entries : Store (Nat × Nat)
  params : List Nat
  globals : List (Nat × List Byte)
  deriving DecidableEq, Repr

/-- The GDATA sections, one after another from a base: section index and VA. -/
def Obj.gbases (o : Obj) (va : Nat) : Nat × List (Nat × Nat) :=
  (((o.sects.mapIdx fun i s => (i, s)).filter fun p => p.2.kind == 3).foldl (fun (acc : Nat × List (Nat × Nat)) p =>
    let b := alignUp acc.1 p.2.align
    (b + p.2.bytes.length, acc.2 ++ [(p.1, b)])) (va, []))

/-- Key of an entry in a core's list. -/
def EntryRec.key (r : EntryRec) : Nat := if r.kind = 2 then 2 + r.stage else r.kind

/-- A native object's procedure is placed, its GDATA from a VA on (R40). Only the sections of the procedure that is launched must fit (DESIGN
CHOICE: the rule does not say which procedures a rejection looks at). -/
def Obj.image (o : Obj) (proc va : Nat) : Except Reject Image :=
  let bases := o.bases proc
  let gb := (o.gbases va).2
  let all := bases ++ gb
  match (o.sectOf proc 0).bind fun i => bases.find? fun p => p.1 == i, (o.sectOf proc 1).bind fun i => bases.find? fun p => p.1 == i with
  | some a, some e =>
    let ents := o.entries.filter fun r => r.proc == proc
    if o.fits proc = false then .error .fit
    else if o.relocsFit = false then .error .offset
    else if (ents.any fun r => r.kind == 0) = false then .error .record
    else .ok {
      parts := bases.map fun p => (p.2, o.placed all p.1)
      entries := ents.reverse.foldl (fun m r => Store.set (0, 0) m r.key (a.2 + r.a, e.2 + r.e)) []
      params := (o.params.filter fun p => p.1 == proc).map Prod.snd
      globals := gb.map fun p => (p.2, o.placed all p.1) }
  | _, _ => .error .record

/-- The image of a rank. -/
def imageOf (ms : List Image) (rank : Nat) : Option Image := match ms[rank]? with
  | some m => some m
  | none => ms[0]?

/-- An image is put into a core's ULM, whose other bytes are zero (R151, R424). -/
def Core.loadImage (c : Core) (m : Image) : Core :=
  m.parts.foldl (fun c p => c.putUlm p.1 p.2) { c with
    ulm := []
    ulmBad := []
    ulmChk := []
    entries := m.entries }

end Sys2Proof.Machine
end

