-- ==== Sys2Proof/Machine/Tasks.lean ====
section
/-!
DEFINITION. Continuations and committed tasks (R340 to R352), declared pipelines and the shunter (R353 to R358).
-/

namespace Sys2Proof.Machine

/-! ### Continuation records (R341) -/

/-- The 160 bytes of a record. -/
def ContRec.bytes (r : ContRec) : List Byte :=
  let ctl := r.grp + (match r.pinned with | some p => 2 ^ 8 * p + 2 ^ 22 | none => 0) + (if r.committed then 2 ^ 23 else 0) + 2 ^ 24 * r.tok
    + 2 ^ 32 * (BitVec.ofInt 32 r.status).toNat
  let vals := (r.regs.map fun v => dword v.2.2.toNat).flatten
  dword r.aNext.toNat ++ dword r.eNext.toNat ++ dword r.mask.toNat ++ dword ctl ++ (vals ++ List.replicate (128 - vals.length) 0)

/-- A record is written to the pool. -/
def State.writeRec (s : State) (asid idx : Nat) (r : ContRec) : State :=
  (s.setRec asid idx (some r)).deviceWrite asid (Store.get 0 s.stn.contBase asid + 160 * idx) r.bytes

/-- A free record of an ASID's pool (R342). -/
def State.freeRec (s : State) (asid : Nat) : Option Nat :=
  (List.range (Store.get 0 s.stn.contCount asid)).find? fun i => (s.rec? asid i).isNone

/-- Pages of the storage pool that sidings hold: four for each committed record, and a scope's own (R342, R395). -/
def State.sidingPages (s : State) : Nat :=
  4 * (s.recs.countP fun p => match p.2 with | some r => r.committed | none => false)
    + s.scopes.foldl (fun n p => n + (match p.2 with | some sc => sc.contestants.length * (sc.sb / 65536) | none => 0)) 0

/-- The domain that a core belongs to: TDOM names a group of which the core is a member (R340, R346). -/
def Core.domain (c : Core) : Option Nat :=
  let g := bitsOf c.ctl.tdom 48 8
  if c.ctl.tdom.getLsbD 63 && (c.slotOf g).isSome then some g else none

/-- TASK_FAULT. -/
def taskFault {α : Type} (sub : Nat) : CM α := raise cTask sub 0 0

/-- The domain, or TASK_FAULT subcode 0 (R346). -/
def domainM : CM Nat := do
  let c ← get
  match c.domain with
  | some g => pure g
  | none => taskFault 0

/-- Neither stream is inside a call or a loop (R346). -/
def Core.flat (c : Core) : Bool := c.a.depth == 0 && c.a.loopDepth == 0 && c.e.depth == 0 && c.e.loopDepth == 0

/-! ### SPAWN (R344) -/

/-- SPAWN and SPAWN_C. -/
def spawnM (d a e : BitVec 5) (com : Bool) (cx : Ctx) : DM Next := do
  let c ← onCore cx.core get
  let va ← onCore cx.core (rdX cx a)
  let ve ← onCore cx.core (rdX cx e)
  let vals ← onCore cx.core ((List.range 8).mapM fun i => rdX cx (BitVec.ofNat 5 (24 + i)))
  onCore cx.core do
    destFree cx (if d = 0 then 0 else c.a.home d)
    stallIf (c.cmds.any fun k => k.open_ && k.op.classes &&& clWrites != 0)
  let grp ← onCore cx.core (do
    forbidTourney
    let g ← domainM
    forbidTask
    pure g)
  let s ← get
  let asid := c.asid.toNat
  match s.freeRec asid with
  | none => onCore cx.core (wrX cx d (BitVec.ofInt 64 (-11)))
  | some idx =>
    if com && decide (s.stn.poolSize < s.sidingPages + 4) then onCore cx.core (wrX cx d (BitVec.ofInt 64 (-12)))
    else do
      let r : ContRec := {
        aNext := BitVec.ofNat 64 (fieldOf va 0 19)
        eNext := BitVec.ofNat 64 (fieldOf ve 0 19)
        regs := vals.mapIdx fun i v => (0, 8 + i, v)
        mask := 0xFF00
        grp := grp
        pinned := none
        committed := com
        tok := 0
        status := 0
        dest := 0
        outstanding := 0
        ready := true
        abortedOn := 0 }
      set ((((s.release cx.core 3).writeRec asid idx r).modDom asid grp fun m =>
        { m with live := m.live + 1, ready := m.ready ++ [idx] }).post (.taskHandover asid grp))
      onCore cx.core (wrX cx d (BitVec.ofNat 64 idx))
  pure .seq

/-- SPAWN. -/
def execSpawn (n : BitVec 3) (d a e : BitVec 5) : State → Out := issue (.spawn n d a e) (spawnM d a e false)

/-- SPAWN_C. -/
def execSpawnC (n : BitVec 3) (d a e : BitVec 5) : State → Out := issue (.spawnC n d a e) (spawnM d a e true)

/-! ### Runners (R345) -/

/-- A core becomes a runner of a domain: both streams stand still, and it waits for a record. A handler in which its task has ended is no longer
active (R345, R362). -/
def State.becomeRunner (s : State) (core grp : Nat) : State :=
  let s := s.modCore core fun c =>
    { c with
      wait := some (.runner grp s.cycle)
      runnerAt := none
      task := none
      q := {}
      ctl := { c.ctl with lvl := false, ub := false, sb := false }
      a := { c.a with parked := true, stopped := false, stopNext := false }
      e := { c.e with parked := true, stopped := false, stopNext := false } }
  (s.modDom (s.core core).asid.toNat grp fun d =>
    { d with runners := (d.runners.filter fun n => n != core) ++ [core] }).post (.taskHandover (s.core core).asid.toNat grp)

/-- A core that was taken to a handler from its wait as a runner, and comes back to its word, waits again (R81, R345). -/
def Core.waitAgain (c : Core) (cx : Ctx) : Option Core :=
  match c.runnerAt with
  | some (grp, at_) =>
    if at_ = cx.pc ∧ c.ctl.ub = false ∧ c.ctl.sb = false then some { c with
      wait := some (.runner grp cx.cycle)
      runnerAt := none
      a := { c.a with parked := true }
      e := { c.e with parked := true } }
    else none
  | none => none

/-- A word at which a core may come to wait as a runner again. -/
def runnerWord (f : State → Out) (s : State) : Out :=
  match f s with
  | .next s' =>
    let c := s'.core s.cur
    match c.wait with
    | some (.runner grp _) => .next (if (s.core s.cur).runnerAt.isSome then s'.post (.taskHandover c.asid.toNat grp) else s')
    | _ => .next s'
  | o => o

/-- A waiting runner can take a record: it is not about to be pre-empted, and what its streams had dispatched is done, as are the commands of a
committed task that has ended as a failure. -/
def State.takesRecord (s : State) (core : Nat) : Bool :=
  let c := s.core core
  c.run == .running && c.preempt.isNone && c.eSafe && !(c.cmds.any fun k => k.sided) && (match c.wait with | some (.runner ..) => true | _ => false)

/-- A core waits as a runner of a group's domain. -/
def State.runsAs (s : State) (core grp : Nat) : Bool :=
  match (s.core core).wait with
  | some (.runner g _) => g == grp
  | _ => false

/-- The registers that a record saves are loaded into a stream. -/
def loadRegs (c : Core) (regs : List (Nat × Nat × Word)) : Core :=
  regs.foldl (fun c v =>
    let st : Strm := if v.1 = 0 then .a else .e
    c.setMain st ((c.seq st).home (BitVec.ofNat 5 v.2.1)) (v.2.2.setWidth 1024)) c

/-- A runner takes a record: acquire, saved registers, and both streams at the saved addresses (R345). -/
def Core.takeRecord (c : Core) (idx : Nat) (r : ContRec) : Core :=
  let c := loadRegs (c.enterSeqs r.aNext.toNat r.eNext.toNat) r.regs
  let c := if r.dest = 0 then c else
    let c := if r.tok = 0 then c else c.setMain .a (c.a.home (BitVec.ofNat 5 r.tok)) ((BitVec.ofInt 64 r.status).setWidth 1024)
    if r.dest = 1 then c else c.setMain .a (c.a.home (BitVec.ofNat 5 (r.dest - 1))) 1
  { c with task := some ⟨idx, r.committed, [], [], [], []⟩ }

/-- Hand a record to a runner. -/
def State.giveRecord (s : State) (asid grp core idx : Nat) (r : ContRec) : State :=
  let s := s.modDom asid grp fun d => { d with ready := d.ready.filter fun i => i != idx, runners := d.runners.filter fun n => n != core }
  ((s.setRec asid idx (some { r with ready := false })).modCore core fun c => c.takeRecord idx r).acquire core 4

/-- The next record and the runner that it goes to (R345): a pinned record first, to its core; then the queue's order, in order of waiting, and an
aborted record to another runner if one waits. -/
def State.match_ (s : State) (asid : Nat) (d : Domain) : Option (Nat × Nat × ContRec) :=
  let rs := d.runners.filter s.takesRecord
  let recs := d.ready.filterMap fun i => (s.rec? asid i).map fun r => (i, r)
  match recs.findSome? fun p => match p.2.pinned with
      | some l => (rs.find? fun n => s.logicalOf n == l).map fun n => (n, p)
      | none => none with
  | some r => some r
  | none => match recs.find? fun p => p.2.pinned.isNone with
    | none => none
    | some p => match (match rs.find? fun n => n + 1 != p.2.abortedOn with | some n => some n | none => rs.head?) with
      | some n => some (n, p)
      | none => none

/-- A record as its 160 bytes give it (R341); none where a reserved field is not zero or more than 16 registers are named (R12). -/
def ContRec.ofBytes (r : ContRec) (bs : List Byte) : Option ContRec :=
  let w := fun o => leNat ((bs.drop o).take 8)
  let m := w 0x10
  let k := w 0x18
  let names := (List.range 64).filter fun j => m.testBit j
  if 2 ^ 19 ≤ w 0 ∨ 2 ^ 19 ≤ w 8 ∨ m.testBit 0 = true ∨ m.testBit 32 = true ∨ 16 < names.length ∨ k / 2 ^ 29 % 8 ≠ 0
      ∨ ((bs.drop (0x20 + 8 * names.length)).any fun b => b != 0) = true then none
  else some { r with
    aNext := BitVec.ofNat 64 (w 0)
    eNext := BitVec.ofNat 64 (w 8)
    regs := names.mapIdx fun i j => (j / 32, j % 32, BitVec.ofNat 64 (w (0x20 + 8 * i)))
    mask := BitVec.ofNat 64 m
    pinned := if k.testBit 22 then some (k / 2 ^ 8 % 2 ^ 14) else none
    committed := k.testBit 23
    tok := k / 2 ^ 24 % 32
    status := (BitVec.ofNat 32 (k / 2 ^ 32)).toInt }

/-- A task whose record the station cannot use ends as a failure, as in R350: the spec names no status for it (DESIGN CHOICE). -/
def State.failRecord (s : State) (asid grp core idx : Nat) : State :=
  (((s.setRec asid idx none).modDom asid grp fun d => { d with
    live := d.live - 1
    ready := d.ready.filter fun i => i != idx
    failures := d.failures + 1 }).report 2 core).post (.taskHandover asid grp)

/-- The station reads a record from the pool (R341). A read that meets a fault is held until the kernel has answered it, and so is one of a record
whose write is held (R266, R267); a record whose page the kernel declines, or that is malformed, cannot be used (R12). -/
def State.handRecord (s : State) (asid grp core idx : Nat) (r : ContRec) : State :=
  let va := Store.get 0 s.stn.contBase asid + 160 * idx
  match s.deviceFault asid va 160 0 with
  | some (a, f) =>
    if s.stn.declined.contains (asid, a / 65536) then
      { s with stn := { s.stn with declined := s.stn.declined.filter fun p => p != (asid, a / 65536) } }.failRecord asid grp core idx
    else (s.holdDevice asid a 0 f).soon (.taskHandover asid grp)
  | none =>
    if s.stn.devHeld.any fun w => w.asid == asid && decide (w.va < va + 160) && decide (va < w.va + w.bytes.length) then s.soon (.taskHandover asid grp)
    else
      let s := s.touch asid va 160 ⟨0, false⟩
      match r.ofBytes ((s.deviceRead asid va 160).getD []) with
      | some r => (s.giveRecord asid grp core idx r).post (.taskHandover asid grp)
      | none => s.failRecord asid grp core idx

/-- TASK_HANDOVER. -/
def execTaskHandover (asid grp : Nat) (s : State) : Out :=
  let d := s.dom asid grp
  match s.match_ asid d with
  | some (n, i, r) => .next (s.handRecord asid grp n i r)
  | none =>
    let busy := d.runners.any fun n => !s.takesRecord n && s.runsAs n grp && (s.core n).preempt.isNone && (s.core n).run == .running
    .next (if !d.ready.isEmpty && busy then s.soon (.taskHandover asid grp) else s.post (.domainDrain asid grp))

/-- A record's task runs, or its core is saved (R337). -/
def State.recRuns (s : State) (asid idx : Nat) : Bool :=
  let has := fun (c : Core) => c.asid.toNat == asid && c.task.any fun t => t.rec_ == idx
  (s.cores.any fun p => has p.2) || s.saved.any fun p => p.2.any has

/-- TASK_READY: the detached commands of a yielded task have written their statuses (R347). -/
def execTaskReady (asid grp rec : Nat) (s : State) : Out :=
  match s.rec? asid rec with
  | none => .next s
  | some r =>
    if r.ready || r.outstanding != 0 || s.recRuns asid rec then .next s
    else .next (((s.writeRec asid rec { r with ready := true }).modDom asid grp fun d => { d with ready := d.ready ++ [rec] }).post
      (.taskHandover asid grp))

/-- DOMAIN_DRAIN: no task is live, and every member waits as a runner or has departed; the runners start at their drain addresses (R345). -/
def execDomainDrain (asid grp : Nat) (s : State) : Out :=
  let d := s.dom asid grp
  let b := s.bar asid grp
  let ms := (s.membersOf asid grp).filter fun m => (s.core m).run != .done
  let there := fun m => s.runsAs m grp || (match (s.core m).slotOf grp with
    | some i => b.departed.contains (gmemRank ((s.core m).gmem i))
    | none => true)
  if d.live ≠ 0 ∨ d.runners = [] ∨ ms.all there = false then .next s
  else if d.runners.any fun m => !s.takesRecord m then .next (s.soon (.domainDrain asid grp))
  else
    let s := d.runners.foldl (fun s m => s.modCore m fun c =>
      c.enterAt (bitsOf c.ctl.tdom 0 19) (bitsOf c.ctl.tdom 21 19)) s
    .next (s.modDom asid grp fun d => { d with runners := [] })

/-! ### AWAIT and YIELD (R347, R348) -/

/-- A QUERY of the core with a message-register answer is outstanding. -/
def Core.queryOut (c : Core) : Bool := c.cmds.any fun k => k.open_ && (match k.op with | .query _ _ _ _ _ form => form | _ => false)

/-- AWAIT (tok its token register) and YIELD (tok 0). -/
def yieldM (d tok : BitVec 5) (await : Bool) (cx : Ctx) : CM Next := do
  let c ← get
  match c.waitAgain cx with
  | some c => do
    set c
    pure .hold
  | none => match c.wait with
  | some (.runner ..) => pure .hold
  | some (.yield _ _ (some r)) => do
    set { c with wait := none }
    wrX cx d (BitVec.ofNat 64 r)
    pure .seq
  | some (.yield _ _ none) => pure .hold
  | _ => do
    destFree cx (if d = 0 ∨ (await = true ∧ d = tok) then 0 else c.a.home d)
    forbidTourney
    let _ ← domainM
    if c.committed then taskFault 3 else pure ()
    if c.flat then pure () else taskFault 5
    let h := if tok = 0 then 0 else c.a.home tok
    if await && !c.a.pend.contains h then do
      wrX cx d 0
      pure .seq
    else if c.queryOut then stallOut
    else do
      modify fun c => { c with wait := some (.yield (if await then tok.toNat else 0) d.toNat none) }
      pure .hold

/-- AWAIT. -/
def execAwait (d t : BitVec 5) : State → Out := runnerWord (solo (issueC (.await d t) (yieldM d t true)))

/-- YIELD. -/
def execYield (d : BitVec 5) : State → Out := runnerWord (solo (issueC (.yield d) (yieldM d 0 false)))

/-- The registers that a LIVE map names in a stream, without register 0. -/
def liveRegs (live : BitVec 20) : List Nat := ((List.range 16).filter fun i => live.getLsbD i).flatMap fun i => if i = 0 then [1] else [2 * i, 2 * i + 1]

/-- The subcode of R346 that a yield at this point raises, once every result that is no token's has arrived. -/
def Core.yieldBad (c : Core) (tok : Nat) : Option Nat :=
  let ra := liveRegs c.a.live
  let re := liveRegs c.e.live
  let pending := fun (st : Strm) (rs : List Nat) (but : Nat) => rs.any fun n => n != but && c.cmds.any fun k =>
    k.strm == st && k.detached == 0 && k.home == (c.seq st).home (BitVec.ofNat 5 n)
  if 16 < ra.length + re.length ∨ c.a.live.extractLsb' 16 4 ≠ 0 ∨ c.e.live.extractLsb' 16 4 ≠ 0 then some 1
  else if pending .a ra tok || pending .e re 0 then some 2
  else if !c.flat then some 5
  else none

/-- A command that writes its core's ULM (R347); an MST does where a row of its goes to the core itself, which has given it a write entry. -/
def CmdOp.writesUlm : CmdOp → Bool
  | .copy out .. => !out
  | .getr .. => true
  | .query _ _ _ _ _ form => !form
  | .papply .. => true
  | _ => false

/-- The record of a task that yields; commands that an earlier yield of the core has detached report to their own records. -/
def Core.yieldRec (c : Core) (me tok dest grp : Nat) : ContRec :=
  let ra := liveRegs c.a.live
  let re := liveRegs c.e.live
  let val := fun (q : Seq) (n : Nat) => Store.get 0 q.regs (q.home (BitVec.ofNat 5 n))
  { aNext := BitVec.ofNat 64 ((c.a.pc.toNat + 4) % 2 ^ 19)
    eNext := BitVec.ofNat 64 (c.e.groupStart.toNat % 2 ^ 19)
    regs := (ra.map fun n => (0, n, val c.a n)) ++ (re.map fun n => (1, n, val c.e n))
    mask := BitVec.ofNat 64 ((ra.map fun n => 2 ^ n).sum + 2 ^ 32 * (re.map fun n => 2 ^ n).sum)
    grp := grp
    pinned := if c.cmds.any fun k => k.open_ && (k.op.writesUlm || (k.op == .mst && k.wr.isSome)) then some me else none
    committed := false
    tok := tok
    status := 0
    dest := dest + 1
    outstanding := c.cmds.countP fun k => k.detached == 0
    ready := !c.cmds.any fun k => k.detached == 0
    abortedOn := 0 }

/-- The ready queue holds a record that no other runner that waits for one can take first (R348). -/
def State.worthYield (s : State) (core grp : Nat) : Bool :=
  let asid := (s.core core).asid.toNat
  let d := s.dom asid grp
  let recs := d.ready.filterMap (s.rec? asid)
  (recs.any fun r => r.pinned == some (s.logicalOf core)) || decide ((d.runners.filter s.takesRecord).length < recs.countP fun r => r.pinned.isNone)

/-- The yield of an AWAIT or a YIELD is taken at its paired safe point, or is not (R347, R348). -/
def State.takeYield (s : State) (core : Nat) : State :=
  let c := s.core core
  match c.wait with
  | some (.yield tok dest none) =>
    let asid := c.asid.toNat
    let stay := s.modCore core fun c => { c.unpark with wait := some (.yield tok dest (some 0)) }
    match c.domain with
    | none => stay
    | some grp =>
      if tok ≠ 0 ∧ c.a.pend.contains (c.a.home (BitVec.ofNat 5 tok)) = false then stay
      else if tok = 0 ∧ s.worthYield core grp = false then stay
      else if c.a.wb.isSome || c.e.wb.isSome then s.soon (.pairedSafePoint core)
      else match c.yieldBad tok with
        | some sub => takeTrap s core .a ⟨cTask, sub, 0, 0, c.a.pc.setWidth 19, c.a.groupStart.setWidth 19, false, none, 0⟩
        | none =>
          match (match c.task with | some t => some t.rec_ | none => s.freeRec asid) with
            | none => s.soon (.pairedSafePoint core)
            | some idx =>
              let s := s.release core 4
              let r := c.yieldRec (s.logicalOf core) tok dest grp
              let s := s.writeRec asid idx r
              let s := s.modDom asid grp fun d => { d with
                live := if c.task.isSome then d.live else d.live + 1
                ready := if r.ready then d.ready ++ [idx] else d.ready }
              (s.modCore core fun c => { c with
                cmds := c.cmds.map fun k => if k.detached = 0 then { k with detached := idx + 1 } else k
                a := { c.a with pend := [] } }).becomeRunner core grp
  | _ => s

/-! ### RETIRE (R348, R351, R352) -/

/-- The remote writes of a siding are sent in its order as packets of a core's flows (R351). -/
def State.sendHeld (s : State) (core : Nat) (rs : List (Nat × Nat × Nat × List Byte × Option Nat)) : State :=
  rs.foldl (fun s r =>
    if Config.cores ≤ r.1 then s.noteRefused core
    else s.send ⟨core, r.1, (s.core core).asid, true, 0, heldPayload r, 0, 0⟩) s

/-- The commit of a siding, indivisibly: one release at SYSTEM scope, and then the remote writes (R351); a task's copy writes count in the slots
of the rings that they have filled (R354). A granule whose check value fails does not land, and the kernel receives a record: a commit has no word
and no token whose route it could take (R433; DESIGN CHOICE, log entry 142). -/
def State.commit (s : State) (core : Nat) (siding : Store (Option Byte)) (bad : List Nat) (remote : List (Nat × Nat × Nat × List Byte × Option Nat))
    (copies : List (Nat × Nat)) : State :=
  let s := (s.perform core 4 (soundBytes bad siding) (s.core core).observed true).modCore core fun c => { c with observed := [] }
  let s := match siding.find? fun p => bad.contains (p.1 / 64) with
    | some p => s.machineCheck 3 (stationOfLoc p.1)
    | none => s
  (copies.foldl (fun s p => s.ringCount (s.core core).asid.toNat p.1 p.2) s).sendHeld core remote

/-- A task's record is freed, and the live count falls. -/
def State.freeTask (s : State) (asid idx : Nat) : State :=
  match s.rec? asid idx with
  | none => s
  | some r => (s.setRec asid idx none).modDom asid r.grp fun d => { d with live := d.live - 1 }

/-- RETIRE and RETIRE_CANCEL. -/
def retireM (cancel : Bool) (cx : Ctx) : DM Next := do
  let c ← onCore cx.core get
  match c.waitAgain cx with
  | some c => do
    onCore cx.core (set c)
    pure .hold
  | none => match c.wait with
  | some (.runner ..) => pure .hold
  | _ => do
    let grp ← onCore cx.core (do
      if cancel then pure () else forbidTourney
      let g ← domainM
      if cancel && !c.committed then taskFault 3 else pure ()
      if c.flat then pure () else taskFault 5
      if c.cmds.isEmpty then pure () else stallOut
      pure g)
    let s ← get
    let asid := c.asid.toNat
    let s := match c.task with
      | some t =>
        let s := if t.committed then (if cancel then s else s.commit cx.core t.siding t.bad t.remote t.copies) else s.release cx.core 4
        s.freeTask asid t.rec_
      | none => s.release cx.core 4
    set ((s.depart cx.core).becomeRunner cx.core grp)
    pure .hold

/-- RETIRE. -/
def execRetire : State → Out := runnerWord (solo (issue .retire (retireM false)))

/-- RETIRE_CANCEL. -/
def execRetireCancel : State → Out := runnerWord (solo (issue .retireCancel (retireM true)))

/-- The siding of a committed task has passed 256 KiB: the task ends as a failure, which is reported, and its core becomes a runner (R350). Its
commands go on (R243), but what they write reaches nothing but its own ULM. -/
def State.failTask (s : State) (core : Nat) : State :=
  let c := s.core core
  match c.task, c.domain with
  | some t, some grp =>
    if t.committed && decide (262144 < sidingUse t.siding t.remote) then
      let asid := c.asid.toNat
      let s := ((s.freeTask asid t.rec_).modDom asid grp fun d => { d with failures := d.failures + 1 }).report 2 core
      (s.modCore core fun c => { c with cmds := c.cmds.map fun k => if k.detached = 0 then { k with detached := noRecord + 1 } else k }).becomeRunner core grp
    else s
  | _, _ => s

/-! ### PROD, CONS and SNEXT (R355, R356) -/

/-- The core's pipeline and stage, after the checks of R346 for the word; first and last say which stages the word is not for. -/
def stageM (notFirst notLast : Bool) (cx : Ctx) : DM (Nat × Nat × Pipe) := do
  let s ← get
  let c := s.core cx.core
  onCore cx.core (do
    forbidTourney
    forbidTask)
  match c.inStage with
  | none => onCore cx.core (taskFault 6)
  | some (grp, k) => match s.pipe c.asid.toNat grp with
    | none => onCore cx.core (taskFault 6)
    | some p =>
      if (notFirst && k == 0) || (notLast && decide (p.stages ≤ k + 1)) then onCore cx.core (taskFault 6) else pure (grp, k, p)

/-- PROD. -/
def execProd (n : BitVec 3) (d x : BitVec 5) : State → Out :=
  issue (.prod n d x) fun cx => do
    let v ← onCore cx.core (rdX cx x)
    onCore cx.core (cmdRoom cx 0 false d 0)
    let (grp, k, p) ← stageM false true cx
    let bytes := fieldOf v 0 32
    onCore cx.core (raiseIf (bytes == 0 || decide ((p.ring k).slotBytes < bytes)) cAlign 0 (BitVec.ofNat 64 bytes) 0)
    let id ← startCmd cx (.prod n d x) { tok := d, slot := false, op := .prod bytes }
    let asid := (← onCore cx.core get).asid.toNat
    modify fun s => (s.modRing asid grp k fun r => { r with prodClaims := r.prodClaims ++ [(cx.core, id)] }).post (.prodGrant asid grp k)
    pure .seq

/-- CONS. -/
def execCons (n : BitVec 3) (d : BitVec 5) : State → Out :=
  issue (.cons n d) fun cx => do
    onCore cx.core (cmdRoom cx 0 false d 0)
    let (grp, k, _) ← stageM true false cx
    let id ← startCmd cx (.cons n d) { tok := d, slot := false, op := .cons }
    let asid := (← onCore cx.core get).asid.toNat
    modify fun s => (s.modRing asid grp (k - 1) fun r => { r with consClaims := r.consClaims ++ [(cx.core, id)] }).post (.consGrant asid grp (k - 1))
    pure .seq

/-- PROD_CLOSE. -/
def execProdClose (n : BitVec 3) (d : BitVec 5) : State → Out :=
  issue (.prodClose n d) fun cx => do
    onCore cx.core (cmdRoom cx 0 false d 0)
    let (grp, k, _) ← stageM false true cx
    let _ ← startCmd cx (.prodClose n d) { tok := d, slot := false, op := .prodClose }
    let asid := (← onCore cx.core get).asid.toNat
    modify fun s => (s.modRing asid grp k fun r =>
      { r with closers := if r.closers.contains cx.core then r.closers else r.closers ++ [cx.core] }).post (.prodGrant asid grp k)
    pure .seq

/-- The slot that a core drains in a ring. -/
def Ring.draining (r : Ring) (core : Nat) : Option Nat := (r.slots.find? fun v => v.2.st == 3 && v.2.owner == core).map Prod.fst

/-- SNEXT. -/
def execSnext (n : BitVec 3) (d : BitVec 5) : State → Out :=
  issue (.snext n d) fun cx => do
    onCore cx.core (cmdRoom cx 0 false d 0)
    let (grp, k, p) ← stageM false false cx
    let c ← onCore cx.core get
    let asid := c.asid.toNat
    match (if k = 0 then none else (p.ring (k - 1)).draining cx.core) with
    | some i => modify fun s => s.freeSlot asid grp (k - 1) i
    | none => pure ()
    onCore cx.core (wrX cx d (BitVec.ofNat 64 (k + (if c.ctl.stage.getLsbD 52 then 2 ^ 8 else 0))))
    pure .seq

/-- The value that a grant writes (R356). -/
def grantWord (r : Ring) (i : Nat) (phase : Bool) : Word :=
  BitVec.ofNat 64 ((r.va + i * r.slotBytes) % 2 ^ 52 + 2 ^ 52 * i + (if phase then 2 ^ 58 else 0))

/-- The cores in a stage of a group's pipeline: those whose STAGE says so. -/
def State.stageCores (s : State) (asid grp k : Nat) : List Nat :=
  (s.cores.filter fun p => p.2.asid.toNat == asid && (p.2.run == .running || p.2.run == .saved) && p.2.inStage == some (grp, k)).map Prod.fst

/-- No earlier claim of the core is pending: claims of one core are granted in issue order (R356). -/
def State.claimFirst (s : State) (core id : Nat) : Bool := !(s.core core).cmds.any fun k => decide (k.id < id) && k.op.claim && k.open_

/-- The rings of a group on both sides of one look at their claims again. -/
def State.regrant (s : State) (asid grp j : Nat) : State :=
  ((s.post (.prodGrant asid grp j)).post (.prodGrant asid grp (j + 1))).post (.consGrant asid grp (j - 1))

/-- Grant the next slot of a ring to the oldest PROD whose core has no earlier claim. -/
def State.grantProd (s : State) (asid grp j : Nat) : State :=
  match s.pipe asid grp with
  | none => s
  | some p =>
    let r := p.ring j
    match r.prodClaims.find? fun k => s.claimFirst k.1 k.2 with
    | none => s
    | some (core, id) =>
      let v := r.slot r.prod
      let rest := r.prodClaims.filter fun k => k != (core, id)
      match (s.core core).cmd? id with
      | none => s.modRing asid grp j fun r => { r with prodClaims := rest }
      | some k =>
        if v.st ≠ 0 then s
        else
          let bytes : Nat := match k.op with | .prod n => n | _ => 0
          let s := s.modRing asid grp j fun r => { r.setSlot r.prod { v with
              st := 1
              fullPend := bytes
              bytes := bytes
              owner := core } with
            prodClaims := rest
            prod := (r.prod + 1) % r.nslots }
          (s.endCmdWith core id (grantWord r r.prod v.emptyPhase)).regrant asid grp j

/-- The prod.close words of a stage whose slots are full complete, and the ring closes with the last of the stage's cores (R356). -/
def State.closeRing (s : State) (asid grp j : Nat) : State :=
  match s.pipe asid grp with
  | none => s
  | some p =>
    let r := p.ring j
    let full := fun core => !(r.slots.any fun v => v.2.owner == core && v.2.st == 1) && !(r.prodClaims.any fun k => k.1 == core)
    let s := (r.closers.filter full).foldl (fun s core =>
      ((s.core core).cmds.filter fun k => k.open_ && k.op == .prodClose).foldl (fun s k => s.endCmd core k.id 0 0 0) s) s
    if !r.closed && !r.closers.isEmpty && (s.stageCores asid grp j).all fun n => r.closers.contains n then
      (s.modRing asid grp j fun r => { r with closed := true }).post (.consGrant asid grp j)
    else s

/-- PROD_GRANT. -/
def execProdGrant (asid grp ring : Nat) (s : State) : Out :=
  .next (((s.grantProd asid grp ring).closeRing asid grp ring).post (.consGrant asid grp ring))

/-- Nothing is left in a closed ring beyond the slots that have been granted (R356). -/
def Ring.ended (r : Ring) : Bool := r.closed && !(r.slots.any fun v => v.2.st == 1 || v.2.st == 2)

/-- CONS_GRANT: the next full slot goes to the oldest CONS whose core drains none and has no earlier claim; on a closed ring with nothing left,
every CONS receives -14. -/
def execConsGrant (asid grp ring : Nat) (s : State) : Out :=
  let s := s.closeRing asid grp ring
  match s.pipe asid grp with
  | none => .next s
  | some p =>
    let r := p.ring ring
    let v := r.slot r.cons
    if r.ended then
      .next (r.consClaims.foldl (fun s k => s.endCmd k.1 k.2 (-14) 0 0) (s.modRing asid grp ring fun q => { q with consClaims := [] }))
    else match r.consClaims.find? fun k => (r.draining k.1).isNone && s.claimFirst k.1 k.2 with
    | none => .next s
    | some (core, id) =>
      if v.st = 2 then
        let s := s.modRing asid grp ring fun r => { r.setSlot r.cons { v with st := 3, owner := core } with
          consClaims := r.consClaims.filter fun k => k.2 != id
          cons := (r.cons + 1) % r.nslots }
        .next ((((s.acquire core 3).endCmdWith core id (grantWord r r.cons v.fullPhase)).post (.consGrant asid grp ring)).regrant asid grp ring)
      else .next s

/-! ### The shunter (R357, R358) -/

/-- STAGE (R358). -/
def mkStage (grp stage : Nat) (next : Option Nat) : Word :=
  BitVec.ofNat 64 (2 ^ 63 + (match next with | some k => 2 ^ 52 + 2 ^ 48 * k | none => 0) + 16 * grp + stage)

/-- Occupancy of a ring. -/
def Ring.occ (r : Ring) : Nat := r.slots.countP fun v => v.2.st != 0

/-- A core's rank in a group. -/
def Core.rankIn (c : Core) (grp : Nat) : Nat := match c.slotOf grp with | some i => gmemRank (c.gmem i) | none => Config.cores

/-- The core with the lowest rank. -/
def State.lowestRank (s : State) (grp : Nat) (ms : List Nat) : Option Nat :=
  ms.foldl (fun b m => match b with
    | none => some m
    | some n => if (s.core m).rankIn grp < (s.core n).rankIn grp then some m else b) none

/-- Mark the lowest unmarked core of stage k to move to another, if the stage keeps its minimum. -/
def State.markMove (s : State) (asid grp : Nat) (p : Pipe) (k to_ : Nat) : State :=
  let all := s.cores.countP fun c => c.2.asid.toNat == asid && (c.2.inStage.map Prod.fst) == some grp && c.2.stageNext == k && (c.2.run == .running || c.2.run == .saved)
  if all ≤ Store.get 0 p.mins k then s
  else match s.lowestRank grp ((s.stageCores asid grp k).filter fun n => !(s.core n).ctl.stage.getLsbD 52) with
    | some n => s.modCore n fun c => { c with ctl := { c.ctl with stage := mkStage grp k (some to_) } }
    | none => s

/-- One visit of the shunter to a ring. -/
def State.shunt (s : State) (asid grp : Nat) (p : Pipe) (j : Nat) : State :=
  let r := p.ring j
  let pending := s.cores.any fun c => c.2.asid.toNat == asid && (c.2.inStage.map Prod.fst) == some grp && c.2.ctl.stage.getLsbD 52
    && ((bitsOf c.2.ctl.stage 0 4 == j && c.2.stageNext == j + 1) || (bitsOf c.2.ctl.stage 0 4 == j + 1 && c.2.stageNext == j))
  if pending || p.shut j || p.shut (j + 1) then s
  else if r.hi ≤ r.occ then s.markMove asid grp p j (j + 1)
  else if r.occ ≤ r.lo then s.markMove asid grp p (j + 1) j
  else s

/-- SHUNTER_INTERVAL. -/
def execShunterInterval (asid grp : Nat) (s : State) : Out :=
  match s.pipe asid grp with
  | none => .next s
  | some p =>
    if s.ns < p.next then .next (s.soon (.shunterInterval asid grp))
    else
      let s := (List.range (p.stages - 1)).foldl (fun s j => s.shunt asid grp p j) s
      .next ((s.modPipe asid grp fun p => { p with next := s.ns + 1000 * p.intervalUs }).soon (.shunterInterval asid grp))

/-- STAGE_SWITCH: a marked core starts at its new stage's entries (R358). -/
def execStageSwitch (core : Nat) (s : State) : Out :=
  let c := s.core core
  if !c.pairParked || !c.q.isEmpty || s.pairAct core != some .switch then .next s
  else if c.cmds.any fun k => k.op.claim && k.open_ then .next ((s.withdrawClaims core).soon (.stageSwitch core))
  else if !c.quiet then .next (s.soon (.stageSwitch core))
  else
    let s := ((disbandGang s core).release core 4).dropRunner core
    let k := c.stageNext
    let e := Store.get (0, 0) c.entries (2 + k)
    .next ((s.modCore core fun c => { c with ctl := { c.ctl with stage := mkStage (bitsOf c.ctl.stage 4 8) k none } }).startAt core e.1 e.2)

end Sys2Proof.Machine
end

