-- ==== Sys2Proof/Machine/Launch.lean ====
section
/-!
DEFINITION. Launching a gang of cores (R423, R424, R353), for the LAUNCH packet and for the contestants of a tournament.
-/

namespace Sys2Proof.Machine

/-- A malformed packet unless b holds. -/
def formed (b : Bool) : Except LoadErr Unit := if b then .ok () else .error .malformed

/-- The common header of a packet is well formed (R420). -/
def headerOk (bs : List Byte) : Bool :=
  let h := fieldAt bs 0 8
  let sva := fieldAt bs 8 8
  decide (1 ≤ h % 256) && decide (h % 256 ≤ 10) && decide (h < 2 ^ 10) && decide (sva < 2 ^ 52) && sva % 8 == 0 && (h / 512 % 2 == 1 || sva == 0)

/-- What a LAUNCH body asks for (R423). -/
structure LaunchReq where
  va : Nat
  proc : Nat
  n : Nat
  per : Nat
  grp : Nat
  w : Nat
  geo : Word
  params : Nat
  pipe : Nat
  seed : Word
  deriving DecidableEq, Repr

/-- Tiles that it asks for. -/
def LaunchReq.tiles (r : LaunchReq) : Nat := (r.n + r.per - 1) / r.per

/-- The LAUNCH body (R423). -/
def parseLaunch (bs : List Byte) : Except LoadErr LaunchReq := do
  let o := fieldAt bs 0x10 8
  let f := fieldAt bs 0x18 8
  let n := f % 2 ^ 14
  let w := f / 2 ^ 24 % 256
  formed (decide (o < 2 ^ 60) && decide (f < 2 ^ 32) && decide (1 ≤ n) && decide (n ≤ Config.cores) && f / 2 ^ 14 % 4 != 3 && decide (1 ≤ w)
    && decide (w ≤ 48) && decide (fieldAt bs 0x28 8 < 2 ^ 52) && decide (fieldAt bs 0x30 8 < 2 ^ 52))
  pure {
    va := o % 2 ^ 52
    proc := o / 2 ^ 52
    n := n
    per := 2 ^ (f / 2 ^ 14 % 4)
    grp := f / 2 ^ 16 % 256
    w := w
    geo := BitVec.ofNat 64 (fieldAt bs 0x20 8)
    params := fieldAt bs 0x28 8
    pipe := fieldAt bs 0x30 8
    seed := BitVec.ofNat 64 (fieldAt bs 0x38 8) }

/-! ### Placement (R424) -/

/-- A tile is free for a launch: it serves compute, holds nothing, and is neither annealing nor cautioned. -/
def State.freeTile (s : State) (t : Nat) : Bool :=
  let m := s.tileMap t
  m.role == 0 && m.toward.isNone && !s.resident t && !s.cautioned t && !s.implicit t

/-- Sites of the first t positions of a rectangle of width w from an origin, in row-major order. -/
def rectSites (o t w : Nat) : List Nat := (List.range t).map fun p => o + p / w * 48 + p % w

/-- The rectangle lies within one compute die. -/
def rectFits (o t w : Nat) : Bool := decide (o % 48 % 24 + w ≤ 24) && decide (o / 48 % 24 + (t + w - 1) / w ≤ 24)

/-- The lowest origin at which all positions hold free tiles; taken lists tiles that another launch of the same scope has. -/
def State.origin (s : State) (t w : Nat) (taken : List Nat) : Option Nat :=
  (List.range Config.sites).find? fun o =>
    rectFits o t w && (rectSites o t w).all fun x => s.freeTile (s.tileAt x) && !taken.contains (s.tileAt x)

/-- The site cores of a launch, by rank. -/
def rankSites (o n per w : Nat) : List Nat := (List.range n).map fun r => 4 * (o + r / per / w * 48 + r / per % w) + r % per

/-! ### Pipeline descriptors (R353) -/

/-- The stages' first ranks, and the pipeline. -/
def parsePipe (bs : List Byte) (n : Nat) : Option (List Nat × Pipe) :=
  let h := fieldAt bs 0 8
  let k := h % 16 + 1
  let us := h / 2 ^ 16 % 2 ^ 16
  let st := fun i => fieldAt bs (0x40 + 16 * i) 8
  let first := (List.range k).map fun i => st i / 2 ^ 16 % 2 ^ 14
  let ends := first.drop 1 ++ [n]
  let r0 := fun j => fieldAt bs (0x140 + 32 * j) 8
  let r1 := fun j => fieldAt bs (0x148 + 32 * j) 8
  let r2 := fun j => fieldAt bs (0x150 + 32 * j) 8
  let ok := decide (h < 2 ^ 32) && h / 16 % 2 ^ 12 == 0 && (List.range 7).all (fun i => fieldAt bs (8 + 8 * i) 8 == 0)
    && decide (1 ≤ us) && decide (us ≤ 1000)
    && (List.range k).all (fun i => decide (st i < 2 ^ 30) && st i / 256 % 256 == 0 && decide (1 ≤ st i % 256) && fieldAt bs (0x48 + 16 * i) 8 == 0
      && decide (first.getD i 0 + st i % 256 ≤ ends.getD i 0))
    && first.getD 0 1 == 0
    && (List.range (k - 1)).all fun j =>
      let bytes := r1 j % 2 ^ 32
      let slots := r1 j / 2 ^ 32 % 2 ^ 7
      let hi := r2 j % 64
      let lo := r2 j / 256
      decide (r0 j < 2 ^ 52) && r0 j % 64 == 0 && bytes % 64 == 0 && decide (64 ≤ bytes) && decide (bytes ≤ 2 ^ 20) && decide (r1 j < 2 ^ 39)
        && decide (1 ≤ slots) && decide (slots ≤ 64) && decide (r2 j < 2 ^ 14) && r2 j / 64 % 4 == 0 && decide (lo < hi) && decide (hi ≤ slots)
        && fieldAt bs (0x158 + 32 * j) 8 == 0
  if ok = false then none
  else some (first, {
    stages := k
    intervalUs := us
    mins := (List.range k).foldl (fun m i => Store.set 0 m i (st i % 256)) []
    rings := (List.range (k - 1)).foldl (fun m j => Store.set {} m j {
      va := r0 j
      slotBytes := r1 j % 2 ^ 32
      nslots := r1 j / 2 ^ 32 % 2 ^ 7
      hi := r2 j % 64
      lo := r2 j / 256 }) [] })

/-- The stage of a rank. -/
def stageOf (first : List Nat) (rank : Nat) : Nat := (first.countP fun f => decide (f ≤ rank)) - 1

/-! ### The launch -/

/-- A launch that is ready to happen. -/
structure LaunchPlan where
  req : LaunchReq
  /-- site cores by rank -/
  cores : List Nat
  images : List Image
  /-- a portable object's key and native forms (R59) -/
  cache : Option (BitVec 384 × List Obj)
  /-- the doublewords of the parameter block that the image's parameters name, for m1 to m15 -/
  values : List Word
  /-- first ranks of the stages, and the pipeline -/
  pipe : Option (List Nat × Pipe)
  /-- where the next GDATA placement starts -/
  gnext : Nat
  deriving DecidableEq, Repr

/-- The VA from which a launch places its GDATA: page by page from the ASID's base, never twice (R40). -/
def State.gdataVa (s : State) (asid : Nat) : Nat := Config.gdataBase asid % 2 ^ 30 * 65536 + Store.get 0 s.stn.gnext asid

/-- The membership in a slot goes on beside a launch into group grp of an ASID: its group is another of the same ASID, which is still valid and
still binds the core (DESIGN CHOICE: the spec does not say when a slot ceases to be in use). -/
def State.slotKept (s : State) (core asid grp i : Nat) : Bool :=
  let c := s.core core
  let v := c.gmem i
  let g := bitsOf v 40 8
  v.getLsbD 63 && c.asid.toNat == asid && g != grp && (match s.group asid g with
    | some e => decide (gmemRank v < e.size) && s.binding e (gmemRank v) == s.logicalOf core
    | none => false)

/-- The lowest slot that is not in use; none for a fifth membership (R320). -/
def State.slotFor (s : State) (core asid grp : Nat) : Option Nat := (List.range 4).find? fun i => !s.slotKept core asid grp i

/-- A launch is checked and placed (R424, steps 1 and 2); none where no origin fits. -/
def State.planLaunch (s : State) (asid : Nat) (r : LaunchReq) (taken : List Nat) : Except LoadErr (Option LaunchPlan) := do
  let o ← s.readObj asid r.va
  need (s.group asid r.grp).isNone
  let va := s.gdataVa asid
  let m0 ← rejecting (do (← o.native ⟨fun _ _ => (0, 0), [], 0, true⟩).image r.proc va)
  let pipe ← if r.pipe = 0 then Except.ok (none : Option (List Nat × Pipe)) else do
    match parsePipe (← s.readFor asid r.pipe 800) r.n with
    | none => Except.error (LoadErr.reject .launch)
    | some p => Except.ok (some p)
  need (match pipe with
    | none => true
    | some p => (List.range p.2.stages).all fun k => m0.entries.any fun e => e.1 == 2 + k)
  let values ← (List.range 15).mapM fun i =>
    if m0.params.contains (i + 1) then (s.readFor asid (r.params + 8 * i) 8).map fun bs => BitVec.ofNat 64 (fieldAt bs 0 8)
    else Except.ok (0 : Word)
  match s.origin r.tiles r.w taken with
  | none => pure none
  | some x =>
    let cores := rankSites x r.n r.per r.w
    need (cores.all fun c => (s.slotFor c asid r.grp).isSome)
    let objs ← rejecting (s.natives o cores)
    let images ← rejecting (objs.mapM fun b => b.image r.proc va)
    let end_ := (o.gbases va).1
    let _ ← (m0.globals.mapM fun g => s.placesFor asid g.1 1 g.2.length)
    pure (some {
      req := r
      cores := cores
      images := images
      cache := if o.portable then some (s.cacheKey o cores, objs) else none
      values := values
      pipe := pipe
      gnext := Store.get 0 s.stn.gnext asid + alignUp (end_ - va) 16 })

/-- The ranges of its file that the reading of an object looks at, as far as it can read where they lie: the header, the tables of records, and the
contents of each section (R37, R38). -/
def State.objRanges (s : State) (asid va : Nat) : List (Nat × Nat) :=
  match s.fileBytes asid va 0 64 with
  | .error _ => [(0, 64)]
  | .ok h =>
    let part := fun (i size count : Nat) => (fieldAt h (32 + 4 * i) 4, size * count)
    let secs := match s.fileBytes asid va (fieldAt h 32 4) (24 * fieldAt h 8 4) with
      | .error _ => []
      | .ok bs => (recsOf bs 24).map fun r => (fieldAt r 12 4, fieldAt r 8 4)
    [(0, 64), part 0 24 (fieldAt h 8 4), part 1 16 (fieldAt h 12 4), part 2 16 (fieldAt h 16 4), part 3 20 (fieldAt h 20 4),
      part 4 12 (fieldAt h 24 4), part 5 1 (fieldAt h 28 4)] ++ secs

/-- The reads of a launch set the accessed bits of the object, the pipeline descriptor and the parameters, whatever becomes of the launch (R261). -/
def State.touchLaunch (s : State) (asid : Nat) (r : LaunchReq) : State :=
  let s := (s.objRanges asid r.va).foldl (fun s p => s.touch asid (r.va + p.1) p.2 ⟨0, false⟩) s
  let s := if r.pipe = 0 then s else s.touch asid r.pipe 800 ⟨0, false⟩
  if r.params = 0 then s else s.touch asid r.params 120 ⟨0, false⟩

/-- The bits of TDELEG that are not RO 0 (R407). -/
def delegMask : BitVec 25 := 0x1F33DE7

/-- A core as a launch sets it before it starts (R98, R102, R119, R151, R160, R320, R373, R407, R424). A deposit in its latch stays there and is
answered as R101 says (DESIGN CHOICE: the rule of the launch does not name the latch). -/
def State.setCoreUp (s : State) (core asid logical grp rank epoch size : Nat) (m : Image) (params : List (Nat × Word)) (geo seed : Word) : State :=
  let old := s.core core
  let kept := (List.range 4).foldl (fun m i => if s.slotKept core asid grp i then Store.set 0 m i (old.gmem i) else m) []
  let svec := Store.get 0 s.stn.profSvec asid &&& 0x7F000
  let c : Core := {
    logical := logical + 1
    asid := BitVec.ofNat 12 asid
    a := { svec := svec }
    e := { svec := svec }
    mat := { mgsr := old.mat.mgsr }
    msg := { m := old.msg.m, latch := old.msg.latch }
    ctl := {
      gmem := kept
      geo := geo
      srseed := if seed = 0 then Config.seed else seed
      tdeleg := (Store.get 0 s.stn.profDeleg asid).setWidth 25 &&& delegMask
      wdog := (Store.get 0x10000 s.stn.profWdog asid).setWidth 32 }
    party := old.party }
  let c := (c.loadImage m).setGmem ((s.slotFor core asid grp).getD 0) (mkGmem epoch grp rank size)
  (s.dropRequests core).setCore core { c with msg := params.foldl (fun g p => g.put p.1 p.2) c.msg }

/-- The group's entry and its binding table are written at DEVICE scope (R318, R319, R424). -/
def State.writeGroup (s : State) (asid grp home size : Nat) (ranks : List (Nat × Nat)) : State :=
  let tab := Store.get 0 s.stn.bindArea asid + 18432 * grp
  let s := ranks.foldl (fun s r => s.partyWrite stationParty 3 (tab + 2 * r.1) (toBytes 2 r.2)) s
  s.partyWrite stationParty 3 (Store.get 0 s.stn.groupTab asid + 16 * grp)
    (toBytes 8 (1 + tab / Config.channelBytes * 2 ^ 20 + tab % Config.channelBytes / 64 * 2 ^ 29) ++ toBytes 8 (home * 2 ^ 20 + size * 2 ^ 32))

/-- The parameters that a launch deposits: register and value. -/
def LaunchPlan.params (p : LaunchPlan) (m : Image) : List (Nat × Word) := m.params.map fun r => (r, p.values.getD (r - 1) 0)

/-- A launch happens (R424, steps 3 to 6); scope and contestant are those of R387, or (0, 0). -/
def State.launchNow (s : State) (asid : Nat) (p : LaunchPlan) (scope : Nat × Nat) : State :=
  let r := p.req
  let home := 4 * dieOf (p.cores.headD 0)
  let s := match p.cache with
    | some e => s.remember e.1 e.2
    | none => s
  let s := match p.images with
    | m :: _ => m.globals.foldl (fun (s : State) (g : Nat × List Byte) => s.deviceWrite asid g.1 g.2) s
    | [] => s
  let names := p.cores.map fun c => 4 * s.tileAt (siteOf c) + c % 4
  let s := s.writeGroup asid r.grp home r.n (names.mapIdx fun i l => (i, l))
  let s := { s with
    stn := { s.stn with gnext := Store.set 0 s.stn.gnext asid p.gnext }
    pipes := Store.set none s.pipes (groupKey asid r.grp) (p.pipe.map fun (q : List Nat × Pipe) => { q.2 with next := s.ns + 1000 * q.2.intervalUs })
    doms := Store.set {} s.doms (groupKey asid r.grp) {} }
  let s := s.setBar asid r.grp {}
  let s := (List.range r.n).foldl (fun s i =>
    match imageOf p.images i with
    | none => s
    | some m =>
      let core := p.cores.getD i 0
      let s := s.setCoreUp core asid (names.getD i 0) r.grp i 0 r.n m (p.params m) r.geo r.seed
      let k := match p.pipe with
        | some q => 2 + stageOf q.1 i
        | none => 0
      let s := s.modCore core fun c => { c with
        scope := scope
        ctl := { c.ctl with stage := match p.pipe with
          | some q => mkStage r.grp (stageOf q.1 i) none
          | none => 0 } }
      let e := Store.get (0, 0) m.entries k
      s.startAt core e.1 e.2) s
  if p.pipe.isSome then s.soon (.shunterInterval asid r.grp) else s

end Sys2Proof.Machine
end

