-- ==== Sys2Proof/Machine/Tournament.lean ====
section
/-!
DEFINITION. Tournament scopes (R387 to R400).
-/

namespace Sys2Proof.Machine

/-- A tournament's state at its home station. -/
def State.scope? (s : State) (id : Nat) : Option Scope := Store.get none s.scopes id

/-- Change a scope. -/
def State.modScope (s : State) (id : Nat) (f : Scope → Scope) : State := { s with scopes := Store.modify none s.scopes id fun o => o.map f }

/-! ### SCORE, HEAT and TQ (R391 to R394) -/

/-- A SCORE is sent toward the home station (R392). -/
def scoreM (kind : Nat) (v : Ctx → CM Word) (cx : Ctx) : DM Next := do
  let x ← onCore cx.core (v cx)
  let c ← onCore cx.core get
  onCore cx.core (raiseIf (c.scope.1 == 0) cTourney 1 0 0)
  modify fun s => s.modScope (c.scope.1 - 1) fun k => { k with scores := k.scores ++ [(cx.core, c.scope.2, x, kind)] }
  postEvent (.scoreArrival (c.scope.1 - 1))
  pure .seq

/-- SCORE.S64. -/
def execScoreS64 (n : BitVec 3) (x : BitVec 5) : State → Out := issue (.scoreS64 n x) (scoreM 1 fun cx => rdX cx x)

/-- SCORE.Z64. -/
def execScoreZ64 (n : BitVec 3) (x : BitVec 5) : State → Out := issue (.scoreZ64 n x) (scoreM 2 fun cx => rdX cx x)

/-- SCORE.F64. -/
def execScoreF64 (n : BitVec 3) (x : BitVec 5) : State → Out := issue (.scoreF64 n x) (scoreM 3 fun cx => rdX cx x)

/-- SCORE.CLR. -/
def execScoreClr (n : BitVec 3) : State → Out := issue (.scoreClr n) (scoreM 0 fun _ => pure 0)

/-- SCORE_ARRIVAL: the oldest SCORE on its way reaches the score register (R392). -/
def execScoreArrival (scope : Nat) (s : State) : Out :=
  match s.scope? scope with
  | none => .next s
  | some k => match k.scores with
    | [] => .next s
    | (_, i, v, kind) :: r =>
      .next (((s.modScope scope fun k => { k with scores := r }).modContestant scope i fun t => { t with
        score := if kind = 0 then 0 else v
        kind := kind }).post (.roundEnd scope))

/-- HEAT: it waits for its paired safe point and for the end of the round (R393). -/
def heatM (d : BitVec 5) (cx : Ctx) : CM Next := do
  let c ← get
  match c.wait with
  | some (.heat none) => pure .hold
  | some (.heat (some r)) => do
    modify fun c => { c with wait := none }
    wrX cx d (BitVec.ofNat 64 r)
    pure .seq
  | _ => do
    raiseIf (c.scope.1 == 0) cTourney 1 0 0
    destFree cx (if d = 0 then 0 else c.a.home d)
    modify fun c => { c with wait := some (.heat none) }
    pure .hold

/-- HEAT. -/
def execHeat (d : BitVec 5) : State → Out := issueC (.heat d) (heatM d)

/-- What TQ reads (R394). -/
def State.tqValue (s : State) (core sel : Nat) : Word :=
  match s.contestant core with
  | none => 0
  | some (_, k, _) =>
    let c := s.core core
    if sel = 0 then BitVec.ofNat 64 k.round
    else if sel = 1 then c.ctl.tshare
    else if sel = 2 then BitVec.ofNat 64 c.scope.2
    else if sel = 3 then BitVec.ofNat 64 (k.contestants.countP fun t => t.alive)
    else BitVec.ofNat 64 (2 ^ (k.lb + k.round))

/-- TQ. -/
def execTq (n : BitVec 3) (d c : BitVec 5) : State → Out :=
  issue (.tq n d c) fun cx => do
    let s ← get
    onCore cx.core (wrX cx d (s.tqValue cx.core c.toNat))
    pure .seq

/-! ### Stops (R390, R395) -/

/-- The members of a core's gang stop for the round. -/
def State.stopRound (s : State) (ms : List Nat) : State :=
  let s := ms.foldl (fun s m => s.modCore m fun c => { c with roundStop := true, ctl := { c.ctl with allowStop := false } }) s
  match ms with
  | m :: _ => if (s.core m).scope.1 = 0 then s else s.post (.roundEnd ((s.core m).scope.1 - 1))
  | [] => s

/-- ALLOWANCE_STOP: the core parks for the round at its paired safe point, and its gang with it (R390). -/
def execAllowanceStop (core : Nat) (s : State) : Out :=
  let ms := s.gangOf core
  if s.pairAct core != some .allow || !ms.all (fun m => (s.core m).pairParked && (s.core m).q.isEmpty) then .next s
  else .next (s.stopRound ms)

/-- A contestant whose siding has passed its limit fails, and each of its cores stops at the next boundary (R395); none when nothing changes. -/
def State.failContestant (s : State) (core : Nat) : Option State :=
  match s.contestant core with
  | none => none
  | some (id, k, t) =>
    let failed := t.failed || decide (k.sb < sidingUse t.siding t.remote)
    let c := s.core core
    if !failed || c.roundStop || c.run != .running then none
    else some (((s.modContestant id c.scope.2 fun t => { t with failed := true }).modCore core fun c => { c with
      roundStop := true
      a := { c.a with parked := true }
      e := { c.e with parked := true } }).post (.roundEnd id))

/-! ### Rounds (R388, R389, R396) -/

/-- A member's core: one at a site, the context of one that has been evicted, or one that had ended when another program took its site. -/
def State.memberCore (s : State) (m : Nat) : Core :=
  if m < Config.cores then s.core m
  else if m < goneBase then { (Store.get none s.saved (m - evictedAs 0)).getD {} with run := .saved }
  else { run := .done }

/-- Change a member's core, and its context where it is saved. -/
def State.modMember (s : State) (m : Nat) (f : Core → Core) : State :=
  let keep := fun (s : State) (l : Nat) => { s with saved := Store.modify none s.saved l fun o => o.map f }
  if m < Config.cores then
    (if (s.core m).run = .saved then keep s (s.logicalOf m) else s).modCore m f
  else if m < goneBase then keep s (m - evictedAs 0)
  else s

/-- A member is live: it has not halted and has not been killed. -/
def State.liveMember (s : State) (n : Nat) : Bool := (s.memberCore n).run == .running || (s.memberCore n).run == .saved

/-- The shares of a round for one contestant (R389). -/
def State.giveShares (s : State) (allowance : Nat) (t : Contestant) : State :=
  let ms := t.members.filter s.liveMember
  (ms.mapIdx fun i n => (i, n)).foldl (fun (s : State) (p : Nat × Nat) =>
    let share := allowance / ms.length + (if p.1 < allowance % ms.length then 1 else 0)
    s.modMember p.2 fun c => { c with ctl := { c.ctl with
      tshare := BitVec.ofNat 64 share
      over_ := 0
      allowStop := decide (share = 0)
      events := if c.ctl.twarn ≠ 0 ∧ share ≤ c.ctl.twarn.toNat then c.ctl.events ||| 8 else c.ctl.events } }) s

/-- A member stands still until the round begins in which it starts (R388, R398). -/
def Core.holdRound (c : Core) : Core := { c with roundStop := true, a := { c.a with parked := true }, e := { c.e with parked := true } }

/-- A stopped member goes on in the round that begins; a HEAT receives its number (R393). -/
def Core.resumeRound (c : Core) (round : Nat) : Core :=
  { c with
    roundStop := false
    wait := match c.wait with
      | some (.heat none) => some (.heat (some round))
      | w => w }

/-- ROUND_START: shares are given, and the members of the contestants alive go on (R389). -/
def execRoundStart (scope : Nat) (s : State) : Out :=
  match s.scope? scope with
  | none => .next s
  | some k =>
    if k.over_ || k.begun then .next s
    else
      let ts := k.contestants.filter fun t => t.alive
      let s := ts.foldl (fun (s : State) (t : Contestant) => s.giveShares (2 ^ (k.lb + k.round)) t) s
      let s := ts.foldl (fun (s : State) (t : Contestant) =>
        if t.failed then s else (t.members.filter s.liveMember).foldl (fun s n => s.modMember n fun c => c.resumeRound k.round) s) s
      .next ((s.modScope scope fun k => { k with begun := true }).post (.roundEnd scope))

/-- A member's core is held in a trap (R390). -/
def Core.inTrap (c : Core) : Bool := c.run == .dead || (c.run == .running && (c.ctl.ub || c.ctl.sb))

/-- A core lets the round end (R396). One that is held in a trap lets it end once no handler of its can return any more, after a double fault: while
a handler runs, the round does not end, and the core runs on in it after TRET (R400; DEDUCED). -/
def Core.stopsRound (c : Core) : Bool := c.run == .done || c.run == .dead || (c.run == .running && c.roundStop)

/-- A core has stored into global memory, or has a remote write under way, that is not complete: it joins the siding before the round ends, so that
the siding holds what was issued before (R395, R463; DEDUCED). -/
def Core.writing (c : Core) : Bool := c.cmds.any fun k => k.open_ && k.op.classes &&& clWrites != 0

/-- The value of a score under a kind, as a number whose order is the kind's (R396). -/
def scoreKey (kind : Nat) (v : Word) : Int :=
  if kind = 1 then v.toInt
  else if kind = 2 then (v.toNat : Int)
  else if v.getLsbD 63 then -(bitsOf v 0 63 : Int) else (bitsOf v 0 63 : Int)

/-- A contestant's key at the end of a round: none for unset (R396). -/
def State.keyOf (s : State) (k : Scope) (t : Contestant) : Option Int :=
  let nan := k.kind == 3 && bitsOf t.score 52 11 == 2047 && bitsOf t.score 0 52 != 0
  if t.failed || t.kind != k.kind || nan || t.members.any (fun n => (s.memberCore n).inTrap) then none else some (scoreKey k.kind t.score)

/-- better(a, b) for two indexes with their keys (R396). -/
def better (dir : Bool) (a b : Nat × Option Int) : Bool :=
  match a.2, b.2 with
  | some _, none => true
  | none, some _ => false
  | none, none => decide (a.1 < b.1)
  | some x, some y => if x = y then decide (a.1 < b.1) else if dir then decide (y < x) else decide (x < y)

/-- Insert in the order of better. -/
def insertBest (dir : Bool) (x : Nat × Option Int) : List (Nat × Option Int) → List (Nat × Option Int)
  | [] => [x]
  | y :: r => if better dir x y then x :: y :: r else y :: insertBest dir x r

/-- The contestants alive, best first, by index (R396). -/
def State.scoreOrder (s : State) (k : Scope) : List Nat :=
  (((k.contestants.mapIdx fun i t => (i, t)).filter fun p => p.2.alive).foldl (fun l p => insertBest k.dir (p.1, s.keyOf k p.2) l) []).map Prod.fst

/-- A contestant's core stops for good without a release (R396, R397). -/
def State.endMember (s : State) (core : Nat) : State :=
  let c := s.core core
  let s := disbandGang s core
  let s := (s.dropFaults core).dropRequests core
  s.setCore core { c.stopAll with
    run := if c.run = .idle then .idle else .done
    logical := 0
    wset := []
    amoSet := []
    amoVers := []
    gang := none
    roundStop := false }

/-- A member's core ends with its scope, or with its contestant: an evicted one's context is dropped (R396, R397). -/
def State.endNamed (s : State) (m : Nat) : State :=
  if m < Config.cores then (s.endMember m).modCore m fun c => { c with scope := (0, 0) }
  else if m < goneBase then { s with saved := Store.set none s.saved (m - evictedAs 0) none }
  else s

/-- A contestant's group entry becomes invalid, and its barrier object is cleared (R396, R463). -/
def State.clearGroup (s : State) (asid grp : Nat) : State :=
  let loc := Store.get 0 s.stn.groupTab asid + 16 * grp
  (s.partyWrite stationParty 3 loc [s.deviceByte loc &&& 0xFC]).setBar asid grp {}

/-- A contestant is killed (R396). -/
def State.killContestant (s : State) (id : Nat) (k : Scope) (i : Nat) : State :=
  match k.contestants[i]? with
  | none => s
  | some t =>
    ((t.members.foldl State.endNamed s).clearGroup k.asid t.grp).modContestant id i fun t => { t with
      alive := false
      siding := []
      remote := []
      members := [] }

/-- Cores dealt to the survivors in turn: those of the survivor at place j of n. -/
def dealt (cores : List Nat) (j n : Nat) : List Nat := ((cores.mapIdx fun i c => (i, c)).filter fun p => p.1 % n == j).map Prod.snd

/-- A survivor grows by some cores (R398). -/
def State.growBy (s : State) (id : Nat) (k : Scope) (i : Nat) (added : List Nat) (round : Nat) : State :=
  match k.contestants[i]? with
  | none => s
  | some t =>
    if added.isEmpty then s
    else
      let old := t.members.length
      let size := old + added.length
      let asid := k.asid
      let home := match s.group asid t.grp with | some g => g.home | none => 0
      let name := fun c => 4 * s.tileAt (siteOf c) + c % 4
      let s := (s.resize asid t.grp old size).writeGroup asid t.grp home size (added.mapIdx fun j c => (old + j, name c))
      let b := s.bar asid t.grp
      let epoch := if b.held.isSome then b.epoch + 1 else b.epoch
      let e := Store.get (0, 0) t.entries 1
      let s := (added.mapIdx fun j c => (j, c)).foldl (fun (s : State) (p : Nat × Nat) =>
        let s := (s.modCore p.2 fun c => { c with ctl := { c.ctl with gmem := [] } }).setCoreUp p.2 asid (4 * s.tileAt (siteOf p.2) + p.2 % 4) t.grp (old + p.1) epoch size ⟨t.parts, t.entries, [], []⟩ t.params t.geo t.seed
        ((s.modCore p.2 fun c => { c with scope := (id + 1, i) }).startAt p.2 e.1 e.2).modCore p.2 Core.holdRound) s
      let s := (t.members.filter fun n => decide (n < Config.cores)).foldl (fun s n => s.notice n (BitVec.ofNat 64 (8 * 2 ^ 60 + round % 16 * 2 ^ 56 + size * 2 ^ 32 + added.length))) s
      s.modContestant id i fun t => { t with members := t.members ++ added }

/-- A scope ends: every core of it halts, the group entries of the contestants that are left become invalid, the tiles become free, and the record
waits to be written by its packet (R397, R463). -/
def State.endScope (s : State) (id : Nat) (k : Scope) (record : List Byte) : State :=
  let ms := (k.contestants.map fun t => t.members).flatten
  let s := ms.foldl (fun (s : State) (n : Nat) =>
    let was := (s.memberCore n).run
    if was = .done ∨ was = .idle ∨ Config.cores ≤ n then s.endNamed n
    else { (((s.depart n).endNamed n).report 3 n) with saved := Store.set none s.saved (s.logicalOf n) none }) s
  let s := (k.contestants.filter fun t => t.alive).foldl (fun (s : State) t => s.clearGroup k.asid t.grp) s
  (s.modScope id fun k => { k with
    over_ := true
    contestants := []
    scores := []
    record := record }).post (.tourneyPacket k.queue k.pkt)

/-- The scope finishes with a winner: its siding commits, and the scope ends (R397). -/
def State.finishScope (s : State) (id w : Nat) : State :=
  match s.scope? id with
  | none => s
  | some k => match k.contestants[w]? with
    | none => s
    | some t =>
      let unset := (s.keyOf k t).isNone
      let rec_ := toBytes 8 (w + k.round * 2 ^ 8 + (if unset then 2 ^ 16 else 0)) ++ toBytes 8 (if unset then 0 else t.score.toNat)
        ++ toBytes 8 (sidingUse t.siding t.remote) ++ List.replicate 40 0
      (s.commit ((t.members.find? fun m => decide (m < Config.cores)).getD 0) t.siding t.bad t.remote []).endScope id k rec_

/-- ROUND_END: every core has stopped and every SCORE has arrived: the worse half is killed, and the survivors grow (R396, R398). -/
def execRoundEnd (scope : Nat) (s : State) : Out :=
  match s.scope? scope with
  | none => .next s
  | some k =>
    let alive := k.contestants.filter fun t => t.alive
    let ms := (alive.map fun t => t.members).flatten
    if k.over_ || !k.begun || !k.scores.isEmpty || !(ms.all fun n => (s.memberCore n).stopsRound) then .next s
    else if ms.any fun n => (s.memberCore n).writing then .next (s.soon (.roundEnd scope))
    else
      let s := (ms.filter fun n => decide (n < Config.cores)).foldl (fun s n => s.release n 4) s
      let k1 := (s.scope? scope).getD k
      let k := { k1 with contestants := k1.contestants.map fun t => { t with failed := t.failed || decide (k1.sb < sidingUse t.siding t.remote) } }
      let s := s.modScope scope fun _ => k
      let order := s.scoreOrder k
      let n := order.length
      if k.round = k.rl then .next (s.finishScope scope (order.headD 0))
      else
        let surv := order.take (n - n / 2)
        let dead := sortBy id (order.drop (n - n / 2))
        let freed := (dead.map fun i => ((k.contestants[i]?).map fun t => t.members.filter fun n => decide (n < Config.cores)).getD []).flatten
        let s := dead.foldl (fun (s : State) (i : Nat) => s.killContestant scope k i) s
        if surv.length ≤ 1 then .next (s.finishScope scope (order.headD 0))
        else
          let s := (surv.mapIdx fun j i => (j, i)).foldl (fun (s : State) (p : Nat × Nat) =>
            s.growBy scope k p.2 (dealt freed p.1 surv.length) (k.round + 1)) s
          .next ((s.modScope scope fun k => { k with round := k.round + 1, begun := false }).post (.roundStart scope))

/-- SCOPE_ABORT: the kernel, or a queue reset, aborts the scope (R397, R425). -/
def execScopeAbort (scope : Nat) (s : State) : Out :=
  match s.scope? scope with
  | none => .next s
  | some k =>
    if k.over_ then .next s
    else .next (s.endScope scope k (List.replicate 8 0xFF ++ List.replicate 56 0))

/-! ### The start of a scope (R387, R388) -/

/-- What a scope descriptor says, and the launch plans of its contestants with their LAUNCH packets' VAs. -/
structure ScopePlan where
  scope : Scope
  plans : List (Nat × LaunchPlan)
  deriving DecidableEq, Repr

/-- The contestants' LAUNCH packets are checked and placed together (R387). -/
def State.planContestants (s : State) (asid : Nat) (taken : List Nat) : List (Nat × Nat) → Except LoadErr (List (Nat × LaunchPlan))
  | [] => .ok []
  | (lp, grp) :: r => do
    let bs ← s.readFor asid lp 64
    need (headerOk bs && fieldAt bs 0 1 == 1)
    let q ← match parseLaunch bs with
      | .ok q => Except.ok q
      | .error _ => Except.error (LoadErr.reject .launch)
    need (q.grp == grp)
    match ← s.planLaunch asid q taken with
    | none => Except.error (LoadErr.reject .launch)
    | some p => do
      need (p.images.all fun m => m.entries.any fun e => e.1 == 1)
      let s := { s with stn := { s.stn with gnext := Store.set 0 s.stn.gnext asid p.gnext } }
      let rest ← s.planContestants asid (taken ++ (p.cores.map fun c => s.tileAt (siteOf c))) r
      pure ((lp, p) :: rest)

/-- A scope descriptor is read and checked (R387). -/
def State.planScope (s : State) (asid va q pkt : Nat) : Except LoadErr ScopePlan := do
  let h ← s.readFor asid va 64
  let w := fieldAt h 0 8
  let n := w % 64 + 1
  let lb := w / 2 ^ 16 % 64
  let done := fieldAt h 8 8
  let sb := fieldAt h 16 8
  need (decide (2 ≤ n) && w / 64 % 4 == 0 && w / 2 ^ 13 % 4 != 0 && w / 2 ^ 15 % 2 == 0 && decide (w < 2 ^ 22) && decide (10 ≤ lb) && decide (lb ≤ 40)
    && decide (done < 2 ^ 52) && done % 64 == 0 && sb % 65536 == 0 && decide (65536 ≤ sb) && decide (sb ≤ 2 ^ 24)
    && (h.drop 24).all fun b => b == 0)
  let t ← s.readFor asid (va + 64) (16 * n)
  let es := (List.range n).map fun i => (fieldAt t (16 * i) 8, fieldAt t (16 * i + 8) 8)
  need (es.all (fun e => e.2 == 0 && e.1 / 2 ^ 52 % 16 == 0) && decide ((es.map fun e => e.1 / 2 ^ 56).Nodup))
  let plans ← s.planContestants asid [] (es.map fun e => (e.1 % 2 ^ 52, e.1 / 2 ^ 56))
  pure ⟨{
    asid := asid
    queue := q
    pkt := pkt
    rl := w / 256 % 16
    dir := w / 2 ^ 12 % 2 == 1
    kind := w / 2 ^ 13 % 4
    lb := lb
    done := done
    sb := sb
    round := 0
    begun := false
    contestants := []
    scores := []
    over_ := false
    record := [] }, plans⟩

/-- The reads of a scope's start set the accessed bits of its descriptor, of its LAUNCH packets and of what they launch, whatever becomes of the scope
(R261). -/
def State.touchScope (s : State) (asid va : Nat) : State :=
  let n := match s.readFor asid va 8 with
    | .ok h => fieldAt h 0 8 % 64 + 1
    | .error _ => 0
  let s := s.touch asid va (64 + 16 * n) ⟨0, false⟩
  (List.range n).foldl (fun s i => match s.readFor asid (va + 64 + 16 * i) 8 with
    | .ok e =>
      let lp := fieldAt e 0 8 % 2 ^ 52
      let s := s.touch asid lp 64 ⟨0, false⟩
      match s.readFor asid lp 64 with
      | .ok bs => match parseLaunch bs with
        | .ok q => s.touchLaunch asid q
        | .error _ => s
      | .error _ => s
    | .error _ => s) s

/-- The contestants of a scope start (R388). -/
def State.startScope (s : State) (p : ScopePlan) : State :=
  let id := s.fresh
  let s := { s with fresh := s.fresh + 1 }
  let k := { p.scope with contestants := p.plans.map fun (q : Nat × LaunchPlan) =>
    let m := (q.2.images.head?).getD ⟨[], [], [], []⟩
    { grp := q.2.req.grp
      lp := q.1
      alive := true
      failed := false
      score := 0
      kind := 0
      siding := []
      remote := []
      members := q.2.cores
      parts := m.parts
      entries := m.entries
      params := q.2.params m
      geo := q.2.req.geo
      seed := q.2.req.seed } }
  let s := { s with scopes := Store.set none s.scopes id (some k) }
  let s := (p.plans.mapIdx fun i q => (i, q.2)).foldl (fun (s : State) (q : Nat × LaunchPlan) => s.launchNow k.asid q.2 (id + 1, q.1)) s
  let s := (p.plans.map fun q => q.2.cores).flatten.foldl (fun (s : State) n => s.modCore n Core.holdRound) s
  s.post (.roundStart id)

end Sys2Proof.Machine
end

