-- ==== Sys2Proof/Machine/Paired.lean ====
section
/-!
DEFINITION. What happens at a paired safe point (R82).
-/

namespace Sys2Proof.Machine

/-- The members of a gang that is pre-empted: those that are asked for are saved; a gang that is not asked for as a whole disbands, and its other
members go on (R335). -/
def State.saveGang (s : State) (ms : List Nat) : State :=
  let asked := ms.filter fun m => (s.core m).preempt.isSome
  let s := if asked.length = ms.length then s else match ms with
    | m :: _ => disbandGang s m
    | [] => s
  let s := s.unparkAll (ms.filter fun m => !asked.contains m)
  asked.foldl (fun s m => s.post (.contextSave m)) s

/-- PAIRED_SAFE_POINT: both streams of a core, and of its whole gang where the action is one for the gang, are parked: with every queue empty the
pending action is taken, and else every parked stream resumes (R82). -/
def execPairedSafePoint (core : Nat) (s : State) : Out :=
  match (if (s.core core).pairParked then s.pairAct core else none) with
  | none => .next s
  | some act =>
    let ms := match act with
      | .preempt => s.gangOf core
      | .allow => s.gangOf core
      | .switch => s.gangOf core
      | _ => [core]
    if !ms.all fun m => (s.core m).pairParked then .next s
    else if !ms.all fun m => (s.core m).q.isEmpty then .next (s.unparkAll ms)
    else match act with
      | .preempt => .next (s.saveGang ms)
      | .allow => .next (s.post (.allowanceStop core))
      | .switch => .next (s.post (.stageSwitch core))
      | .gang => .next ((s.modCore core fun c => { c with wait := match c.wait with
          | some (.gang size since _ r) => some (.gang size since true r)
          | w => w }).post (.gangJoin core))
      | .yield => .next (s.takeYield core)
      | .heat => .next (s.stopRound [core])

end Sys2Proof.Machine
end

