-- ==== Sys2Proof/Machine/System.lean ====
section
/-!
DEFINITION. The system registers (R105 to R109): what each number reads, what a write does to it, SYSR and SYSW, and the steps of the device
that write a register of a core or of the control space.
-/

namespace Sys2Proof.Machine

/-! ### Values (R107) -/

/-- Single bits of a value. -/
def flagBit (b : Bool) (i : Nat) : Nat := if b then 2 ^ i else 0

/-- TASKST (R352). -/
def Core.taskst (c : Core) : Word :=
  let (t, com, used, rec_) := match c.task with
    | some t => (true, t.committed, (if t.committed then sidingUse t.siding t.remote else 0), t.rec_)
    | none => (false, false, 0, 0)
  BitVec.ofNat 64 (flagBit t 63 + flagBit com 62 + c.ctl.refused.toNat * 2 ^ 40 + Nat.min used 0xFFFFF * 2 ^ 20 + rec_ % 2 ^ 20)

/-- RINGj (R358). -/
def State.ringReg (s : State) (core j : Nat) : Word :=
  let c := s.core core
  match c.inStage with
  | none => 0
  | some (grp, _) => match s.pipe c.asid.toNat grp with
    | none => 0
    | some p =>
      if p.stages ≤ j + 1 then 0
      else
        let r := p.ring j
        BitVec.ofNat 64 (flagBit r.closed 63 + r.occ * 2 ^ 16 + r.cons * 2 ^ 8 + r.prod)

/-- ROLEST (R374). -/
def Core.rolest (c : Core) : Word :=
  BitVec.ofNat 64 (c.ctl.ndrop.toNat * 2 ^ 32 + flagBit (c.ctl.events.getLsbD 1) 9 + flagBit (c.ctl.events.getLsbD 0) 8 + c.msg.devq.length)

/-- TSTAT (R399). -/
def State.tstat (s : State) (core : Nat) : Word :=
  let c := s.core core
  let ev := flagBit (c.ctl.events.getLsbD 3) 61 + flagBit (c.ctl.events.getLsbD 2) 60
  match s.contestant core with
  | none => BitVec.ofNat 64 ev
  | some (_, k, _) => BitVec.ofNat 64 (2 ^ 63 + flagBit c.ctl.allowStop 62 + ev + c.scope.2 * 2 ^ 48 + k.round * 2 ^ 44 + c.ctl.over_.toNat * 2 ^ 7
      + k.contestants.countP fun t => t.alive)

/-- MSTAT (R213). -/
def Core.mstat (c : Core) : Word :=
  BitVec.ofNat 64 ((List.range 6).foldl (fun n i => n + (Store.get 0 c.mat.latch i : BitVec 2).toNat * 4 ^ i) (flagBit (!c.mat.queue.isEmpty) 16))

/-- MGSR (R206). -/
def Core.mgsr (c : Core) : Word :=
  let held := c.cmds.any fun k => k.held && (match k.op with | .mldStream .. => true | _ => false)
  c.mat.mgsr ||| BitVec.ofNat 64 (flagBit held 62)

/-- PSTAT (R239). -/
def Core.pstat (c : Core) : Word :=
  BitVec.ofNat 64 ((List.range 8).foldl (fun n i =>
    let p := c.points i
    n + (if p.valid then (if p.solved then 1 else 2) else 0) * 4 ^ i) 0)

/-- PNUM (R239). -/
def Core.pnum (c : Core) : Word := BitVec.ofNat 64 ((List.range 8).foldl (fun n i => n + (c.points i).n % 128 * 128 ^ i) 0)

/-- TLVL (R407). -/
def Core.tlvl (c : Core) : Word := BitVec.ofNat 64 (flagBit c.ctl.sb 2 + flagBit c.ctl.ub 1 + flagBit c.ctl.lvl 0)

/-- A register of a trap record (R408). -/
def TrapRec.reg (r : TrapRec) (i : Nat) : Word := if i = 0 then r.epc else if i = 1 then r.cause else if i = 2 then r.addr else r.info

/-- The value that a system register reads in a stream of a core (R107). -/
def State.sysValue (s : State) (core : Nat) (st : Strm) (num : BitVec 12) : Word :=
  let c := s.core core
  let q := c.seq st
  let n := num.toNat
  if n = 0x010 then q.win
  else if n = 0x011 then c.msg.full.setWidth 64
  else if n = 0x100 then c.ctl.fpctl
  else if n = 0x101 then c.ctl.srseed
  else if 0x200 ≤ n ∧ n ≤ 0x207 then Store.get 0 c.ctl.win (n - 0x200)
  else if 0x210 ≤ n ∧ n ≤ 0x217 then Store.get 0 c.ctl.swz (n - 0x210)
  else if 0x220 ≤ n ∧ n ≤ 0x223 then (Store.get 0 c.ctl.b (n - 0x220) : BitVec 22).setWidth 64
  else if 0x300 ≤ n ∧ n ≤ 0x303 then c.gmem (n - 0x300)
  else if n = 0x308 then BitVec.ofNat 64 c.gangst
  else if n = 0x400 then c.ctl.tdom
  else if n = 0x401 then c.taskst
  else if n = 0x410 then c.ctl.stage
  else if 0x420 ≤ n ∧ n ≤ 0x42E then s.ringReg core (n - 0x420)
  else if n = 0x500 then c.rolest
  else if 0x508 ≤ n ∧ n ≤ 0x50B then Store.get 0 c.ctl.rsub (n - 0x508)
  else if n = 0x540 then s.tstat core
  else if n = 0x541 then c.ctl.tshare
  else if n = 0x542 then c.ctl.twarn.setWidth 64
  else if n = 0x600 then q.svec
  else if n = 0x601 then q.uvec
  else if n = 0x602 then c.ctl.tdeleg.setWidth 64
  else if n = 0x603 then c.ctl.even.setWidth 64
  else if n = 0x604 then c.ctl.wdog.setWidth 64
  else if n = 0x605 then c.tlvl
  else if 0x610 ≤ n ∧ n ≤ 0x613 then q.sysRec.reg (n - 0x610)
  else if 0x618 ≤ n ∧ n ≤ 0x61B then q.userRec.reg (n - 0x618)
  else if n = 0x700 then c.ctl.geo
  else if n = 0x701 then c.mstat
  else if n = 0x702 then c.mgsr
  else if n = 0x740 then c.pstat
  else if n = 0x741 then c.pnum
  else 0

/-! ### Writes (R11, R107) -/

/-- FPCTL after a write: the flags in kept, which are set in the same cycle, stay set (R118). -/
def fpctlPut (old v : Word) (kept : BitVec 5) : Word :=
  (v &&& 0x1F0037) ||| (old &&& 0x1F000000 &&& (~~~v ||| (kept.setWidth 64 <<< 24)))

/-- The flags that have been set in a cycle (R118). -/
def Core.flagsOf (c : Core) (cycle : Nat) : BitVec 5 := if c.ctl.flagAt = cycle then c.ctl.flagSet else 0

/-- The rounding mode that a write of FPCTL names is reserved (R118). -/
def fpctlBad (v : Word) : Bool := decide (4 < bitsOf v 0 3)

/-- A trap record after a write of its EPC: only ret is writable (R408). -/
def TrapRec.putRet (r : TrapRec) (v : Word) : TrapRec := { r with epc := (r.epc &&& 0xFFFFFFFFFFF80000) ||| (v &&& 0x7FFFF) }

/-- A core after a write of one of its system registers, field by field under the access codes; fields that are RO stay (R11). -/
def Core.sysPut (c : Core) (st : Strm) (num : BitVec 12) (v : Word) (cycle : Nat) : Core :=
  let n := num.toNat
  if n = 0x010 then c.modSeq st fun q => { q with
    depth := v.extractLsb' 16 16
    old := v.extractLsb' 8 5
    cur := v.extractLsb' 0 5 }
  else if n = 0x100 then { c with ctl := { c.ctl with fpctl := if fpctlBad v then c.ctl.fpctl else fpctlPut c.ctl.fpctl v (c.flagsOf cycle) } }
  else if n = 0x101 then { c with ctl := { c.ctl with srseed := if v = 0 then Config.seed else v } }
  else if 0x200 ≤ n ∧ n ≤ 0x207 then { c with ctl := { c.ctl with win := Store.set 0 c.ctl.win (n - 0x200) (v &&& 0xFFFF83FFFFFFFFFF) } }
  else if 0x210 ≤ n ∧ n ≤ 0x217 then { c with ctl := { c.ctl with swz := Store.set 0 c.ctl.swz (n - 0x210) (v &&& 0x8000071F0FFF0FFF) } }
  else if 0x220 ≤ n ∧ n ≤ 0x223 then { c with ctl := { c.ctl with b := Store.set 0 c.ctl.b (n - 0x220) (v.extractLsb' 0 22) } }
  else if n = 0x400 then { c with ctl := { c.ctl with tdom := v &&& 0x80FF00FFFFE7FFFF } }
  else if 0x508 ≤ n ∧ n ≤ 0x50B then { c with ctl := { c.ctl with rsub := Store.set 0 c.ctl.rsub (n - 0x508) (v &&& 0x80000FFF00000FFF) } }
  else if n = 0x542 then { c with ctl := { c.ctl with
    twarn := v.extractLsb' 0 32
    events := if c.scope.1 ≠ 0 ∧ marginMet c.ctl.tshare (v.extractLsb' 0 32) = true ∧ marginMet c.ctl.tshare c.ctl.twarn = false then
      c.ctl.events ||| 8 else c.ctl.events } }
  else if n = 0x600 then c.modSeq st fun q => { q with svec := v &&& 0x7F000 }
  else if n = 0x601 then c.modSeq st fun q => { q with uvec := v &&& 0x7F000 }
  else if n = 0x602 then { c with ctl := { c.ctl with tdeleg := v.extractLsb' 0 25 &&& delegMask } }
  else if n = 0x603 then { c with ctl := { c.ctl with even := v.extractLsb' 0 4 } }
  else if n = 0x604 then { c with ctl := { c.ctl with wdog := v.extractLsb' 0 32 } }
  else if n = 0x610 then c.modSeq st fun q => { q with sysRec := q.sysRec.putRet v }
  else if n = 0x618 then c.modSeq st fun q => { q with userRec := q.userRec.putRet v }
  else if n = 0x700 then { c with ctl := { c.ctl with geo := v } }
  else c

/-- Every access to the core's ULM that was issued earlier has completed (R156). -/
def Core.ulmQuiet (c : Core) : Bool := c.mat.queue.isEmpty && !c.cmds.any fun k => k.rd.isSome || k.wr.isSome

/-- Every earlier E-stream word and every operation dispatched to the SAU has completed (R118). Repetitions that a trap holds back count
as not dispatched, so that the trap's handler reads FPCTL (DEDUCED). -/
def Core.flagsDone (c : Core) : Bool :=
  c.sauq.isEmpty && c.sauFly.isEmpty && (match c.vrep with | some r => r.held | none => true) && c.mat.queue.isEmpty &&
    !(c.cmds.any fun k => k.op.ofE) && c.e.wb.isNone

/-- What SYSR does: a read of FPCTL on the E-stream waits for every flag (R118), and SRSEED waits for a body that draws (R117, R119). -/
def sysrM (x : BitVec 12) (d : BitVec 5) (cx : Ctx) : DM Next := do
  let s ← get
  onCore cx.core do
    let c ← get
    stallIf (x == 0x100 && cx.st == .e && !c.flagsDone)
    if x = 0x101 then rngFree cx else pure ()
    wrX cx d (s.sysValue cx.core cx.st x)
  pure .seq

/-- SYSR (R107). -/
def execSysr (n : BitVec 3) (x : BitVec 12) (d : BitVec 5) : State → Out := issue (.sysr n x d) (sysrM x d)

/-- What SYSW does: a swizzle descriptor waits for the accesses to ULM (R156), and a reserved rounding mode traps (R118). -/
def syswM (x : BitVec 12) (d : BitVec 5) (cx : Ctx) : CM Unit := do
  let v ← rdX cx d
  let c ← get
  stallIf (decide (0x210 ≤ x.toNat) && decide (x.toNat ≤ 0x217) && !c.ulmQuiet)
  if x = 0x101 then rngFree cx else pure ()
  raiseIf (x == 0x100 && fpctlBad v) cIllegal 1 0 0
  modify fun c => c.sysPut cx.st x v cx.cycle

/-- SYSW (R107). -/
def execSysw (n : BitVec 3) (x : BitVec 12) (d : BitVec 5) : State → Out := issueU (.sysw n x d) (syswM x d)

/-! ### Steps of the device that write a register -/

/-- SWZ_WRITE: the write waits for earlier accesses to ULM, and then changes the bank function (R156). -/
def execSwzWrite (core idx : Nat) (value : BitVec 64) (s : State) : Out :=
  if 8 ≤ idx then .next s
  else if !(s.core core).ulmQuiet then .next (s.postpone (.swzWrite core idx value))
  else .next (s.modCore core fun c => c.sysPut .a (BitVec.ofNat 12 (0x210 + idx)) value s.cycle)

/-- FPCTL_WRITE: a reserved rounding mode traps, reported at the A-stream's next word, and leaves the register (R118). -/
def execFpctlWrite (core : Nat) (value : BitVec 64) (s : State) : Out :=
  if fpctlBad value then
    let c := s.core core
    let w := c.a.groupStart
    .next (takeTrap s core .a { cause := cIllegal, sub := 1, addr := 0, info := 0, word := c.a.pc.setWidth 19, ret := w.setWidth 19, async := false, vrep := none })
  else .next (s.modCore core fun c => c.sysPut .a 0x100 value s.cycle)

/-- FPCTL_READ: an E-stream read waits for the flags of every earlier operation; the value reaches a scalar register of the stream (R118). -/
def execFpctlRead (core : Nat) (str : Strm) (dst : BitVec 5) (s : State) : Out :=
  let c := s.core core
  let h := if dst = 0 then 0 else (c.seq str).home dst
  if (str = .e ∧ c.flagsDone = false) ∨ (c.seq str).pend.contains h = true then .next (s.postpone (.fpctlRead core str dst))
  else .next (s.setCore core (c.putHome str h (c.ctl.fpctl.setWidth 1024)))

/-- SRSEED_WRITE: 0 stores the reset value (R119); the write waits for a body that holds the generator (R117). -/
def execSrseedWrite (core : Nat) (value : BitVec 64) (s : State) : Out :=
  if (s.core core).rngHeld then .next (s.postpone (.srseedWrite core value))
  else .next (s.modCore core fun c => c.sysPut .a 0x101 value s.cycle)

/-- WIN_WRITE: the windowed registers are mapped anew, and no data moves (R109). -/
def execWinWrite (core : Nat) (str : Strm) (value : BitVec 64) (s : State) : Out := .next (s.modCore core fun c => c.sysPut str 0x010 value s.cycle)

/-- A register of the control space is written. -/
def State.ctlPut (s : State) (v : Word) : CtlReg → State
  | .sys .. => s
  | .asidTable => { s with stn := { s.stn with asidTable := v.toNat } }
  | .groupTable a => { s with stn := { s.stn with groupTab := Store.set 0 s.stn.groupTab a v.toNat } }
  | .bindArea a => { s with stn := { s.stn with bindArea := Store.set 0 s.stn.bindArea a v.toNat } }
  | .poolSize => { s with stn := { s.stn with poolSize := v.toNat } }
  | .poolBase => { s with stn := { s.stn with poolBase := v.toNat } }
  | .contBase a => { s with stn := { s.stn with contBase := Store.set 0 s.stn.contBase a v.toNat } }
  | .contCount a => { s with stn := { s.stn with contCount := Store.set 0 s.stn.contCount a v.toNat } }
  | .farEntry i => { s with stn := { s.stn with farMap := Store.set 0 s.stn.farMap i v } }
  | .profileSvec a => { s with stn := { s.stn with profSvec := Store.set 0 s.stn.profSvec a v } }
  | .profileDeleg a => { s with stn := { s.stn with profDeleg := Store.set 0 s.stn.profDeleg a v } }
  | .profileWdog a => { s with stn := { s.stn with profWdog := Store.set 0x10000 s.stn.profWdog a v } }
  | .windowAsid p => { s with stn := { s.stn with winAsid := Store.set 0 s.stn.winAsid p (v.toNat % 4096) } }
  | .windowBase p => { s with stn := { s.stn with winBase := Store.set 0 s.stn.winBase p (vaOf v) } }
  | .parkTime => { s with stn := { s.stn with parkTime := v.toNat } }
  | .leaseCap a => { s with census := { s.census with caps := Store.set 512 s.census.caps a v.toNat } }
  | .leaseDrop a => { s with census := { s.census with leases := s.census.leases.filter fun l => l.asid != a } }
  | .migrate a =>
    let rest := s.census.migrate.filter fun b => b != a
    { s with census := { s.census with migrate := if v.getLsbD 0 = true then rest ++ [a] else rest } }
  | .queueRing q => (s.modQueue q fun d => { d with ring := v.toNat }).post (.queueWake q)
  | .queueCtl q => (s.modQueue q fun d => {
      d with
      lsz := bitsOf v 0 4
      asid := bitsOf v 4 12
      en := v.getLsbD 16
      prio := bitsOf v 17 3
      bad := decide (bitsOf v 20 44 ≠ 0) }).post (.queueWake q)
  | .queueWr q => (s.modQueue q fun d => { d with wr := v.toNat }).post (.queueWake q)
  | .cacheCapacity => { s with isl := { s.isl with cacheCap := v.toNat } }
  | .scrubRate => { s with isl := { s.isl with scrubRate := v.toNat } }
  | .errThreshold unit => { s with isl := { s.isl with thresholds := Store.set 1024 s.isl.thresholds unit v.toNat } }
  | .neighbours => { s with isl := { s.isl with neighbours := Nat.min 16 v.toNat } }
  | .quorum => { s with isl := { s.isl with quorum := v.toNat } }
  | .schedulers => { s with isl := { s.isl with complexDown := false } }

/-- What a register of the control space reads (R428). -/
def State.ctlGet (s : State) : CtlReg → Word
  | .sys .. | .leaseDrop _ => 0
  | .asidTable => BitVec.ofNat 64 s.stn.asidTable
  | .groupTable a => BitVec.ofNat 64 (Store.get 0 s.stn.groupTab a)
  | .bindArea a => BitVec.ofNat 64 (Store.get 0 s.stn.bindArea a)
  | .poolSize => BitVec.ofNat 64 s.stn.poolSize
  | .poolBase => BitVec.ofNat 64 s.stn.poolBase
  | .contBase a => BitVec.ofNat 64 (Store.get 0 s.stn.contBase a)
  | .contCount a => BitVec.ofNat 64 (Store.get 0 s.stn.contCount a)
  | .farEntry i => Store.get 0 s.stn.farMap i
  | .profileSvec a => Store.get 0 s.stn.profSvec a
  | .profileDeleg a => Store.get 0 s.stn.profDeleg a
  | .profileWdog a => Store.get 0x10000 s.stn.profWdog a
  | .windowAsid p => BitVec.ofNat 64 (Store.get 0 s.stn.winAsid p)
  | .windowBase p => BitVec.ofNat 64 (Store.get 0 s.stn.winBase p)
  | .parkTime => BitVec.ofNat 64 s.stn.parkTime
  | .leaseCap a => BitVec.ofNat 64 (Store.get 512 s.census.caps a)
  | .migrate a => BitVec.ofNat 64 (flagBit (s.census.migrate.contains a) 0)
  | .queueRing q => BitVec.ofNat 64 (Store.get {} s.queues q).ring
  | .queueCtl q =>
    let d := Store.get {} s.queues q
    BitVec.ofNat 64 (d.prio * 2 ^ 17 + flagBit d.en 16 + d.asid * 16 + d.lsz)
  | .queueWr q => BitVec.ofNat 64 (Store.get {} s.queues q).wr
  | .cacheCapacity => BitVec.ofNat 64 s.isl.cacheCap
  | .scrubRate => BitVec.ofNat 64 s.isl.scrubRate
  | .errThreshold unit => BitVec.ofNat 64 (Store.get 1024 s.isl.thresholds unit)
  | .neighbours => BitVec.ofNat 64 s.isl.neighbours
  | .quorum => BitVec.ofNat 64 s.isl.quorum
  | .schedulers => BitVec.ofNat 64 (flagBit (!s.isl.complexDown) 0)

/-- PMODE (R437). -/
def Island.pmode (i : Island) : Word := BitVec.ofNat 64 (flagBit i.cap 9 + flagBit i.busy 8 + i.now.toNat * 16 + i.req.toNat)

/-- What a doubleword of a queue's descriptor reads (R418). -/
def Queue.word (d : Queue) (ring ctl : Word) (dw : Nat) : Word :=
  match dw with
  | 0 => ring
  | 1 => ctl
  | 2 => BitVec.ofNat 64 d.rd
  | 3 => BitVec.ofNat 64 d.wr
  | 4 => BitVec.ofNat 64 (d.pidx * 2 ^ 16 + d.err * 2 ^ 8 + d.state)
  | _ => 0

/-- What a doubleword of the control space reads (R428). -/
def State.ctlRead (s : State) : CtlPlace → Word
  | .absent => 0
  | .reg r => s.ctlGet r
  | .pmode => s.isl.pmode
  | .queue q dw => (Store.get {} s.queues q).word (s.ctlGet (.queueRing q)) (s.ctlGet (.queueCtl q)) dw
  | .policy die dw => s.census.policyWord (8 * die + dw)
  | .migration dw => BitVec.ofNat 64 ((List.range 64).foldl (fun n i => n + flagBit (s.census.migrate.contains (64 * dw + i)) i) 0)
  | .corrected unit => BitVec.ofNat 64 (Store.get 0 s.isl.corrected unit)

/-- REGISTER_WRITE: a system register of a core, or a register of the control space, is written (R107). -/
def execRegisterWrite (core : Nat) (reg : CtlReg) (value : BitVec 64) (s : State) : Out :=
  match reg with
  | .sys st num => .next (s.modCore core fun c => c.sysPut st num value s.cycle)
  | r => .next (s.ctlPut value r)

end Sys2Proof.Machine
end

