-- ==== Sys2Proof/Machine/Queues.lean ====
section
/-!
DEFINITION. Command queues, their packets and queue reset (R418 to R425).
The packets of a queue stand in one list in the order in which they run: the packets of an INDIRECT list after their INDIRECT, and each
repetition of a LOOP's body after the one before. An event names a packet by its sequence number.
-/

namespace Sys2Proof.Machine

/-! ### Queues and packets (R418 to R420) -/

/-- A queue. -/
def State.queue (s : State) (q : Nat) : Queue := Store.get {} s.queues q

/-- The descriptor is well formed (R418). -/
def Queue.formed (d : Queue) : Bool := !d.bad && decide (4 ≤ d.lsz) && decide (d.lsz ≤ 14) && decide (d.ring < 2 ^ 52) && d.ring % 64 == 0

/-- A packet by its number. -/
def Queue.pkt? (d : Queue) (id : Nat) : Option QPacket := d.pkts.find? fun p => p.seqno == id

/-- Change a packet. -/
def State.modPkt (s : State) (q id : Nat) (f : QPacket → QPacket) : State :=
  s.modQueue q fun d => { d with pkts := d.pkts.map fun p => if p.seqno = id then f p else p }

/-- Type of a packet. -/
def QPacket.type (p : QPacket) : Nat := fieldAt p.bytes 0 1

/-- The numbers of the packets whose list or body a packet stands in; lists nest twice, and each may stand in a body. -/
def Queue.ancestors (d : Queue) : Nat → QPacket → List Nat
  | 0, _ => []
  | n + 1, p => if p.parent = 0 then [] else (p.parent - 1) :: (match d.pkt? (p.parent - 1) with
    | some a => d.ancestors n a
    | none => [])

/-- A packet stands within another's list or body. -/
def Queue.within (d : Queue) (p : QPacket) (id : Nat) : Bool := (d.ancestors 6 p).contains id

/-- A fetched or refetched packet. -/
def mkPacket (idx seqno va parent nest iter : Nat) (bytes : List Byte) (held : Bool) : QPacket where
  idx := idx
  bytes := bytes
  started := false
  completed := false
  cores := []
  failing := 0
  deadline := 0
  nest := nest
  children := 0
  parent := parent
  want := 0
  va := va
  held := held
  over_ := false
  iter := iter
  loop := none
  seqno := seqno

/-- A packet fails (R420): the queue takes state error with the first failure, and the kernel is told. -/
def State.failPkt (s : State) (q id err : Nat) : State :=
  let d := s.queue q
  match d.pkt? id with
  | none => s
  | some p =>
    let s := s.modPkt q id fun p => { p with started := true, held := false, want := 0, over_ := false, failing := err }
    if d.state = 1 then (s.modQueue q fun d => { d with state := 2, err := err, pidx := p.idx }).report 4 q else s

/-- The work of a packet meets a page fault: the kernel receives a record that names queue q as core 10,000 + q (R266). DESIGN CHOICE: the access
class of such a record is ordinary, of a COPY packet too, and its command slot 0, since a packet has neither. -/
def State.faultPkt (s : State) (q id va kind : Nat) (f : WalkFault) : State :=
  let s := s.modPkt q id fun p => { p with held := true, want := 0 }
  { s with stn := { s.stn with faults := s.stn.faults ++ [⟨(s.queue q).asid, va, f.kind, f.level, kind, 10000 + q, id, 0, .a, 0⟩] } }

/-- The work of a packet stops, or is tried again once a page has left its transit; the reason for which an object is rejected goes to the kernel's loading service (R40, R58). -/
def State.stopPkt (s : State) (q id : Nat) : LoadErr → State
  | .malformed => s.failPkt q id 1
  | .reject why => (if why.code = 0 then s else s.report 6 why.code).failPkt q id 2
  | .fault va kind f => s.faultPkt q id va kind f
  | .broken => s.failPkt q id 3
  | .transit => (s.soon (.queueWake q)).soon (.packetComplete q id)

/-- The event that starts a packet of a type. -/
def startEvent (q id : Nat) (type : Nat) : Option Ev :=
  match type with
  | 1 => some (.launchPacket q id)
  | 2 => some (.copyPacket q id)
  | 3 => some (.waitPacket q id)
  | 4 => some (.signalPacket q id)
  | 5 => some (.indirectPacket q id)
  | 6 => some (.loopPacket q id)
  | 7 => some (.fetchFencePacket q id)
  | 8 => some (.tourneyPacket q id)
  | 9 => some (.leasePacket q id)
  | 10 => some (.resetQueuePacket q id)
  | _ => none

/-- The oldest packet that has not started. -/
def Queue.first (d : Queue) : Option QPacket := d.pkts.find? fun p => !p.started

/-- The packet may start once every earlier one has completed (R420). -/
def QPacket.barred (p : QPacket) : Bool := [3, 6, 7, 10].contains p.type || fieldAt p.bytes 0 8 / 256 % 2 == 1

/-- The oldest packet that has not started may start: it is fetched, at most 63 others are in flight, and where it must wait for every earlier
packet they have completed (R420). -/
def Queue.ready (d : Queue) : Bool :=
  match d.first with
  | none => false
  | some p =>
    d.en && d.state == 1 && !p.bytes.isEmpty && !p.held && p.failing == 0 && decide ((d.pkts.countP fun k => k.started && !k.completed) < 64)
      && (!p.barred || (d.pkts.takeWhile fun k => k.seqno != p.seqno).all fun k => k.completed || (d.ancestors 6 p).contains k.seqno)

/-- The next packet of a queue is fetched, or started when it is ready; a packet of no known type, or of a type that a LOOP's body may not hold,
fails (R420, R422). -/
def State.schedule (s : State) (q : Nat) : State :=
  let d := s.queue q
  match d.first with
  | none => s.post (.packetFetch q)
  | some p =>
    let s := s.post (.packetFetch q)
    if d.ready = false then s
    else if headerOk p.bytes = false ∨ (p.iter ≠ 0 ∧ [6, 8, 10].contains p.type = true) then s.failPkt q p.seqno 1
    else match startEvent q p.seqno p.type with
      | some e => s.post e
      | none => s

/-- A packet of the queue is ready to start; a LAUNCH that waits for tiles is none. -/
def Queue.offers (d : Queue) : Bool := d.ready && (match d.first with | some p => p.want == 0 | none => false)

/-- Some n queues can let only n - 1 packets of others pass before the last of them must have started: one of them starts next, so that no queue
waits for 1,024 packets of others (R418). -/
def starving (qs : List (Nat × Queue)) : Bool :=
  (List.range qs.length).any fun n => decide (n < qs.countP fun e => decide (1023 ≤ e.2.passed + n))

/-- The queue that a scheduler serves next among those of its cluster with a packet ready: the highest priority, and round-robin among equals;
but the one that most packets of others have passed, where a queue would else wait too long (R418). -/
def State.serves (s : State) (cluster : Nat) : Option Nat :=
  let qs := s.queues.filter fun e => e.1 % 4 == cluster && e.2.offers
  if starving qs then
    let most := qs.foldl (fun m e => Nat.max m e.2.passed) 0
    (qs.find? fun e => e.2.passed == most).map Prod.fst
  else
    let top := qs.foldl (fun m e => Nat.max m e.2.prio) 0
    let eq := (qs.filter fun e => e.2.prio == top).map Prod.fst
    match eq.find? fun q => decide (Store.get 0 s.served (8 * cluster + top) ≤ q) with
    | some q => some q
    | none => eq.head?

/-- A packet that is about to start: the packet and its queue, when it is its turn. -/
def State.turn? (s : State) (q id type : Nat) : Option (Queue × QPacket) :=
  let d := s.queue q
  match d.first with
  | some p => if p.seqno = id ∧ p.type = type ∧ d.ready = true then some (d, p) else none
  | none => none

/-- What a scheduler does waits while the RV64 complex, which it is part of, is down (R426). -/
def State.scheduled (s : State) (again : Ev) (f : State → State) : Out := .next (if s.isl.complexDown then s.soon again else f s)

/-- The start of a packet waits while its scheduler serves another queue (R418). -/
def State.inTurn (s : State) (q id type : Nat) (again : Ev) (f : Queue → QPacket → State) : Out :=
  s.scheduled again fun s => match s.turn? q id type with
    | none => s
    | some (d, p) => if p.want ≠ 0 ∨ s.serves (q % 4) = some q then f d p else s.soon again

/-- A packet's own work has ended (R420). -/
def State.endWork (s : State) (q id : Nat) : State := (s.modPkt q id fun p => { p with over_ := true }).post (.packetComplete q id)

/-! ### Bodies of LOOP (R422) -/

/-- The place after a packet and everything in its list or body. -/
def Queue.after (d : Queue) (id : Nat) : Nat :=
  ((d.pkts.mapIdx fun i p => (i, p)).filter fun e => e.2.seqno == id || d.within e.2 id).foldl (fun m e => Nat.max m (e.1 + 1)) 0

/-- The packets of one repetition of a LOOP. -/
def Queue.bodyOf (d : Queue) (id iter : Nat) : List QPacket := d.pkts.filter fun p => p.parent == id + 1 && p.iter == iter

/-- A LOOP that has started takes the next packet of its queue, or of its list, which counts it no longer, into its body, and adds its next
repetition once the one before has started. -/
def Queue.growLoop (d : Queue) (l : QPacket) : Queue :=
  match l.loop with
  | none => d
  | some (k, left, skip) =>
    let at_ := d.after l.seqno
    let own := d.bodyOf l.seqno 1
    if own.length < k then
      match (d.pkts.drop at_).head? with
      | none => d
      | some n =>
        if n.parent ≠ l.parent ∨ n.iter ≠ l.iter then d
        else
          let n1 := { n with parent := l.seqno + 1, iter := 1, nest := l.nest, started := n.started || skip, completed := skip }
          { d with pkts := d.pkts.map fun p => if p.seqno = n.seqno then n1
            else if p.seqno = l.seqno ∧ skip = true then { p with children := p.children - 1 }
            else if p.seqno + 1 = l.parent then { p with children := p.children - 1 } else p }
    else
      let done := (d.pkts.filter fun p => p.parent == l.seqno + 1).foldl (fun m p => Nat.max m p.iter) 0
      let last := d.bodyOf l.seqno done
      if left = 0 ∨ skip = true ∨ last.length < k ∨ (last.all fun p => p.started) = false then d
      else
        let fence := last.findIdx? fun p => p.type == 7
        let new_ := last.mapIdx fun i p =>
          mkPacket p.idx (d.seqno + i) p.va p.parent p.nest (done + 1) (match fence with | some f => if f < i then [] else p.bytes | none => p.bytes) false
        { d with
          pkts := (d.pkts.take at_ ++ new_ ++ d.pkts.drop at_).map fun p => if p.seqno = l.seqno then { p with loop := some (k, left - 1, skip) } else p
          seqno := d.seqno + k }

/-- Every LOOP of a queue does so; n bounds the steps. -/
def Queue.growLoops (d : Queue) : Nat → Queue
  | 0 => d
  | n + 1 =>
    let d1 := (d.pkts.filter fun p => p.loop.isSome && !p.completed).foldl (fun d p => match d.pkt? p.seqno with
      | some l => d.growLoop l
      | none => d) d
    if d1.pkts = d.pkts then d else d1.growLoops n

/-- The bodies of a queue's LOOPs are brought up to date; a LOOP whose skipped body is complete is done. -/
def State.growQueue (s : State) (q : Nat) : State :=
  let s := s.modQueue q fun d => d.growLoops 80
  ((s.queue q).pkts.filter fun p => p.loop.isSome && !p.completed && p.children == 0).foldl (fun s p => s.post (.packetComplete q p.seqno)) s

/-- A packet starts (R418): its own scheduler's other queues that have a packet ready count it, and the LOOP whose body it ends adds its next
repetition before a packet after the body can start. -/
def State.begin_ (s : State) (q id : Nat) : State :=
  let s := s.modPkt q id fun p => { p with started := true, want := 0 }
  let s := { s with
    queues := s.queues.map fun (e : Nat × Queue) => (e.1, if e.1 = q then { e.2 with passed := 0 }
      else if e.1 % 4 = q % 4 then { e.2 with passed := if e.2.offers then e.2.passed + 1 else 0 } else e.2)
    served := Store.set 0 s.served (8 * (q % 4) + (s.queue q).prio) (q + 1) }
  (s.growQueue q).schedule q

/-! ### Waking, fetching and completing (R418 to R420) -/

/-- The started packets of a queue whose work has not ended go on, after an answer to their fault too, in state error as well (R420). -/
def State.resumePkts (s : State) (q : Nat) : State :=
  ((s.queue q).pkts.filter fun p => p.started && !p.completed && !p.held && !p.over_).foldl (fun s p =>
    (match startEvent q p.seqno p.type with | some e => s.post e | none => s)) s

/-- QUEUE_WAKE: the queue's write index, its descriptor or the kernel's answer to a fault wakes its scheduler (R418). -/
def execQueueWake (q : Nat) (s : State) : Out :=
  s.scheduled (.queueWake q) fun s =>
    let d := s.queue q
    let s := s.resumePkts q
    if d.en = false ∨ 2 ≤ d.state then s
    else if d.formed = false then (s.modQueue q fun d => { d with state := 2, err := 1, pidx := d.rd }).report 4 q
    else if d.rd = d.wr then s
    else (s.modQueue q fun d => { d with state := 1 }).schedule q

/-- PACKET_FETCH: the next packet is read under an acquire, at most eight past the oldest that has not started; one whose bytes a FETCH_FENCE has
discarded is read again when it is due (R419, R422). -/
def execPacketFetch (q : Nat) (s : State) : Out :=
  s.scheduled (.packetFetch q) fun s =>
    let d := s.queue q
    if d.en = false ∨ d.state ≠ 1 then s
    else match d.first.bind fun p => if p.bytes.isEmpty && !p.held then some p else none with
      | some p =>
        match s.readFor d.asid p.va 64 with
        | .ok bs => ((s.touch d.asid p.va 64 ⟨0, false⟩).modPkt q p.seqno fun p => { p with bytes := bs }).schedule q
        | .error e => s.stopPkt q p.seqno e
      | none =>
        let o := match d.first with | some p => p.idx | none => d.fetch
        if d.wr ≤ d.fetch ∨ o + 8 < d.fetch then s
        else
          let va := d.ring + 64 * (d.fetch % 2 ^ d.lsz)
          let s := s.modQueue q fun d => { d with fetch := d.fetch + 1, seqno := d.seqno + 1 }
          let add := fun bs => (s.touch d.asid va 64 ⟨0, false⟩).modQueue q fun d' => { d' with
            pkts := d'.pkts ++ [mkPacket d.fetch d.seqno va 0 0 0 bs false] }
          match s.readFor d.asid va 64 with
          | .ok bs => ((add bs).growQueue q).schedule q
          | .error e => ((add []).growQueue q).stopPkt q d.seqno e

/-- rd passes every packet that has completed with all before it, and a queue with nothing left is idle (R419). -/
def State.advanceRd (s : State) (q : Nat) : State :=
  s.modQueue q fun d =>
    let rd := match d.pkts.find? fun p => !p.completed with
      | some p => p.idx
      | none => d.fetch
    let d := { d with
      rd := Nat.max d.rd rd
      pkts := d.pkts.filter fun p => !p.completed || decide (rd ≤ p.idx) || p.iter != 0 && (d.pkts.any fun l => l.seqno + 1 == p.parent && !l.completed) }
    if d.pkts.isEmpty ∧ d.rd = d.wr ∧ d.state = 1 then { d with state := 0 } else d

/-- The stations write bytes at their homes for a packet, with a release at SYSTEM scope; granules that the write would keep in part, and that are
poisoned, stop the packet, and those that it replaces are clean (R420, R421, R434). -/
def State.packetWrite (s : State) (locs : List Nat) (bs : List Byte) : Except LoadErr State :=
  if s.keepsPoison locs then .error .broken
  else .ok ((s.unpoisonAll locs).perform stationParty 4 ((locs.zip bs).map fun p => (p.1, some p.2)) [])

/-- An AMO of the stations on a doubleword for a packet, with a release at SYSTEM scope (R284, R420, R421). -/
def State.packetAmo (s : State) (asid va : Nat) (f : Word → Word) : Except LoadErr State := do
  let locs ← s.placesFor asid va 2 8
  let old := BitVec.ofNat 64 (leNat (locs.map fun l => s.latest l))
  (s.touch asid va 8 ⟨2, false⟩).packetWrite locs (toBytes 8 (f old).toNat)

/-- The packet's work has ended: its own, that of its cores, and that of its list or body. -/
def QPacket.worked (p : QPacket) : Bool :=
  p.started && !p.completed && !p.held && p.failing == 0 && p.cores.isEmpty && (if p.type = 5 ∨ p.type = 6 then p.over_ && p.children == 0 else p.over_)

/-- PACKET_COMPLETE: a packet whose work has ended updates its signal word and completes, or fails (R420). -/
def execPacketComplete (q idx : Nat) (s : State) : Out :=
  s.scheduled (.packetComplete q idx) fun s =>
    let d := s.queue q
    match d.pkt? idx with
    | none => s
    | some p =>
      if p.failing ≠ 0 ∧ p.cores = [] ∧ p.completed = false then s.failPkt q idx p.failing
      else if p.worked = false then s
      else
        let r := if fieldAt p.bytes 0 8 / 512 % 2 = 1 then s.packetAmo d.asid (fieldAt p.bytes 8 8) fun v => v - 1 else .ok s
        match r with
        | .error e => s.stopPkt q idx e
        | .ok s =>
          let s := s.modPkt q idx fun p => { p with completed := true }
          let s := if p.parent = 0 then s
            else (s.modPkt q (p.parent - 1) fun k => { k with children := k.children - 1 }).post (.packetComplete q (p.parent - 1))
          ((s.growQueue q).advanceRd q).schedule q

/-! ### The packet types (R421, R422) -/

/-- The bytes of a packet from an offset on are zero. -/
def zeroFrom (p : QPacket) (off : Nat) : Bool := (p.bytes.drop off).all fun b => b == 0

/-- A doubleword of a packet. -/
def QPacket.dw (p : QPacket) (off : Nat) : Nat := fieldAt p.bytes off 8

/-- LAUNCH_PACKET: a gang of cores is launched, or the packet waits for tiles (R424); what it has read counts as accessed all the same (R261). -/
def execLaunchPacket (q idx : Nat) (s : State) : Out :=
  s.inTurn q idx 1 (.launchPacket q idx) fun d p =>
    match parseLaunch p.bytes with
    | .error e => s.stopPkt q idx e
    | .ok r =>
      let read := s.touchLaunch d.asid r
      match s.planLaunch d.asid r [] with
      | .error e => read.stopPkt q idx e
      | .ok none => (read.modPkt q idx fun p => { p with want := r.tiles }).soon (.launchPacket q idx)
      | .ok (some l) => ((read.launchNow d.asid l (0, 0)).modPkt q idx fun p => { p with cores := l.cores, over_ := true }).begin_ q idx

/-- The copy of a COPY packet, as if through a buffer (R421). -/
def State.packetCopy (s : State) (asid src dst n : Nat) : Except LoadErr State := do
  let bs ← s.readFor asid src n
  let locs ← s.placesFor asid dst 1 n
  ((s.touch asid src n ⟨0, false⟩).touch asid dst n ⟨1, false⟩).packetWrite locs bs

/-- COPY_PACKET (R421); after a page fault that the kernel has serviced it runs again. -/
def execCopyPacket (q idx : Nat) (s : State) : Out :=
  let run := fun (s : State) (d : Queue) (p : QPacket) =>
    match s.packetCopy d.asid (p.dw 0x10) (p.dw 0x18) (p.dw 0x20) with
    | .ok s => s.endWork q idx
    | .error e => s.stopPkt q idx e
  let d := s.queue q
  match d.pkt? idx with
  | none => .next s
  | some p =>
    if p.started then s.scheduled (.copyPacket q idx) fun s => if p.over_ || p.completed || p.held || p.type != 2 || p.failing != 0 then s else run s d p
    else s.inTurn q idx 2 (.copyPacket q idx) fun d p =>
      if 2 ^ 52 ≤ p.dw 0x10 ∨ 2 ^ 52 ≤ p.dw 0x18 ∨ 2 ^ 32 < p.dw 0x20 ∨ zeroFrom p 0x28 = false then s.failPkt q idx 1
      else run (s.begin_ q idx) d p

/-- WAIT_PACKET: the wait begins (R421). -/
def execWaitPacket (q idx : Nat) (s : State) : Out :=
  let d := s.queue q
  match d.pkt? idx with
  | none => .next s
  | some p =>
    if p.started then .next (s.post (.waitPoll q idx))
    else s.inTurn q idx 3 (.waitPacket q idx) fun _ p =>
      let t := p.dw 0x28
      if 2 ^ 52 ≤ p.dw 0x10 ∨ p.dw 0x10 % 8 ≠ 0 ∨ 6 ≤ t % 8 ∨ t / 8 % 2 ^ 29 ≠ 0 ∨ zeroFrom p 0x30 = false then s.failPkt q idx 1
      else
        let s := (s.modPkt q idx fun p => { p with deadline := if t / 2 ^ 32 = 0 then 0 else s.ns + 1000 * (t / 2 ^ 32) }).begin_ q idx
        let s := s.post (.waitPoll q idx)
        if t / 2 ^ 32 = 0 then s else s.soon (.waitTimeout q idx)

/-- The test of a WAIT (R421). -/
def waitTest (t : Nat) (v x : Word) : Bool :=
  if t = 0 then v == x
  else if t = 1 then v != x
  else if t = 2 then decide (v.toNat < x.toNat)
  else if t = 3 then decide (x.toNat ≤ v.toNat)
  else if t = 4 then decide (v.toInt < x.toInt)
  else decide (x.toInt ≤ v.toInt)

/-- WAIT_POLL: the word is read again under an acquire, and the wait ends when it passes the test (R421). -/
def execWaitPoll (q idx : Nat) (s : State) : Out :=
  s.scheduled (.waitPoll q idx) fun s =>
    let d := s.queue q
    match d.pkt? idx with
    | none => s
    | some p =>
      if !p.started || p.over_ || p.completed || p.held || p.type != 3 || p.failing != 0 then s
      else match s.readFor d.asid (p.dw 0x10) 8 with
        | .error e => s.stopPkt q idx e
        | .ok bs =>
          let s := s.touch d.asid (p.dw 0x10) 8 ⟨0, false⟩
          let v := BitVec.ofNat 64 (leNat bs) &&& BitVec.ofNat 64 (p.dw 0x18)
          if waitTest (p.dw 0x28 % 8) v (BitVec.ofNat 64 (p.dw 0x20)) then s.endWork q idx else s.soon (.waitPoll q idx)

/-- WAIT_TIMEOUT: the packet fails with err 4 (R420, R421). -/
def execWaitTimeout (q idx : Nat) (s : State) : Out :=
  s.scheduled (.waitTimeout q idx) fun s => match (s.queue q).pkt? idx with
    | none => s
    | some p =>
      if !p.started || p.over_ || p.completed || p.type != 3 || p.failing != 0 || p.deadline == 0 then s
      else if s.ns < p.deadline then s.soon (.waitTimeout q idx)
      else s.failPkt q idx 4

/-- SIGNAL_PACKET: an AMO with order rel at SYSTEM scope (R421). -/
def execSignalPacket (q idx : Nat) (s : State) : Out :=
  let run := fun (s : State) (d : Queue) (p : QPacket) =>
    let v := BitVec.ofNat 64 (p.dw 0x18)
    match s.packetAmo d.asid (p.dw 0x10) fun old => if p.dw 0x20 = 0 then v else if p.dw 0x20 = 1 then old + v else old ||| v with
    | .ok s => s.endWork q idx
    | .error e => s.stopPkt q idx e
  let d := s.queue q
  match d.pkt? idx with
  | none => .next s
  | some p =>
    if p.started then s.scheduled (.signalPacket q idx) fun s => if p.over_ || p.completed || p.held || p.type != 4 || p.failing != 0 then s else run s d p
    else s.inTurn q idx 4 (.signalPacket q idx) fun d p =>
      if 2 ^ 52 ≤ p.dw 0x10 ∨ p.dw 0x10 % 8 ≠ 0 ∨ 3 ≤ p.dw 0x20 ∨ zeroFrom p 0x28 = false then s.failPkt q idx 1
      else run (s.begin_ q idx) d p

/-- INDIRECT_PACKET: the whole list is read, and its packets run in the packet's place (R422). -/
def execIndirectPacket (q idx : Nat) (s : State) : Out :=
  s.inTurn q idx 5 (.indirectPacket q idx) fun d p =>
    let n := p.dw 0x18
    if 2 ^ 52 ≤ p.dw 0x10 ∨ p.dw 0x10 % 64 ≠ 0 ∨ n = 0 ∨ 4096 < n ∨ zeroFrom p 0x20 = false then s.failPkt q idx 1
    else if 2 ≤ p.nest then s.failPkt q idx 5
    else match s.readFor d.asid (p.dw 0x10) (64 * n) with
      | .error e => s.stopPkt q idx e
      | .ok bs =>
        let list := (List.range n).map fun i =>
          mkPacket p.idx (d.seqno + i) (p.dw 0x10 + 64 * i) (idx + 1) (p.nest + 1) 0 ((bs.drop (64 * i)).take 64) false
        let s := (s.touch d.asid (p.dw 0x10) (64 * n) ⟨0, false⟩).modQueue q fun d =>
          let at_ := d.after idx
          { d with
            pkts := d.pkts.take at_ ++ list ++ d.pkts.drop at_
            seqno := d.seqno + n }
        (s.modPkt q idx fun p => { p with children := n, over_ := true }).begin_ q idx

/-- LOOP_PACKET: the next k packets run n times; n = 0 skips them (R422). A list that ends before the body does is malformed. -/
def execLoopPacket (q idx : Nat) (s : State) : Out :=
  s.inTurn q idx 6 (.loopPacket q idx) fun d p =>
    let n := p.dw 0x10
    let k := p.dw 0x18
    let rest := ((d.pkts.dropWhile fun x => x.seqno != idx).drop 1).takeWhile fun x => x.parent == p.parent
    if 2 ^ 32 ≤ n ∨ k = 0 ∨ 64 < k ∨ zeroFrom p 0x20 = false ∨ (p.parent ≠ 0 ∧ rest.length < k) then s.failPkt q idx 1
    else
      let s := s.modPkt q idx fun p => { p with
        children := if n = 0 then k else n * k
        over_ := true
        loop := some (k, n - 1, n == 0) }
      (s.growQueue q).begin_ q idx

/-- FETCH_FENCE_PACKET: every fetched packet after it is discarded, and fetched again when it is next due (R422). -/
def execFetchFencePacket (q idx : Nat) (s : State) : Out :=
  s.inTurn q idx 7 (.fetchFencePacket q idx) fun d p =>
    if zeroFrom p 0x10 = false then s.failPkt q idx 1
    else
      let later := (d.pkts.dropWhile fun x => x.seqno != idx).drop 1
      let s := s.modQueue q fun d => { d with pkts := d.pkts.map fun x => if later.any fun y => y.seqno == x.seqno && !x.started then { x with bytes := [] } else x }
      (s.begin_ q idx).endWork q idx

/-- A scope that is over writes its completion record, and its packet completes (R397). -/
def State.writeRecord (s : State) (q idx : Nat) : State :=
  match s.scopes.find? fun e => match e.2 with | some k => k.queue == q && k.pkt == idx && k.over_ | none => false with
  | some (id, some k) =>
    match s.placesFor k.asid k.done 1 64 with
    | .error e => s.stopPkt q idx e
    | .ok locs =>
      match (s.touch k.asid k.done 64 ⟨1, false⟩).packetWrite locs k.record with
      | .error e => s.stopPkt q idx e
      | .ok s => ({ s with scopes := Store.set none s.scopes id none }).endWork q idx
  | _ => s

/-- TOURNEY_PACKET: a scope starts (R387, R388); once it is over, its record is written (R397). -/
def execTourneyPacket (q idx : Nat) (s : State) : Out :=
  let d := s.queue q
  match d.pkt? idx with
  | none => .next s
  | some p =>
    if p.started then s.scheduled (.tourneyPacket q idx) fun s => if p.over_ || p.completed || p.held || p.type != 8 then s else s.writeRecord q idx
    else s.inTurn q idx 8 (.tourneyPacket q idx) fun d p =>
      if 2 ^ 52 ≤ p.dw 0x10 ∨ zeroFrom p 0x18 = false then s.failPkt q idx 1
      else
        let read := s.touchScope d.asid (p.dw 0x10)
        match s.planScope d.asid (p.dw 0x10) q idx with
        | .error e => read.stopPkt q idx e
        | .ok k => (read.startScope k).begin_ q idx

/-- LEASE_PACKET: a lease on behalf of a core; the handle or the code is written with a release at SYSTEM scope (R377, R421). -/
def execLeasePacket (q idx : Nat) (s : State) : Out :=
  s.inTurn q idx 9 (.leasePacket q idx) fun d p =>
    let f := p.dw 0x10
    if f / 4096 % 16 ≠ 0 ∨ 2 ^ 23 ≤ f ∨ 2 ^ 14 ≤ p.dw 0x20 ∨ 2 ^ 52 ≤ p.dw 0x28 ∨ zeroFrom p 0x30 = false then s.failPkt q idx 1
    else match s.placesFor d.asid (p.dw 0x28) 1 8 with
      | .error e => s.stopPkt q idx e
      | .ok locs =>
        let (r, s1) := s.lease d.asid (p.dw 0x20) (f % 4096) (f / 2 ^ 16) (p.dw 0x18)
        match (s1.touch d.asid (p.dw 0x28) 8 ⟨1, false⟩).packetWrite locs (toBytes 8 (BitVec.ofInt 64 r).toNat) with
        | .error e => s.stopPkt q idx e
        | .ok s => (s.begin_ q idx).endWork q idx

/-! ### Queue reset (R425) -/

/-- The packets of killed cores that are resent, that wait in a latch, or that stand in a reorder store behind a discarded one are discarded; the
flows of what still travels go on from there. -/
def State.discardSent (s : State) (killed : List Nat) : State :=
  let ours := fun (p : Packet) => killed.contains p.src
  let gone := s.packets.filter fun p => ours p && (p.phase == 2 || p.phase == 3 || p.phase == 4)
  let behind := fun (p : Packet) => ours p && p.phase == 1 && gone.any fun g => g.src == p.src && g.dst == p.dst
  let dropped := (s.packets.filter fun p => behind p || gone.any fun g => g.id == p.id).map fun p => p.id
  let s := s.cores.foldl (fun (s : State) e => match e.2.msg.latch with
    | some l => if dropped.contains l.pkt then s.modCore e.1 fun c => { c with msg := { c.msg with latch := none } } else s
    | none => s) s
  let s := { s with packets := s.packets.filter fun p => !dropped.contains p.id }
  let flows := s.flows.map fun e =>
    if killed.contains (e.1 / 16384) then
      let seqs := (s.packets.filter fun p => flowKey p.src p.dst == e.1).filterMap fun p => p.seq
      (e.1, (e.2.1, seqs.foldl Nat.min e.2.1))
    else e
  { s with flows := flows }

/-- A far-tier write that has no live port, for work of a queue or of one of some cores (R425, R431). -/
def FaultRec.farWrite (r : FaultRec) (q : Nat) (cores : List Nat) : Bool := r.kind == 3 && r.access == 1 && (r.core == 10000 + q || cores.contains r.core)

/-- A reset begins: the target stops, and every started packet ends (R425, steps 1 to 3); a far-tier write with no live port keeps its record. -/
def State.startReset (s : State) (q : Nat) : State :=
  let d := s.queue q
  let live := d.pkts.filter fun p => p.started && !p.completed
  let cores := (live.map fun p => p.cores).flatten
  let scopes := s.scopes.filterMap fun e => match e.2 with
    | some k => if k.queue = q ∧ live.any (fun p => p.seqno == k.pkt) = true then some (e.1, k) else none
    | none => none
  let members := (scopes.map fun e => (e.2.contestants.map fun t => t.members).flatten).flatten
  let far := s.stn.faults.filter fun r => r.farWrite q (cores ++ members)
  let s := s.modQueue q fun d => { d with
    state := 3
    pkts := []
    fetch := d.wr
    killed := cores ++ members
    farHeld := far.map fun r => (r.core, r.id)
    recHeld := scopes.map fun e => (e.2.asid, e.2.done) }
  let s := { s with stn := { s.stn with faults := s.stn.faults.filter fun r => r.core != 10000 + q } }
  let s := cores.foldl State.killNamed s
  let s := scopes.foldl (fun (s : State) e =>
    let s := if e.2.over_ then s else match execScopeAbort e.1 s with
      | .next t => t
      | _ => s
    let rec_ := match s.scope? e.1 with | some k => k.record | none => []
    { s.deviceWrite e.2.asid e.2.done rec_ with scopes := Store.set none s.scopes e.1 none }) s
  { s with stn := { s.stn with faults := s.stn.faults ++ far.filter fun r => !s.stn.faults.contains r } }

/-- Something of a reset queue's work is still under way: a packet on the mesh, a far-tier write that the kernel has not declined, or a scope's
record that waits behind a page fault (R425, step 3). -/
def State.resetWaits (s : State) (d : Queue) : Bool :=
  (s.packets.any fun p => d.killed.contains p.src) || (s.stn.faults.any fun r => d.farHeld.contains (r.core, r.id))
    || s.stn.devHeld.any fun w => d.recHeld.contains (w.asid, w.va)

/-- QUEUE_RESET_CONTROL: the kernel resets a queue, and a reset in progress completes once nothing of its work is under way; what comes to be resent,
latched or held in a reorder store meanwhile is discarded too (R425). -/
def execQueueResetControl (q : Nat) (s : State) : Out :=
  s.scheduled (.queueResetControl q) fun s =>
    let s := if (s.queue q).state = 3 then s else s.startReset q
    let d := s.queue q
    let s := s.discardSent d.killed
    if s.resetWaits d then s.soon (.queueResetControl q)
    else
      let s := s.modQueue q fun d => { d with
        rd := d.wr
        fetch := d.wr
        state := 0
        err := 0
        pidx := 0
        killed := []
        farHeld := []
        recHeld := []
        askers := [] }
      d.askers.foldl (fun s a => s.endWork a.1 a.2) s

/-- RESET_QUEUE_PACKET: another queue of the same ASID is reset (R425). -/
def execResetQueuePacket (q idx : Nat) (s : State) : Out :=
  s.inTurn q idx 10 (.resetQueuePacket q idx) fun d p =>
    let t := p.dw 0x10
    if 1024 ≤ t ∨ zeroFrom p 0x18 = false then s.failPkt q idx 1
    else if t = q ∨ (s.queue t).asid ≠ d.asid then s.failPkt q idx 2
    else
      let s := s.begin_ q idx
      let s := if (s.queue t).state = 3 then s else s.startReset t
      (s.modQueue t fun d => { d with askers := d.askers ++ [(q, idx)] }).post (.queueResetControl t)

end Sys2Proof.Machine
end

