-- ==== Sys2Proof/Machine/Ports.lean ====
section
/-!
DEFINITION. The host and scale-up ports, the integrity events, the power modes, the firmware, the attestation, the heartbeat and the
accesses of the kernel's harts (R263, R280, R426 to R442). In recovery state the island acts on a new firmware image only (R441).
-/

namespace Sys2Proof.Machine

/-! ### The check value of a granule (R432) -/

/-- One bit into the CRC-16 of polynomial 0x8BB7. R432 -/
def checkBit (crc : BitVec 16) (bit : Bool) : BitVec 16 :=
  if crc.msb != bit then (crc <<< 1) ^^^ 0x8BB7 else crc <<< 1

/-- One byte into it, most significant bit first. R432 -/
def checkByte (crc : BitVec 16) (b : Byte) : BitVec 16 :=
  (List.range 8).foldl (fun c i => checkBit c (b.getMsbD i)) crc

/-- The check value of a granule: its bytes in order, from an initial value of 0, with no final exclusive-or. The state keeps beside a
granule whether its stored check still fits it (`ulmBad`, `poison`, `bad`), not the sixteen bits, since nothing reads them. R432, R433 -/
def checkValue (granule : List Byte) : BitVec 16 := granule.foldl checkByte 0

/-! ### Starting a switch of the power mode (R438, R439) -/

/-- A switch to a mode begins: every arithmetic and network clock stops for 2 µs, at a network-cycle boundary (R438). Between two of them the clocks
run on to the next, and the 2 µs begin there: restartAt 0 says that they have not begun. -/
def State.startSwitch (s : State) (mode : BitVec 4) : State :=
  { s with isl := { s.isl with busy := true, next := mode, restartAt := if s.cycle % Config.netCycle = 0 then s.ns + 2000 else 0 } }.soon .modeSwitchRestart

/-- The request takes effect: while the cap is held, only towards a lower mode (R437 to R439). -/
def State.applyRequest (s : State) : State :=
  let i := s.isl
  if i.req = i.now ∨ (i.cap ∧ i.req < i.now) then s else s.startSwitch i.req

/-! ### Host ports (R427, R428) -/

/-- The window stands behind the port: mode 0 or 1, and within its 64 GiB (R427, R428). -/
def inWindow (port addr len : Nat) : Bool := Config.strap port % 3 != 2 && decide (addr + len ≤ 2 ^ 36)

/-- A window access of a port joins those that wait, and is performed when none stands before it (R428). -/
def State.windowAccess (s : State) (a : HostAcc) : State :=
  let first := !s.isl.hostPend.any fun b => b.port == a.port
  let s := { s with isl := { s.isl with hostPend := s.isl.hostPend ++ [a] } }
  if first then s.drainWindow a.port 1 else s

/-- The payloads of a write, of at most 512 bytes each, with their places; n bounds their number (R427). -/
def payloads (addr : Nat) (data : List Byte) : Nat → List (Nat × List Byte)
  | 0 => []
  | n + 1 => if data.isEmpty then [] else (addr, data.take 512) :: payloads (addr + 512) (data.drop 512) n

/-- The request that a write of PMODE makes takes effect, or waits for the end of a switch (R437, R438): only the field req is writable, and 3 to 15
are ignored. -/
def State.pmodePut (s : State) (value : Word) : State :=
  let req : BitVec 4 := value.extractLsb' 0 4
  if s.isl.recovery ∨ 2 < req.toNat then s
  else if s.isl.busy then { s with isl := { s.isl with req := req, again := some req } }
  else { s with isl := { s.isl with req := req } }.applyRequest

/-- A host writes a doubleword of the control space (R428): what the kernel writes there, but not a policy block or the migration table, which only
the kernel on the RV64 complex writes (R366, R369). rd, the state of a queue and the counters are the device's own. -/
def State.ctlWrite (s : State) (v : Word) : CtlPlace → State
  | .reg r => s.ctlPut v r
  | .pmode => s.pmodePut v
  | .queue q 0 => s.ctlPut v (.queueRing q)
  | .queue q 1 => s.ctlPut v (.queueCtl q)
  | .queue q 3 => s.ctlPut v (.queueWr q)
  | _ => s

/-- The first byte above the 64 GiB of the window: an event's address from here on is one of BAR0, counted from here (DESIGN CHOICE, log entry
140: the events name one address). -/
def bar0 : Nat := 2 ^ 36

/-- n bytes from an address lie in BAR0, the 16 MiB of the control space (R428). -/
def inBar0 (addr n : Nat) : Bool := decide (bar0 ≤ addr) && decide (addr - bar0 + n ≤ 2 ^ 24)

/-- A byte of the control space (R428). -/
def State.ctlByte (s : State) (off : Nat) : Byte := (s.ctlRead (Config.ctlAt (off / 8 * 8))).extractLsb' (8 * (off % 8)) 8

/-- A host writes n bytes of the control space: each aligned doubleword that they touch is written, with its other bytes as they read (R428). -/
def State.ctlBytes (s : State) (off : Nat) (data : List Byte) : State :=
  (List.range ((off + data.length + 7) / 8 - off / 8)).foldl (fun s i =>
    let d := (off / 8 + i) * 8
    let bs := (List.range 8).map fun j => if off ≤ d + j ∧ d + j < off + data.length then data.getD (d + j - off) 0 else s.ctlByte (d + j)
    s.ctlWrite (BitVec.ofNat 64 (leNat bs)) (Config.ctlAt d)) s

/-- HOST_WINDOW_WRITE (R428): a write to the window in payloads of at most 512 bytes (R427), or one to the control space, which the island drops in
recovery state (R441). -/
def execHostWindowWrite (port addr : Nat) (data : List Byte) (s : State) : Out :=
  .next (if inBar0 addr data.length then (if s.isl.recovery then s else s.ctlBytes (addr - bar0) data)
    else if inWindow port addr data.length then
      (payloads addr data data.length).foldl (fun s p => s.windowAccess ⟨port, p.1, p.2.length, some p.2⟩) s
    else s)

/-- HOST_WINDOW_READ (R428): of the window, or of the control space, which answers UR in recovery state (R441). -/
def execHostWindowRead (port addr len : Nat) (s : State) : Out :=
  .next (if inBar0 addr len then
      (if s.isl.recovery then { s with isl := { s.isl with hostRead := List.replicate len 0xFF, hostStatus := 1 } }
      else { s with isl := { s.isl with hostRead := (List.range len).map fun i => s.ctlByte (addr - bar0 + i), hostStatus := 0 } })
    else if inWindow port addr len then s.windowAccess ⟨port, addr, len, none⟩ else s)

/-- HOST_LINK_TRAIN: one of the PCIe rates in GT/s, and a width of 16, 8, 4 or 1 lanes (R427). -/
def execHostLinkTrain (port rate width : Nat) (s : State) : Out :=
  .next (if [64, 32, 16, 8, 5, 2].contains rate && [16, 8, 4, 1].contains width then
    { s with isl := { s.isl with hostLink := Store.set (0, 0) s.isl.hostLink port (rate, width) } } else s)

/-- CXL_SNOOP: a port in mode 1 answers with a miss, since the device holds no CXL.cache line (R427). -/
def execCxlSnoop (port _addr : Nat) (s : State) : Out :=
  .next (if Config.strap port % 3 = 1 then { s with isl := { s.isl with snoops := Store.modify 0 s.isl.snoops port (· + 1) } } else s)

/-! ### Scale-up ports (R430, R431) -/

/-- LINK_FLIT_RETRY: the flit is resent inside the link (R430). -/
def execLinkFlitRetry (port : Nat) (s : State) : Out :=
  .next { s with isl := { s.isl with retries := Store.modify 0 s.isl.retries port (· + 1) } }

/-- SCALEUP_LINK_DOWN: the port leaves the live set of every far-map entry (R431). -/
def execScaleupLinkDown (port : Nat) (s : State) : Out :=
  .next (if s.isl.down.contains port then s else { s with isl := { s.isl with down := port :: s.isl.down } })

/-- LINK_RETRAIN: the port rejoins the live set (R431). -/
def execLinkRetrain (port : Nat) (s : State) : Out :=
  .next { s with isl := { s.isl with down := s.isl.down.filter fun p => p != port } }

/-! ### Soft errors (R94, R151, R297, R435, R436) -/

/-- Nanoseconds of an hour. -/
def hourNs : Nat := 3600000000000

/-- A corrected error counts for its unit, which sends one record in an hour in which it corrects more than its threshold (R436): a station 0 to 15, the ULM of core n at 16 + n, its register arrays at 9,232 + n. -/
def State.corrected (s : State) (unit : Nat) : State :=
  let hour := s.ns / hourNs
  let (h, n, sent) := Store.get (0, 0, 0) s.isl.hourly unit
  let (n, sent) := if h = hour then (n + 1, sent) else (1, 0)
  let due := sent == 0 && decide (Store.get 1024 s.isl.thresholds unit < n)
  let s := { s with isl := { s.isl with
    corrected := Store.modify 0 s.isl.corrected unit fun k => Nat.min (k + 1) 0xFFFFFFFF
    hourly := Store.set (0, 0, 0) s.isl.hourly unit (hour, n, if due then 1 else sent) } }
  if due then s.machineCheck 1 unit else s

/-- A core's ULM error: the 32-bit word where it lies (R435), or the granule whose check value no longer fits it (R433). -/
def Core.spoilUlm (c : Core) (addr : Nat) (check : Bool) : Core :=
  if check then (if c.ulmChk.contains (c.phys addr / 64) then c else { c with ulmChk := c.phys addr / 64 :: c.ulmChk })
  else if c.ulmBad.contains (c.phys addr / 4) then c else { c with ulmBad := c.phys addr / 4 :: c.ulmBad }

/-- SOFT_ERROR: a single-symbol or single-bit error is corrected and counted; a wider one poisons its HBM granule, its ULM word or its entry. An
error on a track fails the parity check of a beat; one that the check value of a granule shows, in ULM, in a siding, in the network's stores, at a
port's exit, or in what a command has under way, which then ends with -3, lands no data; and one in a station's own tables reaches the kernel as a
record (R94, R151, R313, R433, R435, R436). -/
def execSoftError (site : ErrSite) (multi : Bool) (s : State) : Out :=
  match site with
  | .hbm loc =>
    if farBase ≤ loc then .next s
    else if !multi then .next (s.corrected (stationOfLoc loc))
    else .next (if s.isl.poison.contains (loc / 64) then s else { s with isl := { s.isl with poison := loc / 64 :: s.isl.poison } })
  | .ulm core addr =>
    if Config.cores ≤ core ∨ Config.ulmBytes ≤ addr then .next s
    else if !multi then .next (s.corrected (16 + core))
    else .next (s.modCore core fun c => c.spoilUlm addr false)
  | .check core addr => .next (if Config.cores ≤ core ∨ Config.ulmBytes ≤ addr then s else s.modCore core fun c => c.spoilUlm addr true)
  | .siding core loc => .next (s.setSideBad core fun l => if l.contains (loc / 64) then l else loc / 64 :: l)
  | .exit port => .next (if s.isl.exitBad.contains port then s else { s with isl := { s.isl with exitBad := port :: s.isl.exitBad } })
  | .tables station => .next (s.machineCheck 0 station)
  | .reg core home =>
    if Config.cores ≤ core then .next s
    else if !multi then .next (s.corrected (16 + Config.cores + core))
    else .next (s.modCore core fun c => if c.regBad.contains home then c else { c with regBad := home :: c.regBad })
  | .packet pkt => .next { s with packets := s.packets.map fun p => if p.id = pkt then { p with bad := true } else p }
  | .beat core cycle => .next { s with beats := s.beats.map fun b => if b.core = core ∧ b.cycle = cycle then { b with bad := true } else b }
  | .answer core id => match ((s.core core).cmd? id).bind Cmd.inFlight with
    | some va => .next (s.endCmd core id (-3) 0 va)
    | none => .next s

/-- The granule that a station scrubs at a place in its turn: its 32 channels in turn, 31,250,000 granules each. -/
def scrubGranule (station n : Nat) : Nat := (32 * station + n % 32) * (Config.channelBytes / 64) + n / 32

/-- SCRUB: the next granule in turn; an uncorrectable error that it finds reaches the kernel (R435). -/
def execScrub (station : Nat) (s : State) : Out :=
  let n := Store.get 0 s.isl.scrub station
  let s1 := { s with isl := { s.isl with scrub := Store.set 0 s.isl.scrub station ((n + 1) % (32 * (Config.channelBytes / 64))) } }
  .next (if s.isl.poison.contains (scrubGranule station n) then s1.machineCheck 0 station else s1)

/-! ### Power modes (R437 to R439) -/

/-- PMODE_WRITE (R437, R438). -/
def execPmodeWrite (value : Word) (s : State) : Out := .next (s.pmodePut value)

/-- MODE_SWITCH_RESTART: the clocks stop at the boundary, and 2 µs later they restart in the new mode (R438). -/
def execModeSwitchRestart (s : State) : Out :=
  if !s.isl.busy then .next s
  else if s.isl.restartAt = 0 ∨ s.ns < s.isl.restartAt then .next (s.soon .modeSwitchRestart)
  else
    let again := s.isl.again.isSome
    let s := { s with isl := { s.isl with now := s.isl.next, busy := false, again := none } }
    .next (if again then s.applyRequest else s)

/-- POWER_LIMIT_EXCEEDED: the next lower mode, with the cap held (R439). -/
def execPowerLimitExceeded (s : State) : Out :=
  if s.isl.recovery then .next s
  else if s.isl.busy then .next (s.soon .powerLimitExceeded)
  else if 2 ≤ s.isl.now.toNat then .next { s with isl := { s.isl with coolSince := s.ns } }
  else
    let mode := s.isl.now + 1
    .next (({ s with isl := { s.isl with cap := true, coolSince := s.ns } }.startSwitch mode).machineCheck 2 mode.toNat)

/-- POWER_CAP_RELEASE: 100 ms after the limit was last exceeded the island returns to the requested mode (R439). -/
def execPowerCapRelease (s : State) : Out :=
  if s.isl.recovery ∨ !s.isl.cap ∨ s.ns < s.isl.coolSince + 100000000 then .next s
  else if s.isl.busy then .next (s.soon .powerCapRelease)
  else
    let s := { s with isl := { s.isl with cap := false } }
    .next (s.applyRequest.machineCheck 2 s.isl.req.toNat)

/-! ### Firmware (R440, R441) -/

/-- The n-byte little-endian field of an image at an offset. -/
def imageField (img : List Byte) (off n : Nat) : Nat := leNat ((img.drop off).take n)

/-- The security version of an image (R440). -/
def imageVersion (img : List Byte) : Nat := imageField img 0x008 4

/-- The big-endian number of a run of bytes, as a digest is written. -/
def beNat (bs : List Byte) : Nat := leNat bs.reverse

/-- The island admits an image (R440). -/
def admits (floor : Nat) (img : List Byte) : Bool :=
  let body := (img.drop 0x8A0).take (imageField img 0x00C 4)
  decide (img.length = 0x8A0 + imageField img 0x00C 4) && imageField img 0 8 == 0x5058424657000001
    && Config.imageSigned (img.take 0x40) ((img.drop 0x40).take 0x860)
    && (Config.sha384 body).toNat == beNat ((img.drop 0x010).take 48) && decide (floor ≤ imageVersion img)

/-- FIRMWARE_IMAGE: an admitted image is written to flash and may raise the floor; a rejected one changes nothing (R440, R441). -/
def execFirmwareImage (image : List Byte) (s : State) : Out :=
  .next (if admits s.isl.floor image then
    { s with isl := { s.isl with flash := some image, floor := Nat.max s.isl.floor (imageVersion image), recovery := false } } else s)

/-- FLASH_WRITE_INTERRUPTED: the module is left in recovery state (R441). -/
def execFlashWriteInterrupted (s : State) : Out := .next { s with isl := { s.isl with flash := some [], recovery := true } }

/-- The image in flash. -/
def Island.stored (i : Island) : List Byte := i.flash.getD Config.factoryImage

/-- ATTESTATION_REQUEST: the registers, the nonce and the version, signed; and a new heartbeat key (R442). -/
def execAttestationRequest (nonce : BitVec 256) (peer : BitVec 768) (s : State) : Out :=
  if s.isl.recovery then .next s
  else
    let v := imageVersion s.isl.stored
    .next { s with isl := { s.isl with
      quote_ := some (s.isl.measures, nonce, v, Config.sign s.isl.measures nonce v)
      key := some (Config.deriveKey nonce peer s.isl.attested)
      attested := s.isl.attested + 1 } }

/-- DEVICE_RESET: every field takes its reset value, but for what reset does not reach: the flash, the fused floor, the far memory behind
the ports (R263, R278), and the model's own counters of free values, releases and attestations. The island verifies the stored image at every reset;
one that it does not take is not started, so that no stage of it is measured, and the module is in recovery state (R441, R442). -/
def execDeviceReset (s : State) : Out :=
  let img := s.isl.stored
  let good := admits s.isl.floor img
  .next { State.reset with
    free := s.free
    serial := s.serial
    home := s.home.filter fun p => decide (farBase ≤ p.1)
    isl := { State.reset.isl with
      flash := s.isl.flash
      floor := s.isl.floor
      attested := s.isl.attested
      recovery := !good
      measures := if good then measured img else List.replicate 8 0 } }

/-! ### Heartbeats and reset messages (R426) -/

/-- The number of neighbours that form a quorum (R426). -/
def Island.quorumOf (i : Island) : Nat := if i.quorum = 0 then i.neighbours / 2 + 1 else i.quorum

/-- HEARTBEAT_SEND: every millisecond the counter rises (R426); the schedulers send none while the complex is down, or was never started (R441). -/
def execHeartbeatSend (s : State) : Out :=
  if s.ns < s.isl.beatAt ∨ s.isl.complexDown ∨ s.isl.recovery then .next (s.soon .heartbeatSend)
  else .next ({ s with isl := { s.isl with beat := s.isl.beat + 1, beatAt := s.ns + 1000000 } }.soon .heartbeatSend)

/-- The tag of a reset message under a key (R426). -/
def resetTag (key : BitVec 384) (sender target counter : Nat) : BitVec 384 :=
  Config.hmac key (toBytes 8 sender ++ toBytes 8 target ++ toBytes 8 counter)

/-- The neighbours that have missed three consecutive beats up to the latest (R426). -/
def Island.silent (i : Island) : List Nat :=
  (List.range (Nat.min i.neighbours 16)).filter fun nb =>
    let (n, last) := Store.get (0, 0) i.missed nb
    decide (3 ≤ n) && last == i.beat.toNat

/-- The reset message that a neighbour sends. -/
def State.sendReset (s : State) (nb : Nat) : State :=
  let n := Store.get 0 s.isl.counters nb + 1
  s.post (.resetMessage nb Config.identity n (match s.isl.key with | some k => resetTag k nb Config.identity n | none => 0))

/-- HEARTBEAT_MISS: the neighbour has missed the latest beat; once a quorum has missed three in a row, each of them sends a reset message
(R426). -/
def execHeartbeatMiss (nb : Nat) (s : State) : Out :=
  let i := s.isl
  let beat := i.beat.toNat
  let (n, last) := Store.get (0, 0) i.missed nb
  if i.neighbours ≤ nb ∨ 16 ≤ nb ∨ beat = 0 ∨ (n ≠ 0 ∧ last = beat) then .next s
  else
    let n := if n ≠ 0 ∧ last + 1 = beat then n + 1 else 1
    let i' := { i with missed := Store.set (0, 0) i.missed nb (n, beat) }
    let s := { s with isl := i' }
    if i'.silent.length < i.quorumOf ∨ n < 3 then .next s
    else if i.silent.length < i.quorumOf then .next (i'.silent.foldl State.sendReset s)
    else if n = 3 then .next (s.sendReset nb)
    else .next s

/-- RESET_MESSAGE: a message whose tag fails, or whose counter does not rise, is discarded and counted; valid messages from a quorum within
10 ms reset the RV64 complex: the schedulers and the kernel's answers stand still until the restarted kernel resumes them, and the rest of the device
keeps its state (R426). -/
def execResetMessage (sender target counter : Nat) (tag : BitVec 384) (s : State) : Out :=
  let i := s.isl
  let valid := (match i.key with | some k => tag == resetTag k sender target counter | none => false)
    && decide (Store.get 0 i.counters sender < counter) && target == Config.identity && decide (sender < Nat.min i.neighbours 16)
  if i.recovery then .next s
  else if !valid then .next { s with isl := { i with discards := i.discards + 1 } }
  else
    let votes := (i.votes.filter fun v => decide (s.ns < v.2 + 10000000) && v.1 != sender) ++ [(sender, s.ns)]
    let i := { i with counters := Store.set 0 i.counters sender counter }
    if i.quorumOf ≤ votes.length then .next { s with isl := { i with votes := [], recoveries := i.recoveries + 1, complexDown := true } }
    else .next { s with isl := { i with votes := votes } }

/-! ### The kernel's harts (R280) -/

/-- The homes of n bytes of an ASID's memory for a hart. -/
def State.hartPlaces (s : State) (asid va kind : Nat) : Nat → Option (List Nat)
  | 0 => some []
  | n + 1 =>
    match s.place asid va ⟨kind, false⟩, s.hartPlaces asid (va + 1) kind n with
    | .ok loc, some r => some (loc :: r)
    | _, _ => none

/-- KERNEL_HART_ACCESS: a hart is a party of its own, which keeps its write set and snapshot as a core does; its FENCE is a release and an acquire
at SYSTEM scope (R280). A load that is not mapped, or meets a poisoned granule, returns nothing; an access to a page in transit waits (R382).
DESIGN CHOICE: the spec names sixteen RV64 cores (R1, R4) and speaks of each of their harts (R274), but gives no number of harts in a core; the
model admits harts 0 to 511, and an access of another hart is no action of this device, nor is one while the complex is down or was never started
(R426, R441). -/
def execKernelHartAccess (hart : Nat) (op : HartOp) (s : State) : Out :=
  if 512 ≤ hart ∨ s.isl.complexDown ∨ s.isl.recovery then .next s
  else
    let p := Config.cores + hart
    match op with
    | .load asid va len =>
      match s.hartPlaces asid va 0 len with
      | none => .next { s with isl := { s.isl with hartRead := [] } }
      | some locs =>
        if locs.any s.heldLoc then .next (s.soon (.kernelHartAccess hart op))
        else if locs.any fun l => s.poisoned l 1 then .next { s with isl := { s.isl with hartRead := [] } }
        else
          let (bs, s) := locs.foldl (fun (r : List Byte × State) l =>
            let (b, t) := r.2.readHome p l 1
            (r.1 ++ b, t)) ([], s.touch asid va len ⟨0, false⟩)
          .next { s with isl := { s.isl with hartRead := bs } }
    | .store asid va data =>
      match s.hartPlaces asid va 1 data.length with
      | none => .next s
      | some locs => .next (if locs.any s.heldLoc then s.soon (.kernelHartAccess hart op)
        else (s.touch asid va data.length ⟨1, false⟩).landHome (locs.zip data) fun s ws => ws.foldl (fun s w => s.putGlobal p w.1 [w.2] false) s)
    | .fence => .next ((s.release p 4).acquire p 4)

end Sys2Proof.Machine
end

