-- ==== Sys2Proof/Machine/Sau.lean ====
section
/-!
DEFINITION. The shared arithmetic unit (R174 to R177, R190): dispatch, starts, completions, and the table words at their start.
-/

namespace Sys2Proof.Machine

/-! ### Dispatch (R174) -/

/-- Place an operation in the core's dispatch queue, its destinations marked pending (R174); alone tells that it runs alone (R120). -/
def dispatchM (cx : Ctx) (alone : Bool) (passes : Nat) (dests : List Nat) (work : SauWork) : CM Unit := do
  let c ← get
  stallIf (decide (8 ≤ c.sauq.length))
  dests.forM fun h => do
    destFree cx h
    shortFree cx h
  modify fun c => dests.foldl (fun c h => c.setPend .e h)
    { c with sauq := c.sauq ++ [⟨work, passes, dests, cx.short, cx.prio, cx.grp, alone, false⟩] }

/-- The word can raise a floating-point exception and an enable is set, so that it runs alone (R120). -/
def aloneM (cx : Ctx) (fp : Bool) : Bool := fp && fpEnables cx.fpctl != 0

/-- A word whose results are computed from captured operands dispatches (R174). -/
def sauWord (cx : Ctx) (fp : Bool) (passes : Nat) (ws : List (Nat × Vec)) (fl : BitVec 5) : CM Unit :=
  dispatchM cx (aloneM cx fp) passes (ws.map Prod.fst) (.result ws fl)

/-! ### Tables (R190 to R192) -/

/-- The table that an operation writes. -/
def SauWork.writesTab : SauWork → Option Nat
  | .tload t .. => some t
  | .tcfg t _ => some t
  | _ => none

/-- The table that an operation reads. -/
def SauWork.readsTab : SauWork → Option Nat
  | .vtab _ _ _ _ _ t .. => some t
  | _ => none

/-- The four cores of a tile. -/
def coresAt (tile : Nat) : List Nat := (List.range 4).map fun j => 4 * tile + j

/-- A TLOAD or TCFG on the table has started and not completed (R190). -/
def State.tabBusy (s : State) (tile tab : Nat) : Bool :=
  (coresAt tile).any fun n => (s.core n).sauFly.any fun o => o.work.writesTab == some tab

/-- Zero a table and tag it, when its tag is another's (R190). -/
def Tile.claim (t : Tile) (tab asid : Nat) : Tile :=
  if Store.get 0 t.tabTag tab = asid + 1 then t
  else { t with
    tab := Store.clear t.tab (tab * 768) (tab * 768 + 768)
    tabCfg := Store.set 0 t.tabCfg tab 0
    tabTag := Store.set 0 t.tabTag tab (asid + 1) }

/-- The result of VTAB from the table as it stands (R192). -/
def vtabResult (t : Tile) (asid tab : Nat) (fmt : Nat) (x old : Vec) (m : Mask) (rm sub : Nat) (sat : Bool) (ds : List (BitVec 32)) :
    Vec × BitVec 5 :=
  let f := Fmt.ofCode (BitVec.ofNat 2 fmt)
  let w := f.width
  let r := mapLanes (1024 / w) m (lane w old) fun i => laneTab t tab asid f sub (Rm.ofCode rm) sat (ds.getD i 0) (lane w x i)
  (ofLanes w r.1, r.2)

/-- What the last pass of an operation does at its start: VTAB reads its table (R190). -/
def SauOp.readTable (t : Tile) (asid : Nat) (o : SauOp) : SauOp :=
  match o.work with
  | .vtab vd fmt x old m tab rm sub sat ds =>
    let r := vtabResult t asid tab fmt x old m rm sub sat ds
    { o with work := .result [(vd, r.1)] r.2 }
  | _ => o

/-- What the last pass of an operation does at its start: TLOAD and TCFG write their table (R190, R191). -/
def Tile.write (t : Tile) (asid : Nat) : SauWork → Tile
  | .tload tab plane chunk x =>
    let t := t.claim tab asid
    { t with tab := Store.setMany 0 t.tab (tab * 768 + plane * 256 + 32 * chunk) ((List.range 32).map fun j => BitVec.ofNat 32 (lane 32 x j)) }
  | .tcfg tab cfg =>
    let t := t.claim tab asid
    { t with tabCfg := Store.set 0 t.tabCfg tab cfg }
  | _ => t

/-! ### Starts (R175, R176) -/

/-- The core's head is ready (R175). -/
def State.headReady (s : State) (tile n : Nat) : Bool :=
  match (s.core n).sauq with
  | [] => false
  | o :: _ => match o.work.readsTab with
    | some tab => !s.tabBusy tile tab
    | none => true

/-- Priority and group of a core's head. -/
def State.headSched (s : State) (n : Nat) : Nat × Nat :=
  match (s.core n).sauq with
  | [] => (0, 0)
  | o :: _ => (o.prio.toNat, o.grp.toNat)

/-- How strongly a pair of ready heads is preferred (R175, criteria 1 to 3). -/
def State.pairKey (s : State) (passed : List Nat) (a b : Nat) : Nat :=
  let x := s.headSched a
  let y := s.headSched b
  let waited := (if passed.contains a then 1 else 0) + (if passed.contains b then 1 else 0)
  16 * waited + 2 * (x.1 + y.1) + (if x.2 ≠ 0 ∧ x.2 = y.2 then 1 else 0)

/-- All pairs of a list, in its order. -/
def pairsOf : List Nat → List (Nat × Nat)
  | [] => []
  | a :: r => r.map (fun b => (a, b)) ++ pairsOf r

/-- The first element with the greatest key. -/
def firstBest (key : Nat × Nat → Nat) : List (Nat × Nat) → Option (Nat × Nat)
  | [] => none
  | a :: r => match firstBest key r with
    | some b => if key a < key b then some b else some a
    | none => some a

/-- The ready heads of a tile, in round-robin order from its pointer (R175). -/
def State.ready (s : State) (tile : Nat) : List Nat :=
  ((List.range 4).map fun j => 4 * tile + ((s.tile tile).sauPtr + j) % 4).filter fun n => s.headReady tile n

/-- The heads that start in this cycle, in round-robin order (R175). -/
def State.starts (s : State) (tile : Nat) : List Nat :=
  let hs := s.ready tile
  match firstBest (fun p => s.pairKey (s.tile tile).passed p.1 p.2) (pairsOf hs) with
  | some (a, b) => [a, b]
  | none => hs

/-- One pass of a core's head starts; its last pass reads a table, and the operation then stands until it completes (R176). -/
def startPass (s : State) (tile n : Nat) : State :=
  let c := s.core n
  match c.sauq with
  | [] => s
  | o :: r =>
    if 1 < o.passes then s.setCore n { c with sauq := { o with passes := o.passes - 1 } :: r }
    else (s.setCore n { c with sauq := r, sauFly := c.sauFly ++ [o.readTable (s.tile tile) c.asid.toNat] }).postpone (.sauComplete n)

/-- The table writes among the operations that have just started (R190). -/
def writeTables (s s0 : State) (tile n : Nat) : State :=
  match (s0.core n).sauq with
  | o :: _ => if o.passes ≤ 1 then s.modTile tile fun t => t.write (s.core n).asid.toNat o.work else s
  | [] => s

/-- SAU_START: one arithmetic cycle of a tile's SAU (R175). -/
def execSauStart (tile : Nat) (s : State) : Out :=
  let go := s.starts tile
  let left := (s.ready tile).filter fun n => !go.contains n
  let s1 := go.foldl (fun t n => startPass t tile n) s
  let s2 := go.foldl (fun t n => writeTables t s tile n) s1
  let s3 := s2.modTile tile fun t => { t with
    passed := left
    sauPtr := match go.getLast? with | some n => (n % 4 + 1) % 4 | none => t.sauPtr }
  .next (if (coresAt tile).any (fun n => !(s3.core n).sauq.isEmpty) then s3.soon (.sauStart tile) else s3)

/-- The results and flags of a completed operation (R118, R177); entries of vstq that wait for one of its registers are filled (R195). An operation
that runs alone hands them to its word, which decides on its trap (R120). -/
def Core.finish (c : Core) (o : SauOp) (cycle : Nat) : Core :=
  match o.work with
  | .result ws fl =>
    if o.alone then { c with fpRun := c.fpRun.map fun r => { r with done := some (ws, fl) } }
    else
      let c := o.dests.foldl (fun c h => c.clearPend .e h) c
      ws.foldl (fun c w => (if o.short then c.putShort .e w.1 w.2 cycle else c.putHome .e w.1 w.2).fillVstq w.1 w.2) (c.orFlags fl cycle)
  | _ => o.dests.foldl (fun c h => c.clearPend .e h) c

/-- SAU_COMPLETE: the oldest started operation of a core writes its results (R177). -/
def execSauComplete (core : Nat) (s : State) : Out :=
  let c := s.core core
  match c.sauFly with
  | [] => .next s
  | o :: r => .next (s.setCore core (Core.finish { c with sauFly := r } o s.cycle))

/-! ### Words of the SAU -/

/-- The word that runs alone has completed, with the results that the SAU has given: an enabled flag traps and leaves nothing, its draws among it;
otherwise the flags are set and the results written. Enables and marks are those captured at its issue (R67, R97, R118, R120). -/
def fpFinish (cx : Ctx) (r : FpRun) (ws : List (Nat × Vec)) (fl : BitVec 5) : DM Next := do
  onCore cx.core do
    modify fun c => { c with fpRun := none }
    fpEnd { cx with fpctl := r.fpctl } fl
    ws.forM fun w => wrHome { cx with short := r.short } w.1 w.2
  pure .seq

/-- The operation that a word has dispatched to run alone (R120): c is the core before the word, c1 after it. -/
def Core.alone? (c c1 : Core) : Option SauOp :=
  if c.fpRun.isSome then none else (c1.sauq.drop c.sauq.length).find? fun o => o.alone

/-- The word has dispatched: where it runs alone, nothing but its operation and the draws that it has reserved has happened yet, and the stream
waits for its flags (R117, R120). s is the state before the word. -/
def fpStart (s : State) (cx : Ctx) : DM Next := do
  let s1 ← get
  match (s.core cx.core).alone? (s1.core cx.core) with
  | some o => do
    let seed := (s1.core cx.core).ctl.srseed
    set ((s.modCore cx.core fun c => { c with
      sauq := c.sauq ++ [o]
      ctl := { c.ctl with srseed := seed }
      fpRun := some ⟨cx.body, cx.fpctl, cx.short, (c.ctl.srseed, seed), none⟩ }).soon (.sauStart (siteOf cx.core)))
    pure .run
  | none => do
    set (if (s1.core cx.core).sauq.isEmpty then s1 else s1.soon (.sauStart (siteOf cx.core)))
    pure .seq

/-- A dispatching word: its effect, and the tile's SAU has work (R174); with an enable set, a word that can raise a floating-point exception
waits until its flags are known (R120). -/
def sauM (eff : Ctx → DM Unit) (cx : Ctx) : DM Next := do
  let s ← get
  match (s.core cx.core).fpRun.filter fun r => r.body == cx.body with
  | some r =>
    match r.done with
    | some (ws, fl) => fpFinish cx r ws fl
    | none => pure .run
  | none => do
    eff cx
    fpStart s cx

/-- Issue a dispatching word. -/
def issueSau (i : Instr) (eff : Ctx → DM Unit) (s : State) : Out := issue i (sauM eff) s

end Sys2Proof.Machine
end

