-- ==== Sys2Proof/Machine/Vector.lean ====
section
/-!
DEFINITION. The vector words of the E-stream (R172 to R192, R196), VREP and its sequencer (R193 to R195).
An effect is stated apart from its word, because the vector sequencer performs it too.
-/

namespace Sys2Proof.Machine

/-! ### Shared effects -/

/-- An elementwise word that merges under its mask (R173): element i of n, of width w. -/
def vecMap (cx : Ctx) (fp : Bool) (n w : Nat) (d : BitVec 5) (k : BitVec 3) (f : Nat → Nat × BitVec 5) : CM Unit := do
  let m ← rdK cx k.toNat
  let old ← if k = 0 then pure 0 else rdV cx d
  let r := mapLanes n m (lane w old) f
  sauWord cx fp 1 [(600 + d.toNat, ofLanes w r.1)] r.2

/-- Integer lanes (R179). -/
def vecInt (op : Nat) (d a b : BitVec 5) (k : BitVec 3) (w : BitVec 2) (cx : Ctx) : DM Unit := onCore cx.core do
  let x ← rdV cx a
  let y ← rdV cx b
  let z := laneWidth w
  vecMap cx false (1024 / z) z d k fun i => (laneInt op z cx.sat (lane z x i) (lane z y i), 0)

/-- Floating-point lanes of two sources (R180). -/
def vecFlt (op : Nat) (d a b : BitVec 5) (k : BitVec 3) (f : BitVec 2) (cx : Ctx) : DM Unit := onCore cx.core do
  fpBegin cx
  let x ← rdV cx a
  let y ← rdV cx b
  let fm := Fmt.ofCode f
  let z := fm.width
  let ds ← drawsM cx (1024 / z)
  vecMap cx true (1024 / z) z d k fun i => laneFlt cx fm op (ds.getD i 0) (lane z x i) (lane z y i)

/-- Floating-point lanes of one source (R180). -/
def vecFlt1 (op : Nat) (d a : BitVec 5) (k : BitVec 3) (f : BitVec 2) (cx : Ctx) : DM Unit := onCore cx.core do
  fpBegin cx
  let x ← rdV cx a
  let fm := Fmt.ofCode f
  let z := fm.width
  let ds ← drawsM cx (1024 / z)
  vecMap cx true (1024 / z) z d k fun i => laneFlt cx fm op (ds.getD i 0) (lane z x i) 0

/-- Multiply-add lanes (R181). -/
def vecFma (op : Nat) (d a b : BitVec 5) (k : BitVec 3) (f : BitVec 2) (cx : Ctx) : DM Unit := onCore cx.core do
  fpBegin cx
  let x ← rdV cx a
  let y ← rdV cx b
  let c ← rdV cx d
  let fm := Fmt.ofCode f
  let z := fm.width
  let ds ← drawsM cx (1024 / z)
  vecMap cx true (1024 / z) z d k fun i => laneFma cx fm fm op (ds.getD i 0) (lane z x i) (lane z y i) (lane z c i)

/-- VFMAW (R181): 64 elements into the pair vD, vD+1. -/
def vecFmaw (d a b : BitVec 5) (k : BitVec 3) (f : BitVec 2) (cx : Ctx) : DM Unit := onCore cx.core do
  fpBegin cx
  let x ← rdV cx a
  let y ← rdV cx b
  let lo ← rdV cx d
  let hi ← rdV cx (pairNext d)
  let m ← rdK cx k.toNat
  let fm := Fmt.ofCode f
  let ds ← drawsM cx 64
  let old (i : Nat) : Nat := if i < 32 then lane 32 lo i else lane 32 hi (i - 32)
  let r := mapLanes 64 m old fun i => laneFma cx fm .f32 0 (ds.getD i 0) (lane 16 x i) (lane 16 y i) (old i)
  sauWord cx true 2 [(600 + d.toNat, ofLanes 32 (r.1.take 32)), (600 + (pairNext d).toNat, ofLanes 32 (r.1.drop 32))] r.2

/-- The registers of a group of g from n. -/
def rdGroup (cx : Ctx) (n : BitVec 5) (g : Nat) : CM (List Vec) := (List.range g).mapM fun j => rdV cx (n + BitVec.ofNat 5 j)

/-- VCVT (R182, R183): c the source's code, x the destination's. -/
def vecCvt (d a c : BitVec 5) (k : BitVec 3) (x : BitVec 5) (cx : Ctx) : DM Unit := onCore cx.core do
  fpBegin cx
  let n := vcvtCount c x
  let gs := vcvtGroup n c
  let gd := vcvtGroup n x
  let src := Conv.ofCode c
  let dst := Conv.ofCode x
  let xs ← rdGroup cx a gs
  let m ← rdK cx k.toNat
  let old ← if k = 0 then pure [] else rdGroup cx d gd
  let ds ← if dst.draws src then drawsM cx n else pure []
  let sub := fpSub cx.fpctl
  let r := mapLanes n m (elemOf dst (cvtWidth x) old) fun i =>
    let v := src.value sub (elemOf src (cvtWidth c) xs i)
    let o := dst.convert sub v cx.mode cx.sat (ds.getD i 0)
    (o.1, o.2 ||| sigFlag [v])
  let ws := (groupOf dst (cvtWidth x) r.1 gd).mapIdx fun j v => (600 + (d + BitVec.ofNat 5 j).toNat, v)
  sauWord cx true (Nat.max gs gd) ws r.2

/-- VSCALE and VUNSCALE (R184): the scale of lane i is byte i div B of the second source. -/
def vecScale (un : Bool) (d a b : BitVec 5) (k : BitVec 3) (c f : BitVec 2) (cx : Ctx) : DM Unit := onCore cx.core do
  fpBegin cx
  let x ← rdV cx a
  let y ← rdV cx b
  let fm := Fmt.ofCode f
  let z := fm.width
  let ds ← drawsM cx (1024 / z)
  let blk := 8 * 2 ^ c.toNat
  vecMap cx true (1024 / z) z d k fun i => laneScale cx fm un (ds.getD i 0) (lane z x i) (lane 8 y (i / blk))

/-- A mask from its bits. -/
def ofBits (f : Nat → Bool) : Mask := BitVec.ofNat 128 ((List.range 128).foldr (fun i acc => (if f i then 1 else 0) + 2 * acc) 0)

/-- A compare (R185, R186). -/
def vecCmp (d a b : BitVec 5) (k : BitVec 3) (flt : Bool) (kind w : BitVec 2) (cx : Ctx) : DM Unit := onCore cx.core do
  if flt then fpBegin cx else pure ()
  let x ← rdV cx a
  let y ← rdV cx b
  let m ← rdK cx k.toNat
  let z := if flt then (Fmt.ofCode w).width else laneWidth w
  let n := 1024 / z
  let rs := (List.range n).map fun i => if active m n i then laneCmp cx flt kind.toNat w (lane z x i) (lane z y i) else (false, 0)
  let r := ofBits fun j => ((rs.getD (j * n / 128) (false, 0)).1)
  sauWord cx flt 1 [(650 + d.toNat, r.setWidth 1024)] (rs.foldl (fun acc p => acc ||| p.2) 0)

/-- Shuffles of two sources (R187). -/
def vecShuffle (op : Nat) (d a b : BitVec 5) (k : BitVec 3) (w : BitVec 2) (cx : Ctx) : DM Unit := onCore cx.core do
  let x ← rdV cx a
  let y ← if op = 5 then pure 0 else rdV cx b
  let z := laneWidth w
  vecMap cx false (1024 / z) z d k fun i => (laneShuffle op z (1024 / z) x y i, 0)

/-- VCOMPRESS (R187). -/
def vecCompress (d a : BitVec 5) (k : BitVec 3) (w : BitVec 2) (cx : Ctx) : DM Unit := onCore cx.core do
  let x ← rdV cx a
  let m ← rdK cx k.toNat
  let z := laneWidth w
  let n := 1024 / z
  sauWord cx false 1 [(600 + d.toNat, ofLanes z (((List.range n).filter fun i => active m n i).map (lane z x)))] 0

/-- The home of scalar register n, or of the register that discards writes. -/
def homeX (cx : Ctx) (n : BitVec 5) : CM Nat := do
  let c ← get
  pure (if n = 0 then 0 else (c.seq cx.st).home n)

/-- Integer reductions (R188): the result is sign-extended. -/
def vecRed (op : Nat) (d a : BitVec 5) (k : BitVec 3) (w : BitVec 2) (cx : Ctx) : DM Unit := onCore cx.core do
  let x ← rdV cx a
  let m ← rdK cx k.toNat
  let h ← homeX cx d
  let z := laneWidth w
  let n := 1024 / z
  let ls := (List.range n).map fun i => if active m n i then lane z x i else identInt op z
  let r := treeReduce (nodeInt op z) 8 ls []
  sauWord cx false 1 [(h, BitVec.ofNat 1024 (toBits 64 (sextNat z r.1)))] 0

/-- Floating-point reductions (R188, R189). -/
def vecRedF (op : Nat) (d a : BitVec 5) (k : BitVec 3) (f : BitVec 2) (cx : Ctx) : DM Unit := onCore cx.core do
  fpBegin cx
  let x ← rdV cx a
  let m ← rdK cx k.toNat
  let h ← homeX cx d
  let fm := Fmt.ofCode f
  let z := fm.width
  let n := 1024 / z
  let ds ← drawsM cx (n - 1)
  let ls := (List.range n).map fun i => if active m n i then lane z x i else identFlt fm op
  let r := treeReduce (nodeFlt cx fm op) 8 ls ds
  sauWord cx true 1 [(h, BitVec.ofNat 1024 r.1)] r.2

/-- A rounding mode's code in FPCTL.rm. -/
def Ctx.modeCode (cx : Ctx) : Nat := cx.rm.getD (cx.fpctl.extractLsb' 0 3).toNat

/-- VTAB (R190 to R192): the table is read, and the flags are decided, at the start in the SAU. -/
def vecTab (d a b : BitVec 5) (k : BitVec 3) (f : BitVec 2) (cx : Ctx) : DM Unit := onCore cx.core do
  fpBegin cx
  let x ← rdV cx a
  let m ← rdK cx k.toNat
  let old ← if k = 0 then pure 0 else rdV cx d
  let ds ← drawsM cx (1024 / (Fmt.ofCode f).width)
  dispatchM cx (aloneM cx true) 1 [600 + d.toNat]
    (.vtab (600 + d.toNat) f.toNat x old m b.toNat cx.modeCode (fpSub cx.fpctl) cx.sat ds)

/-- TLOAD (R191). -/
def vecTload (d a b : BitVec 5) (cx : Ctx) : DM Unit := onCore cx.core do
  let x ← rdV cx a
  dispatchM cx false 1 [] (.tload d.toNat (b.toNat / 8) (b.toNat % 8) x)

/-- TCFG (R191). -/
def vecTcfg (d a : BitVec 5) (cx : Ctx) : DM Unit := onCore cx.core do
  let x ← rdX cx a
  dispatchM cx false 1 [] (.tcfg d.toNat (x.setWidth 12))

/-- VMOV, merged by byte (R196). -/
def vecMov (d a : BitVec 5) (k : BitVec 3) (cx : Ctx) : DM Unit := onCore cx.core do
  let x ← rdV cx a
  vecMap cx false 128 8 d k fun i => (lane 8 x i, 0)

/-- VMOV from vldq (R196): local. -/
def vecPop (d : BitVec 5) (cx : Ctx) : DM Unit := onCore cx.core do
  destFree cx (600 + d.toNat)
  let x ← popVldq cx
  wrV cx d x

/-- VMOV to vstq (R196): local. A body allocates its entry in body order, and an earlier operation that writes the source fills it (R64, R195). -/
def vecPush (a : BitVec 5) (cx : Ctx) : DM Unit := onCore cx.core do
  let c ← get
  if cx.body && c.e.pend.contains (600 + a.toNat) then pushVstq cx (.due (600 + a.toNat))
  else do
    let x ← rdV cx a
    pushVstq cx (.row x)

/-- VBCAST (R196). -/
def vecBcast (d a : BitVec 5) (k : BitVec 3) (w : BitVec 2) (cx : Ctx) : DM Unit := onCore cx.core do
  let x ← rdX cx a
  let z := laneWidth w
  vecMap cx false (1024 / z) z d k fun _ => (x.toNat % 2 ^ z, 0)

/-- VEXT (R196). -/
def vecExt (d a b : BitVec 5) (w : BitVec 2) (cx : Ctx) : DM Unit := onCore cx.core do
  let x ← rdV cx a
  let i ← rdX cx b
  let h ← homeX cx d
  let z := laneWidth w
  sauWord cx false 1 [(h, BitVec.ofNat 1024 (if 1024 / z ≤ i.toNat then 0 else lane z x i.toNat))] 0

/-- VINS (R196). -/
def vecIns (d a b : BitVec 5) (w : BitVec 2) (cx : Ctx) : DM Unit := onCore cx.core do
  let v ← rdX cx a
  let i ← rdX cx b
  let old ← rdV cx d
  let z := laneWidth w
  let r := (List.range (1024 / z)).map fun j => if j = i.toNat then v.toNat % 2 ^ z else lane z old j
  sauWord cx false 1 [(600 + d.toNat, ofLanes z r)] 0

/-- Bitwise words, merged by byte (R196). -/
def vecBit (f : Vec → Vec → Vec) (d a b : BitVec 5) (k : BitVec 3) (cx : Ctx) : DM Unit := onCore cx.core do
  let x ← rdV cx a
  let y ← rdV cx b
  let r := f x y
  vecMap cx false 128 8 d k fun i => (lane 8 r i, 0)

/-- VSEL (R196). -/
def vecSel (d a b : BitVec 5) (k : BitVec 3) (cx : Ctx) : DM Unit := onCore cx.core do
  let x ← rdV cx a
  let y ← rdV cx b
  let m ← rdK cx k.toNat
  let r := (List.range 128).map fun i => if m.getLsbD i then lane 8 x i else lane 8 y i
  sauWord cx false 1 [(600 + d.toNat, ofLanes 8 r)] 0

/-- Mask logic (R196). -/
def maskLogic (f : Mask → Mask → Mask) (d a b : BitVec 5) (cx : Ctx) : DM Unit := onCore cx.core do
  let x ← rdK cx a.toNat
  let y ← rdK cx b.toNat
  sauWord cx false 1 [(650 + d.toNat, (f x y).setWidth 1024)] 0

/-- KFROMV (R196). -/
def maskFromV (d a : BitVec 5) (cx : Ctx) : DM Unit := onCore cx.core do
  let x ← rdV cx a
  sauWord cx false 1 [(650 + d.toNat, (x.setWidth 128).setWidth 1024)] 0

/-- VFROMK (R196). -/
def vecFromK (d a : BitVec 5) (cx : Ctx) : DM Unit := onCore cx.core do
  let x ← rdK cx a.toNat
  sauWord cx false 1 [(600 + d.toNat, x.setWidth 1024)] 0

/-- KPOPC (R196). -/
def maskPopc (d a : BitVec 5) (cx : Ctx) : DM Unit := onCore cx.core do
  let x ← rdK cx a.toNat
  let h ← homeX cx d
  sauWord cx false 1 [(h, BitVec.ofNat 1024 ((List.range 128).countP fun i => x.getLsbD i))] 0

/-! ### The words -/

/-- VADD (R179). -/
def execVadd (n : BitVec 3) (d a b : BitVec 5) (k : BitVec 3) (w : BitVec 2) : State → Out :=
  issueSau (.vadd n d a b k w) (vecInt 0 d a b k w)

/-- VSUB (R179). -/
def execVsub (n : BitVec 3) (d a b : BitVec 5) (k : BitVec 3) (w : BitVec 2) : State → Out :=
  issueSau (.vsub n d a b k w) (vecInt 1 d a b k w)

/-- VMUL (R179). -/
def execVmul (n : BitVec 3) (d a b : BitVec 5) (k : BitVec 3) (w : BitVec 2) : State → Out :=
  issueSau (.vmul n d a b k w) (vecInt 2 d a b k w)

/-- VMIN (R179). -/
def execVmin (n : BitVec 3) (d a b : BitVec 5) (k : BitVec 3) (w : BitVec 2) : State → Out :=
  issueSau (.vmin n d a b k w) (vecInt 3 d a b k w)

/-- VMAX (R179). -/
def execVmax (n : BitVec 3) (d a b : BitVec 5) (k : BitVec 3) (w : BitVec 2) : State → Out :=
  issueSau (.vmax n d a b k w) (vecInt 4 d a b k w)

/-- VSHL (R179). -/
def execVshl (n : BitVec 3) (d a b : BitVec 5) (k : BitVec 3) (w : BitVec 2) : State → Out :=
  issueSau (.vshl n d a b k w) (vecInt 5 d a b k w)

/-- VSHR (R179). -/
def execVshr (n : BitVec 3) (d a b : BitVec 5) (k : BitVec 3) (w : BitVec 2) : State → Out :=
  issueSau (.vshr n d a b k w) (vecInt 6 d a b k w)

/-- VSHA (R179). -/
def execVsha (n : BitVec 3) (d a b : BitVec 5) (k : BitVec 3) (w : BitVec 2) : State → Out :=
  issueSau (.vsha n d a b k w) (vecInt 7 d a b k w)

/-- VFADD (R180). -/
def execVfadd (n : BitVec 3) (d a b : BitVec 5) (k : BitVec 3) (f : BitVec 2) : State → Out :=
  issueSau (.vfadd n d a b k f) (vecFlt 0 d a b k f)

/-- VFSUB (R180). -/
def execVfsub (n : BitVec 3) (d a b : BitVec 5) (k : BitVec 3) (f : BitVec 2) : State → Out :=
  issueSau (.vfsub n d a b k f) (vecFlt 1 d a b k f)

/-- VFMUL (R180). -/
def execVfmul (n : BitVec 3) (d a b : BitVec 5) (k : BitVec 3) (f : BitVec 2) : State → Out :=
  issueSau (.vfmul n d a b k f) (vecFlt 2 d a b k f)

/-- VFMIN (R180). -/
def execVfmin (n : BitVec 3) (d a b : BitVec 5) (k : BitVec 3) (f : BitVec 2) : State → Out :=
  issueSau (.vfmin n d a b k f) (vecFlt 3 d a b k f)

/-- VFMAX (R180). -/
def execVfmax (n : BitVec 3) (d a b : BitVec 5) (k : BitVec 3) (f : BitVec 2) : State → Out :=
  issueSau (.vfmax n d a b k f) (vecFlt 4 d a b k f)

/-- VFRCP (R180). -/
def execVfrcp (n : BitVec 3) (d a : BitVec 5) (k : BitVec 3) (f : BitVec 2) : State → Out :=
  issueSau (.vfrcp n d a k f) (vecFlt1 5 d a k f)

/-- VFRSQ (R180). -/
def execVfrsq (n : BitVec 3) (d a : BitVec 5) (k : BitVec 3) (f : BitVec 2) : State → Out :=
  issueSau (.vfrsq n d a k f) (vecFlt1 6 d a k f)

/-- VFABS (R180). -/
def execVfabs (n : BitVec 3) (d a : BitVec 5) (k : BitVec 3) (f : BitVec 2) : State → Out :=
  issueSau (.vfabs n d a k f) (vecFlt1 7 d a k f)

/-- VFMA (R181). -/
def execVfma (n : BitVec 3) (d a b : BitVec 5) (k : BitVec 3) (f : BitVec 2) : State → Out :=
  issueSau (.vfma n d a b k f) (vecFma 0 d a b k f)

/-- VFMS (R181). -/
def execVfms (n : BitVec 3) (d a b : BitVec 5) (k : BitVec 3) (f : BitVec 2) : State → Out :=
  issueSau (.vfms n d a b k f) (vecFma 1 d a b k f)

/-- VFNMA (R181). -/
def execVfnma (n : BitVec 3) (d a b : BitVec 5) (k : BitVec 3) (f : BitVec 2) : State → Out :=
  issueSau (.vfnma n d a b k f) (vecFma 2 d a b k f)

/-- VFMAW (R181). -/
def execVfmaw (n : BitVec 3) (d a b : BitVec 5) (k : BitVec 3) (f : BitVec 2) : State → Out :=
  issueSau (.vfmaw n d a b k f) (vecFmaw d a b k f)

/-- VCVT (R182, R183). -/
def execVcvt (n : BitVec 3) (d a c : BitVec 5) (k : BitVec 3) (x : BitVec 5) : State → Out :=
  issueSau (.vcvt n d a c k x) (vecCvt d a c k x)

/-- VSCALE (R184). -/
def execVscale (n : BitVec 3) (d a b : BitVec 5) (k : BitVec 3) (c f : BitVec 2) : State → Out :=
  issueSau (.vscale n d a b k c f) (vecScale false d a b k c f)

/-- VUNSCALE (R184). -/
def execVunscale (n : BitVec 3) (d a b : BitVec 5) (k : BitVec 3) (c f : BitVec 2) : State → Out :=
  issueSau (.vunscale n d a b k c f) (vecScale true d a b k c f)

/-- VCMP (R185, R186). -/
def execVcmp (n : BitVec 3) (d a b : BitVec 5) (k : BitVec 3) (f : BitVec 1) (j w : BitVec 2) : State → Out :=
  issueSau (.vcmp n d a b k f j w) (vecCmp d a b k (f == 1) j w)

/-- VPERM (R187). -/
def execVperm (n : BitVec 3) (d a b : BitVec 5) (k : BitVec 3) (w : BitVec 2) : State → Out :=
  issueSau (.vperm n d a b k w) (vecShuffle 0 d a b k w)

/-- VZIPLO (R187). -/
def execVziplo (n : BitVec 3) (d a b : BitVec 5) (k : BitVec 3) (w : BitVec 2) : State → Out :=
  issueSau (.vziplo n d a b k w) (vecShuffle 1 d a b k w)

/-- VZIPHI (R187). -/
def execVziphi (n : BitVec 3) (d a b : BitVec 5) (k : BitVec 3) (w : BitVec 2) : State → Out :=
  issueSau (.vziphi n d a b k w) (vecShuffle 2 d a b k w)

/-- VUNZIPE (R187). -/
def execVunzipe (n : BitVec 3) (d a b : BitVec 5) (k : BitVec 3) (w : BitVec 2) : State → Out :=
  issueSau (.vunzipe n d a b k w) (vecShuffle 3 d a b k w)

/-- VUNZIPO (R187). -/
def execVunzipo (n : BitVec 3) (d a b : BitVec 5) (k : BitVec 3) (w : BitVec 2) : State → Out :=
  issueSau (.vunzipo n d a b k w) (vecShuffle 4 d a b k w)

/-- VREV (R187). -/
def execVrev (n : BitVec 3) (d a : BitVec 5) (k : BitVec 3) (w : BitVec 2) : State → Out :=
  issueSau (.vrev n d a k w) (vecShuffle 5 d a a k w)

/-- VCOMPRESS (R187). -/
def execVcompress (n : BitVec 3) (d a : BitVec 5) (k : BitVec 3) (w : BitVec 2) : State → Out :=
  issueSau (.vcompress n d a k w) (vecCompress d a k w)

/-- VRADD (R188). -/
def execVradd (n : BitVec 3) (d a : BitVec 5) (k : BitVec 3) (w : BitVec 2) : State → Out :=
  issueSau (.vradd n d a k w) (vecRed 0 d a k w)

/-- VRMIN (R188). -/
def execVrmin (n : BitVec 3) (d a : BitVec 5) (k : BitVec 3) (w : BitVec 2) : State → Out :=
  issueSau (.vrmin n d a k w) (vecRed 1 d a k w)

/-- VRMAX (R188). -/
def execVrmax (n : BitVec 3) (d a : BitVec 5) (k : BitVec 3) (w : BitVec 2) : State → Out :=
  issueSau (.vrmax n d a k w) (vecRed 2 d a k w)

/-- VRFADD (R188, R189). -/
def execVrfadd (n : BitVec 3) (d a : BitVec 5) (k : BitVec 3) (f : BitVec 2) : State → Out :=
  issueSau (.vrfadd n d a k f) (vecRedF 3 d a k f)

/-- VRFMIN (R188, R189). -/
def execVrfmin (n : BitVec 3) (d a : BitVec 5) (k : BitVec 3) (f : BitVec 2) : State → Out :=
  issueSau (.vrfmin n d a k f) (vecRedF 4 d a k f)

/-- VRFMAX (R188, R189). -/
def execVrfmax (n : BitVec 3) (d a : BitVec 5) (k : BitVec 3) (f : BitVec 2) : State → Out :=
  issueSau (.vrfmax n d a k f) (vecRedF 5 d a k f)

/-- VTAB (R190 to R192). -/
def execVtab (n : BitVec 3) (d a b : BitVec 5) (k : BitVec 3) (f : BitVec 2) : State → Out :=
  issueSau (.vtab n d a b k f) (vecTab d a b k f)

/-- TLOAD (R190, R191). -/
def execTload (n : BitVec 3) (d a b : BitVec 5) : State → Out := issueSau (.tload n d a b) (vecTload d a b)

/-- TCFG (R190, R191). -/
def execTcfg (n : BitVec 3) (d a : BitVec 5) : State → Out := issueSau (.tcfg n d a) (vecTcfg d a)

/-- VMOV (R196). -/
def execVmov (n : BitVec 3) (d a : BitVec 5) (k : BitVec 3) : State → Out := issueSau (.vmov n d a k) (vecMov d a k)

/-- VMOV (R196). -/
def execVmovFromVldq (n : BitVec 3) (d : BitVec 5) : State → Out := issueSau (.vmovFromVldq n d) (vecPop d)

/-- VMOV (R196). -/
def execVmovToVstq (n : BitVec 3) (a : BitVec 5) : State → Out := issueSau (.vmovToVstq n a) (vecPush a)

/-- VBCAST (R196). -/
def execVbcast (n : BitVec 3) (d a : BitVec 5) (k : BitVec 3) (w : BitVec 2) : State → Out :=
  issueSau (.vbcast n d a k w) (vecBcast d a k w)

/-- VEXT (R196). -/
def execVext (n : BitVec 3) (d a b : BitVec 5) (w : BitVec 2) : State → Out := issueSau (.vext n d a b w) (vecExt d a b w)

/-- VINS (R196). -/
def execVins (n : BitVec 3) (d a b : BitVec 5) (w : BitVec 2) : State → Out := issueSau (.vins n d a b w) (vecIns d a b w)

/-- VAND (R196). -/
def execVand (n : BitVec 3) (d a b : BitVec 5) (k : BitVec 3) : State → Out :=
  issueSau (.vand n d a b k) (vecBit (fun x y => x &&& y) d a b k)

/-- VOR (R196). -/
def execVor (n : BitVec 3) (d a b : BitVec 5) (k : BitVec 3) : State → Out :=
  issueSau (.vor n d a b k) (vecBit (fun x y => x ||| y) d a b k)

/-- VXOR (R196). -/
def execVxor (n : BitVec 3) (d a b : BitVec 5) (k : BitVec 3) : State → Out :=
  issueSau (.vxor n d a b k) (vecBit (fun x y => x ^^^ y) d a b k)

/-- VANDN (R196). -/
def execVandn (n : BitVec 3) (d a b : BitVec 5) (k : BitVec 3) : State → Out :=
  issueSau (.vandn n d a b k) (vecBit (fun x y => x &&& ~~~y) d a b k)

/-- VSEL (R196). -/
def execVsel (n : BitVec 3) (d a b : BitVec 5) (k : BitVec 3) : State → Out := issueSau (.vsel n d a b k) (vecSel d a b k)

/-- KAND (R196). -/
def execKand (n : BitVec 3) (d a b : BitVec 5) : State → Out := issueSau (.kand n d a b) (maskLogic (fun x y => x &&& y) d a b)

/-- KOR (R196). -/
def execKor (n : BitVec 3) (d a b : BitVec 5) : State → Out := issueSau (.kor n d a b) (maskLogic (fun x y => x ||| y) d a b)

/-- KXOR (R196). -/
def execKxor (n : BitVec 3) (d a b : BitVec 5) : State → Out := issueSau (.kxor n d a b) (maskLogic (fun x y => x ^^^ y) d a b)

/-- KNOT (R196). -/
def execKnot (n : BitVec 3) (d a : BitVec 5) : State → Out := issueSau (.knot n d a) (maskLogic (fun x _ => ~~~x) d a a)

/-- KFROMV (R196). -/
def execKfromv (n : BitVec 3) (d a : BitVec 5) : State → Out := issueSau (.kfromv n d a) (maskFromV d a)

/-- VFROMK (R196). -/
def execVfromk (n : BitVec 3) (d a : BitVec 5) : State → Out := issueSau (.vfromk n d a) (vecFromK d a)

/-- KPOPC (R196). -/
def execKpopc (n : BitVec 3) (d a : BitVec 5) : State → Out := issueSau (.kpopc n d a) (maskPopc d a)

/-- MOV from a control register, E-stream (R135, R196): local. -/
def execMovEFromCtl (n : BitVec 3) (d c : BitVec 5) : State → Out := issueU (.movEFromCtl n d c) (movFrom d c)

/-- MOV to a control register, E-stream (R135, R196): local. -/
def execMovEToCtl (n : BitVec 3) (c x : BitVec 5) : State → Out := issueU (.movEToCtl n c x) (movTo c x)

/-! ### VREP (R193 to R195) -/

/-- The effect of a body word. -/
def bodyEff : Instr → Ctx → DM Unit
  | .vadd _ d a b k w => vecInt 0 d a b k w
  | .vsub _ d a b k w => vecInt 1 d a b k w
  | .vmul _ d a b k w => vecInt 2 d a b k w
  | .vmin _ d a b k w => vecInt 3 d a b k w
  | .vmax _ d a b k w => vecInt 4 d a b k w
  | .vshl _ d a b k w => vecInt 5 d a b k w
  | .vshr _ d a b k w => vecInt 6 d a b k w
  | .vsha _ d a b k w => vecInt 7 d a b k w
  | .vfadd _ d a b k f => vecFlt 0 d a b k f
  | .vfsub _ d a b k f => vecFlt 1 d a b k f
  | .vfmul _ d a b k f => vecFlt 2 d a b k f
  | .vfmin _ d a b k f => vecFlt 3 d a b k f
  | .vfmax _ d a b k f => vecFlt 4 d a b k f
  | .vfrcp _ d a k f => vecFlt1 5 d a k f
  | .vfrsq _ d a k f => vecFlt1 6 d a k f
  | .vfabs _ d a k f => vecFlt1 7 d a k f
  | .vfma _ d a b k f => vecFma 0 d a b k f
  | .vfms _ d a b k f => vecFma 1 d a b k f
  | .vfnma _ d a b k f => vecFma 2 d a b k f
  | .vfmaw _ d a b k f => vecFmaw d a b k f
  | .vcvt _ d a c k x => vecCvt d a c k x
  | .vscale _ d a b k c f => vecScale false d a b k c f
  | .vunscale _ d a b k c f => vecScale true d a b k c f
  | .vcmp _ d a b k f j w => vecCmp d a b k (f == 1) j w
  | .vperm _ d a b k w => vecShuffle 0 d a b k w
  | .vziplo _ d a b k w => vecShuffle 1 d a b k w
  | .vziphi _ d a b k w => vecShuffle 2 d a b k w
  | .vunzipe _ d a b k w => vecShuffle 3 d a b k w
  | .vunzipo _ d a b k w => vecShuffle 4 d a b k w
  | .vrev _ d a k w => vecShuffle 5 d a a k w
  | .vcompress _ d a k w => vecCompress d a k w
  | .vradd _ d a k w => vecRed 0 d a k w
  | .vrmin _ d a k w => vecRed 1 d a k w
  | .vrmax _ d a k w => vecRed 2 d a k w
  | .vrfadd _ d a k f => vecRedF 3 d a k f
  | .vrfmin _ d a k f => vecRedF 4 d a k f
  | .vrfmax _ d a k f => vecRedF 5 d a k f
  | .vtab _ d a b k f => vecTab d a b k f
  | .vmov _ d a k => vecMov d a k
  | .vmovFromVldq _ d => vecPop d
  | .vmovToVstq _ a => vecPush a
  | .vbcast _ d a k w => vecBcast d a k w
  | .vext _ d a b w => vecExt d a b w
  | .vins _ d a b w => vecIns d a b w
  | .vand _ d a b k => vecBit (fun x y => x &&& y) d a b k
  | .vor _ d a b k => vecBit (fun x y => x ||| y) d a b k
  | .vxor _ d a b k => vecBit (fun x y => x ^^^ y) d a b k
  | .vandn _ d a b k => vecBit (fun x y => x &&& ~~~y) d a b k
  | .vsel _ d a b k => vecSel d a b k
  | .kand _ d a b => maskLogic (fun x y => x &&& y) d a b
  | .kor _ d a b => maskLogic (fun x y => x ||| y) d a b
  | .kxor _ d a b => maskLogic (fun x y => x ^^^ y) d a b
  | .knot _ d a => maskLogic (fun x _ => ~~~x) d a a
  | .kfromv _ d a => maskFromV d a
  | .vfromk _ d a => vecFromK d a
  | .kpopc _ d a => maskPopc d a
  | _ => fun _ => pure ()

/-- A body word takes draws under stochastic rounding (R117). -/
def bodyDraws : Instr → Bool
  | .vfadd .. | .vfsub .. | .vfmul .. | .vfmin .. | .vfmax .. | .vfrcp .. | .vfrsq .. | .vfabs .. | .vfma .. | .vfms .. | .vfnma ..
  | .vfmaw .. | .vscale .. | .vunscale .. | .vrfadd .. | .vrfmin .. | .vrfmax .. | .vtab .. => true
  | .vcvt _ _ _ c _ x => (Conv.ofCode x).draws (Conv.ofCode c)
  | _ => false

/-- A body word can raise a floating-point exception (R120). -/
def bodyFloats : Instr → Bool
  | .vcvt .. => true
  | .vcmp _ _ _ _ _ f _ _ => f == 1
  | i => bodyDraws i

/-- Home of a scalar register as a body names it; the constant names nothing. -/
def nameX (q : Seq) (n : BitVec 5) : List Nat := if n = 0 then [] else [q.home n]

/-- Homes of a group of v registers. -/
def nameV (n : BitVec 5) (g : Nat) : List Nat := (List.range g).map fun j => 600 + (n + BitVec.ofNat 5 j).toNat

/-- Home of a mask register as a body names it; k0 names nothing. -/
def nameK (n : Nat) : List Nat := if n = 0 then [] else [650 + n]

/-- The registers, masks and queues that a body word names (R195). -/
def bodyNames (q : Seq) : Instr → List Nat
  | .vadd _ d a b k _ | .vsub _ d a b k _ | .vmul _ d a b k _ | .vmin _ d a b k _ | .vmax _ d a b k _ | .vshl _ d a b k _
  | .vshr _ d a b k _ | .vsha _ d a b k _ | .vfadd _ d a b k _ | .vfsub _ d a b k _ | .vfmul _ d a b k _ | .vfmin _ d a b k _
  | .vfmax _ d a b k _ | .vfma _ d a b k _ | .vfms _ d a b k _ | .vfnma _ d a b k _ | .vscale _ d a b k _ _
  | .vunscale _ d a b k _ _ | .vperm _ d a b k _ | .vziplo _ d a b k _ | .vziphi _ d a b k _ | .vunzipe _ d a b k _
  | .vunzipo _ d a b k _ | .vand _ d a b k | .vor _ d a b k | .vxor _ d a b k | .vandn _ d a b k
  | .vsel _ d a b k => nameV d 1 ++ nameV a 1 ++ nameV b 1 ++ nameK k.toNat
  | .vfrcp _ d a k _ | .vfrsq _ d a k _ | .vfabs _ d a k _ | .vrev _ d a k _ | .vcompress _ d a k _ | .vtab _ d a _ k _
  | .vmov _ d a k => nameV d 1 ++ nameV a 1 ++ nameK k.toNat
  | .vfmaw _ d a b k _ => nameV d 2 ++ nameV a 1 ++ nameV b 1 ++ nameK k.toNat
  | .vcvt _ d a c k x => nameV d (vcvtGroup (vcvtCount c x) x) ++ nameV a (vcvtGroup (vcvtCount c x) c) ++ nameK k.toNat
  | .vcmp _ d a b k _ _ _ => nameK d.toNat ++ nameV a 1 ++ nameV b 1 ++ nameK k.toNat
  | .vradd _ d a k _ | .vrmin _ d a k _ | .vrmax _ d a k _ | .vrfadd _ d a k _ | .vrfmin _ d a k _
  | .vrfmax _ d a k _ => nameX q d ++ nameV a 1 ++ nameK k.toNat
  | .vmovFromVldq _ d => 800 :: nameV d 1
  | .vmovToVstq _ a => 801 :: nameV a 1
  | .vbcast _ d a k _ => nameV d 1 ++ nameX q a ++ nameK k.toNat
  | .vext _ d a b _ => nameX q d ++ nameV a 1 ++ nameX q b
  | .vins _ d a b _ => nameV d 1 ++ nameX q a ++ nameX q b
  | .kand _ d a b | .kor _ d a b | .kxor _ d a b => nameK d.toNat ++ nameK a.toNat ++ nameK b.toNat
  | .knot _ d a => nameK d.toNat ++ nameK a.toNat
  | .kfromv _ d a => nameK d.toNat ++ nameV a 1
  | .vfromk _ d a => nameV d 1 ++ nameK a.toNat
  | .kpopc _ d a => nameX q d ++ nameK a.toNat
  | _ => []

/-- A word of majors 0x24 to 0x2C or 0x2E that a body may hold (R194). -/
def bodyOk (w : Insn) (i : Instr) : Bool :=
  let m := (w.extractLsb' 23 6).toNat
  ((0x24 ≤ m && m ≤ 0x2C) || m == 0x2E) && selector i == 0 && (match i with
    | .tload .. | .tcfg .. | .movEFromCtl .. | .movEToCtl .. => false
    | _ => true)

/-- The subcode that a body word raises (R53, R54, R194). -/
def bodyFault (user : Bool) (w : Insn) : Option Nat :=
  match decode w with
  | .unallocated => some 0
  | .reserved _ inE => some (if inE then 1 else 2)
  | .ok i => match illegal .e user [] i with
    | some sub => some sub
    | none => if bodyOk w i then none else some 1

/-- The body of a VREP at its issue: its words are decoded and checked (R194). -/
def rdBody (cx : Ctx) (n : Nat) : CM (List Insn) := do
  let c ← get
  (List.range n).mapM fun j => do
    let a := cx.pc + BitVec.ofNat 64 (4 + 4 * j)
    raiseIf (decide (Config.ulmBytes < a.toNat + 4)) cRange 0 a 0
    match c.ulmError a.toNat 4 with
    | some (cause, _) => raise cause 0 a 0
    | none => pure ()
    let w := c.fetchWord cx.st a.toNat
    match bodyFault (!c.ctl.lvl) w with
    | some sub => throw (.trap cIllegal sub 0 (w.setWidth 64) (some a))
    | none => pure w

/-- The instruction of a body word. -/
def bodyInstr (w : Insn) : Instr :=
  match decode w with
  | .ok i => i
  | _ => .nop 0

/-- VREP (R193 to R195): n words follow; count gives the repetitions. Where the le of an active loop lies within the body, the word that the trap
record names is the VREP word (DESIGN CHOICE: R194 does not say which word offends). -/
def vrepM (i : Instr) (n : Nat) (count : Ctx → CM Word) (cx : Ctx) : DM Next := do
  let stop := cx.pc + BitVec.ofNat 64 (4 + 4 * n)
  let post ← onCore cx.core do
    let c ← get
    match c.vrep with
    | some r =>
      if r.held && r.at_ == cx.pc then do
        set { c with vrep := some { r with held := false } }
        pure true
      else stall
    | none => do
      let ws ← rdBody cx n
      let q := c.e
      let bad := (List.range q.loopDepth).any fun j =>
        let l := q.level j
        l.frame == q.depth && decide (cx.pc.toNat ≤ l.le.toNat) && decide (l.le.toNat < stop.toNat)
      raiseIf bad cIllegal 1 0 (((encode i).getD 0).setWidth 64)
      let v ← count cx
      if v = 0 then pure false
      else do
        modify fun c => { c with vrep := some {
          body := ws
          at_ := cx.pc
          start := q.groupStart
          count := v.toNat
          rep := 0
          idx := 0
          fpctl := c.ctl.fpctl
          cur := q.cur
          names := ws.flatMap fun w => bodyNames q (bodyInstr w)
          rng := cx.mode == .sr && ws.any (fun w => bodyDraws (bodyInstr w))
          float := ws.any fun w => bodyFloats (bodyInstr w)
          held := false } }
        pure true
  if post then soonEvent (.vrepDispatch cx.core) else pure ()
  pure (.skip stop)

/-- VREP with a count register (R193). -/
def execVrep (c e : BitVec 5) : State → Out := issue (.vrep c e) (vrepM (.vrep c e) (c.toNat + 1) fun cx => rdX cx e)

/-- VREP with a count from ldq (R193). -/
def execVrepQ (c : BitVec 5) : State → Out := issue (.vrepQ c) (vrepM (.vrepQ c) (c.toNat + 1) popData)

/-- What a body word knows: no hint, and FPCTL as captured at the handover (R118, R194). -/
def bodyCtx (core : Nat) (s : State) (r : Vrep) : Ctx :=
  { mkCtx core .e s {} r.fpctl with pc := r.at_ + BitVec.ofNat 64 (4 + 4 * r.idx), body := true }

/-- The sequencer after one body word (R195). -/
def Vrep.advance (r : Vrep) : Option Vrep :=
  if r.idx + 1 < r.body.length then some { r with idx := r.idx + 1 }
  else if r.rep + 1 < r.count then some { r with idx := 0, rep := r.rep + 1 }
  else none

/-- The operations that a body has dispatched from place n of the queue on hold the generator with it (R117). -/
def Core.markBody (c : Core) (rng : Bool) (n : Nat) : Core :=
  if rng then { c with sauq := c.sauq.mapIdx fun i o => if n ≤ i then { o with rng := true } else o } else c

/-- VREP_DISPATCH: the vector sequencer dispatches, or performs, the next word of the body (R195). -/
def execVrepDispatch (core : Nat) (s : State) : Out :=
  let c := s.core core
  match c.vrep with
  | none => .next s
  | some r =>
    if r.held then .next s
    else
      let i := bodyInstr (r.body.getD r.idx 0)
      let s0 := s.modCore core fun c => { c with e := { c.e with cur := r.cur } }
      match sauM (bodyEff i) (bodyCtx core s r) s0 with
      | .ok (.run, s1) => .next ((s1.modCore core fun d => { d with e := { d.e with cur := c.e.cur } }).soon (.vrepDispatch core))
      | .ok (_, s1) =>
        let s2 := s1.modCore core fun d => { d.markBody r.rng c.sauq.length with vrep := r.advance, e := { d.e with cur := c.e.cur } }
        .next (if r.advance.isSome then s2.soon (.vrepDispatch core) else s2)
      | .error (.wait _) => .next (s.soon (.vrepDispatch core))
      | .error (.trap cause sub addr info _) =>
        .next (s.modCore core fun c => { c.dropRun true with
          vrep := some { r with held := true }
          e := { c.e with due := c.e.due ++ [{
            cause := cause
            sub := sub
            addr := addr
            info := info
            word := r.at_.setWidth 19
            vrep := some (BitVec.ofNat 32 r.rep, BitVec.ofNat 4 r.idx)
            ret := some (r.start.setWidth 19) }] } })

end Sys2Proof.Machine
end

