-- ==== Sys2Proof/WellFormed.lean ====
section
/-!
DEFINITION. Well-formed instructions: a word whose fields R53 does not refuse whatever stream issues it, or a step of the device
that names an agent the module has (R3, R9).
-/

namespace Sys2Proof

/-- The agent that a step of the device names exists (R3, R7, R9, R418). -/
def Ev.agentOk : Ev → Bool
  | .fetch c _ | .resultWriteback c _ | .puntyExpire c _ _ | .refreshCycle c _ | .trapEntry c _ | .eventDelivery c | .watchdog c
  | .pairedSafePoint c | .preemptRequest c _ _ _ | .preemptOverdue c | .contextSave c | .coreKill c | .sleepWake c
  | .sleepTimeout c | .sauComplete c | .vrepDispatch c | .mldFill c | .globalStreamRow c _ | .multiplyStart c
  | .multiplyComplete c | .mstRowSend c | .pointsApplication c _ | .engineGranule c _ | .tokenStatusWrite c _
  | .depositLatchTimeout c | .deviceDepositLand c | .translationRequest c _ | .pageWalk c _ | .amoHome c _ | .releasePerformed c _ | .acquireComplete c _ | .barrierArrival c | .barrierWithdrawal c
  | .gangJoin c | .gangJoinTimeout c | .stageSwitch c | .distributorServe c _ | .censusRequest c _ | .allowanceStop c
  | .swzWrite c _ _ | .fpctlWrite c _ | .fpctlRead c _ _ | .srseedWrite c _ | .winWrite c _ _ | .registerWrite c _ _
  | .siteEviction c => decide (c < Config.cores)
  | .faultRetry c _ | .faultDecline c _ => decide (c < Config.cores) || (decide (10000 ≤ c) && decide (c < 11024)) || c == 20000 || c == 20001 || c == 30000
  | .contextResume c t => decide (c < Config.cores) && decide (t < Config.cores)
  | .sauStart t | .mmajJoin t | .mmajJoinTimeout t | .rotJoin t | .rotJoinTimeout t | .solveStart t | .solveComplete t
  | .recastCommit t | .pageEvacuation t | .relayDrainDeadline t | .annealComplete t => decide (t < Config.sites)
  | .queueWake q | .packetFetch q | .launchPacket q _ | .copyPacket q _ | .waitPacket q _ | .waitPoll q _ | .waitTimeout q _
  | .signalPacket q _ | .indirectPacket q _ | .loopPacket q _ | .fetchFencePacket q _ | .tourneyPacket q _ | .leasePacket q _
  | .resetQueuePacket q _ | .queueResetControl q | .packetComplete q _ => decide (q < 1024)
  | .hostWindowWrite p _ _ | .hostWindowRead p _ _ | .hostLinkTrain p _ _ | .cxlSnoop p _ => decide (p < 2)
  | .linkFlitRetry p | .scaleupLinkDown p | .linkRetrain p => decide (p < 18)
  | .scrub t => decide (t < 16)
  | _ => true

/-- The agent that an instruction names, if it is a step of the device, exists. -/
def Instr.agentOk (i : Instr) : Bool :=
  match i.toEv? with
  | some e => e.agentOk
  | none => true

/-- A well-formed instruction. -/
def Instr.wf (i : Instr) : Bool :=
  !Machine.unclaimed i && !Machine.reservedBad i && !Machine.operandBad i && i.agentOk

end Sys2Proof
end

