-- ==== Sys2Proof/Machine/Fetch.lean ====
section
/-!
DEFINITION. Fetch (R61), the checks of a next address (R71), what comes before a stream's next word at its boundary (R49, R245, R405, R406,
R410, R411, R82), and how the agents take turns: the agenda of the state, and the default course when it is empty.
-/

namespace Sys2Proof.Machine

/-! ### Fetch (R61, R71) -/

/-- The stream's buffer holds the word at an address. -/
def Seq.held (q : Seq) (a : Nat) : Bool := q.buf.any fun p => p.1 == a

/-- The words from an address to the end of its 16-byte block that a fetch brings: those before an error, and not held already (R61, R151). -/
def Core.fetchWords (c : Core) (st : Strm) (a : Nat) : List (Nat × Insn) :=
  ((((List.range (4 - a % 16 / 4)).map fun i => a + 4 * i).takeWhile fun b => (c.ulmError b 4).isNone).filter fun b => !(c.seq st).held b).map
    fun b => (b, BitVec.ofNat 32 (leNat (c.ulmBytes b 4)))

/-- A fetch: the buffer keeps its eight latest words, and what was fetched along a target while it has room (R61). -/
def Core.fetchAt (c : Core) (st : Strm) (a : Nat) : Core :=
  c.modSeq st fun q =>
    let b := q.buf ++ c.fetchWords st a
    let b := b.drop (b.length - 8)
    { q with buf := b, tbuf := if b.length + q.tbuf.length ≤ 8 then q.tbuf else [] }

/-- A fetch along the branch target (R61). -/
def Core.fetchTarget (c : Core) (st : Strm) (a : Nat) : Core :=
  c.modSeq st fun q => { q with tbuf := q.tbuf ++ (c.fetchWords st a).filter fun p => !q.tbuf.any fun r => r.1 == p.1 }

/-- The words of the buffer that stand from the next address on. -/
def Seq.ahead (q : Seq) : Nat := (q.buf.dropWhile fun p => p.1 != q.pc.toNat).length

/-- The target of the first transfer by bt among words that stand in sequence from an address, when it is known there: bt as it stands, or as
a TGT on the way sets it (R48, R61). off is the TGT of the group that is open. -/
def knownTarget (bt : Option Word) (off : Option (BitVec 16)) (a : Nat) : List (Nat × Insn) → Option Word
  | [] => none
  | (b, w) :: r =>
    if b ≠ a then none
    else match decode w with
      | .ok (.tgt _ _ o) => knownTarget bt (some o) (a + 4) r
      | .ok i =>
        if isHint i then knownTarget bt off (a + 4) r
        else
          let t := match off with
            | some o => some (BitVec.ofNat 64 a + 4 * o.signExtend 64)
            | none => bt
          if usesBt (selector i) && selector i != 6 then t
          else if selector i = 0 ∨ selector i = 7 then match i with
            | .movToCtl _ c _ => knownTarget (if c = 13 then none else t) none (a + 4) r
            | .movEToCtl _ c _ => knownTarget (if c = 13 then none else t) none (a + 4) r
            | _ => knownTarget t none (a + 4) r
          else none
      | _ => none

/-- The branch target along which the stream may fetch ahead (R61). -/
def Seq.target? (q : Seq) : Option Nat :=
  (knownTarget (some q.bt) (q.hints.findSome? fun | .tgt _ _ o => some o | _ => none) q.pc.toNat (q.buf.dropWhile fun p => p.1 != q.pc.toNat)).map
    BitVec.toNat

/-- A fetch of a block from an address can begin: the address is a word's, and so many words of the buffer are free (R61). -/
def Seq.canFetch (q : Seq) (a : Nat) : Bool :=
  a % 4 == 0 && decide (a < Config.ulmBytes) && decide (q.ahead + q.tbuf.length + (4 - a % 16 / 4) ≤ 8)

/-- FETCH: the sequencer fetches ahead on the sequential path, or along a known branch target, while words of its buffer are free; which of the
two is free (R61). A gang's follower fetches nothing (R331). -/
def execFetch (core : Nat) (str : Strm) (s : State) : Out :=
  let c := s.core core
  let q := c.seq str
  let a := match q.buf.getLast? with
    | some p => if q.held q.pc.toNat then p.1 + 4 else q.pc.toNat
    | none => q.pc.toNat
  if c.run != .running || q.halted || c.follower then .next s
  else match q.target?.map fun t => (match q.tbuf.getLast? with | some p => p.1 + 4 | none => t) with
    | some b =>
      let s1 := { s with free := s.free + 1 }
      if q.canFetch b && (!q.canFetch a || Config.pick s.free % 2 == 0) then .next (s1.setCore core (c.fetchTarget str b))
      else .next (if q.canFetch a then s1.setCore core (c.fetchAt str a) else s1)
    | none => .next (if q.canFetch a then s.setCore core (c.fetchAt str a) else s)

/-- What the moving stream does next. -/
inductive Ready where
  /-- something other than an issue -/
  | moved (s : State)
  /-- it tries to issue this word -/
  | word (w : Insn) (s : State)
  deriving DecidableEq, Repr

/-- A trap on account of the next address (R71, R151): the whole address, and the word that chose it. -/
def State.addressTrap (s : State) (cause : Nat) (word : Word) : State :=
  let q := (s.core s.cur).seq s.strm
  takeTrap s s.cur s.strm {
    cause := cause
    sub := 0
    addr := q.pc
    info := 0
    word := word.setWidth 19
    ret := q.pc.setWidth 19
    async := false
    vrep := none }

/-- The word that the moving stream would issue: from its gang's leader (R331), from its buffer, or fetched now (R61); an address that is no word's
traps instead (R71), and so does a word whose bytes hold an error (R151). -/
def State.nextWord (s : State) : Ready :=
  let c := s.core s.cur
  let q := c.seq s.strm
  match (if c.follower then q.fwd.head? else none) with
  | some f => .word f.word (s.setCore s.cur (c.setSeq s.strm { q with pc := f.at_ }))
  | none =>
    if q.pc.toNat % 4 ≠ 0 then .moved (s.addressTrap cAlign q.issued)
    else if Config.ulmBytes ≤ q.pc.toNat then .moved (s.addressTrap cRange q.issued)
    else
      let c := if q.held q.pc.toNat then c else c.fetchAt s.strm q.pc.toNat
      if (c.seq s.strm).held q.pc.toNat then .word (c.fetchWord s.strm q.pc.toNat) (s.setCore s.cur c)
      else match c.ulmError q.pc.toNat 4 with
        | some (cause, _) => .moved (wordTrap s (mkCtx s.cur s.strm s q c.ctl.fpctl) q.groupStart cause 0 q.pc 0 none)
        | none => .word (c.fetchWord s.strm q.pc.toNat) (s.setCore s.cur c)

/-! ### The boundary before a word -/

/-- The state of an outcome that goes on. -/
def Out.state? : Out → Option State
  | .next s => some s
  | _ => none

/-- Short-lived values whose time has passed leave the punty buffer (R95, R96). -/
def Seq.expire (q : Seq) (cycle : Nat) : Seq :=
  let gone := q.punty.filter fun p => decide (p.born + Config.puntyCycles ≤ cycle)
  if gone.isEmpty then q
  else { q with
    punty := q.punty.filter fun p => !decide (p.born + Config.puntyCycles ≤ cycle)
    expired := q.expired ++ gone.map fun p => p.home }

/-- The state with every entry of the moving core's punty buffers that is due expired, and a task that has failed ended (R96, R350). -/
def State.tidy (s : State) : State :=
  let c := s.core s.cur
  let s := if (c.a.punty ++ c.e.punty).isEmpty then s else s.setCore s.cur { c with a := c.a.expire s.cycle, e := c.e.expire s.cycle }
  if c.task.isSome then s.failTask s.cur else s

/-- The watchdog of the core has run out, and its trap falls to the moving stream (R406). -/
def State.wdogDue (s : State) : Bool :=
  let c := s.core s.cur
  c.queueStuck && c.ctl.wdog != 0 && decide (c.ctl.wdog.toNat ≤ c.ctl.wdogCount) && s.strm == (if c.a.halted then Strm.e else .a)

/-- What happens at the boundary instead of an issue: a status trap, the watchdog's trap, the end of a failed contestant's core, a paired safe
point, or a user-level event; none when the stream goes on. Between the words of a hint group nothing is taken but at a safe point's wait (R49). -/
def State.boundary (s : State) : Option State :=
  let c := s.core s.cur
  if c.run != .running then none
  else if c.trapDue s.strm then Out.state? (execTrapEntry s.cur s.strm s)
  else if s.wdogDue then Out.state? (execWatchdog s.cur s)
  else if !c.atBoundary s.strm then s.stallStep s.cur s.strm
  else match s.failContestant s.cur with
    | some s' => some s'
    | none => match s.parkStep s.cur s.strm with
      | some s' => some s'
      | none => if s.strm == .a && c.deliverable then Out.state? (execEventDelivery s.cur s) else none

/-- What the moving stream does next: its boundary first, and then the word at its next address, when it can issue at all (R60). -/
def State.nextMove (s : State) : Ready :=
  let s := s.tidy
  match s.boundary with
  | some s' => .moved s'
  | none => if !s.canIssue || s.fwdFull s.cur s.strm then .moved s else s.nextWord

/-- A word that the decoder refuses: it ends a timetable (R311), or raises ILLEGAL_INSTRUCTION by R53 and R54. -/
def State.illegalWord (s : State) (w : Insn) (sub : Nat) : State :=
  if s.inTimetable.isSome then s.endTimetable
  else
    let c := s.core s.cur
    let q := c.seq s.strm
    wordTrap s (mkCtx s.cur s.strm s q c.ctl.fpctl) q.groupStart cIllegal sub 0 (w.setWidth 64) none

/-- One word of the moving stream under a meaning of instructions. -/
def runWord (ex : Instr → State → Out) (w : Insn) (s : State) : Out :=
  match decode w with
  | .ok i => ex i s
  | .unallocated => .next (s.illegalWord w 0)
  | .reserved inA inE => .next (s.illegalWord w (if (match s.strm with | .a => inA | .e => inE) then 1 else 2))

/-- The moving stream's move. -/
def issueMove (ex : Instr → State → Out) (s : State) : Out :=
  match s.nextMove with
  | .moved s' => .next s'
  | .word w s' => runWord ex w s'

/-! ### The agenda -/

/-- The meaning of an event: that of the instruction of the same name. -/
def runEvent : Ev → State → Out
  | .fetch core str => Sys2Proof.Machine.execFetch core str
  | .resultWriteback core str => Sys2Proof.Machine.execResultWriteback core str
  | .puntyExpire core str idx => Sys2Proof.Machine.execPuntyExpire core str idx
  | .refreshCycle core bank => Sys2Proof.Machine.execRefreshCycle core bank
  | .trapEntry core str => Sys2Proof.Machine.execTrapEntry core str
  | .eventDelivery core => Sys2Proof.Machine.execEventDelivery core
  | .watchdog core => Sys2Proof.Machine.execWatchdog core
  | .pairedSafePoint core => Sys2Proof.Machine.execPairedSafePoint core
  | .preemptRequest core timeoutNs area ranges => Sys2Proof.Machine.execPreemptRequest core timeoutNs area ranges
  | .preemptOverdue core => Sys2Proof.Machine.execPreemptOverdue core
  | .contextSave core => Sys2Proof.Machine.execContextSave core
  | .contextResume core target => Sys2Proof.Machine.execContextResume core target
  | .coreKill core => Sys2Proof.Machine.execCoreKill core
  | .sleepWake core => Sys2Proof.Machine.execSleepWake core
  | .sleepTimeout core => Sys2Proof.Machine.execSleepTimeout core
  | .sauStart tile => Sys2Proof.Machine.execSauStart tile
  | .sauComplete core => Sys2Proof.Machine.execSauComplete core
  | .vrepDispatch core => Sys2Proof.Machine.execVrepDispatch core
  | .mldFill core => Sys2Proof.Machine.execMldFill core
  | .globalStreamRow core id => Sys2Proof.Machine.execGlobalStreamRow core id
  | .multiplyStart core => Sys2Proof.Machine.execMultiplyStart core
  | .multiplyComplete core => Sys2Proof.Machine.execMultiplyComplete core
  | .mstRowSend core => Sys2Proof.Machine.execMstRowSend core
  | .mmajJoin tile => Sys2Proof.Machine.execMmajJoin tile
  | .mmajJoinTimeout tile => Sys2Proof.Machine.execMmajJoinTimeout tile
  | .rotJoin tile => Sys2Proof.Machine.execRotJoin tile
  | .rotJoinTimeout tile => Sys2Proof.Machine.execRotJoinTimeout tile
  | .solveStart tile => Sys2Proof.Machine.execSolveStart tile
  | .solveComplete tile => Sys2Proof.Machine.execSolveComplete tile
  | .pointsApplication core id => Sys2Proof.Machine.execPointsApplication core id
  | .engineGranule core id => Sys2Proof.Machine.execEngineGranule core id
  | .tokenStatusWrite core id => Sys2Proof.Machine.execTokenStatusWrite core id
  | .routerHop pkt => Sys2Proof.Machine.execRouterHop pkt
  | .occupancyUpdate => Sys2Proof.Machine.execOccupancyUpdate
  | .packetArrival pkt => Sys2Proof.Machine.execPacketArrival pkt
  | .reorderResend pkt => Sys2Proof.Machine.execReorderResend pkt
  | .remapNack pkt => Sys2Proof.Machine.execRemapNack pkt
  | .depositArrival pkt => Sys2Proof.Machine.execDepositArrival pkt
  | .depositLatchTimeout core => Sys2Proof.Machine.execDepositLatchTimeout core
  | .busyResend pkt => Sys2Proof.Machine.execBusyResend pkt
  | .retryDepositResend pkt => Sys2Proof.Machine.execRetryDepositResend pkt
  | .deviceDepositLand core => Sys2Proof.Machine.execDeviceDepositLand core
  | .notifyArrival pkt => Sys2Proof.Machine.execNotifyArrival pkt
  | .combine pkt => Sys2Proof.Machine.execCombine pkt
  | .reduceResultLand asid grp tag => Sys2Proof.Machine.execReduceResultLand asid grp tag
  | .combinePark asid grp tag => Sys2Proof.Machine.execCombinePark asid grp tag
  | .translationRequest core id => Sys2Proof.Machine.execTranslationRequest core id
  | .pageWalk core id => Sys2Proof.Machine.execPageWalk core id
  | .faultRetry core id => Sys2Proof.Machine.execFaultRetry core id
  | .faultDecline core id => Sys2Proof.Machine.execFaultDecline core id
  | .amoHome core id => Sys2Proof.Machine.execAmoHome core id
  | .releasePerformed core id => Sys2Proof.Machine.execReleasePerformed core id
  | .acquireComplete core id => Sys2Proof.Machine.execAcquireComplete core id
  | .stationInvalidate kind operand => Sys2Proof.Machine.execStationInvalidate kind operand
  | .barrierArrival core => Sys2Proof.Machine.execBarrierArrival core
  | .barrierWithdrawal core => Sys2Proof.Machine.execBarrierWithdrawal core
  | .groupAbort asid grp => Sys2Proof.Machine.execGroupAbort asid grp
  | .exchangeJoin asid grp => Sys2Proof.Machine.execExchangeJoin asid grp
  | .exchangeJoinTimeout asid grp => Sys2Proof.Machine.execExchangeJoinTimeout asid grp
  | .phaseEnd asid grp => Sys2Proof.Machine.execPhaseEnd asid grp
  | .gangJoin core => Sys2Proof.Machine.execGangJoin core
  | .gangJoinTimeout core => Sys2Proof.Machine.execGangJoinTimeout core
  | .taskHandover asid grp => Sys2Proof.Machine.execTaskHandover asid grp
  | .domainDrain asid grp => Sys2Proof.Machine.execDomainDrain asid grp
  | .taskReady asid grp rec => Sys2Proof.Machine.execTaskReady asid grp rec
  | .prodGrant asid grp ring => Sys2Proof.Machine.execProdGrant asid grp ring
  | .consGrant asid grp ring => Sys2Proof.Machine.execConsGrant asid grp ring
  | .shunterInterval asid grp => Sys2Proof.Machine.execShunterInterval asid grp
  | .stageSwitch core => Sys2Proof.Machine.execStageSwitch core
  | .distributorServe core id => Sys2Proof.Machine.execDistributorServe core id
  | .censusInterval => Sys2Proof.Machine.execCensusInterval
  | .recastCommit tile => Sys2Proof.Machine.execRecastCommit tile
  | .recastOrder die donor target => Sys2Proof.Machine.execRecastOrder die donor target
  | .censusPolicyWrite offset value => Sys2Proof.Machine.execCensusPolicyWrite offset value
  | .censusRequest core id => Sys2Proof.Machine.execCensusRequest core id
  | .leaseExpiry asid slot => Sys2Proof.Machine.execLeaseExpiry asid slot
  | .expiringNotice asid slot => Sys2Proof.Machine.execExpiringNotice asid slot
  | .pageEvacuation tile => Sys2Proof.Machine.execPageEvacuation tile
  | .relayDrainDeadline tile => Sys2Proof.Machine.execRelayDrainDeadline tile
  | .annealComplete tile => Sys2Proof.Machine.execAnnealComplete tile
  | .scoreArrival scope => Sys2Proof.Machine.execScoreArrival scope
  | .allowanceStop core => Sys2Proof.Machine.execAllowanceStop core
  | .roundEnd scope => Sys2Proof.Machine.execRoundEnd scope
  | .roundStart scope => Sys2Proof.Machine.execRoundStart scope
  | .scopeAbort scope => Sys2Proof.Machine.execScopeAbort scope
  | .queueWake q => Sys2Proof.Machine.execQueueWake q
  | .packetFetch q => Sys2Proof.Machine.execPacketFetch q
  | .launchPacket q idx => Sys2Proof.Machine.execLaunchPacket q idx
  | .copyPacket q idx => Sys2Proof.Machine.execCopyPacket q idx
  | .waitPacket q idx => Sys2Proof.Machine.execWaitPacket q idx
  | .waitPoll q idx => Sys2Proof.Machine.execWaitPoll q idx
  | .waitTimeout q idx => Sys2Proof.Machine.execWaitTimeout q idx
  | .signalPacket q idx => Sys2Proof.Machine.execSignalPacket q idx
  | .indirectPacket q idx => Sys2Proof.Machine.execIndirectPacket q idx
  | .loopPacket q idx => Sys2Proof.Machine.execLoopPacket q idx
  | .fetchFencePacket q idx => Sys2Proof.Machine.execFetchFencePacket q idx
  | .tourneyPacket q idx => Sys2Proof.Machine.execTourneyPacket q idx
  | .leasePacket q idx => Sys2Proof.Machine.execLeasePacket q idx
  | .resetQueuePacket q idx => Sys2Proof.Machine.execResetQueuePacket q idx
  | .queueResetControl q => Sys2Proof.Machine.execQueueResetControl q
  | .packetComplete q idx => Sys2Proof.Machine.execPacketComplete q idx
  | .heartbeatSend => Sys2Proof.Machine.execHeartbeatSend
  | .heartbeatMiss nb => Sys2Proof.Machine.execHeartbeatMiss nb
  | .resetMessage sender target counter tag => Sys2Proof.Machine.execResetMessage sender target counter tag
  | .hostWindowWrite port addr data => Sys2Proof.Machine.execHostWindowWrite port addr data
  | .hostWindowRead port addr len => Sys2Proof.Machine.execHostWindowRead port addr len
  | .hostLinkTrain port rate width => Sys2Proof.Machine.execHostLinkTrain port rate width
  | .linkFlitRetry port => Sys2Proof.Machine.execLinkFlitRetry port
  | .scaleupLinkDown port => Sys2Proof.Machine.execScaleupLinkDown port
  | .linkRetrain port => Sys2Proof.Machine.execLinkRetrain port
  | .scrub station => Sys2Proof.Machine.execScrub station
  | .pmodeWrite value => Sys2Proof.Machine.execPmodeWrite value
  | .modeSwitchRestart => Sys2Proof.Machine.execModeSwitchRestart
  | .powerLimitExceeded => Sys2Proof.Machine.execPowerLimitExceeded
  | .powerCapRelease => Sys2Proof.Machine.execPowerCapRelease
  | .firmwareImage image => Sys2Proof.Machine.execFirmwareImage image
  | .flashWriteInterrupted => Sys2Proof.Machine.execFlashWriteInterrupted
  | .attestationRequest nonce peer => Sys2Proof.Machine.execAttestationRequest nonce peer
  | .deviceReset => Sys2Proof.Machine.execDeviceReset
  | .swzWrite core idx value => Sys2Proof.Machine.execSwzWrite core idx value
  | .fpctlWrite core value => Sys2Proof.Machine.execFpctlWrite core value
  | .fpctlRead core str dst => Sys2Proof.Machine.execFpctlRead core str dst
  | .srseedWrite core value => Sys2Proof.Machine.execSrseedWrite core value
  | .winWrite core str value => Sys2Proof.Machine.execWinWrite core str value
  | .registerWrite core reg value => Sys2Proof.Machine.execRegisterWrite core reg value
  | .cxlSnoop port addr => Sys2Proof.Machine.execCxlSnoop port addr
  | .siteEviction core => Sys2Proof.Machine.execSiteEviction core
  | .softError site multi => Sys2Proof.Machine.execSoftError site multi
  | .kernelHartAccess hart op => Sys2Proof.Machine.execKernelHartAccess hart op

/-- Events that happen while the arithmetic and network clocks stand: those of the island, the links and the storage itself (R438). -/
def clockless : Ev → Bool
  | .modeSwitchRestart | .pmodeWrite _ | .powerLimitExceeded | .powerCapRelease | .firmwareImage _ | .flashWriteInterrupted
  | .attestationRequest _ _ | .deviceReset | .heartbeatSend | .heartbeatMiss _ | .resetMessage _ _ _ _ | .hostLinkTrain _ _ _
  | .linkFlitRetry _ | .scaleupLinkDown _ | .linkRetrain _ | .softError _ _ => true
  | _ => false

/-- The arithmetic and network clocks stand (R438). -/
def Island.clocksStand (i : Island) : Bool := i.busy && i.restartAt != 0

/-- An event of the agenda: an agent that the module does not have is a fault of the agenda, and an event that needs a stopped clock waits. -/
def eventMove (e : Ev) (s : State) : Out :=
  if !e.agentOk then .fault .noSuchAgent
  else if s.isl.clocksStand && !clockless e then .next (s.postpone e)
  else runEvent e s

/-- A core after some arithmetic cycles: a SLEEP's entry that committed in the cycle can no longer be aborted (R88), and the watchdog has counted
them where both streams stand at queues (R406). -/
def Core.cyclePast (c : Core) (cycles : Nat) : Core :=
  let c := match c.wait with
    | some (.sleep ctl dl .commits st) => { c with wait := some (.sleep ctl dl .committed st) }
    | _ => c
  if c.queueStuck then { c with ctl := { c.ctl with wdogCount := c.ctl.wdogCount + cycles } } else c

/-- The end of the current cycle, and of some that follow in which nothing happens: what has arrived lands (R153), and the cores count. -/
def State.cycleEnds (s : State) (cycles : Nat) : State :=
  let s := s.landAll
  (s.cores.filter fun p => p.2.run == .running && (p.2.wait.isSome || p.2.queueStuck)).foldl (fun s p => s.modCore p.1 fun c => c.cyclePast cycles) s

/-- Time passes; arithmetic cycles do not while the clocks stand, and up to a switch only to the boundary at which they stop (R5, R6, R438). -/
def State.pass (s : State) (cycles ns : Nat) : State :=
  let n := if s.isl.clocksStand then 0
    else if s.isl.busy then Nat.min cycles ((Config.netCycle - s.cycle % Config.netCycle) % Config.netCycle)
    else cycles
  let s := if n = 0 then s else s.cycleEnds n
  let s := { s with cycle := s.cycle + n, ns := s.ns + ns }
  if s.isl.busy && !s.isl.clocksStand && s.cycle % Config.netCycle == 0 then { s with isl := { s.isl with restartAt := s.ns + 2000 } } else s

/-- The arithmetic clock of a power mode, in units of 100 MHz (R5, R8). -/
def modeClock (mode : Nat) : Nat := match mode with
  | 1 => 26
  | 2 => 19
  | _ => 33

/-- Nanoseconds that end within the next arithmetic cycle of a mode (R6). -/
def nsOfCycle (mode cycle : Nat) : Nat := (cycle + 1) * 10 / modeClock mode - cycle * 10 / modeClock mode

/-- A round ends: a cycle has passed, or while the clocks stand some time, and the events that were not yet possible come again. -/
def State.round (s : State) : State :=
  let s := s.pass 1 (if s.isl.clocksStand then Config.nsPerRound else nsOfCycle s.isl.now.toNat s.cycle)
  { s with plan := s.plan ++ s.later.map fun e => .event e, later := [] }

/-- The first core from n on that runs. -/
def State.runningFrom (s : State) (n : Nat) : Option Nat :=
  (s.cores.find? fun p => decide (n ≤ p.1) && p.2.run == .running).map Prod.fst

/-- The next stream in the default course: A, then E, then the next core that runs; after the last a round ends. -/
def State.turn (s : State) : State :=
  match s.strm with
  | .a => { s with strm := .e }
  | .e => match s.runningFrom (s.cur + 1) with
    | some n => { s with cur := n, strm := .a }
    | none => { s with cur := (s.runningFrom 0).getD s.cur, strm := .a }.round

/-- One step under a meaning of instructions: the next move of the agenda; or, when it is empty, the moving stream's move in the default course. -/
def stepWith (ex : Instr → State → Out) (s : State) : Out :=
  match s.plan with
  | .event e :: r => eventMove e { s with plan := r }
  | .issue n st :: r =>
    let s := { s with plan := r, cur := n, strm := st }
    if Config.cores ≤ n then .fault .noSuchAgent else if s.isl.clocksStand then .next s else issueMove ex s
  | .tick cycles ns :: r => .next ({ s with plan := r }.pass cycles ns)
  | [] =>
    if s.isl.clocksStand then .next s.round
    else match issueMove ex s with
      | .next s' => .next s'.turn
      | o => o

end Sys2Proof.Machine
end

