-- ==== Sys2Proof/Machine/LocalMem.lean ====
section
/-!
DEFINITION. Loads and stores of ULM (R157, R158), bit-granular access (R160, R161), and SPILL and FILL of the register stack (R92, R93).
-/

namespace Sys2Proof.Machine

/-! ### Loads and stores -/

/-- The address and the checks of an access of n bytes (R158). -/
def memOp (b : BitVec 5) (z : BitVec 2) (o : BitVec 11) (n : Nat) (cx : Ctx) : CM Nat := do
  let addr ← memAddr cx b z o
  checkUlm addr n
  pure addr.toNat

/-- A load into a register, widened by ext (R158). -/
def loadM (ext : Nat → Nat → Word) (d b : BitVec 5) (z : BitVec 2) (o : BitVec 11) (cx : Ctx) : CM Unit := do
  let a ← memOp b z o (2 ^ z.toNat) cx
  let bs ← rdUlm a (2 ^ z.toNat)
  wrX cx d (ext (8 * 2 ^ z.toNat) (leNat bs))

/-- LD, sign-extending (R158). -/
def execLdS (n : BitVec 3) (d b : BitVec 5) (z : BitVec 2) (o : BitVec 11) : State → Out :=
  issueU (.ldS n d b z o) (loadM (fun w v => BitVec.ofInt 64 (sextNat w v)) d b z o)

/-- LD, zero-extending (R158). -/
def execLdZ (n : BitVec 3) (d b : BitVec 5) (z : BitVec 2) (o : BitVec 11) : State → Out :=
  issueU (.ldZ n d b z o) (loadM (fun _ v => BitVec.ofNat 64 v) d b z o)

/-- ST (R158). -/
def execSt (n : BitVec 3) (d b : BitVec 5) (z : BitVec 2) (o : BitVec 11) : State → Out :=
  issueU (.st n d b z o) fun cx => do
    let v ← rdX cx d
    let a ← memOp b z o (2 ^ z.toNat) cx
    wrUlm a (toBytes (2 ^ z.toNat) v.toNat)

/-- LDQ (R158). -/
def execLdq (n : BitVec 3) (b : BitVec 5) (z : BitVec 2) (o : BitVec 11) : State → Out :=
  issueU (.ldq n b z o) fun cx => do
    room (pushData cx none)
    let a ← memOp b z o (2 ^ z.toNat) cx
    let bs ← rdUlm a (2 ^ z.toNat)
    pushData cx (some (BitVec.ofNat 64 (leNat bs)))

/-- STQ (R158): the word waits for its entry (R60), and a failing check leaves it in the queue. -/
def execStq (n : BitVec 3) (b : BitVec 5) (z : BitVec 2) (o : BitVec 11) : State → Out :=
  issueU (.stq n b z o) fun cx => do
    let v ← popData cx
    let a ← memOp b z o (2 ^ z.toNat) cx
    wrUlm a (toBytes (2 ^ z.toNat) v.toNat)

/-- VLDQ: the offset counts units of 8 bytes, and the access is 128 bytes (R157, R158). -/
def execVldq (n : BitVec 3) (b : BitVec 5) (o : BitVec 11) : State → Out :=
  issueU (.vldq n b o) fun cx => do
    room (pushVldq 0)
    let a ← memOp b 3 o 128 cx
    let bs ← rdUlm a 128
    pushVldq (BitVec.ofNat 1024 (leNat bs))

/-- VSTQ (R158). -/
def execVstq (n : BitVec 3) (b : BitVec 5) (o : BitVec 11) : State → Out :=
  issueU (.vstq n b o) fun cx => do
    let v ← popVstq
    let a ← memOp b 3 o 128 cx
    wrUlm a (toBytes 128 v.toNat)

/-! ### Bit-granular access (R161) -/

/-- Bits of ULM that a bit address reaches (R160). -/
def ulmBits : Nat := 8 * Config.ulmBytes

/-- The bit address in register b and the width from aW, with the range check (R161). -/
def bitOp (b w : BitVec 5) (cx : Ctx) : CM (Nat × Nat) := do
  let v ← rdX cx w
  let width := Nat.min (fieldOf v 0 7) 64
  let c ← get
  let start := (Store.get 0 c.ctl.b b.toNat).toNat
  raiseIf (decide (0 < width) && decide (ulmBits < start + width)) cRange 0 (BitVec.ofNat 64 (start / 8)) 0
  pure (start, width)

/-- The bytes that a bit field of ULM touches. -/
def bitSpan (start width : Nat) : Nat := if width = 0 then 0 else (start + width - 1) / 8 - start / 8 + 1

/-- The post-increment of a bit address (R161). -/
def bitPost (p : BitVec 1) (b : BitVec 5) (start width : Nat) : CM Unit :=
  if p = 1 then modify fun c => { c with ctl := { c.ctl with b := Store.set 0 c.ctl.b b.toNat (BitVec.ofNat 22 (start + width)) } }
  else pure ()

/-- Load a bit field (R161). -/
def loadBits (signed : Bool) (d b w : BitVec 5) (p : BitVec 1) (cx : Ctx) : CM Unit := do
  let (start, width) ← bitOp b w cx
  let bs ← rdUlm (start / 8) (bitSpan start width)
  let f := leNat bs / 2 ^ (start % 8) % 2 ^ width
  wrX cx d (if signed then BitVec.ofInt 64 (sextNat width f) else BitVec.ofNat 64 f)
  bitPost p b start width

/-- LDB (R161). -/
def execLdb (n : BitVec 3) (d b w : BitVec 5) (p : BitVec 1) : State → Out := issueU (.ldb n d b w p) (loadBits false d b w p)

/-- LDB, sign-extending (R161). -/
def execLdbS64 (n : BitVec 3) (d b w : BitVec 5) (p : BitVec 1) : State → Out := issueU (.ldbS64 n d b w p) (loadBits true d b w p)

/-- Replace the bits [sh, sh + width) of a number. -/
def insertBits (old sh width v : Nat) : Nat :=
  old % 2 ^ sh + (v % 2 ^ width) * 2 ^ sh + old / 2 ^ (sh + width) * 2 ^ (sh + width)

/-- STB (R161): every affected byte is updated whole. -/
def execStb (n : BitVec 3) (b x w : BitVec 5) (p : BitVec 1) : State → Out :=
  issueU (.stb n b x w p) fun cx => do
    let v ← rdX cx x
    let (start, width) ← bitOp b w cx
    let c ← get
    let span := bitSpan start width
    let old := leNat (c.ulmBytes (start / 8) span)
    wrUlm (start / 8) (toBytes span (insertBits old (start % 8) width v.toNat))
    bitPost p b start width

/-! ### The register stack (R93) -/

/-- The home of entry i of a slot (R90). -/
def slotHome (slot : BitVec 5) (i : Nat) : Nat := 32 + 16 * slot.toNat + i

/-- The address checks of SPILL and FILL (R93). -/
def slotAddr (a : BitVec 5) (cx : Ctx) : CM Nat := do
  let addr ← rdX cx a
  raiseIf (addr.toNat % 8 != 0) cAlign 0 addr 0
  raiseIf (decide (Config.ulmBytes < addr.toNat + 136)) cRange 0 addr 0
  pure addr.toNat

/-- The 136 bytes of a slot with its link tag (R93). -/
def Seq.slotBytes (q : Seq) (slot : BitVec 5) : List Byte :=
  (List.range 16).flatMap (fun i => toBytes 8 (Store.get 0 q.regs (slotHome slot i)).toNat)
    ++ toBytes 8 (Store.get 0 q.links slot.toNat).toNat

/-- SPILL (R93). -/
def spillM (a : BitVec 5) (cx : Ctx) : CM Unit := do
  let addr ← slotAddr a cx
  let c ← get
  let q := c.seq cx.st
  if q.old = q.cur then pure ()
  else do
    let homes := (List.range 16).map (slotHome q.old)
    stallIf (homes.any fun h => q.pend.contains h || q.punty.any (fun p => p.home == h))
    raiseIf (homes.any fun h => c.regBad.contains (badKey cx.st h)) cUncorrectable 0 0 0
    wrUlm addr (q.slotBytes q.old)
    modSeqM cx.st fun q => { q with expired := q.expired.filter (fun h => !homes.contains h), old := q.old + 1 }

/-- Put the entries of a slot back from 8-byte groups. -/
def Core.fillSlot (c : Core) (st : Strm) (slot : BitVec 5) (bs : List Byte) : Core :=
  (List.range 16).foldl (fun c i => c.putHome st (slotHome slot i) (BitVec.ofNat 1024 (leNat ((bs.drop (8 * i)).take 8)))) c

/-- FILL (R93). -/
def fillM (a : BitVec 5) (cx : Ctx) : CM Unit := do
  let addr ← slotAddr a cx
  let c ← get
  let q := c.seq cx.st
  let slot := q.old - 1
  if slot = q.cur + 1 then pure ()
  else do
    let bs ← rdUlm addr 136
    modify fun c => (c.fillSlot cx.st slot bs).modSeq cx.st fun q =>
      { q with links := Store.set 0 q.links slot.toNat (BitVec.ofNat 64 (leNat (bs.drop 128))), old := slot }

/-- SPILL (R92, R93). -/
def execSpill (n : BitVec 3) (a : BitVec 5) : State → Out := issueU (.spill n a) (spillM a)

/-- FILL (R92, R93). -/
def execFill (n : BitVec 3) (a : BitVec 5) : State → Out := issueU (.fill n a) (fillM a)

end Sys2Proof.Machine
end

