-- ==== Sys2Proof/Machine/Dispatch.lean ====
section
/-!
DEFINITION. The one dispatch from an instruction to its meaning: one arm per constructor of Instr.
-/

namespace Sys2Proof.Machine

def exec (i : Instr) (s : State) : Host.Outcome State Fault Refusal :=
  match i with
  | .add n d x t q => Sys2Proof.Machine.execAdd n d x t q s
  | .sub n d x t q => Sys2Proof.Machine.execSub n d x t q s
  | .and n d x t q => Sys2Proof.Machine.execAnd n d x t q s
  | .or n d x t q => Sys2Proof.Machine.execOr n d x t q s
  | .xor n d x t q => Sys2Proof.Machine.execXor n d x t q s
  | .shl n d x t q => Sys2Proof.Machine.execShl n d x t q s
  | .shr n d x t q => Sys2Proof.Machine.execShr n d x t q s
  | .sha n d x t q => Sys2Proof.Machine.execSha n d x t q s
  | .min n d x t q => Sys2Proof.Machine.execMin n d x t q s
  | .minZ64 n d x t q => Sys2Proof.Machine.execMinZ64 n d x t q s
  | .max n d x t q => Sys2Proof.Machine.execMax n d x t q s
  | .maxZ64 n d x t q => Sys2Proof.Machine.execMaxZ64 n d x t q s
  | .clz n d x q => Sys2Proof.Machine.execClz n d x q s
  | .popc n d x q => Sys2Proof.Machine.execPopc n d x q s
  | .mov n d x q => Sys2Proof.Machine.execMov n d x q s
  | .movFromCtl n d c => Sys2Proof.Machine.execMovFromCtl n d c s
  | .movToCtl n c x => Sys2Proof.Machine.execMovToCtl n c x s
  | .shlImm n d x im q h => Sys2Proof.Machine.execShlImm n d x im q h s
  | .shrImm n d x im q h => Sys2Proof.Machine.execShrImm n d x im q h s
  | .shaImm n d x im q h => Sys2Proof.Machine.execShaImm n d x im q h s
  | .sel n d x t q p => Sys2Proof.Machine.execSel n d x t q p s
  | .mul n d x t q => Sys2Proof.Machine.execMul n d x t q s
  | .mulh n d x t q => Sys2Proof.Machine.execMulh n d x t q s
  | .mulhZ64 n d x t q => Sys2Proof.Machine.execMulhZ64 n d x t q s
  | .div n d x t q => Sys2Proof.Machine.execDiv n d x t q s
  | .divZ64 n d x t q => Sys2Proof.Machine.execDivZ64 n d x t q s
  | .rem n d x t q => Sys2Proof.Machine.execRem n d x t q s
  | .remZ64 n d x t q => Sys2Proof.Machine.execRemZ64 n d x t q s
  | .cmp n d x t p im k => Sys2Proof.Machine.execCmp n d x t p im k s
  | .bfx n d x t => Sys2Proof.Machine.execBfx n d x t s
  | .bfxZ64 n d x t => Sys2Proof.Machine.execBfxZ64 n d x t s
  | .bfi n d x t => Sys2Proof.Machine.execBfi n d x t s
  | .lea n d x t c => Sys2Proof.Machine.execLea n d x t c s
  | .geom n d x c => Sys2Proof.Machine.execGeom n d x c s
  | .addImm n d x im => Sys2Proof.Machine.execAddImm n d x im s
  | .andImm n d x im => Sys2Proof.Machine.execAndImm n d x im s
  | .orImm n d x im => Sys2Proof.Machine.execOrImm n d x im s
  | .xorImm n d x im => Sys2Proof.Machine.execXorImm n d x im s
  | .ldS n d b z o => Sys2Proof.Machine.execLdS n d b z o s
  | .ldZ n d b z o => Sys2Proof.Machine.execLdZ n d b z o s
  | .st n d b z o => Sys2Proof.Machine.execSt n d b z o s
  | .ldq n b z o => Sys2Proof.Machine.execLdq n b z o s
  | .stq n b z o => Sys2Proof.Machine.execStq n b z o s
  | .vldq n b o => Sys2Proof.Machine.execVldq n b o s
  | .vstq n b o => Sys2Proof.Machine.execVstq n b o s
  | .ldb n d b w p => Sys2Proof.Machine.execLdb n d b w p s
  | .ldbS64 n d b w p => Sys2Proof.Machine.execLdbS64 n d b w p s
  | .stb n b x w p => Sys2Proof.Machine.execStb n b x w p s
  | .rot n t a l d => Sys2Proof.Machine.execRot n t a l d s
  | .putr n t l b => Sys2Proof.Machine.execPutr n t l b s
  | .getr n t l b => Sys2Proof.Machine.execGetr n t l b s
  | .copy n t l b d q e c h => Sys2Proof.Machine.execCopy n t l b d q e c h s
  | .copy2 n t l b d q e c h => Sys2Proof.Machine.execCopy2 n t l b d q e c h s
  | .copyp n t l b d q e c h => Sys2Proof.Machine.execCopyp n t l b d q e c h s
  | .gld n t b x z h => Sys2Proof.Machine.execGld n t b x z h s
  | .gst n t x b z h => Sys2Proof.Machine.execGst n t x b z h s
  | .amo n t x b o g c => Sys2Proof.Machine.execAmo n t x b o g c s
  | .deposit n t x b y => Sys2Proof.Machine.execDeposit n t x b y s
  | .notify n t x b => Sys2Proof.Machine.execNotify n t x b s
  | .ntake n d => Sys2Proof.Machine.execNtake n d s
  | .mcast n t l b y => Sys2Proof.Machine.execMcast n t l b y s
  | .reduce n t l b f o y => Sys2Proof.Machine.execReduce n t l b f o y s
  | .redabort n t b => Sys2Proof.Machine.execRedabort n t b s
  | .query n t l b => Sys2Proof.Machine.execQuery n t l b s
  | .queryM n t l b => Sys2Proof.Machine.execQueryM n t l b s
  | .take n d m => Sys2Proof.Machine.execTake n d m s
  | .peek n d m p => Sys2Proof.Machine.execPeek n d m p s
  | .waitm n d x => Sys2Proof.Machine.execWaitm n d x s
  | .putm n m x => Sys2Proof.Machine.execPutm n m x s
  | .waitn n d c t => Sys2Proof.Machine.execWaitn n d c t s
  | .setn n c x => Sys2Proof.Machine.execSetn n c x s
  | .decn n c x => Sys2Proof.Machine.execDecn n c x s
  | .bar n d g => Sys2Proof.Machine.execBar n d g s
  | .barx n d g => Sys2Proof.Machine.execBarx n d g s
  | .phase n d g c => Sys2Proof.Machine.execPhase n d g c s
  | .fence n c o p x => Sys2Proof.Machine.execFence n c o p x s
  | .gang d x => Sys2Proof.Machine.execGang d x s
  | .ungang n d => Sys2Proof.Machine.execUngang n d s
  | .spawn n d a e => Sys2Proof.Machine.execSpawn n d a e s
  | .spawnC n d a e => Sys2Proof.Machine.execSpawnC n d a e s
  | .await d t => Sys2Proof.Machine.execAwait d t s
  | .yield d => Sys2Proof.Machine.execYield d s
  | .retire => Sys2Proof.Machine.execRetire s
  | .retireCancel => Sys2Proof.Machine.execRetireCancel s
  | .prod n d x => Sys2Proof.Machine.execProd n d x s
  | .cons n d => Sys2Proof.Machine.execCons n d s
  | .snext n d => Sys2Proof.Machine.execSnext n d s
  | .prodClose n d => Sys2Proof.Machine.execProdClose n d s
  | .lease n d x t => Sys2Proof.Machine.execLease n d x t s
  | .leaseR n d h t => Sys2Proof.Machine.execLeaseR n d h t s
  | .ldrop n d h => Sys2Proof.Machine.execLdrop n d h s
  | .roleq n d x c => Sys2Proof.Machine.execRoleq n d x c s
  | .scoreS64 n x => Sys2Proof.Machine.execScoreS64 n x s
  | .scoreZ64 n x => Sys2Proof.Machine.execScoreZ64 n x s
  | .scoreF64 n x => Sys2Proof.Machine.execScoreF64 n x s
  | .scoreClr n => Sys2Proof.Machine.execScoreClr n s
  | .heat d => Sys2Proof.Machine.execHeat d s
  | .tq n d c => Sys2Proof.Machine.execTq n d c s
  | .fadd n d x t q f => Sys2Proof.Machine.execFadd n d x t q f s
  | .fsub n d x t q f => Sys2Proof.Machine.execFsub n d x t q f s
  | .fmul n d x t q f => Sys2Proof.Machine.execFmul n d x t q f s
  | .fmin n d x t q f => Sys2Proof.Machine.execFmin n d x t q f s
  | .fmax n d x t q f => Sys2Proof.Machine.execFmax n d x t q f s
  | .fma n d x t f => Sys2Proof.Machine.execFma n d x t f s
  | .fdiv n d x t q f => Sys2Proof.Machine.execFdiv n d x t q f s
  | .fsqrt n d x q f => Sys2Proof.Machine.execFsqrt n d x q f s
  | .fcmp n d x t p f k => Sys2Proof.Machine.execFcmp n d x t p f k s
  | .fcvt n d a c x => Sys2Proof.Machine.execFcvt n d a c x s
  | .fclass n d x f => Sys2Proof.Machine.execFclass n d x f s
  | .vadd n d a b k w => Sys2Proof.Machine.execVadd n d a b k w s
  | .vsub n d a b k w => Sys2Proof.Machine.execVsub n d a b k w s
  | .vmul n d a b k w => Sys2Proof.Machine.execVmul n d a b k w s
  | .vmin n d a b k w => Sys2Proof.Machine.execVmin n d a b k w s
  | .vmax n d a b k w => Sys2Proof.Machine.execVmax n d a b k w s
  | .vshl n d a b k w => Sys2Proof.Machine.execVshl n d a b k w s
  | .vshr n d a b k w => Sys2Proof.Machine.execVshr n d a b k w s
  | .vsha n d a b k w => Sys2Proof.Machine.execVsha n d a b k w s
  | .vfadd n d a b k f => Sys2Proof.Machine.execVfadd n d a b k f s
  | .vfsub n d a b k f => Sys2Proof.Machine.execVfsub n d a b k f s
  | .vfmul n d a b k f => Sys2Proof.Machine.execVfmul n d a b k f s
  | .vfmin n d a b k f => Sys2Proof.Machine.execVfmin n d a b k f s
  | .vfmax n d a b k f => Sys2Proof.Machine.execVfmax n d a b k f s
  | .vfrcp n d a k f => Sys2Proof.Machine.execVfrcp n d a k f s
  | .vfrsq n d a k f => Sys2Proof.Machine.execVfrsq n d a k f s
  | .vfabs n d a k f => Sys2Proof.Machine.execVfabs n d a k f s
  | .vfma n d a b k f => Sys2Proof.Machine.execVfma n d a b k f s
  | .vfms n d a b k f => Sys2Proof.Machine.execVfms n d a b k f s
  | .vfnma n d a b k f => Sys2Proof.Machine.execVfnma n d a b k f s
  | .vfmaw n d a b k f => Sys2Proof.Machine.execVfmaw n d a b k f s
  | .vcvt n d a c k x => Sys2Proof.Machine.execVcvt n d a c k x s
  | .vscale n d a b k c f => Sys2Proof.Machine.execVscale n d a b k c f s
  | .vunscale n d a b k c f => Sys2Proof.Machine.execVunscale n d a b k c f s
  | .vcmp n d a b k f j w => Sys2Proof.Machine.execVcmp n d a b k f j w s
  | .vperm n d a b k w => Sys2Proof.Machine.execVperm n d a b k w s
  | .vziplo n d a b k w => Sys2Proof.Machine.execVziplo n d a b k w s
  | .vziphi n d a b k w => Sys2Proof.Machine.execVziphi n d a b k w s
  | .vunzipe n d a b k w => Sys2Proof.Machine.execVunzipe n d a b k w s
  | .vunzipo n d a b k w => Sys2Proof.Machine.execVunzipo n d a b k w s
  | .vrev n d a k w => Sys2Proof.Machine.execVrev n d a k w s
  | .vcompress n d a k w => Sys2Proof.Machine.execVcompress n d a k w s
  | .vradd n d a k w => Sys2Proof.Machine.execVradd n d a k w s
  | .vrmin n d a k w => Sys2Proof.Machine.execVrmin n d a k w s
  | .vrmax n d a k w => Sys2Proof.Machine.execVrmax n d a k w s
  | .vrfadd n d a k f => Sys2Proof.Machine.execVrfadd n d a k f s
  | .vrfmin n d a k f => Sys2Proof.Machine.execVrfmin n d a k f s
  | .vrfmax n d a k f => Sys2Proof.Machine.execVrfmax n d a k f s
  | .vtab n d a b k f => Sys2Proof.Machine.execVtab n d a b k f s
  | .tload n d a b => Sys2Proof.Machine.execTload n d a b s
  | .tcfg n d a => Sys2Proof.Machine.execTcfg n d a s
  | .vrep c e => Sys2Proof.Machine.execVrep c e s
  | .vrepQ c => Sys2Proof.Machine.execVrepQ c s
  | .vmov n d a k => Sys2Proof.Machine.execVmov n d a k s
  | .vmovFromVldq n d => Sys2Proof.Machine.execVmovFromVldq n d s
  | .vmovToVstq n a => Sys2Proof.Machine.execVmovToVstq n a s
  | .vbcast n d a k w => Sys2Proof.Machine.execVbcast n d a k w s
  | .vext n d a b w => Sys2Proof.Machine.execVext n d a b w s
  | .vins n d a b w => Sys2Proof.Machine.execVins n d a b w s
  | .vand n d a b k => Sys2Proof.Machine.execVand n d a b k s
  | .vor n d a b k => Sys2Proof.Machine.execVor n d a b k s
  | .vxor n d a b k => Sys2Proof.Machine.execVxor n d a b k s
  | .vandn n d a b k => Sys2Proof.Machine.execVandn n d a b k s
  | .vsel n d a b k => Sys2Proof.Machine.execVsel n d a b k s
  | .kand n d a b => Sys2Proof.Machine.execKand n d a b s
  | .kor n d a b => Sys2Proof.Machine.execKor n d a b s
  | .kxor n d a b => Sys2Proof.Machine.execKxor n d a b s
  | .knot n d a => Sys2Proof.Machine.execKnot n d a s
  | .kfromv n d a => Sys2Proof.Machine.execKfromv n d a s
  | .vfromk n d a => Sys2Proof.Machine.execVfromk n d a s
  | .kpopc n d a => Sys2Proof.Machine.execKpopc n d a s
  | .movEFromCtl n d c => Sys2Proof.Machine.execMovEFromCtl n d c s
  | .movEToCtl n c x => Sys2Proof.Machine.execMovEToCtl n c x s
  | .mld n t l b f x g => Sys2Proof.Machine.execMld n t l b f x g s
  | .mma n c a f b g k => Sys2Proof.Machine.execMma n c a f b g k s
  | .mzero n c k => Sys2Proof.Machine.execMzero n c k s
  | .mmaj n c a f b g k x => Sys2Proof.Machine.execMmaj n c a f b g k x s
  | .mmas n c a f b g k x => Sys2Proof.Machine.execMmas n c a f b g k x s
  | .mst n t l b c f => Sys2Proof.Machine.execMst n t l b c f s
  | .mmap n x => Sys2Proof.Machine.execMmap n x s
  | .pld n d a b => Sys2Proof.Machine.execPld n d a b s
  | .pldSet n d a => Sys2Proof.Machine.execPldSet n d a s
  | .pid n d a => Sys2Proof.Machine.execPid n d a s
  | .pst n d a => Sys2Proof.Machine.execPst n d a s
  | .pstSet n d a => Sys2Proof.Machine.execPstSet n d a s
  | .pmov n d a => Sys2Proof.Machine.execPmov n d a s
  | .prot n d a b => Sys2Proof.Machine.execProt n d a b s
  | .pcomp n d a b => Sys2Proof.Machine.execPcomp n d a b s
  | .pinv n d a => Sys2Proof.Machine.execPinv n d a s
  | .prand n d a b => Sys2Proof.Machine.execPrand n d a b s
  | .pcyc n d a b x => Sys2Proof.Machine.execPcyc n d a b x s
  | .peq n d a b => Sys2Proof.Machine.execPeq n d a b s
  | .papply n t l b im p => Sys2Proof.Machine.execPapply n t l b im p s
  | .xbegin d g l => Sys2Proof.Machine.execXbegin d g l s
  | .xend d => Sys2Proof.Machine.execXend d s
  | .xmit c r k t => Sys2Proof.Machine.execXmit c r k t s
  | .xsel c r k t => Sys2Proof.Machine.execXsel c r k t s
  | .sysr n x d => Sys2Proof.Machine.execSysr n x d s
  | .sysw n x d => Sys2Proof.Machine.execSysw n x d s
  | .spill n a => Sys2Proof.Machine.execSpill n a s
  | .fill n a => Sys2Proof.Machine.execFill n a s
  | .trap c => Sys2Proof.Machine.execTrap c s
  | .tret => Sys2Proof.Machine.execTret s
  | .stinv n k a => Sys2Proof.Machine.execStinv n k a s
  | .nop n => Sys2Proof.Machine.execNop n s
  | .loop n l c h => Sys2Proof.Machine.execLoop n l c h s
  | .loopQ n l h => Sys2Proof.Machine.execLoopQ n l h s
  | .loopr n c => Sys2Proof.Machine.execLoopr n c s
  | .looprQ n => Sys2Proof.Machine.execLooprQ n s
  | .ifence n => Sys2Proof.Machine.execIfence n s
  | .sleep n d x t => Sys2Proof.Machine.execSleep n d x t s
  | .brk c => Sys2Proof.Machine.execBrk c s
  | .halt n => Sys2Proof.Machine.execHalt n s
  | .getid n d x => Sys2Proof.Machine.execGetid n d x s
  | .tgt p x o => Sys2Proof.Machine.execTgt p x o s
  | .imm im => Sys2Proof.Machine.execImm im s
  | .live l => Sys2Proof.Machine.execLive l s
  | .jtab r l => Sys2Proof.Machine.execJtab r l s
  | .mod r x a t => Sys2Proof.Machine.execMod r x a t s
  | .sched p g => Sys2Proof.Machine.execSched p g s
  | .xt o => Sys2Proof.Machine.execXt o s
  | .fetch core str => Sys2Proof.Machine.execFetch core str s
  | .resultWriteback core str => Sys2Proof.Machine.execResultWriteback core str s
  | .puntyExpire core str idx => Sys2Proof.Machine.execPuntyExpire core str idx s
  | .refreshCycle core bank => Sys2Proof.Machine.execRefreshCycle core bank s
  | .trapEntry core str => Sys2Proof.Machine.execTrapEntry core str s
  | .eventDelivery core => Sys2Proof.Machine.execEventDelivery core s
  | .watchdog core => Sys2Proof.Machine.execWatchdog core s
  | .pairedSafePoint core => Sys2Proof.Machine.execPairedSafePoint core s
  | .preemptRequest core timeoutNs area ranges => Sys2Proof.Machine.execPreemptRequest core timeoutNs area ranges s
  | .preemptOverdue core => Sys2Proof.Machine.execPreemptOverdue core s
  | .contextSave core => Sys2Proof.Machine.execContextSave core s
  | .contextResume core target => Sys2Proof.Machine.execContextResume core target s
  | .coreKill core => Sys2Proof.Machine.execCoreKill core s
  | .sleepWake core => Sys2Proof.Machine.execSleepWake core s
  | .sleepTimeout core => Sys2Proof.Machine.execSleepTimeout core s
  | .sauStart tile => Sys2Proof.Machine.execSauStart tile s
  | .sauComplete core => Sys2Proof.Machine.execSauComplete core s
  | .vrepDispatch core => Sys2Proof.Machine.execVrepDispatch core s
  | .mldFill core => Sys2Proof.Machine.execMldFill core s
  | .globalStreamRow core id => Sys2Proof.Machine.execGlobalStreamRow core id s
  | .multiplyStart core => Sys2Proof.Machine.execMultiplyStart core s
  | .multiplyComplete core => Sys2Proof.Machine.execMultiplyComplete core s
  | .mstRowSend core => Sys2Proof.Machine.execMstRowSend core s
  | .mmajJoin tile => Sys2Proof.Machine.execMmajJoin tile s
  | .mmajJoinTimeout tile => Sys2Proof.Machine.execMmajJoinTimeout tile s
  | .rotJoin tile => Sys2Proof.Machine.execRotJoin tile s
  | .rotJoinTimeout tile => Sys2Proof.Machine.execRotJoinTimeout tile s
  | .solveStart tile => Sys2Proof.Machine.execSolveStart tile s
  | .solveComplete tile => Sys2Proof.Machine.execSolveComplete tile s
  | .pointsApplication core id => Sys2Proof.Machine.execPointsApplication core id s
  | .engineGranule core id => Sys2Proof.Machine.execEngineGranule core id s
  | .tokenStatusWrite core id => Sys2Proof.Machine.execTokenStatusWrite core id s
  | .routerHop pkt => Sys2Proof.Machine.execRouterHop pkt s
  | .occupancyUpdate => Sys2Proof.Machine.execOccupancyUpdate s
  | .packetArrival pkt => Sys2Proof.Machine.execPacketArrival pkt s
  | .reorderResend pkt => Sys2Proof.Machine.execReorderResend pkt s
  | .remapNack pkt => Sys2Proof.Machine.execRemapNack pkt s
  | .depositArrival pkt => Sys2Proof.Machine.execDepositArrival pkt s
  | .depositLatchTimeout core => Sys2Proof.Machine.execDepositLatchTimeout core s
  | .busyResend pkt => Sys2Proof.Machine.execBusyResend pkt s
  | .retryDepositResend pkt => Sys2Proof.Machine.execRetryDepositResend pkt s
  | .deviceDepositLand core => Sys2Proof.Machine.execDeviceDepositLand core s
  | .notifyArrival pkt => Sys2Proof.Machine.execNotifyArrival pkt s
  | .combine pkt => Sys2Proof.Machine.execCombine pkt s
  | .reduceResultLand asid grp tag => Sys2Proof.Machine.execReduceResultLand asid grp tag s
  | .combinePark asid grp tag => Sys2Proof.Machine.execCombinePark asid grp tag s
  | .translationRequest core id => Sys2Proof.Machine.execTranslationRequest core id s
  | .pageWalk core id => Sys2Proof.Machine.execPageWalk core id s
  | .faultRetry core id => Sys2Proof.Machine.execFaultRetry core id s
  | .faultDecline core id => Sys2Proof.Machine.execFaultDecline core id s
  | .amoHome core id => Sys2Proof.Machine.execAmoHome core id s
  | .releasePerformed core id => Sys2Proof.Machine.execReleasePerformed core id s
  | .acquireComplete core id => Sys2Proof.Machine.execAcquireComplete core id s
  | .stationInvalidate kind operand => Sys2Proof.Machine.execStationInvalidate kind operand s
  | .barrierArrival core => Sys2Proof.Machine.execBarrierArrival core s
  | .barrierWithdrawal core => Sys2Proof.Machine.execBarrierWithdrawal core s
  | .groupAbort asid grp => Sys2Proof.Machine.execGroupAbort asid grp s
  | .exchangeJoin asid grp => Sys2Proof.Machine.execExchangeJoin asid grp s
  | .exchangeJoinTimeout asid grp => Sys2Proof.Machine.execExchangeJoinTimeout asid grp s
  | .phaseEnd asid grp => Sys2Proof.Machine.execPhaseEnd asid grp s
  | .gangJoin core => Sys2Proof.Machine.execGangJoin core s
  | .gangJoinTimeout core => Sys2Proof.Machine.execGangJoinTimeout core s
  | .taskHandover asid grp => Sys2Proof.Machine.execTaskHandover asid grp s
  | .domainDrain asid grp => Sys2Proof.Machine.execDomainDrain asid grp s
  | .taskReady asid grp rec => Sys2Proof.Machine.execTaskReady asid grp rec s
  | .prodGrant asid grp ring => Sys2Proof.Machine.execProdGrant asid grp ring s
  | .consGrant asid grp ring => Sys2Proof.Machine.execConsGrant asid grp ring s
  | .shunterInterval asid grp => Sys2Proof.Machine.execShunterInterval asid grp s
  | .stageSwitch core => Sys2Proof.Machine.execStageSwitch core s
  | .distributorServe core id => Sys2Proof.Machine.execDistributorServe core id s
  | .censusInterval => Sys2Proof.Machine.execCensusInterval s
  | .recastCommit tile => Sys2Proof.Machine.execRecastCommit tile s
  | .recastOrder die donor target => Sys2Proof.Machine.execRecastOrder die donor target s
  | .censusPolicyWrite offset value => Sys2Proof.Machine.execCensusPolicyWrite offset value s
  | .censusRequest core id => Sys2Proof.Machine.execCensusRequest core id s
  | .leaseExpiry asid slot => Sys2Proof.Machine.execLeaseExpiry asid slot s
  | .expiringNotice asid slot => Sys2Proof.Machine.execExpiringNotice asid slot s
  | .pageEvacuation tile => Sys2Proof.Machine.execPageEvacuation tile s
  | .relayDrainDeadline tile => Sys2Proof.Machine.execRelayDrainDeadline tile s
  | .annealComplete tile => Sys2Proof.Machine.execAnnealComplete tile s
  | .scoreArrival scope => Sys2Proof.Machine.execScoreArrival scope s
  | .allowanceStop core => Sys2Proof.Machine.execAllowanceStop core s
  | .roundEnd scope => Sys2Proof.Machine.execRoundEnd scope s
  | .roundStart scope => Sys2Proof.Machine.execRoundStart scope s
  | .scopeAbort scope => Sys2Proof.Machine.execScopeAbort scope s
  | .queueWake q => Sys2Proof.Machine.execQueueWake q s
  | .packetFetch q => Sys2Proof.Machine.execPacketFetch q s
  | .launchPacket q idx => Sys2Proof.Machine.execLaunchPacket q idx s
  | .copyPacket q idx => Sys2Proof.Machine.execCopyPacket q idx s
  | .waitPacket q idx => Sys2Proof.Machine.execWaitPacket q idx s
  | .waitPoll q idx => Sys2Proof.Machine.execWaitPoll q idx s
  | .waitTimeout q idx => Sys2Proof.Machine.execWaitTimeout q idx s
  | .signalPacket q idx => Sys2Proof.Machine.execSignalPacket q idx s
  | .indirectPacket q idx => Sys2Proof.Machine.execIndirectPacket q idx s
  | .loopPacket q idx => Sys2Proof.Machine.execLoopPacket q idx s
  | .fetchFencePacket q idx => Sys2Proof.Machine.execFetchFencePacket q idx s
  | .tourneyPacket q idx => Sys2Proof.Machine.execTourneyPacket q idx s
  | .leasePacket q idx => Sys2Proof.Machine.execLeasePacket q idx s
  | .resetQueuePacket q idx => Sys2Proof.Machine.execResetQueuePacket q idx s
  | .queueResetControl q => Sys2Proof.Machine.execQueueResetControl q s
  | .packetComplete q idx => Sys2Proof.Machine.execPacketComplete q idx s
  | .heartbeatSend => Sys2Proof.Machine.execHeartbeatSend s
  | .heartbeatMiss nb => Sys2Proof.Machine.execHeartbeatMiss nb s
  | .resetMessage sender target counter tag => Sys2Proof.Machine.execResetMessage sender target counter tag s
  | .hostWindowWrite port addr data => Sys2Proof.Machine.execHostWindowWrite port addr data s
  | .hostWindowRead port addr len => Sys2Proof.Machine.execHostWindowRead port addr len s
  | .hostLinkTrain port rate width => Sys2Proof.Machine.execHostLinkTrain port rate width s
  | .linkFlitRetry port => Sys2Proof.Machine.execLinkFlitRetry port s
  | .scaleupLinkDown port => Sys2Proof.Machine.execScaleupLinkDown port s
  | .linkRetrain port => Sys2Proof.Machine.execLinkRetrain port s
  | .scrub station => Sys2Proof.Machine.execScrub station s
  | .pmodeWrite value => Sys2Proof.Machine.execPmodeWrite value s
  | .modeSwitchRestart => Sys2Proof.Machine.execModeSwitchRestart s
  | .powerLimitExceeded => Sys2Proof.Machine.execPowerLimitExceeded s
  | .powerCapRelease => Sys2Proof.Machine.execPowerCapRelease s
  | .firmwareImage image => Sys2Proof.Machine.execFirmwareImage image s
  | .flashWriteInterrupted => Sys2Proof.Machine.execFlashWriteInterrupted s
  | .attestationRequest nonce peer => Sys2Proof.Machine.execAttestationRequest nonce peer s
  | .deviceReset => Sys2Proof.Machine.execDeviceReset s
  | .swzWrite core idx value => Sys2Proof.Machine.execSwzWrite core idx value s
  | .fpctlWrite core value => Sys2Proof.Machine.execFpctlWrite core value s
  | .fpctlRead core str dst => Sys2Proof.Machine.execFpctlRead core str dst s
  | .srseedWrite core value => Sys2Proof.Machine.execSrseedWrite core value s
  | .winWrite core str value => Sys2Proof.Machine.execWinWrite core str value s
  | .registerWrite core reg value => Sys2Proof.Machine.execRegisterWrite core reg value s
  | .cxlSnoop port addr => Sys2Proof.Machine.execCxlSnoop port addr s
  | .siteEviction core => Sys2Proof.Machine.execSiteEviction core s
  | .softError site multi => Sys2Proof.Machine.execSoftError site multi s
  | .kernelHartAccess hart op => Sys2Proof.Machine.execKernelHartAccess hart op s

end Sys2Proof.Machine
end

