-- ==== Sys2Proof/Machine/Step.lean ====
section
/-!
DEFINITION. One step of the module, and how the next word to be issued is put in its place.
-/

namespace Sys2Proof.Machine

/-- One step: the next move of the agenda, or, when it is empty, the moving stream's next word in the default course. -/
def step (s : State) : Host.Outcome State Fault Refusal := stepWith exec s

/-- The stream that issues a word: the E-stream for a word of that stream alone. -/
def streamFor (w : Insn) : Strm :=
  match decode w with
  | .ok i => if (form i).inE && !(form i).inA then .e else .a
  | _ => .a

/-- A stream that can issue at once the word at its next address: it neither waits, nor is stopped or parked, nor holds other words. -/
def Seq.open_ (q : Seq) : Seq :=
  { q with
    pc := if q.pc.toNat % 4 = 0 ∧ q.pc.toNat < Config.ulmBytes then q.pc else 0
    hints := []
    buf := []
    tbuf := []
    fwd := []
    halted := false
    stopped := false
    stopNext := false
    parked := false
    waiting := false
    qstall := false
    drain := false
    safeAt := none
    tried := false
    jx := false
    due := [] }

/-- The state in which the very next step issues the word w: the current core runs, its stream of that word is open, nothing stands before the
word, and the word lies at the stream's next address in its ULM. -/
def State.withFetchWord (s : State) (nbits w : Nat) : State :=
  let word := BitVec.ofNat 32 (w % 2 ^ nbits)
  let st := streamFor word
  let c := s.core s.cur
  let q := (c.seq st).open_
  let c := { c.setSeq st q with
    run := .running
    runnerAt := none
    roundStop := false
    task := match c.task with
      | some t => if 262144 < sidingUse t.siding t.remote then none else some t
      | none => none
    gang := if c.follower || s.fwdFull s.cur st then none else c.gang
    wait := if st = Strm.a then none else c.wait
    join := if st = Strm.e then none else c.join
    xph := if st = Strm.e then none else c.xph }
  let c := if ((s.setCore s.cur c).failContestant s.cur).isSome then { c with scope := (0, 0) } else c
  let c := c.landUlm q.pc.toNat (toBytes 4 word.toNat)
  let c := { c with
    ulmBad := c.ulmBad.filter fun w => !(c.ulmWords q.pc.toNat 4).contains w
    ulmChk := c.ulmChk.filter fun g => !(c.granules q.pc.toNat 4).contains g }
  let isl := { s.isl with busy := false }
  { s with cores := Store.set {} s.cores s.cur c, plan := [], strm := st, isl := isl }

end Sys2Proof.Machine
end

