-- ==== Sys2Proof/Safety.lean ====
section
/-!
DEFINITION. What counts as a safe run, and the conditions on a state and an instruction under which a word simply runs.
-/

namespace Sys2Proof.Machine

/-! ### Safe states and safe runs -/

/-- Global memory is in its canonical form: indexes rise strictly, and no listed location is without a version. -/
def State.memoryWf (s : State) : Bool := Memory.wf s.home

/-- The state after k steps, when none of them faults or is refused. -/
def State.after : Nat → State → Option State
  | 0, s => some s
  | k + 1, s =>
    match step s with
    | .next t => State.after k t
    | _ => none

/-- A run of k steps is safe: no step faults or is refused, and global memory is canonical after each. -/
def State.safeRun (k : Nat) (s : State) : Prop := ∀ j ≤ k, ∃ t, State.after j s = some t ∧ t.memoryWf = true

/-! ### A word that runs -/

/-- What the word at the moving stream's next address knows as it issues (R48). -/
def State.ctx (s : State) : Ctx := mkCtx s.cur s.strm s ((s.core s.cur).seq s.strm) (s.core s.cur).ctl.fpctl

/-- The moving core as the word's effect finds it: a TGT of the group has set the branch target (R48, R67). -/
def State.atIssue (s : State) : Core := (s.core s.cur).modSeq s.strm Seq.takeTgt

/-- What the word's selector needs before the effect: JQ a waiting outcome (R68), SP no live punty entry, and on the E-stream nothing
dispatched (R84, R177, R200, R238). -/
def Core.selectorBefore (c : Core) (st : Strm) (n : BitVec 3) : Bool :=
  (n != 3 || !(c.bits st).isEmpty) && (n != 7 || (!c.livePunty st && (st == .a || c.eSafe || c.wordRuns)))

/-- What the word's selector needs after the effect, in core c: JQ an outcome (R68), CALL a free slot, RET a resident slot (R91), JX a
table entry that is a target (R70). q0 is the stream before the effect. -/
def Core.selectorAfter (c : Core) (x : Ctx) (n : BitVec 3) (q0 : Seq) : Bool :=
  (n != 3 || !(c.bits x.st).isEmpty)
    && (n != 4 || (c.seq x.st).cur + 2 != (c.seq x.st).old)
    && (n != 5 || (c.seq x.st).depth == 0 || (c.seq x.st).cur != (c.seq x.st).old)
    && (n != 6 || (match jxM x q0 c with | .ok _ => true | .error _ => false))

/-- No register of the stream would make its reader trap (R94 to R96). -/
def Core.unharmed (c : Core) (st : Strm) : Bool := (c.seq st).expired.isEmpty && c.regBad.isEmpty

/-- Word i can issue and nothing takes its place: the stream issues (R60), no gang (R331) and no timetable (R311) has a say, the word is legal
(R53), no register would trap (R60, R94 to R96), its effect has not happened yet (R70), and its selector can be resolved over core c, in which its
effect leaves the moving core. -/
def State.runs (s : State) (i : Instr) (c : Core) : Bool :=
  s.canIssue && (s.core s.cur).gang.isNone && c.gang.isNone && c.run != .idle && s.inTimetable.isNone
    && (illegal s.strm (!(s.core s.cur).ctl.lvl) ((s.core s.cur).seq s.strm).hints i).isNone
    && (s.core s.cur).unharmed s.strm && !((s.core s.cur).seq s.strm).jx
    && (s.core s.cur).selectorBefore s.strm (selector i)
    && c.selectorAfter s.ctx (selector i) (s.atIssue.seq s.strm)

/-- Every register of the stream can be read at once: none is pending, in the punty buffer, expired or damaged, no late result is on its
way, no body is held, no word runs alone, and a short-lived result has room (R60, R94, R95, R96, R129, R195). -/
def Core.settled (c : Core) (st : Strm) : Bool :=
  (c.seq st).pend.isEmpty && (c.seq st).punty.isEmpty && (c.seq st).expired.isEmpty && (c.seq st).wb.isNone && c.regBad.isEmpty
    && c.vrep.isNone && c.fpRun.isNone && decide (c.puntyUse st < 8)

/-- What scalar register n of a stream reads as; register 0 reads 0 (R44, R89). -/
def Core.reg (c : Core) (st : Strm) (n : BitVec 5) : Word := if n = 0 then 0 else (c.main st ((c.seq st).home n)).setWidth 64

/-- What v register n reads as (R172). -/
def Core.vreg (c : Core) (n : BitVec 5) : Vec := c.main .e (600 + n.toNat)

/-- What mask register n reads as; k0 reads all ones (R172). -/
def Core.kreg (c : Core) (n : Nat) : Mask := (c.main .e (650 + n)).setWidth 128

/-- The physical register that scalar register n names now; 0 for register 0 (R89, R90). -/
def Core.homeOf (c : Core) (st : Strm) (n : BitVec 5) : Nat := if n = 0 then 0 else (c.seq st).home n

/-- The core once a word's result v is in the physical register h: in the main file, or in the punty buffer for a short-lived result; the
constants discard it (R44, R89, R95, R96). -/
def Core.result (c : Core) (x : Ctx) (h : Nat) (v : Vec) : Core :=
  if h = 0 ∨ h = 650 then c else if x.short then c.putShort x.st h v x.cycle else c.putHome x.st h v

/-- The core once a word's scalar result v is in register d of its stream. -/
def Core.resultX (c : Core) (x : Ctx) (d : BitVec 5) (v : Word) : Core := c.result x (c.homeOf x.st d) (v.setWidth 1024)

/-- The first source of a word: a register, or the oldest entry of the incoming data queue, which leaves it; none while the queue has no
entry ready (R64, R130). -/
def Core.source (c : Core) (st : Strm) (q : BitVec 2) (n : BitVec 5) : Option (Word × Core) :=
  if q.getLsbD 0 then
    match st, c.q.stq, c.q.ldq with
    | .a, some v :: r, _ => some (v, { c with q := { c.q with stq := r } })
    | .e, _, some v :: r => some (v, { c with q := { c.q with ldq := r } })
    | _, _, _ => none
  else some (c.reg st n, c)

/-- The core with an entry pushed into the stream's outgoing data queue: none while the queue is full; a push towards a halted stream is
discarded (R64, R65, R83). -/
def Core.push (c : Core) (st : Strm) (v : Option Word) : Option Core :=
  if (c.seq st.other).halted then some c
  else match st with
    | .a => if c.q.ldq.length < 16 then some { c with q := { c.q with ldq := c.q.ldq ++ [v] } } else none
    | .e => if c.q.stq.length < 16 then some { c with q := { c.q with stq := c.q.stq ++ [v] } } else none

/-- The core once a word's result v is delivered to its destination, register d or the outgoing data queue (R130). -/
def Core.delivered (c : Core) (x : Ctx) (q : BitVec 2) (d : BitVec 5) (v : Word) : Option Core :=
  if q.getLsbD 1 then c.push x.st (some v) else some (c.resultX x d v)

/-- What an issuing word's selector, end check and commit never touch: the stream without its sequencing state (R67, R68, R74, R78, R81, R91). -/
def Seq.data (q : Seq) : Seq :=
  { q with
    pc := 0
    lk := 0
    depth := 0
    loopDepth := 0
    loops := {}
    links := []
    cur := 0
    hints := []
    issued := 0
    buf := []
    tbuf := []
    safeAt := none
    tried := false
    jx := false
    live := 0
    stopped := false
    stopNext := false
    waiting := false
    qstall := false
    starved := false
    drain := false }

/-- The core without the sequencing state of stream st, the branch outcomes that it pops, the counts that every issue advances (R389, R406), and
the mark of a runner that a handler has taken from its wait (R345). -/
def Core.data (c : Core) (st : Strm) : Core :=
  { c.modSeq st Seq.data with
    runnerAt := none
    q := match st with
      | .a => { c.q with boqEA := [] }
      | .e => { c.q with boqAE := [] }
    ctl := { c.ctl with
      wdogCount := 0
      tshare := 0
      over_ := 0
      events := 0
      allowStop := false } }

/-- State t is state s2, in which a word's effect has happened, with the moving stream st of core n moved on and nothing else changed. -/
structure Stepped (s2 t : State) (n : Nat) (st : Strm) : Prop where
  /-- every other core stands as the effect left it -/
  others : ∀ m, m ≠ n → t.core m = s2.core m
  /-- so does everything outside the cores: global memory, tiles, network, stations, queues, island -/
  outside : { t with cores := [] } = { s2 with cores := [] }
  /-- so does the core, but for its sequencing state -/
  core : (t.core n).data st = (s2.core n).data st

/-! ### Where a word sends its stream -/

/-- The loop end check of a word at addr whose next address is next (R78), three levels deep: where the stream goes, and the depth that it keeps. -/
def Seq.afterLoops (q : Seq) (addr next : Word) : Word × Nat := ((endCheck q addr next 3).1, (endCheck q addr next 3).2.2.loopDepth)

/-- The selector takes its transfer, over core c in which the word's effect leaves the moving core; q0 is the stream before the effect (R68). -/
def Core.taken (c : Core) (x : Ctx) (n : BitVec 3) (q0 : Seq) : Bool :=
  match n.toNat with
  | 1 | 4 | 5 | 6 => true
  | 2 => (c.seq x.st).pred q0.brPred.toNat != (q0.brSense == 1)
  | 3 => (c.bits x.st).headD false
  | _ => false

/-- Where the transfer goes (R68, R70, R91): along the link, through the table of a JX, or to the branch target. -/
def Core.goesTo (c : Core) (x : Ctx) (n : BitVec 3) (q0 : Seq) : Word :=
  if n = 5 then (c.seq x.st).lk
  else if n = 6 then
    let (r, len) := x.jtab.getD (0, 0)
    BitVec.ofNat 64 (leNat (c.ulmBytes (q0.bt.toNat + 4 * Nat.min len.toNat (c.reg x.st r).toNat) 4))
  else q0.bt

/-- Where a word that goes on with its selector sends its stream (R67, R68, R70, R78, R80, R91): c is the moving core after the word's effect, t that
core after the word, and q0 the stream before the effect. -/
structure Goes (x : Ctx) (n : BitVec 3) (q0 : Seq) (c t : Core) : Prop where
  /-- a transfer that is taken goes to its target; of a JX, stated where the registers stand that its index is read from -/
  away : c.taken x n q0 = true → (n = 6 → c.settled x.st = true) → (t.seq x.st).pc = c.goesTo x n q0
  /-- else the stream goes on in sequence, by the end check of its loops -/
  on : c.taken x n q0 = false → ((t.seq x.st).pc, (t.seq x.st).loopDepth) = (c.seq x.st).afterLoops x.pc (x.pc + 4)
  /-- a transfer other than CALL and RET ends the loops that it leaves -/
  left : c.taken x n q0 = true → n ≠ 4 → n ≠ 5 → (t.seq x.st).loopDepth = (leaveLoops (c.seq x.st) (t.seq x.st).pc 3).loopDepth
  /-- CALL slides the window, keeps the link, and links behind itself -/
  call : n = 4 → (t.seq x.st).lk = x.pc + 4 ∧ (t.seq x.st).cur = (c.seq x.st).cur + 1 ∧ (t.seq x.st).depth = (c.seq x.st).depth + 1
    ∧ (t.seq x.st).links = Store.set 0 (c.seq x.st).links ((c.seq x.st).cur + 1).toNat (c.seq x.st).lk ∧ (t.seq x.st).loopDepth = (c.seq x.st).loopDepth
  /-- RET below the entry's depth slides it back -/
  ret : n = 5 → (c.seq x.st).depth ≠ 0 → (t.seq x.st).lk = Store.get 0 (c.seq x.st).links (c.seq x.st).cur.toNat
    ∧ (t.seq x.st).cur = (c.seq x.st).cur - 1 ∧ (t.seq x.st).depth = (c.seq x.st).depth - 1
  /-- every other selector leaves the window -/
  window : n ≠ 4 → (n ≠ 5 ∨ (c.seq x.st).depth = 0) → (t.seq x.st).lk = (c.seq x.st).lk ∧ (t.seq x.st).cur = (c.seq x.st).cur
    ∧ (t.seq x.st).depth = (c.seq x.st).depth ∧ (t.seq x.st).links = (c.seq x.st).links
  /-- JQ pops its outcome, and no other selector does -/
  bits : t.bits x.st = if n = 3 then (c.bits x.st).tail else c.bits x.st

end Sys2Proof.Machine
end

