-- ==== Sys2Proof/Certificates/Slice0/Obligations.lean ====
section
/-!
DEFINITION. The statements about the model, from the numbered rules of the spec, and the tables of effects that they name.
A table says, for the words of one shape, in which core the word's effect leaves the moving core; none where the word waits or traps instead.
-/

namespace Sys2Proof.Slice0

open Sys2Proof.Machine

/-! ### What the tables say of exec -/

/-- Every word of the table completes with the effect that the table gives, on a settled core, whenever its selector can be resolved:
the moving core is left as the table says, with its stream moved on as its selector says, and k says what else the word does to the module. -/
def Completes (k : State → State) (table : Ctx → Core → Instr → Option Core) : Prop :=
  ∀ (s : State) (i : Instr) (c : Core), (s.core s.cur).settled s.strm = true → table s.ctx s.atIssue i = some c → s.runs i c = true →
    ∃ t, exec i s = .next t ∧ Stepped (k (s.setCore s.cur c)) t s.cur s.strm
      ∧ Goes s.ctx (selector i) (s.atIssue.seq s.strm) c (t.core s.cur)

/-- Every word of the table completes with the effect on the module that the table gives, with its stream moved on as its selector says. -/
def Effects (table : State → Ctx → Core → Instr → Option State) : Prop :=
  ∀ (s : State) (i : Instr) (s2 : State), (s.core s.cur).settled s.strm = true → table s s.ctx s.atIssue i = some s2 →
    s.runs i (s2.core s.cur) = true → ∃ t, exec i s = .next t ∧ Stepped s2 t s.cur s.strm
      ∧ Goes s.ctx (selector i) (s.atIssue.seq s.strm) (s2.core s.cur) (t.core s.cur)

/-! ### Scalar integer words -/

/-- A result computed from the first source and the core from which it has been taken. -/
def fromSource (x : Ctx) (c : Core) (q : BitVec 2) (d a : BitVec 5) (f : Core → Word → Word) : Option Core :=
  match c.source x.st q a with
  | some (u, c1) => c1.delivered x q d (f c1 u)
  | none => none

/-- The integer words that deliver one result at once (R130 to R133, R136, R138 to R140). -/
def intWord (x : Ctx) (c : Core) : Instr → Option Core
  | .add _ d a b q => fromSource x c q d a fun c u => if x.sat then clamp64 (u.toInt + (c.reg x.st b).toInt) else u + c.reg x.st b
  | .sub _ d a b q => fromSource x c q d a fun c u => if x.sat then clamp64 (u.toInt - (c.reg x.st b).toInt) else u - c.reg x.st b
  | .and _ d a b q => fromSource x c q d a fun c u => u &&& c.reg x.st b
  | .or _ d a b q => fromSource x c q d a fun c u => u ||| c.reg x.st b
  | .xor _ d a b q => fromSource x c q d a fun c u => u ^^^ c.reg x.st b
  | .shl _ d a b q => fromSource x c q d a fun c u => u <<< ((c.reg x.st b).toNat % 64)
  | .shr _ d a b q => fromSource x c q d a fun c u => u >>> ((c.reg x.st b).toNat % 64)
  | .sha _ d a b q => fromSource x c q d a fun c u => u.sshiftRight ((c.reg x.st b).toNat % 64)
  | .min _ d a b q => fromSource x c q d a fun c u => if u.toInt < (c.reg x.st b).toInt then u else c.reg x.st b
  | .minZ64 _ d a b q => fromSource x c q d a fun c u => if u.toNat < (c.reg x.st b).toNat then u else c.reg x.st b
  | .max _ d a b q => fromSource x c q d a fun c u => if u.toInt < (c.reg x.st b).toInt then c.reg x.st b else u
  | .maxZ64 _ d a b q => fromSource x c q d a fun c u => if u.toNat < (c.reg x.st b).toNat then c.reg x.st b else u
  | .clz _ d a q => fromSource x c q d a fun _ u => clzW u
  | .popc _ d a q => fromSource x c q d a fun _ u => popcW u
  | .mov _ d a q => fromSource x c q d a fun _ u => u
  | .shlImm _ d a im q h => fromSource x c q d a fun _ u => u <<< (32 * h.toNat + im.toNat)
  | .shrImm _ d a im q h => fromSource x c q d a fun _ u => u >>> (32 * h.toNat + im.toNat)
  | .shaImm _ d a im q h => fromSource x c q d a fun _ u => u.sshiftRight (32 * h.toNat + im.toNat)
  | .sel _ d a b q p => fromSource x c q d a fun c u => if (c.seq x.st).pred p.toNat then u else c.reg x.st b
  | .mul _ d a b q => fromSource x c q d a fun c u => BitVec.ofNat 64 (u.toNat * (c.reg x.st b).toNat)
  | .mulh _ d a b q => fromSource x c q d a fun c u => BitVec.ofInt 64 (u.toInt * (c.reg x.st b).toInt / 2 ^ 64)
  | .mulhZ64 _ d a b q => fromSource x c q d a fun c u => BitVec.ofNat 64 (u.toNat * (c.reg x.st b).toNat / 2 ^ 64)
  | .bfx _ d a b => fromSource x c 0 d a fun c u => bfxS u (c.reg x.st b)
  | .bfxZ64 _ d a b => fromSource x c 0 d a fun c u => bfxZ u (c.reg x.st b)
  | .bfi _ d a b => fromSource x c 0 d a fun c u => bfiW (c.reg x.st d) u (c.reg x.st b)
  | .lea _ d a b k => fromSource x c 0 d a fun c u => u + c.reg x.st b <<< k.toNat
  | .geom _ d a k => fromSource x c 0 d a fun c u => geomW c.ctl.geo u.toNat k
  | .addImm _ d a im => fromSource x c 0 d a fun _ u => if x.sat then clamp64 (u.toInt + (immValue x im).toInt) else u + immValue x im
  | .andImm _ d a im => fromSource x c 0 d a fun _ u => u &&& immValue x im
  | .orImm _ d a im => fromSource x c 0 d a fun _ u => u ||| immValue x im
  | .xorImm _ d a im => fromSource x c 0 d a fun _ u => u ^^^ immValue x im
  | _ => none

/-- A late result: its register is pending, or its queue entry allocated, and the unit holds the value and the flags (R64, R129). -/
def lateFrom (x : Ctx) (c : Core) (q : BitVec 2) (d : BitVec 5) (v : Word) (fl : BitVec 5) : Option Core :=
  if q.getLsbD 1 then (c.push x.st none).map fun c1 => c1.modSeq x.st fun r => { r with wb := some ⟨1000, v, fl, false⟩ }
  else some ((c.modSeq x.st fun r => { r with wb := some ⟨c.homeOf x.st d, v, fl, x.short⟩ }).setPend x.st (c.homeOf x.st d))

/-- The words of the divider (R136): the quotient and the remainder truncate towards zero, a quotient by 0 is all ones, and a remainder by 0 is
the dividend. -/
def divWord (x : Ctx) (c : Core) (i : Instr) : Option Core :=
  let late (q : BitVec 2) (d a b : BitVec 5) (f : Word → Word → Word) : Option Core :=
    match c.source x.st q a with
    | some (u, c1) => lateFrom x c1 q d (f u (c1.reg x.st b)) 0
    | none => none
  match i with
  | .div _ d a b q => late q d a b fun u v => if v = 0 then BitVec.allOnes 64 else BitVec.ofInt 64 (u.toInt.tdiv v.toInt)
  | .divZ64 _ d a b q => late q d a b fun u v => if v = 0 then BitVec.allOnes 64 else BitVec.ofNat 64 (u.toNat / v.toNat)
  | .rem _ d a b q => late q d a b fun u v => if v = 0 then u else BitVec.ofInt 64 (u.toInt.tmod v.toInt)
  | .remZ64 _ d a b q => late q d a b fun u v => if v = 0 then u else BitVec.ofNat 64 (u.toNat % v.toNat)
  | _ => none

/-- RESULT_WRITEBACK is due for the moving stream (R129). -/
def dueResult (s : State) : State := s.post (.resultWriteback s.cur s.strm)

/-! ### Predicates and control registers -/

/-- The core with a bit pushed into the stream's outgoing branch-outcome queue (R66). -/
def pushedBit (c : Core) (st : Strm) (b : Bool) : Option Core :=
  if (c.seq st.other).halted then some c
  else match st with
    | .a => if c.q.boqAE.length < 32 then some { c with q := { c.q with boqAE := c.q.boqAE ++ [b] } } else none
    | .e => if c.q.boqEA.length < 32 then some { c with q := { c.q with boqEA := c.q.boqEA ++ [b] } } else none

/-- A comparison's outcome b is in predicate d, and pushed where the word asks (R66, R127, R137, R145). -/
def compared (x : Ctx) (c : Core) (d : BitVec 5) (push : BitVec 1) (b : Bool) : Option Core :=
  let c1 := c.modSeq x.st fun q => q.setPred d.toNat b
  if push = 1 then pushedBit c1 x.st b else some c1

/-- CMP (R137) and the words that move control registers (R135, R196). -/
def predWord (x : Ctx) (c : Core) : Instr → Option Core
  | .cmp _ d a b p im k =>
    let u := c.reg x.st a
    let v := if im = 1 then b.signExtend 64 else c.reg x.st b
    compared x c d p (match k.toNat with
      | 1 => u == v
      | 2 => u != v
      | 3 => decide (u.toInt < v.toInt)
      | 4 => decide (u.toInt ≤ v.toInt)
      | 5 => decide (u.toNat < v.toNat)
      | 6 => decide (u.toNat ≤ v.toNat)
      | _ => u &&& v != 0)
  | .movFromCtl _ d r => some (c.resultX x d ((c.seq x.st).readCtl r))
  | .movEFromCtl _ d r => some (c.resultX x d ((c.seq x.st).readCtl r))
  | .movToCtl _ r a => some (c.modSeq x.st fun q => q.writeCtl r (c.reg x.st a))
  | .movEToCtl _ r a => some (c.modSeq x.st fun q => q.writeCtl r (c.reg x.st a))
  | _ => none

/-! ### Scalar floating point -/

/-- The draws that a word reserves: none but zeros outside stochastic rounding (R117). -/
def drawn (x : Ctx) (c : Core) (n : Nat) : List (BitVec 32) × Core :=
  match x.mode with
  | .sr => ((rngDraws n c.ctl.srseed).2, { c with ctl := { c.ctl with srseed := (rngDraws n c.ctl.srseed).1 } })
  | _ => (List.replicate n 0, c)

/-- A word that draws waits for the generator while a body of the vector sequencer holds it (R117). -/
def canDraw (x : Ctx) (c : Core) : Bool := x.mode != .sr || !c.rngHeld

/-- With an enable set, a word that can raise an exception waits for every earlier operation (R120), an MST among them (R216). -/
def fpReady (x : Ctx) (c : Core) : Bool :=
  fpEnables x.fpctl == 0 || (c.sauq.isEmpty && c.sauFly.isEmpty && c.e.wb.isNone && !c.mstPending)

/-- The core with flags set, when none of them is enabled (R118, R120). -/
def flagged (x : Ctx) (c : Core) (fl : BitVec 5) : Option Core := if fl &&& fpEnables x.fpctl = 0 then some (c.orFlags fl x.cycle) else none

/-- The operand of a format in a register, under the subnormal policy (R115, R128). -/
def operand (x : Ctx) (f : BitVec 2) (v : Word) : Val := (Fmt.ofCode f).input (fpSub x.fpctl) (low (Fmt.ofCode f) v)

/-- A result rounded once, in a register (R115, R141). -/
def rounded (x : Ctx) (f : BitVec 2) (draw : BitVec 32) (r : Val × BitVec 5) : Nat × BitVec 5 := deliver x (Fmt.ofCode f) draw r

/-- A floating-point word of two sources, one rounding and one draw. -/
def flt2 (x : Ctx) (c : Core) (f q : BitVec 2) (d a b : BitVec 5) (op : Val → Val → Val × BitVec 5) : Option Core :=
  if canDraw x c = false then none
  else match c.source x.st q a with
  | some (u, c1) =>
    let (ds, c2) := drawn x c1 1
    let r := rounded x f (ds.headD 0) (op (operand x f u) (operand x f (c1.reg x.st b)))
    (flagged x c2 r.2).bind fun c3 => c3.delivered x q d (BitVec.ofNat 64 r.1)
  | none => none

/-- FMIN and FMAX: no rounding and no draw (R142). -/
def fltMin (x : Ctx) (c : Core) (less : Bool) (f q : BitVec 2) (d a b : BitVec 5) : Option Core :=
  match c.source x.st q a with
  | some (u, c1) =>
    let r := deliverExact x (Fmt.ofCode f) (Val.minMax less (operand x f u) (operand x f (c1.reg x.st b)))
    (flagged x c1 r.2).bind fun c3 => c3.delivered x q d (BitVec.ofNat 64 r.1)
  | none => none

/-- The floating-point words of the E-stream that deliver at once (R142, R143, R145 to R147). -/
def fltWord (x : Ctx) (c : Core) (i : Instr) : Option Core :=
  match i with
  | .fclass _ d a f => some (c.resultX x d (BitVec.ofNat 64 ((Fmt.ofCode f).classOf (low (Fmt.ofCode f) (c.reg x.st a)))))
  | _ =>
    if fpReady x c = false then none
    else match i with
      | .fadd _ d a b q f => flt2 x c f q d a b fun u v => Val.add (x.mode == .rdn) u v
      | .fsub _ d a b q f => flt2 x c f q d a b fun u v => Val.add (x.mode == .rdn) u v.negate
      | .fmul _ d a b q f => flt2 x c f q d a b fun u v => u.mul v
      | .fmin _ d a b q f => fltMin x c true f q d a b
      | .fmax _ d a b q f => fltMin x c false f q d a b
      | .fma _ d a b f =>
        if canDraw x c = false then none
        else
        let (ds, c2) := drawn x c 1
        let r := rounded x f (ds.headD 0)
          (Val.fma (x.mode == .rdn) (operand x f (c.reg x.st a)) (operand x f (c.reg x.st b)) (operand x f (c.reg x.st d)))
        (flagged x c2 r.2).map fun c3 => c3.resultX x d (BitVec.ofNat 64 r.1)
      | .fcmp _ d a b p f k =>
        let r := Val.cmp k.toNat (operand x f (c.reg x.st a)) (operand x f (c.reg x.st b))
        (flagged x c r.2).bind fun c3 => compared x c3 d p r.1
      | .fcvt _ d a sc dc =>
        let dst := Conv.ofCode dc
        let src := Conv.ofCode sc
        if dst.draws src && !canDraw x c then none
        else
        let (ds, c2) := if dst.draws src then drawn x c 1 else ([0], c)
        let r := dst.convert (fpSub x.fpctl) (src.value (fpSub x.fpctl) (c.reg x.st a).toNat) x.mode x.sat (ds.headD 0)
        (flagged x c2 r.2).map fun c3 => c3.resultX x d (dst.toReg r.1)
      | _ => none

/-- FDIV and FSQRT: late, with their flags set at completion, but at once and with a precise trap while an enable is set (R120, R144). -/
def fltLate (x : Ctx) (c : Core) (i : Instr) : Option Core :=
  let finish (c1 : Core) (q : BitVec 2) (d : BitVec 5) (r : Nat × BitVec 5) : Option Core :=
    if fpEnables x.fpctl ≠ 0 then (flagged x c1 r.2).bind fun c2 => c2.delivered x q d (BitVec.ofNat 64 r.1)
    else lateFrom x c1 q d (BitVec.ofNat 64 r.1) r.2
  if fpReady x c = false ∨ canDraw x c = false then none
  else match i with
    | .fdiv _ d a b q f =>
      match c.source x.st q a with
      | some (u, c1) =>
        let (ds, c2) := drawn x c1 1
        finish c2 q d (rounded x f (ds.headD 0) ((operand x f u).div (operand x f (c1.reg x.st b))))
      | none => none
    | .fsqrt _ d a q f =>
      match c.source x.st q a with
      | some (u, c1) =>
        let (ds, c2) := drawn x c1 1
        finish c2 q d (rounded x f (ds.headD 0) (operand x f u).sqrt)
      | none => none
    | _ => none

/-! ### ULM -/

/-- The address of an M-format word (R158). -/
def address (x : Ctx) (c : Core) (b : BitVec 5) (z : BitVec 2) (o : BitVec 11) : Word := c.reg x.st b + o.signExtend 64 <<< z.toNat

/-- n bytes at an aligned address of ULM can be read now: in range, behind no older write, and without error (R151, R158, R247). -/
def canRead (c : Core) (a : Word) (n : Nat) : Bool :=
  a.toNat % n == 0 && decide (a.toNat + n ≤ Config.ulmBytes) && !readBlocked c.cmds a.toNat n && (c.ulmError a.toNat n).isNone

/-- n bytes at an aligned address of ULM can be written now (R158, R247, R434). -/
def canWrite (c : Core) (a : Word) (n : Nat) : Bool :=
  a.toNat % n == 0 && decide (a.toNat + n ≤ Config.ulmBytes) && !writeBlocked c.cmds a.toNat n && (c.keepError a.toNat n).isNone

/-- The number that n bytes of ULM hold, little-endian (R10). -/
def readUlm (c : Core) (a : Word) (n : Nat) : Nat := leNat (c.ulmBytes a.toNat n)

/-- The core once the n low bytes of v stand in ULM (R10, R158). -/
def wroteUlm (c : Core) (a : Word) (n v : Nat) : Core := c.landUlm a.toNat (toBytes n v)

/-- The bit field that LDB and STB name: its first bit, and its width (R161). -/
def bitField (x : Ctx) (c : Core) (b w : BitVec 5) : Nat × Nat :=
  ((Store.get 0 c.ctl.b b.toNat).toNat, Nat.min (fieldOf (c.reg x.st w) 0 7) 64)

/-- The field lies in ULM (R161). -/
def fieldIn (f : Nat × Nat) : Bool := f.2 == 0 || decide (f.1 + f.2 ≤ 8 * Config.ulmBytes)

/-- The bit address after the word (R161). -/
def bitMoved (c : Core) (p : BitVec 1) (b : BitVec 5) (f : Nat × Nat) : Core :=
  if p = 1 then { c with ctl := { c.ctl with b := Store.set 0 c.ctl.b b.toNat (BitVec.ofNat 22 (f.1 + f.2)) } } else c

/-- Loads and stores of ULM, with a register or a queue (R157, R158), and bit fields (R161). -/
def memWord (x : Ctx) (c : Core) : Instr → Option Core
  | .ldS _ d b z o =>
    let a := address x c b z o
    if canRead c a (2 ^ z.toNat) then some (c.resultX x d (BitVec.ofInt 64 (sextNat (8 * 2 ^ z.toNat) (readUlm c a (2 ^ z.toNat))))) else none
  | .ldZ _ d b z o =>
    let a := address x c b z o
    if canRead c a (2 ^ z.toNat) then some (c.resultX x d (BitVec.ofNat 64 (readUlm c a (2 ^ z.toNat)))) else none
  | .st _ d b z o =>
    let a := address x c b z o
    if canWrite c a (2 ^ z.toNat) then some (wroteUlm c a (2 ^ z.toNat) (c.reg x.st d).toNat) else none
  | .ldq _ b z o =>
    let a := address x c b z o
    if canRead c a (2 ^ z.toNat) then c.push x.st (some (BitVec.ofNat 64 (readUlm c a (2 ^ z.toNat)))) else none
  | .stq _ b z o =>
    let a := address x c b z o
    if canWrite c a (2 ^ z.toNat) then (c.source x.st 1 0).map fun p => wroteUlm p.2 a (2 ^ z.toNat) p.1.toNat else none
  | .vldq _ b o =>
    let a := address x c b 3 o
    if canRead c a 128 then
      if c.e.halted then some c
      else if c.q.vldq.length < 8 then some { c with q := { c.q with vldq := c.q.vldq ++ [BitVec.ofNat 1024 (readUlm c a 128)] } }
      else none
    else none
  | .vstq _ b o =>
    let a := address x c b 3 o
    match c.q.vstq with
    | .row v :: r => if canWrite c a 128 then some (wroteUlm { c with q := { c.q with vstq := r } } a 128 v.toNat) else none
    | _ => none
  | .ldb _ d b w p =>
    let f := bitField x c b w
    let n := bitSpan f.1 f.2
    if fieldIn f && !readBlocked c.cmds (f.1 / 8) n && (c.ulmError (f.1 / 8) n).isNone then
      some (bitMoved (c.resultX x d (BitVec.ofNat 64 (leNat (c.ulmBytes (f.1 / 8) n) / 2 ^ (f.1 % 8) % 2 ^ f.2))) p b f)
    else none
  | .ldbS64 _ d b w p =>
    let f := bitField x c b w
    let n := bitSpan f.1 f.2
    if fieldIn f && !readBlocked c.cmds (f.1 / 8) n && (c.ulmError (f.1 / 8) n).isNone then
      some (bitMoved (c.resultX x d (BitVec.ofInt 64 (sextNat f.2 (leNat (c.ulmBytes (f.1 / 8) n) / 2 ^ (f.1 % 8) % 2 ^ f.2)))) p b f)
    else none
  | .stb _ b a w p =>
    let f := bitField x c b w
    let n := bitSpan f.1 f.2
    if fieldIn f && !writeBlocked c.cmds (f.1 / 8) n && (c.keepError (f.1 / 8) n).isNone then
      some (bitMoved (c.landUlm (f.1 / 8)
        (toBytes n (insertBits (leNat (c.ulmBytes (f.1 / 8) n)) (f.1 % 8) f.2 (c.reg x.st a).toNat))) p b f)
    else none
  | _ => none

/-- SPILL and FILL of the register stack (R92, R93): nothing moves when no slot is to be spilled, or none is free to be filled. -/
def stackWord (x : Ctx) (c : Core) : Instr → Option Core
  | .spill _ a =>
    let q := c.seq x.st
    if (c.reg x.st a).toNat % 8 ≠ 0 ∨ Config.ulmBytes < (c.reg x.st a).toNat + 136 then none
    else if q.old = q.cur then some c
    else if !writeBlocked c.cmds (c.reg x.st a).toNat 136 && (c.keepError (c.reg x.st a).toNat 136).isNone then
      some ((c.landUlm (c.reg x.st a).toNat (q.slotBytes q.old)).modSeq x.st fun r => { r with old := r.old + 1 })
    else none
  | .fill _ a =>
    let q := c.seq x.st
    if (c.reg x.st a).toNat % 8 ≠ 0 ∨ Config.ulmBytes < (c.reg x.st a).toNat + 136 then none
    else if q.old - 1 = q.cur + 1 then some c
    else if !readBlocked c.cmds (c.reg x.st a).toNat 136 && (c.ulmError (c.reg x.st a).toNat 136).isNone then
      let bs := c.ulmBytes (c.reg x.st a).toNat 136
      some ((c.fillSlot x.st (q.old - 1) bs).modSeq x.st fun r =>
        { r with links := Store.set 0 r.links (q.old - 1).toNat (BitVec.ofNat 64 (leNat (bs.drop 128))), old := q.old - 1 })
    else none
  | _ => none

/-! ### Message registers, counters and system registers -/

/-- The words that complete without waiting for anything outside the core: NOP, IFENCE, message registers and arrival counters (R86, R87, R98
to R104, R300). -/
def coreWord (x : Ctx) (c : Core) : Instr → Option Core
  | .nop _ => some c
  | .ifence _ => some (c.modSeq x.st fun q => { q with buf := [], tbuf := [] })
  | .take _ d m =>
    if c.msg.full.getLsbD m.toNat then
      some { c.resultX x d (c.msg.get m.toNat) with msg := { c.msg with full := c.msg.full &&& ~~~(1#16 <<< m.toNat) } }
    else none
  | .peek _ d m p =>
    some ((c.resultX x d (c.msg.get m.toNat)).modSeq x.st fun q => q.setPred p.toNat (c.msg.full.getLsbD m.toNat))
  | .waitm _ d a =>
    let mask := (c.reg x.st a).setWidth 16
    if mask = 0 then some (c.resultX x d (BitVec.allOnes 64))
    else match lowestBit (c.msg.full &&& mask) with
      | some j => some (c.resultX x d (BitVec.ofNat 64 j))
      | none => none
  | .putm _ m a => some { c with msg := c.msg.put m.toNat (c.reg x.st a) }
  | .waitn _ d r a =>
    if (c.msg.ctr r.toNat).toInt < ((c.reg x.st a).setWidth 32).toInt then none else some (c.resultX x d ((c.msg.ctr r.toNat).signExtend 64))
  | .setn _ r a => some { c with msg := c.msg.setCtr r.toNat ((c.reg x.st a).setWidth 32) }
  | .decn _ r a => some { c with msg := c.msg.setCtr r.toNat (c.msg.ctr r.toNat - (c.reg x.st a).setWidth 32) }
  | .ntake _ d => some { c.resultX x d (c.msg.notify.setWidth 64) with msg := { c.msg with notify := 0 } }
  | _ => none

/-! ### Vector words (R172 to R189, R196) -/

/-- What a vector word computes from its captured operands: the registers that it writes, the flags that it raises, and its passes. -/
structure Lanes where
  writes : List (Nat × Vec)
  flags : BitVec 5
  passes : Nat

/-- The SAU of the tile has work, so its next cycle is due (R175). -/
def dueSau (s : State) : State := if (s.core s.cur).sauq.isEmpty then s else s.soon (.sauStart (siteOf s.cur))

/-- A vector word dispatches: its operation joins the queue of 8, and its destinations are pending (R174). -/
def dispatched (x : Ctx) (c : Core) (r : Lanes) : Option Core :=
  if c.sauq.length < 8 then
    some (r.writes.foldl (fun c w => c.setPend .e w.1)
      { c with sauq := c.sauq ++ [⟨.result r.writes r.flags, r.passes, r.writes.map Prod.fst, x.short, x.prio, x.grp, false, false⟩] })
  else none

/-- Elements of width z, merged under mask k into v register d (R173). -/
def lanes (c : Core) (z : Nat) (d : BitVec 5) (k : BitVec 3) (f : Nat → Nat × BitVec 5) : Lanes :=
  let r := mapLanes (1024 / z) (c.kreg k.toNat) (lane z (if k = 0 then 0 else c.vreg d)) f
  { writes := [(600 + d.toNat, ofLanes z r.1)], flags := r.2, passes := 1 }

/-- Integer elements of two sources (R179). -/
def ints (c : Core) (d a b : BitVec 5) (k : BitVec 3) (w : BitVec 2) (f : Nat → Nat → Nat → Nat) : Lanes :=
  lanes c (laneWidth w) d k fun i => (f (laneWidth w) (lane (laneWidth w) (c.vreg a) i) (lane (laneWidth w) (c.vreg b) i), 0)

/-- Bytes of a 128-byte row (R196). -/
def bytes (c : Core) (d : BitVec 5) (k : BitVec 3) (v : Vec) : Lanes := lanes c 8 d k fun i => (lane 8 v i, 0)

/-- A result in scalar register d of the E-stream (R188, R196). -/
def toX (x : Ctx) (c : Core) (d : BitVec 5) (v : Nat) (fl : BitVec 5) : Lanes :=
  { writes := [(c.homeOf x.st d, BitVec.ofNat 1024 v)], flags := fl, passes := 1 }

/-- A result in mask register d (R185, R196). -/
def toK (d : BitVec 5) (v : Mask) : Lanes := { writes := [(650 + d.toNat, v.setWidth 1024)], flags := 0, passes := 1 }

/-- The active elements of a register, and the identity for the others (R188). -/
def reduced (c : Core) (z : Nat) (a : BitVec 5) (k : BitVec 3) (ident : Nat) : List Nat :=
  (List.range (1024 / z)).map fun i => if active (c.kreg k.toNat) (1024 / z) i then lane z (c.vreg a) i else ident

/-- The outcome of a comparison of n elements, in every mask bit of each (R185, R186). -/
def outcomes (c : Core) (n : Nat) (d : BitVec 5) (k : BitVec 3) (f : Nat → Bool × BitVec 5) : Lanes :=
  let r := (List.range n).map fun i => if active (c.kreg k.toNat) n i then f i else (false, 0)
  { toK d (ofBits fun j => (r.getD (j * n / 128) (false, 0)).1) with flags := r.foldl (fun acc p => acc ||| p.2) 0 }

/-- The vector words that raise no floating-point exception (R179, R185, R187, R188, R196). -/
def intLanes (x : Ctx) (c : Core) : Instr → Option Lanes
  | .vadd _ d a b k w => some (ints c d a b k w fun z u v => if x.sat then clampS z (sextNat z u + sextNat z v) else (u + v) % 2 ^ z)
  | .vsub _ d a b k w => some (ints c d a b k w fun z u v => if x.sat then clampS z (sextNat z u - sextNat z v) else toBits z ((u : Int) - v))
  | .vmul _ d a b k w => some (ints c d a b k w fun z u v => if x.sat then clampS z (sextNat z u * sextNat z v) else u * v % 2 ^ z)
  | .vmin _ d a b k w => some (ints c d a b k w fun z u v => if sextNat z u < sextNat z v then u else v)
  | .vmax _ d a b k w => some (ints c d a b k w fun z u v => if sextNat z u < sextNat z v then v else u)
  | .vshl _ d a b k w => some (ints c d a b k w fun z u v => if z ≤ v then 0 else u * 2 ^ v % 2 ^ z)
  | .vshr _ d a b k w => some (ints c d a b k w fun z u v => if z ≤ v then 0 else u / 2 ^ v)
  | .vsha _ d a b k w => some (ints c d a b k w fun z u v => toBits z (sextNat z u / (2 ^ Nat.min v (z - 1) : Nat)))
  | .vcmp _ d a b k f j w =>
    if f = 1 then none
    else
      let z := laneWidth w
      some (outcomes c (1024 / z) d k fun i =>
        let u := lane z (c.vreg a) i
        let v := lane z (c.vreg b) i
        ((match j.toNat with
          | 0 => u == v
          | 1 => decide (sextNat z u < sextNat z v)
          | 2 => decide (u < v)
          | _ => (u &&& v) != 0), 0))
  | .vperm _ d a b k w =>
    let z := laneWidth w
    some (lanes c z d k fun i =>
      let j := lane z (c.vreg b) i
      (if 1024 / z ≤ j then 0 else lane z (c.vreg a) j, 0))
  | .vziplo _ d a b k w =>
    let z := laneWidth w
    some (lanes c z d k fun i => (lane z (c.vreg (if i % 2 = 0 then a else b)) (i / 2), 0))
  | .vziphi _ d a b k w =>
    let z := laneWidth w
    some (lanes c z d k fun i => (lane z (c.vreg (if i % 2 = 0 then a else b)) (1024 / z / 2 + i / 2), 0))
  | .vunzipe _ d a b k w =>
    let z := laneWidth w
    let n := 1024 / z
    some (lanes c z d k fun i => (if i < n / 2 then lane z (c.vreg a) (2 * i) else lane z (c.vreg b) (2 * (i - n / 2)), 0))
  | .vunzipo _ d a b k w =>
    let z := laneWidth w
    let n := 1024 / z
    some (lanes c z d k fun i => (if i < n / 2 then lane z (c.vreg a) (2 * i + 1) else lane z (c.vreg b) (2 * (i - n / 2) + 1), 0))
  | .vrev _ d a k w =>
    let z := laneWidth w
    some (lanes c z d k fun i => (lane z (c.vreg a) (1024 / z - 1 - i), 0))
  | .vcompress _ d a k w =>
    let z := laneWidth w
    let n := 1024 / z
    some { writes := [(600 + d.toNat, ofLanes z (((List.range n).filter fun i => active (c.kreg k.toNat) n i).map (lane z (c.vreg a))))],
           flags := 0, passes := 1 }
  | .vradd _ d a k w =>
    let z := laneWidth w
    some (toX x c d (toBits 64 (sextNat z (treeReduce (fun _ u v => ((u + v) % 2 ^ z, 0)) 8 (reduced c z a k 0) []).1)) 0)
  | .vrmin _ d a k w =>
    let z := laneWidth w
    some (toX x c d (toBits 64 (sextNat z
      (treeReduce (fun _ u v => (if sextNat z u < sextNat z v then u else v, 0)) 8 (reduced c z a k (2 ^ (z - 1) - 1)) []).1)) 0)
  | .vrmax _ d a k w =>
    let z := laneWidth w
    some (toX x c d (toBits 64 (sextNat z
      (treeReduce (fun _ u v => (if sextNat z u < sextNat z v then v else u, 0)) 8 (reduced c z a k (2 ^ (z - 1))) []).1)) 0)
  | .vmov _ d a k => some (bytes c d k (c.vreg a))
  | .vbcast _ d a k w => some (lanes c (laneWidth w) d k fun _ => ((c.reg x.st a).toNat % 2 ^ laneWidth w, 0))
  | .vext _ d a b w =>
    let z := laneWidth w
    let i := (c.reg x.st b).toNat
    some (toX x c d (if 1024 / z ≤ i then 0 else lane z (c.vreg a) i) 0)
  | .vins _ d a b w =>
    let z := laneWidth w
    some { writes := [(600 + d.toNat, ofLanes z ((List.range (1024 / z)).map fun j =>
            if j = (c.reg x.st b).toNat then (c.reg x.st a).toNat % 2 ^ z else lane z (c.vreg d) j))],
           flags := 0, passes := 1 }
  | .vand _ d a b k => some (bytes c d k (c.vreg a &&& c.vreg b))
  | .vor _ d a b k => some (bytes c d k (c.vreg a ||| c.vreg b))
  | .vxor _ d a b k => some (bytes c d k (c.vreg a ^^^ c.vreg b))
  | .vandn _ d a b k => some (bytes c d k (c.vreg a &&& ~~~c.vreg b))
  | .vsel _ d a b k =>
    some { writes := [(600 + d.toNat, ofLanes 8 ((List.range 128).map fun i =>
            if (c.kreg k.toNat).getLsbD i then lane 8 (c.vreg a) i else lane 8 (c.vreg b) i))],
           flags := 0, passes := 1 }
  | .kand _ d a b => some (toK d (c.kreg a.toNat &&& c.kreg b.toNat))
  | .kor _ d a b => some (toK d (c.kreg a.toNat ||| c.kreg b.toNat))
  | .kxor _ d a b => some (toK d (c.kreg a.toNat ^^^ c.kreg b.toNat))
  | .knot _ d a => some (toK d (~~~c.kreg a.toNat))
  | .kfromv _ d a => some (toK d ((c.vreg a).setWidth 128))
  | .vfromk _ d a => some { writes := [(600 + d.toNat, (c.kreg a.toNat).setWidth 1024)], flags := 0, passes := 1 }
  | .kpopc _ d a => some (toX x c d ((List.range 128).countP fun i => (c.kreg a.toNat).getLsbD i) 0)
  | _ => none

/-- A vector word dispatches its operands and its result (R174); the two VMOV of the vector queues complete in the core (R196). -/
def vecWord (x : Ctx) (c : Core) (i : Instr) : Option Core :=
  if x.st = .a then none
  else match i with
    | .vmovFromVldq _ d =>
      if c.sauq.any SauOp.alone then none
      else match c.q.vldq with
      | v :: r => some ({ c with q := { c.q with vldq := r } }.result x (600 + d.toNat) v)
      | [] => none
    | .vmovToVstq _ a =>
      if c.sauq.any SauOp.alone then none
      else if c.a.halted then some c
      else if c.q.vstq.length < 8 then some { c with q := { c.q with vstq := c.q.vstq ++ [.row (c.vreg a)] } }
      else none
    | _ => (intLanes x c i).bind (dispatched x c)

/-! ### Vector floating point (R180 to R184, R186, R188, R189) -/

/-- The elements of a floating-point word of format f with n draws, and the core from which the draws have been taken (R117, R180). -/
def floats (x : Ctx) (c : Core) (f : BitVec 2) (d : BitVec 5) (k : BitVec 3) (g : BitVec 32 → Nat → Nat × BitVec 5) : Lanes × Core :=
  let z := (Fmt.ofCode f).width
  let (ds, c1) := drawn x c (1024 / z)
  (lanes c1 z d k fun i => g (ds.getD i 0) i, c1)

/-- Element i of v register n, in format f, under the subnormal policy (R115, R180). -/
def felt (x : Ctx) (c : Core) (f : BitVec 2) (n : BitVec 5) (i : Nat) : Val :=
  (Fmt.ofCode f).input (fpSub x.fpctl) (lane (Fmt.ofCode f).width (c.vreg n) i)

/-- What a floating-point vector word computes. -/
def fltLanes (x : Ctx) (c : Core) : Instr → Option (Lanes × Core)
  | .vfadd _ d a b k f => some (floats x c f d k fun r i => rounded x f r (Val.add (x.mode == .rdn) (felt x c f a i) (felt x c f b i)))
  | .vfsub _ d a b k f => some (floats x c f d k fun r i => rounded x f r (Val.add (x.mode == .rdn) (felt x c f a i) (felt x c f b i).negate))
  | .vfmul _ d a b k f => some (floats x c f d k fun r i => rounded x f r ((felt x c f a i).mul (felt x c f b i)))
  | .vfmin _ d a b k f => some (floats x c f d k fun _ i => deliverExact x (Fmt.ofCode f) (Val.minMax true (felt x c f a i) (felt x c f b i)))
  | .vfmax _ d a b k f => some (floats x c f d k fun _ i => deliverExact x (Fmt.ofCode f) (Val.minMax false (felt x c f a i) (felt x c f b i)))
  | .vfrcp _ d a k f => some (floats x c f d k fun r i => rounded x f r (felt x c f a i).rcp)
  | .vfrsq _ d a k f => some (floats x c f d k fun r i => rounded x f r (felt x c f a i).rsqrt)
  | .vfabs _ d a k f => some (floats x c f d k fun _ i => deliverExact x (Fmt.ofCode f) ((felt x c f a i).abs, sigFlag [felt x c f a i]))
  | .vfma _ d a b k f =>
    some (floats x c f d k fun r i => rounded x f r (Val.fma (x.mode == .rdn) (felt x c f a i) (felt x c f b i) (felt x c f d i)))
  | .vfms _ d a b k f =>
    some (floats x c f d k fun r i => rounded x f r (Val.fma (x.mode == .rdn) (felt x c f a i) (felt x c f b i) (felt x c f d i).negate))
  | .vfnma _ d a b k f =>
    some (floats x c f d k fun r i => rounded x f r (Val.fma (x.mode == .rdn) (felt x c f a i).negate (felt x c f b i) (felt x c f d i)))
  | .vfmaw _ d a b k f =>
    let (ds, c1) := drawn x c 64
    let old (i : Nat) : Nat := if i < 32 then lane 32 (c.vreg d) i else lane 32 (c.vreg (d + 1)) (i - 32)
    let e (n : BitVec 5) (i : Nat) : Val := (Fmt.ofCode f).input (fpSub x.fpctl) (lane 16 (c.vreg n) i)
    let r := mapLanes 64 (c.kreg k.toNat) old fun i =>
      deliver x .f32 (ds.getD i 0) (Val.fma (x.mode == .rdn) (e a i) (e b i) (Fmt.f32.input (fpSub x.fpctl) (old i)))
    some ({ writes := [(600 + d.toNat, ofLanes 32 (r.1.take 32)), (600 + (d + 1).toNat, ofLanes 32 (r.1.drop 32))],
            flags := r.2, passes := 2 }, c1)
  | .vscale _ d a b k cc f =>
    some (floats x c f d k fun r i =>
      laneScale x (Fmt.ofCode f) false r (lane (Fmt.ofCode f).width (c.vreg a) i) (lane 8 (c.vreg b) (i / (8 * 2 ^ cc.toNat))))
  | .vunscale _ d a b k cc f =>
    some (floats x c f d k fun r i =>
      laneScale x (Fmt.ofCode f) true r (lane (Fmt.ofCode f).width (c.vreg a) i) (lane 8 (c.vreg b) (i / (8 * 2 ^ cc.toNat))))
  | .vcmp _ d a b k f j w =>
    if f = 1 then some (outcomes c (1024 / (Fmt.ofCode w).width) d k fun i => Val.cmp (j.toNat + 1) (felt x c w a i) (felt x c w b i), c)
    else none
  | .vrfadd _ d a k f =>
    let z := (Fmt.ofCode f).width
    let (ds, c1) := drawn x c (1024 / z - 1)
    let r := treeReduce (fun r u v => rounded x f r (Val.add (x.mode == .rdn) ((Fmt.ofCode f).input (fpSub x.fpctl) u)
      ((Fmt.ofCode f).input (fpSub x.fpctl) v))) 8 (reduced c z a k ((Fmt.ofCode f).signed true 0)) ds
    some (toX x c d r.1 r.2, c1)
  | .vrfmin _ d a k f =>
    let z := (Fmt.ofCode f).width
    let (ds, c1) := drawn x c (1024 / z - 1)
    let r := treeReduce (fun _ u v => deliverExact x (Fmt.ofCode f) (Val.minMaxNode true ((Fmt.ofCode f).input (fpSub x.fpctl) u)
      ((Fmt.ofCode f).input (fpSub x.fpctl) v))) 8 (reduced c z a k ((Fmt.ofCode f).signed false (Fmt.ofCode f).infMag)) ds
    some (toX x c d r.1 r.2, c1)
  | .vrfmax _ d a k f =>
    let z := (Fmt.ofCode f).width
    let (ds, c1) := drawn x c (1024 / z - 1)
    let r := treeReduce (fun _ u v => deliverExact x (Fmt.ofCode f) (Val.minMaxNode false ((Fmt.ofCode f).input (fpSub x.fpctl) u)
      ((Fmt.ofCode f).input (fpSub x.fpctl) v))) 8 (reduced c z a k ((Fmt.ofCode f).signed true (Fmt.ofCode f).infMag)) ds
    some (toX x c d r.1 r.2, c1)
  | .vcvt _ d a cc k xx =>
    let n := vcvtCount cc xx
    let dst := Conv.ofCode xx
    let src := Conv.ofCode cc
    let group (r : BitVec 5) (g : Nat) : List Vec := (List.range g).map fun j => c.vreg (r + BitVec.ofNat 5 j)
    let (ds, c1) := if dst.draws src then drawn x c n else ([], c)
    let r := mapLanes n (c.kreg k.toNat) (elemOf dst (cvtWidth xx) (if k = 0 then [] else group d (vcvtGroup n xx))) fun i =>
      let v := src.value (fpSub x.fpctl) (elemOf src (cvtWidth cc) (group a (vcvtGroup n cc)) i)
      let o := dst.convert (fpSub x.fpctl) v x.mode x.sat (ds.getD i 0)
      (o.1, o.2 ||| sigFlag [v])
    some ({ writes := (groupOf dst (cvtWidth xx) r.1 (vcvtGroup n xx)).mapIdx fun j v => (600 + (d + BitVec.ofNat 5 j).toNat, v),
            flags := r.2, passes := Nat.max (vcvtGroup n cc) (vcvtGroup n xx) }, c1)
  | _ => none

/-- A floating-point vector word dispatches while no enable is set (R120, R174). -/
def fvecWord (x : Ctx) (c : Core) (i : Instr) : Option Core :=
  if x.st = .a ∨ fpEnables x.fpctl ≠ 0 ∨ canDraw x c = false then none
  else (fltLanes x c i).bind fun p => if x.short = true ∧ 1 < p.1.writes.length then none else dispatched x p.2 p.1

/-! ### The table-interpolation unit (R190 to R192) -/

/-- VTAB, which reads its table as it starts, and TLOAD and TCFG, which write theirs as they start, are dispatched (R190); VTAB here while no
enable is set (R120). -/
def tabWord (x : Ctx) (c : Core) (i : Instr) : Option Core :=
  let queued (c : Core) (dests : List Nat) (w : SauWork) : Option Core :=
    if c.sauq.length < 8 then
      some (dests.foldl (fun c h => c.setPend .e h) { c with sauq := c.sauq ++ [⟨w, 1, dests, x.short, x.prio, x.grp, false, false⟩] })
    else none
  if x.st = .a then none
  else match i with
    | .vtab _ d a b k f =>
      if fpEnables x.fpctl ≠ 0 ∨ canDraw x c = false then none
      else
        let (ds, c1) := drawn x c (1024 / (Fmt.ofCode f).width)
        queued c1 [600 + d.toNat]
          (.vtab (600 + d.toNat) f.toNat (c.vreg a) (if k = 0 then 0 else c.vreg d) (c.kreg k.toNat) b.toNat
            (x.rm.getD (x.fpctl.extractLsb' 0 3).toNat) (fpSub x.fpctl) x.sat ds)
    | .tload _ d a b => queued c [] (.tload d.toNat (b.toNat / 8) (b.toNat % 8) (c.vreg a))
    | .tcfg _ d a => queued c [] (.tcfg d.toNat ((c.reg x.st a).setWidth 12))
    | _ => none

/-- The operation that a word which can raise a floating-point exception dispatches, and the core with its draws taken (R120, R174). -/
def fpOp (x : Ctx) (c : Core) (i : Instr) : Option (SauOp × Core) :=
  if x.st = .a ∨ canDraw x c = false then none
  else match i with
    | .vtab _ d a b k f =>
      let (ds, c1) := drawn x c (1024 / (Fmt.ofCode f).width)
      some (⟨.vtab (600 + d.toNat) f.toNat (c.vreg a) (if k = 0 then 0 else c.vreg d) (c.kreg k.toNat) b.toNat
        (x.rm.getD (x.fpctl.extractLsb' 0 3).toNat) (fpSub x.fpctl) x.sat ds, 1, [600 + d.toNat], x.short, x.prio, x.grp, false, false⟩, c1)
    | _ => (fltLanes x c i).bind fun p =>
      if x.short = true ∧ 1 < p.1.writes.length then none
      else some (⟨.result p.1.writes p.1.flags, p.1.passes, p.1.writes.map Prod.fst, x.short, x.prio, x.grp, false, false⟩, p.2)

/-- The core once a word that has run alone delivers its results, short-lived or not, and sets its flags (R95, R118, R120). -/
def ranAlone (x : Ctx) (short : Bool) (c : Core) (ws : List (Nat × Vec)) (fl : BitVec 5) : Core :=
  ws.foldl (fun c w => if w.1 = 0 ∨ w.1 = 650 then c else if short then c.putShort .e w.1 w.2 x.cycle else c.putHome .e w.1 w.2)
    ({ c with fpRun := none }.orFlags fl x.cycle)

/-! ### VREP (R193 to R195) -/

/-- The body of n words after the word, as the stream fetches it, when every word of it is a legal body word in readable ULM (R194). -/
def bodyOf (x : Ctx) (c : Core) (n : Nat) : Option (List Insn) :=
  let at_ (j : Nat) : Nat := (x.pc + BitVec.ofNat 64 (4 + 4 * j)).toNat
  if (List.range n).all fun j => decide (at_ j + 4 ≤ Config.ulmBytes) && (c.ulmError (at_ j) 4).isNone
      && (bodyFault (!c.ctl.lvl) (c.fetchWord x.st (at_ j))).isNone
  then some ((List.range n).map fun j => c.fetchWord x.st (at_ j)) else none

/-- VREP: the body, the count v and FPCTL are handed to the vector sequencer; with count 0 nothing is (R193, R194). -/
def handedOver (x : Ctx) (c : Core) (n : Nat) (v : Word) : Option Core :=
  (bodyOf x c n).map fun ws =>
    if v = 0 then c
    else { c with vrep := some {
      body := ws
      at_ := x.pc
      start := c.e.groupStart
      count := v.toNat
      rep := 0
      idx := 0
      fpctl := c.ctl.fpctl
      cur := c.e.cur
      names := ws.flatMap fun w => bodyNames c.e (bodyInstr w)
      rng := x.mode == .sr && ws.any (fun w => bodyDraws (bodyInstr w))
      float := ws.any fun w => bodyFloats (bodyInstr w)
      held := false } }

/-- VREP_DISPATCH is due while a body is held (R195). -/
def dueVrep (s : State) : State := if (s.core s.cur).vrep.isSome then s.soon (.vrepDispatch s.cur) else s

/-- A loop of the current frame ends at the word or within its body of n words (R194). -/
def endsInBody (x : Ctx) (q : Seq) (n : Nat) : Bool :=
  (List.range q.loopDepth).any fun j =>
    (q.level j).frame == q.depth && decide (x.pc.toNat ≤ (q.level j).le.toNat)
      && decide ((q.level j).le.toNat < (x.pc + BitVec.ofNat 64 (4 + 4 * n)).toNat)

/-- The words that the body of a VREP takes. -/
def bodyLength : Instr → Nat
  | .vrep n _ => n.toNat + 1
  | .vrepQ n => n.toNat + 1
  | _ => 0

/-- VREP with a register or the data queue as its count. -/
def vrepWord (x : Ctx) (c : Core) (i : Instr) : Option Core :=
  if x.st = .a ∨ endsInBody x c.e (bodyLength i) = true then none
  else match i with
    | .vrep n e => handedOver x c (n.toNat + 1) (c.reg x.st e)
    | .vrepQ n =>
      match c.q.ldq with
      | some v :: r => handedOver x { c with q := { c.q with ldq := r } } (n.toNat + 1) v
      | _ => none
    | _ => none

/-! ### Hints (R47, R48, R49) -/

/-- The hint that a hint word adds to its group. -/
def hintOf : Instr → Option Hint
  | .tgt p x o => some (.tgt p x o)
  | .imm v => some (.imm v)
  | .live l => some (.live l)
  | .jtab r l => some (.jtab r l)
  | .mod r x a t => some (.mod r x a t)
  | .sched p g => some (.sched p g)
  | .xt o => some (.xt o)
  | _ => none

/-! ### Loops and selectors (R68, R74 to R80, R91) -/

/-- The body and the count of a loop word: LOOP names its body by its length, LOOPR takes the shadow range of the level (R75, R77). -/
def loopParts (x : Ctx) (c : Core) (i : Instr) : Option (Word × Word × Word × Core) :=
  let q := c.seq x.st
  let l := q.level q.loopDepth
  let body (hi lo : BitVec 5) : Word × Word := (x.pc + 4, x.pc + 4 + BitVec.ofNat 64 (4 * (32 * hi.toNat + lo.toNat)))
  let shadow : Bool := l.shLs.toNat % 4 == 0 && l.shLe.toNat % 4 == 0 && decide (l.shLs.toNat ≤ l.shLe.toNat)
    && decide (l.shLe.toNat + 4 ≤ Config.ulmBytes)
  match i with
  | .loop _ hi r lo => some ((body hi lo).1, (body hi lo).2, c.reg x.st r, c)
  | .loopQ _ hi lo => (c.source x.st 1 0).map fun p => ((body hi lo).1, (body hi lo).2, p.1, p.2)
  | .loopr _ r => if shadow then some (l.shLs, l.shLe, c.reg x.st r, c) else none
  | .looprQ _ => if shadow then (c.source x.st 1 0).map fun p => (l.shLs, l.shLe, p.1, p.2) else none
  | _ => none

/-- The body lies within the loop that holds it, when that loop was started in the same frame (R76). -/
def nested (q : Seq) (stop : Word) : Bool :=
  q.loopDepth == 0 || (q.level (q.loopDepth - 1)).frame != q.depth || decide (stop.toNat ≤ (q.level (q.loopDepth - 1)).le.toNat)

/-- Where a word that is no transfer of its own goes by its selector, outside loops (R68). -/
def selected (x : Ctx) (c : Core) (n : BitVec 3) (bt : Word) : Word :=
  let q := c.seq x.st
  match n.toNat with
  | 1 => bt
  | 2 => if q.pred q.brPred.toNat != (q.brSense == 1) then bt else x.pc + 4
  | 3 => if (c.bits x.st).headD false then bt else x.pc + 4
  | 4 => bt
  | 5 => q.lk
  | 6 =>
    let v := match x.jtab with
      | some (r, len) => Nat.min (c.reg x.st r).toNat len.toNat
      | none => 0
    BitVec.ofNat 64 (leNat (c.ulmBytes (bt + BitVec.ofNat 64 (4 * v)).toNat 4))
  | _ => x.pc + 4

/-! ### Traps (R403, R408, R410, R413, R414) -/

/-- Cause and code of TRAP and BRK, and where TRET resumes: after TRAP, at BRK (R410, R413). -/
def trapWord (x : Ctx) : Instr → Option (Nat × Word × Word)
  | .trap c => some (18, c.setWidth 64, x.pc + 4)
  | .brk c => some (17, c.setWidth 64, x.pc)
  | _ => none

/-- Where the state's word can raise a trap of its own: it issues, alone, and is legal. -/
def issuesAlone (s : State) (i : Instr) : Bool :=
  s.canIssue && (s.core s.cur).gang.isNone && s.inTimetable.isNone && !((s.core s.cur).seq s.strm).jx
    && (illegal s.strm (!(s.core s.cur).ctl.lvl) ((s.core s.cur).seq s.strm).hints i).isNone

/-! ### SLEEP and HALT (R88, R415) -/

/-- A pending event or pre-emption is taken at the safe point instead (R88, R411). -/
def takenInstead (c : Core) (n : BitVec 3) : Bool :=
  n == 7 && !c.ctl.ub && !c.ctl.sb && (c.preempt.isSome || (!c.ctl.lvl && c.eventReady))

/-- SLEEP returns its status: the wakes that ended it, with bit 0 when it never committed its entry (R88). -/
def sleepWord (x : Ctx) (c : Core) : Instr → Option Core
  | .sleep n d a _ =>
    let ends (v : Word) : Core :=
      { c with wait := none, msg := { c.msg with notify := c.msg.notify ||| c.msg.notifyLatch, notifyLatch := 0 } }.resultX x d v
    if takenInstead c n then none
    else match c.wait with
      | none =>
        let w := c.standingWakes (c.reg x.st a)
        if w = 0 then none else some (ends (w ||| 1))
      | some (.sleep ctl _ _ (some b)) => some (ends (b ||| c.standingWakes ctl))
      | some (.sleep ctl _ en none) =>
        let w := c.standingWakes ctl
        if w = 0 then none else some (ends (if en = .committed then w else w ||| 1))
      | _ => none
  | _ => none

/-- HALT stops its stream once the stream's commands are complete and their traps taken; what only that stream pops is emptied (R83, R415). In a
handler the other stream goes on (log entry 145). -/
def haltWord (x : Ctx) (c : Core) : Instr → Option Core
  | .halt _ =>
    let c1 : Core := if c.ctl.ub || c.ctl.sb then c.modSeq x.st.other fun q => { q with stopped := false, stopNext := false } else c
    if (c.cmds.any fun k => k.strm == x.st && k.detached == 0) || !(c.seq x.st).due.isEmpty || (x.st == .e && !c.eSafe) || (c.seq x.st.other).halted then none
    else some { c1.modSeq x.st (fun q => { q with halted := true }) with
      q := match x.st with
        | .a => { c.q with stq := [], vstq := [], boqEA := [] }
        | .e => { c.q with ldq := [], vldq := [], boqAE := [] } }
  | _ => none

/-! ### System registers (R107) -/

/-- SYSR, SYSW and GETID: what the register or the identity reads, and what the write leaves (R107, R117, R118, R156, R338). -/
def systemWord (s : State) (x : Ctx) (c : Core) : Instr → Option State
  | .sysr _ r d =>
    if (r = 0x100 ∧ x.st = .e ∧ c.flagsDone = false) ∨ (r = 0x101 ∧ c.rngHeld = true) then none
    else some (s.setCore x.core (c.resultX x d ((s.setCore x.core c).sysValue x.core x.st r)))
  | .sysw _ r d =>
    let v := c.reg x.st d
    if 0x210 ≤ r.toNat ∧ r.toNat ≤ 0x217 ∧ c.ulmQuiet = false then none
    else if r = 0x100 ∧ 4 < (v.extractLsb' 0 3).toNat then none
    else if r = 0x101 ∧ c.rngHeld = true then none
    else some (s.setCore x.core (c.sysPut x.st r v x.cycle))
  | .getid _ d k => some (s.setCore x.core (c.resultX x d ((s.setCore x.core c).idOf x.core k.toNat)))
  | _ => none

/-! ### Split-phase commands (R242 to R248) -/

/-- The command that a word starts: it takes a slot and scoreboard entries, its token is pending, and its operands are captured (R242, R244,
R246). None while a FENCE, an acquiring AMO or a PHASE holds its accesses back (R282, R284, R286), or a slot or an entry is missing. -/
def begun (s : State) (x : Ctx) (c : Core) (i : Instr) (k : Start) : Option State :=
  let cl := k.op.classes
  let new_ := (if k.rd.isSome then 1 else 0) + (if k.wr.isSome then 1 else 0)
  if (c.fences.any fun f => f.succ &&& cl != 0) || (cl &&& 0x1F != 0 && c.cmds.any Cmd.acquiring) || (cl != 0 && x.st == .e && c.inPhase)
      || (k.slot && decide (8 ≤ c.cmds.countP fun j => j.slot)) || decide (16 < c.entriesUsed + new_) then none
  else
    let home := c.homeOf x.st k.tok
    some { s.setCore x.core (Core.setPend { c with cmds := c.cmds ++ [{
      id := s.fresh
      strm := x.st
      word := (encode i).getD 0
      at_ := x.pc.setWidth 19
      tok := k.tok
      home := home
      slot := k.slot
      slotNo := if k.slot then c.freeSlot else 0
      op := k.op
      rd := k.rd
      wr := k.wr
      user := !c.ctl.lvl
      sided := c.committed }] } x.st home) with fresh := s.fresh + 1 }

/-- A word that only a core outside a committed task and outside a tournament may issue (R351, R395). -/
def outside (c : Core) : Bool := !c.committed && c.scope.1 == 0

/-! ### Copies and global words (R249 to R253, R268 to R270, R283, R284, R361) -/

/-- The command of a copy word (R251 to R253). -/
def copyStart (a : CopyArgs) (t : BitVec 5) (d q e : BitVec 1) (sc : BitVec 3) : Start :=
  let empty := a.rows == 0 || a.rowbytes == 0
  let entry := if empty then none else some (a.addr, a.addr + (a.rows - 1) * a.lstride + a.rowbytes)
  { tok := t
    op := .copy (d == 1) (q == 1) (e == 1) sc.toNat a.addr a.lstride a.rowbytes (if empty then 0 else a.rows) a.va a.gstride a.perm a.inv a.pm
      a.version
    rd := if d = 1 then entry else none
    wr := if d = 1 then none else entry }

/-- The operands of a copy are aligned and lie in ULM and in the virtual address space (R252). -/
def copyFits (a : CopyArgs) : Bool :=
  a.addr % 4 == 0 && a.rowbytes % 4 == 0 && a.lstride % 4 == 0 && a.va % 4 == 0 && a.gstride % 4 == 0
    && (a.rows == 0 || a.rowbytes == 0 || (decide (a.addr + (a.rows - 1) * a.lstride + a.rowbytes ≤ Config.ulmBytes)
      && decide (a.va + (a.rows - 1) * a.gstride + a.rowbytes ≤ 2 ^ 52)))

/-- A copy goes on with its acquire, or at once with its first granule, its release or its status (R253). -/
def copyGoes (s : State) (x : Ctx) (a : CopyArgs) (q e : BitVec 1) : State :=
  let s1 := if a.perm.isEmpty then s else s.capture x.core a.pm a.version
  let id := s.fresh - 1
  if q = 1 then s1.post (.acquireComplete x.core id)
  else if a.rows ≠ 0 ∧ a.rowbytes ≠ 0 then s1.post (.translationRequest x.core id)
  else if e = 1 then s1.post (.releasePerformed x.core id)
  else s1.endCmd x.core id 0 0 0

/-- A copy word. -/
def copyDone (s : State) (x : Ctx) (c : Core) (i : Instr) (t : BitVec 5) (d q e : BitVec 1) (sc : BitVec 3) (a : CopyArgs) : Option State :=
  if copyFits a then (begun s x c i (copyStart a t d q e sc)).map fun s1 => copyGoes s1 x a q e else none

/-- A command whose first access is to be translated (R259). -/
def translating (s : State) (x : Ctx) (c : Core) (i : Instr) (k : Start) : Option State :=
  (begun s x c i k).map fun s1 => s1.post (.translationRequest x.core s.fresh)

/-- The words that access global memory. -/
def globalWord (s : State) (x : Ctx) (c : Core) (i : Instr) : Option State :=
  match i with
  | .copy _ t l b d q e sc _ =>
    let u := c.reg x.st l
    copyDone s x c i t d q e sc ⟨fieldOf u 0 19, 0, fieldOf u 32 19, 1, vaOf (c.reg x.st b), 0, [], false, 0, 0⟩
  | .copy2 _ t l b d q e sc _ =>
    let u := c.reg x.st l
    let u1 := c.reg x.st (l + 1)
    copyDone s x c i t d q e sc
      ⟨fieldOf u 0 19, fieldOf u 32 19, fieldOf u1 0 19, fieldOf u1 32 16, vaOf (c.reg x.st b), vaOf (c.reg x.st (b + 1)), [], false, 0, 0⟩
  | .copyp _ t l b d q e sc _ =>
    let u := c.reg x.st l
    let u1 := c.reg x.st (l + 1)
    let p := c.points (fieldOf u1 32 3)
    if p.valid ∧ 4 ≤ fieldOf u1 0 8 ∧ fieldOf u1 0 8 ≤ 128 then
      copyDone s x c i t d q e sc ⟨fieldOf u 0 19, fieldOf u 32 19, fieldOf u1 0 8, p.n, vaOf (c.reg x.st b), vaOf (c.reg x.st (b + 1)), p.idx,
        u1.getLsbD 35, fieldOf u1 32 3, p.version⟩
    else none
  | .gld _ t b sg z _ =>
    let va := vaOf (c.reg x.st b)
    if va % 2 ^ z.toNat = 0 then translating s x c i { tok := t, op := .gld va z.toNat (sg == 0) } else none
  | .gst _ t r b z _ =>
    let va := vaOf (c.reg x.st b)
    if va % 2 ^ z.toNat = 0 then translating s x c i { tok := t, op := .gst va z.toNat (c.reg x.st r) } else none
  | .amo _ t r b o g sc =>
    let va := vaOf (c.reg x.st b)
    if outside c ∧ va % 8 = 0 then
      translating s x c i { tok := t, op := .amo o.toNat g.toNat sc.toNat va (c.reg x.st r) (if o = 7 then c.reg x.st (r + 1) else 0) }
    else none
  | .query _ t l b =>
    let u := c.reg x.st l
    let va := vaOf (c.reg x.st b)
    if outside c ∧ va % 64 = 0 ∧ fieldOf u 0 19 % 16 = 0 ∧ fieldOf u 0 19 + 16 ≤ Config.ulmBytes then
      translating s x c i { tok := t, op := .query va (fieldOf u 0 19) (fieldOf u 20 3) (fieldOf u 0 4) (u.getLsbD 23) false }
    else none
  | .queryM _ t l b =>
    let u := c.reg x.st l
    let va := vaOf (c.reg x.st b)
    if outside c ∧ va % 64 = 0 ∧ fieldOf u 0 4 ≠ 0 then
      translating s x c i { tok := t, op := .query va (fieldOf u 0 19) (fieldOf u 20 3) (fieldOf u 0 4) (u.getLsbD 23) true }
    else none
  | .fence _ sc o p n =>
    let f : FenceRec := ⟨s.fresh, sc.toNat, o.toNat, if o = 0 then 63 else p, if o = 0 then 63 else n, false⟩
    let s1 := s.setCore x.core { c with fences := c.fences ++ [f] }
    some ({ s1 with fresh := s.fresh + 1 }.post
      (if o = 1 then .acquireComplete x.core s.fresh else .releasePerformed x.core s.fresh))
  | .stinv _ k a => some ((s.setCore x.core c).invalidate k.toNat (c.reg x.st a))
  | _ => none

/-! ### Remote words and collectives (R168 to R170, R298 to R307) -/

/-- The local region of PUTR and GETR, its length, the remote address and the remote core, when they pass the checks of R169. -/
def remoteParts (x : Ctx) (c : Core) (l b : BitVec 5) : Option (Nat × Nat × Nat × Nat) :=
  let u := c.reg x.st l
  let v := c.reg x.st b
  let a := fieldOf u 0 19
  let n := fieldOf u 32 10
  let r := fieldOf v 0 19
  if n = 0 ∨ 512 < n ∨ n % 4 ≠ 0 ∨ a % 4 ≠ 0 ∨ r % 4 ≠ 0 ∨ Config.ulmBytes < a + n then none else some (a, n, r, fieldOf v 32 14)

/-- What a command sends to another core: the packet goes out once the command's source is read. -/
def sends (s : State) (x : Ctx) (c : Core) (i : Instr) (k : Start) (dst : Nat) (pay : Payload) : Option State :=
  (begun s x c i k).map fun s1 =>
    (s1.armCmd x.core s.fresh 1).remoteWrite ⟨x.core, dst, (s1.core x.core).asid, true, 0, pay, s.fresh, 0⟩

/-- The words that reach other cores through the network. -/
def remoteWord (s : State) (x : Ctx) (c : Core) (i : Instr) : Option State :=
  match i with
  | .putr _ t l b =>
    match remoteParts x c l b with
    | none => none
    | some (a, n, r, dst) =>
      if c.cmds.any (fun k => k.id == s.fresh) then none
      else (begun s x c i { tok := t, op := .putr a n dst r none, rd := some (a, a + n) }).map fun s1 =>
        let (num, s2) := s1.reserve x.core s.fresh dst
        let s3 := s2.modCmd x.core s.fresh fun k => { k with op := .putr a n dst r num }
        if c.engineBlocked s.fresh a n false then s3.postpone (.engineGranule x.core s.fresh)
        else match c.ulmError a n with
          | some (cause, _) =>
            (match num with
              | some m => s3.passNumber x.core dst m
              | none => s3).endCmd x.core s.fresh (if cause = 14 then -3 else -6) dst r
          | none =>
            let pkt : Send := ⟨x.core, dst, c.asid, true, 0, .write 0 r (c.ulmBytes a n) none, s.fresh, 0⟩
            if num.isSome then (s3.armCmd x.core s.fresh 1).sendAs pkt num else (s3.armCmd x.core s.fresh 1).remoteWrite pkt
  | .getr _ t l b =>
    match remoteParts x c l b with
    | none => none
    | some (a, n, r, dst) =>
      (begun s x c i { tok := t, op := .getr a n, wr := some (a, a + n) }).map fun s1 =>
        if Config.cores ≤ dst then s1.endCmd x.core s.fresh (-2) dst r
        else (s1.armCmd x.core s.fresh 1).send ⟨x.core, dst, (s1.core x.core).asid, false, 0, .read r n a, s.fresh, 0⟩
  | .deposit _ t r b y =>
    let v := c.reg x.st b
    sends s x c i { tok := t, op := .deposit } (fieldOf v 32 14) (.deposit (fieldOf v 0 4) (c.reg x.st r) (y == 1) false)
  | .notify _ t r b =>
    sends s x c i { tok := t, op := .notify } (fieldOf (c.reg x.st b) 32 14) (.notify ((c.reg x.st r).setWidth 32))
  | .mcast _ t l b y =>
    let u := c.reg x.st l
    let v := c.reg x.st b
    let a := fieldOf u 0 19
    let n := fieldOf u 32 10
    let d := fieldOf v 0 19
    let s0 := s.setCore x.core c
    if a % 4 ≠ 0 ∨ d % 4 ≠ 0 ∨ n % 4 ≠ 0 ∨ n = 0 ∨ 512 < n ∨ Config.ulmBytes < a + n ∨ Config.ulmBytes < d + n then none
    else match rankCores s0 c.asid (fieldOf v 20 8) (maskRanks (c.reg x.st (b + 1)) (fieldOf v 32 14)) with
      | .error _ => none
      | .ok all =>
        let me := s0.logicalOf x.core
        let dests := if y = 1 then all.filter fun p => p.2 != me else all
        let own := dests.any fun p => p.2 == me
        let post := if v.getLsbD 31 then some (fieldOf v 28 3) else none
        if c.cmds.any (fun k => k.id == s.fresh) then none
        else (begun s x c i
            { tok := t, op := .mcast a n d post [], rd := some (a, a + n), wr := if own then some (d, d + n) else none }).map fun s1 =>
          let (nums, s2) := s1.reserveAll x.core s.fresh dests
          let s3 := s2.modCmd x.core s.fresh fun k => { k with op := .mcast a n d post nums }
          if dests.isEmpty then s3.endCmd x.core s.fresh 1 0 0
          else if c.engineBlocked s.fresh a n false then s3.postpone (.engineGranule x.core s.fresh)
          else match c.ulmError a n with
            | some (cause, _) =>
              ((CmdOp.mcast a n d post nums).numbers.foldl (fun s p => s.passNumber x.core p.1 p.2) s3).endCmd x.core s.fresh
                (if cause = 14 then -3 else -6) 0 a
            | none => s3.multicast x.core s.fresh d post nums (c.ulmBytes a n)
  | .reduce _ t l b f o y =>
    let u := c.reg x.st l
    let v := c.reg x.st b
    let a := fieldOf u 0 19
    let n := fieldOf u 32 10
    let d := fieldOf v 0 19
    let e := redBytes o.toNat y.toNat
    let grp := fieldOf v 20 8
    let tag := fieldOf v 32 8
    let s0 := s.setCore x.core c
    let asid := c.asid.toNat
    if outside c = false ∨ a % e ≠ 0 ∨ d % e ≠ 0 ∨ n % e ≠ 0 ∨ n = 0 ∨ 512 < n ∨ Config.ulmBytes < a + n ∨ Config.ulmBytes < d + n
      ∨ readBlocked c.cmds a n = true ∨ (c.ulmError a n).isNone = false then none
    else match c.slotOf grp, s0.group asid grp with
      | some slot, some g =>
        let rank := gmemRank (c.gmem slot)
        let kept := s.red (redKey asid grp tag)
        let old := if kept.waiting = [] ∧ kept.ranks = [] then { kept with op := o.toNat, ty := y.toNat, len := n } else kept
        let red := { old with
          waiting := old.waiting ++ [(x.core, s.fresh, rank, f.toNat, d, if v.getLsbD 31 then some (fieldOf v 28 3) else none)] }
        (begun s x c i { tok := t, op := .reduce asid grp tag }).map fun s1 =>
          if red.ended ≠ 0 then s1.handOut asid grp tag red
          else (((s1.armCmd x.core s.fresh 1).setRed (redKey asid grp tag) red).send
            ⟨x.core, s1.binding g 0, c.asid, false, 0, .contrib asid grp tag o.toNat y.toNat n (c.ulmBytes a n) [rank], s.fresh, 0⟩).soon
              (.combinePark asid grp tag)
      | _, _ => none
  | .redabort _ t b =>
    let v := c.reg x.st b
    let grp := fieldOf v 20 8
    let tag := fieldOf v 32 8
    let asid := c.asid.toNat
    if outside c = false ∨ c.slotOf grp = none ∨ (s.setCore x.core c).group asid grp = none then none
    else (begun s x c i { tok := t, op := .redabort }).map fun s1 =>
      let red := s.red (redKey asid grp tag)
      if red.ended ≠ 0 then s1.endCmd x.core s.fresh (-9) 0 0 else (s1.endRed asid grp tag 2 red).endCmd x.core s.fresh 0 0 0
  | .rot _ t a l d =>
    let u := c.reg x.st a
    let v := c.reg x.st l
    if u.toNat % 128 ≠ 0 ∨ v.toNat % 128 ≠ 0 ∨ v = 0 ∨ Config.ulmBytes < u.toNat + v.toNat then none
    else (begun s x c i { tok := t, op := .rot u.toNat v.toNat d.toNat x.cycle, wr := some (u.toNat, u.toNat + v.toNat) }).map fun s1 =>
      (s1.soon (.rotJoin (siteOf x.core))).soon (.rotJoinTimeout (siteOf x.core))
  | _ => none

/-! ### Matrix words (R200 to R218) -/

/-- A word of the matrix slice has a place in its queue of 4 (R200). -/
def queueFree (c : Core) : Bool := decide (c.mat.queue.countP (fun e => !e.started) < 4)

/-- A latch or a scale array can be read: it is neither pending nor void (R200). -/
def latchOk (c : Core) (target : Nat) : Bool :=
  (Store.get 0 c.mat.latch (latchOf target) : BitVec 2) != 2 && (Store.get 0 c.mat.latch (latchOf target) : BitVec 2) != 3

/-- A multiply can read its A operand, and the B operand b of its own core: elements and scales (R200, R209). -/
def operandsOk (c : Core) (a : Nat) (b : Option Nat) : Bool :=
  latchOk c a && latchOk c (4 + a) && (match b with
    | some b => latchOk c (2 + b) && latchOk c (6 + b)
    | none => true)

/-- The core with a word at the end of the slice's queue. -/
def queuedMat (c : Core) (w : MatWord) : Core := { c with mat := { c.mat with queue := c.mat.queue ++ [⟨w, false⟩] } }

/-- The source rows of an MLD that passes the checks of R204: bytes of a row, bits of an element, and the addresses. -/
def loadRows (x : Ctx) (c : Core) (l b : BitVec 5) (f : BitVec 2) (tr : BitVec 1) (g : BitVec 4) : Option (Nat × Nat × List Nat) :=
  let u := c.reg x.st l
  let wbytes := (if fieldOf u 42 5 = 0 then 32 else fieldOf u 42 5) * 4
  let rows := fieldOf u 35 7
  let base := if f = 3 then vaOf (c.reg x.st b) else fieldOf u 0 19
  let stride := if f = 3 then fieldOf u 0 35 else fieldOf u 20 15
  let wbits := if tr = 1 then 16 / 2 ^ fieldOf u 56 2 else 8
  let count := if tr = 1 then wbytes * 8 / wbits else rows
  let bytes := if tr = 1 then rows * wbits / 8 else wbytes
  let pick (r : Nat) : Nat :=
    if f = 1 then lane 16 (c.vreg b) r else if f = 2 then (c.points b.toNat).idx.getD ((fieldOf u 48 6 + r) % 64) 0 else r
  let addrs := (List.range count).map fun r => base + pick r * stride
  if rows = 0 ∨ capacity g.toNat < rows * wbytes ∨ ((f = 1 ∨ f = 2) ∧ 16 < rows) ∨ (tr = 1 ∧ (fieldOf u 56 2 = 3 ∨ rows * wbits % 32 ≠ 0))
      ∨ base % 4 ≠ 0 ∨ stride % 4 ≠ 0 ∨ (addrs.any fun a => a % 4 != 0) = true
      ∨ (f ≠ 3 ∧ (addrs.any fun a => decide (Config.ulmBytes < a + bytes)) = true) ∨ (f = 2 ∧ (c.points b.toNat).valid = false) then none
  else some (bytes, wbits, addrs)

/-- The words of the matrix slice. -/
def matrixWord (s : State) (x : Ctx) (c : Core) (i : Instr) : Option State :=
  let multiply (s1 : State) : State := s1.post (.multiplyStart x.core)
  if x.st = .a ∨ queueFree c = false then none
  else match i with
    | .mld _ t l b f tr g =>
      match loadRows x c l b f tr g with
      | none => none
      | some (bytes, wbits, rows) =>
        let enter (s1 : State) (w : MatWord) : State :=
          (s1.modCore x.core fun c => (queuedMat c w).setLatch g.toNat 2).post (.mldFill x.core)
        if f = 3 then
          let op : CmdOp := .mldStream g.toNat rows.length bytes (vaOf (c.reg x.st b)) (fieldOf (c.reg x.st l) 0 35) (tr == 1) wbits
          (begun s x c i { tok := t, op := op }).map fun s1 => enter s1 (.stream s.fresh g.toNat)
        else
          (begun s x c i { tok := 0, slot := false, op := .mldUlm, rd := some (hullOf rows bytes) }).map fun s1 =>
            enter s1 (.mld s.fresh g.toNat (tr == 1) bytes wbits rows)
    | .mma _ cc a f b g k =>
      if operandsOk c a.toNat (some b.toNat) then
        some (multiply (s.setCore x.core (queuedMat c (.mma cc.toNat a.toNat f.toNat b.toNat g.toNat 0 (c.kreg k.toNat) none))))
      else none
    | .mmas _ cc a f b g k n =>
      let keep := if n = 1 then 24 else 12
      let groups := 16 / codeWidth f.toNat
      if operandsOk c a.toNat (some b.toNat) ∧ latchOk c (8 + a.toNat)
          ∧ ((List.range 16).all fun r => (List.range groups).all fun j => metaOk keep (c.mat.metaWord a.toNat groups r j)) = true then
        some (multiply (s.setCore x.core (queuedMat c (.mma cc.toNat a.toNat f.toNat b.toNat g.toNat keep (c.kreg k.toNat) none))))
      else none
    | .mzero _ cc k => some (multiply (s.setCore x.core (queuedMat c (.mzero cc.toNat (c.kreg k.toNat)))))
    | .mmap _ r =>
      some (s.setCore x.core { c with mat := { c.mat with
        rowmap := (List.range 64).foldl (fun m j => Store.set 0xC000 m j (BitVec.ofNat 16 (lane 16 (c.vreg r) j))) c.mat.rowmap } })
    | .mst _ t l b cc f =>
      let u := c.reg x.st l
      let v := c.reg x.st b
      let addr := fieldOf u 0 19
      let stride := fieldOf u 20 15
      let cols := if fieldOf v 16 7 = 0 then 64 else Nat.min 64 (fieldOf v 16 7)
      let size := mstBytes f.toNat
      let me := (s.setCore x.core c).logicalOf x.core
      let goes (r : Nat) := rowDest c.mat.rowmap me (fieldOf v 0 6) r
      let own := ((List.range 16).filter fun r => goes r == some none).map fun r => addr + r * stride
      if addr % size ≠ 0 ∨ stride % size ≠ 0 ∨ Config.ulmBytes < addr + 15 * stride + cols * size ∨ fpEnables x.fpctl ≠ 0
          ∨ canDraw x c = false then none
      else
        let (ds, c1) := drawn x c 1024
        (begun s x c1 i { tok := t, op := .mst, wr := if own.isEmpty then none else some (hullOf own (cols * size)) }).map fun s1 =>
          ((s1.modCore x.core fun c => (queuedMat c (.mst s.fresh cc.toNat f.toNat addr stride cols (fieldOf v 0 6)
              (if v.getLsbD 11 then some (fieldOf v 8 3) else none) c1.mat.rowmap x.modeOf (fpSub x.fpctl) x.sat ds [] 0)).modCmd s.fresh
                fun k => { k with waitFor := (List.range 16).countP fun r => (goes r).isSome })).post (.mstRowSend x.core)
    | _ => none

/-- MMAJ after its join has been decided: the slice has taken the multiply, and the word completes (R211). -/
def joinedWord (s : State) (x : Ctx) (c : Core) (i : Instr) : Option State :=
  match i, c.join with
  | .mmaj .., some j => if j.result = some none then some ((s.setCore x.core { c with join := none }).post (.multiplyStart x.core)) else none
  | _, _ => none

/-! ### Points words (R220 to R237) -/

/-- A points register is written, with a new version, and a solve is requested where its settings are not known (R220, R225). -/
def loaded (s : State) (x : Ctx) (c : Core) (d : BitVec 5) (p : Points) (ask : Bool) : State :=
  let s1 := s.setCore x.core (c.setPoints d.toNat p)
  if ask then s1.askSolve x.core d.toNat else s1

/-- A points register of n rows, not yet solved: rows from n upward are fixed points (R221). -/
def rowsFrom (n : Nat) (f : Nat → Nat) : Points := ⟨true, n, (List.range 64).map fun i => if i < n then f i else i, false, 0, 0⟩

/-- The points words that take their turn at the points port: all but PAPPLY (R227). -/
def usesPort : Instr → Bool
  | .papply .. => false
  | _ => true

/-- The words of the points network. PST.set captures the version that stands, and waits at the port while it is not solved (R226). -/
def pointsWord (s : State) (x : Ctx) (c : Core) (i : Instr) : Option State :=
  let from1 (r : BitVec 5) : Nat := (c.reg x.st r).toNat
  let okRows (n : Nat) : Bool := decide (1 ≤ n) && decide (n ≤ 64)
  let p (r : BitVec 5) : Points := c.points r.toNat
  if x.st = .a ∨ (usesPort i = true ∧ c.port ≠ none) then none
  else match i with
    | .pld _ d a b =>
      let cand := (List.range 64).map fun j => lane 16 (c.vreg a) j
      if okRows (from1 b) ∧ ((List.range (from1 b)).all fun j => decide (cand.getD j 0 < from1 b)) = true ∧ (cand.take (from1 b)).Nodup then
        some (loaded s x c d (rowsFrom (from1 b) fun j => cand.getD j 0) true)
      else none
    | .pldSet _ d a =>
      let st : BitVec 352 := (c.vreg a).setWidth 352
      some (loaded s x c d ⟨true, 64, idxOf st, true, st, 0⟩ false)
    | .pid _ d a =>
      if 64 < from1 a then none
      else some (loaded s x c d (if from1 a = 0 then ⟨false, 0, List.replicate 64 0, false, 0, 0⟩
        else ⟨true, from1 a, List.range 64, true, 0, 0⟩) false)
    | .pmov _ d a => some (loaded s x c d (p a) ((p a).valid && !(p a).solved))
    | .prot _ d a b =>
      if okRows (from1 a) then some (loaded s x c d (rowsFrom (from1 a) fun j => (j + from1 b % from1 a) % from1 a) true) else none
    | .pcomp _ d a b =>
      if (p a).valid ∧ (p b).valid then
        some (loaded s x c d ⟨true, Nat.max (p a).n (p b).n, (List.range 64).map fun j => (p b).at ((p a).at j), false, 0, 0⟩ true)
      else none
    | .pinv _ d a =>
      if (p a).valid then some (loaded s x c d ⟨true, (p a).n, (List.range 64).map fun j => invRow (p a).idx j, false, 0, 0⟩ true) else none
    | .prand _ d a b =>
      if okRows (from1 a) then
        let r := shuffle (from1 a - 1) (if c.reg x.st b = 0 then 0x9E3779B97F4A7C15 else c.reg x.st b) (List.range 64)
        some (loaded s x (c.resultX x b r.1) d (rowsFrom (from1 a) fun j => r.2.getD j 0) true)
      else none
    | .pst _ d a => some (s.setCore x.core (c.result x (600 + d.toNat) (if (p a).valid then ofLanes 16 (p a).idx else 0)))
    | .pstSet _ d a =>
      if (p a).valid = false then none
      else if (p a).solved then some (s.setCore x.core (c.result x (600 + d.toNat) ((p a).settings.setWidth 1024)))
      else some ((s.setCore x.core (Core.setPend { c with port := some (d.toNat, a.toNat, (p a).version) } .e (600 + d.toNat))).capture x.core a.toNat
        (p a).version)
    | .pcyc _ d a b k =>
      if k = 5 ∨ (p a).valid then some (s.setCore x.core (c.resultX x d (BitVec.ofNat 64 (cycleFigure (p a) k.toNat (from1 b))))) else none
    | .peq _ d a b =>
      some (s.setCore x.core (c.modSeq x.st fun q => q.setPred d.toNat ((p a).valid && (p b).valid && (p a).idx == (p b).idx)))
    | .papply _ t l b im q =>
      let u := c.reg x.st l
      let v := c.reg x.st b
      let pm := c.points q.toNat
      let w := (if fieldOf u 42 5 = 0 then 32 else fieldOf u 42 5) * 4
      let hs := (pm.n - 1) * fieldOf u 20 15 + w
      let hd := (pm.n - 1) * fieldOf v 20 15 + w
      if pm.valid = false ∨ fieldOf u 0 19 % 4 ≠ 0 ∨ fieldOf u 20 15 % 4 ≠ 0 ∨ fieldOf v 0 19 % 4 ≠ 0 ∨ fieldOf v 20 15 % 4 ≠ 0
          ∨ Config.ulmBytes < fieldOf u 0 19 + hs ∨ Config.ulmBytes < fieldOf v 0 19 + hd then none
      else (begun s x c i {
          tok := t
          op := .papply q.toNat pm.version pm.n pm.idx (im == 1) (fieldOf u 0 19) (fieldOf u 20 15) (fieldOf v 0 19) (fieldOf v 20 15) w
          rd := some (fieldOf u 0 19, fieldOf u 0 19 + hs)
          wr := some (fieldOf v 0 19, fieldOf v 0 19 + hd) }).map fun s1 =>
        (s1.capture x.core q.toNat pm.version).post (.pointsApplication x.core s.fresh)
    | _ => none

/-! ### Barriers and gangs (R322, R326 to R333) -/

/-- A barrier word completes with the object's answer: the epoch of the slot advances, and a PHASE performs its acquire at the scope of its arrival,
once the releases before it have been performed (R276, R286, R322). -/
def barrierWord (s : State) (x : Ctx) (c : Core) (i : Instr) : Option State :=
  let ends (d : BitVec 5) (kind : Nat) : Option State :=
    match c.wait with
    | some (.barrier grp _ _ wide (some st) _) =>
      let s1 := s.setCore x.core ({ c.nextEpoch grp with wait := none }.resultX x d (BitVec.ofInt 64 st))
      if kind = 2 then (if c.releasing then none else some (s1.acquire x.core wide)) else some s1
    | _ => none
  match i with
  | .bar _ d _ => ends d 0
  | .barx _ d _ => ends d 1
  | .phase _ d _ _ => ends d 2
  | .ungang _ d => some (s.setCore x.core (c.resultX x d (BitVec.allOnes 64)))
  | _ => none

/-- A word that waits for the outside sends what it waits for, and stands (R81): a barrier word its arrival (R322), with the release of a
PHASE before it (R286); GANG its wish to join (R330); MMAJ its part of the join (R211). -/
def waitWord (s : State) (x : Ctx) (c : Core) (i : Instr) : Option State :=
  let arrives (g : BitVec 5) (kind scope : Nat) : Option State :=
    let grp := fieldOf (c.reg x.st g) 0 8
    match c.wait, c.slotOf grp, s.group c.asid.toNat grp with
    | none, some slot, some gr =>
      if c.committed ∨ (kind = 2 ∧ (c.cmds.any fun k => k.open_ && k.op.classes != 0) = true) then none
      else
        let wide := Nat.max scope (s.groupScope gr)
        let s1 := if kind = 2 then s.release x.core wide else s
        some ((s1.modCore x.core fun d => { d with wait := some (.barrier grp (gmemEpoch (c.gmem slot)) kind wide none false) }).post
          (.barrierArrival x.core))
    | _, _, _ => none
  match i with
  | .bar _ _ g => arrives g 0 0
  | .barx _ _ g => arrives g 1 0
  | .phase _ _ g sc => arrives g 2 sc.toNat
  | .gang _ r =>
    let code := fieldOf (c.reg x.st r) 0 2
    let size := 2 ^ code
    let ms := gangCores x.core size
    if c.wait = none ∧ code ≠ 0 ∧ s.gangFits x.core size = true
        ∧ ((ms.any fun m => (s.core m).ganging.isSome) || ms.all fun m => !(s.core m).absent c.asid && (s.core m).scope == c.scope) = true then
      some ((s.setCore x.core { c with wait := some (.gang size s.cycle false none) }).soon (.gangJoinTimeout x.core))
    else none
  | .mmaj _ cc a f b g k src =>
    if c.join = none ∧ queueFree c = true ∧ operandsOk c a.toNat (if src.toNat = x.core % 4 then some b.toNat else none) = true
        ∧ (s.joins (siteOf x.core) ≠ [] ∨ s.partnerAbsent (siteOf x.core) c.asid = false) then
      some (((s.setCore x.core { c with
          join := some ⟨src.toNat, cc.toNat, a.toNat, f.toNat, b.toNat, g.toNat, c.kreg k.toNat, s.cycle, none⟩ }).post
        (.mmajJoin (siteOf x.core))).post (.mmajJoinTimeout (siteOf x.core)))
    else none
  | _ => none

/-! ### Steps of the device: what a table of them says -/

/-- Every step of the table happens exactly as the table says, under the conditions that it names: it changes what the table changes, and
nothing else. -/
def Happens (table : State → Instr → Option State) : Prop :=
  ∀ (s : State) (i : Instr) (t : State), table s i = some t → exec i s = .next t

/-- The state, when b holds. -/
def onlyIf (b : Prop) [Decidable b] (t : State) : Option State := if b then some t else none

/-! ### The sequencers of a core -/

/-- A late result l arrives: its flags are set, and it stands in its queue entry, or in its register, which is no longer pending (R64, R95, R129). -/
def arrived (c : Core) (st : Strm) (l : Late) (cycle : Nat) : Core :=
  let c1 := (c.modSeq st fun r => { r with wb := none }).orFlags l.flags cycle
  if l.home = 1000 then c1.fillData st l.value
  else if l.short then (c1.clearPend st l.home).putShort st l.home (l.value.setWidth 1024) cycle
  else (c1.clearPend st l.home).putHome st l.home (l.value.setWidth 1024)

/-- A trap that a step of the device makes a stream take at its next word (R49, R410). -/
def trapAt (c : Core) (st : Strm) (cause sub : Nat) : TrapInfo :=
  { cause := cause, sub := sub, addr := 0, info := 0, word := (c.seq st).pc.setWidth 19, ret := (c.seq st).groupStart.setWidth 19,
    async := false, vrep := none }

/-- The steps of fetch, of late results, of the punty buffers and of the traps and events of a core. -/
def coreStep (s : State) : Instr → Option State
  | .fetch n st =>
    let c := s.core n
    let q := c.seq st
    let a := q.pc.toNat
    let block := List.range (4 - a % 16 / 4)
    -- an empty buffer, and no error in the block (R61, R151)
    onlyIf (c.run = .running ∧ q.halted = false ∧ c.follower = false ∧ a % 4 = 0 ∧ a < Config.ulmBytes ∧ q.buf = [] ∧ q.tbuf = []
        ∧ (block.all fun i => (c.ulmError (a + 4 * i) 4).isNone) = true)
      (s.setCore n (c.setSeq st { q with buf := block.map fun i => (a + 4 * i, BitVec.ofNat 32 (leNat (c.ulmBytes (a + 4 * i) 4))) }))
  | .resultWriteback n st =>
    match ((s.core n).seq st).wb with
    | some l => some (s.setCore n (arrived (s.core n) st l s.cycle))
    | none => none
  | .puntyExpire n st k =>
    match ((s.core n).seq st).punty[k]? with
    | some p =>
      onlyIf (p.born + 48 ≤ s.cycle) (s.setCore n ((s.core n).modSeq st fun q =>
        { q with punty := q.punty.filter (fun r => r.home != p.home), expired := q.expired ++ [p.home] }))
    | none => none
  | .refreshCycle _ _ => some s
  | .trapEntry n st =>
    let c := s.core n
    let q := c.seq st
    match q.due with
    | t :: r =>
      onlyIf (c.run = .running ∧ q.halted = false ∧ q.stopped = false ∧ (c.atBoundary st || c.atHalt st) = true
          ∧ (st = .e ∨ (c.atBarrier = false ∧ c.barDone = false ∧ c.atJoin = false)) ∧ (st = .a ∨ c.atXbegin = false))
        (takeTrap (s.setCore n (c.setSeq st { q with due := r })) n st
          { cause := t.cause, sub := t.sub, addr := t.addr, info := t.info, word := t.word,
            ret := t.ret.getD (q.groupStart.setWidth 19), async := t.vrep.isNone, vrep := t.vrep, ulm := t.ulm })
    | [] => none
  | .eventDelivery n =>
    let c := s.core n
    match c.a.safeAt, c.nextEvent with
    | some w, some e =>
      onlyIf (c.run = .running ∧ c.a.halted = false ∧ c.a.stopped = false ∧ c.ctl.lvl = false ∧ c.ctl.ub = false ∧ c.atBarrier = false ∧ c.barDone = false
          ∧ (c.a.parked = false ∨ c.idleRunner = true))
        (takeTrap (s.setCore n { c with ctl := { c.ctl with events := c.ctl.events &&& ~~~(1#4 <<< e) } }) n .a
          { cause := 48 + e, sub := 0, addr := 0, info := 0, word := w, ret := c.a.groupStart.setWidth 19, async := true, vrep := none })
    | _, _ => none
  | .watchdog n =>
    let c := s.core n
    onlyIf (c.queueStuck = true ∧ c.ctl.wdog ≠ 0 ∧ c.ctl.wdog.toNat ≤ c.ctl.wdogCount)
      (takeTrap s n (if c.a.halted then .e else .a) (trapAt c (if c.a.halted then .e else .a) 19 0))
  | .sleepTimeout n =>
    match (s.core n).wait with
    | some (.sleep ctl (some dl) en none) =>
      onlyIf (dl ≤ s.ns)
        (s.setCore n { s.core n with wait := some (.sleep ctl (some dl) en (some (0x10 ||| (if en = .committed then 0 else 1)))) })
    | _ => none
  | .sleepWake n =>
    match (s.core n).wait with
    | some (.sleep ctl dl en none) =>
      some (s.setCore n { s.core n with
        wait := some (.sleep ctl dl en (some ((s.core n).standingWakes ctl ||| (if en = .committed then 0 else 1)))) })
    | _ => none
  | .deviceDepositLand n =>
    -- an empty m0 takes the deposit at the cycle's end (R101)
    let c := s.core n
    onlyIf (c.msg.devq ≠ [] ∧ c.msg.full.getLsbD 0 = false ∧ c.msg.devDue = false)
      (s.setCore n { c with msg := { c.msg with devDue := true } })
  | .fpctlWrite n v =>
    let c := s.core n
    if 4 < (v.extractLsb' 0 3).toNat then some (takeTrap s n .a (trapAt c .a 0 1))
    else some (s.setCore n { c with ctl := { c.ctl with fpctl := 
      (v &&& 0x1F0037) ||| (c.ctl.fpctl &&& 0x1F000000 &&& (~~~v ||| ((c.flagsOf s.cycle).setWidth 64 <<< 24))) } })
  | .fpctlRead n st d =>
    let c := s.core n
    onlyIf ((st = .a ∨ c.flagsDone = true) ∧ (c.seq st).pend.contains (c.homeOf st d) = false)
      (s.setCore n (c.putHome st (c.homeOf st d) (c.ctl.fpctl.setWidth 1024)))
  | .srseedWrite n v =>
    onlyIf ((s.core n).rngHeld = false) (s.setCore n { s.core n with ctl := { (s.core n).ctl with srseed := if v = 0 then 0x9E3779B97F4A7C15 else v } })
  | .winWrite n st v =>
    some (s.setCore n ((s.core n).modSeq st fun q => { q with
      depth := v.extractLsb' 16 16, old := v.extractLsb' 8 5, cur := v.extractLsb' 0 5 }))
  | .swzWrite n k v =>
    let c := s.core n
    onlyIf (k < 8 ∧ c.ulmQuiet = true)
      (s.setCore n { c with ctl := { c.ctl with swz := Store.set 0 c.ctl.swz k (v &&& 0x8000071F0FFF0FFF) } })
  | .registerWrite n r v =>
    match r with
    | .sys st x => some (s.setCore n ((s.core n).sysPut st x v s.cycle))
    | r => some (s.ctlPut v r)
  | _ => none

/-! ### Pre-emption and contexts (R335 to R337, R82) -/

/-- The steps of pre-emption, of contexts and of paired safe points. -/
def contextStep (s : State) : Instr → Option State
  | .preemptRequest n timeout area ranges =>
    -- the timeout is 200 us by default, and from 1 us to 1 s (R335)
    let t := if timeout = 0 then 200000 else timeout
    onlyIf ((s.core n).run = .running ∧ 1000 ≤ t ∧ t ≤ 1000000000)
      ((s.setCore n { s.core n with preempt := some ⟨s.ns + t, area, ranges.take 8, false⟩ }).soon (.preemptOverdue n))
  | .preemptOverdue n =>
    match (s.core n).preempt with
    | some p =>
      onlyIf (p.overdue = false ∧ p.deadline ≤ s.ns) ((s.setCore n { s.core n with preempt := some { p with overdue := true } }).report 1 n)
    | none => none
  | .contextSave n =>
    -- the write set is released at SYSTEM, the site stays bound, and a party goes with its context (R275, R280, R337); a core that migrates saves
    -- every section, and resumes at its tile's new site (R381)
    let c := s.core n
    let l := s.logicalOf n
    let written (t : State) (area : Nat) (la le : BitVec 20) (ranges : List (Nat × Nat)) : State :=
      ((t.core n).recordBytes n la le ranges).foldl (fun t w => t.partyWrite stationParty 4 (area + w.1) w.2) t
    let left (t : State) : State :=
      t.modCore n fun c => { c with run := .saved, preempt := none, wait := c.keptWait, fences := [], gang := none, roundStop := false }
    match c.preempt with
    | some p =>
      let s1 := s.release n 4
      onlyIf (c.pairParked = true ∧ c.q.isEmpty = true ∧ s.pairAct n = some .preempt ∧ c.quiet = true)
        (if s1.census.moving.contains l then
          let s2 := written (s1.holdLatch n) (if p.area = 0 then Config.migrateArea l else p.area) 0xFFFFF 0xFFFFF [(0, Config.ulmBytes)]
          ({ left s2 with saved := Store.set none s2.saved l (some { (s2.core n).moved with party := s.partyOf n + 1 }) }).post
            (.contextResume l (4 * (s2.tileMap (l / 4)).site + l % 4))
        else
          let s2 := written s1 p.area (s1.core n).a.live (s1.core n).e.live p.ranges
          let c2 := s2.core n
          let r := c2.context c2.a.live c2.e.live (Config.freeWord s2.free) (Config.freeWord (s2.free + 1)) p.ranges
          { left s2 with
            free := s2.free + 2
            saved := Store.set none s2.saved l (some { r with party := s.partyOf n + 1 }) })
    | none => none
  | .contextResume l n =>
    -- in place, or at an idle core of a compute tile, to which every list of the program's cores then points (R337); of a core that was in a gang
    -- the kernel chooses
    match Store.get none s.saved l with
    | some r =>
      if r.gang ≠ none then none
      else if s.savedSite l = some n then some (s.goOn n l ((s.core n).restoreHere r))
      else
        let m := s.tileMap (s.tileAt (siteOf n))
        let s1 : State := { s.rename n (50000 + s.fresh) with fresh := s.fresh + 1 }
        let s2 : State := match s1.savedSite l with
          | some k => (((s1.dropRunner k).modCore k fun c => { c with wait := none }).leaveSite k).rename k n
          | none => s1.rename (40000 + l) n
        onlyIf (((s.core n).run = .idle ∨ (s.core n).run = .done) ∧ m.role = 0 ∧ m.toward = none)
          ({ s2 with census := { s2.census with moving := s2.census.moving.filter fun k => k != l } }.goOn n l r)
    | none => none
  | .coreKill n => onlyIf ((s.core n).run ≠ .idle ∧ (s.core n).run ≠ .done) (s.killCore n)
  | .siteEviction n =>
    onlyIf ((s.core n).run = .saved ∧ (s.core n).task = none)
      ((((s.dropRunner n).modCore n Core.stopAll).leaveSite n).rename n (40000 + s.logicalOf n))
  | .pairedSafePoint n =>
    -- with a value left in a queue both streams go on; else the pending action is taken (R82)
    let c := s.core n
    if c.pairParked = false ∨ c.gang ≠ none then none
    else match s.pairAct n with
      | none => none
      | some act =>
        if c.q.isEmpty = false then some (s.setCore n c.unpark)
        else match act with
          | .preempt => if c.preempt.isSome then some (s.post (.contextSave n)) else none
          | .allow => some (s.post (.allowanceStop n))
          | .switch => some (s.post (.stageSwitch n))
          | .gang =>
            match c.wait with
            | some (.gang size since _ r) => some ((s.setCore n { c with wait := some (.gang size since true r) }).post (.gangJoin n))
            | _ => none
          | .yield => some (s.takeYield n)
          | .heat => some (s.stopRound [n])
  | _ => none

/-! ### The SAU and the vector sequencer (R174 to R177, R190, R195) -/

/-- The steps of a tile's SAU and of a core's vector sequencer. -/
def sauStep (s : State) : Instr → Option State
  | .sauStart t =>
    -- one core of the tile has a word to start, of one pass that reads and writes no table
    match s.ready t with
    | [n] =>
      match (s.core n).sauq with
      | [o] =>
        let s1 := (s.setCore n { s.core n with sauq := [], sauFly := (s.core n).sauFly ++ [o] }).postpone (.sauComplete n)
        onlyIf (o.passes ≤ 1 ∧ o.work.readsTab = none ∧ o.work.writesTab = none ∧ n / 4 = t
            ∧ ((coresAt t).all fun m => m == n || (s.core m).sauq.isEmpty) = true ∧ (s.core n).run ≠ .idle)
          (s1.setTile t { s1.tile t with passed := [], sauPtr := (n % 4 + 1) % 4 })
      | _ => none
    | _ => none
  | .sauComplete n =>
    let c := s.core n
    match c.sauFly with
    | o :: r =>
      let c1 := o.dests.foldl (fun c h => c.clearPend .e h) { c with sauFly := r }
      match o.work with
      | .result ws fl =>
        -- an operation that runs alone hands its results to its word (R120)
        if o.alone then some (s.setCore n { c with sauFly := r, fpRun := c.fpRun.map fun q => { q with done := some (ws, fl) } })
        else some (s.setCore n (ws.foldl (fun c w =>
          (if o.short then c.putShort .e w.1 w.2 s.cycle else c.putHome .e w.1 w.2).fillVstq w.1 w.2) (c1.orFlags fl s.cycle)))
      | .tload .. => some (s.setCore n c1)
      | .tcfg .. => some (s.setCore n c1)
      | _ => none
    | [] => none
  | .vrepDispatch n =>
    -- the next word of the body acts as it would at issue, in the window of the handover (R195)
    let c := s.core n
    match c.vrep with
    | some r =>
      match sauM (bodyEff (bodyInstr (r.body.getD r.idx 0))) (bodyCtx n s r) (s.setCore n { c with e := { c.e with cur := r.cur } }) with
      | .ok (.run, s1) =>
        onlyIf (r.held = false) ((s1.setCore n { s1.core n with e := { (s1.core n).e with cur := c.e.cur } }).soon (.vrepDispatch n))
      | .ok (_, s1) =>
        let s2 := s1.setCore n { (s1.core n).markBody r.rng c.sauq.length with vrep := r.advance, e := { (s1.core n).e with cur := c.e.cur } }
        onlyIf (r.held = false) (if r.advance.isSome then s2.soon (.vrepDispatch n) else s2)
      | .error (.wait _) => onlyIf (r.held = false) (s.soon (.vrepDispatch n))
      | .error (.trap cause sub addr info _) =>
        let t : StatusTrap := {
          cause := cause
          sub := sub
          addr := addr
          info := info
          word := r.at_.setWidth 19
          vrep := some (BitVec.ofNat 32 r.rep, BitVec.ofNat 4 r.idx)
          ret := some (r.start.setWidth 19) }
        onlyIf (r.held = false) (s.setCore n { c.dropRun true with vrep := some { r with held := true }, e := { c.e with due := c.e.due ++ [t] } })
    | none => none
  | _ => none

/-! ### The matrix slice, ROT and MMAJ (R162 to R164, R200 to R217) -/

/-- The joins of a tile end with a result. -/
def joinsEnd (s : State) (t : Nat) (r : Option Nat) : State :=
  (s.joins t).foldl (fun s p => s.setCore p.1 { s.core p.1 with join := some { p.2 with result := some r } }) s

/-- A translated access can act: its page is in no transit (R382), and its far tier has a live port (R431). -/
def canAct (s : State) (k : Cmd) (loc : Nat) : Bool :=
  !s.heldLoc loc && (match k.far with | some (i, _) => s.farLive (Store.get 0 s.stn.farMap i) | none => true)

/-- The steps of the matrix slice and of the joins of a tile. -/
def matrixStep (s : State) : Instr → Option State
  | .mldFill n =>
    let c := s.core n
    match c.matHead 0 with
    | some (before, e, after) =>
      match e.word with
      | .mld id target tr srcbytes wbits rows =>
        let c0 := (c.setQueue (before ++ after)).dropCmd id
        onlyIf (e.started = false ∧ (rows.all fun a => !c.engineBlocked id a srcbytes false) = true ∧ (rows.all fun a => (c.ulmError a srcbytes).isNone) = true)
          ((s.setCore n ({ c0 with mat := c0.mat.fill target tr srcbytes wbits (rows.map fun a => c.ulmBytes a srcbytes) }.endLoad target true)).kickMat n)
      | .stream id target =>
        let va := match c.cmd? id with | some k => (match k.op with | .mldStream _ _ _ va .. => va | _ => 0) | none => 0
        let c1 := c.setQueue (before ++ ⟨e.word, true⟩ :: after)
        onlyIf (e.started = false) ((s.setCore n { c1 with mat := { c1.mat.beginLoad target with mgsr := mgsrOf 0 va } }).post (.translationRequest n id))
      | _ => none
    | none => none
  | .globalStreamRow n id =>
    match (s.core n).cmd? id with
    | some k =>
      match k.op, k.xl with
      | .mldStream target nsrc srcbytes va stride tr wbits, some (loc, _) =>
        let (off, len) := chunkOf (va + k.row * stride) srcbytes k.gran
        let (bs, s1) := s.readHome n loc len
        let last := decide (srcbytes ≤ off + len)
        let row := if last then k.row + 1 else k.row
        let s2 := s1.modCore n fun c => { c with mat :=
          { c.mat.streamPiece target tr nsrc srcbytes wbits k.row off bs with mgsr := mgsrOf (if tr then (if row < nsrc then 0 else srcbytes * 8 / wbits) else row) (va + row * stride) } }
        onlyIf (k.status = none ∧ canAct s k loc = true ∧ s.accessFails n loc len = 0)
          (if row < nsrc then (s2.modCmd n id fun k => { k with row := row, gran := if last then 0 else k.gran + 1, xl := none }).post (.translationRequest n id)
           else s2.endCmd n id 0 0 0)
      | _, _ => none
    | none => none
  | .multiplyStart n =>
    let c := s.core n
    match c.matHead 1 with
    | some (before, e, after) =>
      onlyIf (e.started = false) ((s.setCore n (c.setQueue (before ++ ⟨e.word, true⟩ :: after))).post (.multiplyComplete n))
    | none => none
  | .multiplyComplete n =>
    let c := s.core n
    match c.matHead 1 with
    | some (before, e, after) =>
      match e.word with
      | .mma acc la afmt lb bfmt sp k joint =>
        onlyIf (e.started = true)
          ((s.setCore n { c with mat := { c.mat.multiply acc la afmt lb bfmt sp k joint with queue := before ++ after } }).kickMat n)
      | .mzero acc k =>
        onlyIf (e.started = true)
          ((s.setCore n { c with
            mat := { c.mat.mapAcc acc k (fun _ _ _ => 0) with queue := before ++ after }
            regBad := if k = BitVec.allOnes 128 then c.regBad.filter (fun j => j != badKey .e (1100 + acc)) else c.regBad }).kickMat n)
      | _ => none
    | none => none
  | .mstRowSend n =>
    let c := s.core n
    match c.matHead 2 with
    | some (before, e, after) =>
      match e.word with
      | .mst id acc fmt addr stride cols base post map rm sub sat draws rows row =>
        if e.started = false then
          let r := c.mat.convert acc fmt cols (Rm.ofCode rm) sub sat draws
          let w : MatWord := .mst id acc fmt addr stride cols base post map rm sub sat [] r.1 0
          some ((s.setCore n ((c.orFlags r.2 s.cycle).setQueue (before ++ ⟨w, true⟩ :: after))).kickMat n)
        else match rowDest map (s.logicalOf n) base row with
          | none => some (s.mstNext n id before after e.word)
          | some none =>
            let a := addr + row * stride
            let bs := rows.getD row []
            let r := landRemote s n a bs
            onlyIf (c.engineBlocked id a bs.length true = false)
              (((if r.1 = 0 then postArrival r.2 n post else r.2).mstNext n id before after e.word).ack n id row r.1 (s.logicalOf n) a)
          | some (some dst) =>
            some ((s.mstNext n id before after e.word).remoteWrite
              ⟨n, dst, c.asid, true, 0, .write 1 (addr + row * stride) (rows.getD row []) post, id, row⟩)
      | _ => none
    | none => none
  | .mmajJoin t =>
    match s.joins t with
    | (_, j) :: _ =>
      let js := s.joins t
      let src := s.core (4 * t + j.src)
      if js.length ≠ 4 then none
      else if js.any fun p => p.2.src != j.src || p.2.lb != j.lb || p.2.bfmt != j.bfmt || codeWidth p.2.afmt != codeWidth p.2.bfmt then
        some (joinsEnd s t (some 2))
      else
        -- the four multiplies start with the B operand of the source core, once no load into it is queued
        onlyIf ((src.mat.queue.any fun e => match e.word.target? with | some k => k == 2 + j.lb || k == 6 + j.lb | none => false) = false)
          (js.foldl (fun s p => (s.setCore p.1 ((s.core p.1).setQueue ((s.core p.1).mat.queue
            ++ [⟨.mma p.2.acc p.2.la p.2.afmt p.2.lb p.2.bfmt 0 p.2.mask (some (src.mat.bLat, src.mat.bScale)), false⟩]))).post (.multiplyStart p.1))
            (joinsEnd s t none))
    | [] => none
  | .mmajJoinTimeout t =>
    match s.joins t with
    | (_, j) :: r =>
      onlyIf (r.length ≠ 3 ∧ (r.foldl (fun m p => Nat.min m p.2.since) j.since) + 1048576 ≤ s.cycle) (joinsEnd s t (some 0))
    | [] => none
  | .rotJoin t =>
    match s.rots t with
    | (n, id, a, len, d) :: rest =>
      let rs := (n, id, a, len, d) :: rest
      if (tileCores t).any fun m => (s.core m).absent (s.core n).asid then some (s.endRots t rs (-16) 0 0)
      else if rest.length ≠ 3 then none
      else if rest.any fun r => r.2.2.2.1 != len || r.2.2.2.2 != d then some (s.endRots t rs (-17) 0 0)
      else
        -- every region arrives in the core that stands d further on (R163)
        let old := rs.map fun r => (s.core r.1).ulmBytes r.2.2.1 len
        onlyIf ((rs.all fun r => !(s.core r.1).engineBlocked r.2.1 r.2.2.1 len true && ((s.core r.1).ulmError r.2.2.1 len).isNone) = true)
          ((rs.foldl (fun s r => s.setCore r.1 ((s.core r.1).landUlm r.2.2.1 (old.getD ((r.1 + 4 - d) % 4) []))) s).endRots t rs 0 0 0)
    | [] => none
  | .rotJoinTimeout t =>
    match s.rotSince t with
    | some u =>
      onlyIf (s.rots t ≠ [] ∧ (s.rots t).length ≠ 4 ∧ u + 1048576 ≤ s.cycle) (s.endRots t (s.rots t) (-15) 0 0)
    | none => none
  | _ => none

/-! ### The signal box, the engine and the stations (R224, R225, R237, R244 to R267) -/

/-- The steps of the signal box. -/
def solveStep (s : State) : Instr → Option State
  | .solveStart t =>
    let u := s.tile t
    match (List.range 4).findSome? fun k => u.solves.find? fun q => q.core % 4 == (u.solvePtr + k) % 4 with
    | some q =>
      onlyIf ((u.solves.all fun q => !q.started) = true)
        ((s.setTile t { u with
          solves := u.solves.map fun r => if r = q then { r with started := true } else r
          solvePtr := (q.core + 1) % 4 }).post (.solveComplete t))
    | none => none
  | .solveComplete t =>
    let u := s.tile t
    match u.solves.find? fun q => q.started with
    | some q =>
      let s1 := s.setTile t { u with solves := u.solves.filter fun r => !r.started }
      let p := (s1.core q.core).points q.reg
      -- what has captured the version gets its settings, and so does the register while it holds that version
      let s2 := s1.modCore q.core fun c => c.portDone q.reg q.version (solveIdx q.idx)
      let s3 := if p.version = q.version ∧ p.valid = true then
          s2.modCore q.core fun c => { c with pm := Store.set {} c.pm q.reg { p with solved := true, settings := solveIdx p.idx } }
        else s2
      some (if (s3.tile t).solves.isEmpty then s3 else s3.post (.solveStart t))
    | none => none
  | .pointsApplication n id =>
    let c := s.core n
    match c.cmd? id with
    | some k =>
      match k.op with
      | .papply _ _ m idx inv src ss dst ds w =>
        let site := siteOf n
        match s.staged? n id with
        | none =>
          -- a free staging buffer, in this core's turn (R238), takes the rows
          onlyIf ((s.tile site).stagingFull = false ∧ s.nextApply site = some (n, id)
              ∧ ((List.range m).all fun o => (c.ulmError (src + o * ss) w).isNone) = true)
            ((((s.modTile site fun t => { t with applyPtr := (n + 1) % 4 }).modTile site fun t =>
              { t with staging := t.staging ++ [⟨n, id, (List.range m).map fun o => c.ulmBytes (src + o * ss) w⟩] }).modCmd n id
                fun k => { k with rd := k.rd.map fun _ => (0, 0) }).post (.pointsApplication n id))
        | some g =>
          -- row o of the output is row idx[o] of the source; inverse, row o of the source is row idx[o] of the output (R237)
          let to_ (o : Nat) : Nat := dst + (if inv then idx.getD o o else o) * ds
          let from_ (o : Nat) : Nat := if inv then o else idx.getD o o
          onlyIf ((c.keepErrors ((List.range m).map to_) w).isNone = true)
            (((s.modTile site fun t => { t with staging := t.staging.filter fun h => h != g }).setCore n
              ((List.range m).foldl (fun d o => d.landUlm (to_ o) (g.rows.getD (from_ o) [])) c)).endCmd n id 0 0 0)
      | _ => none
    | none => none
  | _ => none

/-- The steps that carry out a core's commands and write their statuses. -/
def commandStep (s : State) : Instr → Option State
  | .tokenStatusWrite n id =>
    let c := s.core n
    match c.cmd? id with
    | some k =>
      match k.status with
      | some (st, _, _) =>
        let c1 := { c with cmds := c.cmds.filter fun j => j.id != id }
        let c2 := (c1.clearPend k.strm k.home).putHome k.strm k.home ((k.result.getD (BitVec.ofInt 64 st)).setWidth 1024)
        onlyIf (k.detached = 0) (s.setCore n (match k.statusTrap with
          | some t => c2.modSeq k.strm fun q => { q with due := insertDue { t with since := s.cycle } q.due }
          | none => c2))
      | none => none
    | none => none
  | .translationRequest n id =>
    let c := s.core n
    match c.cmd? id with
    | some k =>
      match k.target with
      | some (va, len, kind) =>
        let s1 := { s with free := s.free + 1 }
        onlyIf (k.status = none ∧ k.held = false ∧ k.xl = none
            ∧ (match k.op with | .gld .. => c.orderBlocked id va len 0 | .gst .. => c.orderBlocked id va len 1 | _ => false) = false)
          (match s.cached (stationOf n va) c.asid.toNat va ⟨kind, k.user⟩ with
            | some (.ok loc, leaf, size) => s1.translated n k loc leaf size
            | some (.error f, _, _) => s1.hold n id va kind f
            | none => s1.post (.pageWalk n id))
      | none => none
    | none => none
  | .pageWalk n id =>
    let c := s.core n
    match c.cmd? id with
    | some k =>
      match k.target with
      | some (va, len, kind) =>
        onlyIf (k.status = none ∧ k.held = false ∧ k.xl = none
            ∧ (match k.op with | .gld .. => c.orderBlocked id va len 0 | .gst .. => c.orderBlocked id va len 1 | _ => false) = false)
          (match s.walkFor (stationOf n va) c.asid.toNat va ⟨kind, k.user⟩ with
            | .ok (loc, leaf, size, s1) => { s1 with free := s1.free + 1 }.translated n k loc leaf size
            | .error f => { s with free := s.free + 1 }.hold n id va kind f)
      | none => none
    | none => none
  | .faultRetry n id =>
    match s.takeFault n id with
    | some (r, s1) =>
      -- the station reads every table entry of the new walk at its home (R267)
      onlyIf (n < 10000 ∧ s.isl.complexDown = false ∧ s.stillFar n id = false) ((s1.heldOn r).foldl (fun s h => (s.modCmd h.1 h.2.1 fun k => { k with held := false }).post (.pageWalk h.1 h.2.1))
        { s1 with stn := { s1.stn with tabs := s1.stn.tabs.filter fun t => !(t.station == stationOf r.core r.va && t.asid == r.asid) } })
    | none => none
  | .faultDecline n id =>
    match s.takeFault n id with
    | some (r, s1) =>
      onlyIf (n < 10000 ∧ s.isl.complexDown = false) ((s1.heldOn r).foldl (fun s h => s.endCmd h.1 h.2.1 (-5) 0 h.2.2) s1)
    | none => none
  | .engineGranule n id =>
    let c := s.core n
    match c.cmd? id with
    | some k =>
      match k.op, k.xl with
      | .copy out _ _ _ addr ls rb _ va gs perm inv _ _, some (loc, desc) =>
        let (ur, gr) := copyRow perm out inv k.row
        let (off, len) := chunkOf (va + gr * gs) rb k.gran
        let a := addr + ur * ls + off
        let g := va + gr * gs + off
        -- a permuted copy goes through a staging buffer of its tile, which it takes in its turn (R238, R253)
        let s0? : Option State :=
          if perm = [] ∨ (s.staged? n id).isSome = true then some s
          else if (s.tile (siteOf n)).stagingFull = false ∧ s.nextApply (siteOf n) = some (n, id) then
            some (s.modTile (siteOf n) fun t => { t with applyPtr := (n + 1) % 4, staging := t.staging ++ [⟨n, id, []⟩] })
          else none
        match s0? with
        | none => none
        | some s0 =>
          if k.status ≠ none ∨ canAct s k loc = false ∨ c.engineBlocked id a len (!out) = true then none
          else if out then
            onlyIf (c.orderBlocked id g len 2 = false ∧ (c.ulmError a len).isNone = true ∧ (len = 64 ∨ s.accessFails n loc len = 0) ∧ len ≤ 64)
              ((((s0.putGlobal n loc (c.ulmBytes a len) k.sided).unpoison n k.sided loc len).copyWrote n k.sided g loc len).copyStep n k off len)
          else
            let whole := desc && g % 64 == 0
            let (bs, s1) := s0.readHome n loc (if whole then 64 else len)
            onlyIf (s.accessFails n loc len = 0 ∧ (whole = true → blockOk bs = true) ∧ ((s1.core n).keepError a len).isNone = true)
              (((s1.setCore n ((s1.core n).landUlm a (bs.take len))).ringRead n g len).copyStep n k off len)
      -- a GLD or GST that has reached the tile of its page (R264)
      | .gld va size _, some (loc, _) =>
        onlyIf (k.status = none ∧ canAct s k loc = true ∧ c.orderBlocked id va (2 ^ size) 0 = false) (s.performWord n k loc)
      | .gst va size _, some (loc, _) =>
        onlyIf (k.status = none ∧ canAct s k loc = true ∧ c.orderBlocked id va (2 ^ size) 1 = false) (s.performWord n k loc)
      -- the source of a PUTR or MCAST that has waited for it (R247)
      | .putr .., _ => some (s.sendSource n id)
      | .mcast .., _ => some (s.sendSource n id)
      | _, _ => none
    | none => none
  | _ => none

/-! ### Ordering and atomics (R276 to R284, R361) -/

/-- The steps that perform releases and acquires, AMOs and the service of distributors. -/
def orderStep (s : State) : Instr → Option State
  | .releasePerformed n id =>
    let c := s.core n
    match c.fence? id with
    | some f =>
      let s1 := s.release n f.scope
      onlyIf (f.released = false ∧ c.classDone id f.pred = true)
        (if f.order = 2 then s1.setCore n { s1.core n with fences := (s1.core n).fences.filter fun g => g.id != id }
         else (s1.setCore n { s1.core n with fences := (s1.core n).fences.map fun g => if g.id = id then { g with released := true } else g }).post
          (.acquireComplete n id))
    | none =>
      match c.cmd? id with
      | some k =>
        match k.op with
        | .copy _ _ true sc .. => onlyIf (k.status = none ∧ c.globalDone id = true) ((s.release n sc).endCmd n id 0 0 0)
        | _ => none
      | none => none
  | .acquireComplete n id =>
    let c := s.core n
    match c.fence? id with
    | some f =>
      let s1 := s.acquire n f.scope
      onlyIf (f.order ≠ 2 ∧ c.releasesDone id = true ∧ (if f.order = 1 then c.classDone id f.pred = true else f.released = true))
        (s1.setCore n { s1.core n with fences := (s1.core n).fences.filter fun g => g.id != id })
    | none =>
      match c.cmd? id with
      | some k =>
        match k.op with
        | .copy _ true rel sc _ _ _ rows .. =>
          onlyIf (k.status = none ∧ k.acqd = false ∧ c.releasesDone id = true)
            (((s.acquire n sc).modCmd n id fun k => { k with acqd := true }).copyBegin n id rel (rows == 0))
        | .amo _ _ sc .. =>
          match k.result with
          | some v => onlyIf (k.status = none ∧ c.releasesDone id = true) ((s.acquire n sc).endCmdWith n id v)
          | none => none
        | _ => none
      | none => none
  | .amoHome n id =>
    let c := s.core n
    match c.cmd? id with
    | some k =>
      match k.op, k.xl with
      | .amo op order sc va opnd new_, some (loc, _) =>
        let s1 := if 2 ≤ order then s.release n sc else s.releasePart n sc loc 8
        let old := s1.latestWord loc
        let new1 := match op with
          | 0 => old + opnd
          | 1 => if opnd.toInt < old.toInt then opnd else old
          | 2 => if old.toInt < opnd.toInt then opnd else old
          | 3 => old &&& opnd
          | 4 => old ||| opnd
          | 5 => old ^^^ opnd
          | 6 => opnd
          | _ => if old = opnd then new_ else old
        let s2 := s1.amoWrite n sc loc (toBytes 8 new1.toNat)
        onlyIf (k.status = none ∧ k.result = none ∧ c.orderBlocked id va 8 2 = false ∧ (2 ≤ order → c.globalDone id = true)
            ∧ canAct s k loc = true ∧ s.poisoned loc 8 = false)
          (if order % 2 = 1 then (s2.modCmd n id fun k => { k with result := some old }).post (.acquireComplete n id) else s2.endCmdWith n id old)
      | _, _ => none
    | none => none
  | .distributorServe n id =>
    let c := s.core n
    match c.cmd? id with
    | some k =>
      match k.op, k.xl with
      | .query va addr ctr mreg post form, some (loc, _) =>
        if k.status ≠ none ∨ k.result ≠ none ∨ k.waitFor ≠ 0 ∨ canAct s k loc = false ∨ s.poisoned loc 64 = true ∨ (form = false ∧ c.engineBlocked id addr 16 true = true) then none
        else match s.distributor loc with
          | none => some (s.endCmd n id (-5) 0 va)
          | some (next, limit, chunk, served) =>
            let first := if limit ≤ next then 2 ^ 64 - 1 else next
            let count := if limit ≤ next then 0 else Nat.min chunk (limit - next)
            let s1 := s.perform stationParty 3 (asBytes loc (toBytes 8 (if limit ≤ next then next else next + count))
              ++ asBytes (loc + 24) (toBytes 8 ((served + 1) % 2 ^ 64))) []
            if form then
              some ((s1.modCmd n id fun k => { k with waitFor := 1, xl := none }).send
                ⟨n, s1.logicalOf n, c.asid, false, 1, .deposit mreg (BitVec.ofNat 64 first) false true, id, 0⟩)
            else
              let r := landRemote s1 n addr (toBytes 8 first ++ toBytes 8 count)
              some ((if r.1 = 0 ∧ post = true then r.2.modCore n fun c => c.arrive ctr 1 else r.2).endCmd n id r.1 0 addr)
      | _, _ => none
    | none => none
  | .stationInvalidate kind operand => some (s.invalidate kind (BitVec.ofNat 64 operand))
  | _ => none

/-! ### Barriers and gangs (R321 to R333) -/

/-- The steps of barrier objects and gangs. -/
def groupStep (s : State) : Instr → Option State
  | .barrierArrival n =>
    let c := s.core n
    match c.wait with
    | some (.barrier grp _ kind _ none _) =>
      match c.slotOf grp with
      | some slot =>
        let b := s.bar c.asid.toNat grp
        let rank := gmemRank (c.gmem slot)
        -- the first arrival of an epoch fixes the size that it counts to (R321)
        let size := if b.size = 0 then s.epochSize c.asid.toNat grp else b.size
        onlyIf ((b.arrived.all fun a => a.1 != rank) = true ∧ gmemEpoch (c.gmem slot) = b.epoch)
          ((s.setBar c.asid.toNat grp { b with arrived := b.arrived ++ [(rank, n, kind)], size := size }).checkBar c.asid.toNat grp)
      | none => none
    | _ => none
  | .barrierWithdrawal n =>
    let c := s.core n
    match c.wait with
    | some (.barrier grp _ _ _ none _) =>
      -- before the epoch completes the arrival is removed, and the word executes again from its beginning (R325)
      let b := s.bar c.asid.toNat grp
      let left := b.arrived.filter fun a => a.2.1 != n
      some ((s.setBar c.asid.toNat grp { b with arrived := left, size := if left = [] ∧ b.held = none then 0 else b.size }).setCore n
        { c with wait := none })
    -- after it the word completes, and what wanted the withdrawal waits
    | some (.barrier grp ep kind scope (some st) _) => some (s.setCore n { c with wait := some (.barrier grp ep kind scope (some st) true) })
    | _ => none
  | .groupAbort asid grp =>
    -- every waiting member gets -10, the entry becomes invalid and the object is as at reset (R324)
    let s1 := s.cores.foldl (fun s p => if p.2.asid.toNat = asid then s.modCore p.1 fun c => c.answerBar grp (-10) false else s) s
    let loc := Store.get 0 s1.stn.groupTab asid + 16 * grp
    some ((s1.partyWrite stationParty 4 loc [s1.deviceByte loc &&& 0xFC]).setBar asid grp {})
  | .gangJoin n =>
    match (s.core n).ganging with
    | some (size, _, true) =>
      let ms := gangCores n size
      if (ms.all fun m => match (s.core m).ganging with | some (k, _, r) => k == size && r | none => false) = true then
        some (ms.foldl (fun s m => s.setCore m { s.core m with
          gang := some ⟨ms.headD 0, size, posIn ms m⟩
          wait := some (.gang size 0 true (some 0))
          a := { (s.core m).a with parked := false } }) s)
      else
        onlyIf ((ms.any fun m => match (s.core m).ganging with | some (k, _, _) => k != size | none => false) = true)
          (s.setGangs (ms.filter fun m => (s.core m).ganging.isSome) 4)
    | _ => none
  | .gangJoinTimeout n =>
    match (s.core n).ganging with
    | some (size, since, _) =>
      let joined := (gangCores n size).filter fun m => (s.core m).ganging.isSome
      onlyIf (joined.foldl (fun t m => match (s.core m).ganging with | some (_, u, _) => Nat.min t u | none => t) since + 1048576 ≤ s.cycle)
        (s.setGangs joined 3)
    | none => none
  | _ => none

/-! ### The timetabled exchange (R308 to R313) -/

/-- XBEGIN once its phase has begun, and XEND after the phase (R310, R313). -/
def exchangeWord (x : Ctx) (c : Core) : Instr → Option Core
  | .xbegin d _ _ =>
    match c.wait with
    | some (.xbegin _ _ _ _ _ (some 0)) => some ({ c with wait := none, armed := none }.resultX x d 0)
    | _ => none
  | .xend d =>
    -- a word that has waited for the end writes the bits of the phase, and outside a phase the word writes 0; a beat that has failed its parity
    -- check makes it trap
    match c.wait with
    | some (.xend true) => if c.xpar = true then none else some ({ c with wait := none, xres := 0, xpar := false }.resultX x d (c.xres.setWidth 64))
    | _ => if (match c.xph with | some p => p.begun | none => false) = true then none else some (c.resultX x d 0)
  | _ => none

/-- XBEGIN waits until every armed member has stopped at a boundary (R309, R310). -/
def joinWord (s : State) (x : Ctx) (c : Core) : Instr → Option State
  | .xbegin _ g l =>
    let grp := fieldOf (c.reg x.st g) 0 8
    let plen := fieldOf (c.reg x.st l) 0 10
    let table := (Store.get (0, 0) c.entries 0).2 + 4 * (x.xt.getD 0).toNat
    match s.group c.asid.toNat grp with
    | some gr =>
      if c.wait = none ∧ c.armed = some grp ∧ s.oneBlock gr = true ∧ plen ≠ 0 ∧ plen ≤ 512 ∧ table < Config.ulmBytes then
        some ((s.setCore x.core { c with
          wait := some (.xbegin grp plen 0 s.cycle false none)
          xph := some (freshPhase c.asid.toNat grp plen) }).soon (.exchangeJoinTimeout c.asid.toNat grp))
      else none
    | none => none
  | _ => none

/-- A word of a timetable can run in the phase p, of n beats, with its port free from phase cycle busy on and its register from cycle reg on: it
is neither late nor runs past the end, and its phase cycle has come (R311). -/
def inPhase (p : XPhase) (now cyc n busy reg : Nat) : Bool :=
  !p.left && p.begun && decide (p.next ≤ cyc) && decide (busy ≤ cyc) && decide (reg ≤ cyc) && decide (cyc + n ≤ p.plen) && decide (p.start + cyc ≤ now)

/-- The physical register that a word of a timetable names (R308). -/
def trackHome (c : Core) (k : BitVec 1) (r : BitVec 5) : Nat := if k = 0 then 600 + r.toNat else c.homeOf .e r

/-- The words of a timetable: the beats that XMIT drives, and those that XSEL will latch (R308, R311, R312). -/
def trackWord (s : State) (c : Core) (n : Nat) : Instr → Option State
  | .xmit cy r k t =>
    match c.xph with
    | some p =>
      let beats := if k = 0 then 4 else 1
      let h := trackHome c k r
      let v : Vec := if k = 0 then c.vreg r else (c.reg .e r).setWidth 1024
      onlyIf (inPhase p s.cycle cy.toNat beats p.txFree (Store.get 0 p.regAt h) = true ∧ (p.sels.all fun w => w.home != h || h == 0) = true)
        { s.setCore n { c with xph := some { p with next := cy.toNat + 1, txFree := cy.toNat + beats } } with
          beats := s.beats ++ (List.range beats).map fun b => ⟨blockOf n, t.toNat, p.start + cy.toNat + b, n, v.extractLsb' (256 * b) 256, false⟩ }
    | none => none
  | .xsel cy r k t =>
    match c.xph with
    | some p =>
      let beats := if k = 0 then 4 else 1
      let h := trackHome c k r
      onlyIf (inPhase p s.cycle cy.toNat beats p.rxFree (Store.get 0 p.regAt 0) = true)
        (s.setCore n { c with xph := some { p with
          next := cy.toNat + 1
          rxFree := cy.toNat + beats
          regAt := Store.set 0 p.regAt h (cy.toNat + beats)
          sels := p.sels ++ [⟨h, t.toNat, cy.toNat, beats⟩] } })
    | none => none
  | _ => none

/-- Every word of the table of timetables completes in a phase, with the stream moved on to the next word (a word of a timetable has no selector). -/
def Timetabled (table : State → Core → Nat → Instr → Option State) : Prop :=
  ∀ (s : State) (i : Instr) (s2 : State) (plen : Nat), (s.core s.cur).settled s.strm = true → s.inTimetable = some plen →
    endsTimetable plen i = false → s.canIssue = true → (s.core s.cur).gang = none → ((s.core s.cur).seq s.strm).jx = false →
    illegal s.strm (!(s.core s.cur).ctl.lvl) ((s.core s.cur).seq s.strm).hints i = none → table s (s.core s.cur) s.cur i = some s2 →
    ∃ t, exec i s = .next t ∧ Stepped s2 t s.cur s.strm ∧ Goes s.ctx 0 (s.atIssue.seq s.strm) (s2.core s.cur) (t.core s.cur)

/-- The steps of the exchange join and of the end of a phase. -/
def exchangeStep (s : State) : Instr → Option State
  | .exchangeJoin asid grp =>
    -- every armed member has signalled ready: the phase begins 16 cycles later where the lengths agree (R310)
    match s.armedMembers asid grp with
    | m :: r =>
      match (s.core m).xwait grp with
      | some (len, _, true) =>
        if (r.all fun n => match (s.core n).xwait grp with | some (k, _, b) => b && k == len | none => false) = true then
          some (((m :: r).foldl (fun (s : State) n => s.setCore n ((s.core n).beginPhase (s.cycle + 16)))
            (s.setBar asid grp { s.bar asid grp with join := [] })).soon (.phaseEnd asid grp))
        else
          onlyIf ((r.all fun n => match (s.core n).xwait grp with | some (_, _, b) => b | none => false) = true)
            ((m :: r).foldl (fun (s : State) n => s.setCore n ((s.core n).failXbegin 3)) s)
      | _ => none
    | [] => none
  | .exchangeJoinTimeout asid grp =>
    match (s.armedMembers asid grp).filter fun m => ((s.core m).xwait grp).isSome with
    | [] => none
    | ms =>
      onlyIf ((ms.any fun m => match (s.core m).xwait grp with | some (_, u, _) => decide (u + 1048576 ≤ s.cycle) | none => false) = true)
        (ms.foldl (fun (s : State) m => s.setCore m ((s.core m).failXbegin 1)) s)
  | .phaseEnd asid grp =>
    -- at phase cycle plen, with every timetable ended and every XSEL latched, the members go on in the same step (R313)
    match s.phaseMembers asid grp with
    | [] => none
    | m :: r =>
      let s1 := (m :: r).foldl (fun (s : State) m => s.latchDue m 512) s
      onlyIf (((m :: r).all fun n => match (s1.core n).xph with
          | some p => (s1.core n).silent && p.sels.isEmpty && decide (p.start + p.plen ≤ s1.cycle)
          | none => true) = true)
        (((m :: r).foldl (fun (s : State) n => s.setCore n (s.core n).endPhase) s1).clearBeats (blockOf m))
  | _ => none

/-! ### Tasks (R340 to R352) -/

/-- A spawned record: entries, the eight parameters, its domain and whether it commits (R341, R344). -/
def spawned (x : Ctx) (c : Core) (a e : BitVec 5) (grp : Nat) (com : Bool) : ContRec where
  aNext := BitVec.ofNat 64 (fieldOf (c.reg x.st a) 0 19)
  eNext := BitVec.ofNat 64 (fieldOf (c.reg x.st e) 0 19)
  regs := (List.range 8).map fun i => (0, 8 + i, c.reg x.st (BitVec.ofNat 5 (24 + i)))
  mask := 0xFF00
  grp := grp
  pinned := none
  committed := com
  tok := 0
  status := 0
  dest := 0
  outstanding := 0
  ready := true
  abortedOn := 0

/-- SPAWN: the number of the record that it makes, or a code; the spawning core's writes are released to the task (R344). -/
def spawns (s : State) (x : Ctx) (c : Core) (d a e : BitVec 5) (com : Bool) : Option State :=
  let asid := c.asid.toNat
  match c.domain with
  | none => none
  | some grp =>
    if outside c = false ∨ (c.cmds.any fun k => k.open_ && k.op.classes &&& clWrites != 0) = true then none
    else match s.freeRec asid with
      | none => some (s.setCore x.core (c.resultX x d (BitVec.ofInt 64 (-11))))
      | some k =>
        if com = true ∧ s.stn.poolSize < s.sidingPages + 4 then some (s.setCore x.core (c.resultX x d (BitVec.ofInt 64 (-12))))
        else
          let s1 := ((((s.setCore x.core c).release x.core 3).writeRec asid k (spawned x c a e grp com)).modDom asid grp fun m =>
            { m with live := m.live + 1, ready := m.ready ++ [k] }).post (.taskHandover asid grp)
          some (s1.setCore x.core ((s1.core x.core).resultX x d (BitVec.ofNat 64 k)))

/-- The core may yield or retire here: in a domain, in no tournament, and neither stream inside a call or a loop (R346). -/
def mayLeave (c : Core) : Bool :=
  c.scope.1 == 0 && c.domain.isSome && c.flat && (match c.wait with | some (.runner ..) => false | some (.yield ..) => false | _ => true)

/-- The stage that PROD and PROD_CLOSE produce for, with its group and pipeline; the stage that CONS consumes in (R353, R356). -/
def stageOf (s : State) (c : Core) : Option (Nat × Nat × Pipe) :=
  if outside c = false then none
  else match c.inStage with
    | some (grp, k) => (s.pipe c.asid.toNat grp).map fun p => (grp, k, p)
    | none => none

/-- The core comes back at pc from a handler that took it from its wait as a runner there, so that it waits again (R81, R345). -/
def resumesWait (x : Ctx) (c : Core) : Bool := (c.runnerAt.any fun r => r.2 == x.pc) && !c.ctl.ub && !c.ctl.sb

/-- The words of tasks and pipelines that complete. -/
def taskWord (s : State) (x : Ctx) (c : Core) (i : Instr) : Option State :=
  let asid := c.asid.toNat
  match i with
  | .spawn _ d a e => spawns s x c d a e false
  | .spawnC _ d a e => spawns s x c d a e true
  | .await d _ =>
    if resumesWait x c then none
    else match c.wait with
    | some (.yield _ _ (some r)) => some (s.setCore x.core ({ c with wait := none }.resultX x d (BitVec.ofNat 64 r)))
    | _ => if mayLeave c ∧ c.committed = false then some (s.setCore x.core (c.resultX x d 0)) else none
  | .yield d =>
    if resumesWait x c then none
    else match c.wait with
    | some (.yield _ _ (some r)) => some (s.setCore x.core ({ c with wait := none }.resultX x d (BitVec.ofNat 64 r)))
    | _ => none
  | .prod _ d n =>
    match stageOf (s.setCore x.core c) c with
    | some (grp, k, p) =>
      let bytes := fieldOf (c.reg x.st n) 0 32
      if k + 1 < p.stages ∧ bytes ≠ 0 ∧ bytes ≤ (p.ring k).slotBytes then
        (begun s x c i { tok := d, slot := false, op := .prod bytes }).map fun s1 =>
          (s1.modRing asid grp k fun r => { r with prodClaims := r.prodClaims ++ [(x.core, s.fresh)] }).post (.prodGrant asid grp k)
      else none
    | none => none
  | .cons _ d =>
    match stageOf (s.setCore x.core c) c with
    | some (grp, k, _) =>
      if k = 0 then none
      else (begun s x c i { tok := d, slot := false, op := .cons }).map fun s1 =>
        (s1.modRing asid grp (k - 1) fun r => { r with consClaims := r.consClaims ++ [(x.core, s.fresh)] }).post (.consGrant asid grp (k - 1))
    | none => none
  | .prodClose _ d =>
    match stageOf (s.setCore x.core c) c with
    | some (grp, k, p) =>
      if k + 1 < p.stages then
        (begun s x c i { tok := d, slot := false, op := .prodClose }).map fun s1 =>
          (s1.modRing asid grp k fun r => { r with closers := if r.closers.contains x.core then r.closers else r.closers ++ [x.core] }).post
            (.prodGrant asid grp k)
      else none
    | none => none
  | .snext _ d =>
    match stageOf (s.setCore x.core c) c with
    | some (grp, k, p) =>
      let s1 := s.setCore x.core (c.resultX x d (BitVec.ofNat 64 (k + if c.ctl.stage.getLsbD 52 then 256 else 0)))
      some (match (if k = 0 then none else (p.ring (k - 1)).draining x.core) with
        | some j => s1.freeSlot asid grp (k - 1) j
        | none => s1)
    | none => none
  | _ => none

/-- YIELD asks for a paired safe point, and RETIRE ends the task: its siding commits, or its writes are released; its record is free, its core
departs and becomes a runner (R345, R347, R348, R351). A core that a handler took from its wait as a runner waits again at its word (R81). -/
def leaveWord (s : State) (x : Ctx) (c : Core) (i : Instr) : Option State :=
  let retires (cancel : Bool) : Option State :=
    match c.domain with
    | none => none
    | some grp =>
      if c.flat = false ∨ (if cancel then c.committed else c.scope.1 == 0) = false ∨ c.cmds ≠ []
        ∨ (match c.wait with | some (.runner ..) => true | _ => false) = true then none
      else
        let s1 := match c.task with
          | some t => (if t.committed then (if cancel then s else s.commit x.core t.siding t.bad t.remote t.copies) else s.release x.core 4).freeTask c.asid.toNat t.rec_
          | none => s.release x.core 4
        some ((s1.depart x.core).becomeRunner x.core grp)
  match (if resumesWait x c then c.runnerAt else none) with
  | some (grp, _) =>
    let again : State := (s.setCore x.core { c with
      wait := some (.runner grp x.cycle)
      runnerAt := none
      a := { c.a with parked := true }
      e := { c.e with parked := true } }).post (.taskHandover c.asid.toNat grp)
    match i with
    | .await _ _ => some again
    | .yield _ => some again
    | .retire => some again
    | .retireCancel => some again
    | _ => none
  | none => match i with
  | .yield d =>
    if mayLeave c ∧ c.committed = false ∧ c.queryOut = false then some (s.setCore x.core { c with wait := some (.yield 0 d.toNat none) }) else none
  | .retire => retires false
  | .retireCancel => retires true
  | _ => none

/-- The steps of domains, pipelines and the shunter (R345, R347, R354 to R358). -/
def taskStep (s : State) : Instr → Option State
  | .taskHandover asid grp =>
    -- one record goes to one runner, and what another has released is acquired (R345)
    match s.match_ asid (s.dom asid grp) with
    | some (n, k, r) =>
      -- the record is what its 160 bytes in the pool say (R341), once no fault of its pages and no write of it is held (R266)
      let va := Store.get 0 s.stn.contBase asid + 160 * k
      let s0 := s.touch asid va 160 ⟨0, false⟩
      if (s.deviceFault asid va 160 0).isSome = true
          ∨ (s.stn.devHeld.any fun w => w.asid == asid && decide (w.va < va + 160) && decide (va < w.va + w.bytes.length)) = true then none
      else match r.ofBytes ((s0.deviceRead asid va 160).getD []) with
      | some q =>
        let s1 := s0.modDom asid grp fun d => { d with ready := d.ready.filter fun j => j != k, runners := d.runners.filter fun m => m != n }
        let s2 := s1.setRec asid k (some { q with ready := false })
        some (((s2.setCore n ((s2.core n).takeRecord k q)).acquire n 4).post (.taskHandover asid grp))
      | none => none
    | none => onlyIf ((s.dom asid grp).ready = []) (s.post (.domainDrain asid grp))
  | .taskReady asid grp k =>
    match s.rec? asid k with
    | some r =>
      onlyIf (r.ready = false ∧ r.outstanding = 0 ∧ s.recRuns asid k = false)
        (((s.writeRec asid k { r with ready := true }).modDom asid grp fun d => { d with ready := d.ready ++ [k] }).post (.taskHandover asid grp))
    | none => none
  | .domainDrain asid grp =>
    let d := s.dom asid grp
    let there (m : Nat) : Bool := s.runsAs m grp || (match (s.core m).slotOf grp with
      | some k => (s.bar asid grp).departed.contains (gmemRank ((s.core m).gmem k))
      | none => true)
    onlyIf (d.live = 0 ∧ d.runners ≠ [] ∧ (d.runners.all fun m => s.takesRecord m) = true
        ∧ ((s.membersOf asid grp).all fun m => (s.core m).run == .done || there m) = true)
      ((d.runners.foldl (fun (s : State) m => s.setCore m ((s.core m).enterAt (bitsOf (s.core m).ctl.tdom 0 19) (bitsOf (s.core m).ctl.tdom 21 19))) s).modDom
        asid grp fun d => { d with runners := [] })
  | .prodGrant asid grp j =>
    -- the claims of one core are granted in their order; a free slot goes to the oldest PROD whose turn it is (R356)
    match s.pipe asid grp with
    | some p =>
      let r := p.ring j
      let v := r.slot r.prod
      match r.prodClaims.find? fun k => s.claimFirst k.1 k.2 with
      | some (n, id) =>
        match (s.core n).cmd? id with
        | some k =>
          let bytes : Nat := match k.op with | .prod b => b | _ => 0
          let s1 := s.modRing asid grp j fun q => { q.setSlot q.prod { v with st := 1, fullPend := bytes, bytes := bytes, owner := n } with
            prodClaims := r.prodClaims.filter fun k => k != (n, id)
            prod := (q.prod + 1) % q.nslots }
          let s2 := (s1.endCmdWith n id (grantWord r r.prod v.emptyPhase)).regrant asid grp j
          onlyIf (v.st = 0) ((s2.closeRing asid grp j).post (.consGrant asid grp j))
        | none => none
      | none => some ((s.closeRing asid grp j).post (.consGrant asid grp j))
    | none => none
  | .consGrant asid grp j =>
    -- the oldest CONS whose turn it is and whose core drains no slot gets the next full one; every CONS gets -14 when the ring is closed and
    -- nothing is left (R356)
    let s0 := s.closeRing asid grp j
    match s0.pipe asid grp with
    | some p =>
      let r := p.ring j
      let v := r.slot r.cons
      if r.closed = true ∧ (r.slots.all fun v => v.2.st != 1 && v.2.st != 2) = true then
        some (r.consClaims.foldl (fun (s : State) k => s.endCmd k.1 k.2 (-14) 0 0) (s0.modRing asid grp j fun q => { q with consClaims := [] }))
      else match r.consClaims.find? fun k => (r.draining k.1).isNone && s0.claimFirst k.1 k.2 with
      | some (n, id) =>
        let s1 := s0.modRing asid grp j fun q => { q.setSlot q.cons { v with st := 3, owner := n } with
          consClaims := q.consClaims.filter fun k => k.2 != id, cons := (q.cons + 1) % q.nslots }
        onlyIf (v.st = 2)
          ((((s1.acquire n 3).endCmdWith n id (grantWord r r.cons v.fullPhase)).post (.consGrant asid grp j)).regrant asid grp j)
      | none => some s0
    | none => none
  | .shunterInterval asid grp =>
    match s.pipe asid grp with
    | some p =>
      onlyIf (p.next ≤ s.ns) ((((List.range (p.stages - 1)).foldl (fun (s : State) j => s.shunt asid grp p j) s).modPipe asid grp fun p =>
        { p with next := s.ns + 1000 * p.intervalUs }).soon (.shunterInterval asid grp))
    | none => none
  | .stageSwitch n =>
    let c := s.core n
    let k := c.stageNext
    let e := Store.get (0, 0) c.entries (2 + k)
    let s1 := (s.release n 4).dropRunner n
    onlyIf (c.gang = none ∧ c.pairParked = true ∧ c.q.isEmpty = true ∧ s.pairAct n = some .switch ∧ (c.cmds.any fun k => k.op.claim && k.open_) = false
        ∧ c.quiet = true)
      ((s1.setCore n { s1.core n with ctl := { (s1.core n).ctl with stage := mkStage (bitsOf (s1.core n).ctl.stage 4 8) k none } }).startAt n e.1 e.2)
  | _ => none
/-! ### The census and leases (R364 to R386) -/

/-- The words that ask the census: a command without a slot, whose token receives the answer (R376 to R378). -/
def censusWord (s : State) (x : Ctx) (c : Core) (i : Instr) : Option State :=
  let asks (d : BitVec 5) (op : CmdOp) : Option State :=
    (begun s x c i { tok := d, slot := false, op := op }).map fun s1 => s1.post (.censusRequest x.core s.fresh)
  match i with
  | .lease _ d u v =>
    if c.scope.1 ≠ 0 then none else asks d (.lease (fieldOf (c.reg x.st u) 0 12) (fieldOf (c.reg x.st u) 16 7) (fieldOf (c.reg x.st v) 0 17))
  | .leaseR _ d h v => if c.scope.1 ≠ 0 then none else asks d (.leaseR (fieldOf (c.reg x.st h) 0 14) (fieldOf (c.reg x.st v) 0 17))
  | .ldrop _ d h => if c.scope.1 ≠ 0 then none else asks d (.ldrop (fieldOf (c.reg x.st h) 0 14))
  | .roleq _ d u k => asks d (.roleq k.toNat (fieldOf (c.reg x.st u) 0 14))
  | _ => none

/-- The module with another census. -/
def withCensus (s : State) (f : Census → Census) : State := { s with census := f s.census }

/-- A token of a die is spent (R368). -/
def spend (s : State) (die : Nat) : State :=
  withCensus s fun c => { c with tokens := Store.modify 0 c.tokens die fun n => n - 1000000 }

/-- A lease lasts as long as its time has not passed (R375). -/
def lapsed (s : State) : State := withCensus s fun c => { c with leases := c.leases.filter fun l => decide (s.ns < l.expiry) }

/-- A committed re-cast (R379, R380): resident compute work moves to a receiver, whose tile anneals; else the tile leaves its role, and the cores
of a compute tile are reset. Every station's copy of the map then holds the new generation (R365), and a leaving routing tile's combining entries
are parked (R383). -/
def recasts (s : State) (tile to_ : Nat) : State :=
  let m := s.tileMap tile
  let g := s.census.g + 1
  let s1 := withCensus s fun c => { c with g := g }
  let target := if m.role = 0 ∧ s1.resident tile = true then s1.receiver tile else none
  let s2 := match target with
    | some u => s1.migrateTile tile u to_ g
    | none => if m.role = 0 then (tileCores m.site).foldl resetCore (s1.setTileMap tile ⟨m.site, m.role, some to_, g.toNat⟩)
      else s1.setTileMap tile ⟨m.site, m.role, some to_, g.toNat⟩
  let t := target.getD tile
  let s3 := (List.range 16).foldl (fun (s : State) k =>
      withCensus s fun c => { c with copies := Store.set {} c.copies k ⟨c.map, c.pages, c.g⟩ })
    (withCensus s2 fun c => { c with annealing := Store.set 0 c.annealing t s.ns })
  (if m.role = 1 then s3.post (.pageEvacuation t) else if m.role = 2 then (s3.parkCombs m.site).soon (.relayDrainDeadline t) else s3).soon
    (.annealComplete t)

/-- The steps of the census. -/
def censusStep (s : State) : Instr → Option State
  | .censusInterval =>
    -- leases that have expired have lapsed; re-casts that are due commit; each die acts in turn (R368, R375)
    let now := 10000 * (s.census.done + 1)
    let s1 := ((lapsed s).census.pending.filter fun r => decide (r.commitAt ≤ now)).foldl (fun s r => s.post (.recastCommit r.tile)) (lapsed s)
    let s2 := [0, 1, 2, 3].foldl (fun (s : State) d => s.censusDie d now) (withCensus s1 fun c => { c with spared := [] })
    onlyIf (now ≤ s.ns) ((withCensus s2 fun c => { c with done := c.done + 1, backReads := [] }).soon .censusInterval)
  | .recastOrder die donor target =>
    -- an order obeys the rules of a re-cast: the first tile in census order is spared where a lease covers it, and the first that is eligible starts
    let s1 := withCensus (lapsed s) fun c => c.fill die s.ns
    match s1.censusOrder die donor target with
    | t0 :: r =>
      let s2 := if (s1.census.leases.any fun l => l.covers t0) = true then s1.spare t0 donor target else s1
      match (t0 :: r).find? fun t => s2.eligible t false with
      | some t =>
        onlyIf (die < 4 ∧ donor < 3 ∧ target < 3 ∧ donor ≠ target ∧ 1000000 ≤ Store.get 0 s1.census.tokens die)
          (spend (s2.startRecast t donor target s.ns) die)
      | none => none
    | [] => none
  | .recastCommit tile =>
    match s.census.pending.find? fun r => r.tile == tile && decide (r.commitAt ≤ 10000 * s.census.done) with
    | some r =>
      let m := s.tileMap tile
      let s1 := withCensus (lapsed s) fun c => { c with pending := c.pending.filter fun q => q.tile != tile }
      if r.cancelled = true ∨ s1.eligible tile true = false ∨ s1.roleCount (siteDie m.site) r.from_ ≤ s1.census.minOf (siteDie m.site) r.from_ then
        some (r.who.foldl (fun s n => s.notice n (noticeWord 4 r.from_ r.to_ s.census.g.toNat tile m.site 0)) s1)
      else some (recasts s1 tile r.to_)
    | none => none
  | .censusPolicyWrite off v =>
    if off < 0x100 then
      let die := off / 0x40
      let c1 := s.census.fill die s.ns
      let c2 := c1.setPolicy (off / 8) v
      -- the census wakes with no token (R368)
      let c3 := if (c2.policyWord (8 * die + 2)).getLsbD 32 && !(c1.policyWord (8 * die + 2)).getLsbD 32 then
          { c2 with tokens := Store.set 0 c2.tokens die 0 } else c2
      let rest := c3.badPolicy.filter fun d => d != die
      onlyIf (off % 8 = 0) (withCensus s fun _ => { c3 with badPolicy := if c3.bad die then rest ++ [die] else rest })
    else
      let base := 8 * (off - 0x100)
      onlyIf (off % 8 = 0 ∧ off < 0x300) (withCensus s fun c => { c with
        migrate := c.migrate.filter (fun a => a < base || base + 64 ≤ a) ++ ((List.range 64).filter fun i => v.getLsbD i).map fun i => base + i })
  | .censusRequest n id =>
    let c := s.core n
    match c.cmd? id with
    | some k =>
      let answer : Option (Int × State) := match k.op with
        | .lease first count dur => some (s.lease c.asid.toNat (s.logicalOf n) first count dur)
        | .leaseR h dur => some (s.renew c.asid.toNat (s.logicalOf n) h dur)
        | .ldrop h => some (s.ldrop c.asid.toNat h)
        | .roleq sel u => some ((lapsed s).roleq c.asid.toNat sel u, lapsed s)
        | _ => none
      match answer with
      | some (v, s1) => onlyIf (k.open_ = true) (s1.endCmdWith n id (BitVec.ofInt 64 v))
      | none => none
    | none => none
  | .pageEvacuation tile =>
    -- the lowest-numbered page goes into transit to its new home, and stands there once it has been copied (R382)
    match s.pagesOf tile with
    | page :: _ =>
      let home := match s.evacTo tile with
        | some u => u * 23 + (s.freeFrame u).getD 0 + 1
        | none => 0
      onlyIf ((s.tileMap tile).toward.isSome = true)
        (match s.census.transit.find? fun t => t.1 == page with
          | some (_, h) => (s.endTransit page h (s.tileMap tile).site).post (.pageEvacuation tile)
          | none => (withCensus s fun c => { c with transit := c.transit ++ [(page, home)] }).soon (.pageEvacuation tile))
    | [] => none
  | .relayDrainDeadline tile =>
    -- what the relay store still holds is injected again by way of the drain buffers (R383)
    onlyIf ((s.tileMap tile).toward ≠ none ∧ Store.get 0 s.census.annealing tile + 4000 ≤ s.ns)
      { s with packets := s.packets.map fun p =>
          if p.vc = 100 ∧ p.phase = 0 ∧ p.y * 48 + p.x = (s.tileMap tile).site then { p with vc := 101 } else p }
  | .annealComplete tile =>
    let m := s.tileMap tile
    match m.toward with
    | some to_ =>
      onlyIf (s.left tile = true)
        ((withCensus ((tileCores m.site).foldl (fun s n => s.setCore n { party := (s.core n).party }) s) fun c => { c with annealing := Store.set 0 c.annealing tile 0 }).setTileMap
          tile { m with role := to_, toward := none })
    | none => none
  | .leaseExpiry asid k =>
    some (if (lapsed s).census.leases.any fun l => l.asid == asid && l.slot == k then (lapsed s).soon (.leaseExpiry asid k) else lapsed s)
  | .expiringNotice asid k =>
    match (lapsed s).census.leases.find? fun l => l.asid == asid && l.slot == k with
    | some l =>
      let s1 := withCensus (lapsed s) fun c => { c with leases := c.leases.map fun q => if q = l then { q with sent := true } else q }
      onlyIf (l.sent = false ∧ l.expiringAt ≤ s.ns)
        (s1.notice (s1.siteCore l.holder) (noticeWord 3 0 0 s1.census.g.toNat 0 0 (Store.get 0 s1.census.seqs (asid * 64 + k) * 64 + k)))
    | none => none
  | _ => none

/-! ### Tournaments (R387 to R400) -/

/-- The words of a tournament that complete: SCORE, HEAT once its round has begun, and TQ (R391 to R394). -/
def tourneyWord (s : State) (x : Ctx) (c : Core) (i : Instr) : Option State :=
  let scores (kind : Nat) (v : Word) : Option State :=
    if c.scope.1 = 0 then none
    else some (((s.setCore x.core c).modScope (c.scope.1 - 1) fun k => { k with scores := k.scores ++ [(x.core, c.scope.2, v, kind)] }).post
      (.scoreArrival (c.scope.1 - 1)))
  match i with
  | .scoreClr _ => scores 0 0
  | .scoreS64 _ a => scores 1 (c.reg x.st a)
  | .scoreZ64 _ a => scores 2 (c.reg x.st a)
  | .scoreF64 _ a => scores 3 (c.reg x.st a)
  | .heat d =>
    match c.wait with
    | some (.heat (some r)) => some (s.setCore x.core ({ c with wait := none }.resultX x d (BitVec.ofNat 64 r)))
    | _ => none
  | .tq _ d k => some (s.setCore x.core (c.resultX x d ((s.setCore x.core c).tqValue x.core k.toNat)))
  | _ => none

/-- HEAT asks to stop for the round (R393), and SLEEP falls asleep when nothing wakes it at once (R88). -/
def pauseWord (s : State) (x : Ctx) (c : Core) : Instr → Option State
  | .heat _ => if c.scope.1 ≠ 0 ∧ c.wait = none then some (s.setCore x.core { c with wait := some (.heat none) }) else none
  | .sleep n _ a b =>
    let ctl := c.reg x.st a
    let limit := c.reg x.st b
    if takenInstead c n = true ∨ c.wait ≠ none ∨ c.standingWakes ctl ≠ 0 then none
    else some ((s.setCore x.core { c with
      wait := some (.sleep ctl (if limit = 0 then none else some (x.ns + limit.toNat)) (if c.gateReady ctl then .commits else .waits) none) }).post (.sleepTimeout x.core))
  | _ => none

/-- The steps of tournament scopes. -/
def tourneyStep (s : State) : Instr → Option State
  | .scoreArrival id =>
    match s.scope? id with
    | some k =>
      match k.scores with
      | (_, j, v, kind) :: r =>
        some (((s.modScope id fun k => { k with scores := r }).modContestant id j fun t =>
          { t with score := if kind = 0 then 0 else v, kind := kind }).post (.roundEnd id))
      | [] => none
    | none => none
  | .allowanceStop n =>
    let ms := s.gangOf n
    onlyIf (s.pairAct n = some .allow ∧ (ms.all fun m => (s.core m).pairParked && (s.core m).q.isEmpty) = true) (s.stopRound ms)
  | .roundStart id =>
    match s.scope? id with
    | some k =>
      let ts := k.contestants.filter fun t => t.alive
      let s1 := ts.foldl (fun (s : State) t => s.giveShares (2 ^ (k.lb + k.round)) t) s
      let s2 := ts.foldl (fun (s : State) t =>
        if t.failed then s else (t.members.filter s.liveMember).foldl (fun s n => s.modMember n fun c => c.resumeRound k.round) s) s1
      onlyIf (k.over_ = false ∧ k.begun = false) ((s2.modScope id fun k => { k with begun := true }).post (.roundEnd id))
    | none => none
  | .roundEnd id =>
    match s.scope? id with
    | some k =>
      let ms := ((k.contestants.filter fun t => t.alive).map fun t => t.members).flatten
      let s1 := (ms.filter fun n => decide (n < Config.cores)).foldl (fun s n => s.release n 4) s
      let k1 := (s1.scope? id).getD k
      let k2 := { k1 with contestants := k1.contestants.map fun t => { t with failed := t.failed || decide (k1.sb < sidingUse t.siding t.remote) } }
      let s2 := s1.modScope id fun _ => k2
      let order := s2.scoreOrder k2
      let keep := order.length - order.length / 2
      let surv := order.take keep
      let dead := sortBy id_ (order.drop keep)
      let freed := (dead.map fun i => ((k2.contestants[i]?).map fun t => t.members.filter fun n => decide (n < Config.cores)).getD []).flatten
      let s3 := dead.foldl (fun (s : State) i => s.killContestant id k2 i) s2
      -- the worse half ends, and the rest grow by its cores (R396, R398); the last round, or a last contestant, ends the scope (R397); what the
      -- members have written stands in their sidings first (log entry 137)
      onlyIf (k.over_ = false ∧ k.begun = true ∧ k.scores = [] ∧ (ms.all fun n => (s.memberCore n).stopsRound) = true
          ∧ (ms.any fun n => (s.memberCore n).writing) = false)
        (if k2.round = k2.rl then s2.finishScope id (order.headD 0)
         else if surv.length ≤ 1 then s3.finishScope id (order.headD 0)
         else (((surv.mapIdx fun j i => (j, i)).foldl (fun (s : State) (p : Nat × Nat) =>
            s.growBy id k2 p.2 (dealt freed p.1 surv.length) (k2.round + 1)) s3).modScope id fun k => { k with round := k.round + 1, begun := false }).post
            (.roundStart id))
    | none => none
  | .scopeAbort id =>
    match s.scope? id with
    | some k => onlyIf (k.over_ = false) (s.endScope id k (List.replicate 8 0xFF ++ List.replicate 56 0))
    | none => none
  | _ => none
where
  /-- itself -/
  id_ (n : Nat) : Nat := n

/-! ### The network (R291 to R299, R305, R306) -/

/-- A packet that was refused goes out again from its sender's interface (R101, R296, R299). -/
def sentAgain (s : State) (id : Nat) : Option State :=
  match s.packet? id with
  | some p =>
    -- 64 network cycles, each of two arithmetic cycles, after the refusal (R5)
    onlyIf (p.since + 128 ≤ s.cycle)
      ((s.movePacket id fun q => { q with phase := 0, x := (siteXY (siteOf p.src)).1, y := (siteXY (siteOf p.src)).2, vc := 0 }).post p.onward)
  | none => none

/-- The steps of packets: a hop, an arrival that lands at a core, and what sends a packet again. -/
def networkStep (s : State) : Instr → Option State
  | .routerHop id =>
    match s.packet? id with
    | some p =>
      let s1 := s.soon .occupancyUpdate
      if p.phase ≠ 0 then none
      else match p.pay with
        | .tree leaves data => some (s1.branch p leaves data)
        | _ =>
          -- its output port's turn has come to it, also that of the port to the tile itself (R295)
          if p.x = p.dx ∧ p.y = p.dy then
            onlyIf (s1.granted p 0 = true)
              (({ s1 with links := Store.set 0 s1.links (linkKey p 0) (p.vc + 1) }.movePacket id fun q => { q with vc := 200 }).post p.arrival)
          else match s1.exit p with
            | some (d, vc) =>
              onlyIf (s1.granted p d.port = true)
                (({ s1 with links := Store.set 0 s1.links (linkKey p d.port) (p.vc + 1) }.movePacket id fun q =>
                  { q with x := d.x, y := d.y, vc := vc }).post p.onward)
            | none =>
              some ((if p.vc ≠ 100 ∧ p.vc ≠ 101 ∧ s1.relayRoom p.x p.y = true then s1.movePacket id fun q => { q with vc := 100 } else s1).postpone
                (.routerHop id))
    | none => none
  | .occupancyUpdate =>
    some { s with counts := (List.range 288).foldl (fun m k =>
      Store.set 0 m k (Nat.min 15 (15 * s.regionUsed (k / 2) (k % 2) / s.regionSlots (k / 2)))) s.counts }
  | .packetArrival id =>
    match s.packet? id with
    | some p =>
      -- a reply waits for older accesses of the same bytes (R247)
      let free : Bool := p.phase == 0 && (match p.pay with
        | .reply a bs => !(s.core (s.siteCore p.dst)).engineBlocked p.cmd a bs.length true
        | _ => true)
      -- a reply to a command that is no more lands nothing (R243)
      let stale : Bool := match p.pay with
        | .reply .. => ((s.core (s.siteCore p.dst)).cmd? p.cmd).isNone
        | _ => false
      if stale = true then onlyIf (p.phase = 0) (s.dropPacket id)
      else match s.landing p, p.pay with
      -- what writes ULM waits for the end of the cycle (R153)
      | .at_ _, .write .. => onlyIf (p.phase = 0) (s.movePacket id fun q => { q with phase := 7 })
      | .at_ _, .result .. => onlyIf (p.phase = 0) (s.movePacket id fun q => { q with phase := 7 })
      | .at_ n, .read a len back =>
        if p.phase ≠ 0 then none
        else if ((s.core n).admitting fun w => windowGrants w 62 a len (s.core p.src)).isNone then some (s.settle p (-1))
        else if ((s.core n).ulmError a len).isSome then some (s.settle p (-3))
        else some ((s.dropPacket id).send ⟨n, s.logicalOf p.src, p.asid, false, 1, .reply back ((s.core n).ulmBytes a len), p.cmd, n⟩)
      | .at_ n, .reply a bs =>
        let r := landRemote (s.dropPacket id) n a bs
        onlyIf (free = true) (r.2.ack n p.cmd 0 r.1 (s.logicalOf p.src) a)
      -- a response of the destination's interface reaches the sender (R292)
      | _, .ack core st who addr => onlyIf (p.phase = 0 ∧ p.bad = false) ((s.dropPacket id).ack core p.cmd p.idx st who addr)
      | _, .nack k how g => onlyIf (p.phase = 0 ∧ p.bad = false) ((s.dropPacket id).nacked k how g)
      -- an access to a page of the storage pool at the page's tile (R264, R382, R384)
      | _, .page core cmd page =>
        let here : Bool := match s.pageTile page with | some t => (s.tileMap t).site == p.dy * 48 + p.dx | none => false
        let held := s.packets.countP fun q => q.phase == 6 && q.dx == p.dx && q.dy == p.dy && (match q.pay with | .page .. => true | _ => false)
        onlyIf (p.phase = 0 ∧ p.bad = false)
          (if here = false ∧ s.leaving (p.dy * 48 + p.dx) p.gen = true then (match s.pageTile page with
              | some t => s.forward p (s.tileMap t).site
              | none => (s.dropPacket id).reached core cmd)
           else if here = false then s.refuse p 5 0
           else if s.inTransit page = false then (s.dropPacket id).reached core cmd
           else if held < 96 then s.movePacket id fun q => { q with phase := 6 }
           else s.refuse p 2 1)
      | _, .tree .. => none
      | _, .contrib .. => none
      | .at_ _, _ => none
      -- a packet that fails its check, meets no core, a core that has moved, or comes early (R296, R297, R316, R384)
      | .bad, _ => onlyIf (free = true) (s.lose p)
      | .nobody, _ => onlyIf (free = true) (s.nobody p)
      | .remap, _ => onlyIf (free = true) (s.refuse p 5 0)
      | .forward, _ => onlyIf (free = true) (s.forward p (s.destSite p))
      | .hold, _ => onlyIf (free = true) (s.movePacket id fun q => { q with phase := 6 })
      | .early, _ => onlyIf (free = true) (s.modPacket id fun q => { q with phase := 1 })
      | .refused, _ => onlyIf (free = true) (s.refuse p 2 1)
    | none => none
  | .depositArrival id =>
    match s.packet? id with
    | some p =>
      match s.landing p, p.pay with
      | .at_ n, .deposit reg _ _ own =>
        let c := s.core n
        if p.phase ≠ 0 then none
        else if own = false ∧ (c.admitting fun w => windowDeposits w (some reg) (s.core p.src)) = none then some (s.settle p (-1))
        else if reg = 0 then some (s.settle p (-4))
        -- it takes effect at the end of the cycle, by whether its register was full as it arrived (R101)
        else some (s.movePacket id fun q => { q with phase := if c.msg.full.getLsbD reg then 9 else 7 })
      | _, _ => none
    | none => none
  | .depositLatchTimeout n =>
    let c := s.core n
    match c.msg.latch with
    | some d =>
      let c0 := { c with msg := { c.msg with latch := none } }
      match s.packet? d.pkt with
      | some p =>
        if d.due = true then none
        else if c.msg.full.getLsbD d.reg = false then some (s.setCore n { c with msg := { c.msg with latch := some { d with due := true } } })
        else if d.unlimited = false ∧ d.since + 256 ≤ s.cycle then
          match p.pay with
          | .deposit _ _ true _ =>
            some ((s.setCore n c0).refuse p 2 3)
          | _ => some ((s.setCore n c0).settle p (-4))
        else none
      | none => none
    | none => none
  | .notifyArrival id =>
    match s.packet? id with
    | some p =>
      match s.landing p, p.pay with
      | .at_ n, .notify _ =>
        if p.phase ≠ 0 then none
        else if ((s.core n).admitting fun w => windowDeposits w none (s.core p.src)).isNone then some (s.settle p (-1))
        else some (s.movePacket id fun q => { q with phase := 7 })
      | _, _ => none
    | none => none
  | .busyResend id => sentAgain s id
  | .retryDepositResend id => sentAgain s id
  | .reorderResend id => sentAgain s id
  | .remapNack id =>
    -- a station's copy of the map that is older than the generation of the REMAP is brought up to date first (R384)
    match s.packet? id with
    | some p =>
      let k := 4 * dieOf p.src
      let age := (p.gen - (s.copyAt k).g).toNat
      let s1 := if 0 < age ∧ age < 32768 then s.syncCopy k else s
      let to_ (site : Nat) : State := (s1.movePacket id fun q => { q with
        phase := 0
        x := (siteXY (siteOf p.src)).1
        y := (siteXY (siteOf p.src)).2
        dx := (siteXY site).1
        dy := (siteXY site).2
        vc := 0
        gen := s1.census.g }).post p.onward
      match p.pay with
      | .page core cmd page => match s1.pageTile page with
        | some t => some (to_ (s1.tileMap t).site)
        | none => some ((s1.dropPacket id).reached core cmd)
      | _ => some (to_ (s1.destSite p))
    | none => none
  | .combine id =>
    match s.packet? id with
    | some p =>
      match p.pay with
      | .contrib asid grp tag op ty len bs ranks =>
        let site := p.y * 48 + p.x
        if p.phase ≠ 0 then none
        else if p.bad = true then some (s.lose p)
        else if p.x = p.dx ∧ p.y = p.dy then
          -- delivered at rank 0's tile, it reaches rank 0's interface, or it is sent on after a re-cast (R297, R305, R384)
          if p.vc ≠ 200 then some (s.post (.routerHop id))
          else some (match s.landing p with
            | .bad => s.lose p
            | .remap => s.refuse p 5 0
            | .forward => s.forward p (s.destSite p)
            | .hold => s.movePacket id fun q => { q with phase := 6 }
            | _ => s.contribute p asid grp tag op ty len bs ranks)
        else match s.combs.find? fun e => e.isFor site asid grp tag with
          | some e =>
            -- it combines in the router's entry
            let e' := { e with data := redCombine op ty len e.data bs, ranks := e.ranks ++ ranks }
            onlyIf (e.op = op ∧ e.ty = ty ∧ e.len = len)
              ({ s.dropPacket id with combs := s.combs.map fun (f : Comb) => if f.isFor site asid grp tag then e' else f }.flushComb e')
          | none =>
            -- it takes a free entry, or goes on uncombined
            let e : Comb := ⟨site, asid, grp, tag, op, ty, len, bs, ranks, s.ns, false⟩
            let r := s.red (redKey asid grp tag)
            if s.combRoom site = true then some ({ s.dropPacket id with combs := s.combs ++ [e] }.flushComb e)
            else some ((s.setRed (redKey asid grp tag) { r with passed := r.passed ++ ranks.map fun k => (site, k) }).post (.routerHop id))
      | _ => none
    | none => none
  | .reduceResultLand asid grp tag =>
    -- the result goes to rank 0, and down the tree to the members that asked for a copy (R305)
    let r := s.red (redKey asid grp tag)
    match s.group asid grp, r.waiting.find? fun w => w.2.2.1 == 0 with
    | some g, some w0 =>
      let st : Nat := if ((s.departed asid grp).all fun d => r.ranks.contains d) = true then 0 else 2
      let n := s.siteCore (s.binding g 0)
      let copies : List RedWait := r.waiting.filter fun w => w.2.2.1 != 0 && w.2.2.2.1 != 0 && !(s.departed asid grp).contains w.2.2.1
      let plain : List RedWait := r.waiting.filter fun w => w.2.2.1 != 0 && w.2.2.2.1 == 0
      let s1 := s.setRed (redKey asid grp tag) { r with
        partial_ := [], ranks := [], passed := [], waiting := []
        out := r.out ++ (w0 :: plain ++ copies).map fun w => (w.1, w.2.1, w.2.2.1, w.2.2.2.1) }
      onlyIf (r.ended = 0 ∧ r.ranks ≠ [] ∧ s.gathered asid grp tag r.ranks = true ∧ 0 ∉ s.departed asid grp)
        ((s1.send ⟨n, s.binding g 0, (s.core n).asid, true, 0, .result grp tag 0 w0.2.2.2.2.1 r.partial_ w0.2.2.2.2.2, w0.2.1, st⟩).sendTree n (s.core n).asid
          (copies.map fun (w : RedWait) => ⟨s1.logicalOf w.1, 0, w.2.1, st, some (grp, tag, w.2.2.1), w.2.2.2.2.1, w.2.2.2.2.2⟩) r.partial_)
    | _, _ => none
  | .combinePark asid grp tag =>
    -- entries that wait for nobody go on, those older than the park time move to the pool, and the event stays due while one is left in a router or
    -- a member waits (R306)
    let ours (e : Comb) : Bool := e.asid == asid && e.grp == grp && e.tag == tag
    let s0 := (s.combs.filter ours).foldl State.flushComb s
    let combs := s0.combs.map fun e => if ours e = true ∧ e.since + s.stn.parkTime ≤ s.ns then { e with parked := true } else e
    onlyIf (((combs.any fun e => ours e && !e.parked) || !(s0.red (redKey asid grp tag)).waiting.isEmpty) = true)
      ({ s0 with combs := combs }.soon (.combinePark asid grp tag))
  | _ => none

/-! ### Queues and packets (R418 to R425) -/

/-- The packet, when it is the next of its queue to start and its scheduler serves that queue now (R418, R420). -/
def servedNow (s : State) (q id type : Nat) : Option (Queue × QPacket) :=
  match s.turn? q id type with
  | some (d, p) => if p.want ≠ 0 ∨ s.serves (q % 4) = some q then some (d, p) else none
  | none => none

/-- The work of a COPY or a SIGNAL packet. -/
def packetWork (s : State) (q id : Nat) (d : Queue) (p : QPacket) : State :=
  let r := if p.type = 2 then s.packetCopy d.asid (p.dw 0x10) (p.dw 0x18) (p.dw 0x20)
    else s.packetAmo d.asid (p.dw 0x10) fun old =>
      if p.dw 0x20 = 0 then BitVec.ofNat 64 (p.dw 0x18) else if p.dw 0x20 = 1 then old + BitVec.ofNat 64 (p.dw 0x18) else old ||| BitVec.ofNat 64 (p.dw 0x18)
  match r with
  | .ok s1 => s1.endWork q id
  | .error e => s.stopPkt q id e

/-- A packet that has started and whose work the kernel's answer to a fault lets run again (R266, R420). -/
def resumed (s : State) (q id type : Nat) : Option QPacket :=
  match (s.queue q).pkt? id with
  | some p => if p.started = true ∧ p.over_ = false ∧ p.completed = false ∧ p.held = false ∧ p.type = type ∧ p.failing = 0 then some p else none
  | none => none

/-- A packet that has not started is not resumed. -/
def unstarted (s : State) (q id : Nat) : Bool := match (s.queue q).pkt? id with | some p => !p.started | none => false

/-- The steps of command queues, while the RV64 complex that their schedulers run on is up. -/
def queueWork (s : State) : Instr → Option State
  | .queueWake q =>
    -- what has started goes on, also after an answer to its fault (R420)
    let d := s.queue q
    let due := (d.pkts.filter fun p => p.started && !p.completed && !p.held && !p.over_).filterMap fun p => startEvent q p.seqno p.type
    let s1 := due.foldl State.post s
    some (if d.en = false ∨ 2 ≤ d.state ∨ (d.formed = true ∧ d.rd = d.wr) then s1
      else if d.formed = false then (s1.modQueue q fun d => { d with state := 2, err := 1, pidx := d.rd }).report 4 q
      else (s1.modQueue q fun d => { d with state := 1 }).schedule q)
  | .packetFetch q =>
    let d := s.queue q
    match d.first with
    | none =>
      let s1 := s.modQueue q fun d => { d with fetch := d.fetch + 1, seqno := d.seqno + 1 }
      let va := d.ring + 64 * (d.fetch % 2 ^ d.lsz)
      match s1.readFor d.asid va 64 with
      | .ok bs =>
        onlyIf (d.en = true ∧ d.state = 1 ∧ d.fetch < d.wr)
          ((((s1.touch d.asid va 64 ⟨0, false⟩).modQueue q fun e => { e with pkts := e.pkts ++ [mkPacket d.fetch d.seqno va 0 0 0 bs false] }).growQueue q).schedule q)
      | .error _ => none
    | some p =>
      match s.readFor d.asid p.va 64 with
      | .ok bs =>
        onlyIf (d.en = true ∧ d.state = 1 ∧ p.bytes.isEmpty = true ∧ p.held = false)
          (((s.touch d.asid p.va 64 ⟨0, false⟩).modPkt q p.seqno fun p => { p with bytes := bs }).schedule q)
      | .error _ => none
  | .launchPacket q id =>
    match servedNow s q id 1 with
    | some (d, p) =>
      match parseLaunch p.bytes with
      | .error e => some (s.stopPkt q id e)
      | .ok r =>
        -- what it has read counts as accessed, whatever becomes of it (R261)
        let s1 := s.touchLaunch d.asid r
        match s.planLaunch d.asid r [] with
        | .error e => some (s1.stopPkt q id e)
        | .ok none => some ((s1.modPkt q id fun p => { p with want := r.tiles }).soon (.launchPacket q id))
        | .ok (some l) => some (((s1.launchNow d.asid l (0, 0)).modPkt q id fun p => { p with cores := l.cores, over_ := true }).begin_ q id)
    | none => none
  | .copyPacket q id =>
    match resumed s q id 2 with
    | some p => some (packetWork s q id (s.queue q) p)
    | none =>
      match servedNow s q id 2 with
      | some (d, p) =>
        onlyIf (unstarted s q id = true) (if 2 ^ 52 ≤ p.dw 0x10 ∨ 2 ^ 52 ≤ p.dw 0x18 ∨ 2 ^ 32 < p.dw 0x20 ∨ zeroFrom p 0x28 = false then s.failPkt q id 1
          else packetWork (s.begin_ q id) q id d p)
      | none => none
  | .signalPacket q id =>
    match resumed s q id 4 with
    | some p => some (packetWork s q id (s.queue q) p)
    | none =>
      match servedNow s q id 4 with
      | some (d, p) =>
        onlyIf (unstarted s q id = true) (if 2 ^ 52 ≤ p.dw 0x10 ∨ p.dw 0x10 % 8 ≠ 0 ∨ 3 ≤ p.dw 0x20 ∨ zeroFrom p 0x28 = false then s.failPkt q id 1
          else packetWork (s.begin_ q id) q id d p)
      | none => none
  | .waitPacket q id =>
    match servedNow s q id 3 with
    | some (_, p) =>
      let t := p.dw 0x28
      let limit := t / 2 ^ 32
      onlyIf (unstarted s q id = true)
        (if 2 ^ 52 ≤ p.dw 0x10 ∨ p.dw 0x10 % 8 ≠ 0 ∨ 6 ≤ t % 8 ∨ t / 8 % 2 ^ 29 ≠ 0 ∨ zeroFrom p 0x30 = false then s.failPkt q id 1
         else if limit = 0 then ((s.modPkt q id fun p => { p with deadline := 0 }).begin_ q id).post (.waitPoll q id)
         else (((s.modPkt q id fun p => { p with deadline := s.ns + 1000 * limit }).begin_ q id).post (.waitPoll q id)).soon (.waitTimeout q id))
    | none => none
  | .waitPoll q id =>
    match resumed s q id 3 with
    | some p =>
      match s.readFor (s.queue q).asid (p.dw 0x10) 8 with
      | .ok bs =>
        let v := BitVec.ofNat 64 (leNat bs) &&& BitVec.ofNat 64 (p.dw 0x18)
        let w := BitVec.ofNat 64 (p.dw 0x20)
        let passes := match p.dw 0x28 % 8 with
          | 0 => v == w
          | 1 => v != w
          | 2 => decide (v.toNat < w.toNat)
          | 3 => decide (w.toNat ≤ v.toNat)
          | 4 => decide (v.toInt < w.toInt)
          | _ => decide (w.toInt ≤ v.toInt)
        let s1 := s.touch (s.queue q).asid (p.dw 0x10) 8 ⟨0, false⟩
        some (if passes then s1.endWork q id else s1.soon (.waitPoll q id))
      | .error e => some (s.stopPkt q id e)
    | none => none
  | .waitTimeout q id =>
    match (s.queue q).pkt? id with
    | some p =>
      onlyIf (p.started = true ∧ p.over_ = false ∧ p.completed = false ∧ p.type = 3 ∧ p.failing = 0 ∧ p.deadline ≠ 0 ∧ p.deadline ≤ s.ns) (s.failPkt q id 4)
    | none => none
  | .indirectPacket q id =>
    match servedNow s q id 5 with
    | some (d, p) =>
      let n := p.dw 0x18
      if 2 ^ 52 ≤ p.dw 0x10 ∨ p.dw 0x10 % 64 ≠ 0 ∨ n = 0 ∨ 4096 < n ∨ zeroFrom p 0x20 = false then some (s.failPkt q id 1)
      else if 2 ≤ p.nest then some (s.failPkt q id 5)
      else match s.readFor d.asid (p.dw 0x10) (64 * n) with
        | .error e => some (s.stopPkt q id e)
        | .ok bs =>
          let list := (List.range n).map fun j =>
            mkPacket p.idx (d.seqno + j) (p.dw 0x10 + 64 * j) (id + 1) (p.nest + 1) 0 ((bs.drop (64 * j)).take 64) false
          let s1 := (s.touch d.asid (p.dw 0x10) (64 * n) ⟨0, false⟩).modQueue q fun e => { e with pkts := e.pkts.take (e.after id) ++ list ++ e.pkts.drop (e.after id), seqno := e.seqno + n }
          some ((s1.modPkt q id fun p => { p with children := n, over_ := true }).begin_ q id)
    | none => none
  | .loopPacket q id =>
    match servedNow s q id 6 with
    | some (d, p) =>
      let n := p.dw 0x10
      let k := p.dw 0x18
      let rest := ((d.pkts.dropWhile fun y => y.seqno != id).drop 1).takeWhile fun y => y.parent == p.parent
      some (if 2 ^ 32 ≤ n ∨ k = 0 ∨ 64 < k ∨ zeroFrom p 0x20 = false ∨ (p.parent ≠ 0 ∧ rest.length < k) then s.failPkt q id 1
        else ((s.modPkt q id fun p => { p with
          children := if n = 0 then k else n * k
          over_ := true
          loop := some (k, n - 1, n == 0) }).growQueue q).begin_ q id)
    | none => none
  | .fetchFencePacket q id =>
    match servedNow s q id 7 with
    | some (d, p) =>
      let later := (d.pkts.dropWhile fun y => y.seqno != id).drop 1
      some (if zeroFrom p 0x10 = false then s.failPkt q id 1
        else ((s.modQueue q fun e => { e with pkts := e.pkts.map fun y =>
          if (later.any fun z => z.seqno == y.seqno && !y.started) = true then { y with bytes := [] } else y }).begin_ q id).endWork q id)
    | none => none
  | .tourneyPacket q id =>
    match (s.queue q).pkt? id with
    | some p =>
      if p.started = true then onlyIf (p.over_ = false ∧ p.completed = false ∧ p.held = false ∧ p.type = 8) (s.writeRecord q id)
      else match servedNow s q id 8 with
        | some (d, p) =>
          if 2 ^ 52 ≤ p.dw 0x10 ∨ zeroFrom p 0x18 = false then some (s.failPkt q id 1)
          else match s.planScope d.asid (p.dw 0x10) q id with
            | .error e => some ((s.touchScope d.asid (p.dw 0x10)).stopPkt q id e)
            | .ok k => some (((s.touchScope d.asid (p.dw 0x10)).startScope k).begin_ q id)
        | none => none
    | none => none
  | .leasePacket q id =>
    match servedNow s q id 9 with
    | some (d, p) =>
      let f := p.dw 0x10
      if f / 4096 % 16 ≠ 0 ∨ 2 ^ 23 ≤ f ∨ 2 ^ 14 ≤ p.dw 0x20 ∨ 2 ^ 52 ≤ p.dw 0x28 ∨ zeroFrom p 0x30 = false then some (s.failPkt q id 1)
      else match s.placesFor d.asid (p.dw 0x28) 1 8 with
        | .error e => some (s.stopPkt q id e)
        | .ok locs =>
          let r := s.lease d.asid (p.dw 0x20) (f % 4096) (f / 2 ^ 16) (p.dw 0x18)
          -- a granule that keeps poisoned bytes stops the packet (R434)
          some (match (r.2.touch d.asid (p.dw 0x28) 8 ⟨1, false⟩).packetWrite locs (toBytes 8 (BitVec.ofInt 64 r.1).toNat) with
            | .error e => s.stopPkt q id e
            | .ok s1 => (s1.begin_ q id).endWork q id)
    | none => none
  | .resetQueuePacket q id =>
    match servedNow s q id 10 with
    | some (d, p) =>
      let t := p.dw 0x10
      if 1024 ≤ t ∨ zeroFrom p 0x18 = false then some (s.failPkt q id 1)
      else if t = q ∨ (s.queue t).asid ≠ d.asid then some (s.failPkt q id 2)
      else
        let s1 := s.begin_ q id
        let s2 := if (s1.queue t).state = 3 then s1 else s1.startReset t
        some ((s2.modQueue t fun e => { e with askers := e.askers ++ [(q, id)] }).post (.queueResetControl t))
    | none => none
  | .queueResetControl q =>
    -- the reset ends once nothing of its work is under way; what is resent, latched or held meanwhile is discarded too (R425)
    let s1 := if (s.queue q).state = 3 then s else s.startReset q
    let d := s1.queue q
    let s2 := s1.discardSent d.killed
    let idle := s2.modQueue q fun d =>
      { d with rd := d.wr, fetch := d.wr, state := 0, err := 0, pidx := 0, killed := [], farHeld := [], recHeld := [], askers := [] }
    some (if s2.resetWaits d then s2.soon (.queueResetControl q) else d.askers.foldl (fun s a => s.endWork a.1 a.2) idle)
  | .packetComplete q id =>
    let d := s.queue q
    match d.pkt? id with
    | some p =>
      let signalled := if fieldAt p.bytes 0 8 / 512 % 2 = 1 then s.packetAmo d.asid (fieldAt p.bytes 8 8) fun v => v - 1 else .ok s
      if p.failing ≠ 0 ∧ p.cores = [] ∧ p.completed = false then some (s.failPkt q id p.failing)
      else match signalled with
      | .ok s1 =>
        let s2 := s1.modPkt q id fun p => { p with completed := true }
        let s3 := if p.parent = 0 then s2
          else (s2.modPkt q (p.parent - 1) fun k => { k with children := k.children - 1 }).post (.packetComplete q (p.parent - 1))
        onlyIf (p.worked = true) (((s3.growQueue q).advanceRd q).schedule q)
      | .error e => onlyIf (p.worked = true) (s.stopPkt q id e)
    | none => none
  | _ => none

/-- The steps of command queues; while the complex is down, its schedulers do nothing, and what is due comes again (R426). -/
def queueStep (s : State) (i : Instr) : Option State :=
  if s.isl.complexDown then (match i with
    | .queueWake q => some (s.soon (.queueWake q))
    | .packetFetch q => some (s.soon (.packetFetch q))
    | .packetComplete q id => some (s.soon (.packetComplete q id))
    | .launchPacket q id => some (s.soon (.launchPacket q id))
    | .waitPoll q id => some (s.soon (.waitPoll q id))
    | .waitTimeout q id => some (s.soon (.waitTimeout q id))
    | .queueResetControl q => some (s.soon (.queueResetControl q))
    | _ => none)
  else queueWork s i

/-! ### Ports, integrity and the island (R263, R280, R426 to R442) -/

/-- The module with another island. -/
def withIsland (s : State) (f : Island → Island) : State := { s with isl := f s.isl }

/-- A window access is performed at once when no other of its port waits (R428). -/
def accessed (s : State) (a : HostAcc) : State :=
  let s1 := withIsland s fun i => { i with hostPend := i.hostPend ++ [a] }
  if (s.isl.hostPend.any fun b => b.port == a.port) = true then s1 else s1.drainWindow a.port 1

/-- A switch of the power mode stops the clocks for 2 µs, from a network-cycle boundary on: between two of them it waits for the next (R5, R438). -/
def switching (s : State) (mode : BitVec 4) : State :=
  (withIsland s fun i => { i with busy := true, next := mode, restartAt := if s.cycle % 2 = 0 then s.ns + 2000 else 0 }).soon .modeSwitchRestart

/-- The requested mode is taken, unless a cap holds the module in a lower one (R437 to R439). -/
def requested (s : State) : State :=
  if s.isl.req = s.isl.now ∨ (s.isl.cap = true ∧ s.isl.req < s.isl.now) then s else switching s s.isl.req

/-- The steps of the host ports, the links, the error sites and the kernel's harts. -/
def portStep (s : State) : Instr → Option State
  -- the window is written in payloads of at most 512 bytes (R427); from 2^36 on, the model's choice of an address (log entry 140), stands the
  -- control space of BAR0, which is dropped, or answers UR, in recovery state (R428, R441)
  | .hostWindowWrite port a bs =>
    some (if 2 ^ 36 ≤ a ∧ a - 2 ^ 36 + bs.length ≤ 2 ^ 24 then (if s.isl.recovery then s else s.ctlBytes (a - 2 ^ 36) bs)
      else if inWindow port a bs.length then
        (payloads a bs bs.length).foldl (fun (s : State) p => accessed s ⟨port, p.1, p.2.length, some p.2⟩) s
      else s)
  | .hostWindowRead port a n =>
    some (if 2 ^ 36 ≤ a ∧ a - 2 ^ 36 + n ≤ 2 ^ 24 then
        (if s.isl.recovery then withIsland s fun i => { i with hostRead := List.replicate n 0xFF, hostStatus := 1 }
         else withIsland s fun i => { i with hostRead := (List.range n).map fun j => s.ctlByte (a - 2 ^ 36 + j), hostStatus := 0 })
      else if inWindow port a n then accessed s ⟨port, a, n, none⟩ else s)
  | .hostLinkTrain port rate width =>
    onlyIf ([64, 32, 16, 8, 5, 2].contains rate = true ∧ [16, 8, 4, 1].contains width = true)
      (withIsland s fun i => { i with hostLink := Store.set (0, 0) i.hostLink port (rate, width) })
  | .cxlSnoop port _ => some (if Config.strap port % 3 = 1 then withIsland s fun i => { i with snoops := Store.modify 0 i.snoops port (· + 1) } else s)
  | .linkFlitRetry port => some (withIsland s fun i => { i with retries := Store.modify 0 i.retries port (· + 1) })
  | .scaleupLinkDown port => onlyIf (s.isl.down.contains port = false) (withIsland s fun i => { i with down := port :: i.down })
  | .linkRetrain port => some (withIsland s fun i => { i with down := i.down.filter fun p => p != port })
  | .softError site multi =>
    -- a narrow error is corrected and counted; a wide one is kept with its place (R435, R436)
    match site with
    | .hbm loc =>
      onlyIf (loc < farBase) (if multi = false then s.corrected (stationOfLoc loc)
        else if s.isl.poison.contains (loc / 64) then s else withIsland s fun i => { i with poison := loc / 64 :: i.poison })
    | .ulm n a =>
      onlyIf (n < Config.cores ∧ a < Config.ulmBytes) (if multi = false then s.corrected (16 + n)
        -- the 32-bit word at the place (R435)
        else s.setCore n (if (s.core n).ulmBad.contains ((s.core n).phys a / 4) then s.core n
          else { s.core n with ulmBad := (s.core n).phys a / 4 :: (s.core n).ulmBad }))
    -- the check values of a granule of ULM, of a siding and at a host port's exit fail to fit their data (R433)
    | .check n a =>
      onlyIf (n < Config.cores ∧ a < Config.ulmBytes) (s.setCore n (if (s.core n).ulmChk.contains ((s.core n).phys a / 64) then s.core n
        else { s.core n with ulmChk := (s.core n).phys a / 64 :: (s.core n).ulmChk }))
    | .siding n loc => some (s.setSideBad n fun l => if l.contains (loc / 64) then l else loc / 64 :: l)
    | .exit port => onlyIf (s.isl.exitBad.contains port = false) (withIsland s fun i => { i with exitBad := port :: i.exitBad })
    -- one in a station's own tables reaches the kernel (R435)
    | .tables st => some (s.machineCheck 0 st)
    | .reg n h =>
      onlyIf (n < Config.cores) (if multi = false then s.corrected (9232 + n)
        else if (s.core n).regBad.contains h then s else s.setCore n { s.core n with regBad := h :: (s.core n).regBad })
    | .packet id => some { s with packets := s.packets.map fun p => if p.id = id then { p with bad := true } else p }
    | .beat n cyc => some { s with beats := s.beats.map fun b => if b.core = n ∧ b.cycle = cyc then { b with bad := true } else b }
    | .answer n id => (((s.core n).cmd? id).bind Cmd.inFlight).map fun va => s.endCmd n id (-3) 0 va
  | .scrub st =>
    let n := Store.get 0 s.isl.scrub st
    let s1 := withIsland s fun i => { i with scrub := Store.set 0 i.scrub st ((n + 1) % (32 * (Config.channelBytes / 64))) }
    some (if s.isl.poison.contains (scrubGranule st n) then s1.machineCheck 0 st else s1)
  | .kernelHartAccess h op =>
    -- while the complex is down, or was never started, no hart acts (R426, R441)
    let p := Config.cores + h
    if 512 ≤ h ∨ s.isl.complexDown = true ∨ s.isl.recovery = true then none
    else match op with
      | .fence => some ((s.release p 4).acquire p 4)
      | .store asid va bs =>
        -- an access to a page in transit waits (R382)
        (s.hartPlaces asid va 1 bs.length).map fun locs => if locs.any s.heldLoc then s.soon (.kernelHartAccess h op)
          -- the granules that would keep poisoned bytes are dropped and reported, and those that are replaced are clean (R434, R435; log entry 89)
          else (s.touch asid va bs.length ⟨1, false⟩).landHome (locs.zip bs) fun s ws => ws.foldl (fun s w => s.putGlobal p w.1 [w.2] false) s
      | .load asid va n =>
        match s.hartPlaces asid va 0 n with
        | none => some (withIsland s fun i => { i with hartRead := [] })
        | some locs =>
          if (locs.any s.heldLoc) = true then some (s.soon (.kernelHartAccess h op))
          else if (locs.any fun l => s.poisoned l 1) = true then some (withIsland s fun i => { i with hartRead := [] })
          else
            let r := locs.foldl (fun (r : List Byte × State) l => (r.1 ++ (r.2.readHome p l 1).1, (r.2.readHome p l 1).2)) ([], s.touch asid va n ⟨0, false⟩)
            some (withIsland r.2 fun i => { i with hartRead := r.1 })
  | _ => none

/-- The steps of the island: power, firmware, attestation, heartbeats and the reset of the device. -/
def islandStep (s : State) : Instr → Option State
  | .pmodeWrite v =>
    let req : BitVec 4 := v.extractLsb' 0 4
    onlyIf (s.isl.recovery = false ∧ req.toNat ≤ 2)
      (if s.isl.busy then withIsland s fun i => { i with req := req, again := some req } else requested (withIsland s fun i => { i with req := req }))
  | .modeSwitchRestart =>
    let s1 := withIsland s fun i => { i with now := i.next, busy := false, again := none }
    onlyIf (s.isl.busy = true ∧ s.isl.restartAt ≠ 0 ∧ s.isl.restartAt ≤ s.ns) (if s.isl.again.isSome then requested s1 else s1)
  | .powerLimitExceeded =>
    onlyIf (s.isl.recovery = false ∧ s.isl.busy = false)
      (if 2 ≤ s.isl.now.toNat then withIsland s fun i => { i with coolSince := s.ns }
       else (switching (withIsland s fun i => { i with cap := true, coolSince := s.ns }) (s.isl.now + 1)).machineCheck 2 (s.isl.now + 1).toNat)
  | .powerCapRelease =>
    onlyIf (s.isl.recovery = false ∧ s.isl.cap = true ∧ s.isl.busy = false ∧ s.isl.coolSince + 100000000 ≤ s.ns)
      ((requested (withIsland s fun i => { i with cap := false })).machineCheck 2 s.isl.req.toNat)
  | .firmwareImage img =>
    -- an image is admitted by its signatures, its digest and its security version, and the floor never falls (R440)
    some (if admits s.isl.floor img then
      withIsland s fun i => { i with flash := some img, floor := Nat.max i.floor (imageVersion img), recovery := false } else s)
  | .flashWriteInterrupted => some (withIsland s fun i => { i with flash := some [], recovery := true })
  | .attestationRequest nonce peer =>
    onlyIf (s.isl.recovery = false)
      (withIsland s fun i => { i with
        quote_ := some (i.measures, nonce, imageVersion i.stored, Config.sign i.measures nonce (imageVersion i.stored))
        -- from an ephemeral key of the device that is new at each attestation (R442)
        key := some (Config.deriveKey nonce peer i.attested)
        attested := i.attested + 1 })
  | .deviceReset =>
    -- the stored image is verified at every reset, and one that fails is not started: no stage of it is measured (R441, R442)
    let good := admits s.isl.floor s.isl.stored
    some { State.reset with
      free := s.free
      serial := s.serial
      home := s.home.filter fun p => decide (farBase ≤ p.1)
      isl := { State.reset.isl with
        flash := s.isl.flash
        floor := s.isl.floor
        attested := s.isl.attested
        recovery := !good
        measures := if good then measured s.isl.stored else List.replicate 8 0 } }
  | .heartbeatSend =>
    onlyIf (s.isl.beatAt ≤ s.ns ∧ s.isl.complexDown = false ∧ s.isl.recovery = false) ((withIsland s fun i => { i with beat := i.beat + 1, beatAt := s.ns + 1000000 }).soon .heartbeatSend)
  | .heartbeatMiss nb =>
    let last := Store.get (0, 0) s.isl.missed nb
    let run := if last.1 ≠ 0 ∧ last.2 + 1 = s.isl.beat.toNat then last.1 + 1 else 1
    let i1 := { s.isl with missed := Store.set (0, 0) s.isl.missed nb (run, s.isl.beat.toNat) }
    let s1 := withIsland s fun _ => i1
    -- a quorum of neighbours that have missed three beats in a row send their reset messages (R426)
    onlyIf (nb < s.isl.neighbours ∧ nb < 16 ∧ s.isl.beat.toNat ≠ 0 ∧ (last.1 = 0 ∨ last.2 ≠ s.isl.beat.toNat))
      (if i1.silent.length < i1.quorumOf ∨ run < 3 then s1
       else if s.isl.silent.length < s.isl.quorumOf then i1.silent.foldl State.sendReset s1
       else if run = 3 then s1.sendReset nb else s1)
  | .resetMessage from_ target n tag =>
    let i := s.isl
    let valid : Bool := (match i.key with
        | some k => tag == Config.hmac k (toBytes 8 from_ ++ toBytes 8 target ++ toBytes 8 n)
        | none => false)
      && decide (Store.get 0 i.counters from_ < n) && target == Config.identity && decide (from_ < Nat.min i.neighbours 16)
    let votes := (i.votes.filter fun v => decide (s.ns < v.2 + 10000000) && v.1 != from_) ++ [(from_, s.ns)]
    let i1 := { i with counters := Store.set 0 i.counters from_ n }
    onlyIf (i.recovery = false)
      (withIsland s fun _ => if valid = false then { i with discards := i.discards + 1 }
        else if i1.quorumOf ≤ votes.length then { i1 with votes := [], recoveries := i.recoveries + 1, complexDown := true }
        else { i1 with votes := votes })
  | _ => none

/-! ### Words that wait, and words alone -/

/-- Every word of the table sends what it waits for, changes what the table changes, and stands at its own address until it is answered (R81). -/
def Holds (table : State → Ctx → Core → Instr → Option State) : Prop :=
  ∀ (s : State) (i : Instr) (s2 : State), (s.core s.cur).settled s.strm = true → table s s.ctx (s.core s.cur) i = some s2 → issuesAlone s i = true →
    (s.core s.cur).selectorBefore s.strm (selector i) = true →
    ∃ t, exec i s = .next t ∧ Stepped s2 t s.cur s.strm ∧ ((t.core s.cur).seq s.strm).pc = ((s.core s.cur).seq s.strm).pc

/-- The record of the level to which a cause goes (R403, R408). -/
def recordOf (c : Core) (st : Strm) (sys : Bool) : TrapRec := if sys then (c.seq st).sysRec else (c.seq st).userRec

/-- Core t of the module is core c after stream st has taken a trap (R403, R407, R408, R410): what the record of the level holds, where the
stream goes, the level and the active handler, and the other stream stopped or stopping. -/
structure Trapped (c t : Core) (st : Strm) (cause sub : Nat) (addr info word ret : Word) : Prop where
  /-- the offending word's address in [50:32], and the address at which TRET resumes in [18:0] -/
  epc_ : (recordOf t st (c.toSystem cause)).epc = ((word.setWidth 19).setWidth 64 <<< 32) ||| (ret.setWidth 19).setWidth 64
  /-- cause, subcode, stream, level before, and loop depth -/
  cause_ : (recordOf t st (c.toSystem cause)).cause = BitVec.ofNat 64 (cause + 256 * sub + (if st = .e then 65536 else 0)
    + (if c.ctl.lvl then 131072 else 0) + 262144 * (c.seq st).loopDepth)
  addr_ : (recordOf t st (c.toSystem cause)).addr = addr
  info_ : (recordOf t st (c.toSystem cause)).info = info
  /-- branch target and condition and call depth are saved -/
  saved : ((recordOf t st (c.toSystem cause)).bt, (recordOf t st (c.toSystem cause)).brPred, (recordOf t st (c.toSystem cause)).brSense,
    (recordOf t st (c.toSystem cause)).depth) = ((c.seq st).bt, (c.seq st).brPred, (c.seq st).brSense, (c.seq st).depth)
  /-- the handler's word, 64 bytes to a cause -/
  pc : (t.seq st).pc = ((if c.toSystem cause then (c.seq st).svec else (c.seq st).uvec) &&& 0x7F000) + BitVec.ofNat 64 (64 * cause)
  loops : (t.seq st).loopDepth = 0
  level : t.ctl.lvl = (c.toSystem cause || c.ctl.lvl)
  sb : t.ctl.sb = (c.toSystem cause || c.ctl.sb)
  ub : t.ctl.ub = (!c.toSystem cause || c.ctl.ub)
  other : (t.seq st.other).stopped = true ∨ (t.seq st.other).stopNext = true

/-- Core t is core c after a trap of a word that has had no effect (R67, R410): the live punty entries of both streams have gone back to the
main files (R97), and registers, links, predicates, call windows, queues, points, the matrix slice, ULM, commands and what the core has written
and read of global memory stand as they stood. -/
structure NoEffect (c t : Core) : Prop where
  regs : (t.a.regs, t.e.regs, t.v, t.k) = (((c.spillPunty .a).spillPunty .e).a.regs, ((c.spillPunty .a).spillPunty .e).e.regs,
    ((c.spillPunty .a).spillPunty .e).v, ((c.spillPunty .a).spillPunty .e).k)
  preds : (t.a.preds, t.e.preds) = (c.a.preds, c.e.preds)
  targets : (t.a.bt, t.a.lk, t.e.bt, t.e.lk) = (c.a.bt, c.a.lk, c.e.bt, c.e.lk)
  windows : ∀ st, ((t.seq st).links, (t.seq st).cur, (t.seq st).old, (t.seq st).depth) = ((c.seq st).links, (c.seq st).cur, (c.seq st).old, (c.seq st).depth)
  queues : t.q = c.q
  arrays : (t.pm, t.mat, t.ulm) = (c.pm, c.mat, c.ulm)
  cmds : t.cmds = c.cmds
  written : (t.wset, t.amoSet, t.amoVers, t.own, t.observed, t.seen, t.acqAt) = (c.wset, c.amoSet, c.amoVers, c.own, c.observed, c.seen, c.acqAt)

/-- Nothing outside core n has changed but what is due, the reports, and the beats that the core would still have driven (R67, R314, R410). -/
def onlyCore (s t : State) (n : Nat) : Prop :=
  (∀ m, m ≠ n → t.core m = s.core m) ∧ { t with cores := [], plan := [], reports := [], beats := [] } = { s with cores := [], plan := [], reports := [], beats := [] }
    ∧ t.beats.filter (fun b => b.core != n || decide (b.cycle ≤ s.cycle)) = s.beats.filter (fun b => b.core != n || decide (b.cycle ≤ s.cycle))

/-- What has reached a core in a cycle lands at the cycle's end. A remote write lands with its status: where a window grants it (R165, R166), or at
the sender of the multicast itself, whose entry it frees (R247, R302), without an error that a partial write keeps (R434), and with its arrival posted
(R102). A deposit takes a register that it has found empty and that the cycle's words have left so, full telling that it did not; else it goes into the
latch, or is told that the latch is busy (R101). A notify is ORed in (R300). -/
def landed (s : State) (p : Packet) (full : Bool) : Option State :=
  let lands (n a : Nat) (bs : List Byte) (post : Option Nat) (own : Bool) : State :=
    let free (s : State) : State :=
      if own then s.setCore n ((s.core n).modCmd p.cmd fun k => { k with wr := k.wr.map fun _ => (0, 0) }) else s
    match (s.core n).keepError a bs.length with
    | some (cause, _) => (free s).settle p (if cause = 14 then -3 else -6)
    | none =>
      let c := (s.core n).landUlm a bs
      (free (s.setCore n (match post with | some k => c.arrive k 1 | none => c))).settle p 0
  match s.landing p, p.pay with
  | .at_ n, .write kind a bs post =>
    if kind = 2 ∧ n = p.src then (if (s.core n).engineBlocked p.cmd a bs.length true then none else some (lands n a bs post true))
    else match (s.core n).admitting fun w => windowGrants w 61 a bs.length (s.core p.src) with
      | none => some (s.settle p (-1))
      | some w => some (lands n a bs (if kind ≠ 0 then post else if w.getLsbD 59 then some (bitsOf w 56 3) else none) false)
  | .at_ n, .deposit reg v _ own =>
    let c := s.core n
    some (if full = false ∧ c.msg.full.getLsbD reg = false then (s.setCore n (c.landDeposit reg v)).settle p 0
      else match c.msg.latch with
        | some _ => s.refuse p 4 2
        | none => ((s.setCore n { c with msg := { c.msg with latch := some ⟨reg, v, p.id, s.cycle, own, false⟩ } }).modPacket p.id fun q =>
            { q with phase := 3 }).soon (.depositLatchTimeout n))
  | .at_ n, .notify m => some ((s.setCore n ((s.core n).landNotify m)).settle p 0)
  | _, _ => none

/-- A trap of the cause goes to a level whose handler is not active: it is no double fault (R403). -/
def takes (c : Core) (cause : Nat) : Bool := !(c.toSystem cause && c.ctl.sb)

/-- The cause and the ADDR of an access of ULM that is badly aligned, or beyond its end (R158). -/
def badPlace (a : Word) (align len : Nat) : Option (Nat × Word) :=
  if a.toNat % align ≠ 0 then some (5, a) else if 393216 < a.toNat + len then some (6, a) else none

/-- The cause and the ADDR of the trap of a word of ULM that waits for nothing: one that pushes has room, one that pops finds its entry (R60, R93, R158,
R161). -/
def badAccess (x : Ctx) (c : Core) : Instr → Option (Nat × Word)
  | .ldS _ _ b z o => badPlace (address x c b z o) (2 ^ z.toNat) (2 ^ z.toNat)
  | .ldZ _ _ b z o => badPlace (address x c b z o) (2 ^ z.toNat) (2 ^ z.toNat)
  | .st _ _ b z o => badPlace (address x c b z o) (2 ^ z.toNat) (2 ^ z.toNat)
  | .ldq _ b z o => if c.e.halted ∨ c.q.ldq.length < 16 then badPlace (address x c b z o) (2 ^ z.toNat) (2 ^ z.toNat) else none
  | .stq _ b z o =>
    match c.q.stq with
    | some _ :: _ => badPlace (address x c b z o) (2 ^ z.toNat) (2 ^ z.toNat)
    | _ => none
  | .vldq _ b o => if c.e.halted ∨ c.q.vldq.length < 8 then badPlace (address x c b 3 o) 128 128 else none
  | .vstq _ b o =>
    match c.q.vstq with
    | .row _ :: _ => badPlace (address x c b 3 o) 128 128
    | _ => none
  | .ldb _ _ b w _ => if fieldIn (bitField x c b w) then none else some (6, BitVec.ofNat 64 ((bitField x c b w).1 / 8))
  | .ldbS64 _ _ b w _ => if fieldIn (bitField x c b w) then none else some (6, BitVec.ofNat 64 ((bitField x c b w).1 / 8))
  | .stb _ b _ w _ => if fieldIn (bitField x c b w) then none else some (6, BitVec.ofNat 64 ((bitField x c b w).1 / 8))
  | .spill _ a => badPlace (c.reg x.st a) 8 136
  | .fill _ a => badPlace (c.reg x.st a) 8 136
  | _ => none

/-- The state in which the moving stream stands at the boundary before its next word, with nothing else due: the agenda is empty, no trap, no
event and no action is taken there, and the word's bytes are to be fetched from readable ULM (R49, R61, R71). -/
structure AtWord (s : State) (w : Insn) : Prop where
  agenda : s.plan = []
  clocks : s.isl.busy = false
  boundary : s.tidy.boundary = none
  issues : s.tidy.canIssue = true
  room : s.tidy.fwdFull s.cur s.strm = false
  alone : (s.tidy.core s.cur).follower = false
  aligned : ((s.tidy.core s.cur).seq s.strm).pc.toNat % 4 = 0
  inside : ((s.tidy.core s.cur).seq s.strm).pc.toNat < Config.ulmBytes
  empty : ((s.tidy.core s.cur).seq s.strm).buf = []
  clean : ∀ a, (s.tidy.core s.cur).ulmError a 4 = none
  bytes : w = BitVec.ofNat 32 (leNat ((s.tidy.core s.cur).ulmBytes ((s.tidy.core s.cur).seq s.strm).pc.toNat 4))

/-- The state once the word's block has been fetched (R61). -/
def fetched (s : State) : State :=
  s.tidy.setCore s.cur ((s.tidy.core s.cur).fetchAt s.strm ((s.tidy.core s.cur).seq s.strm).pc.toNat)
end Sys2Proof.Slice0

open Sys2Proof Sys2Proof.Machine Sys2Proof.Slice0

/-! ### A. Words and their encodings -/

/-- Words that the spec prints beside their assembly decode to the instructions that they stand for (R137, R139, R145, R158, R188, R214, R251, R281,
R283, R312, R329, R393, R412). -/
def Obligations.SampleWordsDecode : Prop :=
  decode 0x00254B01#32 = .ok (.add 0 9 10 11 0) ∧ decode 0x01092A83#32 = .ok (.cmp 0 2 9 10 1 0 3) ∧ decode 0x10000AC9#32 = .ok (.fadd 0 0 0 10 3 1)
    ∧ decode 0x05255FFE#32 = .ok (.st 0 9 10 3 0x7FE) ∧ decode 0x1290A642#32 = .ok (.vfadd 0 4 5 6 2 2)
    ∧ decode 0x190A4203#32 = .ok (.mmaj 0 2 1 2 0 2 0 3) ∧ decode 0x083211AD#32 = .ok (.copy 0 12 16 17 1 0 1 3 1)
    ∧ decode 0x0DB8A0C1#32 = .ok (.fence 0 3 2 10 3) ∧ decode 0x0A254B13#32 = .ok (.amo 0 9 10 11 0 2 3)
    ∧ decode 0x1D0C8A09#32 = .ok (.xsel 50 5 0 9) ∧ decode 0xEE254001#32 = .ok (.gang 9 10) ∧ decode 0xEFA40008#32 = .ok (.heat 9)
    ∧ decode 0x1E002808#32 = .ok (.trap 5) ∧ decode 0x1E000009#32 = .ok .tret ∧ decode 0xFE800011#32 = .ok (.halt 7)

/-- Decoding the encoding of a word gives the word back, with every operand at every value, for every word that is allotted (R45, R51). -/
def Obligations.EncodedWordsDecode : Prop :=
  ∀ (i : Instr) (w : BitVec 32), encode i = some w → unclaimed i = false → decode w = .ok i

/-- A word that decodes is the encoding of what it decodes to: no bit is dropped (R45). -/
def Obligations.DecodedWordsEncode : Prop :=
  ∀ (i : Instr) (w : BitVec 32), decode w = .ok i → encode i = some w

/-- An illegal word raises ILLEGAL_INSTRUCTION, with the first subcode that applies and the word itself in INFO, and has no other effect, but that
live punty entries go back to their registers (R53, R54, R67, R97, R404, R410). -/
def Obligations.IllegalWordsTrap : Prop :=
  ∀ (s : State) (i : Instr) (w : BitVec 32) (sub : Nat), encode i = some w → s.canIssue = true → (s.core s.cur).gang = none → s.inTimetable = none →
    illegal s.strm (!(s.core s.cur).ctl.lvl) ((s.core s.cur).seq s.strm).hints i = some sub → takes (s.core s.cur) 0 = true →
    ∃ t, exec i s = .next t ∧ onlyCore s t s.cur ∧ NoEffect (s.core s.cur) (t.core s.cur)
      ∧ Trapped (s.core s.cur) (t.core s.cur) s.strm 0 sub 0 (w.setWidth 64) ((s.core s.cur).seq s.strm).pc ((s.core s.cur).seq s.strm).groupStart

/-- At user level SPILL, FILL and STINV, and SYSR and SYSW of a register that only system level may name, are privileged (R402), where no rule that
comes first in R54 makes the word illegal. -/
def Obligations.PrivilegedWordsTrap : Prop :=
  ∀ (s : State) (n k : BitVec 3) (a : BitVec 5) (r : BitVec 12) (i : Instr),
    (i = .spill n a ∨ i = .fill n a ∨ i = .stinv n k a ∨ ((i = .sysr n r a ∨ i = .sysw n r a)
      ∧ r ∈ [0x010#12, 0x600#12, 0x602#12, 0x604#12, 0x610#12, 0x611#12, 0x612#12, 0x613#12, 0x702#12])) →
    s.canIssue = true → (s.core s.cur).gang = none → s.inTimetable = none → (s.core s.cur).ctl.lvl = false → takes (s.core s.cur) 0 = true →
    illegal s.strm true ((s.core s.cur).seq s.strm).hints i ∉ [some 0, some 1, some 2] →
    ∃ t, exec i s = .next t ∧ onlyCore s t s.cur ∧ Trapped (s.core s.cur) (t.core s.cur) s.strm 0 3 0 (((encode i).getD 0).setWidth 64)
      ((s.core s.cur).seq s.strm).pc ((s.core s.cur).seq s.strm).groupStart

/-! ### B. Steps, reset and global memory -/

/-- A step at a word runs the decoded word: step is exec of it, on the state in which the word's block has been fetched, and then the turn passes
to the next stream (R60, R61). That it passes so, with an empty agenda, is the model's choice (log entry 3). -/
def Obligations.StepIssuesWord : Prop :=
  ∀ (s : State) (w : Insn) (i : Instr), AtWord s w → decode w = .ok i →
    step s = match exec i (fetched s) with
      | .next t => .next t.turn
      | o => o

/-- A step whose agenda names a step of the device, of an agent that the module has, runs the instruction of the same name (log entry 3), while
the clocks run. -/
def Obligations.StepRunsEvents : Prop :=
  ∀ (s : State) (i : Instr) (e : Ev) (r : List Move), i.toEv? = some e → s.plan = .event e :: r → e.agentOk = true → s.isl.busy = false →
    step s = exec i { s with plan := r }

/-- A word that no instruction claims raises ILLEGAL_INSTRUCTION with subcode unallocated (R51, R53). -/
def Obligations.UnallocatedWordsTrap : Prop :=
  ∀ (s : State) (w : Insn), decode w = .unallocated → s.inTimetable = none → (s.core s.cur).gang = none → takes (s.core s.cur) 0 = true →
    ∃ t, runWord exec w s = .next t ∧ onlyCore s t s.cur
      ∧ Trapped (s.core s.cur) (t.core s.cur) s.strm 0 0 0 (w.setWidth 64) ((s.core s.cur).seq s.strm).pc ((s.core s.cur).seq s.strm).groupStart

/-- After reset global memory is canonical, no core runs, and every system register of every core reads its reset value (R11, R117, R228, R390, R407);
the values that log entry 1 names are the model's choice. -/
def Obligations.ResetHolds : Prop :=
  State.reset.memoryWf = true ∧ (∀ n, (State.reset.core n).run = .idle) ∧ (∀ u, Store.get 1024 State.reset.isl.thresholds u = 1024)
    ∧ ∀ (n : Nat) (st : Strm) (x : BitVec 12), sysAllotted x = true → State.reset.sysValue n st x =
      (if x = 0x101 then 0x9E3779B97F4A7C15 else if x = 0x542 then 1024 else if x = 0x604 then 0x10000 else if x = 0x740 then 0x5555
       else if x = 0x741 then 36312488334073920 else 0)

/-- Every step keeps global memory in its canonical form: indexes rise strictly, and no listed location is without a version. -/
def Obligations.StepKeepsMemory : Prop :=
  ∀ (s t : State), s.memoryWf = true → step s = .next t → t.memoryWf = true

/-! ### C. What the words do -/

/-- The integer words complete with their results (R130 to R133, R136, R138 to R140). -/
def Obligations.IntegerWords : Prop := Completes id intWord

/-- Division and remainder complete, and their results are on their way (R129, R136). -/
def Obligations.DivideWords : Prop := Completes dueResult divWord

/-- LEA writes x + y × 2^sc modulo 2^64, and checks nothing (R139). -/
def Obligations.LeaAddsScaled : Prop :=
  ∀ (s : State) (n : BitVec 3) (d a b : BitVec 5) (k : BitVec 2),
    encode (.lea n d a b k) = some (n ++ 3#6 ++ d ++ a ++ b ++ (4#8 + k.setWidth 8))
    ∧ ((s.core s.cur).settled s.strm = true →
      s.runs (.lea n d a b k) (s.atIssue.resultX s.ctx d (BitVec.ofNat 64 ((s.atIssue.reg s.strm a).toNat + (s.atIssue.reg s.strm b).toNat * 2 ^ k.toNat))) = true →
      ∃ t, exec (.lea n d a b k) s = .next t ∧ Stepped (s.setCore s.cur
        (s.atIssue.resultX s.ctx d (BitVec.ofNat 64 ((s.atIssue.reg s.strm a).toNat + (s.atIssue.reg s.strm b).toNat * 2 ^ k.toNat)))) t s.cur s.strm)

/-- Compares and the words of control registers complete (R66, R135, R137, R196). -/
def Obligations.PredicateWords : Prop := Completes id predWord

/-- The floating-point words that deliver at once complete, rounded once, with their flags (R115 to R120, R141 to R143, R145 to R147). -/
def Obligations.FloatWords : Prop := Completes id fltWord

/-- FDIV and FSQRT complete, and their results are on their way (R120, R129, R144). -/
def Obligations.LateFloatWords : Prop := Completes dueResult fltLate

/-- The loads and stores of ULM, and the moves of register-window slots, complete (R92, R93, R157, R158, R161). -/
def Obligations.UlmWords : Prop := Completes id memWord ∧ Completes id stackWord

/-- A word of ULM at an address that is no multiple of its size raises ALIGN, and one beyond the end of ULM LOCAL_RANGE, with the address in ADDR; no
queue entry has been popped or allocated (R93, R158, R161, R404). -/
def Obligations.BadAddressesTrap : Prop :=
  ∀ (s : State) (i : Instr) (cause : Nat) (addr : Word),
    (s.core s.cur).settled s.strm = true → issuesAlone s i = true → (s.core s.cur).selectorBefore s.strm (selector i) = true →
    badAccess s.ctx s.atIssue i = some (cause, addr) → takes (s.core s.cur) cause = true →
    ∃ t, exec i s = .next t ∧ onlyCore s t s.cur ∧ NoEffect (s.core s.cur) (t.core s.cur)
      ∧ Trapped (s.core s.cur) (t.core s.cur) s.strm cause 0 addr 0 ((s.core s.cur).seq s.strm).pc ((s.core s.cur).seq s.strm).groupStart

/-- NOP, IFENCE, and the words of message registers, arrival counters and the notify register complete (R86, R87, R98 to R104, R300). -/
def Obligations.CoreWords : Prop := Completes id coreWord

/-- The vector words without rounding dispatch (R174, R178 to R191). -/
def Obligations.VectorWords : Prop := Completes dueSau vecWord

/-- The floating-point vector words dispatch (R120, R141, R179 to R189). While an enable is set such a word, VTAB among them, issues once every
earlier operation has completed, takes its draws, keeps its FPCTL, and runs alone in the SAU while its stream stands at it; with no flag raised that
its FPCTL enables it then completes: its results are written and its flags set. -/
def Obligations.VectorFloatWords : Prop :=
  Completes dueSau fvecWord
  ∧ (∀ (s : State) (i : Instr) (o : SauOp) (c1 : Core), (s.core s.cur).settled s.strm = true → fpEnables s.ctx.fpctl ≠ 0 →
      fpReady s.ctx s.atIssue = true → fpOp s.ctx s.atIssue i = some (o, c1) → issuesAlone s i = true →
      (s.core s.cur).selectorBefore s.strm (selector i) = true →
      ∃ t, exec i s = .next t
        ∧ Stepped ((s.setCore s.cur { s.core s.cur with
            sauq := [{ o with alone := true }]
            ctl := { (s.core s.cur).ctl with srseed := c1.ctl.srseed }
            fpRun := some ⟨false, s.ctx.fpctl, s.ctx.short, ((s.core s.cur).ctl.srseed, c1.ctl.srseed), none⟩ }).soon
            (.sauStart (siteOf s.cur))) t s.cur s.strm
        ∧ ((t.core s.cur).seq s.strm).pc = ((s.core s.cur).seq s.strm).pc)
  ∧ ∀ (s : State) (i : Instr) (o : SauOp) (c1 : Core) (f : Word) (short : Bool) (seed : Word × Word) (ws : List (Nat × Vec)) (fl : BitVec 5),
      (s.core s.cur).fpRun = some ⟨false, f, short, seed, some (ws, fl)⟩ → ({ s.core s.cur with fpRun := none }).settled s.strm = true →
      fpOp s.ctx s.atIssue i = some (o, c1) → ws.length ≤ (if short then 1 else 32) → fl &&& fpEnables f = 0 →
      s.runs i (ranAlone s.ctx short s.atIssue ws fl) = true →
      ∃ t, exec i s = .next t ∧ Stepped (s.setCore s.cur (ranAlone s.ctx short s.atIssue ws fl)) t s.cur s.strm
        ∧ Goes s.ctx (selector i) (s.atIssue.seq s.strm) (ranAlone s.ctx short s.atIssue ws fl) (t.core s.cur)

/-- VTAB, TLOAD and TCFG dispatch, with the tables of the tile (R190 to R192). -/
def Obligations.TableWords : Prop := Completes dueSau tabWord

/-- VREP hands its body to the vector sequencer, and the stream goes on behind the body (R193 to R195). -/
def Obligations.VrepWords : Prop :=
  ∀ (s : State) (i : Instr) (c : Core), (s.core s.cur).settled s.strm = true → vrepWord s.ctx s.atIssue i = some c → s.runs i c = true →
    ∃ t, exec i s = .next t ∧ Stepped (dueVrep (s.setCore s.cur c)) t s.cur s.strm
      ∧ ((t.core s.cur).seq s.strm).pc = s.ctx.pc + BitVec.ofNat 64 (4 + 4 * bodyLength i)

/-- A hint word joins the hint group of the word that it stands before, outside loops (R47, R49). -/
def Obligations.HintWordsJoin : Prop :=
  ∀ (s : State) (i : Instr) (h : Hint), hintOf i = some h → issuesAlone s i = true →
    ((s.core s.cur).seq s.strm).loopDepth = 0 →
    ∃ t, exec i s = .next t
      ∧ Stepped (s.setCore s.cur ((s.core s.cur).modSeq s.strm fun q => { q with group := q.groupStart })) t s.cur s.strm
      ∧ ((t.core s.cur).seq s.strm).hints = ((s.core s.cur).seq s.strm).hints ++ [h]
      ∧ ((t.core s.cur).seq s.strm).pc = ((s.core s.cur).seq s.strm).pc + 4

/-- LOOP and LOOPR start their level at the body's first word with the count less one left, or pass over the body when the count is 0
(R74 to R77); a count of 0 is stated outside other loops. -/
def Obligations.LoopWordsStart : Prop :=
  ∀ (s : State) (i : Instr) (start stop n : Word) (c : Core), loopParts s.ctx s.atIssue i = some (start, stop, n, c) →
    (s.core s.cur).settled s.strm = true → issuesAlone s i = true → (s.core s.cur).selectorBefore s.strm (selector i) = true →
    ((s.core s.cur).seq s.strm).loopDepth < 3 → nested ((s.core s.cur).seq s.strm) stop = true → stop ≠ s.ctx.pc →
    (n = 0 → ((s.core s.cur).seq s.strm).loopDepth = 0) →
    ∃ t, exec i s = .next t ∧ Stepped (s.setCore s.cur c) t s.cur s.strm
      ∧ ((t.core s.cur).seq s.strm).pc = (if n = 0 then stop + 4 else start)
      ∧ ((t.core s.cur).seq s.strm).loopDepth = ((s.core s.cur).seq s.strm).loopDepth + (if n = 0 then 0 else 1)
      ∧ ((t.core s.cur).seq s.strm).level ((s.core s.cur).seq s.strm).loopDepth = {
          lc := if n = 0 then (((s.core s.cur).seq s.strm).level ((s.core s.cur).seq s.strm).loopDepth).lc else n - 1
          ls := start
          le := stop
          shLs := start
          shLe := stop
          frame := if n = 0 then (((s.core s.cur).seq s.strm).level ((s.core s.cur).seq s.strm).loopDepth).frame else ((s.core s.cur).seq s.strm).depth }
      ∧ ∀ j, j < ((s.core s.cur).seq s.strm).loopDepth → ((t.core s.cur).seq s.strm).level j = ((s.core s.cur).seq s.strm).level j

/-- The selector of a word chooses where its stream goes; CALL and RET slide the register window (R67, R68, R70, R91). Here it is written out for NOP,
outside loops; Goes says it of every other word that goes on with its selector, in the statements of that word, loops among it (R78, R80). -/
def Obligations.SelectorsChoose : Prop :=
  ∀ (s : State) (n : BitVec 3), (s.core s.cur).settled s.strm = true → ((s.core s.cur).seq s.strm).loopDepth = 0 → s.runs (.nop n) s.atIssue = true →
    ∃ t, exec (.nop n) s = .next t
      ∧ ((t.core s.cur).seq s.strm).pc = selected s.ctx s.atIssue n (s.atIssue.seq s.strm).bt
      ∧ (n = 4 → ((t.core s.cur).seq s.strm).lk = s.ctx.pc + 4 ∧ ((t.core s.cur).seq s.strm).cur = ((s.core s.cur).seq s.strm).cur + 1
        ∧ ((t.core s.cur).seq s.strm).depth = ((s.core s.cur).seq s.strm).depth + 1
        ∧ Store.get 0 ((t.core s.cur).seq s.strm).links (((s.core s.cur).seq s.strm).cur + 1).toNat = ((s.core s.cur).seq s.strm).lk)
      ∧ (n = 5 → ((s.core s.cur).seq s.strm).depth ≠ 0 →
        ((t.core s.cur).seq s.strm).lk = Store.get 0 ((s.core s.cur).seq s.strm).links ((s.core s.cur).seq s.strm).cur.toNat
        ∧ ((t.core s.cur).seq s.strm).cur = ((s.core s.cur).seq s.strm).cur - 1
        ∧ ((t.core s.cur).seq s.strm).depth = ((s.core s.cur).seq s.strm).depth - 1)
      ∧ (n = 3 → (t.core s.cur).bits s.strm = ((s.core s.cur).bits s.strm).tail)

/-- TRAP raises TRAP with its number in INFO, and resumes after itself; BRK raises BRK with its code, and resumes at itself (R410, R413). At system
level, with its handler active, either is a double fault, which stops the core (R403). -/
def Obligations.TrapWordsTrap : Prop :=
  ∀ (s : State) (i : Instr) (cause : Nat) (info ret : Word), trapWord s.ctx i = some (cause, info, ret) → issuesAlone s i = true →
    (takes (s.core s.cur) cause = true → i = .brk (info.setWidth 10) → ∃ t, exec i s = .next t ∧ onlyCore s t s.cur
      ∧ Trapped (s.core s.cur) (t.core s.cur) s.strm 17 0 0 info s.ctx.pc s.ctx.pc)
    ∧ (takes (s.core s.cur) cause = true → i = .trap (info.setWidth 12) → ∃ t, exec i s = .next t ∧ onlyCore s t s.cur
      ∧ Trapped (s.core s.cur) (t.core s.cur) s.strm 18 0 0 info s.ctx.pc (s.ctx.pc + 4))
    ∧ (takes (s.core s.cur) cause = false → ∃ t, exec i s = .next t ∧ onlyCore s t s.cur ∧ t.core s.cur = { s.core s.cur with run := .dead }
      ∧ t.reports = s.reports ++ [(0, s.cur)])

/-- TRET returns to the record's address, level, branch target and condition, call depth and loop depth, restores the frame depths and the shadows of
the three loop levels, whose live values stay, and lets the other stream go on (R414); stated where TRET itself does not end the loop that it restores
(R78). -/
def Obligations.TretReturns : Prop :=
  ∀ (s : State), issuesAlone s .tret = true →
    (if (s.core s.cur).ctl.lvl then (s.core s.cur).ctl.sb else (s.core s.cur).ctl.ub) = true →
    (((recordOf (s.core s.cur) s.strm (s.core s.cur).ctl.lvl).cause.extractLsb' 18 2).toNat = 0
      ∨ (((s.core s.cur).seq s.strm).level (((recordOf (s.core s.cur) s.strm (s.core s.cur).ctl.lvl).cause.extractLsb' 18 2).toNat - 1)).le ≠ s.ctx.pc) →
    ∃ t, exec .tret s = .next t ∧ onlyCore s t s.cur
      ∧ ((t.core s.cur).seq s.strm).pc = (recordOf (s.core s.cur) s.strm (s.core s.cur).ctl.lvl).epc &&& 0x7FFFF
      ∧ (t.core s.cur).ctl.lvl = (recordOf (s.core s.cur) s.strm (s.core s.cur).ctl.lvl).cause.getLsbD 17
      ∧ (t.core s.cur).ctl.sb = ((s.core s.cur).ctl.sb && !(s.core s.cur).ctl.lvl)
      ∧ (t.core s.cur).ctl.ub = ((s.core s.cur).ctl.ub && (s.core s.cur).ctl.lvl)
      ∧ ((t.core s.cur).seq s.strm).bt = (recordOf (s.core s.cur) s.strm (s.core s.cur).ctl.lvl).bt
      ∧ ((t.core s.cur).seq s.strm).brPred = (recordOf (s.core s.cur) s.strm (s.core s.cur).ctl.lvl).brPred
      ∧ ((t.core s.cur).seq s.strm).brSense = (recordOf (s.core s.cur) s.strm (s.core s.cur).ctl.lvl).brSense
      ∧ (∀ j, j < 3 → ((t.core s.cur).seq s.strm).level j = { ((s.core s.cur).seq s.strm).level j with
          frame := ((recordOf (s.core s.cur) s.strm (s.core s.cur).ctl.lvl).loops.get j).frame
          shLs := ((recordOf (s.core s.cur) s.strm (s.core s.cur).ctl.lvl).loops.get j).shLs
          shLe := ((recordOf (s.core s.cur) s.strm (s.core s.cur).ctl.lvl).loops.get j).shLe })
      ∧ ((t.core s.cur).seq s.strm).depth = (recordOf (s.core s.cur) s.strm (s.core s.cur).ctl.lvl).depth
      ∧ ((t.core s.cur).seq s.strm).loopDepth = ((recordOf (s.core s.cur) s.strm (s.core s.cur).ctl.lvl).cause.extractLsb' 18 2).toNat
      ∧ ((t.core s.cur).seq s.strm.other).stopped = false
      ∧ (t.core s.cur).a.regs = (s.core s.cur).a.regs ∧ (t.core s.cur).e.regs = (s.core s.cur).e.regs

/-- TRET completes wherever its word stands, also at the end of a loop that it restores: the end check follows the restored levels (R78, R414). IFENCE
completes on both streams, and no word fetched before it is left (R87). UNGANG completes in a gang: it writes the member's position, and the last of the
chain disbands the gang (R329, R333). A join of four that fit together starts its four multiplies (R211). -/
def Obligations.RestingWordsComplete : Prop :=
  (∀ (s : State), issuesAlone s .tret = true → (if (s.core s.cur).ctl.lvl then (s.core s.cur).ctl.sb else (s.core s.cur).ctl.ub) = true →
    ∃ t, exec .tret s = .next t ∧ onlyCore s t s.cur
      ∧ (((t.core s.cur).seq s.strm).pc, ((t.core s.cur).seq s.strm).loopDepth)
        = Seq.afterLoops (((s.core s.cur).seq s.strm).leave (recordOf (s.core s.cur) s.strm (s.core s.cur).ctl.lvl)) s.ctx.pc
            ((recordOf (s.core s.cur) s.strm (s.core s.cur).ctl.lvl).epc &&& 0x7FFFF)
      ∧ (t.core s.cur).ctl.lvl = (recordOf (s.core s.cur) s.strm (s.core s.cur).ctl.lvl).cause.getLsbD 17
      ∧ (t.core s.cur).ctl.sb = ((s.core s.cur).ctl.sb && !(s.core s.cur).ctl.lvl) ∧ (t.core s.cur).ctl.ub = ((s.core s.cur).ctl.ub && (s.core s.cur).ctl.lvl)
      ∧ ((t.core s.cur).seq s.strm).bt = (recordOf (s.core s.cur) s.strm (s.core s.cur).ctl.lvl).bt
      ∧ ((t.core s.cur).seq s.strm).brPred = (recordOf (s.core s.cur) s.strm (s.core s.cur).ctl.lvl).brPred
      ∧ ((t.core s.cur).seq s.strm).brSense = (recordOf (s.core s.cur) s.strm (s.core s.cur).ctl.lvl).brSense
      ∧ ((t.core s.cur).seq s.strm).depth = (recordOf (s.core s.cur) s.strm (s.core s.cur).ctl.lvl).depth
      ∧ ((t.core s.cur).seq s.strm.other).stopped = false)
  ∧ (∀ (s : State) (n : BitVec 3), (s.strm = .e → (s.core s.cur).vrep = none) →
      s.runs (.ifence n) (s.atIssue.modSeq s.strm fun q => { q with buf := [], tbuf := [] }) = true →
      ∃ t, exec (.ifence n) s = .next t ∧ Stepped (s.setCore s.cur (s.atIssue.modSeq s.strm fun q => { q with buf := [], tbuf := [] })) t s.cur s.strm
        ∧ ((t.core s.cur).seq s.strm).buf = [] ∧ ((t.core s.cur).seq s.strm).tbuf = [])
  ∧ (∀ (s : State) (n : BitVec 3) (d : BitVec 5) (g : Gang), s.strm = .a → (s.core s.cur).gang = some g → (s.core s.cur).settled .a = true →
      s.canIssue = true → s.fwdFull s.cur .a = false → (s.core s.cur).a.jx = false →
      illegal .a (!(s.core s.cur).ctl.lvl) (s.core s.cur).a.hints (.ungang n d) = none →
      (s.core s.cur).selectorBefore .a n = true →
      ((n = 6 ∧ g.pos ≠ 0) ∨ (s.atIssue.resultX s.ctx d (BitVec.ofNat 64 g.pos)).selectorAfter s.ctx n s.atIssue.a = true) →
      ∃ t, exec (.ungang n d) s = .next t ∧ (t.core s.cur).a.regs = (s.atIssue.resultX s.ctx d (BitVec.ofNat 64 g.pos)).a.regs
        ∧ (g.pos + 1 ≠ g.size → (t.core s.cur).gang = some g)
        ∧ (g.pos + 1 = g.size → ∀ (m : Nat) (h : Gang), (s.core m).gang = some h → h.leader = g.leader → (t.core m).gang = none))
  ∧ ∀ (s : State) (tile : Nat) (j : JoinWait), (s.joins tile).length = 4 → (∃ n, (n, j) ∈ s.joins tile) →
      (∀ p ∈ s.joins tile, p.2.src = j.src ∧ p.2.lb = j.lb ∧ p.2.bfmt = j.bfmt ∧ codeWidth p.2.afmt = codeWidth j.bfmt) →
      (∀ e ∈ (s.core (4 * tile + j.src)).mat.queue, e.word.target? ≠ some (2 + j.lb) ∧ e.word.target? ≠ some (6 + j.lb)) →
      ∃ t, exec (.mmajJoin tile) s = .next t ∧ ∀ p ∈ s.joins tile,
        (t.core p.1).join = some { p.2 with result := some none }
        ∧ (t.core p.1).mat.queue = (s.core p.1).mat.queue ++ [⟨.mma p.2.acc p.2.la p.2.afmt p.2.lb p.2.bfmt 0 p.2.mask
            (some ((s.core (4 * tile + j.src)).mat.bLat, (s.core (4 * tile + j.src)).mat.bScale)), false⟩]
        ∧ Move.event (.multiplyStart p.1) ∈ t.plan

/-- SYSR, SYSW and GETID complete (R107, R338). -/
def Obligations.SystemWords : Prop := Effects systemWord

/-- SLEEP ends with its status (R88), HALT stops its stream, and the core with the second of them (R83, R415). -/
def Obligations.SleepAndHaltWords : Prop :=
  Completes id sleepWord ∧ Completes id haltWord
    ∧ ∀ (s : State) (n : BitVec 3), issuesAlone s (.halt n) = true → (s.core s.cur).selectorBefore s.strm n = true →
      ((s.core s.cur).seq s.strm.other).halted = true → ((s.core s.cur).cmds.any fun k => k.strm == s.strm && k.detached == 0) = false →
      (s.strm = .e → (s.core s.cur).eSafe = true) →
      ∃ t, exec (.halt n) s = .next t ∧ (t.core s.cur).run = .done ∧ (3, s.cur) ∈ t.reports

/-- The words of global memory, the fences and STINV complete (R242 to R253, R268 to R272, R281 to R284, R361). -/
def Obligations.GlobalWords : Prop := Effects globalWord

/-- The words that reach other cores complete (R163, R168 to R170, R298 to R307). That a reduction is measured by the contribution whose REDUCE issued
first is the model's choice (log entry 36). -/
def Obligations.RemoteWords : Prop := Effects remoteWord

/-- The words of the matrix slice complete, MMAJ once its join is decided (R200 to R218). That MMAP writes the row map as it issues is the model's choice
(log entry 23). -/
def Obligations.MatrixWords : Prop := Effects matrixWord ∧ Effects joinedWord

/-- The words of the points network complete (R220 to R237). -/
def Obligations.PointsWords : Prop := Effects pointsWord

/-- PEQ compares two points registers on all 64 rows (R235). -/
def Obligations.EqualPointsCompare : Prop :=
  ∀ (s : State) (n : BitVec 3) (d a b : BitVec 5), s.strm = .e → (s.core s.cur).settled .e = true → (s.core s.cur).port = none →
    s.runs (.peq n d a b) (s.atIssue.modSeq .e fun q => q.setPred d.toNat (((s.core s.cur).points a.toNat).valid && ((s.core s.cur).points b.toNat).valid
      && ((s.core s.cur).points a.toNat).idx == ((s.core s.cur).points b.toNat).idx)) = true →
    ∃ t, exec (.peq n d a b) s = .next t
      ∧ (d ≠ 0 → ((t.core s.cur).e.pred d.toNat = true ↔ ((s.core s.cur).points a.toNat).valid = true ∧ ((s.core s.cur).points b.toNat).valid = true
        ∧ ((s.core s.cur).points a.toNat).idx = ((s.core s.cur).points b.toNat).idx))
      ∧ ∀ p, p ≠ d.toNat ∨ d = 0 → (t.core s.cur).e.pred p = (s.core s.cur).e.pred p

/-- BAR, BARX and PHASE complete with the object's answer, and UNGANG outside a gang with -1 (R286, R309, R322, R333). -/
def Obligations.BarrierWords : Prop := Effects barrierWord

/-- GANG completes with the core's position in its gang, for the leader when every other member's has (R330). -/
def Obligations.GangCompletes : Prop :=
  ∀ (s : State) (d a : BitVec 5) (size since : Nat) (ready : Bool), (s.core s.cur).wait = some (.gang size since ready (some 0)) →
    (s.core s.cur).settled .a = true → s.strm = .a → s.canIssue = true → s.fwdFull s.cur .a = false → (s.core s.cur).a.jx = false →
    (s.core s.cur).selectorBefore .a 7 = true →
    illegal .a (!(s.core s.cur).ctl.lvl) (s.core s.cur).a.hints (.gang d a) = none →
    (posIn (gangCores s.cur size) s.cur ≠ 0 ∨ ((gangCores s.cur size).all fun m => m == s.cur || !(s.core m).atGang) = true) →
    ∃ t, exec (.gang d a) s = .next t ∧ (t.core s.cur).wait = none ∧ (t.core s.cur).gang = (s.core s.cur).gang
      ∧ (t.core s.cur).a.regs = (s.atIssue.resultX s.ctx d (BitVec.ofNat 64 (posIn (gangCores s.cur size) s.cur))).a.regs

/-- XBEGIN completes once the phase has begun, XEND after it, and XMIT and XSEL run in the timetable (R308 to R313). -/
def Obligations.ExchangeWords : Prop := Completes id exchangeWord ∧ Timetabled trackWord

/-- The words of tasks and pipelines complete (R344, R347, R348, R355, R356). That SPAWN releases at DEVICE and waits, the memory from which sidings are
counted, and AWAIT and YIELD from main code are the model's choices (log entries 43, 44 and 45). -/
def Obligations.TaskWords : Prop := Effects taskWord

/-- The words that ask the census complete (R376 to R378). -/
def Obligations.CensusWords : Prop := Effects censusWord

/-- SCORE, HEAT and TQ complete (R391 to R394). -/
def Obligations.TournamentWords : Prop := Effects tourneyWord

/-- TQ reads 0 in no scope, and otherwise what its selector names; SCORE outside a scope raises TOURNEY_FAULT with subcode 1 (R394). -/
def Obligations.TournamentQuery : Prop :=
  (∀ (s : State) (n sel : Nat), (s.core n).scope.1 = 0 → s.tqValue n sel = 0)
    ∧ (∀ (s : State) (n id : Nat) (k : Scope) (t : Contestant), s.contestant n = some (id, k, t) →
      s.tqValue n 0 = BitVec.ofNat 64 k.round ∧ s.tqValue n 1 = (s.core n).ctl.tshare ∧ s.tqValue n 2 = BitVec.ofNat 64 (s.core n).scope.2
        ∧ s.tqValue n 3 = BitVec.ofNat 64 (k.contestants.countP fun t => t.alive) ∧ s.tqValue n 4 = BitVec.ofNat 64 (2 ^ (k.lb + k.round)))
    ∧ ∀ (s : State) (i : Instr) (n : BitVec 3) (a : BitVec 5), i = .scoreS64 n a ∨ i = .scoreZ64 n a ∨ i = .scoreF64 n a ∨ i = .scoreClr n →
      (s.core s.cur).settled s.strm = true → issuesAlone s i = true → (s.core s.cur).selectorBefore s.strm n = true → (s.core s.cur).scope.1 = 0 →
      takes (s.core s.cur) 24 = true → ∃ t, exec i s = .next t ∧ onlyCore s t s.cur
        ∧ Trapped (s.core s.cur) (t.core s.cur) s.strm 24 1 0 0 ((s.core s.cur).seq s.strm).pc ((s.core s.cur).seq s.strm).groupStart

/-- The words that wait for the outside send what they wait for, and stand (R81, R88, R211, R286, R310, R322, R330, R345, R347, R348, R393). -/
def Obligations.WaitingWords : Prop := Holds waitWord ∧ Holds joinWord ∧ Holds leaveWord ∧ Holds pauseWord

/-! ### D. What the steps of the device do -/

/-- Fetch, late results, punty buffers, traps, events and registers of a core (R61, R64, R88, R95, R96, R118, R406, R410, R411). That a reserved rounding
mode written by the device makes the stream's next word trap is the model's choice (log entry 68). -/
def Obligations.CoreSteps : Prop := Happens coreStep

/-- Pre-emption, contexts, paired safe points, barrier objects, gangs and exchange phases (R82, R309 to R337). The link tag that no LIVE map keeps, the
time-outs out of their range, and the fence that is pending at a save are the model's choices (log entries 53, 115 and 117). -/
def Obligations.GroupSteps : Prop := Happens contextStep ∧ Happens groupStep ∧ Happens exchangeStep

/-- The SAU and the vector sequencer (R174 to R177, R195). -/
def Obligations.VectorSteps : Prop := Happens sauStep

/-- The matrix slice and the joins of a tile (R162 to R164, R200 to R217). -/
def Obligations.MatrixSteps : Prop := Happens matrixStep

/-- The solver and the application of points (R222 to R225, R237). -/
def Obligations.PointsSteps : Prop := Happens solveStep

/-- Commands, translation, faults and the engine of copies (R245, R253 to R267). -/
def Obligations.CommandSteps : Prop := Happens commandStep

/-- Releases, acquires, AMOs and distributors (R276 to R284, R361). That an AMO's destination is written after the acquire, and the answer of a
distributor in the far tier, are the model's choices (log entries 18 and 20). -/
def Obligations.OrderSteps : Prop := Happens orderStep

/-- Domains, pipelines and the shunter (R345, R347, R354 to R358). The phase that a grant returns, and what becomes of a malformed record, are the
model's choices (log entries 47 and 119). -/
def Obligations.TaskSteps : Prop := Happens taskStep

/-- The census, re-casts and leases (R366 to R383). That a page's bytes stand in one place while they move, and when an expiry is seen, are the model's
choices (log entries 51 and 52). -/
def Obligations.CensusSteps : Prop := Happens censusStep

/-- Rounds and scopes of tournaments (R389 to R398). -/
def Obligations.TournamentSteps : Prop := Happens tourneyStep

/-- Packets, deposits, notifies and reductions in the network (R98, R101, R170, R293 to R299, R305, R306); and when time passes, a remote write, a
deposit or a notify that has arrived in the cycle lands (R101, R153, R170, R300): stated where nothing else lands, and no core sleeps or stands at a
queue. The table of occupancies that the routers read, and when a reserved slot falls, are the model's choices (log entries 35 and 103). -/
def Obligations.NetworkSteps : Prop :=
  Happens networkStep
    ∧ ∀ (s : State) (cycles ns : Nat) (r : List Move) (p : Packet) (t : State), s.plan = .tick cycles ns :: r → cycles ≠ 0 → s.isl.busy = false →
      s.packets.filter (fun q => q.phase == 7 || q.phase == 9) = [p] →
      (s.cores.all fun c => !(match c.2.msg.latch with | some d => d.due | none => false) && !c.2.msg.devDue && c.2.wait.isNone && !c.2.queueStuck) = true →
      landed { s with plan := r } { p with phase := 0 } (p.phase == 9) = some t →
      step s = .next { t with cycle := s.cycle + cycles, ns := s.ns + ns }

/-- Queues and their packets (R418 to R425). The codes of malformed descriptors and lists are the model's choice (log entry 72). -/
def Obligations.QueueSteps : Prop := Happens queueStep

/-- Host ports, links, error sites and the kernel's harts (R280, R427 to R436). The numbers of units and of parties, and what a hart's access to a byte
that is unmapped or poisoned does, are the model's choices (log entries 29, 89 and 99). -/
def Obligations.PortSteps : Prop := Happens portStep

/-- Power modes, firmware, attestation, heartbeats and the reset of the device (R263, R426, R437 to R442). The beat that counts a miss, the tag of a
message, and the layout of an image are the model's choices (log entries 87 and 88). -/
def Obligations.IslandSteps : Prop := Happens islandStep

/-! ### E. Rules about the whole module -/

/-- A refused access changes nothing at the owner, and its sender gets a negative acknowledgement (R167): a read that no window grants, a deposit or a
notify that no window admits, as it arrives; a write that no window grants, when it would land. -/
def Obligations.RefusedAccessesChangeNothing : Prop :=
  ∀ (s : State) (p : Packet) (n : Nat), s.packet? p.id = some p → s.landing p = .at_ n → n ≠ p.src →
    (∀ i : Instr, p.phase = 0 →
      ((i = .packetArrival p.id ∧ ∃ a len back, p.pay = .read a len back ∧ ((s.core n).admitting fun w => windowGrants w 62 a len (s.core p.src)) = none)
        ∨ (i = .depositArrival p.id ∧ ∃ reg v retry, p.pay = .deposit reg v retry false
          ∧ ((s.core n).admitting fun w => windowDeposits w (some reg) (s.core p.src)) = none)
        ∨ (i = .notifyArrival p.id ∧ ∃ m, p.pay = .notify m ∧ ((s.core n).admitting fun w => windowDeposits w none (s.core p.src)) = none)) →
      exec i s = .next (s.settle p (-1)))
    ∧ (∀ kind a bs post, p.pay = .write kind a bs post → ((s.core n).admitting fun w => windowGrants w 61 a bs.length (s.core p.src)) = none →
      s.landNow p false = s.settle p (-1))
    ∧ (s.settle p (-1)).core n = s.core n

/-- A corrected error increments its unit's counter, up to 2^32 - 1, and the unit's first error beyond its own threshold in an hour sends one
machine-check record; the default threshold is 1,024 (R436). That the hours count from reset, and the numbers of the units, are the model's choice (log
entries 28 and 29). -/
def Obligations.CorrectedErrorsCount : Prop :=
  (∀ u, Store.get 1024 State.reset.isl.thresholds u = 1024) ∧ ∀ (s : State) (site : ErrSite) (unit : Nat),
    ((∃ loc, site = .hbm loc ∧ loc < farBase ∧ unit = stationOfLoc loc)
      ∨ (∃ n a, site = .ulm n a ∧ n < Config.cores ∧ a < Config.ulmBytes ∧ unit = 16 + n)
      ∨ ∃ n h, site = .reg n h ∧ n < Config.cores ∧ unit = 9232 + n) →
    ∃ t, exec (.softError site false) s = .next t
      ∧ Store.get 0 t.isl.corrected unit = Nat.min (Store.get 0 s.isl.corrected unit + 1) 4294967295
      ∧ (∀ u, u ≠ unit → Store.get 0 t.isl.corrected u = Store.get 0 s.isl.corrected u)
      ∧ t.isl.records = s.isl.records ++ (if (if (Store.get (0, 0, 0) s.isl.hourly unit).1 = s.ns / 3600000000000 then
            (Store.get (0, 0, 0) s.isl.hourly unit).2.2 = 0
              ∧ Store.get 1024 s.isl.thresholds unit < (Store.get (0, 0, 0) s.isl.hourly unit).2.1 + 1
          else Store.get 1024 s.isl.thresholds unit < 1) then [(1, unit)] else [])
      ∧ t.core = s.core ∧ t.home = s.home
end

