-- ==== Sys2Proof/Laws/Dispatch.lean ====
section
/-!
SUPPORT. The arms of exec, one law each: the meaning that an instruction runs.
-/

namespace Sys2Proof.Machine

@[simp] theorem exec_add {s : State} {n} {d} {x} {t} {q} : exec (.add n d x t q) s = execAdd n d x t q s := rfl
@[simp] theorem exec_sub {s : State} {n} {d} {x} {t} {q} : exec (.sub n d x t q) s = execSub n d x t q s := rfl
@[simp] theorem exec_and {s : State} {n} {d} {x} {t} {q} : exec (.and n d x t q) s = execAnd n d x t q s := rfl
@[simp] theorem exec_or {s : State} {n} {d} {x} {t} {q} : exec (.or n d x t q) s = execOr n d x t q s := rfl
@[simp] theorem exec_xor {s : State} {n} {d} {x} {t} {q} : exec (.xor n d x t q) s = execXor n d x t q s := rfl
@[simp] theorem exec_shl {s : State} {n} {d} {x} {t} {q} : exec (.shl n d x t q) s = execShl n d x t q s := rfl
@[simp] theorem exec_shr {s : State} {n} {d} {x} {t} {q} : exec (.shr n d x t q) s = execShr n d x t q s := rfl
@[simp] theorem exec_sha {s : State} {n} {d} {x} {t} {q} : exec (.sha n d x t q) s = execSha n d x t q s := rfl
@[simp] theorem exec_min {s : State} {n} {d} {x} {t} {q} : exec (.min n d x t q) s = execMin n d x t q s := rfl
@[simp] theorem exec_minZ64 {s : State} {n} {d} {x} {t} {q} : exec (.minZ64 n d x t q) s = execMinZ64 n d x t q s := rfl
@[simp] theorem exec_max {s : State} {n} {d} {x} {t} {q} : exec (.max n d x t q) s = execMax n d x t q s := rfl
@[simp] theorem exec_maxZ64 {s : State} {n} {d} {x} {t} {q} : exec (.maxZ64 n d x t q) s = execMaxZ64 n d x t q s := rfl
@[simp] theorem exec_clz {s : State} {n} {d} {x} {q} : exec (.clz n d x q) s = execClz n d x q s := rfl
@[simp] theorem exec_popc {s : State} {n} {d} {x} {q} : exec (.popc n d x q) s = execPopc n d x q s := rfl
@[simp] theorem exec_mov {s : State} {n} {d} {x} {q} : exec (.mov n d x q) s = execMov n d x q s := rfl
@[simp] theorem exec_movFromCtl {s : State} {n} {d} {c} : exec (.movFromCtl n d c) s = execMovFromCtl n d c s := rfl
@[simp] theorem exec_movToCtl {s : State} {n} {c} {x} : exec (.movToCtl n c x) s = execMovToCtl n c x s := rfl
@[simp] theorem exec_shlImm {s : State} {n} {d} {x} {im} {q} {h} : exec (.shlImm n d x im q h) s = execShlImm n d x im q h s := rfl
@[simp] theorem exec_shrImm {s : State} {n} {d} {x} {im} {q} {h} : exec (.shrImm n d x im q h) s = execShrImm n d x im q h s := rfl
@[simp] theorem exec_shaImm {s : State} {n} {d} {x} {im} {q} {h} : exec (.shaImm n d x im q h) s = execShaImm n d x im q h s := rfl
@[simp] theorem exec_sel {s : State} {n} {d} {x} {t} {q} {p} : exec (.sel n d x t q p) s = execSel n d x t q p s := rfl
@[simp] theorem exec_mul {s : State} {n} {d} {x} {t} {q} : exec (.mul n d x t q) s = execMul n d x t q s := rfl
@[simp] theorem exec_mulh {s : State} {n} {d} {x} {t} {q} : exec (.mulh n d x t q) s = execMulh n d x t q s := rfl
@[simp] theorem exec_mulhZ64 {s : State} {n} {d} {x} {t} {q} : exec (.mulhZ64 n d x t q) s = execMulhZ64 n d x t q s := rfl
@[simp] theorem exec_div {s : State} {n} {d} {x} {t} {q} : exec (.div n d x t q) s = execDiv n d x t q s := rfl
@[simp] theorem exec_divZ64 {s : State} {n} {d} {x} {t} {q} : exec (.divZ64 n d x t q) s = execDivZ64 n d x t q s := rfl
@[simp] theorem exec_rem {s : State} {n} {d} {x} {t} {q} : exec (.rem n d x t q) s = execRem n d x t q s := rfl
@[simp] theorem exec_remZ64 {s : State} {n} {d} {x} {t} {q} : exec (.remZ64 n d x t q) s = execRemZ64 n d x t q s := rfl
@[simp] theorem exec_cmp {s : State} {n} {d} {x} {t} {p} {im} {k} : exec (.cmp n d x t p im k) s = execCmp n d x t p im k s := rfl
@[simp] theorem exec_bfx {s : State} {n} {d} {x} {t} : exec (.bfx n d x t) s = execBfx n d x t s := rfl
@[simp] theorem exec_bfxZ64 {s : State} {n} {d} {x} {t} : exec (.bfxZ64 n d x t) s = execBfxZ64 n d x t s := rfl
@[simp] theorem exec_bfi {s : State} {n} {d} {x} {t} : exec (.bfi n d x t) s = execBfi n d x t s := rfl
@[simp] theorem exec_lea {s : State} {n} {d} {x} {t} {c} : exec (.lea n d x t c) s = execLea n d x t c s := rfl
@[simp] theorem exec_geom {s : State} {n} {d} {x} {c} : exec (.geom n d x c) s = execGeom n d x c s := rfl
@[simp] theorem exec_addImm {s : State} {n} {d} {x} {im} : exec (.addImm n d x im) s = execAddImm n d x im s := rfl
@[simp] theorem exec_andImm {s : State} {n} {d} {x} {im} : exec (.andImm n d x im) s = execAndImm n d x im s := rfl
@[simp] theorem exec_orImm {s : State} {n} {d} {x} {im} : exec (.orImm n d x im) s = execOrImm n d x im s := rfl
@[simp] theorem exec_xorImm {s : State} {n} {d} {x} {im} : exec (.xorImm n d x im) s = execXorImm n d x im s := rfl
@[simp] theorem exec_ldS {s : State} {n} {d} {b} {z} {o} : exec (.ldS n d b z o) s = execLdS n d b z o s := rfl
@[simp] theorem exec_ldZ {s : State} {n} {d} {b} {z} {o} : exec (.ldZ n d b z o) s = execLdZ n d b z o s := rfl
@[simp] theorem exec_st {s : State} {n} {d} {b} {z} {o} : exec (.st n d b z o) s = execSt n d b z o s := rfl
@[simp] theorem exec_ldq {s : State} {n} {b} {z} {o} : exec (.ldq n b z o) s = execLdq n b z o s := rfl
@[simp] theorem exec_stq {s : State} {n} {b} {z} {o} : exec (.stq n b z o) s = execStq n b z o s := rfl
@[simp] theorem exec_vldq {s : State} {n} {b} {o} : exec (.vldq n b o) s = execVldq n b o s := rfl
@[simp] theorem exec_vstq {s : State} {n} {b} {o} : exec (.vstq n b o) s = execVstq n b o s := rfl
@[simp] theorem exec_ldb {s : State} {n} {d} {b} {w} {p} : exec (.ldb n d b w p) s = execLdb n d b w p s := rfl
@[simp] theorem exec_ldbS64 {s : State} {n} {d} {b} {w} {p} : exec (.ldbS64 n d b w p) s = execLdbS64 n d b w p s := rfl
@[simp] theorem exec_stb {s : State} {n} {b} {x} {w} {p} : exec (.stb n b x w p) s = execStb n b x w p s := rfl
@[simp] theorem exec_rot {s : State} {n} {t} {a} {l} {d} : exec (.rot n t a l d) s = execRot n t a l d s := rfl
@[simp] theorem exec_putr {s : State} {n} {t} {l} {b} : exec (.putr n t l b) s = execPutr n t l b s := rfl
@[simp] theorem exec_getr {s : State} {n} {t} {l} {b} : exec (.getr n t l b) s = execGetr n t l b s := rfl
@[simp] theorem exec_copy {s : State} {n} {t} {l} {b} {d} {q} {e} {c} {h} : exec (.copy n t l b d q e c h) s = execCopy n t l b d q e c h s := rfl
@[simp] theorem exec_copy2 {s : State} {n} {t} {l} {b} {d} {q} {e} {c} {h} : exec (.copy2 n t l b d q e c h) s = execCopy2 n t l b d q e c h s := rfl
@[simp] theorem exec_copyp {s : State} {n} {t} {l} {b} {d} {q} {e} {c} {h} : exec (.copyp n t l b d q e c h) s = execCopyp n t l b d q e c h s := rfl
@[simp] theorem exec_gld {s : State} {n} {t} {b} {x} {z} {h} : exec (.gld n t b x z h) s = execGld n t b x z h s := rfl
@[simp] theorem exec_gst {s : State} {n} {t} {x} {b} {z} {h} : exec (.gst n t x b z h) s = execGst n t x b z h s := rfl
@[simp] theorem exec_amo {s : State} {n} {t} {x} {b} {o} {g} {c} : exec (.amo n t x b o g c) s = execAmo n t x b o g c s := rfl
@[simp] theorem exec_deposit {s : State} {n} {t} {x} {b} {y} : exec (.deposit n t x b y) s = execDeposit n t x b y s := rfl
@[simp] theorem exec_notify {s : State} {n} {t} {x} {b} : exec (.notify n t x b) s = execNotify n t x b s := rfl
@[simp] theorem exec_ntake {s : State} {n} {d} : exec (.ntake n d) s = execNtake n d s := rfl
@[simp] theorem exec_mcast {s : State} {n} {t} {l} {b} {y} : exec (.mcast n t l b y) s = execMcast n t l b y s := rfl
@[simp] theorem exec_reduce {s : State} {n} {t} {l} {b} {f} {o} {y} : exec (.reduce n t l b f o y) s = execReduce n t l b f o y s := rfl
@[simp] theorem exec_redabort {s : State} {n} {t} {b} : exec (.redabort n t b) s = execRedabort n t b s := rfl
@[simp] theorem exec_query {s : State} {n} {t} {l} {b} : exec (.query n t l b) s = execQuery n t l b s := rfl
@[simp] theorem exec_queryM {s : State} {n} {t} {l} {b} : exec (.queryM n t l b) s = execQueryM n t l b s := rfl
@[simp] theorem exec_take {s : State} {n} {d} {m} : exec (.take n d m) s = execTake n d m s := rfl
@[simp] theorem exec_peek {s : State} {n} {d} {m} {p} : exec (.peek n d m p) s = execPeek n d m p s := rfl
@[simp] theorem exec_waitm {s : State} {n} {d} {x} : exec (.waitm n d x) s = execWaitm n d x s := rfl
@[simp] theorem exec_putm {s : State} {n} {m} {x} : exec (.putm n m x) s = execPutm n m x s := rfl
@[simp] theorem exec_waitn {s : State} {n} {d} {c} {t} : exec (.waitn n d c t) s = execWaitn n d c t s := rfl
@[simp] theorem exec_setn {s : State} {n} {c} {x} : exec (.setn n c x) s = execSetn n c x s := rfl
@[simp] theorem exec_decn {s : State} {n} {c} {x} : exec (.decn n c x) s = execDecn n c x s := rfl
@[simp] theorem exec_bar {s : State} {n} {d} {g} : exec (.bar n d g) s = execBar n d g s := rfl
@[simp] theorem exec_barx {s : State} {n} {d} {g} : exec (.barx n d g) s = execBarx n d g s := rfl
@[simp] theorem exec_phase {s : State} {n} {d} {g} {c} : exec (.phase n d g c) s = execPhase n d g c s := rfl
@[simp] theorem exec_fence {s : State} {n} {c} {o} {p} {x} : exec (.fence n c o p x) s = execFence n c o p x s := rfl
@[simp] theorem exec_gang {s : State} {d} {x} : exec (.gang d x) s = execGang d x s := rfl
@[simp] theorem exec_ungang {s : State} {n} {d} : exec (.ungang n d) s = execUngang n d s := rfl
@[simp] theorem exec_spawn {s : State} {n} {d} {a} {e} : exec (.spawn n d a e) s = execSpawn n d a e s := rfl
@[simp] theorem exec_spawnC {s : State} {n} {d} {a} {e} : exec (.spawnC n d a e) s = execSpawnC n d a e s := rfl
@[simp] theorem exec_await {s : State} {d} {t} : exec (.await d t) s = execAwait d t s := rfl
@[simp] theorem exec_yield {s : State} {d} : exec (.yield d) s = execYield d s := rfl
@[simp] theorem exec_retire {s : State} : exec (.retire) s = execRetire s := rfl
@[simp] theorem exec_retireCancel {s : State} : exec (.retireCancel) s = execRetireCancel s := rfl
@[simp] theorem exec_prod {s : State} {n} {d} {x} : exec (.prod n d x) s = execProd n d x s := rfl
@[simp] theorem exec_cons {s : State} {n} {d} : exec (.cons n d) s = execCons n d s := rfl
@[simp] theorem exec_snext {s : State} {n} {d} : exec (.snext n d) s = execSnext n d s := rfl
@[simp] theorem exec_prodClose {s : State} {n} {d} : exec (.prodClose n d) s = execProdClose n d s := rfl
@[simp] theorem exec_lease {s : State} {n} {d} {x} {t} : exec (.lease n d x t) s = execLease n d x t s := rfl
@[simp] theorem exec_leaseR {s : State} {n} {d} {h} {t} : exec (.leaseR n d h t) s = execLeaseR n d h t s := rfl
@[simp] theorem exec_ldrop {s : State} {n} {d} {h} : exec (.ldrop n d h) s = execLdrop n d h s := rfl
@[simp] theorem exec_roleq {s : State} {n} {d} {x} {c} : exec (.roleq n d x c) s = execRoleq n d x c s := rfl
@[simp] theorem exec_scoreS64 {s : State} {n} {x} : exec (.scoreS64 n x) s = execScoreS64 n x s := rfl
@[simp] theorem exec_scoreZ64 {s : State} {n} {x} : exec (.scoreZ64 n x) s = execScoreZ64 n x s := rfl
@[simp] theorem exec_scoreF64 {s : State} {n} {x} : exec (.scoreF64 n x) s = execScoreF64 n x s := rfl
@[simp] theorem exec_scoreClr {s : State} {n} : exec (.scoreClr n) s = execScoreClr n s := rfl
@[simp] theorem exec_heat {s : State} {d} : exec (.heat d) s = execHeat d s := rfl
@[simp] theorem exec_tq {s : State} {n} {d} {c} : exec (.tq n d c) s = execTq n d c s := rfl
@[simp] theorem exec_fadd {s : State} {n} {d} {x} {t} {q} {f} : exec (.fadd n d x t q f) s = execFadd n d x t q f s := rfl
@[simp] theorem exec_fsub {s : State} {n} {d} {x} {t} {q} {f} : exec (.fsub n d x t q f) s = execFsub n d x t q f s := rfl
@[simp] theorem exec_fmul {s : State} {n} {d} {x} {t} {q} {f} : exec (.fmul n d x t q f) s = execFmul n d x t q f s := rfl
@[simp] theorem exec_fmin {s : State} {n} {d} {x} {t} {q} {f} : exec (.fmin n d x t q f) s = execFmin n d x t q f s := rfl
@[simp] theorem exec_fmax {s : State} {n} {d} {x} {t} {q} {f} : exec (.fmax n d x t q f) s = execFmax n d x t q f s := rfl
@[simp] theorem exec_fma {s : State} {n} {d} {x} {t} {f} : exec (.fma n d x t f) s = execFma n d x t f s := rfl
@[simp] theorem exec_fdiv {s : State} {n} {d} {x} {t} {q} {f} : exec (.fdiv n d x t q f) s = execFdiv n d x t q f s := rfl
@[simp] theorem exec_fsqrt {s : State} {n} {d} {x} {q} {f} : exec (.fsqrt n d x q f) s = execFsqrt n d x q f s := rfl
@[simp] theorem exec_fcmp {s : State} {n} {d} {x} {t} {p} {f} {k} : exec (.fcmp n d x t p f k) s = execFcmp n d x t p f k s := rfl
@[simp] theorem exec_fcvt {s : State} {n} {d} {a} {c} {x} : exec (.fcvt n d a c x) s = execFcvt n d a c x s := rfl
@[simp] theorem exec_fclass {s : State} {n} {d} {x} {f} : exec (.fclass n d x f) s = execFclass n d x f s := rfl
@[simp] theorem exec_vadd {s : State} {n} {d} {a} {b} {k} {w} : exec (.vadd n d a b k w) s = execVadd n d a b k w s := rfl
@[simp] theorem exec_vsub {s : State} {n} {d} {a} {b} {k} {w} : exec (.vsub n d a b k w) s = execVsub n d a b k w s := rfl
@[simp] theorem exec_vmul {s : State} {n} {d} {a} {b} {k} {w} : exec (.vmul n d a b k w) s = execVmul n d a b k w s := rfl
@[simp] theorem exec_vmin {s : State} {n} {d} {a} {b} {k} {w} : exec (.vmin n d a b k w) s = execVmin n d a b k w s := rfl
@[simp] theorem exec_vmax {s : State} {n} {d} {a} {b} {k} {w} : exec (.vmax n d a b k w) s = execVmax n d a b k w s := rfl
@[simp] theorem exec_vshl {s : State} {n} {d} {a} {b} {k} {w} : exec (.vshl n d a b k w) s = execVshl n d a b k w s := rfl
@[simp] theorem exec_vshr {s : State} {n} {d} {a} {b} {k} {w} : exec (.vshr n d a b k w) s = execVshr n d a b k w s := rfl
@[simp] theorem exec_vsha {s : State} {n} {d} {a} {b} {k} {w} : exec (.vsha n d a b k w) s = execVsha n d a b k w s := rfl
@[simp] theorem exec_vfadd {s : State} {n} {d} {a} {b} {k} {f} : exec (.vfadd n d a b k f) s = execVfadd n d a b k f s := rfl
@[simp] theorem exec_vfsub {s : State} {n} {d} {a} {b} {k} {f} : exec (.vfsub n d a b k f) s = execVfsub n d a b k f s := rfl
@[simp] theorem exec_vfmul {s : State} {n} {d} {a} {b} {k} {f} : exec (.vfmul n d a b k f) s = execVfmul n d a b k f s := rfl
@[simp] theorem exec_vfmin {s : State} {n} {d} {a} {b} {k} {f} : exec (.vfmin n d a b k f) s = execVfmin n d a b k f s := rfl
@[simp] theorem exec_vfmax {s : State} {n} {d} {a} {b} {k} {f} : exec (.vfmax n d a b k f) s = execVfmax n d a b k f s := rfl
@[simp] theorem exec_vfrcp {s : State} {n} {d} {a} {k} {f} : exec (.vfrcp n d a k f) s = execVfrcp n d a k f s := rfl
@[simp] theorem exec_vfrsq {s : State} {n} {d} {a} {k} {f} : exec (.vfrsq n d a k f) s = execVfrsq n d a k f s := rfl
@[simp] theorem exec_vfabs {s : State} {n} {d} {a} {k} {f} : exec (.vfabs n d a k f) s = execVfabs n d a k f s := rfl
@[simp] theorem exec_vfma {s : State} {n} {d} {a} {b} {k} {f} : exec (.vfma n d a b k f) s = execVfma n d a b k f s := rfl
@[simp] theorem exec_vfms {s : State} {n} {d} {a} {b} {k} {f} : exec (.vfms n d a b k f) s = execVfms n d a b k f s := rfl
@[simp] theorem exec_vfnma {s : State} {n} {d} {a} {b} {k} {f} : exec (.vfnma n d a b k f) s = execVfnma n d a b k f s := rfl
@[simp] theorem exec_vfmaw {s : State} {n} {d} {a} {b} {k} {f} : exec (.vfmaw n d a b k f) s = execVfmaw n d a b k f s := rfl
@[simp] theorem exec_vcvt {s : State} {n} {d} {a} {c} {k} {x} : exec (.vcvt n d a c k x) s = execVcvt n d a c k x s := rfl
@[simp] theorem exec_vscale {s : State} {n} {d} {a} {b} {k} {c} {f} : exec (.vscale n d a b k c f) s = execVscale n d a b k c f s := rfl
@[simp] theorem exec_vunscale {s : State} {n} {d} {a} {b} {k} {c} {f} : exec (.vunscale n d a b k c f) s = execVunscale n d a b k c f s := rfl
@[simp] theorem exec_vcmp {s : State} {n} {d} {a} {b} {k} {f} {j} {w} : exec (.vcmp n d a b k f j w) s = execVcmp n d a b k f j w s := rfl
@[simp] theorem exec_vperm {s : State} {n} {d} {a} {b} {k} {w} : exec (.vperm n d a b k w) s = execVperm n d a b k w s := rfl
@[simp] theorem exec_vziplo {s : State} {n} {d} {a} {b} {k} {w} : exec (.vziplo n d a b k w) s = execVziplo n d a b k w s := rfl
@[simp] theorem exec_vziphi {s : State} {n} {d} {a} {b} {k} {w} : exec (.vziphi n d a b k w) s = execVziphi n d a b k w s := rfl
@[simp] theorem exec_vunzipe {s : State} {n} {d} {a} {b} {k} {w} : exec (.vunzipe n d a b k w) s = execVunzipe n d a b k w s := rfl
@[simp] theorem exec_vunzipo {s : State} {n} {d} {a} {b} {k} {w} : exec (.vunzipo n d a b k w) s = execVunzipo n d a b k w s := rfl
@[simp] theorem exec_vrev {s : State} {n} {d} {a} {k} {w} : exec (.vrev n d a k w) s = execVrev n d a k w s := rfl
@[simp] theorem exec_vcompress {s : State} {n} {d} {a} {k} {w} : exec (.vcompress n d a k w) s = execVcompress n d a k w s := rfl
@[simp] theorem exec_vradd {s : State} {n} {d} {a} {k} {w} : exec (.vradd n d a k w) s = execVradd n d a k w s := rfl
@[simp] theorem exec_vrmin {s : State} {n} {d} {a} {k} {w} : exec (.vrmin n d a k w) s = execVrmin n d a k w s := rfl
@[simp] theorem exec_vrmax {s : State} {n} {d} {a} {k} {w} : exec (.vrmax n d a k w) s = execVrmax n d a k w s := rfl
@[simp] theorem exec_vrfadd {s : State} {n} {d} {a} {k} {f} : exec (.vrfadd n d a k f) s = execVrfadd n d a k f s := rfl
@[simp] theorem exec_vrfmin {s : State} {n} {d} {a} {k} {f} : exec (.vrfmin n d a k f) s = execVrfmin n d a k f s := rfl
@[simp] theorem exec_vrfmax {s : State} {n} {d} {a} {k} {f} : exec (.vrfmax n d a k f) s = execVrfmax n d a k f s := rfl
@[simp] theorem exec_vtab {s : State} {n} {d} {a} {b} {k} {f} : exec (.vtab n d a b k f) s = execVtab n d a b k f s := rfl
@[simp] theorem exec_tload {s : State} {n} {d} {a} {b} : exec (.tload n d a b) s = execTload n d a b s := rfl
@[simp] theorem exec_tcfg {s : State} {n} {d} {a} : exec (.tcfg n d a) s = execTcfg n d a s := rfl
@[simp] theorem exec_vrep {s : State} {c} {e} : exec (.vrep c e) s = execVrep c e s := rfl
@[simp] theorem exec_vrepQ {s : State} {c} : exec (.vrepQ c) s = execVrepQ c s := rfl
@[simp] theorem exec_vmov {s : State} {n} {d} {a} {k} : exec (.vmov n d a k) s = execVmov n d a k s := rfl
@[simp] theorem exec_vmovFromVldq {s : State} {n} {d} : exec (.vmovFromVldq n d) s = execVmovFromVldq n d s := rfl
@[simp] theorem exec_vmovToVstq {s : State} {n} {a} : exec (.vmovToVstq n a) s = execVmovToVstq n a s := rfl
@[simp] theorem exec_vbcast {s : State} {n} {d} {a} {k} {w} : exec (.vbcast n d a k w) s = execVbcast n d a k w s := rfl
@[simp] theorem exec_vext {s : State} {n} {d} {a} {b} {w} : exec (.vext n d a b w) s = execVext n d a b w s := rfl
@[simp] theorem exec_vins {s : State} {n} {d} {a} {b} {w} : exec (.vins n d a b w) s = execVins n d a b w s := rfl
@[simp] theorem exec_vand {s : State} {n} {d} {a} {b} {k} : exec (.vand n d a b k) s = execVand n d a b k s := rfl
@[simp] theorem exec_vor {s : State} {n} {d} {a} {b} {k} : exec (.vor n d a b k) s = execVor n d a b k s := rfl
@[simp] theorem exec_vxor {s : State} {n} {d} {a} {b} {k} : exec (.vxor n d a b k) s = execVxor n d a b k s := rfl
@[simp] theorem exec_vandn {s : State} {n} {d} {a} {b} {k} : exec (.vandn n d a b k) s = execVandn n d a b k s := rfl
@[simp] theorem exec_vsel {s : State} {n} {d} {a} {b} {k} : exec (.vsel n d a b k) s = execVsel n d a b k s := rfl
@[simp] theorem exec_kand {s : State} {n} {d} {a} {b} : exec (.kand n d a b) s = execKand n d a b s := rfl
@[simp] theorem exec_kor {s : State} {n} {d} {a} {b} : exec (.kor n d a b) s = execKor n d a b s := rfl
@[simp] theorem exec_kxor {s : State} {n} {d} {a} {b} : exec (.kxor n d a b) s = execKxor n d a b s := rfl
@[simp] theorem exec_knot {s : State} {n} {d} {a} : exec (.knot n d a) s = execKnot n d a s := rfl
@[simp] theorem exec_kfromv {s : State} {n} {d} {a} : exec (.kfromv n d a) s = execKfromv n d a s := rfl
@[simp] theorem exec_vfromk {s : State} {n} {d} {a} : exec (.vfromk n d a) s = execVfromk n d a s := rfl
@[simp] theorem exec_kpopc {s : State} {n} {d} {a} : exec (.kpopc n d a) s = execKpopc n d a s := rfl
@[simp] theorem exec_movEFromCtl {s : State} {n} {d} {c} : exec (.movEFromCtl n d c) s = execMovEFromCtl n d c s := rfl
@[simp] theorem exec_movEToCtl {s : State} {n} {c} {x} : exec (.movEToCtl n c x) s = execMovEToCtl n c x s := rfl
@[simp] theorem exec_mld {s : State} {n} {t} {l} {b} {f} {x} {g} : exec (.mld n t l b f x g) s = execMld n t l b f x g s := rfl
@[simp] theorem exec_mma {s : State} {n} {c} {a} {f} {b} {g} {k} : exec (.mma n c a f b g k) s = execMma n c a f b g k s := rfl
@[simp] theorem exec_mzero {s : State} {n} {c} {k} : exec (.mzero n c k) s = execMzero n c k s := rfl
@[simp] theorem exec_mmaj {s : State} {n} {c} {a} {f} {b} {g} {k} {x} : exec (.mmaj n c a f b g k x) s = execMmaj n c a f b g k x s := rfl
@[simp] theorem exec_mmas {s : State} {n} {c} {a} {f} {b} {g} {k} {x} : exec (.mmas n c a f b g k x) s = execMmas n c a f b g k x s := rfl
@[simp] theorem exec_mst {s : State} {n} {t} {l} {b} {c} {f} : exec (.mst n t l b c f) s = execMst n t l b c f s := rfl
@[simp] theorem exec_mmap {s : State} {n} {x} : exec (.mmap n x) s = execMmap n x s := rfl
@[simp] theorem exec_pld {s : State} {n} {d} {a} {b} : exec (.pld n d a b) s = execPld n d a b s := rfl
@[simp] theorem exec_pldSet {s : State} {n} {d} {a} : exec (.pldSet n d a) s = execPldSet n d a s := rfl
@[simp] theorem exec_pid {s : State} {n} {d} {a} : exec (.pid n d a) s = execPid n d a s := rfl
@[simp] theorem exec_pst {s : State} {n} {d} {a} : exec (.pst n d a) s = execPst n d a s := rfl
@[simp] theorem exec_pstSet {s : State} {n} {d} {a} : exec (.pstSet n d a) s = execPstSet n d a s := rfl
@[simp] theorem exec_pmov {s : State} {n} {d} {a} : exec (.pmov n d a) s = execPmov n d a s := rfl
@[simp] theorem exec_prot {s : State} {n} {d} {a} {b} : exec (.prot n d a b) s = execProt n d a b s := rfl
@[simp] theorem exec_pcomp {s : State} {n} {d} {a} {b} : exec (.pcomp n d a b) s = execPcomp n d a b s := rfl
@[simp] theorem exec_pinv {s : State} {n} {d} {a} : exec (.pinv n d a) s = execPinv n d a s := rfl
@[simp] theorem exec_prand {s : State} {n} {d} {a} {b} : exec (.prand n d a b) s = execPrand n d a b s := rfl
@[simp] theorem exec_pcyc {s : State} {n} {d} {a} {b} {x} : exec (.pcyc n d a b x) s = execPcyc n d a b x s := rfl
@[simp] theorem exec_peq {s : State} {n} {d} {a} {b} : exec (.peq n d a b) s = execPeq n d a b s := rfl
@[simp] theorem exec_papply {s : State} {n} {t} {l} {b} {im} {p} : exec (.papply n t l b im p) s = execPapply n t l b im p s := rfl
@[simp] theorem exec_xbegin {s : State} {d} {g} {l} : exec (.xbegin d g l) s = execXbegin d g l s := rfl
@[simp] theorem exec_xend {s : State} {d} : exec (.xend d) s = execXend d s := rfl
@[simp] theorem exec_xmit {s : State} {c} {r} {k} {t} : exec (.xmit c r k t) s = execXmit c r k t s := rfl
@[simp] theorem exec_xsel {s : State} {c} {r} {k} {t} : exec (.xsel c r k t) s = execXsel c r k t s := rfl
@[simp] theorem exec_sysr {s : State} {n} {x} {d} : exec (.sysr n x d) s = execSysr n x d s := rfl
@[simp] theorem exec_sysw {s : State} {n} {x} {d} : exec (.sysw n x d) s = execSysw n x d s := rfl
@[simp] theorem exec_spill {s : State} {n} {a} : exec (.spill n a) s = execSpill n a s := rfl
@[simp] theorem exec_fill {s : State} {n} {a} : exec (.fill n a) s = execFill n a s := rfl
@[simp] theorem exec_trap {s : State} {c} : exec (.trap c) s = execTrap c s := rfl
@[simp] theorem exec_tret {s : State} : exec (.tret) s = execTret s := rfl
@[simp] theorem exec_stinv {s : State} {n} {k} {a} : exec (.stinv n k a) s = execStinv n k a s := rfl
@[simp] theorem exec_nop {s : State} {n} : exec (.nop n) s = execNop n s := rfl
@[simp] theorem exec_loop {s : State} {n} {l} {c} {h} : exec (.loop n l c h) s = execLoop n l c h s := rfl
@[simp] theorem exec_loopQ {s : State} {n} {l} {h} : exec (.loopQ n l h) s = execLoopQ n l h s := rfl
@[simp] theorem exec_loopr {s : State} {n} {c} : exec (.loopr n c) s = execLoopr n c s := rfl
@[simp] theorem exec_looprQ {s : State} {n} : exec (.looprQ n) s = execLooprQ n s := rfl
@[simp] theorem exec_ifence {s : State} {n} : exec (.ifence n) s = execIfence n s := rfl
@[simp] theorem exec_sleep {s : State} {n} {d} {x} {t} : exec (.sleep n d x t) s = execSleep n d x t s := rfl
@[simp] theorem exec_brk {s : State} {c} : exec (.brk c) s = execBrk c s := rfl
@[simp] theorem exec_halt {s : State} {n} : exec (.halt n) s = execHalt n s := rfl
@[simp] theorem exec_getid {s : State} {n} {d} {x} : exec (.getid n d x) s = execGetid n d x s := rfl
@[simp] theorem exec_tgt {s : State} {p} {x} {o} : exec (.tgt p x o) s = execTgt p x o s := rfl
@[simp] theorem exec_imm {s : State} {im} : exec (.imm im) s = execImm im s := rfl
@[simp] theorem exec_live {s : State} {l} : exec (.live l) s = execLive l s := rfl
@[simp] theorem exec_jtab {s : State} {r} {l} : exec (.jtab r l) s = execJtab r l s := rfl
@[simp] theorem exec_mod {s : State} {r} {x} {a} {t} : exec (.mod r x a t) s = execMod r x a t s := rfl
@[simp] theorem exec_sched {s : State} {p} {g} : exec (.sched p g) s = execSched p g s := rfl
@[simp] theorem exec_xt {s : State} {o} : exec (.xt o) s = execXt o s := rfl
@[simp] theorem exec_fetch {s : State} {core} {str} : exec (.fetch core str) s = execFetch core str s := rfl
@[simp] theorem exec_resultWriteback {s : State} {core} {str} : exec (.resultWriteback core str) s = execResultWriteback core str s := rfl
@[simp] theorem exec_puntyExpire {s : State} {core} {str} {idx} : exec (.puntyExpire core str idx) s = execPuntyExpire core str idx s := rfl
@[simp] theorem exec_refreshCycle {s : State} {core} {bank} : exec (.refreshCycle core bank) s = execRefreshCycle core bank s := rfl
@[simp] theorem exec_trapEntry {s : State} {core} {str} : exec (.trapEntry core str) s = execTrapEntry core str s := rfl
@[simp] theorem exec_eventDelivery {s : State} {core} : exec (.eventDelivery core) s = execEventDelivery core s := rfl
@[simp] theorem exec_watchdog {s : State} {core} : exec (.watchdog core) s = execWatchdog core s := rfl
@[simp] theorem exec_pairedSafePoint {s : State} {core} : exec (.pairedSafePoint core) s = execPairedSafePoint core s := rfl
@[simp] theorem exec_preemptRequest {s : State} {core} {timeoutNs} {area} {ranges} : exec (.preemptRequest core timeoutNs area ranges) s = execPreemptRequest core timeoutNs area ranges s := rfl
@[simp] theorem exec_preemptOverdue {s : State} {core} : exec (.preemptOverdue core) s = execPreemptOverdue core s := rfl
@[simp] theorem exec_contextSave {s : State} {core} : exec (.contextSave core) s = execContextSave core s := rfl
@[simp] theorem exec_contextResume {s : State} {core} {target} : exec (.contextResume core target) s = execContextResume core target s := rfl
@[simp] theorem exec_coreKill {s : State} {core} : exec (.coreKill core) s = execCoreKill core s := rfl
@[simp] theorem exec_sleepWake {s : State} {core} : exec (.sleepWake core) s = execSleepWake core s := rfl
@[simp] theorem exec_sleepTimeout {s : State} {core} : exec (.sleepTimeout core) s = execSleepTimeout core s := rfl
@[simp] theorem exec_sauStart {s : State} {tile} : exec (.sauStart tile) s = execSauStart tile s := rfl
@[simp] theorem exec_sauComplete {s : State} {core} : exec (.sauComplete core) s = execSauComplete core s := rfl
@[simp] theorem exec_vrepDispatch {s : State} {core} : exec (.vrepDispatch core) s = execVrepDispatch core s := rfl
@[simp] theorem exec_mldFill {s : State} {core} : exec (.mldFill core) s = execMldFill core s := rfl
@[simp] theorem exec_globalStreamRow {s : State} {core} {id} : exec (.globalStreamRow core id) s = execGlobalStreamRow core id s := rfl
@[simp] theorem exec_multiplyStart {s : State} {core} : exec (.multiplyStart core) s = execMultiplyStart core s := rfl
@[simp] theorem exec_multiplyComplete {s : State} {core} : exec (.multiplyComplete core) s = execMultiplyComplete core s := rfl
@[simp] theorem exec_mstRowSend {s : State} {core} : exec (.mstRowSend core) s = execMstRowSend core s := rfl
@[simp] theorem exec_mmajJoin {s : State} {tile} : exec (.mmajJoin tile) s = execMmajJoin tile s := rfl
@[simp] theorem exec_mmajJoinTimeout {s : State} {tile} : exec (.mmajJoinTimeout tile) s = execMmajJoinTimeout tile s := rfl
@[simp] theorem exec_rotJoin {s : State} {tile} : exec (.rotJoin tile) s = execRotJoin tile s := rfl
@[simp] theorem exec_rotJoinTimeout {s : State} {tile} : exec (.rotJoinTimeout tile) s = execRotJoinTimeout tile s := rfl
@[simp] theorem exec_solveStart {s : State} {tile} : exec (.solveStart tile) s = execSolveStart tile s := rfl
@[simp] theorem exec_solveComplete {s : State} {tile} : exec (.solveComplete tile) s = execSolveComplete tile s := rfl
@[simp] theorem exec_pointsApplication {s : State} {core} {id} : exec (.pointsApplication core id) s = execPointsApplication core id s := rfl
@[simp] theorem exec_engineGranule {s : State} {core} {id} : exec (.engineGranule core id) s = execEngineGranule core id s := rfl
@[simp] theorem exec_tokenStatusWrite {s : State} {core} {id} : exec (.tokenStatusWrite core id) s = execTokenStatusWrite core id s := rfl
@[simp] theorem exec_routerHop {s : State} {pkt} : exec (.routerHop pkt) s = execRouterHop pkt s := rfl
@[simp] theorem exec_occupancyUpdate {s : State} : exec (.occupancyUpdate) s = execOccupancyUpdate s := rfl
@[simp] theorem exec_packetArrival {s : State} {pkt} : exec (.packetArrival pkt) s = execPacketArrival pkt s := rfl
@[simp] theorem exec_reorderResend {s : State} {pkt} : exec (.reorderResend pkt) s = execReorderResend pkt s := rfl
@[simp] theorem exec_remapNack {s : State} {pkt} : exec (.remapNack pkt) s = execRemapNack pkt s := rfl
@[simp] theorem exec_depositArrival {s : State} {pkt} : exec (.depositArrival pkt) s = execDepositArrival pkt s := rfl
@[simp] theorem exec_depositLatchTimeout {s : State} {core} : exec (.depositLatchTimeout core) s = execDepositLatchTimeout core s := rfl
@[simp] theorem exec_busyResend {s : State} {pkt} : exec (.busyResend pkt) s = execBusyResend pkt s := rfl
@[simp] theorem exec_retryDepositResend {s : State} {pkt} : exec (.retryDepositResend pkt) s = execRetryDepositResend pkt s := rfl
@[simp] theorem exec_deviceDepositLand {s : State} {core} : exec (.deviceDepositLand core) s = execDeviceDepositLand core s := rfl
@[simp] theorem exec_notifyArrival {s : State} {pkt} : exec (.notifyArrival pkt) s = execNotifyArrival pkt s := rfl
@[simp] theorem exec_combine {s : State} {pkt} : exec (.combine pkt) s = execCombine pkt s := rfl
@[simp] theorem exec_reduceResultLand {s : State} {asid} {grp} {tag} : exec (.reduceResultLand asid grp tag) s = execReduceResultLand asid grp tag s := rfl
@[simp] theorem exec_combinePark {s : State} {asid} {grp} {tag} : exec (.combinePark asid grp tag) s = execCombinePark asid grp tag s := rfl
@[simp] theorem exec_translationRequest {s : State} {core} {id} : exec (.translationRequest core id) s = execTranslationRequest core id s := rfl
@[simp] theorem exec_pageWalk {s : State} {core} {id} : exec (.pageWalk core id) s = execPageWalk core id s := rfl
@[simp] theorem exec_faultRetry {s : State} {core} {id} : exec (.faultRetry core id) s = execFaultRetry core id s := rfl
@[simp] theorem exec_faultDecline {s : State} {core} {id} : exec (.faultDecline core id) s = execFaultDecline core id s := rfl
@[simp] theorem exec_amoHome {s : State} {core} {id} : exec (.amoHome core id) s = execAmoHome core id s := rfl
@[simp] theorem exec_releasePerformed {s : State} {core} {id} : exec (.releasePerformed core id) s = execReleasePerformed core id s := rfl
@[simp] theorem exec_acquireComplete {s : State} {core} {id} : exec (.acquireComplete core id) s = execAcquireComplete core id s := rfl
@[simp] theorem exec_stationInvalidate {s : State} {kind} {operand} : exec (.stationInvalidate kind operand) s = execStationInvalidate kind operand s := rfl
@[simp] theorem exec_barrierArrival {s : State} {core} : exec (.barrierArrival core) s = execBarrierArrival core s := rfl
@[simp] theorem exec_barrierWithdrawal {s : State} {core} : exec (.barrierWithdrawal core) s = execBarrierWithdrawal core s := rfl
@[simp] theorem exec_groupAbort {s : State} {asid} {grp} : exec (.groupAbort asid grp) s = execGroupAbort asid grp s := rfl
@[simp] theorem exec_exchangeJoin {s : State} {asid} {grp} : exec (.exchangeJoin asid grp) s = execExchangeJoin asid grp s := rfl
@[simp] theorem exec_exchangeJoinTimeout {s : State} {asid} {grp} : exec (.exchangeJoinTimeout asid grp) s = execExchangeJoinTimeout asid grp s := rfl
@[simp] theorem exec_phaseEnd {s : State} {asid} {grp} : exec (.phaseEnd asid grp) s = execPhaseEnd asid grp s := rfl
@[simp] theorem exec_gangJoin {s : State} {core} : exec (.gangJoin core) s = execGangJoin core s := rfl
@[simp] theorem exec_gangJoinTimeout {s : State} {core} : exec (.gangJoinTimeout core) s = execGangJoinTimeout core s := rfl
@[simp] theorem exec_taskHandover {s : State} {asid} {grp} : exec (.taskHandover asid grp) s = execTaskHandover asid grp s := rfl
@[simp] theorem exec_domainDrain {s : State} {asid} {grp} : exec (.domainDrain asid grp) s = execDomainDrain asid grp s := rfl
@[simp] theorem exec_taskReady {s : State} {asid} {grp} {rec} : exec (.taskReady asid grp rec) s = execTaskReady asid grp rec s := rfl
@[simp] theorem exec_prodGrant {s : State} {asid} {grp} {ring} : exec (.prodGrant asid grp ring) s = execProdGrant asid grp ring s := rfl
@[simp] theorem exec_consGrant {s : State} {asid} {grp} {ring} : exec (.consGrant asid grp ring) s = execConsGrant asid grp ring s := rfl
@[simp] theorem exec_shunterInterval {s : State} {asid} {grp} : exec (.shunterInterval asid grp) s = execShunterInterval asid grp s := rfl
@[simp] theorem exec_stageSwitch {s : State} {core} : exec (.stageSwitch core) s = execStageSwitch core s := rfl
@[simp] theorem exec_distributorServe {s : State} {core} {id} : exec (.distributorServe core id) s = execDistributorServe core id s := rfl
@[simp] theorem exec_censusInterval {s : State} : exec (.censusInterval) s = execCensusInterval s := rfl
@[simp] theorem exec_recastCommit {s : State} {tile} : exec (.recastCommit tile) s = execRecastCommit tile s := rfl
@[simp] theorem exec_recastOrder {s : State} {die} {donor} {target} : exec (.recastOrder die donor target) s = execRecastOrder die donor target s := rfl
@[simp] theorem exec_censusPolicyWrite {s : State} {offset} {value} : exec (.censusPolicyWrite offset value) s = execCensusPolicyWrite offset value s := rfl
@[simp] theorem exec_censusRequest {s : State} {core} {id} : exec (.censusRequest core id) s = execCensusRequest core id s := rfl
@[simp] theorem exec_leaseExpiry {s : State} {asid} {slot} : exec (.leaseExpiry asid slot) s = execLeaseExpiry asid slot s := rfl
@[simp] theorem exec_expiringNotice {s : State} {asid} {slot} : exec (.expiringNotice asid slot) s = execExpiringNotice asid slot s := rfl
@[simp] theorem exec_pageEvacuation {s : State} {tile} : exec (.pageEvacuation tile) s = execPageEvacuation tile s := rfl
@[simp] theorem exec_relayDrainDeadline {s : State} {tile} : exec (.relayDrainDeadline tile) s = execRelayDrainDeadline tile s := rfl
@[simp] theorem exec_annealComplete {s : State} {tile} : exec (.annealComplete tile) s = execAnnealComplete tile s := rfl
@[simp] theorem exec_scoreArrival {s : State} {scope} : exec (.scoreArrival scope) s = execScoreArrival scope s := rfl
@[simp] theorem exec_allowanceStop {s : State} {core} : exec (.allowanceStop core) s = execAllowanceStop core s := rfl
@[simp] theorem exec_roundEnd {s : State} {scope} : exec (.roundEnd scope) s = execRoundEnd scope s := rfl
@[simp] theorem exec_roundStart {s : State} {scope} : exec (.roundStart scope) s = execRoundStart scope s := rfl
@[simp] theorem exec_scopeAbort {s : State} {scope} : exec (.scopeAbort scope) s = execScopeAbort scope s := rfl
@[simp] theorem exec_queueWake {s : State} {q} : exec (.queueWake q) s = execQueueWake q s := rfl
@[simp] theorem exec_packetFetch {s : State} {q} : exec (.packetFetch q) s = execPacketFetch q s := rfl
@[simp] theorem exec_launchPacket {s : State} {q} {idx} : exec (.launchPacket q idx) s = execLaunchPacket q idx s := rfl
@[simp] theorem exec_copyPacket {s : State} {q} {idx} : exec (.copyPacket q idx) s = execCopyPacket q idx s := rfl
@[simp] theorem exec_waitPacket {s : State} {q} {idx} : exec (.waitPacket q idx) s = execWaitPacket q idx s := rfl
@[simp] theorem exec_waitPoll {s : State} {q} {idx} : exec (.waitPoll q idx) s = execWaitPoll q idx s := rfl
@[simp] theorem exec_waitTimeout {s : State} {q} {idx} : exec (.waitTimeout q idx) s = execWaitTimeout q idx s := rfl
@[simp] theorem exec_signalPacket {s : State} {q} {idx} : exec (.signalPacket q idx) s = execSignalPacket q idx s := rfl
@[simp] theorem exec_indirectPacket {s : State} {q} {idx} : exec (.indirectPacket q idx) s = execIndirectPacket q idx s := rfl
@[simp] theorem exec_loopPacket {s : State} {q} {idx} : exec (.loopPacket q idx) s = execLoopPacket q idx s := rfl
@[simp] theorem exec_fetchFencePacket {s : State} {q} {idx} : exec (.fetchFencePacket q idx) s = execFetchFencePacket q idx s := rfl
@[simp] theorem exec_tourneyPacket {s : State} {q} {idx} : exec (.tourneyPacket q idx) s = execTourneyPacket q idx s := rfl
@[simp] theorem exec_leasePacket {s : State} {q} {idx} : exec (.leasePacket q idx) s = execLeasePacket q idx s := rfl
@[simp] theorem exec_resetQueuePacket {s : State} {q} {idx} : exec (.resetQueuePacket q idx) s = execResetQueuePacket q idx s := rfl
@[simp] theorem exec_queueResetControl {s : State} {q} : exec (.queueResetControl q) s = execQueueResetControl q s := rfl
@[simp] theorem exec_packetComplete {s : State} {q} {idx} : exec (.packetComplete q idx) s = execPacketComplete q idx s := rfl
@[simp] theorem exec_heartbeatSend {s : State} : exec (.heartbeatSend) s = execHeartbeatSend s := rfl
@[simp] theorem exec_heartbeatMiss {s : State} {nb} : exec (.heartbeatMiss nb) s = execHeartbeatMiss nb s := rfl
@[simp] theorem exec_resetMessage {s : State} {sender} {target} {counter} {tag} : exec (.resetMessage sender target counter tag) s = execResetMessage sender target counter tag s := rfl
@[simp] theorem exec_hostWindowWrite {s : State} {port} {addr} {data} : exec (.hostWindowWrite port addr data) s = execHostWindowWrite port addr data s := rfl
@[simp] theorem exec_hostWindowRead {s : State} {port} {addr} {len} : exec (.hostWindowRead port addr len) s = execHostWindowRead port addr len s := rfl
@[simp] theorem exec_hostLinkTrain {s : State} {port} {rate} {width} : exec (.hostLinkTrain port rate width) s = execHostLinkTrain port rate width s := rfl
@[simp] theorem exec_linkFlitRetry {s : State} {port} : exec (.linkFlitRetry port) s = execLinkFlitRetry port s := rfl
@[simp] theorem exec_scaleupLinkDown {s : State} {port} : exec (.scaleupLinkDown port) s = execScaleupLinkDown port s := rfl
@[simp] theorem exec_linkRetrain {s : State} {port} : exec (.linkRetrain port) s = execLinkRetrain port s := rfl
@[simp] theorem exec_scrub {s : State} {station} : exec (.scrub station) s = execScrub station s := rfl
@[simp] theorem exec_pmodeWrite {s : State} {value} : exec (.pmodeWrite value) s = execPmodeWrite value s := rfl
@[simp] theorem exec_modeSwitchRestart {s : State} : exec (.modeSwitchRestart) s = execModeSwitchRestart s := rfl
@[simp] theorem exec_powerLimitExceeded {s : State} : exec (.powerLimitExceeded) s = execPowerLimitExceeded s := rfl
@[simp] theorem exec_powerCapRelease {s : State} : exec (.powerCapRelease) s = execPowerCapRelease s := rfl
@[simp] theorem exec_firmwareImage {s : State} {image} : exec (.firmwareImage image) s = execFirmwareImage image s := rfl
@[simp] theorem exec_flashWriteInterrupted {s : State} : exec (.flashWriteInterrupted) s = execFlashWriteInterrupted s := rfl
@[simp] theorem exec_attestationRequest {s : State} {nonce} {peer} : exec (.attestationRequest nonce peer) s = execAttestationRequest nonce peer s := rfl
@[simp] theorem exec_deviceReset {s : State} : exec (.deviceReset) s = execDeviceReset s := rfl
@[simp] theorem exec_swzWrite {s : State} {core} {idx} {value} : exec (.swzWrite core idx value) s = execSwzWrite core idx value s := rfl
@[simp] theorem exec_fpctlWrite {s : State} {core} {value} : exec (.fpctlWrite core value) s = execFpctlWrite core value s := rfl
@[simp] theorem exec_fpctlRead {s : State} {core} {str} {dst} : exec (.fpctlRead core str dst) s = execFpctlRead core str dst s := rfl
@[simp] theorem exec_srseedWrite {s : State} {core} {value} : exec (.srseedWrite core value) s = execSrseedWrite core value s := rfl
@[simp] theorem exec_winWrite {s : State} {core} {str} {value} : exec (.winWrite core str value) s = execWinWrite core str value s := rfl
@[simp] theorem exec_registerWrite {s : State} {core} {reg} {value} : exec (.registerWrite core reg value) s = execRegisterWrite core reg value s := rfl
@[simp] theorem exec_cxlSnoop {s : State} {port} {addr} : exec (.cxlSnoop port addr) s = execCxlSnoop port addr s := rfl
@[simp] theorem exec_siteEviction {s : State} {core} : exec (.siteEviction core) s = execSiteEviction core s := rfl
@[simp] theorem exec_softError {s : State} {site} {multi} : exec (.softError site multi) s = execSoftError site multi s := rfl
@[simp] theorem exec_kernelHartAccess {s : State} {hart} {op} : exec (.kernelHartAccess hart op) s = execKernelHartAccess hart op s := rfl

end Sys2Proof.Machine
end

