-- ==== Sys2Proof/Laws/Monad.lean ====
section
/-!
SUPPORT. Laws of the two state monads: what each step of an operation gives when it is run at a state.
-/

namespace Sys2Proof.Machine

variable {σ α β : Type}

/-- Running one step after another. -/
@[simp] theorem run_bind (m : StateT σ (Except Stop) α) (f : α → StateT σ (Except Stop) β) (s : σ) :
    (m >>= f) s = match m s with | .ok p => f p.1 p.2 | .error e => .error e := by
  show (Except.bind (m s) fun p => f p.1 p.2) = _
  cases m s <;> rfl

@[simp] theorem run_pure (a : α) (s : σ) : (pure a : StateT σ (Except Stop) α) s = .ok (a, s) := rfl
@[simp] theorem run_get (s : σ) : (get : StateT σ (Except Stop) σ) s = .ok (s, s) := rfl
@[simp] theorem run_set (t s : σ) : (set t : StateT σ (Except Stop) PUnit) s = .ok ((), t) := rfl
@[simp] theorem run_modify (f : σ → σ) (s : σ) : (modify f : StateT σ (Except Stop) PUnit) s = .ok ((), f s) := rfl
@[simp] theorem run_throw (e : Stop) (s : σ) : (throw e : StateT σ (Except Stop) α) s = .error e := rfl
@[simp] theorem run_ite (p : Prop) [Decidable p] (m n : StateT σ (Except Stop) α) (s : σ) :
    (if p then m else n) s = if p then m s else n s := by split <;> rfl

@[simp] theorem run_map (f : α → β) (m : StateT σ (Except Stop) α) (s : σ) :
    (f <$> m) s = match m s with | .ok p => .ok (f p.1, p.2) | .error e => .error e := by
  rw [map_eq_pure_bind, run_bind]
  rfl

@[simp] theorem stallIf_run (b : Bool) (c : Core) : stallIf b c = if b = true then .error (.wait .unit) else .ok ((), c) := by
  cases b <;> rfl
@[simp] theorem raiseIf_run (b : Bool) (k sub : Nat) (a i : Word) (c : Core) :
    raiseIf b k sub a i c = if b = true then .error (.trap k sub a i none) else .ok ((), c) := by cases b <;> rfl
@[simp] theorem stall_run (c : Core) : (stall : CM α) c = .error (.wait .unit) := rfl
@[simp] theorem stallPop_run (c : Core) : (stallPop : CM α) c = .error (.wait .empty) := rfl
@[simp] theorem stallPush_run (c : Core) : (stallPush : CM α) c = .error (.wait .full) := rfl
@[simp] theorem stallOut_run (c : Core) : (stallOut : CM α) c = .error (.wait .outside) := rfl
@[simp] theorem raise_run (k sub : Nat) (a i : Word) (c : Core) : (raise k sub a i : CM α) c = .error (.trap k sub a i none) := rfl
/-- Room that is there changes nothing (R60). -/
theorem room_ok {m : CM Unit} {c c1 : Core} (h : m c = .ok ((), c1)) : room m c = .ok ((), c) := by
  simp only [room, run_bind, run_get, h, run_set]
@[simp] theorem modSeqM_run (st : Strm) (f : Seq → Seq) (c : Core) : modSeqM st f c = .ok ((), c.modSeq st f) := rfl

/-- An operation on one core, run at the module. -/
theorem onCore_run (n : Nat) (m : CM α) (s : State) :
    onCore n m s = match m (s.core n) with | .ok p => .ok (p.1, s.setCore n p.2) | .error e => .error e := by
  unfold onCore
  cases m (s.core n) <;> rfl

theorem onCore_ok {n : Nat} {m : CM α} {s : State} {a : α} {c : Core} (h : m (s.core n) = .ok (a, c)) :
    onCore n m s = .ok (a, s.setCore n c) := by simp [onCore_run, h]

@[simp] theorem postEvent_run (e : Ev) (s : State) : postEvent e s = .ok ((), s.post e) := rfl
@[simp] theorem freshId_run (s : State) : freshId s = .ok (s.fresh, { s with fresh := s.fresh + 1 }) := rfl

/-! ### Operations that only read -/

/-- The operation changes nothing. -/
def Reads (m : StateT σ (Except Stop) α) : Prop := ∀ s a t, m s = .ok (a, t) → t = s

theorem Reads.bind {m : StateT σ (Except Stop) α} {f : α → StateT σ (Except Stop) β} (hm : Reads m) (hf : ∀ a, Reads (f a)) :
    Reads (m >>= f) := by
  intro s b t h
  rw [run_bind] at h
  cases hc : m s with
  | error e => simp [hc] at h
  | ok p => rw [hc] at h; rw [hf _ _ _ _ h]; exact hm s p.1 p.2 hc

theorem Reads.pure (a : α) : Reads (pure a : StateT σ (Except Stop) α) := by
  intro s b t h
  simp only [run_pure, Except.ok.injEq, Prod.mk.injEq] at h
  exact h.2.symm

theorem Reads.get : Reads (get : StateT σ (Except Stop) σ) := by
  intro s b t h
  simp only [run_get, Except.ok.injEq, Prod.mk.injEq] at h
  exact h.2.symm

theorem Reads.throw (e : Stop) : Reads (throw e : StateT σ (Except Stop) α) := by
  intro s b t h
  simp at h

theorem Reads.ite (p : Prop) [Decidable p] {m n : StateT σ (Except Stop) α} (hm : Reads m) (hn : Reads n) : Reads (if p then m else n) := by
  split <;> assumption

theorem Reads.stallIf (b : Bool) : Reads (stallIf b) := Reads.ite _ (Reads.throw _) (Reads.pure _)
theorem Reads.raiseIf (b : Bool) (k sub : Nat) (a i : Word) : Reads (raiseIf b k sub a i) := Reads.ite _ (Reads.throw _) (Reads.pure _)

theorem Reads.rdHome (x : Ctx) (h cls n : Nat) : Reads (rdHome x h cls n) := by
  unfold Machine.rdHome
  refine Reads.get.bind fun c => (Reads.stallIf _).bind fun _ => ?_
  split
  · exact (Reads.raiseIf _ _ _ _ _).bind fun _ => Reads.pure _
  · exact (Reads.raiseIf _ _ _ _ _).bind fun _ => (Reads.raiseIf _ _ _ _ _).bind fun _ => Reads.pure _

theorem Reads.rdX (x : Ctx) (n : BitVec 5) : Reads (rdX x n) := by
  unfold Machine.rdX
  exact Reads.ite _ (Reads.pure _) (Reads.get.bind fun c => (Reads.rdHome _ _ _ _).bind fun _ => Reads.pure _)

end Sys2Proof.Machine
end

