-- ==== Sys2Proof/Laws/Store.lean ====
section
/-!
SUPPORT. Laws of sparse arrays: a write keeps the canonical form, the index written reads as the value, and every other index reads as before.
-/

namespace Sys2Proof.Machine

variable {α : Type} [DecidableEq α] {d : α}

/-- Below the bound of a canonical array every index reads as the default. -/
theorem Store.get_below {m : Store α} {b k : Nat} (hw : Store.wfFrom d b m = true) (h : k < b) : Store.get d m k = d := by
  cases m with
  | nil => rfl
  | cons p m =>
    obtain ⟨j, v⟩ := p
    simp only [Store.wfFrom, Bool.and_eq_true, decide_eq_true_eq] at hw
    simp [Store.get, show k < j by omega]

theorem Store.wfFrom_mono {m : Store α} {a b : Nat} (h : a ≤ b) (hw : Store.wfFrom d b m = true) : Store.wfFrom d a m = true := by
  cases m with
  | nil => rfl
  | cons p m =>
    simp only [Store.wfFrom, Bool.and_eq_true, decide_eq_true_eq] at *
    exact ⟨⟨le_trans h hw.1.1, hw.1.2⟩, hw.2⟩

/-- A write keeps the canonical form. -/
theorem Store.wfFrom_set {m : Store α} {b k : Nat} (v : α) (hb : b ≤ k) (hw : Store.wfFrom d b m = true) :
    Store.wfFrom d b (Store.set d m k v) = true := by
  induction m generalizing b with
  | nil => by_cases hv : v = d <;> simp [Store.set, hv, Store.wfFrom, hb]
  | cons p m ih =>
    obtain ⟨j, w⟩ := p
    simp only [Store.wfFrom, Bool.and_eq_true, decide_eq_true_eq] at hw
    obtain ⟨⟨h1, h2⟩, h3⟩ := hw
    simp only [Store.set]
    split
    · split
      · simp [Store.wfFrom, h1, h2, h3]
      · simp [Store.wfFrom, *, show k + 1 ≤ j by omega]
    · split
      · split
        · exact Store.wfFrom_mono (by omega) h3
        · simp_all [Store.wfFrom]
      · simp [Store.wfFrom, h1, h2, ih (b := j + 1) (by omega) h3]

theorem Store.wf_set {m : Store α} (k : Nat) (v : α) (hw : Store.wf d m = true) : Store.wf d (Store.set d m k v) = true :=
  Store.wfFrom_set v (Nat.zero_le k) hw

theorem Store.wf_modify {m : Store α} (k : Nat) (f : α → α) (hw : Store.wf d m = true) : Store.wf d (Store.modify d m k f) = true :=
  Store.wf_set k _ hw

theorem Store.wf_setMany {m : Store α} (k : Nat) (vs : List α) (hw : Store.wf d m = true) : Store.wf d (Store.setMany d m k vs) = true := by
  induction vs generalizing m k with
  | nil => exact hw
  | cons v vs ih => exact ih (k + 1) (Store.wf_set k v hw)

theorem Store.wfFrom_filter {m : Store α} {b : Nat} (f : Nat × α → Bool) (hw : Store.wfFrom d b m = true) :
    Store.wfFrom d b (m.filter f) = true := by
  induction m generalizing b with
  | nil => rfl
  | cons p m ih =>
    simp only [Store.wfFrom, Bool.and_eq_true, decide_eq_true_eq] at hw
    simp only [List.filter_cons]
    split
    · simp [Store.wfFrom, hw.1.1, hw.1.2, ih hw.2]
    · exact ih (Store.wfFrom_mono (by omega) hw.2)

/-- Dropping entries keeps the canonical form. -/
theorem Store.wf_filter {m : Store α} (f : Nat × α → Bool) (hw : Store.wf d m = true) : Store.wf d (m.filter f) = true :=
  Store.wfFrom_filter f hw

/-- A write of another value than the default is read back, whatever the array. -/
theorem Store.get_set_self_of_ne {v : α} (m : Store α) (k : Nat) (hv : v ≠ d) : Store.get d (Store.set d m k v) k = v := by
  induction m with
  | nil => simp [Store.set, hv, Store.get]
  | cons p m ih =>
    simp only [Store.set, hv, if_false]
    split
    · simp [Store.get]
    · split
      · simp [Store.get]
      · simp [Store.get, *]

/-- A write of another value than the default leaves every other index, whatever the array. -/
theorem Store.get_set_ne_of_ne {v : α} (m : Store α) {k n : Nat} (h : n ≠ k) (hv : v ≠ d) :
    Store.get d (Store.set d m k v) n = Store.get d m n := by
  induction m with
  | nil =>
    simp only [Store.set, hv, if_false, Store.get, h]
    split <;> rfl
  | cons p m ih =>
    simp only [Store.set, hv, if_false]
    split
    · simp only [Store.get, h, if_false]
      repeat' split
      all_goals first | rfl | omega
    · split
      · simp_all [Store.get]
      · simp only [Store.get, ih]

/-- In a canonical array a write is read back. -/
theorem Store.get_set_self {m : Store α} (k : Nat) (v : α) (hw : Store.wf d m = true) : Store.get d (Store.set d m k v) k = v := by
  by_cases hv : v = d
  · subst hv
    suffices ∀ b, Store.wfFrom v b m = true → Store.get v (Store.set v m k v) k = v from this 0 hw
    induction m with
    | nil => intro b _; simp [Store.set, Store.get]
    | cons p m ih =>
      intro b hb
      have hb' := hb
      simp only [Store.wfFrom, Bool.and_eq_true, decide_eq_true_eq] at hb
      simp only [Store.set]
      split
      · rename_i h; simp [Store.get, h]
      · split
        · rename_i h; simpa using Store.get_below hb.2 (by omega)
        · rename_i h1 h2
          simp only [Store.get, h1, h2, if_false]
          exact ih (Store.wfFrom_mono (Nat.zero_le _) hb.2) (p.1 + 1) hb.2
  · exact Store.get_set_self_of_ne m k hv

/-- In a canonical array a write leaves every other index. -/
theorem Store.get_set_ne {m : Store α} {k n : Nat} (v : α) (h : n ≠ k) (hw : Store.wf d m = true) :
    Store.get d (Store.set d m k v) n = Store.get d m n := by
  by_cases hv : v = d
  · subst hv
    suffices ∀ b, Store.wfFrom v b m = true → Store.get v (Store.set v m k v) n = Store.get v m n from this 0 hw
    induction m with
    | nil => intro b _; simp [Store.set]
    | cons p m ih =>
      intro b hb
      simp only [Store.wfFrom, Bool.and_eq_true, decide_eq_true_eq] at hb
      simp only [Store.set]
      split
      · simp
      · split
        · rename_i h1 h2
          simp only [if_true, Store.get]
          split
          · exact Store.get_below hb.2 (by omega)
          · rw [if_neg (by omega)]
        · simp only [Store.get]
          rw [ih (Store.wfFrom_mono (Nat.zero_le _) hb.2) (p.1 + 1) hb.2]
  · exact Store.get_set_ne_of_ne m h hv

theorem Store.get_set {m : Store α} (k n : Nat) (v : α) (hw : Store.wf d m = true) :
    Store.get d (Store.set d m k v) n = if n = k then v else Store.get d m n := by
  split
  · rename_i h; rw [h, Store.get_set_self k v hw]
  · rename_i h; exact Store.get_set_ne v h hw

/-- Reading after a write of consecutive values. -/
theorem Store.get_setMany {m : Store α} (k n : Nat) (vs : List α) (hw : Store.wf d m = true) :
    Store.get d (Store.setMany d m k vs) n = if k ≤ n ∧ n < k + vs.length then vs.getD (n - k) d else Store.get d m n := by
  induction vs generalizing m k with
  | nil => simp [Store.setMany]
  | cons v vs ih =>
    simp only [Store.setMany, ih (k + 1) (Store.wf_set k v hw), Store.get_set k n v hw, List.length_cons]
    by_cases h1 : n = k
    · subst h1
      simp
    · by_cases h2 : k + 1 ≤ n ∧ n < k + 1 + vs.length
      · rw [if_pos h2, if_pos (by omega)]
        obtain ⟨j, hj⟩ : ∃ j, n - k = j + 1 := ⟨n - k - 1, by omega⟩
        rw [hj, List.getD_cons_succ, show n - (k + 1) = j by omega]
      · rw [if_neg h2, if_neg h1, if_neg (by omega)]

end Sys2Proof.Machine
end

