-- ==== Sys2Proof/Laws/State.lean ====
section
/-!
SUPPORT. Laws of the state's accessors: cores and streams put back and read, field by field.
-/

namespace Sys2Proof.Machine

/-! ### Streams of a core -/

@[simp] theorem Core.setSeq_seq (c : Core) (st : Strm) (q : Seq) : (c.setSeq st q).seq st = q := by cases st <;> rfl
@[simp] theorem Core.setSeq_other (c : Core) (st : Strm) (q : Seq) : (c.setSeq st q).seq st.other = c.seq st.other := by cases st <;> rfl
@[simp] theorem Core.setSeq_setSeq (c : Core) (st : Strm) (q r : Seq) : (c.setSeq st q).setSeq st r = c.setSeq st r := by cases st <;> rfl
@[simp] theorem Core.setSeq_self (c : Core) (st : Strm) : c.setSeq st (c.seq st) = c := by cases st <;> rfl
@[simp] theorem Core.modSeq_seq (c : Core) (st : Strm) (f : Seq → Seq) : (c.modSeq st f).seq st = f (c.seq st) := by cases st <;> rfl
@[simp] theorem Core.modSeq_other (c : Core) (st : Strm) (f : Seq → Seq) : (c.modSeq st f).seq st.other = c.seq st.other := by cases st <;> rfl
theorem Core.modSeq_setSeq (c : Core) (st : Strm) (q : Seq) (f : Seq → Seq) : (c.setSeq st q).modSeq st f = c.setSeq st (f q) := by
  cases st <;> rfl
theorem Core.modSeq_modSeq (c : Core) (st : Strm) (f g : Seq → Seq) : (c.modSeq st f).modSeq st g = c.modSeq st (g ∘ f) := by cases st <;> rfl

@[simp] theorem Core.setSeq_run (c : Core) (st : Strm) (q : Seq) : (c.setSeq st q).run = c.run := by cases st <;> rfl
@[simp] theorem Core.setSeq_logical (c : Core) (st : Strm) (q : Seq) : (c.setSeq st q).logical = c.logical := by cases st <;> rfl
@[simp] theorem Core.setSeq_asid (c : Core) (st : Strm) (q : Seq) : (c.setSeq st q).asid = c.asid := by cases st <;> rfl
@[simp] theorem Core.setSeq_q (c : Core) (st : Strm) (q : Seq) : (c.setSeq st q).q = c.q := by cases st <;> rfl
@[simp] theorem Core.setSeq_v (c : Core) (st : Strm) (q : Seq) : (c.setSeq st q).v = c.v := by cases st <;> rfl
@[simp] theorem Core.setSeq_k (c : Core) (st : Strm) (q : Seq) : (c.setSeq st q).k = c.k := by cases st <;> rfl
@[simp] theorem Core.setSeq_sauq (c : Core) (st : Strm) (q : Seq) : (c.setSeq st q).sauq = c.sauq := by cases st <;> rfl
@[simp] theorem Core.setSeq_sauFly (c : Core) (st : Strm) (q : Seq) : (c.setSeq st q).sauFly = c.sauFly := by cases st <;> rfl
@[simp] theorem Core.setSeq_vrep (c : Core) (st : Strm) (q : Seq) : (c.setSeq st q).vrep = c.vrep := by cases st <;> rfl
@[simp] theorem Core.setSeq_mat (c : Core) (st : Strm) (q : Seq) : (c.setSeq st q).mat = c.mat := by cases st <;> rfl
@[simp] theorem Core.setSeq_pm (c : Core) (st : Strm) (q : Seq) : (c.setSeq st q).pm = c.pm := by cases st <;> rfl
@[simp] theorem Core.setSeq_msg (c : Core) (st : Strm) (q : Seq) : (c.setSeq st q).msg = c.msg := by cases st <;> rfl
@[simp] theorem Core.setSeq_ctl (c : Core) (st : Strm) (q : Seq) : (c.setSeq st q).ctl = c.ctl := by cases st <;> rfl
@[simp] theorem Core.setSeq_ulm (c : Core) (st : Strm) (q : Seq) : (c.setSeq st q).ulm = c.ulm := by cases st <;> rfl
@[simp] theorem Core.setSeq_ulmBad (c : Core) (st : Strm) (q : Seq) : (c.setSeq st q).ulmBad = c.ulmBad := by cases st <;> rfl
@[simp] theorem Core.setSeq_ulmChk (c : Core) (st : Strm) (q : Seq) : (c.setSeq st q).ulmChk = c.ulmChk := by cases st <;> rfl
@[simp] theorem Core.setSeq_regBad (c : Core) (st : Strm) (q : Seq) : (c.setSeq st q).regBad = c.regBad := by cases st <;> rfl
@[simp] theorem Core.setSeq_cmds (c : Core) (st : Strm) (q : Seq) : (c.setSeq st q).cmds = c.cmds := by cases st <;> rfl
@[simp] theorem Core.setSeq_fences (c : Core) (st : Strm) (q : Seq) : (c.setSeq st q).fences = c.fences := by cases st <;> rfl
@[simp] theorem Core.setSeq_wait (c : Core) (st : Strm) (q : Seq) : (c.setSeq st q).wait = c.wait := by cases st <;> rfl
@[simp] theorem Core.setSeq_join (c : Core) (st : Strm) (q : Seq) : (c.setSeq st q).join = c.join := by cases st <;> rfl
@[simp] theorem Core.setSeq_wset (c : Core) (st : Strm) (q : Seq) : (c.setSeq st q).wset = c.wset := by cases st <;> rfl
@[simp] theorem Core.setSeq_amoSet (c : Core) (st : Strm) (q : Seq) : (c.setSeq st q).amoSet = c.amoSet := by cases st <;> rfl
@[simp] theorem Core.setSeq_own (c : Core) (st : Strm) (q : Seq) : (c.setSeq st q).own = c.own := by cases st <;> rfl
@[simp] theorem Core.setSeq_acqAt (c : Core) (st : Strm) (q : Seq) : (c.setSeq st q).acqAt = c.acqAt := by cases st <;> rfl
@[simp] theorem Core.setSeq_acqScope (c : Core) (st : Strm) (q : Seq) : (c.setSeq st q).acqScope = c.acqScope := by cases st <;> rfl
@[simp] theorem Core.setSeq_seen (c : Core) (st : Strm) (q : Seq) : (c.setSeq st q).seen = c.seen := by cases st <;> rfl
@[simp] theorem Core.setSeq_observed (c : Core) (st : Strm) (q : Seq) : (c.setSeq st q).observed = c.observed := by cases st <;> rfl
@[simp] theorem Core.setSeq_armed (c : Core) (st : Strm) (q : Seq) : (c.setSeq st q).armed = c.armed := by cases st <;> rfl
@[simp] theorem Core.setSeq_xph (c : Core) (st : Strm) (q : Seq) : (c.setSeq st q).xph = c.xph := by cases st <;> rfl
@[simp] theorem Core.setSeq_xres (c : Core) (st : Strm) (q : Seq) : (c.setSeq st q).xres = c.xres := by cases st <;> rfl
@[simp] theorem Core.setSeq_task (c : Core) (st : Strm) (q : Seq) : (c.setSeq st q).task = c.task := by cases st <;> rfl
@[simp] theorem Core.setSeq_gang (c : Core) (st : Strm) (q : Seq) : (c.setSeq st q).gang = c.gang := by cases st <;> rfl
@[simp] theorem Core.setSeq_preempt (c : Core) (st : Strm) (q : Seq) : (c.setSeq st q).preempt = c.preempt := by cases st <;> rfl
@[simp] theorem Core.setSeq_entries (c : Core) (st : Strm) (q : Seq) : (c.setSeq st q).entries = c.entries := by cases st <;> rfl
@[simp] theorem Core.setSeq_scope (c : Core) (st : Strm) (q : Seq) : (c.setSeq st q).scope = c.scope := by cases st <;> rfl
@[simp] theorem Core.setSeq_roundStop (c : Core) (st : Strm) (q : Seq) : (c.setSeq st q).roundStop = c.roundStop := by cases st <;> rfl
@[simp] theorem Core.setSeq_fpRun (c : Core) (st : Strm) (q : Seq) : (c.setSeq st q).fpRun = c.fpRun := by cases st <;> rfl
@[simp] theorem Core.setSeq_amoVers (c : Core) (st : Strm) (q : Seq) : (c.setSeq st q).amoVers = c.amoVers := by cases st <;> rfl
@[simp] theorem Core.setSeq_commits (c : Core) (st : Strm) (q : Seq) : (c.setSeq st q).commits = c.commits := by cases st <;> rfl
@[simp] theorem Core.setSeq_xpar (c : Core) (st : Strm) (q : Seq) : (c.setSeq st q).xpar = c.xpar := by cases st <;> rfl
@[simp] theorem Core.setSeq_party (c : Core) (st : Strm) (q : Seq) : (c.setSeq st q).party = c.party := by cases st <;> rfl
@[simp] theorem Core.setSeq_runnerAt (c : Core) (st : Strm) (q : Seq) : (c.setSeq st q).runnerAt = c.runnerAt := by cases st <;> rfl
@[simp] theorem Core.setSeq_fatal (c : Core) (st : Strm) (q : Seq) : (c.setSeq st q).fatal = c.fatal := by cases st <;> rfl
@[simp] theorem Core.setSeq_port (c : Core) (st : Strm) (q : Seq) : (c.setSeq st q).port = c.port := by cases st <;> rfl

@[simp] theorem Core.modSeq_run (c : Core) (st : Strm) (f : Seq → Seq) : (c.modSeq st f).run = c.run := by cases st <;> rfl
@[simp] theorem Core.modSeq_logical (c : Core) (st : Strm) (f : Seq → Seq) : (c.modSeq st f).logical = c.logical := by cases st <;> rfl
@[simp] theorem Core.modSeq_asid (c : Core) (st : Strm) (f : Seq → Seq) : (c.modSeq st f).asid = c.asid := by cases st <;> rfl
@[simp] theorem Core.modSeq_q (c : Core) (st : Strm) (f : Seq → Seq) : (c.modSeq st f).q = c.q := by cases st <;> rfl
@[simp] theorem Core.modSeq_v (c : Core) (st : Strm) (f : Seq → Seq) : (c.modSeq st f).v = c.v := by cases st <;> rfl
@[simp] theorem Core.modSeq_k (c : Core) (st : Strm) (f : Seq → Seq) : (c.modSeq st f).k = c.k := by cases st <;> rfl
@[simp] theorem Core.modSeq_sauq (c : Core) (st : Strm) (f : Seq → Seq) : (c.modSeq st f).sauq = c.sauq := by cases st <;> rfl
@[simp] theorem Core.modSeq_sauFly (c : Core) (st : Strm) (f : Seq → Seq) : (c.modSeq st f).sauFly = c.sauFly := by cases st <;> rfl
@[simp] theorem Core.modSeq_vrep (c : Core) (st : Strm) (f : Seq → Seq) : (c.modSeq st f).vrep = c.vrep := by cases st <;> rfl
@[simp] theorem Core.modSeq_mat (c : Core) (st : Strm) (f : Seq → Seq) : (c.modSeq st f).mat = c.mat := by cases st <;> rfl
@[simp] theorem Core.modSeq_pm (c : Core) (st : Strm) (f : Seq → Seq) : (c.modSeq st f).pm = c.pm := by cases st <;> rfl
@[simp] theorem Core.modSeq_msg (c : Core) (st : Strm) (f : Seq → Seq) : (c.modSeq st f).msg = c.msg := by cases st <;> rfl
@[simp] theorem Core.modSeq_ctl (c : Core) (st : Strm) (f : Seq → Seq) : (c.modSeq st f).ctl = c.ctl := by cases st <;> rfl
@[simp] theorem Core.modSeq_ulm (c : Core) (st : Strm) (f : Seq → Seq) : (c.modSeq st f).ulm = c.ulm := by cases st <;> rfl
@[simp] theorem Core.modSeq_ulmBad (c : Core) (st : Strm) (f : Seq → Seq) : (c.modSeq st f).ulmBad = c.ulmBad := by cases st <;> rfl
@[simp] theorem Core.modSeq_ulmChk (c : Core) (st : Strm) (f : Seq → Seq) : (c.modSeq st f).ulmChk = c.ulmChk := by cases st <;> rfl
@[simp] theorem Core.modSeq_regBad (c : Core) (st : Strm) (f : Seq → Seq) : (c.modSeq st f).regBad = c.regBad := by cases st <;> rfl
@[simp] theorem Core.modSeq_cmds (c : Core) (st : Strm) (f : Seq → Seq) : (c.modSeq st f).cmds = c.cmds := by cases st <;> rfl
@[simp] theorem Core.modSeq_fences (c : Core) (st : Strm) (f : Seq → Seq) : (c.modSeq st f).fences = c.fences := by cases st <;> rfl
@[simp] theorem Core.modSeq_wait (c : Core) (st : Strm) (f : Seq → Seq) : (c.modSeq st f).wait = c.wait := by cases st <;> rfl
@[simp] theorem Core.modSeq_join (c : Core) (st : Strm) (f : Seq → Seq) : (c.modSeq st f).join = c.join := by cases st <;> rfl
@[simp] theorem Core.modSeq_wset (c : Core) (st : Strm) (f : Seq → Seq) : (c.modSeq st f).wset = c.wset := by cases st <;> rfl
@[simp] theorem Core.modSeq_amoSet (c : Core) (st : Strm) (f : Seq → Seq) : (c.modSeq st f).amoSet = c.amoSet := by cases st <;> rfl
@[simp] theorem Core.modSeq_own (c : Core) (st : Strm) (f : Seq → Seq) : (c.modSeq st f).own = c.own := by cases st <;> rfl
@[simp] theorem Core.modSeq_acqAt (c : Core) (st : Strm) (f : Seq → Seq) : (c.modSeq st f).acqAt = c.acqAt := by cases st <;> rfl
@[simp] theorem Core.modSeq_acqScope (c : Core) (st : Strm) (f : Seq → Seq) : (c.modSeq st f).acqScope = c.acqScope := by cases st <;> rfl
@[simp] theorem Core.modSeq_seen (c : Core) (st : Strm) (f : Seq → Seq) : (c.modSeq st f).seen = c.seen := by cases st <;> rfl
@[simp] theorem Core.modSeq_observed (c : Core) (st : Strm) (f : Seq → Seq) : (c.modSeq st f).observed = c.observed := by cases st <;> rfl
@[simp] theorem Core.modSeq_armed (c : Core) (st : Strm) (f : Seq → Seq) : (c.modSeq st f).armed = c.armed := by cases st <;> rfl
@[simp] theorem Core.modSeq_xph (c : Core) (st : Strm) (f : Seq → Seq) : (c.modSeq st f).xph = c.xph := by cases st <;> rfl
@[simp] theorem Core.modSeq_xres (c : Core) (st : Strm) (f : Seq → Seq) : (c.modSeq st f).xres = c.xres := by cases st <;> rfl
@[simp] theorem Core.modSeq_task (c : Core) (st : Strm) (f : Seq → Seq) : (c.modSeq st f).task = c.task := by cases st <;> rfl
@[simp] theorem Core.modSeq_gang (c : Core) (st : Strm) (f : Seq → Seq) : (c.modSeq st f).gang = c.gang := by cases st <;> rfl
@[simp] theorem Core.modSeq_preempt (c : Core) (st : Strm) (f : Seq → Seq) : (c.modSeq st f).preempt = c.preempt := by cases st <;> rfl
@[simp] theorem Core.modSeq_entries (c : Core) (st : Strm) (f : Seq → Seq) : (c.modSeq st f).entries = c.entries := by cases st <;> rfl
@[simp] theorem Core.modSeq_scope (c : Core) (st : Strm) (f : Seq → Seq) : (c.modSeq st f).scope = c.scope := by cases st <;> rfl
@[simp] theorem Core.modSeq_roundStop (c : Core) (st : Strm) (f : Seq → Seq) : (c.modSeq st f).roundStop = c.roundStop := by cases st <;> rfl
@[simp] theorem Core.modSeq_fpRun (c : Core) (st : Strm) (f : Seq → Seq) : (c.modSeq st f).fpRun = c.fpRun := by cases st <;> rfl
@[simp] theorem Core.modSeq_amoVers (c : Core) (st : Strm) (f : Seq → Seq) : (c.modSeq st f).amoVers = c.amoVers := by cases st <;> rfl
@[simp] theorem Core.modSeq_commits (c : Core) (st : Strm) (f : Seq → Seq) : (c.modSeq st f).commits = c.commits := by cases st <;> rfl
@[simp] theorem Core.modSeq_xpar (c : Core) (st : Strm) (f : Seq → Seq) : (c.modSeq st f).xpar = c.xpar := by cases st <;> rfl
@[simp] theorem Core.modSeq_party (c : Core) (st : Strm) (f : Seq → Seq) : (c.modSeq st f).party = c.party := by cases st <;> rfl
@[simp] theorem Core.modSeq_runnerAt (c : Core) (st : Strm) (f : Seq → Seq) : (c.modSeq st f).runnerAt = c.runnerAt := by cases st <;> rfl
@[simp] theorem Core.modSeq_fatal (c : Core) (st : Strm) (f : Seq → Seq) : (c.modSeq st f).fatal = c.fatal := by cases st <;> rfl
@[simp] theorem Core.modSeq_port (c : Core) (st : Strm) (f : Seq → Seq) : (c.modSeq st f).port = c.port := by cases st <;> rfl

/-! ### Cores of the module -/

@[simp] theorem State.setCore_cur (s : State) (n : Nat) (c : Core) : (s.setCore n c).cur = s.cur := rfl
@[simp] theorem State.setCore_strm (s : State) (n : Nat) (c : Core) : (s.setCore n c).strm = s.strm := rfl
@[simp] theorem State.setCore_plan (s : State) (n : Nat) (c : Core) : (s.setCore n c).plan = s.plan := rfl
@[simp] theorem State.setCore_later (s : State) (n : Nat) (c : Core) : (s.setCore n c).later = s.later := rfl
@[simp] theorem State.setCore_free (s : State) (n : Nat) (c : Core) : (s.setCore n c).free = s.free := rfl
@[simp] theorem State.setCore_fresh (s : State) (n : Nat) (c : Core) : (s.setCore n c).fresh = s.fresh := rfl
@[simp] theorem State.setCore_cycle (s : State) (n : Nat) (c : Core) : (s.setCore n c).cycle = s.cycle := rfl
@[simp] theorem State.setCore_ns (s : State) (n : Nat) (c : Core) : (s.setCore n c).ns = s.ns := rfl
@[simp] theorem State.setCore_tiles (s : State) (n : Nat) (c : Core) : (s.setCore n c).tiles = s.tiles := rfl
@[simp] theorem State.setCore_packets (s : State) (n : Nat) (c : Core) : (s.setCore n c).packets = s.packets := rfl
@[simp] theorem State.setCore_flows (s : State) (n : Nat) (c : Core) : (s.setCore n c).flows = s.flows := rfl
@[simp] theorem State.setCore_counts (s : State) (n : Nat) (c : Core) : (s.setCore n c).counts = s.counts := rfl
@[simp] theorem State.setCore_reductions (s : State) (n : Nat) (c : Core) : (s.setCore n c).reductions = s.reductions := rfl
@[simp] theorem State.setCore_beats (s : State) (n : Nat) (c : Core) : (s.setCore n c).beats = s.beats := rfl
@[simp] theorem State.setCore_home (s : State) (n : Nat) (c : Core) : (s.setCore n c).home = s.home := rfl
@[simp] theorem State.setCore_serial (s : State) (n : Nat) (c : Core) : (s.setCore n c).serial = s.serial := rfl
@[simp] theorem State.setCore_stn (s : State) (n : Nat) (c : Core) : (s.setCore n c).stn = s.stn := rfl
@[simp] theorem State.setCore_bars (s : State) (n : Nat) (c : Core) : (s.setCore n c).bars = s.bars := rfl
@[simp] theorem State.setCore_doms (s : State) (n : Nat) (c : Core) : (s.setCore n c).doms = s.doms := rfl
@[simp] theorem State.setCore_recs (s : State) (n : Nat) (c : Core) : (s.setCore n c).recs = s.recs := rfl
@[simp] theorem State.setCore_pipes (s : State) (n : Nat) (c : Core) : (s.setCore n c).pipes = s.pipes := rfl
@[simp] theorem State.setCore_scopes (s : State) (n : Nat) (c : Core) : (s.setCore n c).scopes = s.scopes := rfl
@[simp] theorem State.setCore_saved (s : State) (n : Nat) (c : Core) : (s.setCore n c).saved = s.saved := rfl
@[simp] theorem State.setCore_census (s : State) (n : Nat) (c : Core) : (s.setCore n c).census = s.census := rfl
@[simp] theorem State.setCore_queues (s : State) (n : Nat) (c : Core) : (s.setCore n c).queues = s.queues := rfl
@[simp] theorem State.setCore_served (s : State) (n : Nat) (c : Core) : (s.setCore n c).served = s.served := rfl
@[simp] theorem State.setCore_isl (s : State) (n : Nat) (c : Core) : (s.setCore n c).isl = s.isl := rfl
@[simp] theorem State.setCore_reports (s : State) (n : Nat) (c : Core) : (s.setCore n c).reports = s.reports := rfl
@[simp] theorem State.setCore_links (s : State) (n : Nat) (c : Core) : (s.setCore n c).links = s.links := rfl
@[simp] theorem State.setCore_combs (s : State) (n : Nat) (c : Core) : (s.setCore n c).combs = s.combs := rfl

@[simp] theorem State.modCore_cur (s : State) (n : Nat) (g : Core → Core) : (s.modCore n g).cur = s.cur := rfl
@[simp] theorem State.modCore_strm (s : State) (n : Nat) (g : Core → Core) : (s.modCore n g).strm = s.strm := rfl
@[simp] theorem State.modCore_plan (s : State) (n : Nat) (g : Core → Core) : (s.modCore n g).plan = s.plan := rfl
@[simp] theorem State.modCore_later (s : State) (n : Nat) (g : Core → Core) : (s.modCore n g).later = s.later := rfl
@[simp] theorem State.modCore_free (s : State) (n : Nat) (g : Core → Core) : (s.modCore n g).free = s.free := rfl
@[simp] theorem State.modCore_fresh (s : State) (n : Nat) (g : Core → Core) : (s.modCore n g).fresh = s.fresh := rfl
@[simp] theorem State.modCore_cycle (s : State) (n : Nat) (g : Core → Core) : (s.modCore n g).cycle = s.cycle := rfl
@[simp] theorem State.modCore_ns (s : State) (n : Nat) (g : Core → Core) : (s.modCore n g).ns = s.ns := rfl
@[simp] theorem State.modCore_tiles (s : State) (n : Nat) (g : Core → Core) : (s.modCore n g).tiles = s.tiles := rfl
@[simp] theorem State.modCore_packets (s : State) (n : Nat) (g : Core → Core) : (s.modCore n g).packets = s.packets := rfl
@[simp] theorem State.modCore_flows (s : State) (n : Nat) (g : Core → Core) : (s.modCore n g).flows = s.flows := rfl
@[simp] theorem State.modCore_counts (s : State) (n : Nat) (g : Core → Core) : (s.modCore n g).counts = s.counts := rfl
@[simp] theorem State.modCore_reductions (s : State) (n : Nat) (g : Core → Core) : (s.modCore n g).reductions = s.reductions := rfl
@[simp] theorem State.modCore_beats (s : State) (n : Nat) (g : Core → Core) : (s.modCore n g).beats = s.beats := rfl
@[simp] theorem State.modCore_home (s : State) (n : Nat) (g : Core → Core) : (s.modCore n g).home = s.home := rfl
@[simp] theorem State.modCore_serial (s : State) (n : Nat) (g : Core → Core) : (s.modCore n g).serial = s.serial := rfl
@[simp] theorem State.modCore_stn (s : State) (n : Nat) (g : Core → Core) : (s.modCore n g).stn = s.stn := rfl
@[simp] theorem State.modCore_bars (s : State) (n : Nat) (g : Core → Core) : (s.modCore n g).bars = s.bars := rfl
@[simp] theorem State.modCore_doms (s : State) (n : Nat) (g : Core → Core) : (s.modCore n g).doms = s.doms := rfl
@[simp] theorem State.modCore_recs (s : State) (n : Nat) (g : Core → Core) : (s.modCore n g).recs = s.recs := rfl
@[simp] theorem State.modCore_pipes (s : State) (n : Nat) (g : Core → Core) : (s.modCore n g).pipes = s.pipes := rfl
@[simp] theorem State.modCore_scopes (s : State) (n : Nat) (g : Core → Core) : (s.modCore n g).scopes = s.scopes := rfl
@[simp] theorem State.modCore_saved (s : State) (n : Nat) (g : Core → Core) : (s.modCore n g).saved = s.saved := rfl
@[simp] theorem State.modCore_census (s : State) (n : Nat) (g : Core → Core) : (s.modCore n g).census = s.census := rfl
@[simp] theorem State.modCore_queues (s : State) (n : Nat) (g : Core → Core) : (s.modCore n g).queues = s.queues := rfl
@[simp] theorem State.modCore_served (s : State) (n : Nat) (g : Core → Core) : (s.modCore n g).served = s.served := rfl
@[simp] theorem State.modCore_isl (s : State) (n : Nat) (g : Core → Core) : (s.modCore n g).isl = s.isl := rfl
@[simp] theorem State.modCore_reports (s : State) (n : Nat) (g : Core → Core) : (s.modCore n g).reports = s.reports := rfl
@[simp] theorem State.modCore_links (s : State) (n : Nat) (g : Core → Core) : (s.modCore n g).links = s.links := rfl
@[simp] theorem State.modCore_combs (s : State) (n : Nat) (g : Core → Core) : (s.modCore n g).combs = s.combs := rfl

/-- A core that is not idle is read back, whatever the list of cores. -/
theorem State.setCore_core_self (s : State) (n : Nat) {c : Core} (h : c.run ≠ .idle) : (s.setCore n c).core n = c :=
  Store.get_set_self_of_ne _ _ (fun e => h (by rw [e]))

/-- A core that is not idle leaves every other core, whatever the list of cores. -/
theorem State.setCore_core_ne (s : State) {m n : Nat} {c : Core} (h : c.run ≠ .idle) (hm : m ≠ n) : (s.setCore n c).core m = s.core m :=
  Store.get_set_ne_of_ne _ hm (fun e => h (by rw [e]))

/-- Putting a core back changes nothing but the cores. -/
@[simp] theorem State.setCore_outside (s : State) (n : Nat) (c : Core) : { s.setCore n c with cores := [] } = { s with cores := [] } := rfl

end Sys2Proof.Machine
end

