-- ==== Sys2Proof/Laws/Issue.lean ====
section
/-!
SUPPORT. What a word that runs does: one law of the pipeline for every meaning.
-/

namespace Sys2Proof.Machine

/-! ### Sequencing keeps the data -/

/-- Two cores that differ in sequencing state of stream st only. -/
def Core.sameData (st : Strm) (c d : Core) : Prop := c.data st = d.data st ∧ c.gang = d.gang ∧ c.run = d.run

theorem Core.sameData.refl (st : Strm) (c : Core) : Core.sameData st c c := ⟨rfl, rfl, rfl⟩

theorem Core.sameData.trans {st : Strm} {a b c : Core} (h : Core.sameData st a b) (k : Core.sameData st b c) : Core.sameData st a c :=
  ⟨h.1.trans k.1, h.2.1.trans k.2.1, h.2.2.trans k.2.2⟩

theorem Core.sameData_setSeq {st : Strm} {c : Core} {q : Seq} (h : q.data = (c.seq st).data) : Core.sameData st (c.setSeq st q) c := by
  cases st <;> simp_all [Core.sameData, Core.data, Core.setSeq, Core.modSeq, Core.seq]

@[simp] theorem leaveLoops_data (q : Seq) (next : Word) (k : Nat) : (leaveLoops q next k).data = q.data := by
  induction k generalizing q with
  | zero => rfl
  | succ k ih =>
    unfold leaveLoops
    dsimp only
    split
    · rfl
    · split
      · rfl
      · exact (ih _).trans rfl

@[simp] theorem endFrames_data (q : Seq) (d : BitVec 16) (k : Nat) : (endFrames q d k).data = q.data := by
  induction k generalizing q with
  | zero => rfl
  | succ k ih =>
    unfold endFrames
    split
    · rfl
    · split
      · rfl
      · exact (ih _).trans rfl

@[simp] theorem endCheck_data (q : Seq) (a next : Word) (k : Nat) : (endCheck q a next k).2.2.data = q.data := by
  induction k generalizing q with
  | zero => rfl
  | succ k ih =>
    unfold endCheck
    dsimp only
    split
    · rfl
    · split
      · rfl
      · split
        · exact (ih _).trans rfl
        · rfl

/-- What ends loops changes the depth of the loops alone. -/
theorem leaveLoops_eq (q : Seq) (next : Word) (k : Nat) : ∃ d, leaveLoops q next k = { q with loopDepth := d } := by
  induction k generalizing q with
  | zero => exact ⟨q.loopDepth, rfl⟩
  | succ k ih =>
    unfold leaveLoops
    dsimp only
    split
    · exact ⟨q.loopDepth, rfl⟩
    · split
      · exact ⟨q.loopDepth, rfl⟩
      · obtain ⟨d, h⟩ := ih { q with loopDepth := q.loopDepth - 1 }
        exact ⟨d, h⟩

theorem endFrames_eq (q : Seq) (d : BitVec 16) (k : Nat) : ∃ n, endFrames q d k = { q with loopDepth := n } := by
  induction k generalizing q with
  | zero => exact ⟨q.loopDepth, rfl⟩
  | succ k ih =>
    unfold endFrames
    split
    · exact ⟨q.loopDepth, rfl⟩
    · split
      · exact ⟨q.loopDepth, rfl⟩
      · obtain ⟨n, h⟩ := ih { q with loopDepth := q.loopDepth - 1 }
        exact ⟨n, h⟩

/-- The end check changes the loops of the stream alone. -/
theorem endCheck_eq (q : Seq) (a next : Word) (k : Nat) : ∃ d l, (endCheck q a next k).2.2 = { q with loopDepth := d, loops := l } := by
  induction k generalizing q with
  | zero => exact ⟨q.loopDepth, q.loops, rfl⟩
  | succ k ih =>
    unfold endCheck
    dsimp only
    split
    · exact ⟨q.loopDepth, q.loops, rfl⟩
    · split
      · exact ⟨q.loopDepth, q.loops, rfl⟩
      · split
        · obtain ⟨d, l, h⟩ := ih { q with loopDepth := q.loopDepth - 1 }
          exact ⟨d, l, h⟩
        · exact ⟨q.loopDepth, _, rfl⟩

/-- What a selector has chosen over core c, which it leaves as c': the address, whether a transfer is taken, and the window. -/
structure Chosen (x : Ctx) (n : BitVec 3) (q0 : Seq) (nx : Next) (c c' : Core) (next : Word) (taken : Bool) : Prop where
  data : Core.sameData x.st c' c
  taken_eq : taken = c.taken x n q0
  away : taken = true → (n = 6 → c.settled x.st = true) → next = c.goesTo x n q0
  on : taken = false → nx = .seq → next = x.pc + 4
  same : n ≠ 4 → n ≠ 5 → c'.seq x.st = c.seq x.st
  call : n = 4 → (c'.seq x.st).lk = x.pc + 4 ∧ (c'.seq x.st).cur = (c.seq x.st).cur + 1 ∧ (c'.seq x.st).depth = (c.seq x.st).depth + 1
    ∧ (c'.seq x.st).links = Store.set 0 (c.seq x.st).links ((c.seq x.st).cur + 1).toNat (c.seq x.st).lk
    ∧ (c'.seq x.st).loopDepth = (c.seq x.st).loopDepth
  ret : n = 5 → (c.seq x.st).depth ≠ 0 → (c'.seq x.st).lk = Store.get 0 (c.seq x.st).links (c.seq x.st).cur.toNat
    ∧ (c'.seq x.st).cur = (c.seq x.st).cur - 1 ∧ (c'.seq x.st).depth = (c.seq x.st).depth - 1
  bottom : n = 5 → (c.seq x.st).depth = 0 → (c'.seq x.st).lk = (c.seq x.st).lk ∧ (c'.seq x.st).cur = (c.seq x.st).cur
    ∧ (c'.seq x.st).depth = (c.seq x.st).depth ∧ (c'.seq x.st).links = (c.seq x.st).links
  bits : c'.bits x.st = if n = 3 then (c.bits x.st).tail else c.bits x.st

@[simp] theorem Core.setSeq_bits (c : Core) (st st' : Strm) (q : Seq) : (c.setSeq st q).bits st' = c.bits st' := by cases st <;> rfl

/-- A selector that chooses an address and changes nothing. -/
theorem Chosen.plain {x : Ctx} {n : BitVec 3} {q0 : Seq} {nx : Next} {c : Core} {next : Word} {taken : Bool} (h3 : n ≠ 3) (h4 : n ≠ 4) (h5 : n ≠ 5)
    (ht : taken = c.taken x n q0) (ha : taken = true → (n = 6 → c.settled x.st = true) → next = c.goesTo x n q0)
    (ho : taken = false → nx = .seq → next = x.pc + 4) : Chosen x n q0 nx c c next taken :=
  ⟨.refl _ _, ht, ha, ho, fun _ _ => rfl, fun h => absurd h h4, fun h => absurd h h5, fun h => absurd h h5, by rw [if_neg h3]⟩

theorem callM_chosen {x : Ctx} {q0 : Seq} {nx : Next} {c : Core} (h : (c.seq x.st).cur + 2 ≠ (c.seq x.st).old) :
    ∃ c', callM x c = .ok ((), c') ∧ Chosen x 4 q0 nx c c' q0.bt true := by
  simp only [BitVec.ofNat_eq_ofNat] at h
  refine ⟨c.setSeq x.st { c.seq x.st with
      links := Store.set 0 (c.seq x.st).links ((c.seq x.st).cur + 1).toNat (c.seq x.st).lk
      cur := (c.seq x.st).cur + 1
      lk := x.pc + 4
      depth := (c.seq x.st).depth + 1 }, by simp [callM, h], Core.sameData_setSeq rfl, rfl, fun _ _ => by simp [Core.goesTo], by simp,
    fun h => absurd rfl h, fun _ => by simp, by simp, by simp, by simp⟩

theorem retM_chosen {x : Ctx} {q0 : Seq} {nx : Next} {c : Core} (h : (c.seq x.st).depth = 0 ∨ (c.seq x.st).cur ≠ (c.seq x.st).old) :
    ∃ c', retM x c = .ok ((c.seq x.st).lk, c') ∧ Chosen x 5 q0 nx c c' (c.seq x.st).lk true := by
  simp only [BitVec.ofNat_eq_ofNat] at h
  by_cases h0 : (c.seq x.st).depth = 0#16
  · obtain ⟨d, hd⟩ := leaveLoops_eq (c.seq x.st) (c.seq x.st).lk 3
    exact ⟨c.setSeq x.st (leaveLoops (c.seq x.st) (c.seq x.st).lk 3), by simp [retM, h0], Core.sameData_setSeq (leaveLoops_data _ _ _), rfl,
      fun _ _ => by simp [Core.goesTo], by simp, fun _ h => absurd rfl h, by simp, fun _ h => absurd h0 h, fun _ _ => by simp [hd], by simp⟩
  · have h1 : (c.seq x.st).cur ≠ (c.seq x.st).old := by tauto
    refine ⟨c.setSeq x.st { endFrames (c.seq x.st) (c.seq x.st).depth 3 with
        lk := Store.get 0 (c.seq x.st).links (c.seq x.st).cur.toNat
        cur := (c.seq x.st).cur - 1
        depth := (c.seq x.st).depth - 1 }, by simp [retM, h0, h1], Core.sameData_setSeq ?_, rfl, fun _ _ => by simp [Core.goesTo], by simp,
      fun _ h => absurd rfl h, by simp, fun _ _ => by simp, fun _ h => absurd h h0, by simp⟩
    rw [← endFrames_data (c.seq x.st) (c.seq x.st).depth 3]
    rfl

theorem popBit_ok {x : Ctx} {c : Core} (h : (c.bits x.st).isEmpty = false) :
    ∃ c', popBit x c = .ok ((c.bits x.st).headD false, c') ∧ Core.sameData x.st c' c ∧ c'.seq x.st = c.seq x.st ∧ c'.bits x.st = (c.bits x.st).tail := by
  obtain ⟨b, r, hb⟩ : ∃ b r, c.bits x.st = b :: r := by
    cases hc : c.bits x.st with
    | nil => simp [hc] at h
    | cons b r => exact ⟨b, r, rfl⟩
  refine ⟨{ c with q := match x.st with
      | .a => { c.q with boqEA := r }
      | .e => { c.q with boqAE := r } }, ?_, ⟨?_, rfl, rfl⟩, rfl, ?_⟩
  · cases hs : x.st <;> simp_all [popBit, Core.bits]
  · cases x.st <;> rfl
  · cases hs : x.st <;> simp_all [Core.bits]

theorem Reads.rdOwn (x : Ctx) (q0 : Seq) (r : BitVec 5) : Reads (rdOwn x q0 r) := by
  unfold Machine.rdOwn
  refine Reads.get.bind fun c => ?_
  dsimp only
  refine Reads.ite _ ?_ (Reads.rdX _ _)
  split
  · exact Reads.pure _
  · exact Reads.throw _

theorem jxM_reads (x : Ctx) (q0 : Seq) : Reads (jxM x q0) := by
  unfold jxM
  refine (Reads.rdOwn _ _ _).bind fun v => (Reads.raiseIf _ _ _ _ _).bind fun _ => (Reads.raiseIf _ _ _ _ _).bind fun _ =>
    Reads.get.bind fun c => ?_
  dsimp only
  split
  · exact (Reads.throw _).bind fun _ => (Reads.raiseIf _ _ _ _ _).bind fun _ => (Reads.raiseIf _ _ _ _ _).bind fun _ => Reads.pure _
  · exact (Reads.pure _).bind fun _ => (Reads.raiseIf _ _ _ _ _).bind fun _ => (Reads.raiseIf _ _ _ _ _).bind fun _ => Reads.pure _

/-- A check that lets a word go on. -/
theorem raiseIf_bind {α : Type} {b : Bool} {k sub : Nat} {a i : Word} {g : Unit → CM α} {c : Core} {p : α × Core}
    (h : (raiseIf b k sub a i >>= g) c = .ok p) : g () c = .ok p := by
  cases b
  · simpa using h
  · simp at h

/-- Where a JX goes whose index register stands (R70). -/
theorem jxM_ok {x : Ctx} {q0 : Seq} {c : Core} {p : Word × Core} (hs : c.settled x.st = true) (h : jxM x q0 c = .ok p) : p.1 = c.goesTo x 6 q0 := by
  obtain ⟨h1, h2, h3, -, h5, h6, -⟩ : (c.seq x.st).pend = [] ∧ (c.seq x.st).punty = [] ∧ (c.seq x.st).expired = [] ∧ (c.seq x.st).wb = none
      ∧ c.regBad = [] ∧ c.vrep = none ∧ c.fpRun = none ∧ c.puntyUse x.st < 8 := by simpa [Core.settled, and_assoc] using hs
  have hr : ∀ r : BitVec 5, rdOwn x q0 r c = .ok (c.reg x.st r, c) := fun r => by
    by_cases hn : r = 0 <;> simp only [BitVec.ofNat_eq_ofNat] at hn <;>
      simp [rdOwn, rdX, hn, Core.reg, rdHome, Core.vrepNames, h1, h2, h3, h5, h6]
  unfold jxM at h
  dsimp only at h
  rw [run_bind, hr] at h
  dsimp only at h
  have h := raiseIf_bind (raiseIf_bind h)
  rw [run_bind, run_get] at h
  dsimp only at h
  cases hu : c.ulmError (q0.bt.toNat + 4 * Nat.min (x.jtab.getD (0, 0)).2.toNat (c.reg x.st (x.jtab.getD (0, 0)).1).toNat) 4 with
  | some e =>
    obtain ⟨k, v⟩ := e
    simp only [hu] at h
    rw [run_bind] at h
    simp at h
  | none =>
    simp only [hu] at h
    have h := raiseIf_bind (raiseIf_bind h)
    simp only [run_pure, Except.ok.injEq] at h
    simp [← h, Core.goesTo]

/-- The selector of a word that runs is resolved, and touches sequencing state only. -/
theorem selectM_chosen {x : Ctx} {n : BitVec 3} {q0 : Seq} (nx : Next) {c : Core} (h : c.selectorAfter x n q0 = true) (hf : c.gang = none) :
    ∃ next taken c', selectM x n q0 nx c = .ok ((next, taken), c') ∧ Chosen x n q0 nx c c' next taken := by
  simp only [Core.selectorAfter, Bool.and_eq_true, Bool.or_eq_true, bne_iff_ne, ne_eq, beq_iff_eq, Bool.not_eq_true'] at h
  obtain ⟨⟨⟨h3, h4⟩, h5⟩, h6⟩ := h
  match n, h3, h4, h5, h6 with
  | 0#3, _, _, _, _ => exact ⟨_, _, c, rfl, .plain (by decide) (by decide) (by decide) rfl (by simp) fun _ h => by subst h; rfl⟩
  | 1#3, _, _, _, _ => exact ⟨_, _, c, rfl, .plain (by decide) (by decide) (by decide) rfl (fun _ _ => by simp [Core.goesTo]) (by simp)⟩
  | 2#3, _, _, _, _ =>
    by_cases hp : (c.seq x.st).pred q0.brPred.toNat = (q0.brSense == 1#1)
    · exact ⟨x.pc + 4, false, c, by simp [selectM, hp], .plain (by decide) (by decide) (by decide) (by simp [Core.taken, hp]) (by simp) fun _ _ => rfl⟩
    · exact ⟨q0.bt, true, c, by simp [selectM, hp], .plain (by decide) (by decide) (by decide) (by simp [Core.taken]; revert hp; cases (c.seq x.st).pred q0.brPred.toNat <;> cases (q0.brSense == 1#1) <;> simp)
        (fun _ _ => by simp [Core.goesTo]) (by simp)⟩
  | 3#3, h3, _, _, _ =>
    obtain ⟨c', hb, hd, hq, ht⟩ := popBit_ok (x := x) (c := c) (by simpa using h3)
    refine ⟨if (c.bits x.st).headD false then q0.bt else x.pc + 4, (c.bits x.st).headD false, c', ?_, hd, rfl,
      fun hh _ => by rw [hh]; rfl, fun hh _ => by rw [hh]; rfl, fun _ _ => hq, by simp, by simp, by simp, by simp [ht]⟩
    cases hh : (c.bits x.st).headD false <;> simp [selectM, hb] <;> simpa using hh
  | 4#3, _, h4, _, _ =>
    obtain ⟨c', hb, hd⟩ := callM_chosen (x := x) (q0 := q0) (nx := nx) (c := c) (by simpa using h4)
    exact ⟨_, _, c', by simp [selectM, hb], hd⟩
  | 5#3, _, _, h5, _ =>
    obtain ⟨c', hb, hd⟩ := retM_chosen (x := x) (q0 := q0) (nx := nx) (c := c) (by simpa using h5)
    exact ⟨_, _, c', by simp [selectM, hb], hd⟩
  | 6#3, _, _, _, h6 =>
    cases hj : jxM x q0 c with
    | error e => simp [hj] at h6
    | ok p =>
      have hr := jxM_reads x q0 c p.1 p.2 hj
      refine ⟨p.1, true, p.2, by simp [selectM, Core.follower, hf, hj], ?_⟩
      rw [hr]
      exact .plain (by decide) (by decide) (by decide) rfl (fun _ hs => jxM_ok (hs rfl) hj) (by simp)
  | 7#3, _, _, _, _ => exact ⟨_, _, c, rfl, .plain (by decide) (by decide) (by decide) rfl (by simp) fun _ h => by subst h; rfl⟩

/-- The loop ends of a word touch its stream's loops only. -/
theorem loopsM_ok (x : Ctx) (n : BitVec 3) (nx : Next) (next : Word) (taken : Bool) (c : Core) :
    ∃ a keep c', loopsM x n nx next taken c = .ok ((a, keep), c') ∧ Core.sameData x.st c' c ∧ c'.bits x.st = c.bits x.st
      ∧ (∃ d l, c'.seq x.st = { c.seq x.st with loopDepth := d, loops := l })
      ∧ (taken = true → a = next ∧ c'.seq x.st = if n = 1 ∨ n = 2 ∨ n = 3 ∨ n = 6 then leaveLoops (c.seq x.st) next 3 else c.seq x.st)
      ∧ (taken = false → (a, (c'.seq x.st).loopDepth) = (c.seq x.st).afterLoops x.pc next) := by
  cases taken
  · obtain ⟨d, l, h⟩ := endCheck_eq (c.seq x.st) x.pc next 3
    exact ⟨(endCheck (c.seq x.st) x.pc next 3).1, _, c.setSeq x.st (endCheck (c.seq x.st) x.pc next 3).2.2, rfl, Core.sameData_setSeq (by simp), by simp,
      ⟨d, l, by simp [h]⟩, by simp, fun _ => by simp [Seq.afterLoops]⟩
  · refine ⟨next, false, c.setSeq x.st (if n = 1 ∨ n = 2 ∨ n = 3 ∨ n = 6 then leaveLoops (c.seq x.st) next 3 else c.seq x.st), rfl, Core.sameData_setSeq (by split <;> simp), by simp, ?_, fun _ => ⟨rfl, by simp⟩, by simp⟩
    obtain ⟨d, h⟩ := leaveLoops_eq (c.seq x.st) next 3
    split
    · exact ⟨d, (c.seq x.st).loops, by simp [h]⟩
    · exact ⟨(c.seq x.st).loopDepth, (c.seq x.st).loops, by simp⟩

/-! ### The law of the pipeline -/

@[simp] theorem Seq.takeTgt_punty (q : Seq) : q.takeTgt.punty = q.punty := by unfold Seq.takeTgt; split <;> rfl

@[simp] theorem Core.modSeq_eSafe (c : Core) (st : Strm) (f : Seq → Seq) : (c.modSeq st f).eSafe = c.eSafe := by cases st <;> rfl

@[simp] theorem Core.modSeq_bits (c : Core) (st : Strm) (f : Seq → Seq) : (c.modSeq st f).bits = c.bits := by cases st <;> rfl

@[simp] theorem Seq.takeTgt_wb (q : Seq) : q.takeTgt.wb = q.wb := by unfold Seq.takeTgt; split <;> rfl

@[simp] theorem Core.takeTgt_livePunty (c : Core) (st : Strm) : (c.modSeq st Seq.takeTgt).livePunty st = c.livePunty st := by
  simp [Core.livePunty, Core.puntyUse]

@[simp] theorem Core.modSeq_wordRuns (c : Core) (st : Strm) (f : Seq → Seq) : (c.modSeq st f).wordRuns = c.wordRuns := by cases st <;> rfl

/-- What precedes the effect of a word that runs: the group's TGT, and the checks of its selector. -/
theorem before_ok {x : Ctx} {n : BitVec 3} {c : Core} (h : c.selectorBefore x.st n = true) :
    (do
      modSeqM x.st Seq.takeTgt
      let c ← get
      stallIf (n == 7 && x.st == .e && !c.eSafe && !c.wordRuns)
      if n = 3 then do
        let c ← get
        if (c.bits x.st).isEmpty then stallPop else pure ()
      else pure () : CM Unit) c = .ok ((), c.modSeq x.st Seq.takeTgt) := by
  simp only [Core.selectorBefore, Bool.and_eq_true, Bool.or_eq_true, bne_iff_ne, ne_eq, beq_iff_eq, Bool.not_eq_true',
    BitVec.ofNat_eq_ofNat] at h
  by_cases h7 : n = 7#3
  · subst h7
    have h7 := h.2.resolve_left (by simp)
    cases hs : x.st <;> simp_all <;> exact fun he => h.2.resolve_left (by simp [he])
  · by_cases h3 : n = 3#3
    · subst h3
      simpa using h.1.resolve_left (by simp)
    · simp [h7, h3]

/-- A safe point that may run has no live punty entry (R84). -/
theorem Core.selectorBefore_live {c : Core} {st : Strm} {n : BitVec 3} (h : c.selectorBefore st n = true) : (n == 7 && c.livePunty st) = false := by
  simp only [Core.selectorBefore, Bool.and_eq_true, Bool.or_eq_true, bne_iff_ne, ne_eq, Bool.not_eq_true', BitVec.ofNat_eq_ofNat] at h
  by_cases h7 : n = 7#3
  · simp [(h.2.resolve_left (by simp [h7])).1]
  · simp [h7]

@[simp] theorem Core.countIssue_seq (c : Core) (st : Strm) : c.countIssue.seq st = c.seq st := by
  unfold Core.countIssue
  cases st <;> (repeat' split) <;> rfl

/-- The commit touches sequencing state and counts only. -/
theorem commit_data (c : Core) (x : Ctx) (n : BitVec 3) (next : Word) (keep : Bool) :
    Core.sameData x.st (let d := c.countIssue.modSeq x.st fun q => q.advance x n next keep; { d with ctl := { d.ctl with wdogCount := 0 } }) c := by
  unfold Core.countIssue
  cases hs : x.st <;> dsimp only [Core.modSeq, Core.setSeq] <;> (repeat' split) <;> exact ⟨rfl, rfl, rfl⟩

@[simp] theorem Seq.takeTgt_jx (q : Seq) : q.takeTgt.jx = q.jx := by unfold Seq.takeTgt; split <;> rfl

/-- A JX whose index can be read does not wait for it. -/
theorem jxWaits_of_ok {x : Ctx} {q0 : Seq} {c : Core} {p : Word × Core} (h : jxM x q0 c = .ok p) : c.jxWaits x q0 = false := by
  by_contra hw
  simp only [Core.jxWaits, Bool.and_eq_true, Bool.not_eq_false, bne_iff_ne, ne_eq, Bool.not_eq_true', Option.isNone_iff_eq_none] at hw
  obtain ⟨⟨⟨⟨-, h1⟩, h2⟩, h3⟩, h4⟩ := hw
  unfold jxM at h
  dsimp only at h
  rw [run_bind] at h
  have : rdOwn x q0 (x.jtab.getD (0, 0)).1 c = .error (.wait .unit) := by
    unfold rdOwn
    simp only [run_bind, run_get]
    rw [if_pos (by simp only [Bool.and_eq_true, bne_iff_ne, ne_eq, Bool.not_eq_true']; exact ⟨⟨h1, h2⟩, h3⟩), h4]
    rfl
  rw [this] at h
  simp at h

@[simp] theorem Core.leaveRunner_seq (c c0 : Core) (x : Ctx) (st : Strm) : (c.leaveRunner c0 x).seq st = c.seq st := by
  unfold Core.leaveRunner; split <;> cases st <;> rfl
@[simp] theorem Core.leaveRunner_bits (c c0 : Core) (x : Ctx) : (c.leaveRunner c0 x).bits = c.bits := by unfold Core.leaveRunner; split <;> rfl

/-- A runner's mark is no data. -/
theorem Core.leaveRunner_sameData (c c0 : Core) (x : Ctx) (st : Strm) : Core.sameData st (c.leaveRunner c0 x) c := by
  unfold Core.leaveRunner; split <;> cases st <;> exact ⟨rfl, rfl, rfl⟩

/-- A word without a gang is committed on its own core. -/
theorem commit_alone {s : State} {x : Ctx} (i : Instr) (n : BitVec 3) (next : Word) (keep : Bool) (hg : (s.core x.core).gang = none)
    (hr : (s.core x.core).run ≠ .idle) :
    ∃ c, commit s x i n next keep = s.setCore x.core c ∧ Core.sameData x.st c (s.core x.core)
      ∧ c.seq x.st = ((s.core x.core).seq x.st).advance x n next keep ∧ c.bits x.st = (s.core x.core).bits x.st := by
  have hd := commit_data (s.core x.core) x n next keep
  set d : Core := (let d := (s.core x.core).countIssue.modSeq x.st fun q => q.advance x n next keep;
    { d with ctl := { d.ctl with wdogCount := 0 } }) with hdd
  have hf : d.follower = false := by simp [Core.follower, hd.2.1, hg]
  have hm : (s.modCore x.core fun c =>
      let c := c.countIssue.modSeq x.st fun q => q.advance x n next keep
      let c := { c with ctl := { c.ctl with wdogCount := 0 } }
      if c.follower then c.modSeq x.st Seq.follow else c) = s.setCore x.core d := by
    unfold State.modCore
    congr 1
    show (if d.follower then _ else d) = d
    rw [hf]
    rfl
  have hq : d.seq x.st = ((s.core x.core).seq x.st).advance x n next keep := by
    have : d.seq x.st = ((s.core x.core).countIssue.modSeq x.st fun q => q.advance x n next keep).seq x.st := by
      rw [hdd]
      cases x.st <;> rfl
    simp [this]
  have hb : d.bits x.st = (s.core x.core).bits x.st := by
    have : d.bits x.st = ((s.core x.core).countIssue.modSeq x.st fun q => q.advance x n next keep).bits x.st := by
      rw [hdd]
      cases x.st <;> rfl
    rw [this, Core.modSeq_bits]
    unfold Core.countIssue
    (repeat' split) <;> rfl
  refine ⟨d, ?_, hd, hq, hb⟩
  unfold commit
  simp only
  rw [hm]
  have hcore : (s.setCore x.core d).core x.core = d := s.setCore_core_self _ (by rw [hd.2.2]; exact hr)
  simp [forward, State.successor, hcore, hd.2.1, hg]

theorem Store.set_set_of_ne {α : Type} [DecidableEq α] {d v w : α} (m : Store α) (k : Nat) (hv : v ≠ d) (hw : w ≠ d) :
    Store.set d (Store.set d m k v) k w = Store.set d m k w := by
  induction m with
  | nil => simp [Store.set, hv, hw]
  | cons p m ih =>
    simp only [Store.set, hv, hw, if_false]
    split
    · simp [Store.set, hw]
    · split
      · simp [Store.set, hw]
      · simp [Store.set, *]

theorem State.setCore_setCore (s : State) (n : Nat) {c d : Core} (hc : c.run ≠ .idle) (hd : d.run ≠ .idle) :
    (s.setCore n c).setCore n d = s.setCore n d := by
  unfold State.setCore
  simp only
  rw [Store.set_set_of_ne _ _ (fun e => hc (by rw [e])) (fun e => hd (by rw [e]))]

/-- Putting back a core that differs in sequencing state only. -/
theorem Stepped.of_setCore {s2 : State} {n : Nat} {st : Strm} {c : Core} (h : Core.sameData st c (s2.core n)) (hr : c.run ≠ .idle) :
    Stepped s2 (s2.setCore n c) n st :=
  ⟨fun _ hm => s2.setCore_core_ne hr hm, rfl, by rw [s2.setCore_core_self n hr]; exact h.1⟩

/-- A word that runs: its effect happens, its stream moves on, and nothing else changes; one that goes on with its selector moves on as the selector
says. -/
theorem issue_goes {i : Instr} {eff : Ctx → DM Next} {s s2 : State} {nx : Next} (hr : s.runs i (s2.core s.cur) = true)
    (he : eff s.ctx (s.setCore s.cur s.atIssue) = .ok (nx, s2)) (hk : nx ≠ .hold ∧ nx ≠ .run) :
    ∃ t, issue i eff s = .next t ∧ Stepped s2 t s.cur s.strm
      ∧ (nx = .seq → Goes s.ctx (selector i) (s.atIssue.seq s.strm) (s2.core s.cur) (t.core s.cur)) := by
  simp only [State.runs, Bool.and_eq_true, bne_iff_ne, ne_eq, Bool.not_eq_true'] at hr
  obtain ⟨⟨⟨⟨⟨⟨⟨⟨⟨hci, hg⟩, hg2⟩, hrun⟩, htt⟩, hl⟩, hu⟩, hj⟩, hb⟩, ha⟩ := hr
  have hfull : s.fwdFull s.cur s.strm = false := by
    simp only [Option.isNone_iff_eq_none] at hg
    simp [State.fwdFull, State.successor, hg]
  simp only [Option.isNone_iff_eq_none] at hg hg2 htt hl
  -- what stands before the effect
  have hstc : (s.ctx).st = s.strm := rfl
  have hcore : (s.ctx).core = s.cur := rfl
  have hpre := before_ok (x := s.ctx) (n := selector i) (c := s.core s.cur) (by rw [hstc]; exact hb)
  obtain ⟨next, taken, c3, hsel, hch⟩ := selectM_chosen (q0 := s.atIssue.seq s.strm) nx ha hg2
  have hd3 := hch.data
  obtain ⟨a, keep, c4, hloop, hd4, hbits4, hwin4, htk4, hon4⟩ := loopsM_ok s.ctx (selector i) nx next taken c3
  have hrun1 : (s.core s.cur).run = .running := by
    simp only [State.canIssue, Bool.and_eq_true, beq_iff_eq] at hci
    exact hci.1.1.1.1.1.1.1
  have hc1 : (s.setCore s.cur s.atIssue).core s.cur = s.atIssue :=
    s.setCore_core_self s.cur (by simp [State.atIssue, hrun1])
  have hjw : (selector i == 6 && (s2.core s.cur).jxWaits s.ctx (s.atIssue.seq s.strm)) = false := by
    by_cases h6 : selector i = 6
    · simp only [Core.selectorAfter, Bool.and_eq_true, Bool.or_eq_true, bne_iff_ne, ne_eq] at ha
      have := ha.2.resolve_left (by simp [h6])
      cases hjx : jxM s.ctx (s.atIssue.seq s.strm) (s2.core s.cur) with
      | error e => simp [hjx] at this
      | ok p => simp [jxWaits_of_ok hjx]
    · simp only [BitVec.ofNat_eq_ofNat] at h6
      simp [h6]
  have hself : (s2.setCore s.cur (s2.core s.cur)).core s.cur = s2.core s.cur := s2.setCore_core_self s.cur hrun
  have hd : Core.sameData s.strm c4 (s2.core s.cur) := hd4.trans hd3
  have hr4 : c4.run ≠ .idle := by rw [hd.2.2]; exact hrun
  have hres : resolveM s.ctx (selector i) (s.atIssue.seq s.strm) nx (s2.setCore s.cur (s2.core s.cur)) = .ok ((nx, a, keep), s2.setCore s.cur c4) := by
    have : onCore s.cur (do
        let p ← selectM s.ctx (selector i) (s.atIssue.seq s.strm) nx
        loopsM s.ctx (selector i) nx p.1 p.2) (s2.setCore s.cur (s2.core s.cur)) = .ok ((a, keep), s2.setCore s.cur c4) := by
      rw [onCore_ok (c := c4) (a := (a, keep)) (by rw [hself]; simp [hsel, hloop]), State.setCore_setCore _ _ hrun hr4]
    unfold resolveM
    rw [run_bind, hcore]
    erw [this]
    rfl
  have hp : performM s.ctx (selector i) eff s = .ok ((nx, a, keep), s2.setCore s.cur c4) := by
    have hlive : (selector i == 7 && s.atIssue.livePunty s.ctx.st) = false := by
      rw [hstc, show s.atIssue.livePunty s.strm = (s.core s.cur).livePunty s.strm from Core.takeTgt_livePunty _ _]
      exact Core.selectorBefore_live hb
    have hjx : (s.atIssue.seq s.strm).jx = false := by simp [State.atIssue, hj]
    have hlive' : onCore s.cur (raiseIf (selector i == 7 && s.atIssue.livePunty s.ctx.st) cLiveMap 0 0 0) s2 = .ok ((), s2.setCore s.cur (s2.core s.cur)) :=
      onCore_ok (by rw [hlive]; simp)
    unfold performM
    rw [run_bind, hcore, onCore_ok hpre]
    simp only [run_bind, run_get]
    rw [show (s.core s.cur).modSeq s.ctx.st Seq.takeTgt = s.atIssue from rfl, hc1, hstc, hjx, if_neg (by simp)]
    rw [run_bind, he]
    cases nx with
    | hold => exact absurd rfl hk.1
    | run => exact absurd rfl hk.2
    | seq => simp only [run_bind, hstc ▸ hlive', run_get, hself]; erw [hjw]; exact hres
    | skip b => simp only [run_bind, hstc ▸ hlive', run_get, hself]; erw [hjw]; exact hres
    | jump b => simp only [run_bind, hstc ▸ hlive', run_get, hself]; erw [hjw]; exact hres
  set c5 : Core := c4.leaveRunner (s.core s.cur) s.ctx with hc5
  have hd5 : Core.sameData s.strm c5 c4 := Core.leaveRunner_sameData _ _ _ _
  have hr5 : c5.run ≠ .idle := by rw [hd5.2.2]; exact hr4
  have hc4 : (s2.setCore s.cur c4).core s.cur = c4 := s2.setCore_core_self s.cur hr4
  have hm5 : (s2.setCore s.cur c4).modCore s.cur (fun c => c.leaveRunner (s.core s.cur) s.ctx) = s2.setCore s.cur c5 := by
    unfold State.modCore
    rw [hc4, State.setCore_setCore _ _ hr4 hr5]
  have hcc : (s2.setCore s.cur c5).core s.cur = c5 := s2.setCore_core_self s.cur hr5
  obtain ⟨c6, hcom, hd6, hq6, hb6⟩ := commit_alone (s := s2.setCore s.cur c5) (x := s.ctx) i (selector i) a keep
    (by rw [hcore, hcc, hd5.2.1, hd.2.1]; exact hg2) (by rw [hcore, hcc]; exact hr5)
  rw [hcore, hcc] at hd6 hq6 hb6
  rw [hcore] at hcom
  have hr6 : c6.run ≠ .idle := by rw [hd6.2.2]; exact hr5
  refine ⟨s2.setCore s.cur c6, ?_, Stepped.of_setCore (hd6.trans (hd5.trans hd)) hr6, fun hnx => ?_⟩
  · rw [State.setCore_setCore _ _ hr5 hr6] at hcom
    unfold issue
    simp only [hci, hfull, Bool.not_true, Bool.or_false, Bool.false_eq_true, if_false, htt, hl]
    rw [show mkCtx s.cur s.strm s ((s.core s.cur).seq s.strm) (s.core s.cur).ctl.fpctl = s.ctx from rfl]
    have hfw : firstWait s s.ctx (selector i) eff = none := by
      unfold firstWait
      rw [hcore, hstc, if_pos (by simpa [Core.unharmed] using hu)]
    unfold tryWord
    simp only [hfw, hp, hcore]
    cases nx with
    | hold => exact absurd rfl hk.1
    | run => exact absurd rfl hk.2
    | seq => simp only [hm5, hcom]
    | skip a => simp only [hm5, hcom]
    | jump a => simp only [hm5, hcom]
  · rw [s2.setCore_core_self s.cur hr6]
    subst hnx
    obtain ⟨d, l, hw⟩ := hwin4
    have hseq : c6.seq s.strm = (c4.seq s.strm).advance s.ctx (selector i) a keep := by rw [← hstc, hq6, hc5]; simp
    have h4 : c4.seq s.strm = { c3.seq s.strm with loopDepth := d, loops := l } := hw
    have hbits : c6.bits s.strm = c3.bits s.strm := by rw [← hstc, hb6, hc5]; simp [hbits4]
    have hfields : (c6.seq s.strm).lk = (c3.seq s.strm).lk ∧ (c6.seq s.strm).cur = (c3.seq s.strm).cur ∧ (c6.seq s.strm).depth = (c3.seq s.strm).depth
        ∧ (c6.seq s.strm).links = (c3.seq s.strm).links ∧ (c6.seq s.strm).pc = a ∧ (c6.seq s.strm).loopDepth = (c4.seq s.strm).loopDepth := by
      rw [hseq]
      refine ⟨?_, ?_, ?_, ?_, rfl, rfl⟩ <;> simp [Seq.advance, h4]
    obtain ⟨f1, f2, f3, f4, f5, f6⟩ := hfields
    have hsame : selector i ≠ 4 → selector i ≠ 5 → c3.seq s.strm = (s2.core s.cur).seq s.strm := hch.same
    refine ⟨fun ht hs => ?_, fun ht => ?_, fun ht n4 n5 => ?_, fun n4 => ?_, fun n5 hd0 => ?_, fun n4 n5 => ?_, ?_⟩
    · rw [hstc, f5, (htk4 (hch.taken_eq.trans ht)).1]
      exact hch.away (hch.taken_eq.trans ht) hs
    · rw [hstc, f5, f6]
      have n4 : selector i ≠ 4 := fun h => by simp [Core.taken, h] at ht
      have n5 : selector i ≠ 5 := fun h => by simp [Core.taken, h] at ht
      have := hon4 (hch.taken_eq.trans ht)
      rw [hch.on (hch.taken_eq.trans ht) rfl] at this
      rw [← hsame n4 n5]
      exact this
    · obtain ⟨ha', hl'⟩ := htk4 (hch.taken_eq.trans ht)
      rw [hstc, f5, f6, ← hsame n4 n5, ha']
      have hn : selector i = 1 ∨ selector i = 2 ∨ selector i = 3 ∨ selector i = 6 := by
        revert ht n4 n5
        generalize selector i = n
        match n with
        | 0#3 => simp [Core.taken]
        | 1#3 => simp
        | 2#3 => simp
        | 3#3 => simp
        | 4#3 => simp
        | 5#3 => simp
        | 6#3 => simp
        | 7#3 => simp [Core.taken]
      rw [if_pos hn] at hl'
      exact congrArg Seq.loopDepth hl'
    · obtain ⟨g1, g2, g3, g4, g5⟩ := hch.call n4
      have ht : taken = true := by rw [hch.taken_eq]; simp [Core.taken, n4]
      obtain ⟨-, hl'⟩ := htk4 ht
      rw [if_neg (by rw [n4]; decide)] at hl'
      rw [hstc, f1, f2, f3, f4, f6]
      exact ⟨g1, g2, g3, g4, (congrArg Seq.loopDepth hl').trans g5⟩
    · obtain ⟨g1, g2, g3⟩ := hch.ret n5 hd0
      rw [hstc, f1, f2, f3]
      exact ⟨g1, g2, g3⟩
    · rw [hstc, f1, f2, f3, f4]
      by_cases h5 : selector i = 5
      · obtain ⟨g1, g2, g3, g4⟩ := hch.bottom h5 (n5.resolve_left (by simp [h5]))
        exact ⟨g1, g2, g3, g4⟩
      · have := hch.same n4 h5
        rw [hstc] at this
        simp [this]
    · rw [hstc, hbits]
      exact hch.bits

/-- A word that runs: its effect happens, its stream moves on, and nothing else changes. -/
theorem issue_runs {i : Instr} {eff : Ctx → DM Next} {s s2 : State} {nx : Next} (hr : s.runs i (s2.core s.cur) = true)
    (he : eff s.ctx (s.setCore s.cur s.atIssue) = .ok (nx, s2)) (hk : nx ≠ .hold ∧ nx ≠ .run) :
    ∃ t, issue i eff s = .next t ∧ Stepped s2 t s.cur s.strm := by
  obtain ⟨t, h1, h2, -⟩ := issue_goes hr he hk
  exact ⟨t, h1, h2⟩

/-- A word whose effect lies in its core: where it sends its stream too. -/
theorem issueC_goes {i : Instr} {eff : Ctx → CM Next} {s : State} {nx : Next} {c : Core} (hr : s.runs i c = true)
    (he : eff s.ctx s.atIssue = .ok (nx, c)) (hk : nx ≠ .hold ∧ nx ≠ .run) :
    ∃ t, issueC i eff s = .next t ∧ Stepped (s.setCore s.cur c) t s.cur s.strm
      ∧ (nx = .seq → Goes s.ctx (selector i) (s.atIssue.seq s.strm) c (t.core s.cur)) := by
  have hrun : c.run ≠ .idle := by
    simp only [State.runs, Bool.and_eq_true, bne_iff_ne, ne_eq] at hr
    exact hr.1.1.1.1.1.1.2
  have hrun1 : s.atIssue.run ≠ .idle := by
    simp only [State.runs, State.canIssue, Bool.and_eq_true, beq_iff_eq] at hr
    simp [State.atIssue, hr.1.1.1.1.1.1.1.1.1.1.1.1.1.1.1.1]
  have hc : (s.setCore s.cur c).core s.cur = c := s.setCore_core_self s.cur hrun
  have h1 : (s.setCore s.cur s.atIssue).core s.cur = s.atIssue := s.setCore_core_self s.cur hrun1
  have he2 : onCore s.cur (eff s.ctx) (s.setCore s.cur s.atIssue) = .ok (nx, s.setCore s.cur c) := by
    rw [onCore_ok (by rw [h1]; exact he), State.setCore_setCore _ _ hrun1 hrun]
  obtain ⟨t, ht, hs, hg⟩ := issue_goes (i := i) (eff := fun x => onCore x.core (eff x)) (s2 := s.setCore s.cur c) (nx := nx) (by rw [hc]; exact hr) he2 hk
  rw [hc] at hg
  exact ⟨t, ht, hs, hg⟩

/-- A word whose effect lies in its core. -/
theorem issueC_runs {i : Instr} {eff : Ctx → CM Next} {s : State} {nx : Next} {c : Core} (hr : s.runs i c = true)
    (he : eff s.ctx s.atIssue = .ok (nx, c)) (hk : nx ≠ .hold ∧ nx ≠ .run) :
    ∃ t, issueC i eff s = .next t ∧ Stepped (s.setCore s.cur c) t s.cur s.strm := by
  obtain ⟨t, h1, h2, -⟩ := issueC_goes hr he hk
  exact ⟨t, h1, h2⟩

/-- A word whose effect lies in its core and that goes on with its selector. -/
theorem issueU_runs {i : Instr} {eff : Ctx → CM Unit} {s : State} {c : Core} (hr : s.runs i c = true)
    (he : eff s.ctx s.atIssue = .ok ((), c)) :
    ∃ t, issueU i eff s = .next t ∧ Stepped (s.setCore s.cur c) t s.cur s.strm
      ∧ Goes s.ctx (selector i) (s.atIssue.seq s.strm) c (t.core s.cur) := by
  obtain ⟨t, h1, h2, h3⟩ := issueC_goes (i := i) (eff := fun x => do eff x; pure .seq) (nx := .seq) hr (by simp [he]) (by simp)
  exact ⟨t, h1, h2, h3 rfl⟩

end Sys2Proof.Machine
end

