-- ==== Sys2Proof/Laws/Operands.lean ====
section
/-!
SUPPORT. Laws of operands on a settled core: what a register or queue operand reads, and what writing a result leaves.
-/

namespace Sys2Proof.Machine

theorem Core.settled_iff {c : Core} {st : Strm} : c.settled st = true ↔
    (c.seq st).pend = [] ∧ (c.seq st).punty = [] ∧ (c.seq st).expired = [] ∧ (c.seq st).wb = none ∧ c.regBad = [] ∧ c.vrep = none
      ∧ c.fpRun = none ∧ c.puntyUse st < 8 := by
  simp [Core.settled, and_assoc]

/-- Any register of a settled core is read at once. -/
theorem rdHome_settled {x : Ctx} {c : Core} (h : c.settled x.st = true) (k cls n : Nat) : rdHome x k cls n c = .ok (c.main x.st k, c) := by
  obtain ⟨h1, h2, h3, -, h5, h6, -⟩ := Core.settled_iff.1 h
  simp [rdHome, Core.vrepNames, h1, h2, h3, h5, h6]

theorem rdX_settled {x : Ctx} {c : Core} (h : c.settled x.st = true) (n : BitVec 5) : rdX x n c = .ok (c.reg x.st n, c) := by
  by_cases hn : n = 0
  · simp [rdX, hn, Core.reg]
  · simp only [BitVec.ofNat_eq_ofNat] at hn
    simp [rdX, hn, Core.reg, rdHome_settled h]

theorem destFree_settled {x : Ctx} {c : Core} (h : c.settled x.st = true) (k : Nat) : destFree x k c = .ok ((), c) := by
  obtain ⟨h1, -, -, -, -, h6, -⟩ := Core.settled_iff.1 h
  simp [destFree, Core.vrepNames, h1, h6]

theorem shortFree_settled {x : Ctx} {c : Core} (h : c.settled x.st = true) (k : Nat) : shortFree x k c = .ok ((), c) := by
  obtain ⟨-, h2, -, h4, -, -, -, h7⟩ := Core.settled_iff.1 h
  have : (c.freeHome x.st k).puntyUse x.st < 8 := by
    refine lt_of_le_of_lt ?_ h7
    cases hs : x.st <;> simp [Core.puntyUse, Core.freeHome, Core.modSeq, Core.setSeq, Core.seq] <;> exact List.length_filter_le _ _
  simp [shortFree, show ¬ 8 ≤ (c.freeHome x.st k).puntyUse x.st by omega]

/-- Writing a result of a settled core. -/
theorem wrHome_settled {x : Ctx} {c : Core} (h : c.settled x.st = true) (k : Nat) (v : Vec) : wrHome x k v c = .ok ((), c.result x k v) := by
  by_cases hk : k = 0 ∨ k = 650
  · simp [wrHome, Core.result, hk]
  · simp only [wrHome, Core.result, hk, if_false, run_bind, destFree_settled h, shortFree_settled h, run_modify]

theorem wrX_settled {x : Ctx} {c : Core} (h : c.settled x.st = true) (n : BitVec 5) (v : Word) :
    wrX x n v c = .ok ((), c.resultX x n v) := by
  simp only [wrX, run_bind, run_get, wrHome_settled h]
  rfl

/-- The first source of a settled core. -/
theorem rdSrc_source {x : Ctx} {c c1 : Core} {q : BitVec 2} {n : BitVec 5} {a : Word} (h : c.settled x.st = true)
    (hs : c.source x.st q n = some (a, c1)) : rdSrc x q n c = .ok (a, c1) := by
  unfold Core.source at hs
  unfold rdSrc
  split at hs
  · rename_i hq
    rw [if_pos hq]
    split at hs
    all_goals first | (simp only [Option.some.injEq, Prod.mk.injEq] at hs; obtain ⟨rfl, rfl⟩ := hs) | simp at hs
    · rename_i h1 h2; simp [popData, h1, h2]
    · rename_i h1 h2; simp [popData, h1, h2]
  · rename_i hq
    rw [if_neg hq]
    simp only [Option.some.injEq, Prod.mk.injEq] at hs
    obtain ⟨rfl, rfl⟩ := hs
    exact rdX_settled h n

/-- Taking a source leaves a settled core settled, and its registers. -/
theorem Core.source_settled {st : Strm} {c c1 : Core} {q : BitVec 2} {n : BitVec 5} {a : Word} (h : c.settled st = true)
    (hs : c.source st q n = some (a, c1)) : c1.settled st = true := by
  unfold Core.source at hs
  split at hs
  · split at hs
    all_goals first | (simp only [Option.some.injEq, Prod.mk.injEq] at hs; obtain ⟨-, rfl⟩ := hs) | simp at hs
    all_goals exact h
  · simp only [Option.some.injEq, Prod.mk.injEq] at hs
    rw [← hs.2]
    exact h

/-- A push that finds room. -/
theorem pushData_push {x : Ctx} {c c1 : Core} {v : Option Word} (hs : c.push x.st v = some c1) : pushData x v c = .ok ((), c1) := by
  unfold Core.push at hs
  by_cases hh : (c.seq x.st.other).halted = true
  · rw [if_pos hh, Option.some.injEq] at hs
    subst hs
    simp [pushData, hh]
  · rw [if_neg hh] at hs
    cases he : x.st <;> simp only [he] at hs hh
    · by_cases hl : c.q.ldq.length < 16
      · rw [if_pos hl, Option.some.injEq] at hs
        have : ¬ 16 ≤ c.q.ldq.length := by omega
        simp [pushData, he, hh, this, ← hs]
      · simp [hl] at hs
    · by_cases hl : c.q.stq.length < 16
      · rw [if_pos hl, Option.some.injEq] at hs
        have : ¬ 16 ≤ c.q.stq.length := by omega
        simp [pushData, he, hh, this, ← hs]
      · simp [hl] at hs

/-- Delivering a result of a settled core. -/
theorem wrDst_delivered {x : Ctx} {c c1 : Core} {q : BitVec 2} {n : BitVec 5} {v : Word} (h : c.settled x.st = true)
    (hs : c.delivered x q n v = some c1) : wrDst x q n v c = .ok ((), c1) := by
  unfold Core.delivered at hs
  unfold wrDst
  split at hs
  · rename_i hq
    rw [if_pos hq]
    exact pushData_push hs
  · rename_i hq
    rw [if_neg hq]
    simp only [Option.some.injEq] at hs
    rw [← hs]
    exact wrX_settled h n v

/-- A TGT of the group leaves a settled core settled. -/
theorem State.atIssue_settled {s : State} (h : (s.core s.cur).settled s.strm = true) : s.atIssue.settled s.ctx.st = true := by
  have ht : ∀ q : Seq, q.takeTgt.pend = q.pend ∧ q.takeTgt.expired = q.expired ∧ q.takeTgt.wb = q.wb := by
    intro q
    unfold Seq.takeTgt
    split <;> exact ⟨rfl, rfl, rfl⟩
  have hst : s.ctx.st = s.strm := rfl
  rw [Core.settled_iff] at h ⊢
  rw [hst]
  refine ⟨?_, ?_, ?_, ?_, ?_, ?_, ?_, ?_⟩ <;> simp only [State.atIssue, Core.modSeq_seq, Core.modSeq_regBad, Core.modSeq_vrep, Core.modSeq_fpRun, Core.puntyUse,
    Core.modSeq_sauq, Core.modSeq_sauFly, ht, Seq.takeTgt_punty]
  · exact h.1
  · exact h.2.1
  · exact h.2.2.1
  · exact h.2.2.2.1
  · exact h.2.2.2.2.1
  · exact h.2.2.2.2.2.1
  · exact h.2.2.2.2.2.2.1
  · exact h.2.2.2.2.2.2.2

/-! ### The shared operations of the integer words -/

theorem alu2_ok {x : Ctx} {c c1 c2 : Core} {q : BitVec 2} {d n b : BitVec 5} {a : Word} {f : Word → Word → Word}
    (h : c.settled x.st = true) (hs : c.source x.st q n = some (a, c1)) (hd : c1.delivered x q d (f a (c1.reg x.st b)) = some c2) :
    alu2 f q d n b x c = .ok ((), c2) := by
  have h1 := Core.source_settled h hs
  simp only [alu2, run_bind, rdSrc_source h hs, rdX_settled h1, wrDst_delivered h1 hd]

theorem alu1_ok {x : Ctx} {c c1 c2 : Core} {q : BitVec 2} {d n : BitVec 5} {a : Word} {f : Word → Word}
    (h : c.settled x.st = true) (hs : c.source x.st q n = some (a, c1)) (hd : c1.delivered x q d (f a) = some c2) :
    alu1 f q d n x c = .ok ((), c2) := by
  have h1 := Core.source_settled h hs
  simp only [alu1, run_bind, rdSrc_source h hs, wrDst_delivered h1 hd]

theorem aluImm_ok {x : Ctx} {c c1 c2 : Core} {d n : BitVec 5} {im : BitVec 13} {a : Word} {f : Word → Word → Word}
    (h : c.settled x.st = true) (hs : c.source x.st 0 n = some (a, c1)) (hd : c1.delivered x 0 d (f a (immValue x im)) = some c2) :
    aluImm f d n im x c = .ok ((), c2) := by
  simp [Core.source] at hs
  obtain ⟨rfl, rfl⟩ := hs
  simp [Core.delivered] at hd
  subst hd
  simp only [aluImm, run_bind, rdX_settled h, wrX_settled h]

/-- Taking a source touches a queue only. -/
theorem Core.source_only {st : Strm} {c c1 : Core} {q : BitVec 2} {n : BitVec 5} {a : Word} (hs : c.source st q n = some (a, c1)) :
    ∃ u, c1 = { c with q := u } := by
  unfold Core.source at hs
  split at hs
  · split at hs
    all_goals first | (simp only [Option.some.injEq, Prod.mk.injEq] at hs; exact ⟨_, hs.2.symm⟩) | simp at hs
  · simp only [Option.some.injEq, Prod.mk.injEq] at hs
    exact ⟨c.q, hs.2.symm⟩

/-- A late result of a settled core. -/
theorem wrLate_settled {x : Ctx} {c : Core} {q : BitVec 2} {n : BitVec 5} {v : Word} {fl : BitVec 5} (h : c.settled x.st = true)
    (hq : q.getLsbD 1 = false) : wrLate x q n v fl c =
      .ok ((), (c.modSeq x.st fun r => { r with wb := some ⟨c.homeOf x.st n, v, fl, x.short⟩ }).setPend x.st (c.homeOf x.st n)) := by
  have hw := (Core.settled_iff.1 h).2.2.2.1
  simp only [wrLate, unitFree, run_bind, run_get, stallIf_run, hw, Option.isSome_none, Bool.false_eq_true, if_false, hq,
    destFree_settled h, shortFree_settled h, run_modify]
  rfl

end Sys2Proof.Machine
end

