-- ==== Sys2Proof/Laws/Effects.lean ====
section
/-!
SUPPORT. Laws of the shared operations on a settled core in the terms of the tables of effects: what an operation leaves when the table
gives a core, and what a word of a long-latency unit or of the SAU does when its effect is known.
-/

namespace Sys2Proof.Slice0

open Sys2Proof.Machine


/-- A word of a source and a second register, from what its source reads and its destination takes. -/
theorem alu2_ok {x : Ctx} {c c1 c2 : Core} {q : BitVec 2} {d n b : BitVec 5} {a : Word} {f : Word → Word → Word}
    (h : c.settled x.st = true) (hs : c.source x.st q n = some (a, c1)) (hd : c1.delivered x q d (f a (c1.reg x.st b)) = some c2) :
    alu2 f q d n b x c = .ok ((), c2) := by
  have h1 := Core.source_settled h hs
  simp only [alu2, run_bind, rdSrc_source h hs, rdX_settled h1, wrDst_delivered h1 hd]

/-- A word of one source. -/
theorem alu1_ok {x : Ctx} {c c1 c2 : Core} {q : BitVec 2} {d n : BitVec 5} {a : Word} {f : Word → Word}
    (h : c.settled x.st = true) (hs : c.source x.st q n = some (a, c1)) (hd : c1.delivered x q d (f a) = some c2) :
    alu1 f q d n x c = .ok ((), c2) := by
  have h1 := Core.source_settled h hs
  simp only [alu1, run_bind, rdSrc_source h hs, wrDst_delivered h1 hd]

/-- A word of a register and an immediate. -/
theorem aluImm_ok {x : Ctx} {c c1 c2 : Core} {d n : BitVec 5} {im : BitVec 13} {a : Word} {f : Word → Word → Word}
    (h : c.settled x.st = true) (hs : c.source x.st 0 n = some (a, c1)) (hd : c1.delivered x 0 d (f a (immValue x im)) = some c2) :
    aluImm f d n im x c = .ok ((), c2) := by
  simp [Core.source] at hs
  obtain ⟨rfl, rfl⟩ := hs
  simp [Core.delivered] at hd
  subst hd
  simp only [aluImm, run_bind, rdX_settled h, wrX_settled h]

/-- The same from the table of a source and a function. -/
theorem alu2_fromSource {x : Ctx} {c c2 : Core} {q d n b} {g : Word → Word → Word} {f : Core → Word → Word} (h : c.settled x.st = true) (hf : ∀ c u, f c u = g u (c.reg x.st b))
  (ht : fromSource x c q d n f = some c2) : alu2 g q d n b x c = .ok ((), c2) := by
  unfold fromSource at ht
  split at ht
  · rename_i u c1 hs
    rw [hf] at ht
    exact alu2_ok h hs ht
  · simp at ht

/-- The same for one source. -/
theorem alu1_fromSource {x : Ctx} {c c2 : Core} {q d n} {g : Word → Word} {f : Core → Word → Word} (h : c.settled x.st = true) (hf : ∀ c u, f c u = g u)
  (ht : fromSource x c q d n f = some c2) : alu1 g q d n x c = .ok ((), c2) := by
  unfold fromSource at ht
  split at ht
  · rename_i u c1 hs
    rw [hf] at ht
    exact alu1_ok h hs ht
  · simp at ht

/-- The same for an immediate. -/
theorem aluImm_fromSource {x : Ctx} {c c2 : Core} {d n im} {g : Word → Word → Word} {f : Core → Word → Word} (h : c.settled x.st = true) (hf : ∀ c u, f c u = g u (immValue x im))
  (ht : fromSource x c 0 d n f = some c2) : aluImm g d n im x c = .ok ((), c2) := by
  unfold fromSource at ht
  split at ht
  · rename_i u c1 hs
    rw [hf] at ht
    exact aluImm_ok h hs ht
  · simp at ht

/-- Reading a source changes no stream and no control register. -/
theorem source_frame {st : Strm} {c c1 : Core} {q n a} (hs : c.source st q n = some (a, c1)) : c1.seq = c.seq ∧ c1.ctl = c.ctl := by
  unfold Core.source at hs
  split at hs
  · split at hs
    all_goals first | (simp only [Option.some.injEq, Prod.mk.injEq] at hs; obtain ⟨-, rfl⟩ := hs) | simp at hs
    all_goals exact ⟨funext fun st => by cases st <;> rfl, rfl⟩
  · simp only [Option.some.injEq, Prod.mk.injEq] at hs
    rw [← hs.2]
    exact ⟨rfl, rfl⟩

/-- A late result goes where the table says (R129). -/
theorem wrLate_lateFrom {x : Ctx} {c c2 : Core} {q d v fl} (h : c.settled x.st = true) (ht : lateFrom x c q d v fl = some c2) : wrLate x q d v fl c = .ok ((), c2) := by
  unfold lateFrom at ht
  split at ht
  · rename_i hq
    have hw := (Core.settled_iff.1 h).2.2.2.1
    cases hp : c.push x.st none with
    | none => simp [hp] at ht
    | some c1 =>
      simp only [hp, Option.map_some, Option.some.injEq] at ht
      subst ht
      simp [wrLate, unitFree, hw, hq, pushData_push hp]
  · rename_i hq
    simp only [Option.some.injEq] at ht
    subst ht
    exact wrLate_settled h (by simpa using hq)

/-- A word of a long-latency unit issues, and its result comes due. -/
theorem issueLate_runs {i : Instr} {eff : Ctx → CM Unit} {s : State} {c : Core} (hr : s.runs i c = true)
    (he : eff s.ctx s.atIssue = .ok ((), c)) :
    ∃ t, issueLate i eff s = .next t ∧ Stepped (dueResult (s.setCore s.cur c)) t s.cur s.strm
      ∧ Goes s.ctx (selector i) (s.atIssue.seq s.strm) c (t.core s.cur) := by
  have hrun : c.run ≠ .idle := by
    simp only [State.runs, Bool.and_eq_true, bne_iff_ne, ne_eq] at hr
    exact hr.1.1.1.1.1.1.2
  have hrun1 : s.atIssue.run ≠ .idle := by
    simp only [State.runs, State.canIssue, Bool.and_eq_true, beq_iff_eq] at hr
    simp [State.atIssue, hr.1.1.1.1.1.1.1.1.1.1.1.1.1.1.1.1]
  have hc : (dueResult (s.setCore s.cur c)).core s.cur = c := s.setCore_core_self s.cur hrun
  have h1 : (s.setCore s.cur s.atIssue).core s.cur = s.atIssue := s.setCore_core_self s.cur hrun1
  suffices he2 : _ by
    obtain ⟨t, h2, h3, h4⟩ := issue_goes (i := i) (s2 := dueResult (s.setCore s.cur c)) (nx := .seq) (by rw [hc]; exact hr) he2 (by simp)
    rw [hc] at h4
    exact ⟨t, h2, h3, h4 rfl⟩
  simp only [run_bind]
  rw [show s.ctx.core = s.cur from rfl, onCore_ok (by rw [h1]; exact he)]
  simp [State.setCore_setCore _ _ hrun1 hrun]
  rfl

/-- A pushed bit (R66). -/
theorem pushBit_pushedBit {x : Ctx} {c c2 : Core} {b} (ht : pushedBit c x.st b = some c2) : pushBit x b c = .ok ((), c2) := by
  unfold pushedBit at ht
  split at ht
  · rename_i hh
    simp only [Option.some.injEq] at ht
    subst ht
    simp [pushBit, hh]
  · rename_i hh
    cases hx : x.st <;> simp only [hx] at ht hh
    · split at ht
      · rename_i hl
        simp only [Option.some.injEq] at ht
        have : ¬ 32 ≤ c.q.boqAE.length := by omega
        simp [pushBit, hx, hh, this, ← ht]
      · simp at ht
    · split at ht
      · rename_i hl
        simp only [Option.some.injEq] at ht
        have : ¬ 32 ≤ c.q.boqEA.length := by omega
        simp [pushBit, hx, hh, this, ← ht]
      · simp at ht

/-- What a comparison writes (R137). -/
theorem setCompare_compared {x : Ctx} {c c2 : Core} {d p b} (ht : compared x c d p b = some c2) : setCompare x d p b c = .ok ((), c2) := by
  unfold compared at ht
  unfold setCompare
  simp only [wrP, run_bind, modSeqM_run]
  split at ht
  · rename_i hp; simp only [hp, if_true]; exact pushBit_pushedBit ht
  · rename_i hp; rw [if_neg hp]; simpa using ht

/-- A vector register of a settled core reads at once. -/
theorem rdV_settled {x : Ctx} {c : Core} (h : c.settled x.st = true) (hx : x.st = .e) (n) : rdV x n c = .ok (c.vreg n, c) := by
  simp [rdV, rdHome_settled h, Core.vreg, hx]

/-- A mask of a settled core reads at once. -/
theorem rdK_settled {x : Ctx} {c : Core} (h : c.settled x.st = true) (hx : x.st = .e) (n) : rdK x n c = .ok (c.kreg n, c) := by
  simp [rdK, rdHome_settled h, Core.kreg, hx]

/-- Every destination of a settled core is free. -/
theorem forM_free {x : Ctx} {c : Core} (h : c.settled x.st = true) (l : List Nat) :
   (l.forM fun h => do
      destFree x h
      shortFree x h : CM Unit) c = .ok ((), c) := by
  induction l with
  | nil => rfl
  | cons a l ih => 
    simp [List.forM_cons, destFree_settled h, shortFree_settled h]
    exact ih

/-- A dispatch to the SAU leaves what the table says (R174). -/
theorem dispatchM_ok {x : Ctx} {c c2 : Core} {r : Lanes} (h : c.settled x.st = true) (hd : dispatched x c r = some c2) :
    dispatchM x false r.passes (r.writes.map Prod.fst) (.result r.writes r.flags) c = .ok ((), c2) := by
  unfold dispatched at hd
  split at hd
  · simp only [Option.some.injEq] at hd; subst hd
    have : ¬ 8 ≤ c.sauq.length := by omega
    simp only [dispatchM, run_bind, run_get, stallIf_run, this, decide_false, Bool.false_eq_true, if_false, forM_free h, run_modify]
    simp [List.foldl_map]
  · simp at hd

/-- The same for a word that does not run alone (R120). -/
theorem sauWord_ok {x : Ctx} {c c2 : Core} {r : Lanes} {fp : Bool} (h : c.settled x.st = true) (ha : aloneM x fp = false)
    (hd : dispatched x c r = some c2) : sauWord x fp r.passes r.writes r.flags c = .ok ((), c2) := by
  simp only [sauWord, ha]
  exact dispatchM_ok h hd

/-- A lane by lane word dispatches its lanes. -/
theorem vecMap_run {x : Ctx} {c : Core} {z d k f fp} (h : c.settled x.st = true) (hx : x.st = .e) :
    vecMap x fp (1024 / z) z d k f c
      = sauWord x fp (lanes c z d k f).passes (lanes c z d k f).writes (lanes c z d k f).flags c := by
  unfold vecMap lanes
  by_cases hk : k = 0
  · simp only [hk, ↓reduceIte, run_bind, rdK_settled h hx, run_pure]
  · simp only [hk, ↓reduceIte, run_bind, rdK_settled h hx, rdV_settled h hx]

/-- A lane by lane word leaves what the table says. -/
theorem vecMap_ok {x : Ctx} {c c2 : Core} {z d k f fp} (h : c.settled x.st = true) (hx : x.st = .e) (ha : aloneM x fp = false)
    (hd : dispatched x c (lanes c z d k f) = some c2) : vecMap x fp (1024 / z) z d k f c = .ok ((), c2) :=
  (vecMap_run h hx).trans (sauWord_ok h ha hd)

/-- The SAU coming due changes no core. -/
theorem dueSau_core (s : State) (n : Nat) : (dueSau s).core n = s.core n := by
  unfold dueSau State.soon
  split
  · rfl
  · split <;> rfl

/-- When the SAU comes due. -/
theorem dueSau_eq (s : State) : dueSau s = if (s.core s.cur).sauq.isEmpty then s else s.soon (.sauStart (siteOf s.cur)) := rfl

/-- What follows the effect of a word that does not run alone: the SAU comes due (R174, R175). -/
theorem fpStart_due {s s1 : State} {x : Ctx}
    (ha : ∀ o ∈ (s1.core x.core).sauq.drop (s.core x.core).sauq.length, o.alone = false) (hx : s1.cur = x.core) :
    fpStart s x s1 = .ok (.seq, dueSau s1) := by
  have : (s.core x.core).alone? (s1.core x.core) = none := by
    unfold Core.alone?
    split
    · rfl
    · simpa using ha
  simp only [fpStart, run_bind, run_get, run_set, run_pure, this, dueSau, hx]

/-- A word of the SAU issues, and the SAU comes due. -/
theorem issueSau_runs {i : Instr} {m : Ctx → CM Unit} {s : State} {c : Core} (hr : s.runs i c = true)
    (hs : (s.core s.cur).settled s.strm = true) (ha : ∀ o ∈ c.sauq.drop (s.core s.cur).sauq.length, o.alone = false)
    (he : m s.ctx s.atIssue = .ok ((), c)) :
    ∃ t, issueSau i (fun x => onCore x.core (m x)) s = .next t ∧ Stepped (dueSau (s.setCore s.cur c)) t s.cur s.strm
      ∧ Goes s.ctx (selector i) (s.atIssue.seq s.strm) c (t.core s.cur) := by
  have hrun : c.run ≠ .idle := by
    simp only [State.runs, Bool.and_eq_true, bne_iff_ne, ne_eq] at hr
    exact hr.1.1.1.1.1.1.2
  have hrun1 : s.atIssue.run ≠ .idle := by
    simp only [State.runs, State.canIssue, Bool.and_eq_true, beq_iff_eq] at hr
    simp [State.atIssue, hr.1.1.1.1.1.1.1.1.1.1.1.1.1.1.1.1]
  have hf : s.atIssue.fpRun = none := by
    simp only [Core.settled, Bool.and_eq_true, Option.isNone_iff_eq_none] at hs
    simp [State.atIssue, hs.1.2]
  have hq : s.atIssue.sauq = (s.core s.cur).sauq := by simp [State.atIssue]
  have hc0 : (s.setCore s.cur c).core s.cur = c := s.setCore_core_self s.cur hrun
  have hc : (dueSau (s.setCore s.cur c)).core s.cur = c := by rw [dueSau_core, hc0]
  have h1 : (s.setCore s.cur s.atIssue).core s.cur = s.atIssue := s.setCore_core_self s.cur hrun1
  suffices he2 : sauM (fun x => onCore x.core (m x)) s.ctx (s.setCore s.cur s.atIssue) = .ok (.seq, dueSau (s.setCore s.cur c)) by
    obtain ⟨t, h2, h3, h4⟩ := issue_goes (i := i) (s2 := dueSau (s.setCore s.cur c)) (nx := .seq) (by rw [hc]; exact hr) he2 (by simp)
    rw [hc] at h4
    exact ⟨t, h2, h3, h4 rfl⟩
  simp only [sauM, run_bind, run_get, show s.ctx.core = s.cur from rfl, h1, hf, Option.filter_none, onCore_ok (by rw [h1]; exact he),
    State.setCore_setCore _ _ hrun1 hrun]
  exact fpStart_due (by rw [show s.ctx.core = s.cur from rfl, hc0, h1, hq]; exact ha) rfl

/-- A table that gives a state past a guard. -/
theorem ite_none {α} {p : Prop} [Decidable p] {a : Option α} {c} (h : (if p then none else a) = some c) : ¬p ∧ a = some c := by
  split at h <;> simp_all

/-- A table that gives a state only under a condition. -/
theorem onlyIf_eq {b : Prop} [Decidable b] {t u : State} (h : onlyIf b t = some u) : b ∧ t = u := by
  unfold onlyIf at h; split at h <;> simp_all

end Sys2Proof.Slice0
end

