-- ==== Sys2Proof/Tests/Slice0.lean ====
section
/-!
SUPPORT. Tests of the model: words and their decoding, single steps whose results the spec gives, and for every statement with hypotheses a
concrete state and operands that meet them.
-/

namespace Sys2Proof.Tests

open Sys2Proof.Machine Sys2Proof.Slice0

/-! ### Small states -/

/-- Core 0 runs as c, and its stream st has the turn. -/
def at0 (st : Strm) (c : Core) : State := { State.reset with strm := st, cores := [(0, { c with run := .running })] }

/-- The table gives the word an effect on a settled core, and the word runs. -/
def met (table : Ctx → Core → Instr → Option Core) (s : State) (i : Instr) : Bool :=
  (s.core s.cur).settled s.strm && match table s.ctx s.atIssue i with
    | some c => s.runs i c
    | none => false

/-- The same for a table of effects on the module. -/
def metS (table : State → Ctx → Core → Instr → Option State) (s : State) (i : Instr) : Bool :=
  (s.core s.cur).settled s.strm && match table s s.ctx s.atIssue i with
    | some t => s.runs i (t.core s.cur)
    | none => false

/-- The table says what the word sends and waits for, and nothing stands in its way. -/
def metW (table : State → Ctx → Core → Instr → Option State) (s : State) (i : Instr) : Bool :=
  (s.core s.cur).settled s.strm && (table s s.ctx (s.core s.cur) i).isSome && issuesAlone s i && (s.core s.cur).selectorBefore s.strm (selector i)

/-- The instruction answers a next state of which f holds. -/
def runsTo (i : Instr) (s : State) (f : State → Bool) : Bool :=
  match exec i s with
  | .next t => f t
  | _ => false

/-- A step answers a next state. -/
def runs (f : State → Host.Outcome State Fault Refusal) (s : State) : Bool :=
  match f s with
  | .next _ => true
  | _ => false

/-! ### Cores -/


/-- A vector of ones, as sixteen-bit lanes. -/
def ones16 : Vec := ofLanes 16 (List.replicate 64 1)

/-- Core 0 with something in every queue, and at system level. -/
def queued : Core :=
  { q := { ldq := [some 2], stq := [some 8], vldq := [ones16], vstq := [.row ones16], boqAE := [true], boqEA := [true] }, ctl := { lvl := true } }

/-- Core 0 with m3 full, a count of 4 in counter 1, and word 8 in the notify register. -/
def messages : Core := { msg := { m := [(3, 77)], full := 8, notify := 8, n := [(1, 4)] } }

/-- Group 2 of address space 5 has four members, the logical cores 4 to 7. -/
def groupMemory (s : State) : State :=
  (({ s with stn := { s.stn with groupTab := [(5, 0x10000)] } }.partyWrite stationParty 4 0x10020
    (toBytes 8 0x100001 ++ toBytes 8 (4 * 2 ^ 32))).partyWrite stationParty 4 2000000000 ([4, 0, 5, 0, 6, 0, 7, 0].map (BitVec.ofNat 8)))

/-- Cores 4 to 7 run in address space 5, core 5 as c, which has the turn on stream st. -/
def at5 (st : Strm) (c : Core) : State :=
  let d : Core := { run := .running, asid := 5 }
  { State.reset with
    strm := st
    cur := 5
    cores := [(4, d), (5, { c with run := .running, asid := 5 }), (6, d), (7, d)] }

/-- A core with rank 1 in group 2, and registers that the words of commands name. -/
def member : Core :=
  { ctl := { gmem := [(1, mkGmem 0 2 1 4)] }, pm := [(1, ⟨true, 4, List.range 64, true, 0, 0⟩)] }

/-- The core with scalar registers as listed. -/
def with_ (c : Core) (st : Strm) (l : List (Nat × Word)) : Core :=
  l.foldl (fun c p => c.putHome st (c.homeOf st (BitVec.ofNat 5 p.1)) (p.2.setWidth 1024)) c

/-- The operands of the commands: an address of global memory and a stride, local regions, remote places, masks of ranks, tags. -/
def operands (c : Core) (st : Strm) : Core :=
  with_ c st [(1, 0x80), (2, 0x40000), (3, 64), (4, 0x4000000100), (5, 0x44000000100), (6, 0x8000000100), (7, 0x200000040),
    (8, 0x8000000100), (9, 0x100000040), (11, 0x600000200), (12, 0x200200), (13, 15), (14, 0x100200200), (15, 1), (16, 2)]

/-- A member whose latches are full, with twelve elements kept in every group. -/
def latches : Core := { member with mat := {
  latch := (List.range 8).map fun i => (i, 1)
  metaLat := (List.range 64).flatMap fun i => [(8 * i, 0xFF), (8 * i + 1, 0x0F)] } }

/-- A core that waits for word w of stream A. -/
def waits (w : Wait) : Core := { operands member .a with wait := some w }

/-- Core 0 with VADD v1, v2, v3 at address 4 (R193). -/
def body1 : Core := { ulm := [(4, 1), (5, 0x43), (6, 0x04), (7, 0x12)], q := { ldq := [some 2] } }

/-! ### States in which the steps of the device happen -/

/-- The table gives every step of the list an outcome in its state. -/
def happens (table : State → Instr → Option State) (l : List (State × Instr)) : Bool := l.all fun p => (table p.1 p.2).isSome

/-- The device with core 0 idle or as given, and time passed. -/
def core0 (c : Core) (cycle ns : Nat) : State := { State.reset with cores := [(0, c)], cycle := cycle, ns := ns }

/-- A command of core 0 under token 10. -/
def cmdOf (id : Nat) (op : CmdOp) (xl : Option (Nat × Bool)) : Cmd :=
  { id := id, strm := .a, word := 0, at_ := 4, tok := 10, home := 34, slot := true, op := op, xl := xl }

/-- A running core of address space 5 with one command. -/
def busy (op : CmdOp) (xl : Option (Nat × Bool)) : Core := { run := .running, asid := 5, cmds := [cmdOf 1 op xl] }

/-- Both streams of the core are parked. -/
def parked (c : Core) : Core := { c with run := .running, a := { c.a with parked := true }, e := { c.e with parked := true } }

theorem test_coreSteps_met : happens coreStep
  [(at0 .a {}, .fetch 0 .a),
   (at0 .a { a := { wb := some ⟨5, 7, 0, false⟩, pend := [5] } }, .resultWriteback 0 .a),
   ({ at0 .a { a := { punty := [⟨5, 7, 0⟩] } } with cycle := 48 }, .puntyExpire 0 .a 0),
   (at0 .a {}, .refreshCycle 0 0),
   (at0 .a { a := { due := [⟨5, 0, 0, 0, 4, none, none, 0, 0⟩] } }, .trapEntry 0 .a),
   (at0 .a { a := { safeAt := some 8 }, ctl := { events := 1, even := 1 } }, .eventDelivery 0),
   ({ at0 .a { a := { qstall := true }, e := { qstall := true }, ctl := { wdog := 10, wdogCount := 10 } } with cycle := 10 }, .watchdog 0),
   ({ at0 .a { wait := some (.sleep 0 (some 5) .waits none) } with ns := 5 }, .sleepTimeout 0),
   (at0 .a { wait := some (.sleep 1 none .committed none) }, .sleepWake 0),
   (at0 .a { msg := { devq := [0x3000000000000000] } }, .deviceDepositLand 0),
   (at0 .a {}, .fpctlWrite 0 4), (at0 .a {}, .fpctlWrite 0 5), (at0 .a {}, .fpctlRead 0 .a 9), (at0 .a {}, .srseedWrite 0 0),
   (at0 .a {}, .winWrite 0 .a 0x10203), (at0 .a {}, .swzWrite 0 7 1), (at0 .a {}, .registerWrite 0 (.sys .a 0x100) 1)] = true := by
  decide

theorem test_contextSteps_met : happens contextStep
  [(at0 .a {}, .preemptRequest 0 0 0x1000 []),
   (at0 .a { preempt := some ⟨0, 0x1000, [], false⟩ }, .preemptOverdue 0),
   (at0 .a (parked { preempt := some ⟨0, 0x1000, [], false⟩ }), .contextSave 0),
   ({ State.reset with saved := [(0, some {})] }, .contextResume 0 0),
   (at0 .a {}, .coreKill 0),
   (core0 { run := .saved } 0 0, .siteEviction 0),
   (at0 .a (parked { preempt := some ⟨0, 0x1000, [], false⟩ }), .pairedSafePoint 0),
   (at0 .a (parked { wait := some (.heat none) }), .pairedSafePoint 0), (at0 .a (parked { ctl := { allowStop := true } }), .pairedSafePoint 0)] = true := by
  decide

theorem test_sauSteps_met : happens sauStep
  [(at0 .e { sauq := [⟨.result [(601, 5)] 0, 1, [601], false, 0, 0, false, false⟩] }, .sauStart 0),
   (at0 .e { sauFly := [⟨.result [(601, 5)] 0, 1, [601], false, 0, 0, false, false⟩] }, .sauComplete 0),
   (at0 .e { vrep := some ⟨[0x12044301], 0, 0, 2, 0, 0, 0, 0, [], false, false, false⟩ }, .vrepDispatch 0)] = true := by
  decide

def rows0 (e : MatWord) (b : Bool) : Core := { operands latches .e with mat := { latches.mat with queue := [⟨e, b⟩] } }

def joining (r : Option (Option Nat)) : Core := { latches with join := some ⟨1, 0, 0, 0, 0, 0, 0, 0, r⟩ }

/-- The four cores of tile 0 have joined. -/
def joined4 : State := { State.reset with strm := .e, cores := (List.range 4).map fun n => (n, { joining none with run := .running }) }

theorem test_matrixSteps_met : happens matrixStep
  [(at0 .e (rows0 (.mld 1 0 false 4 8 [0x100]) false), .mldFill 0),
   (core0 (busy (.mldStream 0 1 4 0x40000 64 false 8) (some (0x8000, false))) 0 0, .globalStreamRow 0 1),
   (at0 .e (rows0 (.mzero 0 1) false), .multiplyStart 0), (at0 .e (rows0 (.mzero 0 1) true), .multiplyComplete 0),
   (at0 .e (rows0 (.mst 1 0 0 0x100 4 1 0 none [] 0 0 false [] [] 0) false), .mstRowSend 0),
   (joined4, .mmajJoin 0), ({ at0 .e (joining none) with cycle := 1048576 }, .mmajJoinTimeout 0),
   (core0 (busy (.rot 0x80 0x80 1 0) none) 0 0, .rotJoin 0), (core0 (busy (.rot 0x80 0x80 1 0) none) 1048576 0, .rotJoinTimeout 0)] = true := by
  decide

def solving (b : Bool) : State := { State.reset with tiles := [(0, { solves := [⟨0, 1, 0, List.range 64, b, 0, none⟩] })] }

theorem test_solveSteps_met : happens solveStep
  [(solving false, .solveStart 0), (solving true, .solveComplete 0),
   (core0 (busy (.papply 1 0 2 (List.range 64) false 0 64 1024 64 64) none) 0 0, .pointsApplication 0 1)] = true := by
  decide

def copyIn : CmdOp := .copy false false false 0 0x100 0 64 1 0x40000 0 [] false 0 0

def faulted : State :=
  { core0 { run := .running, asid := 5, cmds := [{ cmdOf 1 copyIn none with held := true }] } 0 0 with
    stn := { faults := [⟨5, 0x40000, 0, 0, 0, 0, 1, 1, .a, 0⟩] } }

theorem test_commandSteps_met : happens commandStep
  [(core0 { run := .running, cmds := [{ cmdOf 1 copyIn none with status := some (0, 0, 0) }] } 0 0, .tokenStatusWrite 0 1),
   (core0 (busy (.gld 0x40000 3 false) none) 0 0, .translationRequest 0 1), (core0 (busy copyIn none) 0 0, .pageWalk 0 1),
   (faulted, .faultRetry 0 1), (faulted, .faultDecline 0 1), (core0 (busy copyIn (some (0x8000, false))) 0 0, .engineGranule 0 1)] = true := by
  decide

theorem test_orderSteps_met : happens orderStep
  [(core0 { run := .running, fences := [⟨1, 4, 0, 63, 63, false⟩] } 0 0, .releasePerformed 0 1),
   (core0 { run := .running, fences := [⟨1, 4, 0, 63, 63, true⟩] } 0 0, .acquireComplete 0 1),
   (core0 (busy (.amo 0 3 4 0x40000 5 0) (some (0x8000, false))) 0 0, .amoHome 0 1),
   (core0 (busy (.query 0x40000 0x100 0 0 false false) (some (0x8000, false))) 0 0, .distributorServe 0 1), (State.reset, .stationInvalidate 0 5)] = true := by
  decide

/-- Cores 4 and 5 wait for a gang of two, ready or not. -/
def gangState (r : Bool) (cycle : Nat) : State :=
  { at5 .a member with
    cycle := cycle
    cores := [4, 5].map fun n => (n, { run := .running, asid := 5, wait := some (.gang 2 0 r none) }) }

theorem test_groupSteps_met : happens groupStep
  [(groupMemory (at5 .a (waits (.barrier 2 0 0 4 none false))), .barrierArrival 5),
   (groupMemory (at5 .a (waits (.barrier 2 0 0 4 none false))), .barrierWithdrawal 5),
   (groupMemory (at5 .a (waits (.barrier 2 0 0 4 (some 0) false))), .barrierWithdrawal 5), (groupMemory (at5 .a member), .groupAbort 5 2),
   (gangState true 0, .gangJoin 5), (gangState false 1048576, .gangJoinTimeout 5)] = true := by
  decide

/-- Four members of group 2 in an exchange: armed, waiting at XBEGIN, or in the phase. -/
def exchangeState (w : Option Wait) (p : Option XPhase) (cycle : Nat) : State :=
  groupMemory { at5 .e member with
    bars := [(groupKey 5 2, { join := [4, 5, 6, 7] })]
    cycle := cycle
    cores := [4, 5, 6, 7].map fun n => (n, { with_ member .a [(2, 2), (3, 16)] with run := .running, asid := 5, armed := some 2, wait := w, xph := p, a := { (with_ member .a [(2, 2), (3, 16)]).a with hints := [.xt 0] } }) }

/-- A phase of sixteen cycles that has begun. -/
def begunPhase : XPhase := { freshPhase 5 2 16 with begun := true }

theorem test_exchangeSteps_met : happens exchangeStep
  [(exchangeState (some (.xbegin 2 16 0 0 true none)) (some (freshPhase 5 2 16)) 0, .exchangeJoin 5 2),
   (exchangeState (some (.xbegin 2 16 0 0 false none)) (some (freshPhase 5 2 16)) 1048576, .exchangeJoinTimeout 5 2),
   (exchangeState none (some { begunPhase with ended := true }) 16, .phaseEnd 5 2)] = true := by
  decide

/-- Core 5 is in stage 1 of a pipeline of three stages of group 2, or in the task of record 1. -/
def pipeline : State :=
  let r : Ring := { va := 0x40000, slotBytes := 64, nslots := 2 }
  { groupMemory (at5 .a (operands { member with ctl := { member.ctl with stage := mkStage 2 1 none } } .a)) with
    pipes := [(5 * 256 + 2, some { stages := 3, intervalUs := 1, rings := [(0, r), (1, r)] })] }

/-- Record 1 of address space 5. -/
def record (ready : Bool) : ContRec :=
  { aNext := 0x500, eNext := 0x600, regs := [(0, 9, 7)], mask := 0, grp := 2, pinned := none, committed := false, tok := 0, status := 0,
    dest := 0, outstanding := 0, ready := ready, abortedOn := 0 }

/-- A core in the domain of group 2. -/
def inDomain : Core := { member with ctl := { member.ctl with tdom := (2 : Word) ^ 63 + 2 ^ 49 } }

/-- Domain 2 of address space 5 with one record, ready or not, and core 5 as its runner. -/
def domain (ready : Bool) : State :=
  { at5 .a { inDomain with wait := some (.runner 2 0) } with
    stn := { contBase := [(5, 0x60000)], contCount := [(5, 4)], poolSize := 100 }
    recs := [(recKey 5 1, some (record ready))]
    doms := [(5 * 256 + 2, { ready := if ready then [1] else [], live := 1, runners := [5] })] }

theorem test_taskSteps_met : happens taskStep
  [(domain false, .taskReady 5 2 1),
   ({ domain false with doms := [(5 * 256 + 2, { runners := [5] })], cores := ((domain false).cores.filter fun p => p.1 == 5) }, .domainDrain 5 2),
   (pipeline, .prodGrant 5 2 1), (pipeline, .consGrant 5 2 0), (pipeline, .shunterInterval 5 2),
   (at5 .a (parked { member with ctl := { member.ctl with stage := mkStage 2 1 (some 2) } }), .stageSwitch 5)] = true := by
  decide

/-- Tile 1 is to become storage, or is on its way. -/
def recasting (m : TileMap) : State :=
  { State.reset with
    ns := 10000000
    census := {
      map := [(1, some m)]
      g := 3
      pending := [⟨2, 0, 1, 0, true, [4]⟩]
      leases := [⟨5, 0, 2, 1, 20000000, 0, 5, false⟩]
      tokens := [(0, 2000000)]
      pages := [(0, 24)] } }

set_option maxRecDepth 20000 in
theorem test_censusSteps_met : happens censusStep
  [({ State.reset with ns := 10000 }, .censusInterval), (recasting ⟨1, 0, none, 0⟩, .recastCommit 2),
   (State.reset, .censusPolicyWrite 0xF8 1), (State.reset, .censusPolicyWrite 0x2F8 1),
   (core0 (busy (.lease 0 1 100) none) 0 0, .censusRequest 0 1), (recasting ⟨1, 1, some 0, 0⟩, .pageEvacuation 1),
   (recasting ⟨1, 2, some 0, 0⟩, .relayDrainDeadline 1), (recasting ⟨2, 0, some 1, 0⟩, .leaseExpiry 5 0),
   (recasting ⟨1, 0, none, 0⟩, .expiringNotice 5 0),
   ({ recasting ⟨1, 0, some 1, 0⟩ with census := { (recasting ⟨1, 0, some 1, 0⟩).census with pages := [] } }, .annealComplete 1)] = true := by
  decide

set_option maxRecDepth 20000 in
theorem test_recastOrder_met : (censusStep (recasting ⟨1, 1, none, 0⟩) (.recastOrder 0 1 0)).isSome = true := by
  decide

/-- A contestant with no member. -/
def contestant (ms : List Nat) : Contestant :=
  { grp := 2, lp := 0, alive := true, failed := false, score := 3, kind := 1, siding := [], remote := [], members := ms, parts := [], entries := [],
    params := [], geo := 0, seed := 0 }

/-- A tournament of two contestants in its last round, which has begun or not, in which core 5 plays. -/
def tourneyAt (begun : Bool) (scores : List (Nat × Nat × Word × Nat)) (c : Core) : State :=
  { at5 .a { c with scope := (8, 0) } with
    scopes := [(7, some ⟨5, 3, 1, 0, true, 1, 1, 0x50000, 65536, 0, begun, [contestant [5], contestant [6]], scores, false, []⟩)] }

/-- Its last round goes on. -/
def tourney : List (Nat × Nat × Word × Nat) → Core → State := tourneyAt true

/-- Every player has stopped at the end of its round. -/
def roundOver : State :=
  { tourney [] {} with cores := [5, 6].map fun n => (n, { run := .running, asid := 5, roundStop := true, scope := (8, n - 5) }) }

theorem test_tourneySteps_met : happens tourneyStep
  [(tourney [(5, 0, 9, 1)] {}, .scoreArrival 7), (tourney [] (parked { ctl := { allowStop := true } }), .allowanceStop 5),
   (tourneyAt false [] {}, .roundStart 7), (roundOver, .roundEnd 7), (tourney [] {}, .scopeAbort 7)] = true := by
  decide

/-- A packet from core 5 to core 4, at core 4's site. -/
def packet (pay : Payload) : Packet :=
  { id := 1, src := 5, dst := 4, asid := 5, seq := none, pay := pay, cmd := 1, idx := 0, x := 1, y := 0, dx := 1, dy := 0, vc := 0, plane := 0, gen := 0,
    phase := 0, since := 0, bad := false }

/-- The packet is under way, and core 4 is as given. -/
def sent (pay : Payload) (c : Core) : State :=
  { at5 .a (busy (.putr 0x100 4 4 0x100 none) none) with
    cycle := 256
    cores := [(4, { c with run := .running, asid := 5 }), (5, { busy (.putr 0x100 4 4 0x100 none) none with msg := c.msg })]
    packets := [packet pay] }

/-- Windows that let in deposits and writes. -/
def open4 : Core := { ctl := { win := [(0, (2 : Word) ^ 63 + 2 ^ 62 + 2 ^ 61 + 2 ^ 60 + 2 ^ 28 + 0xFFFF)] } }

/-- A reduction to which every rank of group 2 has contributed. -/
def reduced4 : State :=
  { groupMemory (at5 .a member) with
    ns := 50000
    reductions := [(redKey 5 2 1, some ⟨0, 0, 8, [1, 0, 0, 0, 2, 0, 0, 0], [0, 1, 2, 3], [], [(4, 1, 0, 0, 128, none), (5, 1, 1, 1, 128, none)], [], 0, []⟩)] }

set_option maxRecDepth 20000 in
theorem test_networkSteps_met : happens networkStep
  [(sent (.notify 5) {}, .routerHop 1), (State.reset, .occupancyUpdate), (sent (.write 0 0x100 [1, 2, 3, 4] none) open4, .packetArrival 1),
   (sent (.write 0 0x100 [1, 2, 3, 4] none) {}, .packetArrival 1), (sent (.deposit 3 77 false false) open4, .depositArrival 1),
   (sent (.notify 5) open4, .notifyArrival 1), (sent (.notify 5) {}, .busyResend 1), (sent (.notify 5) {}, .retryDepositResend 1),
   (sent (.notify 5) {}, .reorderResend 1), (sent (.notify 5) {}, .remapNack 1), (sent (.contrib 5 2 1 0 0 8 [1] [0]) {}, .combine 1),
   (sent (.deposit 3 77 false false) { msg := { latch := some ⟨3, 77, 1, 0, false, false⟩, full := 8 } }, .depositLatchTimeout 4),
   (reduced4, .reduceResultLand 5 2 1), (reduced4, .combinePark 5 2 1)] = true := by
  decide

/-- A tick is due, and the packet has arrived in the cycle, full telling whether it found its register full. -/
def landingNow (pay : Payload) (full : Bool) (c : Core) : State :=
  { sent pay c with plan := [.tick 1 1], packets := [{ packet pay with phase := if full then 9 else 7 }] }

set_option maxRecDepth 20000 in
/-- What NetworkSteps asks of a tick: a write that a window grants, and one that none does; a deposit into an empty register, into the latch, and to a
busy latch; a notify. -/
theorem test_landing_met :
    ([(.write 0 0x100 [1, 2, 3, 4] none, false, open4), (.write 0 0x100 [1, 2, 3, 4] none, false, {}), (.deposit 3 77 false false, false, open4),
      (.deposit 3 77 false false, true, open4), (.deposit 3 77 false false, true, { msg := { latch := some ⟨4, 1, 2, 0, false, false⟩ } }),
      (.notify 5, false, open4)] : List (Payload × Bool × Core)).all (fun p =>
      let s := landingNow p.1 p.2.1 p.2.2
      (s.packets.filter fun q => q.phase == 7 || q.phase == 9).length == 1 && !s.isl.busy
        && (s.cores.all fun c => !(match c.2.msg.latch with | some d => d.due | none => false) && !c.2.msg.devDue && c.2.wait.isNone && !c.2.queueStuck)
        && (landed { s with plan := [] } (packet p.1) p.2.1).isSome) = true := by
  decide

/-- Address space 5 has one page, of 64 KiB, at address 0x40000 (R258, R260). -/
def paged (s : State) : State :=
  [(0x1050, 0x8000000001), (0x10000, 0x8800000001), (0x11000, 0x9000000001), (0x12000, 0x9800000001), (0x13020, 0x100000000001E)].foldl
    (fun s p => s.partyWrite stationParty 4 p.1 (toBytes 8 p.2)) { s with stn := { s.stn with asidTable := 0x1000 } }

/-- Address space 5 has one page of 16 GiB, at address 0, so that a walk is short (R258, R260). -/
def vast (s : State) : State :=
  [(0x1050, 0x8000000001), (0x10000, 0x8800000001), (0x11000, 0x401E)].foldl (fun s p => s.partyWrite stationParty 4 p.1 (toBytes 8 p.2))
    { s with stn := { s.stn with asidTable := 0x1000 } }

theorem test_taskHandover_met :
    (taskStep (vast { domain true with stn := { (domain true).stn with contBase := [(5, 0x40000)] } }) (.taskHandover 5 2)).isSome = true := by
  decide +kernel

/-- A packet of a type, with doublewords from offset 0x10 on. -/
def packetBytes (type : Nat) (l : List Nat) : List Byte :=
  toBytes 8 type ++ toBytes 8 0 ++ l.flatMap (toBytes 8) ++ List.replicate (48 - 8 * l.length) 0

/-- Queue 0 of address space 5 holds one packet. -/
def queueOf (p : QPacket) : State :=
  { State.reset with
    ns := 1000
    queues := [(0, { ring := 0x40000, lsz := 4, asid := 5, en := true, state := 1, fetch := 1, wr := 2, pkts := [p], seqno := 2 }), (1, { asid := 5 })] }

/-- The packet has started. -/
def started (p : QPacket) : QPacket := { p with started := true }

/-- Packet 1 of queue 0, not started. -/
def packet1 (type : Nat) (l : List Nat) : QPacket := mkPacket 0 1 0x40000 0 0 0 (packetBytes type l) false

theorem test_queueSteps_met : happens queueStep
  [(queueOf (packet1 2 []), .queueWake 0), (queueOf (packet1 1 []), .launchPacket 0 1),
   (queueOf (packet1 2 [0x40000, 0x40000, 64]), .copyPacket 0 1), (queueOf (packet1 3 [0x40000, 1, 0, 0]), .waitPacket 0 1),
   (paged (queueOf (started (packet1 3 [0x40000, 1, 0, 0]))), .waitPoll 0 1),
   (queueOf { started (packet1 3 []) with deadline := 1000 }, .waitTimeout 0 1), (queueOf (packet1 4 [0x40000, 1, 1]), .signalPacket 0 1),
   (queueOf (packet1 5 [0x40000, 1]), .indirectPacket 0 1), (queueOf (packet1 6 [2, 1]), .loopPacket 0 1),
   (queueOf (packet1 7 []), .fetchFencePacket 0 1), (queueOf (packet1 8 [0x40000]), .tourneyPacket 0 1),
   (queueOf (packet1 9 [0x10000, 100, 0, 0x40000]), .leasePacket 0 1), (queueOf (packet1 10 [1]), .resetQueuePacket 0 1),
   (queueOf (packet1 7 []), .queueResetControl 1), (queueOf { started (packet1 7 []) with over_ := true }, .packetComplete 0 1)] = true := by
  decide

theorem test_packetFetch_met : (queueStep (vast (queueOf (started (packet1 2 [])))) (.packetFetch 0)).isSome = true := by
  decide +kernel

/-- The module with an island. -/
def island (i : Island) : State := { State.reset with ns := 200000000, isl := i }

theorem test_portSteps_met : happens portStep
  [(State.reset, .hostWindowWrite 1 0x40 [1, 2]), (State.reset, .hostWindowRead 1 0x40 4), (State.reset, .hostLinkTrain 1 64 16),
   (State.reset, .cxlSnoop 1 0), (State.reset, .linkFlitRetry 17), (State.reset, .scaleupLinkDown 17), (State.reset, .linkRetrain 17),
   (State.reset, .softError (.hbm 64) false), (State.reset, .softError (.hbm 64) true), (State.reset, .softError (.ulm 9215 393215) true),
   (State.reset, .softError (.reg 9215 33) false), (State.reset, .softError (.packet 1) true), (State.reset, .scrub 15),
   (core0 (busy copyIn (some (0x8000, false))) 0 0, .softError (.answer 0 1) true),
   (State.reset, .kernelHartAccess 511 .fence), (paged State.reset, .kernelHartAccess 0 (.load 5 0x40000 4)),
   (paged State.reset, .kernelHartAccess 0 (.store 5 0x4FFFC [1, 2, 3, 4]))] = true := by
  decide

theorem test_islandSteps_met : happens islandStep
  [(State.reset, .pmodeWrite 2), (island { busy := true, next := 1, restartAt := 1 }, .modeSwitchRestart), (State.reset, .powerLimitExceeded),
   (island { cap := true }, .powerCapRelease), (State.reset, .firmwareImage [1]), (State.reset, .flashWriteInterrupted),
   (State.reset, .attestationRequest 1 2), (State.reset, .deviceReset), (State.reset, .heartbeatSend),
   (island { beat := 3, neighbours := 2, missed := [(1, (2, 2))] }, .heartbeatMiss 1), (State.reset, .resetMessage 0 0 1 0)] = true := by
  decide

/-! ### The words of the tables complete -/

theorem test_integerWords_met : (([.add 0 1 2 3 0, .sub 0 1 2 3 0, .and 0 1 2 3 0, .or 0 1 2 3 0, .xor 0 1 2 3 0, .shl 0 1 2 3 0, .shr 0 1 2 3 0, .sha 0 1 2 3 0,
   .min 0 1 2 3 0, .minZ64 0 1 2 3 0, .max 0 1 2 3 0, .maxZ64 0 1 2 3 0, .clz 0 1 2 0, .popc 0 1 2 0, .mov 0 1 2 0, .shlImm 0 1 2 31 0 1,
   .shrImm 0 1 2 31 0 1, .shaImm 0 1 2 31 0 1, .sel 0 1 2 3 0 1, .mul 0 1 2 3 0, .mulh 0 1 2 3 0, .mulhZ64 0 1 2 3 0, .bfx 0 1 2 3,
   .bfxZ64 0 1 2 3, .bfi 0 1 2 3, .lea 0 1 2 3 3, .geom 0 1 2 0, .addImm 0 1 2 5, .andImm 0 1 2 5, .orImm 0 1 2 5, .xorImm 0 1 2 5] : List Instr).all (met intWord (at0 .a {})) = true) := by
  decide

theorem test_divideWords_met : (([.div 0 1 2 3 0, .divZ64 0 1 2 3 0, .rem 0 1 2 3 0, .remZ64 0 1 2 3 0] : List Instr).all (met divWord (at0 .a {})) = true) := by
  decide

theorem test_predicateWords_met : (([.cmp 0 1 2 3 1 0 3, .movFromCtl 0 1 1, .movToCtl 0 1 2] : List Instr).all (met predWord (at0 .a {})) = true) ∧ (([.movEFromCtl 0 1 1, .movEToCtl 0 1 2] : List Instr).all (met predWord (at0 .e {})) = true) := by
  decide

theorem test_floatWords_met : (([.fadd 0 1 2 3 0 2, .fsub 0 1 2 3 0 2, .fmul 0 1 2 3 0 2, .fmin 0 1 2 3 0 2, .fmax 0 1 2 3 0 2, .fma 0 1 2 3 2, .fcmp 0 1 2 3 0 2 1,
   .fcvt 0 1 2 0 3, .fclass 0 1 2 2] : List Instr).all (met fltWord (at0 .e {})) = true) := by
  decide

theorem test_lateFloatWords_met : (([.fdiv 0 1 2 3 0 2, .fsqrt 0 1 2 0 2] : List Instr).all (met fltLate (at0 .e {})) = true) := by
  decide

theorem test_ulmWords_met : (([.ldS 0 1 2 3 8, .ldZ 0 1 2 3 8, .st 0 1 2 3 8, .ldq 0 2 3 0, .vldq 0 2 0, .ldb 0 1 2 3 0, .ldbS64 0 1 2 3 0, .stb 0 2 1 3 0] : List Instr).all (met memWord (at0 .a {})) = true) ∧ (([.stq 0 2 3 0, .vstq 0 2 0] : List Instr).all (met memWord (at0 .a queued)) = true) ∧ (([.spill 0 2, .fill 0 2] : List Instr).all (met stackWord (at0 .a queued)) = true) := by
  decide

theorem test_coreWords_met : (([.nop 0, .ifence 0, .take 0 1 3, .peek 0 1 3 2, .waitm 0 1 2, .putm 0 3 2, .waitn 0 1 1 2, .setn 0 1 2, .decn 0 1 2, .ntake 0 1] : List Instr).all (met coreWord (at0 .a messages)) = true) := by
  decide

set_option maxRecDepth 20000 in
theorem test_vectorWords_met : (([.vadd 0 1 2 3 0 1, .vsub 0 1 2 3 0 1, .vmul 0 1 2 3 0 1, .vmin 0 1 2 3 0 1, .vmax 0 1 2 3 0 1, .vshl 0 1 2 3 0 1, .vshr 0 1 2 3 0 1,
   .vsha 0 1 2 3 0 1, .vcmp 0 1 2 3 0 0 0 1, .vperm 0 1 2 3 0 1, .vziplo 0 1 2 3 0 1, .vziphi 0 1 2 3 0 1, .vunzipe 0 1 2 3 0 1,
   .vunzipo 0 1 2 3 0 1, .vrev 0 1 2 0 1, .vcompress 0 1 2 0 1, .vradd 0 1 2 0 1, .vrmin 0 1 2 0 1, .vrmax 0 1 2 0 1, .vmov 0 1 2 0,
   .vmovFromVldq 0 1, .vmovToVstq 0 1, .vbcast 0 1 2 0 1, .vext 0 1 2 3 1, .vins 0 1 2 3 1, .vand 0 1 2 3 0, .vor 0 1 2 3 0, .vxor 0 1 2 3 0,
   .vandn 0 1 2 3 0, .vsel 0 1 2 3 1, .kand 0 1 2 3, .kor 0 1 2 3, .kxor 0 1 2 3, .knot 0 1 2, .kfromv 0 1 2, .vfromk 0 1 2, .kpopc 0 1 2] : List Instr).all (met vecWord (at0 .e queued)) = true) := by
  decide

theorem test_vectorFloatWords_met : (([.vfadd 0 1 2 3 0 2, .vfsub 0 1 2 3 0 2, .vfmul 0 1 2 3 0 2, .vfmin 0 1 2 3 0 2, .vfmax 0 1 2 3 0 2, .vfrcp 0 1 2 0 2, .vfrsq 0 1 2 0 2,
   .vfabs 0 1 2 0 2, .vfma 0 1 2 3 0 2, .vfms 0 1 2 3 0 2, .vfnma 0 1 2 3 0 2, .vfmaw 0 2 3 4 0 2, .vcvt 0 1 2 2 0 3, .vscale 0 1 2 3 0 0 2,
   .vunscale 0 1 2 3 0 0 2, .vcmp 0 1 2 3 0 1 0 2, .vrfadd 0 1 2 0 2, .vrfmin 0 1 2 0 2, .vrfmax 0 1 2 0 2] : List Instr).all (met fvecWord (at0 .e {})) = true) := by
  decide

/-- Every exception is enabled, and a word that runs alone has given its results or not. -/
def enabled (r : Option FpRun) : State := at0 .e { ctl := { fpctl := 0x1F0000 }, fpRun := r }

/-- A word that ran alone, short-lived or not, with its results. -/
def ran (short : Bool) : FpRun := ⟨false, 0x1F0000, short, (0, 0), some ([(601, 5)], 0)⟩

/-- VFADD and VTAB start to run alone, and end. -/
theorem test_aloneWords_met :
    ([.vfadd 0 1 2 3 0 2, .vtab 7 1 2 3 0 2] : List Instr).all (fun i =>
      (let s := enabled none
       (s.core 0).settled .e && fpEnables s.ctx.fpctl != 0 && fpReady s.ctx s.atIssue && (fpOp s.ctx s.atIssue i).isSome && issuesAlone s i
         && (s.core 0).selectorBefore .e (selector i))
      && [false, true].all (fun b => let s := enabled (some (ran b))
          ({ s.core 0 with fpRun := none }).settled .e && match fpOp s.ctx s.atIssue i with
            | some (o, _) => o.dests == [601] && s.runs i (ranAlone s.ctx b s.atIssue [(601, 5)] 0)
            | none => false)) = true := by
  decide

theorem test_tableWords_met : (([.vtab 0 1 2 3 0 2, .tload 0 1 2 3, .tcfg 0 1 2] : List Instr).all (met tabWord (at0 .e {})) = true) := by
  decide

set_option maxRecDepth 20000 in
theorem test_vrepWords_met : (([.vrep 0 1, .vrepQ 0] : List Instr).all (met vrepWord (at0 .e body1)) = true) := by
  decide

theorem test_systemWords_met : (([.sysr 0 0x100 1, .sysw 0 0x100 1, .getid 0 1 0] : List Instr).all (metS systemWord (at0 .a {})) = true) := by
  decide

theorem test_sleepAndHaltWords_met : (([.sleep 0 1 2 3] : List Instr).all (met sleepWord (at0 .a { wait := some (.sleep 0x100 none .committed (some 4)) })) = true) ∧ (([.halt 0] : List Instr).all (met haltWord (at0 .a queued)) = true) := by
  decide

theorem test_globalWords_met : (([.copy 0 10 4 2 1 0 0 0 0, .copy2 0 10 6 2 0 0 0 0 0, .copyp 0 10 8 2 0 0 0 0 0, .gld 0 10 2 0 3 0, .gst 0 10 3 2 3 0, .amo 0 10 3 2 0 0 0,
   .query 0 10 4 2, .fence 0 4 0 0 0, .fence 0 2 2 31 0, .queryM 0 10 15 2] : List Instr).all (metS globalWord (at5 .a (operands member .a))) = true) ∧ (([.stinv 0 1 2] : List Instr).all (metS globalWord (at5 .a (operands { member with ctl := { lvl := true } } .a))) = true) := by
  decide

theorem test_remoteWords_met : (([.putr 0 10 4 11, .getr 0 10 4 11, .deposit 0 10 3 11 0, .notify 0 10 3 11, .mcast 0 10 4 12 0, .reduce 0 10 4 14 0 0 0, .redabort 0 10 14,
   .rot 0 10 1 1 1] : List Instr).all (metS remoteWord (groupMemory (at5 .a (operands member .a)))) = true) := by
  decide

set_option maxRecDepth 20000 in
theorem test_matrixWords_met : (([.mld 0 0 5 0 0 0 0, .mma 0 0 0 0 0 0 0, .mzero 0 0 0, .mmap 0 1, .mst 0 10 4 11 0 0, .mmas 0 0 0 0 0 0 0 2] : List Instr).all (metS matrixWord (at5 .e (operands latches .e))) = true) ∧ (([.mmaj 0 0 0 0 0 0 0 1] : List Instr).all (metS joinedWord (at5 .e (joining (some none)))) = true) := by
  decide

set_option maxRecDepth 20000 in
theorem test_pointsWords_met : (([.pld 0 1 1 15, .pldSet 0 1 1, .pid 0 1 15, .pst 0 1 1, .pstSet 0 1 1, .pmov 0 1 1, .prot 0 1 15 1, .pcomp 0 1 1 1, .pinv 0 1 1, .prand 0 1 15 15,
   .pcyc 0 1 1 0 0, .peq 0 1 1 1, .papply 0 10 4 11 0 1] : List Instr).all (metS pointsWord (at5 .e (operands member .e))) = true) := by
  decide

theorem test_barrierWords_met : (([.bar 0 1 15, .ungang 0 1] : List Instr).all (metS barrierWord (groupMemory (at5 .a (waits (.barrier 2 0 0 4 (some 0) false))))) = true) ∧ (([.barx 0 1 15] : List Instr).all (metS barrierWord (groupMemory (at5 .a (waits (.barrier 2 0 1 4 (some 0) false))))) = true) ∧ (([.phase 0 1 15 0] : List Instr).all (metS barrierWord (groupMemory (at5 .a (waits (.barrier 2 0 2 4 (some 0) false))))) = true) := by
  decide

set_option maxRecDepth 20000 in
theorem test_exchangeWords_met : (([.xbegin 1 2 3] : List Instr).all (met exchangeWord { exchangeState (some (.xbegin 2 16 0 0 true (some 0))) none 0 with strm := .a }) = true) ∧ (([.xend 1] : List Instr).all (met exchangeWord (at0 .a {})) = true) ∧ (([.xmit 3 1 0 2, .xmit 15 1 1 2, .xsel 3 1 0 2, .xsel 15 1 1 2] : List Instr).all (fun i => let s := exchangeState none (some begunPhase) 16; (s.core s.cur).settled s.strm && s.inTimetable == some 16 && !endsTimetable 16 i && s.canIssue && (s.core s.cur).gang.isNone && (illegal s.strm true [] i).isNone && (trackWord s (s.core s.cur) s.cur i).isSome) = true) := by
  decide

set_option maxRecDepth 20000 in
theorem test_taskWords_met : (([.spawn 0 1 2 3, .spawnC 0 1 2 3, .await 1 2] : List Instr).all (metS taskWord (at5 .a (operands inDomain .a))) = true) ∧ (([.yield 1] : List Instr).all (metS taskWord (at5 .a { inDomain with wait := some (.yield 0 1 (some 2)) })) = true) ∧ (([.prod 0 10 3, .cons 0 10, .prodClose 0 10, .snext 0 1] : List Instr).all (metS taskWord pipeline) = true) := by
  decide

theorem test_censusWords_met : (([.lease 0 10 2 3, .leaseR 0 10 2 3, .ldrop 0 10 2, .roleq 0 10 2 0] : List Instr).all (metS censusWord (at5 .a (operands member .a))) = true) := by
  decide

theorem test_tournamentWords_met : (([.scoreS64 0 1, .scoreZ64 0 1, .scoreF64 0 1, .scoreClr 0, .tq 0 1 4] : List Instr).all (metS tourneyWord (tourney [] {})) = true) ∧ (([.heat 1] : List Instr).all (metS tourneyWord (tourney [] { wait := some (.heat (some 1)) })) = true) := by
  decide

set_option maxRecDepth 20000 in
theorem test_waitingWords_met : (([.bar 0 1 16, .barx 0 1 16, .phase 0 1 16 0, .gang 1 15] : List Instr).all (metW waitWord (groupMemory (at5 .a (operands member .a)))) = true) ∧ (([.mmaj 0 0 0 0 0 0 0 1] : List Instr).all (metW waitWord (at5 .e (latches))) = true) ∧ (([.xbegin 1 2 3] : List Instr).all (metW joinWord { exchangeState none none 0 with strm := .a }) = true) ∧ (([.yield 1, .retire] : List Instr).all (metW leaveWord (at5 .a inDomain)) = true) ∧ (([.retireCancel] : List Instr).all (metW leaveWord (at5 .a { inDomain with task := some ⟨1, true, [], [], [], []⟩ })) = true) ∧ (([.heat 1] : List Instr).all (metW pauseWord (tourney [] {})) = true) ∧ (([.sleep 0 1 2 3] : List Instr).all (metW pauseWord (at0 .a {})) = true) := by
  decide

/-! ### The other statements with hypotheses -/

/-- ADD with all its fields 9, 10, 11 encodes to its word, which decodes. -/
theorem test_encodedWordsDecode_met :
    encode (.add 0 9 10 11 0) = some 0x00254B01 ∧ unclaimed (.add 0 9 10 11 0) = false ∧ decode 0x00254B01 = .ok (.add 0 9 10 11 0) := by
  decide

/-- Word i has a place at the head of its stream. -/
def heads (s : State) : Bool := s.canIssue && (s.core s.cur).gang.isNone && s.inTimetable.isNone

theorem test_illegalWordsTrap_met :
    heads (at0 .e {}) = true ∧ illegal .e true [] (.ldS 0 1 2 3 0) = some 2 ∧ encode (.ldS 0 1 2 3 0) = some 0x04045800 ∧ takes {} 0 = true := by
  decide

theorem test_privilegedWordsTrap_met :
    heads (at0 .a {}) = true ∧ (({} : Core).ctl.lvl = false) ∧ takes {} 0 = true ∧ illegal .a true [] (.spill 0 2) ∉ [some 0, some 1, some 2]
      ∧ illegal .a true [] (.fill 0 2) ∉ [some 0, some 1, some 2] ∧ illegal .a true [] (.stinv 0 1 2) ∉ [some 0, some 1, some 2]
      ∧ illegal .a true [] (.sysr 0 0x600 2) ∉ [some 0, some 1, some 2] ∧ illegal .a true [] (.sysw 0 0x600 2) ∉ [some 0, some 1, some 2] := by
  decide

/-- Core 0 stands at ADD a9, a10, a11. -/
def atAdd : State := State.reset.withFetchWord 32 0x00254B01

theorem test_stepIssuesWord_met : AtWord atAdd 0x00254B01 ∧ decode 0x00254B01 = .ok (.add 0 9 10 11 0) := by
  refine ⟨⟨?_, ?_, ?_, ?_, ?_, ?_, ?_, ?_, ?_, fun a => ?_, ?_⟩, ?_⟩
  case refine_10 =>
    have h : (atAdd.tidy.core atAdd.cur).ulmBad = [] ∧ (atAdd.tidy.core atAdd.cur).ulmChk = [] := by decide
    simp [Core.ulmError, h]
  all_goals decide

theorem test_stepRunsEvents_met :
    (Instr.coreKill 0).toEv? = some (.coreKill 0) ∧ (Ev.coreKill 0).agentOk = true ∧ State.reset.isl.busy = false := by
  decide

theorem test_unallocatedWordsTrap_met : decode 0xFFFFFFFF = .unallocated ∧ heads (at0 .a {}) = true ∧ takes {} 0 = true := by
  decide

theorem test_resetHolds_met : sysAllotted 0x101 = true ∧ sysAllotted 0x542 = true ∧ sysAllotted 0x604 = true ∧ sysAllotted 0x740 = true
    ∧ sysAllotted 0x741 = true ∧ sysAllotted 0x100 = true ∧ sysAllotted 0x800 = false := by
  decide

theorem test_stepKeepsMemory_met : State.reset.memoryWf = true ∧ runs step State.reset = true := by
  decide

theorem test_leaAddsScaled_met : met intWord (at0 .a {}) (.lea 7 31 31 31 3) = true := by
  decide

/-- Core 0 with something in every queue, an address in register 2, a width of 8 bits in register 3, and a bit address in b0. -/
def places (v : Word) (b : BitVec 22) : State := at0 .a { with_ queued .a [(2, v), (3, 8)] with ctl := { b := [(0, b)], lvl := true } }

/-- What BadAddressesTrap asks of the word, with the cause and the ADDR that it names. -/
def misplaced (s : State) (i : Instr) (r : Nat × Word) : Bool :=
  (s.core 0).settled .a && issuesAlone s i && (s.core 0).selectorBefore .a (selector i) && badAccess s.ctx s.atIssue i == some r && takes (s.core 0) r.1

/-- Around the end of ULM: accesses of 8 and of 128 bytes, and of a slot of 136, that are badly aligned, that end one unit beyond it, or just reach it. -/
theorem test_badAddressesTrap_met :
    (([.ldS 0 1 2 3 0, .ldZ 0 1 2 3 0, .st 0 1 2 3 0, .ldq 0 2 3 0, .stq 0 2 3 0] : List Instr).all fun i =>
        misplaced (places 393209 0) i (5, 393209) && misplaced (places 393216 0) i (6, 393216) && met memWord (places 393208 0) i) = true
      ∧ (([.vldq 0 2 0, .vstq 0 2 0] : List Instr).all fun i =>
        misplaced (places 393208 0) i (5, 393208) && misplaced (places 393216 0) i (6, 393216) && met memWord (places 393088 0) i) = true
      ∧ (([.spill 0 2, .fill 0 2] : List Instr).all fun i =>
        misplaced (places 393084 0) i (5, 393084) && misplaced (places 393088 0) i (6, 393088) && met stackWord (places 393080 0) i) = true := by
  decide

/-- Bit fields of 8 bits: one bit beyond the end of ULM, and up to it. -/
theorem test_badFieldsTrap_met :
    (([.ldb 0 1 0 3 0, .ldbS64 0 1 0 3 0, .stb 0 0 1 3 0] : List Instr).all fun i =>
        misplaced (places 0 3145721) i (6, 393215) && met memWord (places 0 3145720) i) = true := by
  decide

/-- A hint of every kind can stand where the stream is. -/
theorem test_hintWordsJoin_met :
    ([.tgt 0 0 1, .imm 1, .live 0xFF, .jtab 1 2, .mod 0 0 0 1, .sched 0 0, .xt 1] : List Instr).all
      (fun i => (hintOf i).isSome && (issuesAlone (at0 .a {}) i || issuesAlone (at0 .e {}) i)) = true := by
  decide

/-- A core in no loop whose level 0 has a body to go back to, with v in register 2. -/
def looper (v : Word) : State :=
  let c := with_ { q := { stq := [some v] } } .a [(2, v)]
  at0 .a { c with a := { c.a with loops := { l0 := { shLs := 16, shLe := 32 } } } }

theorem test_loopWordsStart_met :
    ([0, 1] : List Word).all (fun v => ([.loop 0 0 2 3, .loopr 0 2, .loopQ 0 0 3, .looprQ 0] : List Instr).all fun i =>
      (loopParts (looper v).ctx (looper v).atIssue i).isSome && ((looper v).core 0).settled .a && issuesAlone (looper v) i
        && nested (((looper v).core 0).seq .a) 32) = true := by
  decide

/-- Core 0 with a branch target, an outcome, a table of targets and a call to return from. -/
def jumper : State :=
  at0 .a { (with_ {} .a [(2, 1)]) with
    ulm := [(0x104, 0x40)], q := { boqEA := [true] },
    a := { (with_ {} .a [(2, 1)]).a with bt := 0x100, depth := 1, cur := 1, hints := [.jtab 2 4] } }

theorem test_selectorsChoose_met :
    ([0, 1, 2, 3, 4, 5, 7] : List (BitVec 3)).all (fun n => jumper.runs (.nop n) jumper.atIssue || (at0 .a queued).runs (.nop n) (at0 .a queued).atIssue)
      = true ∧ jumper.runs (.nop 6) jumper.atIssue = true := by
  decide

theorem test_trapWordsTrap_met :
    issuesAlone (at0 .a {}) (.trap 0xFFF) = true ∧ issuesAlone (at0 .a {}) (.brk 0x3FF) = true ∧ takes {} 17 = true ∧ takes {} 18 = true
      ∧ issuesAlone (at0 .a { ctl := { lvl := true, sb := true } }) (.brk 1) = true ∧ takes { ctl := { lvl := true, sb := true } } 17 = false := by
  decide

theorem test_tretReturns_met :
    issuesAlone (at0 .a { ctl := { lvl := true, sb := true } }) .tret = true ∧ issuesAlone (at0 .a { ctl := { ub := true } }) .tret = true
      ∧ (recordOf {} .a true).cause = 0 := by
  decide

/-- Core 5 follows core 4 in a gang of two, or core 4 leads it. -/
def ganged (cur : Nat) : State :=
  { at5 .a {} with
    cur := cur
    cycle := 1
    cores := [4, 5].map fun n => (n, { run := .running, asid := 5, gang := some ⟨4, 2, n - 4⟩, a := { fwd := if n = 5 then [⟨0, 0, {}, 0⟩] else [] } }) }

/-- What the clauses of RestingWordsComplete ask: TRET inside the loop that it restores, IFENCE on both streams, UNGANG at both places of a gang, and
four joins. -/
theorem test_restingWords_met :
    (let s := at0 .a { ctl := { lvl := true, sb := true }, a := { sysRec := { cause := 0x40000 }, loops := { l0 := { lc := 2, ls := 0x40 } } } }
     issuesAlone s .tret = true ∧ Seq.afterLoops (((s.core 0).seq .a).leave (recordOf (s.core 0) .a true)) s.ctx.pc 0x20 ≠ (0x20, 1))
      ∧ ([.a, .e] : List Strm).all (fun st => (at0 st {}).runs (.ifence 0) ((at0 st {}).atIssue.modSeq st fun q => { q with buf := [], tbuf := [] })) = true
      ∧ [4, 5].all (fun n => let s := ganged n
          (s.core n).settled .a && s.canIssue && !s.fwdFull n .a && (illegal .a true [] (.ungang 0 1)).isNone && (s.core n).selectorBefore .a 0
            && (s.atIssue.resultX s.ctx 1 (BitVec.ofNat 64 (n - 4))).selectorAfter s.ctx 0 s.atIssue.a) = true
      ∧ ((joined4.joins 0).length = 4 ∧ (joined4.core 0).mat.queue = []) := by
  decide

/-- The second HALT of a core. -/
theorem test_lastHalt_met :
    issuesAlone (at0 .a { e := { halted := true } }) (.halt 0) = true ∧ issuesAlone (at0 .e { a := { halted := true } }) (.halt 0) = true
      ∧ (({} : Core).eSafe = true) := by
  decide

theorem test_equalPointsCompare_met :
    (at0 .e member).runs (.peq 0 1 1 1) ((at0 .e member).atIssue.modSeq .e fun q => q.setPred 1 true) = true ∧ (member.points 1).valid = true := by
  decide

/-- Cores 4 and 5 are a gang of two whose join has succeeded, and core 5, or core 4 after it, completes. -/
theorem test_gangCompletes_met :
    let c : Core := { wait := some (.gang 2 0 true (some 0)) }
    (c.settled .a = true ∧ (at5 .a c).canIssue = true ∧ (at5 .a c).fwdFull 5 .a = false ∧ c.selectorBefore .a 7 = true
      ∧ illegal .a true [] (.gang 1 2) = none ∧ posIn (gangCores 5 2) 5 = 1)
      ∧ posIn (gangCores 4 2) 4 = 0 ∧ ((gangCores 4 2).all fun m => m == 4 || !((at5 .a {}).core m).atGang) = true := by
  decide

theorem test_tournamentQuery_met :
    ((at0 .a {}).core 0).scope.1 = 0 ∧ ((tourney [] {}).contestant 5).isSome = true
      ∧ ([.scoreS64 0 1, .scoreZ64 0 1, .scoreF64 0 1, .scoreClr 0] : List Instr).all (fun i => issuesAlone (at0 .a {}) i) = true
      ∧ takes {} 24 = true := by
  decide

/-- A write, a read, a deposit and a notify that no window of core 4 admits. -/
theorem test_refusedAccesses_met :
    ([.write 0 0x100 [1] none, .read 64 32 0, .deposit 3 77 false false, .notify 5] : List Payload).all (fun p =>
      ((sent p {}).packet? 1).isSome && (match (sent p {}).landing (packet p) with | .at_ n => n == 4 | _ => false)
        && (((sent p {}).core 4).admitting fun w => windowGrants w 61 0x100 1 ((sent p {}).core 5)).isNone
        && (((sent p {}).core 4).admitting fun w => windowGrants w 62 64 32 ((sent p {}).core 5)).isNone
        && (((sent p {}).core 4).admitting fun w => windowDeposits w (some 3) ((sent p {}).core 5)).isNone) = true := by
  decide

/-- The last byte of ULM, the last core and a place of HBM lie within the bounds of CorrectedErrorsCount. -/
theorem test_correctedErrorsCount_met : 64 < farBase ∧ 9215 < Config.cores ∧ 393215 < Config.ulmBytes := by
  decide

/-! ### Well-formed instructions: one ill-formed term for each check -/

/-- An unclaimed word: a compare of kind 0 (R137). -/
theorem test_wf_unclaimed : Instr.wf (.cmp 0 1 2 3 0 0 0) = false := by decide

/-- A reserved field: FCVT with a source code of no table entry (R146). -/
theorem test_wf_reserved : Instr.wf (.fcvt 0 1 2 9 0) = false := by decide

/-- An operand form: a destination group of four that starts at v10 (R45, R183). -/
theorem test_wf_operand : Instr.wf (.vcvt 0 10 9 4 0 1) = false ∧ Instr.wf (.vcvt 0 16 9 4 0 1) = true := by decide

/-- A step of a core that the module has not (R3). -/
theorem test_wf_agent : Instr.wf (.watchdog 9216) = false ∧ Instr.wf (.watchdog 9215) = true ∧ Instr.wf (.packetFetch 1024) = false
    ∧ Instr.wf (.scrub 16) = false ∧ Instr.wf (.linkRetrain 18) = false ∧ Instr.wf (.solveStart 2304) = false ∧ Instr.wf (.cxlSnoop 2 0) = false := by
  decide

theorem test_wf_plain : Instr.wf (.add 0 9 10 11 0) = true := by decide

/-! ### Words written out from the encodings of the spec -/

/-- SHL a9, a10, 40: major 0x00, d 9, s1 10, shift 40 as imm 8 and h 1 (R132). -/
theorem test_decode_scalar : decode 0x00254821 = .ok (.shlImm 0 9 10 8 0 1) ∧ decode 0x01A5400A = .ok (.geom 0 9 10 2)
    ∧ decode 0x11892A0C = .ok (.fcmp 0 2 9 10 0 1 4) := by decide

theorem test_decode_memory : decode 0x04255002 = .ok (.ldS 0 9 10 2 2) ∧ decode 0x06815810 = .ok (.vldq 0 10 16)
    ∧ decode 0x07242A01 = .ok (.ldb 0 9 1 10 0) ∧ decode 0x07A54B01 = .ok (.putr 0 9 10 11) := by decide

theorem test_decode_messages : decode 0x0C242001 = .ok (.take 0 9 1) ∧ decode 0x0AA54B20 = .ok (.deposit 0 9 10 11 1) := by decide

theorem test_decode_vector : decode 0x1328220E = .ok (.vfmaw 0 10 1 2 0 2) ∧ decode 0x148C8505 = .ok (.vcmp 0 3 4 5 0 0 1 1)
    ∧ decode 0x17410A0B = .ok (.vext 0 16 8 10 3) ∧ decode 0x170BA019 = .ok (.kfromv 0 2 29) := by decide

theorem test_decode_tables : decode 0x16212302 = .ok (.vtab 0 8 9 3 0 2) ∧ decode 0x16012008 = .ok (.tcfg 0 0 9)
    ∧ decode 0x1601AC04 = .ok (.tload 0 0 13 12) ∧ decode 0x168D2001 = .ok (.vrep 3 9) := by decide

theorem test_decode_matrix : decode 0x18800001 = .ok (.mma 0 0 0 0 0 0 0) ∧ decode 0x1A00A080 = .ok (.mmap 0 5)
    ∧ decode 0x1A31AE41 = .ok (.mst 0 12 13 14 0 1) := by decide

theorem test_decode_points : decode 0x1A848901 = .ok (.pld 0 1 4 9) ∧ decode 0x1B0C2202 = .ok (.pcomp 0 3 1 2)
    ∧ decode 0x1B24600B = .ok (.pcyc 0 9 3 0 3) ∧ decode 0x1BB1AE12 = .ok (.papply 0 12 13 14 0 2) := by decide

theorem test_decode_global : decode 0x09AD8AA0 = .ok (.gst 0 11 12 10 2 0) ∧ decode 0x0BA54B00 = .ok (.query 0 9 10 11)
    ∧ decode 0x0B254C4D = .ok (.reduce 0 9 10 12 1 3 1) := by decide

theorem test_decode_tasks : decode 0x0E254B04 = .ok (.spawn 0 9 10 11) ∧ decode 0xEE258008 = .ok (.await 9 12)
    ∧ decode 0xEEA40003 = .ok (.snext 7 9) ∧ decode 0x0F254B01 = .ok (.lease 0 9 10 11) ∧ decode 0x0F812001 = .ok (.scoreS64 0 9) := by decide

theorem test_decode_system : decode 0x1E806010 = .ok (.brk 3) ∧ decode 0x1E30C501 = .ok (.sysr 0 0x618 20) ∧ decode 0x1E81B001 = .ok (.loop 0 0 13 16)
    := by decide

/-- A word of no row, a kind of no table entry, and a hint form out of place are refused. -/
theorem test_decode_refuses : decode 0xFFFFFFFF = .unallocated ∧ decode 0x01092A80 = .unallocated := by decide

/-- The host's numbering: bit 0 is the least significant bit of the word's first byte. -/
theorem test_decodeTableWord : decodeTableWord 32 0x00254B01 = some (.add 0 9 10 11 0) ∧ decodeTableWord 32 0xFFFFFFFF = none := by decide

theorem test_encode : encode (.ldS 0 9 10 2 2) = some 0x04255002 ∧ encode (.mmaj 0 2 1 2 0 2 0 3) = some 0x190A4203
    ∧ encode (.xsel 50 5 0 9) = some 0x1D0C8A09 ∧ encode (.watchdog 0) = none := by decide

/-! ### Single steps -/

/-- Scalar register n of stream st of core k after the step. -/
def after (i : Instr) (s : State) (k : Nat) (st : Strm) (n : BitVec 5) (v : Word) : Bool := runsTo i s fun t => (t.core k).reg st n == v

/-- Core 0 with the values in registers 2 and 3. -/
def two (st : Strm) (u v : Word) : State := at0 st (with_ {} st [(2, u), (3, v)])

/-- The same with hints before the word. -/
def hinted (h : List Hint) (u v : Word) : State :=
  let c := with_ {} .a [(2, u), (3, v)]
  at0 .a { c with a := { c.a with hints := h } }

theorem test_add_wraps : after (.add 0 2 2 3 0) (two .a (-1) 1) 0 .a 2 0 = true := by decide

/-- With saturation the sum stops at the largest number (R131). -/
theorem test_add_saturates : after (.add 0 1 2 3 0) (hinted [.mod 0 1 0 0] 0x7FFFFFFFFFFFFFFF 1) 0 .a 1 0x7FFFFFFFFFFFFFFF = true := by decide

theorem test_sub_order : after (.sub 0 2 2 3 0) (two .a 5 7) 0 .a 2 (-2) = true := by decide

/-- A register named 0 discards what is written to it, and the stream goes on (R44). -/
theorem test_register_zero : runsTo (.add 0 0 2 3 0) (two .a 5 7) (fun t => (t.core 0).reg .a 0 == 0 && (t.core 0).a.pc == 4) = true := by decide

/-- A shift by 65 is a shift by 1 (R131). -/
theorem test_shl_modulo : after (.shl 0 1 2 3 0) (two .a 3 65) 0 .a 1 6 = true := by decide

theorem test_sha_keeps_sign : after (.shaImm 0 1 2 31 0 1) (two .a (-2) 0) 0 .a 1 (-1) = true := by decide

theorem test_min_signed : after (.min 0 1 2 3 0) (two .a (-1) 1) 0 .a 1 (-1) = true ∧ after (.minZ64 0 1 2 3 0) (two .a (-1) 1) 0 .a 1 1 = true := by
  decide

theorem test_mulh : after (.mulh 0 1 2 3 0) (two .a (-1) 2) 0 .a 1 (-1) = true ∧ after (.mulhZ64 0 1 2 3 0) (two .a (-1) 2) 0 .a 1 1 = true := by decide

/-- Division truncates towards zero, and its result comes later (R129, R136). -/
theorem test_div_truncates : runsTo (.div 0 1 2 3 0) (two .a (-7) 2) (fun t => ((t.core 0).a.wb.map fun l => l.value) == some (-3)) = true := by decide

theorem test_div_by_zero : runsTo (.rem 0 1 2 3 0) (two .a 7 0) (fun t => ((t.core 0).a.wb.map fun l => l.value) == some 7) = true := by decide

theorem test_cmp_signed : runsTo (.cmp 0 1 2 3 0 0 3) (two .a (-1) 1) (fun t => (t.core 0).a.pred 1) = true
    ∧ runsTo (.cmp 0 1 2 3 0 0 5) (two .a (-1) 1) (fun t => !(t.core 0).a.pred 1) = true := by decide

/-- The five-bit immediate of a compare is signed (R137). -/
theorem test_cmp_immediate : runsTo (.cmp 0 1 2 31 0 1 1) (two .a (-1) 0) (fun t => (t.core 0).a.pred 1) = true := by decide

/-- Eight bits from bit 4 on (R138). -/
theorem test_bit_fields : after (.bfx 0 1 2 3) (two .a 0xF80 0x804) 0 .a 1 (-8) = true ∧ after (.bfxZ64 0 1 2 3) (two .a 0xF80 0x804) 0 .a 1 0xF8 = true
    ∧ after (.bfi 0 2 3 3) (two .a (-1) 0x804) 0 .a 2 0xFFFFFFFFFFFFF04F = true := by decide

/-- The worked case of R140: block 20 of a matrix of 100 rows by 150 columns in blocks of 16 by 64, and block 21. -/
theorem test_geom : ([0, 1, 2, 3] : List (BitVec 2)).map (fun k => geomW 0x0064009600100040 20 k)
    = ([0x400000060, 0x1600000080, 0xF, 0x3FFFFF] : List Word) ∧ geomW 0x0064009600100040 21 0 = 0 := by decide

/-- 1.5 + 2.25 in FP32, and the largest number less an infinity. -/
theorem test_fadd : after (.fadd 0 1 2 3 0 1) (two .e 0x3FC00000 0x40100000) 0 .e 1 0x40700000 = true
    ∧ after (.fsub 0 1 2 3 0 1) (two .e 0x7F7FFFFF 0x7F800000) 0 .e 1 0xFF800000 = true := by decide

/-- 2.25 × 1.5 + 1, with the addend in the destination. -/
theorem test_fma : after (.fma 0 1 2 3 1) (at0 .e (with_ {} .e [(1, 0x3F800000), (2, 0x40100000), (3, 0x3FC00000)])) 0 .e 1 0x408C0000 = true := by decide

/-- The worked case of R146: 500.0 to E4M3 gives NaN, with OF and NX, and 448 with saturation. -/
theorem test_fcvt : after (.fcvt 0 1 2 1 4) (two .e 0x43FA0000 0) 0 .e 1 0x7F = true
    ∧ (let s := two .e 0x43FA0000 0
       after (.fcvt 0 1 2 1 4) { s with cores := [(0, { s.core 0 with e := { (s.core 0).e with hints := [.mod 0 1 0 0] } })] } 0 .e 1 0x7E = true) := by decide

theorem test_fcmp_unordered : runsTo (.fcmp 0 2 2 3 0 1 4) (two .e 0x7FC00000 0) (fun t => (t.core 0).e.pred 2) = true := by decide

/-- A signed load of the byte 0x80, and a store of two bytes, the lower first (R10, R158). -/
theorem test_load_sign : after (.ldS 0 1 2 0 1) (at0 .a { with_ {} .a [(2, 8)] with ulm := [(9, 0x80)] }) 0 .a 1 (-128) = true := by decide

theorem test_store_order : runsTo (.st 0 3 2 1 2) (two .a 8 0x1234) (fun t => (t.core 0).ulmBytes 11 4 == [0, 0x34, 0x12, 0]) = true := by decide

/-- TRAP at R416's worked case: a misaligned LD at 0x200 within a loop, at user level, with ALIGN delegated to the handler at 0x8000. -/
theorem test_trap_record :
    runsTo (.ldS 0 9 10 3 0)
      (let c := with_ { ctl := { tdeleg := 0x20 } } .a [(10, 0x1004)]
       at0 .a { c with a := { c.a with pc := 0x200, group := 0x200, uvec := 0x8000, loopDepth := 1 } })
      (fun t => (t.core 0).a.userRec.epc == 0x0000020000000200 && (t.core 0).a.userRec.cause == 0x40005 && (t.core 0).a.userRec.addr == 0x1004
        && (t.core 0).ctl.ub && (t.core 0).a.pc == 0x8140) = true := by decide

set_option maxRecDepth 20000 in
/-- A sum of bytes wraps in its lane (R179). -/
theorem test_vadd_lanes : runsTo (.vadd 0 1 2 3 0 0) (at0 .e { v := [(2, 0x01FF), (3, 0x0101)] })
    (fun t => ((t.core 0).sauq.map fun o => o.work) == [.result [(601, 0x0200)] 0]) = true := by decide

/-- The worked case of R192: table 3, at -1.28125 in BF16 (chunk 6, lane 4 of the three planes). -/
theorem test_vtab : (laneTab { tabTag := [(3, 1)], tabCfg := [(3, 0xCFC)], tab := [(2500, 0xBE000000), (2756, 0xBD800000),
    (3012, 0x3E800000)] } 3 0 (Fmt.ofCode 2) 0 .rne false
    0 0xBFA4).1 = 0xBDC0 := by decide

/-- The worked case of chapter 10: pm1 and then pm2, the inverse, and the figures of the cycle. -/
theorem test_pcomp : runsTo (.pcomp 0 3 1 2) (at0 .e { pm := [(1, rowsFrom 4 fun j => [1, 2, 0, 3].getD j 0), (2, rowsFrom 4 fun j => (j + 1) % 4)] })
    (fun t => ((t.core 0).points 3).idx.take 4 == [2, 3, 1, 0]) = true := by decide

theorem test_pinv : runsTo (.pinv 0 4 3) (at0 .e { pm := [(3, rowsFrom 4 fun j => [2, 3, 1, 0].getD j 0)] })
    (fun t => ((t.core 0).points 4).idx.take 4 == [3, 2, 0, 1]) = true := by decide

theorem test_pcyc : ([0, 1, 2, 3] : List (BitVec 3)).map (fun k => cycleFigure (rowsFrom 4 fun j => [2, 3, 1, 0].getD j 0) k.toNat 0) = [1, 0, 1, 4]
    ∧ cycleFigure (rowsFrom 4 fun j => [2, 3, 1, 0].getD j 0) 4 3 = 4 := by decide

theorem test_prand : runsTo (.prand 0 0 2 3) (two .e 4 1)
    (fun t => ((t.core 0).points 0).idx.take 4 == [2, 1, 3, 0] && (t.core 0).reg .e 3 == 0x9B1E842F6E862629) = true := by decide

/-- A register that a deposit has filled is taken and empty, and a full one refuses nothing to PEEK (R99). -/
theorem test_take_empties : runsTo (.take 0 1 3) (at0 .a messages) (fun t => (t.core 0).reg .a 1 == 77 && (t.core 0).msg.full == 0) = true := by decide

theorem test_waitn : after (.waitn 0 1 1 2) (at0 .a { messages with a := (with_ {} .a [(2, 4)]).a }) 0 .a 1 4 = true := by decide

/-- CALL slides the window: the caller's registers are not the callee's (R90, R91). -/
theorem test_call : runsTo (.nop 4) (at0 .a { (with_ {} .a [(9, 5)]) with a := { (with_ {} .a [(9, 5)]).a with bt := 0x100 } })
    (fun t => (t.core 0).a.pc == 0x100 && (t.core 0).a.lk == 4 && (t.core 0).a.cur == 1 && (t.core 0).a.depth == 1) = true := by decide

/-- A LOOP of 17 words with count 3 (R75). -/
theorem test_loop : runsTo (.loop 0 0 2 16) (two .a 3 0)
    (fun t => (t.core 0).a.pc == 4 && (t.core 0).a.loopDepth == 1 && ((t.core 0).a.level 0).lc == 2 && ((t.core 0).a.level 0).le == 68) = true := by decide

/-- SYSW of SRSEED with 0 stores the reset value, and a write of FPCTL clears flags that it names (R117, R118). -/
theorem test_sysw : runsTo (.sysw 0 0x101 2) (two .a 0 0) (fun t => (t.core 0).ctl.srseed == 0x9E3779B97F4A7C15) = true := by decide

theorem test_halt_ends : runsTo (.halt 0) (at0 .a { e := { halted := true } }) (fun t => (t.core 0).run == .done && t.reports == [(3, 0)]) = true := by decide

/-- An AMO of addition at its home gives the old value (R283). -/
theorem test_amo : runsTo (.amoHome 0 1) ((core0 (busy (.amo 0 0 4 0x40000 5 0) (some (0x8000, false))) 0 0).partyWrite 9999 4 0x8000 [7])
    (fun t => t.latestWord 0x8000 == 12 && ((t.core 0).cmds.map fun k => k.result) == [some 7]) = true := by decide

set_option maxRecDepth 20000 in
/-- A deposit that a window admits fills its register at the end of its cycle (R98, R101). -/
theorem test_deposit :
    runsTo (.depositArrival 1) (sent (.deposit 3 77 false false) open4) (fun t => (t.core 4).msg.full == 0 && t.packets.map Packet.phase == [7]) = true
      ∧ (match step (landingNow (.deposit 3 77 false false) false open4) with
        | .next t => (t.core 4).msg.get 3 == 77 && (t.core 4).msg.full == 8
        | _ => false) = true := by
  decide

/-- A round of a tournament counts the score that arrives (R391). -/
theorem test_score : runsTo (.scoreArrival 7) (tourney [(5, 0, 9, 1)] {})
    (fun t => ((t.scope? 7).map fun k => (k.contestants.map fun c => c.score)) == some [9, 3]) = true := by decide

/-- The largest value that the check of a device write takes, and the step after it: a re-cast that was cancelled leaves its tile (R379). -/
theorem test_recast_cancelled : runsTo (.recastCommit 2) (recasting ⟨1, 0, none, 0⟩) (fun t => t.census.pending == [] && (t.tileMap 2).toward == none) = true := by
  decide

/-- A WAIT whose value passes ends its work (R421). -/
theorem test_wait_poll : runsTo (.waitPoll 0 1) (paged (queueOf (started (packet1 3 [0x40000, 1, 0, 0])))) (fun t => ((t.queue 0).pkts.map fun p => p.over_) == [true])
    = true := by decide

theorem test_window_retrain : runsTo (.hostLinkTrain 1 64 16) State.reset (fun t => Store.get (0, 0) t.isl.hostLink 1 == (64, 16)) = true := by decide

theorem test_check_zeros_step : checkByte 0 0 = 0 := by decide

theorem checkValue_zeros (n : Nat) (l : List Byte) : checkValue (List.replicate n 0 ++ l) = checkValue l := by
  induction n with
  | zero => rfl
  | succ n ih =>
    rw [List.replicate_succ]
    show List.foldl checkByte (checkByte 0 0) _ = _
    rw [test_check_zeros_step]
    exact ih

/-- R432's two check values: a granule of zeros, and one whose only non-zero byte is byte 63 = 1. -/
theorem test_check_zeros : checkValue (List.replicate 64 0) = 0 := checkValue_zeros 63 [0]

theorem test_check_one : checkValue (List.replicate 63 0 ++ [1]) = 0x8BB7 := (checkValue_zeros 63 [1]).trans (by decide)

/-! ### A step on the word at the next address, and the first step after reset -/

theorem test_step_first : runs step (State.reset.withFetchWord 32 0x00254B01) = true ∧ runs step State.reset = true := by decide

/-- R3's worked case: core 5,000 stands at site 1,250, on die 2 and in block 18. -/
theorem test_site : siteOf 5000 = 1250 ∧ siteXY 1250 = (2, 26) ∧ dieOf 5000 = 2 ∧ blockOf 5000 = 18 := by decide

end Sys2Proof.Tests
end

section
/-!
SUPPORT. What reset leaves: the registers that a core computes from its state, as a core has them right after reset, and the value that each system
register then reads.
-/

namespace Sys2Proof.Machine

/-! ### A core after reset -/

/-- Reset lists no core, so every core has each field at its default (R3). -/
theorem State.reset_core (n : Nat) : State.reset.core n = {} := rfl

@[simp] theorem State.reset_run (n : Nat) : (State.reset.core n).run = .idle := rfl
@[simp] theorem State.reset_ctl (n : Nat) : (State.reset.core n).ctl = {} := rfl
@[simp] theorem State.reset_msg (n : Nat) : (State.reset.core n).msg = {} := rfl

@[simp] theorem State.reset_win (n : Nat) (st : Strm) : ((State.reset.core n).seq st).win = 0 := by rw [State.reset_core]; cases st <;> decide
@[simp] theorem State.reset_svec (n : Nat) (st : Strm) : ((State.reset.core n).seq st).svec = 0 := by cases st <;> rfl
@[simp] theorem State.reset_uvec (n : Nat) (st : Strm) : ((State.reset.core n).seq st).uvec = 0 := by cases st <;> rfl

/-- The four registers of a trap record that no trap has written hold 0 (log entry 1). -/
theorem TrapRec.default_reg (i : Nat) : ({} : TrapRec).reg i = 0 := by
  unfold TrapRec.reg
  split_ifs <;> rfl

@[simp] theorem State.reset_sysRec_reg (n : Nat) (st : Strm) (i : Nat) : ((State.reset.core n).seq st).sysRec.reg i = 0 := by
  cases st <;> exact TrapRec.default_reg i

@[simp] theorem State.reset_userRec_reg (n : Nat) (st : Strm) (i : Nat) : ((State.reset.core n).seq st).userRec.reg i = 0 := by
  cases st <;> exact TrapRec.default_reg i

@[simp] theorem Store.get_nil {α : Type} (d : α) (k : Nat) : Store.get d [] k = d := rfl

/-! ### Registers that a core computes -/

@[simp] theorem State.reset_gmem (n k : Nat) : (State.reset.core n).gmem k = 0 := rfl

/-- No core is in a gang after reset (R334). -/
@[simp] theorem State.reset_gangst (n : Nat) : (State.reset.core n).gangst = 0 := rfl

/-- No core runs a task after reset (R352). -/
@[simp] theorem State.reset_taskst (n : Nat) : (State.reset.core n).taskst = 0 := by rw [State.reset_core]; decide

/-- No core works in a stage after reset, so no ring shows (R358). -/
@[simp] theorem State.reset_ringReg (n j : Nat) : State.reset.ringReg n j = 0 := by
  have hstage : (State.reset.core n).inStage = none := by simp [Core.inStage]
  simp only [State.ringReg, hstage]

@[simp] theorem State.reset_rolest (n : Nat) : (State.reset.core n).rolest = 0 := by rw [State.reset_core]; decide

/-- No core is a contestant after reset, and no event is pending (R399). -/
@[simp] theorem State.reset_tstat (n : Nat) : State.reset.tstat n = 0 := by
  have hscope : State.reset.contestant n = none := rfl
  simp [State.tstat, hscope, flagBit]

@[simp] theorem State.reset_tlvl (n : Nat) : (State.reset.core n).tlvl = 0 := by rw [State.reset_core]; decide

@[simp] theorem State.reset_mstat (n : Nat) : (State.reset.core n).mstat = 0 := by rw [State.reset_core]; decide

@[simp] theorem State.reset_mgsr (n : Nat) : (State.reset.core n).mgsr = 0 := by rw [State.reset_core]; decide

/-- Each of the eight points registers is valid and solved: code 1 in two bits (R220, R239). -/
@[simp] theorem State.reset_pstat (n : Nat) : (State.reset.core n).pstat = 0x5555 := by rw [State.reset_core]; decide

/-- Each of the eight points registers has n = 64, in seven bits (R220, R239). -/
@[simp] theorem State.reset_pnum (n : Nat) : (State.reset.core n).pnum = 36312488334073920 := by rw [State.reset_core]; decide

/-! ### System registers after reset -/

/-- The registers with a reset value other than 0 are SRSEED, TWARN, WDOG, PSTAT and PNUM (R119, R239, R399, R407). -/
theorem State.reset_sysValue_eq_zero {x : BitVec 12} (n : Nat) (st : Strm) (hseed : x.toNat ≠ 0x101) (hwarn : x.toNat ≠ 0x542)
    (hdog : x.toNat ≠ 0x604) (hpstat : x.toNat ≠ 0x740) (hpnum : x.toNat ≠ 0x741) : State.reset.sysValue n st x = 0 := by
  simp [State.sysValue, hseed, hwarn, hdog, hpstat, hpnum]

end Sys2Proof.Machine

namespace Sys2Proof.Slice0

open Sys2Proof.Machine

/-- Settles O9: reset lists no memory, core or threshold, so each reads as its default; a system register is one of the five with a reset value of
its own, or reads 0. -/
theorem resetHolds : Obligations.ResetHolds := by
  refine ⟨rfl, State.reset_run, Store.get_nil 1024, fun n st x _ => ?_⟩
  split_ifs with hseed hwarn hdog hpstat hpnum
  · simp [hseed, State.sysValue]
  · simp [hwarn, State.sysValue]
  · simp [hdog, State.sysValue]
  · simp [hpstat, State.sysValue]
  · simp [hpnum, State.sysValue]
  · have hne {y : BitVec 12} (h : x ≠ y) : x.toNat ≠ y.toNat := fun e => h (BitVec.eq_of_toNat_eq e)
    exact State.reset_sysValue_eq_zero n st (hne hseed) (hne hwarn) (hne hdog) (hne hpstat) (hne hpnum)

end Sys2Proof.Slice0
end

section
/-!
SUPPORT. Instruction words: the dispatch on the major opcode (R50), slices of a word that stands as its fields, and the fields of a word. Then the
round trip between the decoder and the encoder (R45, R51): every encoded word decodes, and every decoded word is the one that its instruction encodes to.
-/

namespace Sys2Proof

/-! ### The major opcode (R50) -/

/-- The rows of each major opcode; three of the 64 have none. -/
def majorTable : List (Insn → Decoded) := [
  decode00, decode01, decode02, decode03, decode04, decode05, decode06, decode07,
  decode08, decode09, decode0A, decode0B, decode0C, decode0D, decode0E, decode0F,
  decode10, decode11, decode12, decode13, decode14, decode15, decode16, decode17,
  decode18, decode19, decode1A, decode1B, decode1C, decode1D, decode1E, decode1F,
  decode20, decode21, decode22, decode23, decode24, decode25, decode26, decode27,
  decode28, decode29, decode2A, decode2B, decode2C, decode2D, decode2E, fun _ => .unallocated,
  decode30, decode31, decode32, decode33, decode34, decode35, decode36, decode37,
  decode38, decode39, decode3A, fun _ => .unallocated, decode3C, decode3D, fun _ => .unallocated, decode3F]

/-- The two words of R52 are no row's either, so the major opcode alone says which rows can claim a word. -/
theorem decode_eq_majorTable (w : Insn) : decode w = majorTable.getD (w.extractLsb' 23 6).toNat (fun _ => .unallocated) w := by
  unfold decode
  split
  · rename_i h
    rcases h with rfl | rfl <;> decide
  · have hm := (w.extractLsb' 23 6).isLt
    generalize (w.extractLsb' 23 6).toNat = m at hm ⊢
    interval_cases m <;> rfl

theorem majorTable_getD_of_row {w : Insn} {m : Nat} {row : Insn → Decoded} {d : Decoded} (hrow : majorTable[m]? = some row) (hd : row w = d) :
    majorTable.getD m (fun _ => .unallocated) w = d := by
  rw [List.getD_eq_getElem?_getD, hrow]
  exact hd

/-! ### Slices of two bit strings put together

The encoder writes a word with `++`, whose type then is the sum of the widths; these lemmas speak of `BitVec.append`, so that they apply where that sum
is taken for 32. -/

theorem slice_append_low {v u s l : Nat} (hi : BitVec v) (lo : BitVec u) (h : s + l ≤ u) :
    (BitVec.append hi lo).extractLsb' s l = lo.extractLsb' s l :=
  BitVec.extractLsb'_append_eq_of_add_le h

theorem slice_append_high {v u s l : Nat} (hi : BitVec v) (lo : BitVec u) (h : u ≤ s) :
    (BitVec.append hi lo).extractLsb' s l = hi.extractLsb' (s - u) l :=
  BitVec.extractLsb'_append_eq_of_le h

theorem slice_add {n : Nat} (x : BitVec n) (s v u : Nat) : x.extractLsb' s (v + u) = x.extractLsb' (s + u) v ++ x.extractLsb' s u :=
  (BitVec.extractLsb'_append_extractLsb'_eq_extractLsb' rfl).symm

theorem append_eq_append_iff {v u : Nat} {a b : BitVec v} {c d : BitVec u} : a ++ c = b ++ d ↔ a = b ∧ c = d := by
  constructor
  · intro h
    have hhi := congrArg (BitVec.extractLsb' u v) h
    have hlo := congrArg (BitVec.extractLsb' 0 u) h
    rw [BitVec.extractLsb'_append_eq_left, BitVec.extractLsb'_append_eq_left] at hhi
    rw [BitVec.extractLsb'_append_eq_right, BitVec.extractLsb'_append_eq_right] at hlo
    exact ⟨hhi, hlo⟩
  · rintro ⟨rfl, rfl⟩
    rfl

/-- A slice across the seam has a value when its two parts have that value's parts. -/
theorem slice_append_eq_iff {v u s l : Nat} (hi : BitVec v) (lo : BitVec u) (c : BitVec l) (hs : s < u) (hl : u < s + l) :
    (BitVec.append hi lo).extractLsb' s l = c ↔
      hi.extractLsb' 0 (s + l - u) = c.extractLsb' (u - s) (s + l - u) ∧ lo.extractLsb' s (u - s) = c.extractLsb' 0 (u - s) := by
  obtain ⟨p, rfl⟩ : ∃ p, u = s + p := ⟨u - s, by omega⟩
  obtain ⟨r, rfl⟩ : ∃ r, l = r + p := ⟨l - p, by omega⟩
  have hc : c = c.extractLsb' p r ++ c.extractLsb' 0 p := by
    have h := slice_add c 0 r p
    rwa [BitVec.extractLsb'_eq_self, Nat.zero_add] at h
  rw [slice_add, slice_append_high _ _ le_rfl, slice_append_low _ _ le_rfl, show s + (r + p) - (s + p) = r by omega,
    show s + p - s = p by omega, Nat.sub_self, ← append_eq_append_iff, ← hc]

/-! ### The fields of a word -/

/-- The field of `w` from bit `s` on holds `x`. -/
def FieldAt {l : Nat} (w : Insn) (s : Nat) (x : BitVec l) : Prop := w.extractLsb' s l = x

theorem slice_eq_iff_fieldAt {l s : Nat} {w : Insn} {x : BitVec l} : w.extractLsb' s l = x ↔ FieldAt w s x := Iff.rfl

theorem fieldAt_slice (w : Insn) (s l : Nat) : FieldAt w s (w.extractLsb' s l) := rfl

theorem fieldAt_iff_toNat {l s : Nat} {w : Insn} {x : BitVec l} : FieldAt w s x ↔ w.toNat / 2 ^ s % 2 ^ l = x.toNat := by
  rw [FieldAt, ← BitVec.toNat_inj, BitVec.extractLsb'_toNat, Nat.shiftRight_eq_div_pow]

theorem fieldAt_append {v u s : Nat} {w : Insn} {hi : BitVec v} {lo : BitVec u} :
    FieldAt w s (BitVec.append hi lo) ↔ FieldAt w (s + u) hi ∧ FieldAt w s lo := by
  rw [FieldAt, slice_add]
  exact append_eq_append_iff

/-- An instruction encodes to `w` when the fields of its word stand in `w`. -/
theorem encode_eq_of_fieldAt {i : Instr} {v w : Insn} (hi : encode i = some v) (h : FieldAt w 0 v) : encode i = some w := by
  rw [hi, ← h, BitVec.extractLsb'_eq_self]

/-! ### What is decoded encodes again -/

/-- What `d` reads from `w`, if anything, has `w` as its word. -/
def Sound (w : Insn) (d : Decoded) : Prop := ∀ i, d = .ok i → encode i = some w

theorem sound_unallocated (w : Insn) : Sound w .unallocated := fun _ h => nomatch h

theorem sound_claim {w : Insn} {zero inA inE : Bool} {i : Instr} (h : zero = true → encode i = some w) : Sound w (claim zero inA inE i) := by
  intro j hj
  unfold claim at hj
  split_ifs at hj with hu hz
  cases hj
  exact h hz

theorem sound_row {w : Insn} {p : Prop} [Decidable p] {zero inA inE : Bool} {i : Instr} {rest : Decoded}
    (hi : p → zero = true → encode i = some w) (hrest : Sound w rest) : Sound w (if p then claim zero inA inE i else rest) := by
  split
  · exact sound_claim (hi ‹p›)
  · exact hrest

/-- The rows of each major opcode in turn: a row's tests and its zero fields are the constants in its instruction's word, and every other bit is in a
field that the row reads. -/
theorem sound_decode (w : Insn) : Sound w (decode w) := by
  unfold decode
  split
  · exact sound_unallocated w
  split
  case h_62 => exact sound_unallocated w
  all_goals
    rename_i hm
    have hmajor := (BitVec.toNat_eq_nat.1 hm).2
    clear hm
    simp only [decode00, decode01, decode02, decode03, decode04, decode05, decode06, decode07, decode08, decode09, decode0A, decode0B, decode0C, decode0D,
      decode0E, decode0F, decode10, decode11, decode12, decode13, decode14, decode15, decode16, decode17, decode18, decode19, decode1A,
      decode1B, decode1C, decode1D, decode1E, decode1F, decode20, decode21, decode22, decode23, decode24, decode25, decode26, decode27,
      decode28, decode29, decode2A, decode2B, decode2C, decode2D, decode2E, decode30, decode31, decode32, decode33, decode34, decode35,
      decode36, decode37, decode38, decode39, decode3A, decode3C, decode3D, decode3F]
    repeat' first
      | refine sound_row (fun htest hzero => ?_) ?_
      | exact sound_unallocated w
      | refine sound_claim fun hzero => ?_
  all_goals
    refine encode_eq_of_fieldAt rfl ?_
    simp_all only [beq_iff_eq, Bool.and_eq_true, BitVec.ofNat_eq_ofNat, slice_eq_iff_fieldAt, HAppend.hAppend, fieldAt_append, fieldAt_slice,
      true_and, and_true, Nat.reduceAdd]
  all_goals
    simp only [fieldAt_iff_toNat, BitVec.reduceToNat, Nat.reducePow, Nat.div_one] at *
    omega

/-! ### What is encoded decodes again -/

/-- Row by row: the word's own row is the first whose tests hold of its constants, and reads back the fields that the word was put together from. -/
theorem decode_of_encode {i : Instr} {w : Insn} (h : encode i = some w) (hu : Machine.unclaimed i = false) : decode w = .ok i := by
  rw [decode_eq_majorTable]
  obtain ⟨m, hm⟩ : ∃ m, m = w.extractLsb' 23 6 := ⟨_, rfl⟩
  rw [← hm]
  cases i <;> cases h
  all_goals
    simp only [HAppend.hAppend, slice_append_low, slice_append_high, BitVec.extractLsb'_eq_self, Nat.reduceSub, Nat.reduceAdd, Nat.reduceLeDiff,
      BitVec.reduceExtractLsb', le_refl] at hm
    subst hm
    refine majorTable_getD_of_row rfl ?_
    simp only [claim, hu, decode00, decode01, decode02, decode03, decode04, decode05, decode06, decode07, decode08, decode09, decode0A, decode0B, decode0C, decode0D,
      decode0E, decode0F, decode10, decode11, decode12, decode13, decode14, decode15, decode16, decode17, decode18, decode19, decode1A,
      decode1B, decode1C, decode1D, decode1E, decode1F, decode20, decode21, decode22, decode23, decode24, decode25, decode26, decode27,
      decode28, decode29, decode2A, decode2B, decode2C, decode2D, decode2E, decode30, decode31, decode32, decode33, decode34, decode35,
      decode36, decode37, decode38, decode39, decode3A, decode3C, decode3D, decode3F,
      HAppend.hAppend, slice_append_low, slice_append_high, slice_append_eq_iff, BitVec.extractLsb'_eq_self, BitVec.reduceExtractLsb',
      ↓reduceIte, BitVec.ofNat_eq_ofNat, BitVec.reduceEq, Nat.reduceSub, Nat.reduceAdd, Nat.reduceLT, Nat.reduceLeDiff, le_refl,
      beq_iff_eq, Bool.and_eq_true, Bool.false_eq_true, false_and, and_false, and_self]

end Sys2Proof

namespace Sys2Proof.Slice0

/-- Settles O2: each row's word, taken apart again by its own row. -/
theorem encodedWordsDecode : Obligations.EncodedWordsDecode := fun _ _ => decode_of_encode

/-- Settles O3: each row reads every bit of the words that it claims. -/
theorem decodedWordsEncode : Obligations.DecodedWordsEncode := fun i w => sound_decode w i

end Sys2Proof.Slice0
end

section
/-!
SUPPORT. A trap that a word takes (R403, R408, R410): what it leaves of its core, what its record holds, and that nothing outside the core changes but
what is due, the reports and the beats still to be driven.
-/

namespace Sys2Proof.Machine

/-! ### Punty entries go back to their registers (R97) -/

/-- A stream without what the return of its punty entries changes. -/
def Seq.unfiled (q : Seq) : Seq := { q with regs := [], punty := [], wb := none }

/-- A core without what changes before the stream that traps enters its handler: the files and their punty entries, what runs in the SAU and the
draws that it has reserved, and the wait of the A-stream. -/
def Core.unfiled (c : Core) : Core :=
  { c with
    a := c.a.unfiled
    e := c.e.unfiled
    v := []
    k := []
    regBad := []
    sauq := []
    sauFly := []
    fpRun := none
    wait := none
    msg := {}
    runnerAt := none
    ctl := { c.ctl with srseed := 0 } }

theorem Core.spillEntry_unfiled (c : Core) (st : Strm) (p : Punty) : (c.spillEntry st p).unfiled = c.unfiled := by
  unfold Core.spillEntry Core.setMain
  cases st <;> split_ifs <;> rfl

theorem Core.spillEntries_unfiled (c : Core) (st : Strm) (ps : List Punty) :
    (ps.foldl (fun c p => c.spillEntry st p) c).unfiled = c.unfiled := by
  induction ps generalizing c with
  | nil => rfl
  | cons p ps ih => exact (ih _).trans (c.spillEntry_unfiled st p)

@[simp] theorem Core.spillPunty_unfiled (c : Core) (st : Strm) : (c.spillPunty st).unfiled = c.unfiled := by
  rw [← Core.spillEntries_unfiled c st (c.seq st).punty]
  cases st <;> rfl

@[simp] theorem Core.dropRun_unfiled (c : Core) (body : Bool) : (c.dropRun body).unfiled = c.unfiled := by
  unfold Core.dropRun
  split <;> rfl

@[simp] theorem Core.wake_unfiled (c : Core) (ask : Nat) (bit : Word) : (c.wake ask bit).unfiled = c.unfiled := by
  unfold Core.wake
  split
  · split <;> rfl
  · rfl

@[simp] theorem Core.abandon_unfiled (c : Core) : c.abandon.unfiled = c.unfiled := by
  unfold Core.abandon
  split <;> rfl

/-! ### The core before and after the handler is entered -/

/-- The core once a trap of stream st has taken back the word that runs alone, and has sent the punty entries of both streams to their registers. -/
def Core.spilled (c : Core) (st : Strm) : Core := ((if st = .e then c.dropRun false else c).spillPunty .a).spillPunty .e

/-- Then the A-stream's wait is ended, as R410 has it. -/
def Core.beforeTrap (c : Core) (st : Strm) : Core :=
  let c := if st = .e then (c.spilled st).wake 64 0x40 else c.spilled st
  if st = .a || !c.a.waiting then c.abandon else c

/-- Stream st of core c enters the handler of its level, sys for system, with the record of trap t. -/
def Core.enterTrap (c : Core) (st : Strm) (t : TrapInfo) (sys : Bool) : Core :=
  let r := { (c.seq st).record st c.ctl.lvl t with xret := c.phaseXret }
  let c := c.modSeq st fun q => q.enter sys r t.cause
  let c := c.modSeq st.other fun q => { q with waiting := (q.waiting && !(st = .e && c.atBarrier)) || (st = .e && c.barDone) }
  let c := c.modSeq st.other Seq.halt
  { c with
    ctl := { c.ctl with
      lvl := if sys then true else c.ctl.lvl
      sb := if sys then true else c.ctl.sb
      ub := if sys then c.ctl.ub else true }
    join := if st = .e then none else c.join
    xph := match c.xph with
      | some p => if p.begun then some { p with left := true } else if st = .e && c.atXbegin then some p else none
      | none => none }

open Slice0 (takes)

theorem Core.trap_eq_enterTrap {c : Core} {st : Strm} {t : TrapInfo} (h : takes c t.cause = true) :
    c.trap st t = (c.beforeTrap st).enterTrap st t (c.toSystem t.cause) := by
  rw [takes, Bool.not_eq_true'] at h
  unfold Core.trap
  exact (if_neg (by rw [h]; decide)).trans rfl

@[simp] theorem Core.spilled_unfiled (c : Core) (st : Strm) : (c.spilled st).unfiled = c.unfiled := by
  unfold Core.spilled
  split <;> simp

@[simp] theorem Core.beforeTrap_unfiled (c : Core) (st : Strm) : (c.beforeTrap st).unfiled = c.unfiled := by
  unfold Core.beforeTrap
  cases st <;> dsimp only <;> split_ifs <;> simp

/-! ### The files after a trap -/

/-- The register files of a core, with the entries that are to go back to them. -/
def Core.filed (c : Core) : (Store Word × List Punty) × (Store Word × List Punty) × Store Vec × Store Mask :=
  ((c.a.regs, c.a.punty), (c.e.regs, c.e.punty), c.v, c.k)

theorem Core.filed_spillEntry {c d : Core} (h : c.filed = d.filed) (st : Strm) (p : Punty) :
    (c.spillEntry st p).filed = (d.spillEntry st p).filed := by
  simp only [Core.filed, Prod.mk.injEq] at h
  obtain ⟨⟨har, hap⟩, ⟨her, hep⟩, hv, hk⟩ := h
  unfold Core.spillEntry Core.setMain
  cases st <;> split_ifs <;> simp [Core.filed, Core.modSeq, Core.setSeq, Core.seq, *]

theorem Core.filed_spillEntries {c d : Core} (h : c.filed = d.filed) (st : Strm) (ps : List Punty) :
    (ps.foldl (fun c p => c.spillEntry st p) c).filed = (ps.foldl (fun c p => c.spillEntry st p) d).filed := by
  induction ps generalizing c d with
  | nil => exact h
  | cons p ps ih => exact ih (filed_spillEntry h st p)

/-- What the files hold once a stream's entries have gone back depends on the files and the entries alone. -/
theorem Core.filed_spillPunty {c d : Core} (h : c.filed = d.filed) (st : Strm) : (c.spillPunty st).filed = (d.spillPunty st).filed := by
  have hp : (c.seq st).punty = (d.seq st).punty := by
    cases st
    · exact congrArg (fun f => f.1.2) h
    · exact congrArg (fun f => f.2.1.2) h
  have hf := filed_spillEntries h st (c.seq st).punty
  unfold Core.spillPunty
  rw [← hp]
  generalize (c.seq st).punty.foldl (fun c p => c.spillEntry st p) c = c' at hf
  generalize (c.seq st).punty.foldl (fun c p => c.spillEntry st p) d = d' at hf
  simp only [Core.filed, Prod.mk.injEq] at hf
  obtain ⟨⟨har, hap⟩, ⟨her, hep⟩, hv, hk⟩ := hf
  cases st <;> simp [Core.filed, Core.modSeq, Core.setSeq, Core.seq, *]

theorem Core.filed_dropRun (c : Core) (body : Bool) : (c.dropRun body).filed = c.filed := by
  unfold Core.dropRun
  split <;> rfl

theorem Core.filed_wake (c : Core) (ask : Nat) (bit : Word) : (c.wake ask bit).filed = c.filed := by
  unfold Core.wake
  split
  · split <;> rfl
  · rfl

theorem Core.filed_abandon (c : Core) : c.abandon.filed = c.filed := by
  unfold Core.abandon
  split <;> rfl

theorem Core.filed_spilled (c : Core) (st : Strm) : (c.spilled st).filed = ((c.spillPunty .a).spillPunty .e).filed := by
  unfold Core.spilled
  refine filed_spillPunty (filed_spillPunty ?_ .a) .e
  split
  · exact c.filed_dropRun false
  · rfl

theorem Core.filed_beforeTrap (c : Core) (st : Strm) : (c.beforeTrap st).filed = ((c.spillPunty .a).spillPunty .e).filed := by
  rw [← filed_spilled c st]
  unfold Core.beforeTrap
  cases st <;> dsimp only <;> split_ifs <;> simp only [filed_abandon, filed_wake]

/-! ### What a trap leaves as it was -/

/-- A stream without what a trap of either stream may change. -/
def Seq.lasting (q : Seq) : Seq :=
  { q.unfiled with
    sysRec := {}
    userRec := {}
    loopDepth := 0
    hints := []
    buf := []
    tbuf := []
    pc := 0
    drain := false
    safeAt := none
    tried := false
    parked := false
    qstall := false
    starved := false
    jx := false
    waiting := false
    stopped := false
    stopNext := false }

/-- A core without what a trap may change. -/
def Core.lasting (c : Core) : Core :=
  { c.unfiled with
    a := c.a.lasting
    e := c.e.lasting
    ctl := { c.unfiled.ctl with lvl := false, sb := false, ub := false }
    join := none
    xph := none }

theorem Core.lasting_eq_of_unfiled {c d : Core} (h : c.unfiled = d.unfiled) : c.lasting = d.lasting :=
  (congrArg Core.lasting h : c.unfiled.lasting = d.unfiled.lasting)

theorem Core.modSeq_lasting {c : Core} {st : Strm} {f : Seq → Seq} (h : (f (c.seq st)).lasting = (c.seq st).lasting) :
    (c.modSeq st f).lasting = c.lasting := by
  cases st
  · exact congrArg (fun q => { c.lasting with a := q }) h
  · exact congrArg (fun q => { c.lasting with e := q }) h

theorem Seq.halt_lasting (q : Seq) : q.halt.lasting = q.lasting := by
  unfold Seq.halt Seq.regroup
  split_ifs <;> rfl

theorem Seq.halt_regs (q : Seq) : q.halt.regs = q.regs := by
  unfold Seq.halt Seq.regroup
  split_ifs <;> rfl

theorem Core.enterTrap_lasting (c : Core) (st : Strm) (t : TrapInfo) (sys : Bool) : (c.enterTrap st t sys).lasting = c.lasting := by
  unfold Core.enterTrap
  exact ((modSeq_lasting (Seq.halt_lasting _)).trans (modSeq_lasting rfl)).trans (modSeq_lasting rfl)

/-- A trap that is no double fault leaves the core, but for what it may change. -/
theorem Core.trap_lasting {c : Core} {st : Strm} {t : TrapInfo} (h : takes c t.cause = true) : (c.trap st t).lasting = c.lasting := by
  rw [trap_eq_enterTrap h, enterTrap_lasting]
  exact lasting_eq_of_unfiled (beforeTrap_unfiled c st)

/-- What is read of a core beside the parts that a trap may change is read of it after the trap. -/
theorem Core.trap_keeps {α : Type} (g : Core → α) (hg : ∀ d : Core, g d.lasting = g d) {c : Core} {st : Strm} {t : TrapInfo}
    (h : takes c t.cause = true) : g (c.trap st t) = g c :=
  (hg _).symm.trans ((congrArg g (trap_lasting h)).trans (hg _))

theorem Core.trap_run {c : Core} {st : Strm} {t : TrapInfo} (h : takes c t.cause = true) : (c.trap st t).run = c.run :=
  trap_keeps Core.run (fun _ => rfl) h

theorem Core.enterTrap_files (c : Core) (st : Strm) (t : TrapInfo) (sys : Bool) :
    ((c.enterTrap st t sys).a.regs, (c.enterTrap st t sys).e.regs, (c.enterTrap st t sys).v, (c.enterTrap st t sys).k)
      = (c.a.regs, c.e.regs, c.v, c.k) := by
  unfold Core.enterTrap
  cases st <;> simp only [Core.modSeq, Core.setSeq, Core.seq, Strm.other, Seq.halt_regs] <;> rfl

theorem Core.trap_noEffect {c : Core} {st : Strm} {t : TrapInfo} (h : takes c t.cause = true) : Slice0.NoEffect c (c.trap st t) where
  regs := by
    rw [trap_eq_enterTrap h, enterTrap_files]
    exact congrArg (fun f => (f.1.1, f.2.1.1, f.2.2)) (filed_beforeTrap c st)
  preds := trap_keeps (fun c => (c.a.preds, c.e.preds)) (fun _ => rfl) h
  targets := trap_keeps (fun c => (c.a.bt, c.a.lk, c.e.bt, c.e.lk)) (fun _ => rfl) h
  windows
    | .a => trap_keeps (fun c => (c.a.links, c.a.cur, c.a.old, c.a.depth)) (fun _ => rfl) h
    | .e => trap_keeps (fun c => (c.e.links, c.e.cur, c.e.old, c.e.depth)) (fun _ => rfl) h
  queues := trap_keeps Core.q (fun _ => rfl) h
  arrays := trap_keeps (fun c => (c.pm, c.mat, c.ulm)) (fun _ => rfl) h
  cmds := trap_keeps Core.cmds (fun _ => rfl) h
  written := trap_keeps (fun c => (c.wset, c.amoSet, c.amoVers, c.own, c.observed, c.seen, c.acqAt)) (fun _ => rfl) h

/-! ### The handler's stream, its record and its level -/

theorem Core.enterTrap_seq (c : Core) (st : Strm) (t : TrapInfo) (sys : Bool) :
    (c.enterTrap st t sys).seq st = (c.seq st).enter sys { (c.seq st).record st c.ctl.lvl t with xret := c.phaseXret } t.cause := by
  cases st <;> rfl

theorem Seq.halt_stopped (q : Seq) : q.halt.stopped = true ∨ q.halt.stopNext = true := by
  unfold Seq.halt
  cases q.waiting
  · exact .inl rfl
  · exact .inr rfl

theorem Core.enterTrap_other (c : Core) (st : Strm) (t : TrapInfo) (sys : Bool) :
    ((c.enterTrap st t sys).seq st.other).stopped = true ∨ ((c.enterTrap st t sys).seq st.other).stopNext = true := by
  cases st
  · exact Seq.halt_stopped _
  · exact Seq.halt_stopped _

theorem causeWord_of_sync (st : Strm) (lvl : Bool) (depth : Nat) {t : TrapInfo} (hs : t.async = false) (hv : t.vrep = none) :
    causeWord st lvl depth t = BitVec.ofNat 64 (t.cause + 256 * t.sub + (if st = .e then 65536 else 0) + (if lvl then 131072 else 0) + 262144 * depth) := by
  simp [causeWord, hs, hv]

/-- The record of a level after a trap to it. -/
theorem recordOf_enterTrap (c : Core) (st : Strm) (t : TrapInfo) (sys : Bool) :
    Slice0.recordOf (c.enterTrap st t sys) st sys = { (c.seq st).record st c.ctl.lvl t with xret := c.phaseXret } := by
  rw [Slice0.recordOf, Core.enterTrap_seq]
  cases sys <;> rfl

/-- What is read of a core beside its files and the A-stream's wait is read of it before the handler is entered. -/
theorem Core.beforeTrap_keeps {α : Type} (g : Core → α) (hg : ∀ d : Core, g d.unfiled = g d) (c : Core) (st : Strm) : g (c.beforeTrap st) = g c :=
  (hg _).symm.trans ((congrArg g (beforeTrap_unfiled c st)).trans (hg _))

theorem Core.beforeTrap_seq {α : Type} (g : Seq → α) (hg : ∀ q : Seq, g q.unfiled = g q) (c : Core) (st : Strm) :
    g ((c.beforeTrap st).seq st) = g (c.seq st) :=
  beforeTrap_keeps (fun c => g (c.seq st)) (fun d => by cases st <;> exact hg _) c st

/-- A trap of a word that is no double fault: the record of its level, and the handler that its stream enters (R403, R408, R410). -/
theorem Core.trap_trapped {c : Core} {st : Strm} {t : TrapInfo} (h : takes c t.cause = true) (ha : t.async = false) (hv : t.vrep = none)
    {word ret : Word} (hw : t.word = word.setWidth 19) (hr : t.ret = ret.setWidth 19) :
    Slice0.Trapped c (c.trap st t) st t.cause t.sub t.addr t.info word ret := by
  have hlvl : (c.beforeTrap st).ctl.lvl = c.ctl.lvl := beforeTrap_keeps (·.ctl.lvl) (fun _ => rfl) c st
  have hsb : (c.beforeTrap st).ctl.sb = c.ctl.sb := beforeTrap_keeps (·.ctl.sb) (fun _ => rfl) c st
  have hub : (c.beforeTrap st).ctl.ub = c.ctl.ub := beforeTrap_keeps (·.ctl.ub) (fun _ => rfl) c st
  have hrec := recordOf_enterTrap (c.beforeTrap st) st t (c.toSystem t.cause)
  have hseq := (c.beforeTrap st).enterTrap_seq st t (c.toSystem t.cause)
  have hother := (c.beforeTrap st).enterTrap_other st t (c.toSystem t.cause)
  rw [← trap_eq_enterTrap h] at hrec hseq hother
  exact {
    epc_ := by rw [hrec, ← hw, ← hr]; rfl
    cause_ := by
      rw [hrec, ← hlvl, ← beforeTrap_seq Seq.loopDepth (fun _ => rfl) c st]
      exact causeWord_of_sync st _ _ ha hv
    addr_ := by rw [hrec]; rfl
    info_ := by rw [hrec]; rfl
    saved := by
      rw [hrec]
      exact beforeTrap_seq (fun q => (q.bt, q.brPred, q.brSense, q.depth)) (fun _ => rfl) c st
    pc := by
      rw [hseq, ← beforeTrap_seq Seq.svec (fun _ => rfl) c st, ← beforeTrap_seq Seq.uvec (fun _ => rfl) c st]
      rfl
    loops := by rw [hseq]; rfl
    level := by
      rw [trap_eq_enterTrap h, ← hlvl]
      cases c.toSystem t.cause <;> cases st <;> rfl
    sb := by
      rw [trap_eq_enterTrap h, ← hsb]
      cases c.toSystem t.cause <;> cases st <;> rfl
    ub := by
      rw [trap_eq_enterTrap h, ← hub]
      cases c.toSystem t.cause <;> cases st <;> rfl
    other := hother }

/-- A core in a handler is not a core that has never been put. -/
theorem Core.trap_ne_default {c : Core} {st : Strm} {t : TrapInfo} (h : takes c t.cause = true) : c.trap st t ≠ {} := by
  intro he
  rw [trap_eq_enterTrap h] at he
  cases hs : c.toSystem t.cause
  · rw [hs] at he
    exact absurd (congrArg (·.ctl.ub) he : true = false) (by decide)
  · rw [hs] at he
    exact absurd (congrArg (·.ctl.sb) he : true = false) (by decide)

/-! ### The state after a trap (R333, R410) -/

theorem disbandGang_of_none {s : State} {n : Nat} (h : (s.core n).gang = none) : disbandGang s n = s := by
  unfold disbandGang
  rw [h]

/-- A core alone that takes a trap which is no double fault: its beats end, it enters its handler, and a barrier word of its A-stream is withdrawn
for a trap of its E-stream. -/
theorem takeTrap_alone {s : State} {n : Nat} {st : Strm} {t : TrapInfo} (hg : (s.core n).gang = none) (ht : takes (s.core n) t.cause = true) :
    takeTrap s n st t = { (s.silence n).setCore n ((s.core n).trap st t) with
      plan := if (st = .e && (s.core n).atBarrier) = true then s.plan ++ [.event (.barrierWithdrawal n)] else s.plan } := by
  rw [takes, Bool.not_eq_true'] at ht
  unfold takeTrap
  rw [disbandGang_of_none hg]
  refine (if_neg ?_).trans ?_
  · rw [show (s.silence n).core n = s.core n from rfl, ht]
    decide
  · show (if (st = .e && (s.core n).atBarrier) = true then _ else _) = _
    split_ifs <;> rfl

theorem takeTrap_core {s : State} {n : Nat} {st : Strm} {t : TrapInfo} (hg : (s.core n).gang = none) (ht : takes (s.core n) t.cause = true) :
    (takeTrap s n st t).core n = (s.core n).trap st t := by
  rw [takeTrap_alone hg ht]
  exact Store.get_set_self_of_ne _ _ (Core.trap_ne_default ht)

theorem takeTrap_onlyCore {s : State} {n : Nat} {st : Strm} {t : TrapInfo} (hg : (s.core n).gang = none) (ht : takes (s.core n) t.cause = true) :
    Slice0.onlyCore s (takeTrap s n st t) n := by
  rw [takeTrap_alone hg ht]
  refine ⟨fun m hm => Store.get_set_ne_of_ne _ hm (Core.trap_ne_default ht), rfl, ?_⟩
  show List.filter _ (List.filter _ _) = _
  rw [List.filter_filter]
  simp only [Bool.and_self]

/-- What a word's trap says, with the offending word's own address (R408, R410). -/
def TrapInfo.ofWord (x : Ctx) (start : Word) (cause sub : Nat) (addr info : Word) : TrapInfo where
  cause := cause
  sub := sub
  addr := addr
  info := info
  word := x.pc.setWidth 19
  ret := (if cause = cTrap then x.pc + 4 else if cause = cBrk then x.pc else start).setWidth 19
  async := false
  vrep := none

theorem wordTrap_eq_takeTrap (s : State) (x : Ctx) (start : Word) (cause sub : Nat) (addr info : Word) :
    wordTrap s x start cause sub addr info none = takeTrap s x.core x.st (.ofWord x start cause sub addr info) := rfl

/-- A word of a core alone that traps has no other effect, and its stream is in the handler of its cause (R67, R408, R410). -/
theorem wordTrap_spec {s : State} {x : Ctx} {cause : Nat} (start : Word) (sub : Nat) (addr info : Word) (hg : (s.core x.core).gang = none)
    (ht : takes (s.core x.core) cause = true) :
    Slice0.onlyCore s (wordTrap s x start cause sub addr info none) x.core
      ∧ Slice0.NoEffect (s.core x.core) ((wordTrap s x start cause sub addr info none).core x.core)
      ∧ Slice0.Trapped (s.core x.core) ((wordTrap s x start cause sub addr info none).core x.core) x.st cause sub addr info x.pc
        (if cause = cTrap then x.pc + 4 else if cause = cBrk then x.pc else start) := by
  rw [wordTrap_eq_takeTrap]
  have hcore := takeTrap_core (st := x.st) (t := .ofWord x start cause sub addr info) hg ht
  refine ⟨takeTrap_onlyCore hg ht, ?_, ?_⟩
  · rw [hcore]
    exact Core.trap_noEffect ht
  · rw [hcore]
    exact Core.trap_trapped (t := .ofWord x start cause sub addr info) ht rfl rfl rfl rfl

end Sys2Proof.Machine

namespace Sys2Proof.Slice0

open Sys2Proof.Machine

/-- Settles O8: the decoder refuses the word, and the stream takes the trap of an illegal word (R51, R53). -/
theorem unallocatedWordsTrap : Obligations.UnallocatedWordsTrap := by
  intro s w hw htime hg ht
  have hrun : runWord exec w s = .next (wordTrap s s.ctx ((s.core s.cur).seq s.strm).groupStart cIllegal 0 0 (w.setWidth 64) none) := by
    simp only [runWord, hw, State.illegalWord, htime]
    rfl
  obtain ⟨honly, -, htrap⟩ := wordTrap_spec (x := s.ctx) (cause := cIllegal) ((s.core s.cur).seq s.strm).groupStart 0 0 (w.setWidth 64) hg ht
  exact ⟨_, hrun, honly, htrap⟩

end Sys2Proof.Slice0
end

section
/-!
SUPPORT. An illegal word (R53, R54): whatever else its instruction does around its issue, it traps, and nothing else happens.
-/

namespace Sys2Proof.Slice0

open Sys2Proof.Machine

/-! ### The word's trap -/

/-- Word i stands at the head of its stream, in no gang and no timetable, and is illegal there with subcode sub (R53, R54). -/
structure Forbidden (s : State) (i : Instr) (sub : Nat) : Prop where
  issues : s.canIssue = true
  alone : (s.core s.cur).gang = none
  untimed : s.inTimetable = none
  bad : illegal s.strm (!(s.core s.cur).ctl.lvl) ((s.core s.cur).seq s.strm).hints i = some sub
  trapped : takes (s.core s.cur) 0 = true

/-- State t is state s after the trap of the illegal word i. The last four clauses are what the instructions read of t once the word is over. -/
structure Refusal (s : State) (i : Instr) (sub : Nat) (t : State) : Prop where
  only : onlyCore s t s.cur
  effect : NoEffect (s.core s.cur) (t.core s.cur)
  trap : Trapped (s.core s.cur) (t.core s.cur) s.strm 0 sub 0 (((encode i).getD 0).setWidth 64) ((s.core s.cur).seq s.strm).pc
    ((s.core s.cur).seq s.strm).groupStart
  run : (t.core s.cur).run = .running
  halted : ((t.core s.cur).seq s.strm).halted = false
  gang : (t.core s.cur).gang = none
  xpar : (t.core s.cur).xpar = (s.core s.cur).xpar

/-- The outcome is that trap. -/
def Refuses (s : State) (i : Instr) (sub : Nat) (o : Out) : Prop := ∃ t, o = .next t ∧ Refusal s i sub t

/-- The trap of an illegal word (R53). -/
def illegalTrap (s : State) (i : Instr) (sub : Nat) : State :=
  wordTrap s s.ctx ((s.core s.cur).seq s.strm).groupStart cIllegal sub 0 (((encode i).getD 0).setWidth 64) none

theorem canIssue_run {s : State} (h : s.canIssue = true) : (s.core s.cur).run = .running := by
  simp only [State.canIssue, Bool.and_eq_true, beq_iff_eq] at h
  exact h.1.1.1.1.1.1.1

theorem canIssue_halted {s : State} (h : s.canIssue = true) : ((s.core s.cur).seq s.strm).halted = false := by
  simp only [State.canIssue, Bool.and_eq_true, Bool.not_eq_true'] at h
  exact h.1.1.1.1.1.1.2

theorem fwdFull_of_alone {s : State} (h : (s.core s.cur).gang = none) : s.fwdFull s.cur s.strm = false := by
  simp [State.fwdFull, State.successor, h]

theorem Forbidden.refusal {s : State} {i : Instr} {sub : Nat} (h : Forbidden s i sub) : Refusal s i sub (illegalTrap s i sub) := by
  obtain ⟨honly, heffect, htrap⟩ := wordTrap_spec (x := s.ctx) (cause := cIllegal) ((s.core s.cur).seq s.strm).groupStart sub 0
    (((encode i).getD 0).setWidth 64) h.alone h.trapped
  have hcore : (illegalTrap s i sub).core s.cur = (s.core s.cur).trap s.strm (.ofWord s.ctx _ cIllegal sub 0 _) := takeTrap_core h.alone h.trapped
  have keep {α : Type} (g : Core → α) (hg : ∀ d : Core, g d.lasting = g d) : g ((illegalTrap s i sub).core s.cur) = g (s.core s.cur) :=
    (congrArg g hcore).trans (Core.trap_keeps g hg h.trapped)
  exact {
    only := honly
    effect := heffect
    trap := htrap
    run := (keep Core.run fun _ => rfl).trans (canIssue_run h.issues)
    halted := (keep (fun c => (c.seq s.strm).halted) fun _ => by cases s.strm <;> rfl).trans (canIssue_halted h.issues)
    gang := (keep Core.gang fun _ => rfl).trans h.alone
    xpar := keep Core.xpar fun _ => rfl }

/-! ### What instructions do to the state of a trap -/

theorem Refusal.post {s t : State} {i : Instr} {sub : Nat} (h : Refusal s i sub t) (e : Ev) : Refusal s i sub (t.post e) :=
  ⟨h.only, h.effect, h.trap, h.run, h.halted, h.gang, h.xpar⟩

/-- A core without the marks that a word clears once it has issued, waited or trapped. -/
def unmarked (c : Core) : Core := { c with a := { c.a with safeAt := none }, e := { c.e with waiting := false } }

theorem read_eq_of_unmarked {α : Type} {t u : Core} (hu : unmarked u = unmarked t) (g : Core → α) (hg : ∀ d, g (unmarked d) = g d) : g u = g t :=
  (hg u).symm.trans ((congrArg g hu).trans (hg t))

theorem NoEffect.of_unmarked {c t u : Core} (h : NoEffect c t) (hu : unmarked u = unmarked t) : NoEffect c u := by
  exact {
    regs := (read_eq_of_unmarked hu (fun t => (t.a.regs, t.e.regs, t.v, t.k)) fun _ => rfl).trans h.regs
    preds := (read_eq_of_unmarked hu (fun t => (t.a.preds, t.e.preds)) fun _ => rfl).trans h.preds
    targets := (read_eq_of_unmarked hu (fun t => (t.a.bt, t.a.lk, t.e.bt, t.e.lk)) fun _ => rfl).trans h.targets
    windows := fun st =>
      (read_eq_of_unmarked hu (fun t => ((t.seq st).links, (t.seq st).cur, (t.seq st).old, (t.seq st).depth)) fun _ => by cases st <;> rfl).trans
        (h.windows st)
    queues := (read_eq_of_unmarked hu Core.q fun _ => rfl).trans h.queues
    arrays := (read_eq_of_unmarked hu (fun t => (t.pm, t.mat, t.ulm)) fun _ => rfl).trans h.arrays
    cmds := (read_eq_of_unmarked hu Core.cmds fun _ => rfl).trans h.cmds
    written := (read_eq_of_unmarked hu (fun t => (t.wset, t.amoSet, t.amoVers, t.own, t.observed, t.seen, t.acqAt)) fun _ => rfl).trans h.written }

theorem Trapped.of_unmarked {c t u : Core} {st : Strm} {cause sub : Nat} {addr info word ret : Word} (h : Trapped c t st cause sub addr info word ret)
    (hu : unmarked u = unmarked t) : Trapped c u st cause sub addr info word ret := by
  have hrec : recordOf u st (c.toSystem cause) = recordOf t st (c.toSystem cause) :=
    read_eq_of_unmarked hu (fun t => recordOf t st (c.toSystem cause)) fun _ => by cases st <;> rfl
  exact {
    epc_ := hrec ▸ h.epc_
    cause_ := hrec ▸ h.cause_
    addr_ := hrec ▸ h.addr_
    info_ := hrec ▸ h.info_
    saved := hrec ▸ h.saved
    pc := (read_eq_of_unmarked hu (fun t => (t.seq st).pc) fun _ => by cases st <;> rfl).trans h.pc
    loops := (read_eq_of_unmarked hu (fun t => (t.seq st).loopDepth) fun _ => by cases st <;> rfl).trans h.loops
    level := (read_eq_of_unmarked hu (·.ctl.lvl) fun _ => rfl).trans h.level
    sb := (read_eq_of_unmarked hu (·.ctl.sb) fun _ => rfl).trans h.sb
    ub := (read_eq_of_unmarked hu (·.ctl.ub) fun _ => rfl).trans h.ub
    other := by
      rw [read_eq_of_unmarked hu (fun t => (t.seq st.other).stopped) fun _ => by cases st <;> rfl,
        read_eq_of_unmarked hu (fun t => (t.seq st.other).stopNext) fun _ => by cases st <;> rfl]
      exact h.other }

theorem onlyCore.modCore {s t : State} {n : Nat} {f : Core → Core} (h : onlyCore s t n) (hf : (f (t.core n)).run ≠ .idle) :
    onlyCore s (t.modCore n f) n := by
  obtain ⟨hcores, hrest, hbeats⟩ := h
  exact ⟨fun m hm => (t.setCore_core_ne hf hm).trans (hcores m hm), hrest, hbeats⟩

theorem Refusal.modCore {s t : State} {i : Instr} {sub : Nat} {f : Core → Core} (h : Refusal s i sub t) (hf : ∀ c, unmarked (f c) = unmarked c) :
    Refusal s i sub (t.modCore s.cur f) := by
  have hu : unmarked (f (t.core s.cur)) = unmarked (t.core s.cur) := hf _
  have hrun : (f (t.core s.cur)).run = .running := (read_eq_of_unmarked hu Core.run fun _ => rfl).trans h.run
  have hne : (f (t.core s.cur)).run ≠ .idle := by rw [hrun]; decide
  have hcore : (t.modCore s.cur f).core s.cur = f (t.core s.cur) := t.setCore_core_self s.cur hne
  exact {
    only := h.only.modCore hne
    effect := by rw [hcore]; exact h.effect.of_unmarked hu
    trap := by rw [hcore]; exact h.trap.of_unmarked hu
    run := by rw [hcore, hrun]
    halted := by rw [hcore, read_eq_of_unmarked hu (fun t => (t.seq s.strm).halted) fun _ => by cases s.strm <;> rfl, h.halted]
    gang := by rw [hcore, read_eq_of_unmarked hu Core.gang fun _ => rfl, h.gang]
    xpar := by rw [hcore, read_eq_of_unmarked hu Core.xpar fun _ => rfl, h.xpar] }

/-! ### The ways in which an instruction issues its word -/

section
variable {s : State} {i : Instr} {sub : Nat}

theorem Forbidden.issue_eq (h : Forbidden s i sub) (eff : Ctx → DM Next) : issue i eff s = .next (illegalTrap s i sub) := by
  obtain ⟨hissues, halone, huntimed, hbad, -⟩ := h
  simp only [issue, hissues, fwdFull_of_alone halone, huntimed, hbad, Bool.not_true, Bool.or_false, Bool.false_eq_true, if_false]
  rfl

theorem Forbidden.issueHint_eq (h : Forbidden s i sub) (g : Hint) : issueHint i g s = .next (illegalTrap s i sub) := by
  obtain ⟨hissues, halone, huntimed, hbad, -⟩ := h
  simp only [issueHint, hissues, fwdFull_of_alone halone, huntimed, hbad, Option.isSome_none, Bool.not_true, Bool.or_false, Bool.false_eq_true, if_false]
  rfl

theorem Forbidden.solo_eq (h : Forbidden s i sub) (f : State → Out) : solo f s = f s := by
  unfold solo
  rw [h.alone, Option.isSome_none, Bool.and_false]
  rfl

theorem Forbidden.issue (h : Forbidden s i sub) (eff : Ctx → DM Next) : Refuses s i sub (issue i eff s) := ⟨_, h.issue_eq eff, h.refusal⟩

theorem Forbidden.issueHint (h : Forbidden s i sub) (g : Hint) : Refuses s i sub (issueHint i g s) := ⟨_, h.issueHint_eq g, h.refusal⟩

/-- A barrier word clears its stream's mark of a safe point (R325). -/
theorem Forbidden.issueBar (h : Forbidden s i sub) (eff : Ctx → DM Next) : Refuses s i sub (issueBar i eff s) := by
  unfold Machine.issueBar
  rw [h.issue_eq]
  refine ⟨_, rfl, ?_⟩
  split
  · exact h.refusal.modCore fun _ => rfl
  · exact h.refusal

/-- A timetable word clears its stream's mark of a wait (R60). -/
theorem Forbidden.issueTimed (h : Forbidden s i sub) (eff : Ctx → DM Next) : Refuses s i sub (issueTimed i eff s) := by
  unfold Machine.issueTimed
  rw [h.issue_eq]
  exact ⟨_, rfl, h.refusal.modCore fun _ => rfl⟩

/-- A runner's word may announce that its core waits (R345). -/
theorem Forbidden.runnerWord (h : Forbidden s i sub) (eff : Ctx → DM Next) : Refuses s i sub (runnerWord (solo (Machine.issue i eff)) s) := by
  unfold Machine.runnerWord
  rw [h.solo_eq, h.issue_eq]
  dsimp only
  split
  · refine ⟨_, rfl, ?_⟩
    split
    · exact h.refusal.post _
    · exact h.refusal
  · exact ⟨_, rfl, h.refusal⟩

end

/-- SLEEP may set its timeout (R88). -/
theorem Forbidden.sleep {s : State} {sub : Nat} {n : BitVec 3} {d x t : BitVec 5} (h : Forbidden s (.sleep n d x t) sub) :
    Refuses s (.sleep n d x t) sub (execSleep n d x t s) := by
  unfold execSleep
  rw [h.solo_eq]
  dsimp only
  rw [issueC, h.issue_eq]
  refine ⟨_, rfl, ?_⟩
  split
  · exact h.refusal.post _
  · exact h.refusal

/-- HALT ends a core whose streams have halted (R415), and the word's own stream has not. -/
theorem Forbidden.halt {s : State} {sub : Nat} {n : BitVec 3} (h : Forbidden s (.halt n) sub) : Refuses s (.halt n) sub (execHalt n s) := by
  unfold execHalt
  rw [h.solo_eq]
  dsimp only
  rw [issueU, issueC, h.issue_eq]
  refine ⟨_, congrArg Host.Outcome.next (if_neg ?_), h.refusal⟩
  rintro ⟨-, ha, he⟩
  have hh := h.refusal.halted
  cases hst : s.strm with
  | a => rw [hst] at hh; exact absurd (ha.symm.trans hh) (by decide)
  | e => rw [hst] at hh; exact absurd (he.symm.trans hh) (by decide)

/-- GANG lets a gang go on once its leader has completed (R330), and there is none. -/
theorem Forbidden.gangWord {s : State} {sub : Nat} {d x : BitVec 5} (h : Forbidden s (.gang d x) sub) : Refuses s (.gang d x) sub (execGang d x s) := by
  unfold execGang
  dsimp only
  rw [h.issue_eq]
  refine ⟨_, ?_, h.refusal⟩
  dsimp only
  rw [h.refusal.gang, Bool.and_false]
  rfl

/-- UNGANG disbands a gang (R333), and there is none. -/
theorem Forbidden.ungang {s : State} {sub : Nat} {n : BitVec 3} {d : BitVec 5} (h : Forbidden s (.ungang n d) sub) :
    Refuses s (.ungang n d) sub (execUngang n d s) := by
  unfold execUngang
  dsimp only
  rw [h.alone]
  exact h.issue _

/-- XEND traps once more for a parity failure that it has taken over (R313), and it has taken none. -/
theorem Forbidden.xend {s : State} {sub : Nat} {d : BitVec 5} (h : Forbidden s (.xend d) sub) : Refuses s (.xend d) sub (execXend d s) := by
  unfold execXend
  dsimp only
  rw [issueC, h.issue_eq]
  refine ⟨_, ?_, h.refusal⟩
  dsimp only
  rw [h.refusal.xpar, Bool.and_not_self]
  rfl

/-- A word that is illegal where it stands traps, whichever it is, and nothing else happens. -/
theorem exec_refuses {s : State} {i : Instr} {sub : Nat} (h : Forbidden s i sub) (hw : encode i ≠ none) : Refuses s i sub (exec i s) := by
  cases i
  case tgt | imm | live | jtab | mod | sched | xt => exact h.issueHint _
  case bar | barx | phase => exact h.issueBar _
  case xmit | xsel => exact h.issueTimed _
  case await | yield | retire | retireCancel => exact h.runnerWord _
  case sleep => exact h.sleep
  case halt => exact h.halt
  case gang => exact h.gangWord
  case ungang => exact h.ungang
  case xend => exact h.xend
  -- every other word issues with nothing around it
  any_goals exact h.issue _
  -- and what is left is a step of the device, which has no word
  all_goals exact absurd rfl hw

/-- Settles O4: every word checks its legality before its effect, and what an instruction does after it undoes nothing of the trap. -/
theorem illegalWordsTrap : Obligations.IllegalWordsTrap := by
  intro s i w sub hw hissues halone huntimed hbad ht
  obtain ⟨t, hexec, h⟩ := exec_refuses ⟨hissues, halone, huntimed, hbad, ht⟩ (by rw [hw]; exact Option.some_ne_none w)
  refine ⟨t, hexec, h.only, h.effect, ?_⟩
  have htrap := h.trap
  rw [hw] at htrap
  exact htrap

/-! ### Privileged words (R402) -/

/-- A privileged word at user level is illegal, with subcode 3 if no subcode before it applies (R54). -/
theorem illegal_of_privileged {st : Strm} {hs : List Hint} {i : Instr} (hp : privileged i = true) (h : illegal st true hs i ∉ [some 0, some 1, some 2]) :
    illegal st true hs i = some 3 := by
  unfold illegal at h ⊢
  rw [hp, Bool.and_self, if_pos rfl] at h ⊢
  split_ifs at h ⊢
  · exact absurd (by decide) h
  · exact absurd (by decide) h
  · exact absurd (by decide) h
  · rfl

/-- The registers that only system level may name (R402). -/
theorem sysOnly_of_mem : ∀ r ∈ [0x010#12, 0x600#12, 0x602#12, 0x604#12, 0x610#12, 0x611#12, 0x612#12, 0x613#12, 0x702#12], sysOnly r = true := by
  rw [← List.all_eq_true]
  decide

/-- Settles O5: each of the words is privileged, so that it is an illegal word with subcode 3. -/
theorem privilegedWordsTrap : Obligations.PrivilegedWordsTrap := by
  intro s n k a r i hi hissues halone huntimed hlvl ht hfirst
  have hp : privileged i = true ∧ encode i ≠ none := by
    obtain rfl | rfl | rfl | ⟨rfl | rfl, hr⟩ := hi
    · exact ⟨rfl, Option.some_ne_none _⟩
    · exact ⟨rfl, Option.some_ne_none _⟩
    · exact ⟨rfl, Option.some_ne_none _⟩
    · exact ⟨sysOnly_of_mem r hr, Option.some_ne_none _⟩
    · exact ⟨sysOnly_of_mem r hr, Option.some_ne_none _⟩
  have hbad : illegal s.strm (!(s.core s.cur).ctl.lvl) ((s.core s.cur).seq s.strm).hints i = some 3 := by
    rw [hlvl]
    exact illegal_of_privileged hp.1 hfirst
  obtain ⟨t, hexec, h⟩ := exec_refuses ⟨hissues, halone, huntimed, hbad, ht⟩ hp.2
  exact ⟨t, hexec, h.only, h.trap⟩

end Sys2Proof.Slice0
end

section
/-!
SUPPORT. A hint word that issues (R47, R49).
-/

namespace Sys2Proof.Slice0

open Sys2Proof.Machine

theorem exec_eq_issueHint {i : Instr} {h : Hint} (hi : hintOf i = some h) (s : State) : exec i s = issueHint i h s := by
  cases i
  case tgt | imm | live | jtab | mod | sched | xt =>
    obtain rfl := Option.some.inj hi
    rfl
  all_goals exact absurd hi (Option.some_ne_none h).symm

/-- What issuesAlone asks of the state. -/
theorem issuesAlone_iff {s : State} {i : Instr} : issuesAlone s i = true ↔ s.canIssue = true ∧ (s.core s.cur).gang = none ∧ s.inTimetable = none
    ∧ ((s.core s.cur).seq s.strm).jx = false ∧ illegal s.strm (!(s.core s.cur).ctl.lvl) ((s.core s.cur).seq s.strm).hints i = none := by
  simp [issuesAlone, and_assoc]

/-- Outside loops a word ends no body (R78). -/
theorem endCheck_outside {q : Seq} (h : q.loopDepth = 0) (a next : Word) (k : Nat) : endCheck q a next k = (next, false, q) := by
  cases k with
  | zero => rfl
  | succ k =>
    unfold endCheck
    rw [if_pos h]

/-- The stream of a hint word: it has the hint last in its group (R49). -/
def joinHint (q : Seq) (h : Hint) (r : Seq) : Seq := { r with hints := q.hints ++ [h], group := q.groupStart }

/-- The group's first address is data of a stream, and its hints are none. -/
theorem modSeq_joinHint_data (c : Core) (st : Strm) (q : Seq) (h : Hint) :
    (c.modSeq st (joinHint q h)).data st = (c.data st).modSeq st fun r => { r with group := q.groupStart } := by
  cases st <;> rfl

theorem modSeq_group_data (c : Core) (st : Strm) (g : Word) :
    (c.modSeq st fun r => { r with group := g }).data st = (c.data st).modSeq st fun r => { r with group := g } := by
  cases st <;> rfl

/-- A hint word that issues alone outside loops: its core's data stays, and its stream goes on with the hint in its group. -/
theorem issueHint_joins {s : State} {i : Instr} {h : Hint} (ha : issuesAlone s i = true) (hl : ((s.core s.cur).seq s.strm).loopDepth = 0) :
    ∃ d, issueHint i h s = .next (s.setCore s.cur (d.modSeq s.strm (joinHint ((s.core s.cur).seq s.strm) h)))
      ∧ Core.sameData s.strm d (s.core s.cur) ∧ (d.seq s.strm).pc = ((s.core s.cur).seq s.strm).pc + 4 := by
  obtain ⟨hissues, halone, huntimed, -, hlegal⟩ := issuesAlone_iff.mp ha
  have hrun : (s.core s.cur).run ≠ .idle := by
    rw [canIssue_run hissues]
    decide
  have hself : (s.setCore s.cur (s.core s.cur)).core s.cur = s.core s.cur := s.setCore_core_self s.cur hrun
  obtain ⟨d, hcommit, hdata, hseq, -⟩ := commit_alone (s := s.setCore s.cur (s.core s.cur)) (x := s.ctx) i 0 (s.ctx.pc + 4) true
    ((congrArg Core.gang hself).trans halone) ((congrArg Core.run hself).trans_ne hrun)
  rw [show s.ctx.core = s.cur from rfl, hself] at hdata hseq
  have hdrun : d.run ≠ .idle := hdata.2.2.trans_ne hrun
  have hpc : (d.seq s.strm).pc = s.ctx.pc + 4 := congrArg Seq.pc hseq
  rw [show s.ctx.core = s.cur from rfl, State.setCore_setCore _ _ hrun hdrun] at hcommit
  refine ⟨d, ?_, hdata, hpc⟩
  have hd : (s.setCore s.cur d).core s.cur = d := s.setCore_core_self s.cur hdrun
  have hjoin : (s.setCore s.cur d).modCore s.cur (fun c => c.modSeq s.strm (joinHint ((s.core s.cur).seq s.strm) h))
      = s.setCore s.cur (d.modSeq s.strm (joinHint ((s.core s.cur).seq s.strm) h)) := by
    unfold State.modCore
    rw [hd, State.setCore_setCore _ _ hdrun (by simpa using hdrun)]
  rw [← hjoin]
  simp only [issueHint, hissues, fwdFull_of_alone halone, huntimed, hlegal, Option.isSome_none, Bool.not_true, Bool.or_false, Bool.false_eq_true, if_false,
    endCheck_outside hl, Core.setSeq_self, Bool.false_and, Bool.false_or]
  rw [show mkCtx s.cur s.strm s ((s.core s.cur).seq s.strm) (s.core s.cur).ctl.fpctl = s.ctx from rfl, hcommit, hd]
  exact if_neg (by rw [hpc]; simp)

/-- Settles O24: outside loops a hint word ends no body, and the stream goes on behind it. -/
theorem hintWordsJoin : Obligations.HintWordsJoin := by
  intro s i h hi ha hl
  obtain ⟨d, hissue, hdata, hpc⟩ := issueHint_joins (h := h) ha hl
  have hrun : (s.core s.cur).run ≠ .idle := by
    rw [canIssue_run (issuesAlone_iff.mp ha).1]
    decide
  have hdrun : (d.modSeq s.strm (joinHint ((s.core s.cur).seq s.strm) h)).run ≠ .idle := by simpa using hdata.2.2.trans_ne hrun
  have hgrun : ((s.core s.cur).modSeq s.strm fun q => { q with group := q.groupStart }).run ≠ .idle := by simpa using hrun
  refine ⟨_, (exec_eq_issueHint hi s).trans hissue, ⟨fun m hm => ?_, rfl, ?_⟩, ?_, ?_⟩
  · rw [s.setCore_core_ne hdrun hm, s.setCore_core_ne hgrun hm]
  · rw [s.setCore_core_self _ hdrun, s.setCore_core_self _ hgrun, modSeq_joinHint_data, hdata.1]
    exact (modSeq_group_data (s.core s.cur) s.strm _).symm
  · rw [s.setCore_core_self _ hdrun]
    simp [joinHint]
  · rw [s.setCore_core_self _ hdrun, ← hpc]
    simp [joinHint]

end Sys2Proof.Slice0
end

section
/-!
SUPPORT. SYSR, SYSW and GETID (R107, R338): a word whose effect is one write of its own core.
-/

namespace Sys2Proof.Machine

/-! ### A result and a system register leave the run state of their core -/

@[simp] theorem Core.setMain_run (c : Core) (st : Strm) (h : Nat) (v : Vec) : (c.setMain st h v).run = c.run := by
  unfold Core.setMain
  split_ifs
  · rfl
  · exact c.modSeq_run st _
  · rfl
  · rfl

@[simp] theorem Core.freeHome_run (c : Core) (st : Strm) (h : Nat) : (c.freeHome st h).run = c.run := c.modSeq_run st _

@[simp] theorem Core.putHome_run (c : Core) (st : Strm) (h : Nat) (v : Vec) : (c.putHome st h v).run = c.run := by
  simp [Core.putHome]

@[simp] theorem Core.putShort_run (c : Core) (st : Strm) (h : Nat) (v : Vec) (cycle : Nat) : (c.putShort st h v cycle).run = c.run := by
  unfold Core.putShort
  split
  · rfl
  · simp

@[simp] theorem Core.resultX_run (c : Core) (x : Ctx) (d : BitVec 5) (v : Word) : (c.resultX x d v).run = c.run := by
  unfold Core.resultX Core.result
  split_ifs
  · rfl
  · simp
  · simp

@[simp] theorem Core.sysPut_run (c : Core) (st : Strm) (r : BitVec 12) (v : Word) (cycle : Nat) : (c.sysPut st r v cycle).run = c.run := by
  unfold Core.sysPut
  simp only [apply_ite Core.run, Core.modSeq_run, ite_self]

@[simp] theorem State.atIssue_run (s : State) : s.atIssue.run = (s.core s.cur).run := Core.modSeq_run _ _ _

/-! ### The law of a word that writes its own core -/

@[simp] theorem State.ctx_core (s : State) : s.ctx.core = s.cur := rfl

theorem State.runs_running {s : State} {i : Instr} {c : Core} (h : s.runs i c = true) : (s.core s.cur).run = .running := by
  simp only [State.runs, State.canIssue, Bool.and_eq_true, beq_iff_eq] at h
  exact h.1.1.1.1.1.1.1.1.1.1.1.1.1.1.1.1

/-- The core in which a word's effect finds its own is the one that the TGT of its group has left. -/
theorem State.setCore_atIssue_core {s : State} (h : (s.core s.cur).run = .running) : (s.setCore s.cur s.atIssue).core s.cur = s.atIssue :=
  s.setCore_core_self s.cur (by rw [State.atIssue_run, h]; decide)

/-- A word at the level of the module whose effect puts its own core as c. -/
theorem issue_setCore_goes {i : Instr} {eff : Ctx → DM Next} {s : State} {c : Core} (hc : c.run = (s.core s.cur).run)
    (hr : s.runs i ((s.setCore s.cur c).core s.cur) = true)
    (he : eff s.ctx (s.setCore s.cur s.atIssue) = .ok (.seq, (s.setCore s.cur s.atIssue).setCore s.cur c)) :
    ∃ t, issue i eff s = .next t ∧ Stepped (s.setCore s.cur c) t s.cur s.strm
      ∧ Goes s.ctx (selector i) (s.atIssue.seq s.strm) ((s.setCore s.cur c).core s.cur) (t.core s.cur) := by
  have hrun := State.runs_running hr
  have hidle : s.atIssue.run ≠ .idle := by rw [State.atIssue_run, hrun]; decide
  rw [State.setCore_setCore s s.cur hidle (by rw [hc, hrun]; decide)] at he
  obtain ⟨t, hissue, hstep, hgoes⟩ := issue_goes hr he (by simp)
  exact ⟨t, hissue, hstep, hgoes rfl⟩

/-- A word within its core whose effect leaves that core as c. -/
theorem issueU_setCore_goes {i : Instr} {eff : Ctx → CM Unit} {s : State} {c : Core} (hc : c.run = (s.core s.cur).run)
    (hr : s.runs i ((s.setCore s.cur c).core s.cur) = true) (he : eff s.ctx s.atIssue = .ok ((), c)) :
    ∃ t, issueU i eff s = .next t ∧ Stepped (s.setCore s.cur c) t s.cur s.strm
      ∧ Goes s.ctx (selector i) (s.atIssue.seq s.strm) ((s.setCore s.cur c).core s.cur) (t.core s.cur) := by
  have hcore : (s.setCore s.cur c).core s.cur = c := s.setCore_core_self s.cur (by rw [hc, State.runs_running hr]; decide)
  rw [hcore] at hr ⊢
  exact issueU_runs hr he

/-! ### The effects of the words -/

/-- A generator that no body holds is free (R117). -/
theorem rngFree_ok {x : Ctx} {c : Core} (h : c.rngHeld = false) : rngFree x c = .ok ((), c) := by
  simp [rngFree, h]

/-- A word of SRSEED goes on once the generator is free, and a word of another register at once. -/
theorem rngFree_seed_then {α : Type} {x : Ctx} {c : Core} {r : BitVec 12} (m : CM α) (h : r = 0x101 → c.rngHeld = false) :
    (if r = 0x101 then rngFree x >>= fun _ => m else m) c = m c := by
  split
  · rw [run_bind, rngFree_ok (h ‹_›)]
  · rfl

theorem sysrM_ok {s : State} {x : Ctx} {r : BitVec 12} {d : BitVec 5} (h : (s.core x.core).settled x.st = true)
    (hflags : r = 0x100 → x.st = .e → (s.core x.core).flagsDone = true) (hrng : r = 0x101 → (s.core x.core).rngHeld = false) :
    sysrM r d x s = .ok (.seq, s.setCore x.core ((s.core x.core).resultX x d (s.sysValue x.core x.st r))) := by
  have hwait : (r == 0x100 && x.st == .e && !(s.core x.core).flagsDone) = false := by
    rw [Bool.and_eq_false_imp]
    intro hre
    simp only [Bool.and_eq_true, beq_iff_eq] at hre
    rw [hflags hre.1 hre.2]
    rfl
  unfold sysrM
  rw [run_bind, run_get]
  dsimp only
  rw [run_bind, onCore_ok]
  · rfl
  · rw [run_bind, run_get]
    dsimp only
    rw [run_bind, stallIf_run, hwait, if_neg Bool.false_ne_true]
    exact (rngFree_seed_then _ hrng).trans <| wrX_settled h d _

theorem syswM_ok {x : Ctx} {c : Core} {r : BitVec 12} {d : BitVec 5} (h : c.settled x.st = true)
    (hquiet : 0x210 ≤ r.toNat → r.toNat ≤ 0x217 → c.ulmQuiet = true) (hmode : r = 0x100 → fpctlBad (c.reg x.st d) = false)
    (hrng : r = 0x101 → c.rngHeld = false) : syswM r d x c = .ok ((), c.sysPut x.st r (c.reg x.st d) x.cycle) := by
  have hwait : (decide (0x210 ≤ r.toNat) && decide (r.toNat ≤ 0x217) && !c.ulmQuiet) = false := by
    rw [Bool.and_eq_false_imp]
    intro hr
    simp only [Bool.and_eq_true, decide_eq_true_eq] at hr
    rw [hquiet hr.1 hr.2]
    rfl
  have hlegal : (r == 0x100 && fpctlBad (c.reg x.st d)) = false := by
    rw [Bool.and_eq_false_imp]
    intro hr
    exact hmode (beq_iff_eq.mp hr)
  unfold syswM
  rw [run_bind, rdX_settled h]
  dsimp only
  rw [run_bind, run_get]
  dsimp only
  rw [run_bind, stallIf_run, hwait, if_neg Bool.false_ne_true]
  refine (rngFree_seed_then _ hrng).trans ?_
  rw [run_bind, raiseIf_run, hlegal, if_neg Bool.false_ne_true]
  rfl

end Sys2Proof.Machine

namespace Sys2Proof.Slice0

open Sys2Proof.Machine

/-- What Effects says of one word: it completes, and its effect leaves the module as s2. -/
def CompletesAs (s : State) (i : Instr) (s2 : State) : Prop :=
  ∃ t, exec i s = .next t ∧ Stepped s2 t s.cur s.strm ∧ Goes s.ctx (selector i) (s.atIssue.seq s.strm) (s2.core s.cur) (t.core s.cur)

/-- SYSR reads its register of the core that the TGT of its group has left. -/
theorem sysr_completes {s s2 : State} {n : BitVec 3} {r : BitVec 12} {d : BitVec 5} (hs : (s.core s.cur).settled s.strm = true)
    (ht : systemWord s s.ctx s.atIssue (.sysr n r d) = some s2) (hr : s.runs (.sysr n r d) (s2.core s.cur) = true) : CompletesAs s (.sysr n r d) s2 := by
  obtain ⟨hready, hs2⟩ := ite_none ht
  obtain rfl := Option.some.inj hs2
  push Not at hready
  have hcore := State.setCore_atIssue_core (State.runs_running hr)
  have heff := sysrM_ok (s := s.setCore s.cur s.atIssue) (x := s.ctx) (r := r) (d := d)
    (by rw [State.ctx_core, hcore]; exact State.atIssue_settled hs)
    (by rw [State.ctx_core, hcore]; simpa using hready.1)
    (by rw [State.ctx_core, hcore]; simpa using hready.2)
  rw [State.ctx_core, hcore] at heff
  exact issue_setCore_goes (by simp) hr heff

theorem sysw_completes {s s2 : State} {n : BitVec 3} {r : BitVec 12} {d : BitVec 5} (hs : (s.core s.cur).settled s.strm = true)
    (ht : systemWord s s.ctx s.atIssue (.sysw n r d) = some s2) (hr : s.runs (.sysw n r d) (s2.core s.cur) = true) : CompletesAs s (.sysw n r d) s2 := by
  obtain ⟨hquiet, ht⟩ := ite_none ht
  obtain ⟨hmode, ht⟩ := ite_none ht
  obtain ⟨hrng, ht⟩ := ite_none ht
  obtain rfl := Option.some.inj ht
  refine issueU_setCore_goes (by simp) hr (syswM_ok (State.atIssue_settled hs) (fun hlo hhi => ?_) (fun hr => ?_) fun hr => ?_)
  · simpa using fun h => hquiet ⟨hlo, hhi, h⟩
  · exact decide_eq_false fun h => hmode ⟨hr, h⟩
  · simpa using fun h => hrng ⟨hr, h⟩

theorem getid_completes {s s2 : State} {n : BitVec 3} {d k : BitVec 5} (hs : (s.core s.cur).settled s.strm = true)
    (ht : systemWord s s.ctx s.atIssue (.getid n d k) = some s2) (hr : s.runs (.getid n d k) (s2.core s.cur) = true) : CompletesAs s (.getid n d k) s2 := by
  obtain rfl := Option.some.inj ht
  have hcore := State.setCore_atIssue_core (State.runs_running hr)
  refine issue_setCore_goes (by simp) hr ?_
  rw [run_bind, run_get]
  dsimp only
  rw [run_bind, onCore_ok (by rw [State.ctx_core, hcore]; exact wrX_settled (State.atIssue_settled hs) d _)]
  rfl

/-- Settles O30: each of the three words has its effect in one write of its own core, made where the register waits for nothing. -/
theorem systemWords : Obligations.SystemWords := by
  intro s i s2 hs ht hr
  cases i
  case sysr n r d => exact sysr_completes hs ht hr
  case sysw n r d => exact sysw_completes hs ht hr
  case getid n d k => exact getid_completes hs ht hr
  all_goals exact absurd ht (Option.some_ne_none s2).symm

end Sys2Proof.Slice0
end

section
/-!
SUPPORT. Loads and stores of ULM (R157, R158), bit fields (R161), and SPILL and FILL (R92, R93) on a settled core: each step of a word whose bytes are
in range, aligned, free of older commands and without error.
-/

namespace Sys2Proof.Machine

open Slice0 (address canRead canWrite readUlm wroteUlm bitField fieldIn bitMoved)

/-! ### Accesses that nothing holds up -/

/-- A check that finds nothing. -/
theorem raiseIf_then {α : Type} {b : Bool} {k sub : Nat} {a i : Word} {c : Core} (h : b = false) (m : Unit → CM α) :
    (raiseIf b k sub a i >>= m) c = m () c := by
  rw [h]
  rfl

/-- A wait for nothing. -/
theorem stallIf_then {α : Type} {b : Bool} {c : Core} (h : b = false) (m : Unit → CM α) : (stallIf b >>= m) c = m () c := by
  rw [h]
  rfl

@[simp] theorem toBytes_length (n v : Nat) : (toBytes n v).length = n := by
  induction n generalizing v with
  | zero => rfl
  | succ n ih => rw [toBytes, List.length_cons, ih]

theorem canRead_iff {c : Core} {a : Word} {n : Nat} : canRead c a n = true ↔
    a.toNat % n = 0 ∧ a.toNat + n ≤ Config.ulmBytes ∧ readBlocked c.cmds a.toNat n = false ∧ c.ulmError a.toNat n = none := by
  simp [canRead, and_assoc]

theorem canWrite_iff {c : Core} {a : Word} {n : Nat} : canWrite c a n = true ↔
    a.toNat % n = 0 ∧ a.toNat + n ≤ Config.ulmBytes ∧ writeBlocked c.cmds a.toNat n = false ∧ c.keepError a.toNat n = none := by
  simp [canWrite, and_assoc]

theorem rdUlm_ok {c : Core} {a n : Nat} (hfree : readBlocked c.cmds a n = false) (herr : c.ulmError a n = none) :
    rdUlm a n c = .ok (c.ulmBytes a n, c) := by
  simp [rdUlm, hfree, herr, raiseError]

theorem wrUlm_ok {c : Core} {a : Nat} {bs : List Byte} (hfree : writeBlocked c.cmds a bs.length = false) (herr : c.keepError a bs.length = none) :
    wrUlm a bs c = .ok ((), c.landUlm a bs) := by
  simp [wrUlm, hfree, herr, raiseError]

/-- The address of an M-format word, aligned and in range. -/
theorem memOp_ok {x : Ctx} {c : Core} {b : BitVec 5} {z : BitVec 2} {o : BitVec 11} {n : Nat} (h : c.settled x.st = true)
    (halign : (address x c b z o).toNat % n = 0) (hrange : (address x c b z o).toNat + n ≤ Config.ulmBytes) :
    memOp b z o n x c = .ok ((address x c b z o).toNat, c) := by
  have haddr : memAddr x b z o c = .ok (address x c b z o, c) := by
    rw [memAddr, run_bind, rdX_settled h]
    rfl
  have hcheck : checkUlm (address x c b z o) n c = .ok ((), c) := by
    simp [checkUlm, halign, Nat.not_lt.mpr hrange]
  rw [memOp, run_bind, haddr]
  dsimp only
  rw [run_bind, hcheck]
  rfl

/-- A load's access: the address, and then the bytes. -/
theorem memOp_rdUlm {α : Type} {x : Ctx} {c : Core} {b : BitVec 5} {z : BitVec 2} {o : BitVec 11} {n : Nat} (m : List Byte → CM α)
    (h : c.settled x.st = true) (hread : canRead c (address x c b z o) n = true) :
    (do let a ← memOp b z o n x; let bs ← rdUlm a n; m bs) c = m (c.ulmBytes (address x c b z o).toNat n) c := by
  obtain ⟨halign, hrange, hfree, herr⟩ := canRead_iff.mp hread
  rw [run_bind, memOp_ok h halign hrange]
  dsimp only
  rw [run_bind, rdUlm_ok hfree herr]

/-- A store's access: the address, and then the write. -/
theorem memOp_wrUlm {x : Ctx} {c : Core} {b : BitVec 5} {z : BitVec 2} {o : BitVec 11} {n v : Nat}
    (h : c.settled x.st = true) (hwrite : canWrite c (address x c b z o) n = true) :
    (do let a ← memOp b z o n x; wrUlm a (toBytes n v)) c = .ok ((), wroteUlm c (address x c b z o) n v) := by
  obtain ⟨halign, hrange, hfree, herr⟩ := canWrite_iff.mp hwrite
  rw [run_bind, memOp_ok h halign hrange]
  exact wrUlm_ok (by rwa [toBytes_length]) (by rwa [toBytes_length])

theorem loadM_ok {x : Ctx} {c : Core} {ext : Nat → Nat → Word} {d b : BitVec 5} {z : BitVec 2} {o : BitVec 11} (h : c.settled x.st = true)
    (hread : canRead c (address x c b z o) (2 ^ z.toNat) = true) :
    loadM ext d b z o x c = .ok ((), c.resultX x d (ext (8 * 2 ^ z.toNat) (readUlm c (address x c b z o) (2 ^ z.toNat)))) :=
  (memOp_rdUlm _ h hread).trans (wrX_settled h d _)

/-! ### Entries of the vector queues -/

/-- The core with a row pushed into vldq; one towards a halted E-stream is discarded (R83, R158). -/
def Core.pushedRow (c : Core) (v : Vec) : Option Core :=
  if c.e.halted then some c
  else if c.q.vldq.length < 8 then some { c with q := { c.q with vldq := c.q.vldq ++ [v] } }
  else none

theorem pushVldq_ok {c c1 : Core} {v : Vec} (h : c.pushedRow v = some c1) : pushVldq v c = .ok ((), c1) := by
  unfold Core.pushedRow at h
  unfold pushVldq
  rw [run_bind, run_get]
  dsimp only
  split at h
  · rename_i hhalt
    rw [if_pos hhalt, ← Option.some.inj h]
    rfl
  · rename_i hhalt
    split at h
    · rw [if_neg hhalt, if_neg (by omega), ← Option.some.inj h]
      rfl
    · cases h

/-- Whether there is room for a row does not depend on the row. -/
theorem Core.pushedRow_room {c c1 : Core} {v : Vec} (w : Vec) (h : c.pushedRow v = some c1) : ∃ c2, c.pushedRow w = some c2 := by
  unfold Core.pushedRow at h ⊢
  split_ifs at h ⊢
  · exact ⟨_, rfl⟩
  · exact ⟨_, rfl⟩

/-- The same for an entry of the data queue. -/
theorem Core.push_room {c c1 : Core} {st : Strm} {v : Option Word} (w : Option Word) (h : c.push st v = some c1) : ∃ c2, c.push st w = some c2 := by
  unfold Core.push at h ⊢
  cases st <;> dsimp only at h ⊢ <;> split_ifs at h ⊢ <;> exact ⟨_, rfl⟩

theorem popVstq_ok {c : Core} {v : Vec} {r : List VSlot} (h : c.q.vstq = .row v :: r) : popVstq c = .ok (v, { c with q := { c.q with vstq := r } }) := by
  simp [popVstq, h]

/-- The pop of STQ is the pop of a word's first source. -/
theorem popData_source {x : Ctx} {c c1 : Core} {v : Word} (h : c.settled x.st = true) (hs : c.source x.st 1 0 = some (v, c1)) :
    popData x c = .ok (v, c1) :=
  rdSrc_source h hs

/-! ### Bit fields (R161) -/

theorem bitOp_ok {x : Ctx} {c : Core} {b w : BitVec 5} (h : c.settled x.st = true) (hin : fieldIn (bitField x c b w) = true) :
    bitOp b w x c = .ok (bitField x c b w, c) := by
  have hrange : (decide (0 < (bitField x c b w).2) && decide (ulmBits < (bitField x c b w).1 + (bitField x c b w).2)) = false := by
    simp only [fieldIn, Bool.or_eq_true, beq_iff_eq, decide_eq_true_eq] at hin
    rw [Bool.and_eq_false_imp, decide_eq_true_eq]
    exact fun hpos => decide_eq_false (by unfold ulmBits; omega)
  unfold bitOp
  rw [run_bind, rdX_settled h]
  dsimp only
  rw [run_bind, run_get]
  dsimp only
  exact (raiseIf_then hrange _).trans rfl

theorem bitPost_run (p : BitVec 1) (b : BitVec 5) (f : Nat × Nat) (c : Core) : bitPost p b f.1 f.2 c = .ok ((), bitMoved c p b f) := by
  unfold bitPost bitMoved
  split <;> rfl

/-- The bytes that a bit field touches can be read now (R151, R161, R247). -/
structure FieldReads (c : Core) (f : Nat × Nat) : Prop where
  inside : fieldIn f = true
  free : readBlocked c.cmds (f.1 / 8) (bitSpan f.1 f.2) = false
  clean : c.ulmError (f.1 / 8) (bitSpan f.1 f.2) = none

theorem fieldReads_iff {c : Core} {f : Nat × Nat} :
    (fieldIn f && !readBlocked c.cmds (f.1 / 8) (bitSpan f.1 f.2) && (c.ulmError (f.1 / 8) (bitSpan f.1 f.2)).isNone) = true ↔ FieldReads c f := by
  simp only [Bool.and_eq_true, Bool.not_eq_true', Option.isNone_iff_eq_none]
  exact ⟨fun ⟨⟨hin, hfree⟩, herr⟩ => ⟨hin, hfree, herr⟩, fun ⟨hin, hfree, herr⟩ => ⟨⟨hin, hfree⟩, herr⟩⟩

/-- The value of a bit field of ULM (R161). -/
def Core.field (c : Core) (f : Nat × Nat) : Nat := leNat (c.ulmBytes (f.1 / 8) (bitSpan f.1 f.2)) / 2 ^ (f.1 % 8) % 2 ^ f.2

theorem loadBits_ok {x : Ctx} {c : Core} (signed : Bool) (d : BitVec 5) {b w : BitVec 5} (p : BitVec 1) (h : c.settled x.st = true)
    (hread : FieldReads c (bitField x c b w)) :
    loadBits signed d b w p x c = .ok ((), bitMoved (c.resultX x d
      (if signed then BitVec.ofInt 64 (sextNat (bitField x c b w).2 (c.field (bitField x c b w))) else BitVec.ofNat 64 (c.field (bitField x c b w))))
      p b (bitField x c b w)) := by
  unfold loadBits
  rw [run_bind, bitOp_ok h hread.inside]
  dsimp only
  rw [run_bind, rdUlm_ok hread.free hread.clean]
  dsimp only
  rw [run_bind, wrX_settled h]
  exact bitPost_run _ _ _ _

/-! ### A landing write leaves the rest of its core -/

theorem Core.putUlm_eq (c : Core) (a : Nat) (bs : List Byte) : ∃ u, c.putUlm a bs = { c with ulm := u } := by
  induction bs generalizing c a with
  | nil => exact ⟨c.ulm, rfl⟩
  | cons b bs ih =>
    obtain ⟨u, h⟩ := ih { c with ulm := Store.set 0 c.ulm (c.phys a) b } (a + 1)
    exact ⟨u, h⟩

/-- A write that lands changes ULM and the marks of its errors (R151, R434). -/
theorem Core.landUlm_eq (c : Core) (a : Nat) (bs : List Byte) :
    ∃ u ws gs, c.landUlm a bs = { c with ulm := u, ulmBad := ws, ulmChk := gs } := by
  obtain ⟨u, h⟩ := c.putUlm_eq a bs
  unfold Core.landUlm Core.clean
  rw [h]
  split
  · exact ⟨u, c.ulmBad, c.ulmChk, rfl⟩
  · exact ⟨u, _, _, rfl⟩

@[simp] theorem Core.landUlm_seq (c : Core) (a : Nat) (bs : List Byte) (st : Strm) : (c.landUlm a bs).seq st = c.seq st := by
  obtain ⟨u, ws, gs, h⟩ := c.landUlm_eq a bs
  rw [h]
  cases st <;> rfl

/-! ### The register stack (R93) -/

theorem Core.modSeq_congr {c : Core} {st : Strm} {f g : Seq → Seq} (h : f (c.seq st) = g (c.seq st)) : c.modSeq st f = c.modSeq st g :=
  congrArg (c.setSeq st) h

/-- The address of a slot is a multiple of 8, and its 136 bytes lie in ULM (R93). -/
def SlotFits (c : Core) (st : Strm) (a : BitVec 5) : Prop := ¬ ((c.reg st a).toNat % 8 ≠ 0 ∨ Config.ulmBytes < (c.reg st a).toNat + 136)

theorem slotAddr_ok {x : Ctx} {c : Core} {a : BitVec 5} (h : c.settled x.st = true)
    (hfit : SlotFits c x.st a) :
    slotAddr a x c = .ok ((c.reg x.st a).toNat, c) := by
  obtain ⟨halign, hrange⟩ := not_or.mp hfit
  rw [not_not] at halign
  rw [slotAddr, run_bind, rdX_settled h]
  exact (raiseIf_then (by rw [halign]; rfl) _).trans ((raiseIf_then (decide_eq_false hrange) _).trans rfl)

theorem Seq.slotBytes_length (q : Seq) (slot : BitVec 5) : (q.slotBytes slot).length = 136 := by
  simp [Seq.slotBytes, List.length_flatMap]

/-- A slot that is spilled leaves a settled stream's list of expired registers as it was: empty. -/
theorem spillM_ok {x : Ctx} {c : Core} {a : BitVec 5} (h : c.settled x.st = true)
    (hfit : SlotFits c x.st a) (hslot : (c.seq x.st).old ≠ (c.seq x.st).cur)
    (hfree : writeBlocked c.cmds (c.reg x.st a).toNat 136 = false) (herr : c.keepError (c.reg x.st a).toNat 136 = none) :
    spillM a x c = .ok ((), (c.landUlm (c.reg x.st a).toNat ((c.seq x.st).slotBytes (c.seq x.st).old)).modSeq x.st fun r => { r with old := r.old + 1 }) := by
  obtain ⟨hpend, hpunty, hexp, -, hbad, -⟩ := Core.settled_iff.mp h
  rw [spillM, run_bind, slotAddr_ok h hfit]
  dsimp only
  rw [run_bind, run_get]
  dsimp only
  rw [if_neg hslot]
  refine (stallIf_then (by simp [hpend, hpunty]) _).trans ((raiseIf_then (by simp [hbad]) _).trans ?_)
  rw [run_bind, wrUlm_ok (by rwa [Seq.slotBytes_length]) (by rwa [Seq.slotBytes_length])]
  refine congrArg (fun c => Except.ok ((), c)) (Core.modSeq_congr ?_)
  simp [hexp]

/-- Without a slot to spill nothing moves. -/
theorem spillM_idle {x : Ctx} {c : Core} {a : BitVec 5} (h : c.settled x.st = true) (hfit : SlotFits c x.st a)
    (hslot : (c.seq x.st).old = (c.seq x.st).cur) : spillM a x c = .ok ((), c) := by
  rw [spillM, run_bind, slotAddr_ok h hfit]
  exact congrFun (if_pos hslot) c

theorem fillM_ok {x : Ctx} {c : Core} {a : BitVec 5} (h : c.settled x.st = true)
    (hfit : SlotFits c x.st a) (hslot : (c.seq x.st).old - 1 ≠ (c.seq x.st).cur + 1)
    (hfree : readBlocked c.cmds (c.reg x.st a).toNat 136 = false) (herr : c.ulmError (c.reg x.st a).toNat 136 = none) :
    fillM a x c = .ok ((), (c.fillSlot x.st ((c.seq x.st).old - 1) (c.ulmBytes (c.reg x.st a).toNat 136)).modSeq x.st fun r =>
        { r with links := Store.set 0 r.links ((c.seq x.st).old - 1).toNat (BitVec.ofNat 64 (leNat ((c.ulmBytes (c.reg x.st a).toNat 136).drop 128)))
                 old := (c.seq x.st).old - 1 }) := by
  rw [fillM, run_bind, slotAddr_ok h hfit]
  dsimp only
  rw [run_bind, run_get]
  dsimp only
  rw [if_neg hslot, run_bind, rdUlm_ok hfree herr]
  rfl

/-- Without a free slot nothing moves. -/
theorem fillM_idle {x : Ctx} {c : Core} {a : BitVec 5} (h : c.settled x.st = true) (hfit : SlotFits c x.st a)
    (hslot : (c.seq x.st).old - 1 = (c.seq x.st).cur + 1) : fillM a x c = .ok ((), c) := by
  rw [fillM, run_bind, slotAddr_ok h hfit]
  exact congrFun (if_pos hslot) c

end Sys2Proof.Machine

namespace Sys2Proof.Slice0

open Sys2Proof.Machine

/-- A table that gives a state under a guard. -/
theorem guard_some {α : Type} {p : Prop} [Decidable p] {a : Option α} {c : α} (h : (if p then a else none) = some c) : p ∧ a = some c := by
  split at h
  · exact ⟨‹p›, h⟩
  · cases h

/-- The loads, stores, queue words and bit fields of ULM, each through its own access: the queue's room, the address, the bytes, the result. -/
theorem memWords : Completes id memWord := by
  intro s i c hs ht hr
  have h := State.atIssue_settled hs
  cases i
  case ldS n d b z o =>
    obtain ⟨hread, hc⟩ := guard_some ht
    obtain rfl := Option.some.inj hc
    exact issueU_runs hr (loadM_ok h hread)
  case ldZ n d b z o =>
    obtain ⟨hread, hc⟩ := guard_some ht
    obtain rfl := Option.some.inj hc
    exact issueU_runs hr (loadM_ok h hread)
  case st n d b z o =>
    obtain ⟨hwrite, hc⟩ := guard_some ht
    obtain rfl := Option.some.inj hc
    refine issueU_runs hr ?_
    rw [run_bind, rdX_settled h]
    exact memOp_wrUlm h hwrite
  case ldq n b z o =>
    obtain ⟨hread, hpush⟩ := guard_some ht
    obtain ⟨c1, hroom⟩ := Core.push_room none hpush
    refine issueU_runs hr ?_
    rw [run_bind, room_ok (pushData_push hroom)]
    exact (memOp_rdUlm _ h hread).trans (pushData_push hpush)
  case stq n b z o =>
    obtain ⟨hwrite, hc⟩ := guard_some ht
    obtain ⟨⟨v, c1⟩, hsource, rfl⟩ := Option.map_eq_some_iff.mp hc
    obtain ⟨u, rfl⟩ := Core.source_only hsource
    refine issueU_runs hr ?_
    rw [run_bind, popData_source h hsource]
    exact memOp_wrUlm (Core.source_settled h hsource) hwrite
  case vldq n b o =>
    obtain ⟨hread, hpush⟩ := guard_some ht
    obtain ⟨c1, hroom⟩ := Core.pushedRow_room 0 hpush
    refine issueU_runs hr ?_
    rw [run_bind, room_ok (pushVldq_ok hroom)]
    exact (memOp_rdUlm _ h hread).trans (pushVldq_ok hpush)
  case vstq n b o =>
    dsimp only [memWord] at ht
    split at ht
    · rename_i v r hq
      obtain ⟨hwrite, hc⟩ := guard_some ht
      obtain rfl := Option.some.inj hc
      refine issueU_runs hr ?_
      rw [run_bind, popVstq_ok hq]
      exact memOp_wrUlm h hwrite
    · cases ht
  case ldb n d b w p =>
    obtain ⟨hread, hc⟩ := guard_some ht
    obtain rfl := Option.some.inj hc
    exact issueU_runs hr (loadBits_ok false d p h (fieldReads_iff.mp hread))
  case ldbS64 n d b w p =>
    obtain ⟨hread, hc⟩ := guard_some ht
    obtain rfl := Option.some.inj hc
    exact issueU_runs hr (loadBits_ok true d p h (fieldReads_iff.mp hread))
  case stb n b a w p =>
    obtain ⟨hwrite, hc⟩ := guard_some ht
    obtain rfl := Option.some.inj hc
    simp only [Bool.and_eq_true, Bool.not_eq_true', Option.isNone_iff_eq_none] at hwrite
    obtain ⟨⟨hin, hfree⟩, herr⟩ := hwrite
    refine issueU_runs hr ?_
    rw [run_bind, rdX_settled h]
    dsimp only
    rw [run_bind, bitOp_ok h hin]
    dsimp only
    rw [run_bind, run_get]
    dsimp only
    rw [run_bind, wrUlm_ok (by rwa [toBytes_length]) (by rwa [toBytes_length])]
    exact bitPost_run _ _ _ _
  all_goals exact absurd ht (Option.some_ne_none c).symm

/-- SPILL and FILL: one slot of the register stack, or none where there is none to move. -/
theorem stackWords : Completes id stackWord := by
  intro s i c hs ht hr
  have h := State.atIssue_settled hs
  cases i
  case spill n a =>
    obtain ⟨hfit, ht⟩ := ite_none ht
    by_cases hslot : (s.atIssue.seq s.strm).old = (s.atIssue.seq s.strm).cur
    · obtain rfl := Option.some.inj ((if_pos hslot).symm.trans ht)
      exact issueU_runs hr (spillM_idle h hfit hslot)
    · obtain ⟨hwrite, hc⟩ := guard_some ((if_neg hslot).symm.trans ht)
      obtain rfl := Option.some.inj hc
      simp only [Bool.and_eq_true, Bool.not_eq_true', Option.isNone_iff_eq_none] at hwrite
      obtain ⟨hfree, herr⟩ := hwrite
      exact issueU_runs hr (spillM_ok h hfit hslot hfree herr)
  case fill n a =>
    obtain ⟨hfit, ht⟩ := ite_none ht
    by_cases hslot : (s.atIssue.seq s.strm).old - 1 = (s.atIssue.seq s.strm).cur + 1
    · obtain rfl := Option.some.inj ((if_pos hslot).symm.trans ht)
      exact issueU_runs hr (fillM_idle h hfit hslot)
    · obtain ⟨hread, hc⟩ := guard_some ((if_neg hslot).symm.trans ht)
      obtain rfl := Option.some.inj hc
      simp only [Bool.and_eq_true, Bool.not_eq_true', Option.isNone_iff_eq_none] at hread
      obtain ⟨hfree, herr⟩ := hread
      exact issueU_runs hr (fillM_ok h hfit hslot hfree herr)
  all_goals exact absurd ht (Option.some_ne_none c).symm

/-- Settles O17: every access goes through its address check, its scoreboard check and its error check, and none of them holds a settled core up. -/
theorem ulmWords : Obligations.UlmWords := ⟨memWords, stackWords⟩

end Sys2Proof.Slice0
end

section
/-!
SUPPORT. The steps of packets (R291 to R299, R305, R306): what a packet does that no core takes, and each step of the network under the conditions that
its table names.
-/

namespace Sys2Proof.Machine

theorem State.packet?_id {s : State} {id : Nat} {p : Packet} (h : s.packet? id = some p) : p.id = id := by
  simpa using List.find?_some h

@[simp] theorem State.setCore_packet? (s : State) (n : Nat) (c : Core) (id : Nat) : (s.setCore n c).packet? id = s.packet? id := rfl

/-! ### Hops (R294, R295) -/

theorem State.hop_delivers {s : State} {p : Packet} (hhome : p.home = true) (hturn : s.granted p 0 = true) :
    s.hop p = ({ s with links := Store.set 0 s.links (linkKey p 0) (p.vc + 1) }.movePacket p.id fun q => { q with vc := 200 }).post p.arrival := by
  rw [State.hop, if_pos hhome, if_pos hturn]

theorem State.hop_moves {s : State} {p : Packet} {d : Dir} {vc : Nat} (haway : p.home = false) (hexit : s.exit p = some (d, vc))
    (hturn : s.granted p d.port = true) :
    s.hop p = ({ s with links := Store.set 0 s.links (linkKey p d.port) (p.vc + 1) }.movePacket p.id fun q =>
      { q with x := d.x, y := d.y, vc := vc }).post p.onward := by
  rw [State.hop, if_neg (by rw [haway]; decide), hexit, Option.filter_some, if_pos hturn]

theorem State.hop_waits {s : State} {p : Packet} (haway : p.home = false) (hexit : s.exit p = none) :
    s.hop p = (if p.vc ≠ 100 ∧ p.vc ≠ 101 ∧ s.relayRoom p.x p.y = true then s.movePacket p.id fun q => { q with vc := 100 } else s).postpone
      (.routerHop p.id) := by
  rw [State.hop, if_neg (by rw [haway]; decide), hexit]
  simp [and_assoc]

/-! ### Landing -/

/-- What becomes of a packet that has reached its destination's site and that no core takes (R296, R297, R316, R384). -/
def State.turnedAway (s : State) (p : Packet) : Option State :=
  match s.landing p with
  | .bad => some (s.lose p)
  | .remap => some (s.refuse p 5 0)
  | .forward => some (s.forward p (s.destSite p))
  | .hold => some (s.movePacket p.id fun q => { q with phase := 6 })
  | .early => some (s.modPacket p.id fun q => { q with phase := 1 })
  | .refused => some (s.refuse p 2 1)
  | .nobody => some (s.nobody p)
  | .at_ _ => none

theorem State.land_turnedAway {s t : State} {p : Packet} (h : s.turnedAway p = some t) (perform : Nat → State) : s.land p perform = t := by
  unfold State.turnedAway at h
  unfold State.land
  cases hl : s.landing p
  case at_ n => simp [hl] at h
  all_goals
    simp only [hl] at h ⊢
    exact Option.some.inj h

theorem State.land_at {s : State} {p : Packet} {n : Nat} (h : s.landing p = .at_ n) (perform : Nat → State) : s.land p perform = perform n := by
  rw [State.land, h]

/-! ### What the network's steps leave of the rest of the module -/

/-- A state without its network: the packets and their numbers, the combining entries, and what is due. -/
def State.offNet (s : State) : State := { s with fresh := 0, packets := [], flows := [], links := [], combs := [], reductions := [], plan := [], later := [] }

/-- What is read of a state beside its network is read of any state that differs in its network alone. -/
theorem State.read_eq_of_offNet {α : Type} {s t : State} (h : t.offNet = s.offNet) (f : State → α) (hf : ∀ u : State, f u.offNet = f u) : f t = f s :=
  (hf t).symm.trans ((congrArg f h).trans (hf s))

@[simp] theorem State.dropPacket_offNet (s : State) (id : Nat) : (s.dropPacket id).offNet = s.offNet := rfl
@[simp] theorem State.modPacket_offNet (s : State) (id : Nat) (f : Packet → Packet) : (s.modPacket id f).offNet = s.offNet := rfl
@[simp] theorem State.enterNet_offNet (s : State) (p : Packet) (first : Nat → Ev) : (s.enterNet p first).offNet = s.offNet := rfl
@[simp] theorem State.answer_offNet (s : State) (p : Packet) (status : Int) : (s.answer p status).offNet = s.offNet := rfl
@[simp] theorem State.refuse_offNet (s : State) (p : Packet) (phase how : Nat) : (s.refuse p phase how).offNet = s.offNet := rfl

@[simp] theorem State.soon_offNet (s : State) (e : Ev) : (s.soon e).offNet = s.offNet := by
  unfold State.soon
  split <;> rfl

@[simp] theorem State.send_offNet (s : State) (k : Send) : (s.send k).offNet = s.offNet := by
  unfold State.send
  split <;> rfl

@[simp] theorem State.advanceFlow_offNet (s : State) (p : Packet) : (s.advanceFlow p).offNet = s.offNet := by
  unfold State.advanceFlow
  split
  · rfl
  · dsimp only
    split <;> rfl

@[simp] theorem State.settle_offNet (s : State) (p : Packet) (status : Int) : (s.settle p status).offNet = s.offNet := by
  simp [State.settle]

@[simp] theorem State.flushComb_offNet (s : State) (e : Comb) : (s.flushComb e).offNet = s.offNet := by
  unfold State.flushComb
  split
  · rfl
  · dsimp only
    split
    · rfl
    · rw [State.enterNet_offNet]
      rfl

@[simp] theorem State.flushCombs_offNet (s : State) (es : List Comb) : (es.foldl State.flushComb s).offNet = s.offNet := by
  induction es generalizing s with
  | nil => rfl
  | cons e es ih => rw [List.foldl_cons, ih, State.flushComb_offNet]

end Sys2Proof.Machine

namespace Sys2Proof.Slice0

open Sys2Proof.Machine

section
variable {s t : State} {p : Packet}

theorem routerHop_happens (hp : s.packet? p.id = some p) (h : networkStep s (.routerHop p.id) = some t) : exec (.routerHop p.id) s = .next t := by
  unfold networkStep at h
  simp only [hp] at h
  obtain ⟨hphase, h⟩ := ite_none h
  rw [not_not] at hphase
  simp only [exec_routerHop, execRouterHop, hp, hphase, ne_eq, not_true, if_false]
  cases hpay : p.pay
  case tree leaves data =>
    simp only [hpay] at h ⊢
    exact congrArg _ (Option.some.inj h)
  all_goals
    simp only [hpay] at h ⊢
    refine congrArg Host.Outcome.next ?_
    by_cases hat : p.x = p.dx ∧ p.y = p.dy
    · obtain ⟨hturn, rfl⟩ := onlyIf_eq ((if_pos hat).symm.trans h)
      exact State.hop_delivers (by simpa [Packet.home] using hat) hturn
    · have haway : p.home = false := by simpa [Packet.home] using hat
      replace h := (if_neg hat).symm.trans h
      split at h
      · obtain ⟨hturn, rfl⟩ := onlyIf_eq h
        exact State.hop_moves haway ‹_› hturn
      · obtain rfl := Option.some.inj h
        exact State.hop_waits haway ‹_›

/-- The payloads that are for a core, and that the packet's landing decides on (R297, R316, R384). -/
def forCore : Payload → Bool
  | .write .. | .read .. | .reply .. | .deposit .. | .notify _ | .result .. => true
  | _ => false

/-- A reply to a command that is no more (R243). -/
def staleReply (s : State) (p : Packet) : Bool :=
  match p.pay with
  | .reply .. => ((s.core (s.siteCore p.dst)).cmd? p.cmd).isNone
  | _ => false

/-- A reply that older accesses of the same bytes hold back (R247). -/
def replyWaits (s : State) (p : Packet) : Bool :=
  match p.pay with
  | .reply a bs => (s.core (s.siteCore p.dst)).engineBlocked p.cmd a bs.length true
  | _ => false

/-- What the table says of a packet for a core that no core takes. -/
theorem networkStep_turnedAway (hp : s.packet? p.id = some p) (hcore : forCore p.pay = true) (hstale : staleReply s p = false)
    (haway : ∀ n, s.landing p ≠ .at_ n) (h : networkStep s (.packetArrival p.id) = some t) :
    p.phase = 0 ∧ replyWaits s p = false ∧ s.turnedAway p = some t := by
  simp only [networkStep, hp] at h
  unfold State.turnedAway
  cases hl : s.landing p
  case at_ n => exact absurd hl (haway n)
  all_goals
    cases hpay : p.pay
    case ack | nack | page | tree | contrib => simp [hpay, forCore] at hcore
    all_goals
      simp only [staleReply, replyWaits, hpay] at hstale ⊢
      simp only [hl, hpay, hstale, Bool.false_eq_true, if_false] at h
      obtain ⟨hfree, rfl⟩ := onlyIf_eq h
      simpa using hfree

/-- What a packet does at the core that takes it: a reply lands, a read is answered, and whatever else is for a core waits for the end of the cycle. -/
def performed (s : State) (p : Packet) (n : Nat) : State :=
  match p.pay with
  | .reply a bs => (landRemote (s.dropPacket p.id) n a bs).2.ack n p.cmd 0 (landRemote (s.dropPacket p.id) n a bs).1 (s.logicalOf p.src) a
  | .read a len back =>
    if ((s.core n).admitting fun w => windowGrants w 62 a len (s.core p.src)).isNone then s.settle p (-1)
    else if ((s.core n).ulmError a len).isSome then s.settle p (-3)
    else (s.dropPacket p.id).send ⟨n, s.logicalOf p.src, p.asid, false, 1, .reply back ((s.core n).ulmBytes a len), p.cmd, n⟩
  | _ => s.movePacket p.id fun q => { q with phase := 7 }

/-- The arrival of a packet for a core is its landing. -/
theorem execPacketArrival_eq_land (hp : s.packet? p.id = some p) (hphase : p.phase = 0) (hcore : forCore p.pay = true)
    (hstale : staleReply s p = false) (hfree : replyWaits s p = false) :
    execPacketArrival p.id s = .next (s.land p (performed s p)) := by
  simp only [execPacketArrival, hp, hphase, ne_eq, not_true, if_false]
  cases hpay : p.pay
  case ack | nack | page | tree | contrib => simp [hpay, forCore] at hcore
  case reply a bs =>
    simp only [staleReply, replyWaits, hpay] at hstale hfree
    simp only [hstale, hfree, Bool.false_eq_true, if_false]
    refine congrArg (fun f => Host.Outcome.next (s.land p f)) (funext fun n => ?_)
    simp only [performed, hpay]
  case read a len back =>
    refine congrArg (fun f => Host.Outcome.next (s.land p f)) (funext fun n => ?_)
    simp only [performed, hpay]
    cases (s.core n).admitting fun w => windowGrants w 62 a len (s.core p.src)
    · rfl
    · cases (s.core n).ulmError a len <;> rfl
  all_goals
    refine congrArg (fun f => Host.Outcome.next (s.land p f)) (funext fun n => ?_)
    simp only [performed, hpay]

/-- What the table says of a packet for a core that core n takes. -/
theorem networkStep_performed {n : Nat} (hp : s.packet? p.id = some p) (hstale : staleReply s p = false) (hl : s.landing p = .at_ n)
    (hcore : forCore p.pay = true) (h : networkStep s (.packetArrival p.id) = some t) :
    p.phase = 0 ∧ replyWaits s p = false ∧ performed s p n = t := by
  simp only [networkStep, hp] at h
  cases hpay : p.pay
  case ack | nack | page | tree | contrib => simp [hpay, forCore] at hcore
  all_goals
    simp only [staleReply, replyWaits, hpay] at hstale ⊢
    simp only [hl, hpay, hstale, Bool.false_eq_true, if_false] at h
  case read a len back =>
    obtain ⟨hphase, h⟩ := ite_none h
    rw [not_not] at hphase
    refine ⟨hphase, trivial, ?_⟩
    simp only [performed, hpay]
    split_ifs at h ⊢
    all_goals exact Option.some.inj h
  case deposit | notify => cases h
  all_goals
    obtain ⟨hfree, rfl⟩ := onlyIf_eq h
    simpa [performed, hpay] using hfree

/-- A packet for a core: it is performed there, or turned away. -/
theorem coreArrival_happens (hp : s.packet? p.id = some p) (hcore : forCore p.pay = true) (hstale : staleReply s p = false)
    (h : networkStep s (.packetArrival p.id) = some t) : execPacketArrival p.id s = .next t := by
  by_cases hl : ∃ n, s.landing p = .at_ n
  · obtain ⟨n, hl⟩ := hl
    obtain ⟨hphase, hfree, rfl⟩ := networkStep_performed hp hstale hl hcore h
    rw [execPacketArrival_eq_land hp hphase hcore hstale hfree, State.land_at hl]
  · obtain ⟨hphase, hfree, haway⟩ := networkStep_turnedAway hp hcore hstale (not_exists.mp hl) h
    rw [execPacketArrival_eq_land hp hphase hcore hstale hfree, State.land_turnedAway haway]

/-- A stale reply lands nothing. -/
theorem staleReply_happens (hp : s.packet? p.id = some p) (hstale : staleReply s p = true)
    (h : networkStep s (.packetArrival p.id) = some t) : execPacketArrival p.id s = .next t := by
  simp only [networkStep, hp] at h
  obtain ⟨hphase, rfl⟩ := onlyIf_eq ((if_pos hstale).symm.trans h)
  unfold staleReply at hstale
  split at hstale
  · rename_i hpay
    simp [execPacketArrival, hp, hpay, hphase, hstale]
  · cases hstale

/-- A response and an access to a page are for the interface of their site, whatever stands there. -/
theorem ack_happens {core who addr : Nat} {st : Int} (hp : s.packet? p.id = some p) (hpay : p.pay = .ack core st who addr)
    (h : networkStep s (.packetArrival p.id) = some t) : execPacketArrival p.id s = .next t := by
  have h : onlyIf (p.phase = 0 ∧ p.bad = false) ((s.dropPacket p.id).ack core p.cmd p.idx st who addr) = some t := by
    cases hl : s.landing p <;> simpa only [networkStep, hp, hpay, hl, Bool.false_eq_true, if_false] using h
  obtain ⟨⟨hphase, hgood⟩, rfl⟩ := onlyIf_eq h
  simp [execPacketArrival, hp, hpay, hphase, hgood]

theorem nack_happens {k how : Nat} {g : BitVec 16} (hp : s.packet? p.id = some p) (hpay : p.pay = .nack k how g)
    (h : networkStep s (.packetArrival p.id) = some t) : execPacketArrival p.id s = .next t := by
  have h : onlyIf (p.phase = 0 ∧ p.bad = false) ((s.dropPacket p.id).nacked k how g) = some t := by
    cases hl : s.landing p <;> simpa only [networkStep, hp, hpay, hl, Bool.false_eq_true, if_false] using h
  obtain ⟨⟨hphase, hgood⟩, rfl⟩ := onlyIf_eq h
  simp [execPacketArrival, hp, hpay, hphase, hgood]

/-- An access to a page, at the page's tile or at one that it has left (R264, R382, R384). -/
theorem page_happens {core cmd page : Nat} (hp : s.packet? p.id = some p) (hpay : p.pay = .page core cmd page)
    (h : networkStep s (.packetArrival p.id) = some t) : execPacketArrival p.id s = .next t := by
  simp only [networkStep, hp, hpay] at h
  have hland : p.phase = 0 ∧ p.bad = false ∧ s.landPage p core cmd page = t := by
    unfold State.landPage
    cases s.landing p <;> simp only [Bool.false_eq_true, if_false] at h
    all_goals
      obtain ⟨⟨hphase, hgood⟩, rfl⟩ := onlyIf_eq h
      refine ⟨hphase, hgood, ?_⟩
      rw [if_neg (by rw [hgood]; decide)]
      cases s.pageTile page with
      | none => simp
      | some tile =>
        cases hhere : (s.tileMap tile).site == p.dy * 48 + p.dx <;> simp [hhere] <;> rfl
  obtain ⟨hphase, -, rfl⟩ := hland
  simp [execPacketArrival, hp, hpay, hphase]

theorem packetArrival_happens (hp : s.packet? p.id = some p) (h : networkStep s (.packetArrival p.id) = some t) :
    exec (.packetArrival p.id) s = .next t := by
  rw [exec_packetArrival]
  cases hpay : p.pay
  case ack => exact ack_happens hp hpay h
  case nack => exact nack_happens hp hpay h
  case page => exact page_happens hp hpay h
  case tree | contrib => cases hl : s.landing p <;> simp [networkStep, hp, hpay, hl] at h
  case reply a bs =>
    cases hstale : staleReply s p
    · exact coreArrival_happens hp (by rw [hpay]; rfl) hstale h
    · exact staleReply_happens hp hstale h
  all_goals exact coreArrival_happens hp (by rw [hpay]; rfl) (by simp [staleReply, hpay]) h

theorem depositArrival_happens (hp : s.packet? p.id = some p) (h : networkStep s (.depositArrival p.id) = some t) :
    exec (.depositArrival p.id) s = .next t := by
  simp only [networkStep, hp] at h
  split at h
  · rename_i n reg v retry own hl hpay
    obtain ⟨hphase, h⟩ := ite_none h
    rw [not_not] at hphase
    simp only [exec_depositArrival, execDepositArrival, hp, hpay, hphase, ne_eq, not_true, if_false, State.land_at hl]
    refine congrArg _ ?_
    simp only [Bool.and_eq_true, Bool.not_eq_true', Option.isNone_iff_eq_none]
    split_ifs at h ⊢
    all_goals exact Option.some.inj h
  · cases h

theorem notifyArrival_happens (hp : s.packet? p.id = some p) (h : networkStep s (.notifyArrival p.id) = some t) :
    exec (.notifyArrival p.id) s = .next t := by
  simp only [networkStep, hp] at h
  split at h
  · rename_i n m hl hpay
    obtain ⟨hphase, h⟩ := ite_none h
    rw [not_not] at hphase
    simp only [exec_notifyArrival, execNotifyArrival, hp, hpay, hphase, ne_eq, not_true, if_false, State.land_at hl]
    refine congrArg _ ?_
    split_ifs at h ⊢
    all_goals exact Option.some.inj h
  · cases h

theorem depositLatchTimeout_happens {n : Nat} (h : networkStep s (.depositLatchTimeout n) = some t) :
    exec (.depositLatchTimeout n) s = .next t := by
  simp only [networkStep] at h
  simp only [exec_depositLatchTimeout, execDepositLatchTimeout]
  cases hlatch : (s.core n).msg.latch with
  | none => simp [hlatch] at h
  | some d =>
    simp only [hlatch] at h ⊢
    cases hpkt : s.packet? d.pkt with
    | none => simp [hpkt] at h
    | some p =>
      simp only [State.setCore_packet?, hpkt] at h ⊢
      obtain ⟨hdue, h⟩ := ite_none h
      rw [if_neg hdue]
      by_cases hempty : (s.core n).msg.full.getLsbD d.reg = false
      · obtain rfl := Option.some.inj ((if_pos hempty).symm.trans h)
        exact if_pos (by rw [hempty]; rfl)
      · obtain ⟨⟨hlimit, hold⟩, h⟩ := guard_some ((if_neg hempty).symm.trans h)
        refine (if_neg (by simpa using hempty)).trans ((if_pos ?_).trans ?_)
        · rw [hlimit]
          exact decide_eq_true hold
        · cases hpay : p.pay
          case deposit reg v retry own =>
            simp only [hpay] at h ⊢
            cases retry
            all_goals exact congrArg _ (Option.some.inj h)
          all_goals
            simp only [hpay] at h ⊢
            exact congrArg _ (Option.some.inj h)

/-- A packet that was refused goes out again, by whichever of the three events. -/
theorem resend_sentAgain {id : Nat} (again : Ev) (h : sentAgain s id = some t) : resend s id again = t := by
  unfold sentAgain at h
  unfold resend
  split at h
  · rename_i p hp
    obtain ⟨hdue, rfl⟩ := onlyIf_eq h
    rw [hp]
    exact if_neg (Nat.not_lt.mpr hdue)
  · cases h

theorem remapNack_happens (hp : s.packet? p.id = some p) (h : networkStep s (.remapNack p.id) = some t) : exec (.remapNack p.id) s = .next t := by
  simp only [networkStep, hp] at h
  simp only [exec_remapNack, execRemapNack, hp]
  generalize (p.gen - (s.copyAt (4 * dieOf p.src)).g).toNat = age at h ⊢
  generalize (if 0 < age ∧ age < 32768 then s.syncCopy (4 * dieOf p.src) else s) = s1 at h ⊢
  cases hpay : p.pay
  case page core cmd page =>
    simp only [hpay] at h ⊢
    cases htile : s1.pageTile page
    all_goals
      simp only [htile] at h ⊢
      exact congrArg _ (Option.some.inj h)
  all_goals
    simp only [hpay] at h ⊢
    exact congrArg _ (Option.some.inj h)

theorem combine_happens (hp : s.packet? p.id = some p) (h : networkStep s (.combine p.id) = some t) : exec (.combine p.id) s = .next t := by
  simp only [networkStep, hp] at h
  simp only [exec_combine, execCombine, hp]
  cases hpay : p.pay
  case contrib asid grp tag op ty len bs ranks =>
    simp only [hpay] at h ⊢
    obtain ⟨hphase, h⟩ := ite_none h
    rw [if_neg hphase]
    by_cases hbad : p.bad = true
    · obtain rfl := Option.some.inj ((if_pos hbad).symm.trans h)
      exact if_pos hbad
    replace h := (if_neg hbad).symm.trans h
    refine (if_neg hbad).trans ?_
    by_cases hat : p.x = p.dx ∧ p.y = p.dy
    · replace h := (if_pos hat).symm.trans h
      refine (if_pos (by simpa [Packet.home] using hat)).trans ?_
      by_cases hvc : p.vc ≠ 200
      · obtain rfl := Option.some.inj ((if_pos hvc).symm.trans h)
        exact if_pos hvc
      · refine (if_neg hvc).trans (congrArg _ ?_)
        rw [← Option.some.inj ((if_neg hvc).symm.trans h)]
        unfold State.landContribution State.land
        cases s.landing p <;> rfl
    · replace h := (if_neg hat).symm.trans h
      refine (if_neg (by simpa [Packet.home] using hat)).trans ?_
      cases hentry : s.combs.find? fun e => e.isFor (p.y * 48 + p.x) asid grp tag with
      | some e =>
        simp only [hentry] at h ⊢
        obtain ⟨⟨hop, hty, hlen⟩, rfl⟩ := onlyIf_eq h
        exact if_neg (by simp [hop, hty, hlen])
      | none =>
        simp only [hentry] at h ⊢
        split_ifs at h with hroom
        · obtain rfl := Option.some.inj h
          exact if_pos hroom
        · obtain rfl := Option.some.inj h
          exact if_neg hroom
  all_goals simp [hpay] at h

theorem combinePark_happens {asid grp tag : Nat} (h : networkStep s (.combinePark asid grp tag) = some t) :
    exec (.combinePark asid grp tag) s = .next t := by
  simp only [networkStep] at h
  obtain ⟨hdue, rfl⟩ := onlyIf_eq h
  have hns (es : List Comb) : (es.foldl State.flushComb s).ns = s.ns := State.read_eq_of_offNet (s.flushCombs_offNet es) State.ns fun _ => rfl
  have hstn (es : List Comb) : (es.foldl State.flushComb s).stn = s.stn := State.read_eq_of_offNet (s.flushCombs_offNet es) State.stn fun _ => rfl
  simp only [exec_combinePark, execCombinePark, hns, hstn]
  exact congrArg _ (if_pos hdue)

theorem reduceResultLand_happens {asid grp tag : Nat} (h : networkStep s (.reduceResultLand asid grp tag) = some t) :
    exec (.reduceResultLand asid grp tag) s = .next t := by
  simp only [networkStep] at h
  split at h
  · rename_i g w hgroup hfirst
    obtain ⟨⟨hended, hranks, hgathered, hstays⟩, rfl⟩ := onlyIf_eq h
    have hbusy : ¬ ((s.red (redKey asid grp tag)).ended ≠ 0 ∨ (s.red (redKey asid grp tag)).ranks.isEmpty = true
        ∨ s.gathered asid grp tag (s.red (redKey asid grp tag)).ranks = false) := by
      simp [hended, hranks, hgathered]
    have hfull : ((s.departed asid grp).filter fun d => !(s.red (redKey asid grp tag)).ranks.contains d).isEmpty
        = (s.departed asid grp).all fun d => (s.red (redKey asid grp tag)).ranks.contains d := by
      rw [Bool.eq_iff_iff]
      simp
    rw [exec_reduceResultLand, execReduceResultLand, if_neg hbusy]
    have hstays : (s.departed asid grp).contains 0 = false := by simpa using hstays
    simp only [hgroup, hfull, hfirst, hstays, Bool.false_eq_true, if_false]
    have hlogical (s1 : State) (k : Send) : (s1.send k).logicalOf = s1.logicalOf :=
      State.read_eq_of_offNet (s1.send_offNet k) State.logicalOf fun _ => rfl
    rw [hlogical]
  · cases h

end

theorem occupancyUpdate_happens {s t : State} (h : networkStep s .occupancyUpdate = some t) : exec .occupancyUpdate s = .next t := by
  simp only [networkStep, Option.some.injEq] at h
  rw [exec_occupancyUpdate, execOccupancyUpdate, ← h]

/-- The packet that a step is about. -/
def subject : Instr → Option Nat
  | .routerHop id | .packetArrival id | .depositArrival id | .notifyArrival id | .remapNack id | .combine id => some id
  | _ => none

/-- The table names no step of a packet that is no more. -/
theorem subject_present {s t : State} {i : Instr} {id : Nat} (hi : subject i = some id) (h : networkStep s i = some t) :
    ∃ p, p.id = id ∧ s.packet? id = some p := by
  cases hp : s.packet? id with
  | some p => exact ⟨p, State.packet?_id hp, rfl⟩
  | none =>
    cases i
    case routerHop | packetArrival | depositArrival | notifyArrival | remapNack | combine =>
      obtain rfl := Option.some.inj hi
      simp [networkStep, hp] at h
    all_goals exact absurd hi (Option.some_ne_none id).symm

/-- Each step of the network is in the table under the conditions of its own step. -/
theorem networkSteps_happen : Happens networkStep := by
  intro s i t h
  have present {id : Nat} (hi : subject i = some id) := subject_present hi h
  cases i
  case routerHop => obtain ⟨p, rfl, hp⟩ := present rfl; exact routerHop_happens hp h
  case occupancyUpdate => exact occupancyUpdate_happens h
  case packetArrival => obtain ⟨p, rfl, hp⟩ := present rfl; exact packetArrival_happens hp h
  case depositArrival => obtain ⟨p, rfl, hp⟩ := present rfl; exact depositArrival_happens hp h
  case depositLatchTimeout => exact depositLatchTimeout_happens h
  case notifyArrival => obtain ⟨p, rfl, hp⟩ := present rfl; exact notifyArrival_happens hp h
  case busyResend => exact congrArg Host.Outcome.next (resend_sentAgain _ h)
  case retryDepositResend => exact congrArg Host.Outcome.next (resend_sentAgain _ h)
  case reorderResend => exact congrArg Host.Outcome.next (resend_sentAgain _ h)
  case remapNack => obtain ⟨p, rfl, hp⟩ := present rfl; exact remapNack_happens hp h
  case combine => obtain ⟨p, rfl, hp⟩ := present rfl; exact combine_happens hp h
  case reduceResultLand => exact reduceResultLand_happens h
  case combinePark => exact combinePark_happens h
  all_goals exact absurd h (Option.some_ne_none t).symm

end Sys2Proof.Slice0
end

section
/-!
SUPPORT. The end of a cycle (R101, R153, R300): what has arrived lands, and where no core sleeps or stands at a queue nothing else happens but that time
passes.
-/

namespace Sys2Proof.Machine

/-! ### Cores that no clock moves -/

/-- No cycle changes the core: its A-stream waits for nothing, and its watchdog does not count (R88, R406). -/
def Core.rests (c : Core) : Prop := c.wait = none ∧ c.queueStuck = false

theorem Core.rests.msg {c : Core} (h : c.rests) (m : Message) : Core.rests { c with msg := m } := h

theorem Core.rests.modCmd {c : Core} (h : c.rests) (id : Nat) (f : Cmd → Cmd) : (c.modCmd id f).rests := h

theorem Core.rests.landUlm {c : Core} (h : c.rests) (a : Nat) (bs : List Byte) : (c.landUlm a bs).rests := by
  obtain ⟨u, ws, gs, he⟩ := c.landUlm_eq a bs
  rw [he]
  exact h

/-- There is no sleep to wake. -/
theorem Core.rests.wake {c : Core} (h : c.rests) (ask : Nat) (bit : Word) : (c.wake ask bit).rests := by
  rw [Core.wake, h.1]
  exact h

theorem Core.rests.arrive {c : Core} (h : c.rests) (ctr amount : Nat) : (c.arrive ctr amount).rests := (h.msg _).wake 10 8

theorem Core.rests.landDeposit {c : Core} (h : c.rests) (reg : Nat) (v : Word) : (c.landDeposit reg v).rests := (h.msg _).wake 9 4

theorem Core.rests.landNotify {c : Core} (h : c.rests) (m : BitVec 32) : (c.landNotify m).rests := by
  unfold Core.landNotify
  split
  · exact (h.msg _).wake 8 2
  · exact (h.msg _).wake 8 2

/-! ### States in which every core rests -/

theorem Store.get_of_all {α : Type} {d : α} {P : α → Prop} {m : Store α} (hd : P d) (h : ∀ q ∈ m, P q.2) (k : Nat) : P (Store.get d m k) := by
  induction m with
  | nil => exact hd
  | cons q m ih =>
    rw [List.forall_mem_cons] at h
    rw [Store.get]
    split_ifs
    · exact hd
    · exact h.1
    · exact ih h.2

theorem Store.set_all {α : Type} [DecidableEq α] {d : α} {P : α → Prop} {m : Store α} (h : ∀ q ∈ m, P q.2) (k : Nat) {v : α} (hv : P v) :
    ∀ q ∈ Store.set d m k v, P q.2 := by
  induction m with
  | nil =>
    rw [Store.set]
    split_ifs
    · exact h
    · simpa using hv
  | cons q m ih =>
    obtain ⟨hq, hm⟩ := List.forall_mem_cons.mp h
    rw [Store.set]
    split_ifs
    · exact h
    · exact List.forall_mem_cons.mpr ⟨hv, h⟩
    · exact hm
    · exact List.forall_mem_cons.mpr ⟨hv, hm⟩
    · exact List.forall_mem_cons.mpr ⟨hq, ih hm⟩

/-- State t is state s but for its network and its cores, and every core of it rests. -/
structure Rested (s t : State) : Prop where
  outside : { t.offNet with cores := [] } = { s.offNet with cores := [] }
  cores : ∀ q ∈ t.cores, q.2.rests

section
variable {s t u : State}

theorem Rested.core (h : Rested s t) (n : Nat) : (t.core n).rests := Store.get_of_all ⟨rfl, rfl⟩ h.cores n

theorem Rested.setCore (h : Rested s t) (n : Nat) {c : Core} (hc : c.rests) : Rested s (t.setCore n c) :=
  ⟨h.outside, Store.set_all h.cores n hc⟩

theorem Rested.of_offNet (h : Rested s t) (hu : u.offNet = t.offNet) : Rested s u :=
  ⟨(congrArg (fun v : State => { v with cores := [] }) hu).trans h.outside,
    (State.read_eq_of_offNet hu State.cores fun _ => rfl).symm ▸ h.cores⟩

theorem Rested.settle (h : Rested s t) (p : Packet) (status : Int) : Rested s (t.settle p status) := h.of_offNet (t.settle_offNet p status)

theorem Rested.read {α : Type} (h : Rested s t) (f : State → α) (hf : ∀ v : State, f { v.offNet with cores := [] } = f v) : f t = f s :=
  (hf t).symm.trans ((congrArg f h.outside).trans (hf s))

/-- The deposit in a core's latch is due (R101). -/
def Core.latchDue (c : Core) : Bool := match c.msg.latch with | some d => d.due | none => false

/-- The end of a cycle in which one packet lands, and no latch and no device deposit does. -/
theorem landAll_of_one {p : Packet} (hp : s.packets.filter (fun q => q.phase == 7 || q.phase == 9) = [p])
    (hcores : ∀ q ∈ s.cores, q.2.latchDue = false ∧ q.2.msg.devDue = false) : s.landAll = s.landNow { p with phase := 0 } (p.phase == 9) := by
  unfold State.landAll
  rw [hp, List.filter_eq_nil_iff.mpr]
  · rfl
  · intro q hq hdue
    obtain ⟨hlatch, hdevice⟩ := hcores q hq
    rw [hdevice, Bool.or_false] at hdue
    exact Bool.false_ne_true (hlatch.symm.trans hdue)

/-- The end of some cycles, in a state that the landings leave at rest. -/
theorem cycleEnds_eq_landAll (h : Rested s s.landAll) (cycles : Nat) : s.cycleEnds cycles = s.landAll := by
  have hnone : (s.landAll.cores.filter fun q => q.2.run == .running && (q.2.wait.isSome || q.2.queueStuck)) = [] := by
    rw [List.filter_eq_nil_iff]
    intro q hq
    obtain ⟨hwait, hstuck⟩ := h.cores q hq
    simp [hwait, hstuck]
  rw [State.cycleEnds, hnone]
  rfl

/-- While the clocks run, time passes by what is asked for. -/
theorem pass_eq_landAll {cycles : Nat} (ns : Nat) (h : Rested s s.landAll) (hclocks : s.isl.busy = false) (hc : cycles ≠ 0) :
    s.pass cycles ns = { s.landAll with cycle := s.cycle + cycles, ns := s.ns + ns } := by
  have hisl : s.landAll.isl = s.isl := h.read State.isl fun _ => rfl
  have hcycle : s.landAll.cycle = s.cycle := h.read State.cycle fun _ => rfl
  have hns : s.landAll.ns = s.ns := h.read State.ns fun _ => rfl
  simp [State.pass, Island.clocksStand, hclocks, hc, cycleEnds_eq_landAll h, hisl, hcycle, hns]

end

/-! ### The landing of a packet -/

/-- A core that a packet other than a reply lands at is not idle (R316). -/
theorem State.landing_run {s : State} {p : Packet} {n : Nat} (h : s.landing p = .at_ n) (hpay : ∀ a bs, p.pay ≠ .reply a bs) :
    (s.core n).run ≠ .idle := by
  have hname {m : Nat} (hm : s.named p.dst p.asid = some m) : (s.core m).run ≠ .idle := by
    unfold State.named at hm
    dsimp only at hm
    split_ifs at hm with h1 h2 h3
    obtain rfl := Option.some.inj hm
    simp only [Core.runsIn, Bool.and_eq_true, Bool.or_eq_true, beq_iff_eq] at h3
    obtain ⟨⟨hrun | hrun, -⟩, -⟩ := h3
    · rw [hrun]; decide
    · rw [hrun]; decide
  unfold State.landing at h
  dsimp only at h
  split_ifs at h
  split at h
  · exact absurd ‹_› (hpay _ _)
  · split at h
    · obtain rfl := Landing.at_.inj h
      exact hname ‹_›
    · cases h

@[simp] theorem Core.landUlm_run (c : Core) (a : Nat) (bs : List Byte) : (c.landUlm a bs).run = c.run := by
  obtain ⟨u, ws, gs, h⟩ := c.landUlm_eq a bs
  rw [h]

@[simp] theorem Core.wake_run (c : Core) (ask : Nat) (bit : Word) : (c.wake ask bit).run = c.run := by
  unfold Core.wake
  split
  · split <;> rfl
  · rfl

@[simp] theorem Core.arrive_run (c : Core) (ctr amount : Nat) : (c.arrive ctr amount).run = c.run := Core.wake_run _ _ _

/-- A core once an arrival is posted where one is asked for (R102, R170). -/
def Core.posted (c : Core) (post : Option Nat) : Core := match post with | some k => c.arrive k 1 | none => c

theorem Core.rests.posted {c : Core} (h : c.rests) (post : Option Nat) : (c.posted post).rests := by
  cases post
  · exact h
  · exact h.arrive _ _

theorem landPosted_of_error {s : State} {n a cause at_ : Nat} {bs : List Byte} (post : Option Nat)
    (h : (s.core n).keepError a bs.length = some (cause, at_)) : landPosted s n a bs post = (if cause = 14 then -3 else -6, s) := by
  have hstatus : (if cause = 14 then (-3 : Int) else -6) ≠ 0 := by split <;> decide
  simp only [landPosted, landRemote, h]
  exact congrArg (Prod.mk _) (if_neg hstatus)

theorem landPosted_of_clean {s : State} {n a : Nat} {bs : List Byte} (post : Option Nat) (hrun : (s.core n).run ≠ .idle)
    (h : (s.core n).keepError a bs.length = none) :
    landPosted s n a bs post = (0, s.setCore n (((s.core n).landUlm a bs).posted post)) := by
  have hself : ((s.core n).landUlm a bs).run ≠ .idle := by rwa [Core.landUlm_run]
  simp only [landPosted, landRemote, h, if_true]
  cases post with
  | none => rfl
  | some k =>
    refine congrArg (Prod.mk _) ?_
    rw [postArrival, State.modCore, State.setCore_core_self s n hself, State.setCore_setCore s n hself (by rwa [Core.arrive_run])]
    rfl

/-- The scoreboard entry of the sender's own copy of a multicast is free (R247, R302). -/
def State.freed (s : State) (p : Packet) (n : Nat) (own : Bool) : State :=
  if own then s.modCore n fun c => c.modCmd p.cmd fun k => { k with wr := k.wr.map fun _ => (0, 0) } else s

/-- A remote write lands at core n, and its sender is answered. -/
def State.remoteWritten (s : State) (p : Packet) (n a : Nat) (bs : List Byte) (post : Option Nat) (own : Bool) : State :=
  ((landPosted s n a bs post).2.freed p n own).settle p (landPosted s n a bs post).1

theorem State.remoteWritten_eq {s : State} {n a : Nat} (p : Packet) (bs : List Byte) (post : Option Nat) (own : Bool) (hrun : (s.core n).run ≠ .idle) :
    s.remoteWritten p n a bs post own = match (s.core n).keepError a bs.length with
      | some (cause, _) => (s.freed p n own).settle p (if cause = 14 then -3 else -6)
      | none => ((s.setCore n (((s.core n).landUlm a bs).posted post)).freed p n own).settle p 0 := by
  unfold State.remoteWritten
  cases herr : (s.core n).keepError a bs.length with
  | none => rw [landPosted_of_clean post hrun herr]
  | some e => rw [landPosted_of_error post herr]

theorem Rested.freed {s t : State} (h : Rested s t) (p : Packet) (n : Nat) (own : Bool) : Rested s (t.freed p n own) := by
  unfold State.freed
  split
  · exact h.setCore n ((h.core n).modCmd _ _)
  · exact h

theorem Rested.remoteWritten {s t : State} (h : Rested s t) (p : Packet) {n a : Nat} (bs : List Byte) (post : Option Nat) (own : Bool)
    (hrun : (t.core n).run ≠ .idle) : Rested s (t.remoteWritten p n a bs post own) := by
  rw [State.remoteWritten_eq p bs post own hrun]
  split
  · exact (h.freed p n own).settle p _
  · exact ((h.setCore n (((h.core n).landUlm a bs).posted post)).freed p n own).settle p 0

end Sys2Proof.Machine

namespace Sys2Proof.Slice0

open Sys2Proof.Machine

/-! ### What the table says of a landing -/

section
variable {s t : State} {p : Packet} {full : Bool} {n : Nat}

/-- State t is what the landing of p makes of s, and where every core of s rests, every core of t does. -/
def LandsAs (s : State) (p : Packet) (full : Bool) (t : State) : Prop := s.landNow p full = t ∧ ((∀ q ∈ s.cores, q.2.rests) → Rested s t)

/-- Every core of a state rests. -/
theorem Rested.refl (h : ∀ q ∈ s.cores, q.2.rests) : Rested s s := ⟨rfl, h⟩

theorem landed_write {kind a : Nat} {bs : List Byte} {post : Option Nat} (hl : s.landing p = .at_ n) (hpay : p.pay = .write kind a bs post)
    (h : landed s p full = some t) : LandsAs s p full t := by
  have hrun : (s.core n).run ≠ .idle := State.landing_run hl (by simp [hpay])
  simp only [landed, hl, hpay] at h
  simp only [LandsAs, State.landNow, State.land_at hl, hpay, landWrite]
  by_cases hown : kind = 2 ∧ n = p.src
  · obtain ⟨hfree, h⟩ := ite_none ((if_pos hown).symm.trans h)
    obtain rfl : s.remoteWritten p n a bs post true = t := (State.remoteWritten_eq p bs post true hrun).trans (Option.some.inj h)
    refine ⟨?_, fun hs => (Rested.refl hs).remoteWritten p bs post true hrun⟩
    rw [if_neg fun hb => hfree hb.2, if_pos hown, if_pos hown]
    rfl
  · replace h := (if_neg hown).symm.trans h
    rw [if_neg fun hb => hown hb.1, if_neg hown, if_neg hown]
    cases hadmit : (s.core n).admitting fun w => windowGrants w 61 a bs.length (s.core p.src) with
    | none =>
      simp only [hadmit] at h ⊢
      obtain rfl := Option.some.inj h
      exact ⟨rfl, fun hs => (Rested.refl hs).settle p _⟩
    | some w =>
      simp only [hadmit, ne_eq, ite_not] at h ⊢
      obtain rfl := (State.remoteWritten_eq p bs _ false hrun).trans (Option.some.inj h)
      exact ⟨rfl, fun hs => (Rested.refl hs).remoteWritten p bs _ false hrun⟩

theorem landed_deposit {reg : Nat} {v : Word} {retry own : Bool} (hl : s.landing p = .at_ n) (hpay : p.pay = .deposit reg v retry own)
    (h : landed s p full = some t) : LandsAs s p full t := by
  simp only [landed, hl, hpay] at h
  simp only [LandsAs, State.landNow, State.land_at hl, hpay, State.landDepositPacket]
  by_cases hempty : full = false ∧ (s.core n).msg.full.getLsbD reg = false
  · obtain rfl := (if_pos hempty).symm.trans (Option.some.inj h)
    refine ⟨if_pos (by simpa using hempty), fun hs => ?_⟩
    exact ((Rested.refl hs).setCore n (((Rested.refl hs).core n).landDeposit reg v)).settle p 0
  · replace h := (if_neg hempty).symm.trans (Option.some.inj h)
    rw [if_neg (by simpa using hempty)]
    cases hlatch : (s.core n).msg.latch with
    | none =>
      simp only [hlatch] at h ⊢
      obtain rfl := h
      refine ⟨rfl, fun hs => ?_⟩
      have hwaits := (Rested.refl hs).setCore n
        (((Rested.refl hs).core n).msg { (s.core n).msg with latch := some ⟨reg, v, p.id, s.cycle, own, false⟩ })
      exact hwaits.of_offNet (by simp)
    | some d =>
      simp only [hlatch] at h ⊢
      obtain rfl := h
      exact ⟨rfl, fun hs => (Rested.refl hs).of_offNet (s.refuse_offNet p 4 2)⟩

theorem landed_notify {m : BitVec 32} (hl : s.landing p = .at_ n) (hpay : p.pay = .notify m) (h : landed s p full = some t) : LandsAs s p full t := by
  simp only [landed, hl, hpay, Option.some.injEq] at h
  obtain rfl := h
  simp only [LandsAs, State.landNow, State.land_at hl, hpay]
  exact ⟨rfl, fun hs => ((Rested.refl hs).setCore n (((Rested.refl hs).core n).landNotify m)).settle p 0⟩

/-- What the table says lands, lands so. -/
theorem landed_landsAs (h : landed s p full = some t) : LandsAs s p full t := by
  have h' := h
  unfold landed at h'
  dsimp only at h'
  split at h'
  · exact landed_write ‹_› ‹_› h
  · exact landed_deposit ‹_› ‹_› h
  · exact landed_notify ‹_› ‹_› h
  · cases h'

end

/-- Settles O55: the steps by the cases of each, and the end of a cycle by what the one packet that lands leaves: cores that no clock moves, so that
nothing but time passes after it. -/
theorem networkSteps : Obligations.NetworkSteps := by
  refine ⟨networkSteps_happen, fun s cycles ns r p t hplan hc hclocks hp hcores h => ?_⟩
  have hrests : ∀ q ∈ s.cores, q.2.rests := by
    intro q hq
    have hq := List.all_eq_true.mp hcores q hq
    simp only [Bool.and_eq_true, Bool.not_eq_true', Option.isNone_iff_eq_none] at hq
    exact ⟨hq.1.2, hq.2⟩
  have hland : ({ s with plan := r } : State).landAll = t := by
    refine (landAll_of_one (s := { s with plan := r }) hp fun q hq => ?_).trans (landed_landsAs h |>.1)
    have hq := List.all_eq_true.mp hcores q hq
    simp only [Bool.and_eq_true, Bool.not_eq_true'] at hq
    exact ⟨hq.1.1.1, hq.1.1.2⟩
  have hrest : Rested { s with plan := r } { s with plan := r }.landAll := hland ▸ (landed_landsAs h).2 hrests
  have hpass := pass_eq_landAll ns hrest hclocks hc
  rw [hland] at hpass
  rw [step, stepWith, hplan]
  exact congrArg _ hpass

end Sys2Proof.Slice0
end

section
/-!
SUPPORT. The floating-point status of a word on a settled core (R117, R118, R120), and the scalar floating-point words (R141 to R147): their draws, their
flags, and a result for which there is room.
-/

namespace Sys2Proof.Machine

open Slice0 (canDraw drawn fpReady flagged compared pushedBit flt2 fltMin fltWord fltLate lateFrom)

/-- A step that goes well hands its result to the next. -/
theorem run_bind_ok {σ α β : Type} {m : StateT σ (Except Stop) α} {f : α → StateT σ (Except Stop) β} {s t : σ} {a : α} (h : m s = .ok (a, t)) :
    (m >>= f) s = f a t := by
  rw [run_bind, h]

/-! ### A core whose control registers change -/

@[simp] theorem Core.withCtl_settled (c : Core) (u : CtlRegs) (st : Strm) : ({ c with ctl := u } : Core).settled st = c.settled st := by cases st <;> rfl

theorem Core.withCtl_push (c : Core) (u : CtlRegs) (st : Strm) (v : Option Word) :
    ({ c with ctl := u } : Core).push st v = (c.push st v).map fun d => { d with ctl := u } := by
  unfold Core.push
  cases st <;> simp only [apply_ite (Option.map _), Option.map_some, Option.map_none] <;> rfl

/-- Room for one result is room for any, whatever the control registers hold. -/
theorem Core.withCtl_delivers {x : Ctx} {c c1 : Core} {u : CtlRegs} {q : BitVec 2} {d : BitVec 5} {v : Word} (w : Word)
    (h : ({ c with ctl := u } : Core).delivered x q d v = some c1) : ∃ c2, c.delivered x q d w = some c2 := by
  unfold Core.delivered at h ⊢
  split at h
  · rename_i hq
    rw [Core.withCtl_push] at h
    obtain ⟨c2, hpush, -⟩ := Option.map_eq_some_iff.mp h
    rw [if_pos hq]
    exact Core.push_room _ hpush
  · rename_i hq
    exact ⟨_, if_neg hq⟩

/-- Room for one outcome is room for any. -/
theorem pushedBit_room {c c1 d : Core} {st : Strm} {b : Bool} (b' : Bool) (hq : d.q = c.q) (hh : (d.seq st.other).halted = (c.seq st.other).halted)
    (h : pushedBit c st b = some c1) : ∃ c2, pushedBit d st b' = some c2 := by
  unfold pushedBit at h ⊢
  rw [hh, hq]
  cases st <;> dsimp only at h ⊢ <;> split_ifs at h ⊢ <;> exact ⟨_, rfl⟩

/-- Room for one comparison is room for any, whatever the control registers hold. -/
theorem withCtl_compares {x : Ctx} {c c1 : Core} {u : CtlRegs} {d : BitVec 5} {p : BitVec 1} {b : Bool} (b' : Bool)
    (h : compared x { c with ctl := u } d p b = some c1) : ∃ c2, compared x c d p b' = some c2 := by
  unfold compared at h ⊢
  dsimp only at h ⊢
  split at h
  · rename_i hp
    rw [if_pos hp]
    exact pushedBit_room b' (by cases x.st <;> rfl) (by cases x.st <;> rfl) h
  · rename_i hp
    exact ⟨_, if_neg hp⟩

/-! ### Draws (R117) -/

/-- What a word draws changes its core's seed alone. -/
theorem drawn_core (x : Ctx) (c : Core) (n : Nat) : ∃ u, (drawn x c n).2 = { c with ctl := u } := by
  unfold drawn
  split <;> exact ⟨_, rfl⟩

@[simp] theorem drawn_settled (x : Ctx) (c : Core) (n : Nat) (st : Strm) : (drawn x c n).2.settled st = c.settled st := by
  obtain ⟨u, hu⟩ := drawn_core x c n
  rw [hu, Core.withCtl_settled]

theorem drawsM_ok {x : Ctx} {c : Core} (n : Nat) (h : canDraw x c = true) : drawsM x n c = .ok ((drawn x c n).1, (drawn x c n).2) := by
  unfold canDraw at h
  unfold drawsM drawn
  cases hm : x.mode
  case sr =>
    have hfree : c.rngHeld = false := by simpa [hm] using h
    simp [rngFree_ok hfree]
  all_goals rfl

theorem drawM_ok {x : Ctx} {c : Core} (h : canDraw x c = true) : drawM x c = .ok ((drawn x c 1).1.headD 0, (drawn x c 1).2) := by
  rw [drawM, run_bind, drawsM_ok 1 h]
  rfl

/-- A word that draws only where b asks for it (R117, R146, R183). -/
theorem drawsM_if_then {α : Type} {x : Ctx} {c : Core} {b : Bool} {n : Nat} {l : List (BitVec 32)} (m : List (BitVec 32) → CM α)
    (h : b = true → canDraw x c = true) :
    (if b = true then (do let ds ← drawsM x n; m ds) else (do let ds ← pure l; m ds) : CM α) c
      = m (if b = true then drawn x c n else (l, c)).1 (if b = true then drawn x c n else (l, c)).2 := by
  cases b
  · rfl
  · exact run_bind_ok (drawsM_ok n (h rfl))

theorem drawM_if_then {α : Type} {x : Ctx} {c : Core} {b : Bool} (m : BitVec 32 → CM α) (h : b = true → canDraw x c = true) :
    (if b = true then (do let r ← drawM x; m r) else (do let r ← pure 0; m r) : CM α) c
      = m ((if b = true then drawn x c 1 else ([0], c)).1.headD 0) (if b = true then drawn x c 1 else ([0], c)).2 := by
  cases b
  · rfl
  · exact run_bind_ok (drawM_ok (h rfl))

theorem drawn_if_core (x : Ctx) (c : Core) (b : Bool) (n : Nat) (l : List (BitVec 32)) :
    ∃ u, (if b = true then drawn x c n else (l, c)).2 = { c with ctl := u } := by
  cases b
  · exact ⟨c.ctl, rfl⟩
  · exact drawn_core x c n

/-- Taking a source leaves the generator as it was. -/
theorem canDraw_source {x : Ctx} {c c1 : Core} {st : Strm} {q : BitVec 2} {n : BitVec 5} {a : Word} (hs : c.source st q n = some (a, c1)) :
    canDraw x c1 = canDraw x c := by
  obtain ⟨u, rfl⟩ := Core.source_only hs
  rfl

/-! ### Flags (R118, R120) -/

theorem fpBegin_ok {x : Ctx} {c : Core} (hs : c.settled x.st = true) (h : fpReady x c = true) : fpBegin x c = .ok ((), c) := by
  obtain ⟨-, -, -, -, -, hvrep, hrun, -⟩ := Core.settled_iff.mp hs
  unfold fpReady at h
  rw [Bool.or_eq_true] at h
  obtain hoff | hdone := h
  · simp only [beq_iff_eq] at hoff
    simp [fpBegin, hoff]
  · simp only [Bool.and_eq_true, Bool.not_eq_true', Option.isNone_iff_eq_none] at hdone
    obtain ⟨⟨⟨hq, hfly⟩, hwb⟩, hmst⟩ := hdone
    simp [fpBegin, hq, hfly, hwb, hmst, hrun, Core.bodyFloat, hvrep]

theorem fpEnd_flagged {x : Ctx} {c c1 : Core} {fl : BitVec 5} (h : flagged x c fl = some c1) : fpEnd x fl c = .ok ((), c1) := by
  unfold flagged at h
  split at h
  · rename_i hoff
    obtain rfl := Option.some.inj h
    simp [fpEnd, hoff]
  · cases h

/-- Setting flags changes the control registers alone. -/
theorem flagged_core {x : Ctx} {c c1 : Core} {fl : BitVec 5} (h : flagged x c fl = some c1) : ∃ u, c1 = { c with ctl := u } := by
  unfold flagged at h
  split at h
  · exact ⟨_, (Option.some.inj h).symm⟩
  · cases h

theorem flagged_settled {x : Ctx} {c c1 : Core} {fl : BitVec 5} {st : Strm} (hs : c.settled st = true) (h : flagged x c fl = some c1) :
    c1.settled st = true := by
  obtain ⟨u, rfl⟩ := flagged_core h
  rwa [Core.withCtl_settled]

/-- The end of a word that can raise an exception: its room is there, its flags are set, and its result is written (R60, R120). -/
theorem fpEnd_then {x : Ctx} {c c0 c1 c2 : Core} {fl : BitVec 5} {m0 m : CM Unit} (h0 : m0 c = .ok ((), c0)) (hf : flagged x c fl = some c1)
    (hm : m c1 = .ok ((), c2)) : (do room m0; fpEnd x fl; m : CM Unit) c = .ok ((), c2) :=
  (run_bind_ok (room_ok h0)).trans ((run_bind_ok (fpEnd_flagged hf)).trans hm)

theorem fpEnd_wrDst {x : Ctx} {c c2 : Core} {fl : BitVec 5} {q : BitVec 2} {d : BitVec 5} {v : Word} (hs : c.settled x.st = true)
    (h : ((flagged x c fl).bind fun c1 => c1.delivered x q d v) = some c2) :
    (do room (wrDst x q d 0); fpEnd x fl; wrDst x q d v : CM Unit) c = .ok ((), c2) := by
  obtain ⟨c1, hf, hd⟩ := Option.bind_eq_some_iff.mp h
  obtain ⟨u, rfl⟩ := flagged_core hf
  obtain ⟨c0, h0⟩ := Core.withCtl_delivers 0 hd
  exact fpEnd_then (wrDst_delivered hs h0) hf (wrDst_delivered (flagged_settled hs hf) hd)

theorem fpEnd_wrX {x : Ctx} {c c2 : Core} {fl : BitVec 5} {d : BitVec 5} {v : Word} (hs : c.settled x.st = true)
    (h : ((flagged x c fl).map fun c1 => c1.resultX x d v) = some c2) :
    (do room (wrX x d 0); fpEnd x fl; wrX x d v : CM Unit) c = .ok ((), c2) := by
  obtain ⟨c1, hf, rfl⟩ := Option.map_eq_some_iff.mp h
  exact fpEnd_then (wrX_settled hs d 0) hf (wrX_settled (flagged_settled hs hf) d v)

theorem fpEnd_setCompare {x : Ctx} {c c2 : Core} {fl : BitVec 5} {d : BitVec 5} {p : BitVec 1} {b : Bool}
    (h : ((flagged x c fl).bind fun c1 => compared x c1 d p b) = some c2) :
    (do room (setCompare x d p false); fpEnd x fl; setCompare x d p b : CM Unit) c = .ok ((), c2) := by
  obtain ⟨c1, hf, hb⟩ := Option.bind_eq_some_iff.mp h
  obtain ⟨u, rfl⟩ := flagged_core hf
  obtain ⟨c0, h0⟩ := withCtl_compares false hb
  exact fpEnd_then (Slice0.setCompare_compared h0) hf (Slice0.setCompare_compared hb)

/-! ### The scalar words (R141 to R147) -/

theorem fpu2_ok {x : Ctx} {c c2 : Core} {op : Rm → Val → Val → Val × BitVec 5} {f q : BitVec 2} {d a b : BitVec 5} (hs : c.settled x.st = true)
    (hready : fpReady x c = true) (h : flt2 x c f q d a b (op x.mode) = some c2) : fpu2 op f q d a b x c = .ok ((), c2) := by
  obtain ⟨hdraw, h⟩ := Slice0.ite_none h
  rw [Bool.not_eq_false] at hdraw
  split at h
  · rename_i u c1 hsrc
    have h1 := Core.source_settled hs hsrc
    unfold fpu2
    refine (run_bind_ok (fpBegin_ok hs hready)).trans <| (run_bind_ok (rdSrc_source hs hsrc)).trans <| (run_bind_ok (rdX_settled h1 b)).trans <|
      (run_bind_ok (drawM_ok ((canDraw_source hsrc).trans hdraw))).trans ?_
    exact fpEnd_wrDst ((drawn_settled x c1 1 x.st).trans h1) h
  · cases h

theorem fpuMin_ok {x : Ctx} {c c2 : Core} {less : Bool} {f q : BitVec 2} {d a b : BitVec 5} (hs : c.settled x.st = true)
    (hready : fpReady x c = true) (h : fltMin x c less f q d a b = some c2) : fpuMin less f q d a b x c = .ok ((), c2) := by
  unfold fltMin at h
  split at h
  · rename_i u c1 hsrc
    have h1 := Core.source_settled hs hsrc
    unfold fpuMin
    refine (run_bind_ok (fpBegin_ok hs hready)).trans <| (run_bind_ok (rdSrc_source hs hsrc)).trans <| (run_bind_ok (rdX_settled h1 b)).trans ?_
    exact fpEnd_wrDst h1 h
  · cases h

/-- The divide-and-root unit (R129, R144): at once while an enable is set, and else late. -/
theorem fpuLate_ok {x : Ctx} {c c2 : Core} {r : Nat × BitVec 5} {q : BitVec 2} {d : BitVec 5} (hs : c.settled x.st = true)
    (h : (if fpEnables x.fpctl ≠ 0 then (flagged x c r.2).bind fun c1 => c1.delivered x q d (BitVec.ofNat 64 r.1)
      else lateFrom x c q d (BitVec.ofNat 64 r.1) r.2) = some c2) : fpuLate r q d x c = .ok ((), c2) := by
  unfold fpuLate
  split at h
  · rename_i hon
    rw [if_pos hon]
    exact fpEnd_wrDst hs h
  · rename_i hoff
    rw [if_neg hoff]
    exact Slice0.wrLate_lateFrom hs h

theorem unitFree_settled {x : Ctx} {c : Core} (hs : c.settled x.st = true) : unitFree x c = .ok ((), c) := by
  obtain ⟨-, -, -, hwb, -⟩ := Core.settled_iff.mp hs
  simp [unitFree, hwb]

/-- A word of the divide-and-root unit up to its first source. -/
theorem lateSource_then {α : Type} {x : Ctx} {c c1 : Core} {q : BitVec 2} {n : BitVec 5} {u : Word} (m : Word → CM α) (hs : c.settled x.st = true)
    (hready : fpReady x c = true) (hsrc : c.source x.st q n = some (u, c1)) :
    (do fpBegin x; unitFree x; let a ← rdSrc x q n; m a : CM α) c = m u c1 :=
  (run_bind_ok (fpBegin_ok hs hready)).trans <| (run_bind_ok (unitFree_settled hs)).trans (run_bind_ok (rdSrc_source hs hsrc))

end Sys2Proof.Machine

namespace Sys2Proof.Slice0

open Sys2Proof.Machine

/-- What Completes says of one word: it completes, its effect leaves its core as c, and k says what else it does to the module. -/
def CompletesIn (k : State → State) (s : State) (i : Instr) (c : Core) : Prop :=
  ∃ t, exec i s = .next t ∧ Stepped (k (s.setCore s.cur c)) t s.cur s.strm ∧ Goes s.ctx (selector i) (s.atIssue.seq s.strm) c (t.core s.cur)

theorem fma_completes {s : State} {n : BitVec 3} {d a b : BitVec 5} {f : BitVec 2} {c : Core} (hs : (s.core s.cur).settled s.strm = true)
    (ht : fltWord s.ctx s.atIssue (.fma n d a b f) = some c) (hr : s.runs (.fma n d a b f) c = true) : CompletesIn id s (.fma n d a b f) c := by
  have h := State.atIssue_settled hs
  obtain ⟨hready, ht⟩ := ite_none ht
  obtain ⟨hdraw, ht⟩ := ite_none ht
  rw [Bool.not_eq_false] at hready hdraw
  refine issueU_runs hr ?_
  refine (run_bind_ok (fpBegin_ok h hready)).trans <| (run_bind_ok (rdX_settled h a)).trans <| (run_bind_ok (rdX_settled h b)).trans <|
    (run_bind_ok (rdX_settled h d)).trans <| (run_bind_ok (drawM_ok hdraw)).trans ?_
  exact fpEnd_wrX ((drawn_settled _ _ _ _).trans h) ht

theorem fcmp_completes {s : State} {n : BitVec 3} {d a b : BitVec 5} {p : BitVec 1} {f : BitVec 2} {k : BitVec 3} {c : Core}
    (hs : (s.core s.cur).settled s.strm = true) (ht : fltWord s.ctx s.atIssue (.fcmp n d a b p f k) = some c)
    (hr : s.runs (.fcmp n d a b p f k) c = true) : CompletesIn id s (.fcmp n d a b p f k) c := by
  have h := State.atIssue_settled hs
  obtain ⟨hready, ht⟩ := ite_none ht
  rw [Bool.not_eq_false] at hready
  refine issueU_runs hr ?_
  refine (run_bind_ok (fpBegin_ok h hready)).trans <| (run_bind_ok (rdX_settled h a)).trans <| (run_bind_ok (rdX_settled h b)).trans ?_
  exact fpEnd_setCompare ht

theorem fcvt_completes {s : State} {n : BitVec 3} {d a sc dc : BitVec 5} {c : Core} (hs : (s.core s.cur).settled s.strm = true)
    (ht : fltWord s.ctx s.atIssue (.fcvt n d a sc dc) = some c) (hr : s.runs (.fcvt n d a sc dc) c = true) :
    CompletesIn id s (.fcvt n d a sc dc) c := by
  have h := State.atIssue_settled hs
  obtain ⟨hready, ht⟩ := ite_none ht
  obtain ⟨hdraw, ht⟩ := ite_none ht
  rw [Bool.not_eq_false] at hready
  refine issueU_runs hr ?_
  refine (run_bind_ok (fpBegin_ok h hready)).trans <| (run_bind_ok (rdX_settled h a)).trans ?_
  refine (drawM_if_then _ (by simpa using hdraw)).trans (fpEnd_wrX ?_ ht)
  obtain ⟨u, hu⟩ := drawn_if_core s.ctx s.atIssue ((Conv.ofCode dc).draws (Conv.ofCode sc)) 1 [0]
  rwa [hu, Core.withCtl_settled]

/-- Settles O15: each word waits for nothing, takes its source and its draw, and ends in flags of which none is enabled and a result that has room.
That .sat leaves FMIN and FMAX alone, that stochastic rounding has no cut-off towards integers, and that FCVT admits every modifier are the model's
choices (log entries 128, 129, 148). -/
theorem floatWords : Obligations.FloatWords := by
  intro s i c hs ht hr
  have h := State.atIssue_settled hs
  cases i
  case fclass n d a f =>
    obtain rfl := Option.some.inj ht
    exact issueU_runs hr ((run_bind_ok (rdX_settled h a)).trans (wrX_settled h d _))
  case fma => exact fma_completes hs ht hr
  case fcmp => exact fcmp_completes hs ht hr
  case fcvt => exact fcvt_completes hs ht hr
  all_goals obtain ⟨hready, ht⟩ := ite_none ht
  case fadd => exact issueU_runs hr (fpu2_ok h (by simpa using hready) ht)
  case fsub => exact issueU_runs hr (fpu2_ok h (by simpa using hready) ht)
  case fmul => exact issueU_runs hr (fpu2_ok h (by simpa using hready) ht)
  case fmin => exact issueU_runs hr (fpuMin_ok h (by simpa using hready) ht)
  case fmax => exact issueU_runs hr (fpuMin_ok h (by simpa using hready) ht)
  all_goals cases ht

/-- Settles O16: the two words of the divide-and-root unit, which is free on a settled core. -/
theorem lateFloatWords : Obligations.LateFloatWords := by
  intro s i c hs ht hr
  have h := State.atIssue_settled hs
  replace ht := ite_none ht
  simp only [not_or, Bool.not_eq_false] at ht
  obtain ⟨⟨hready, hdraw⟩, ht⟩ := ht
  cases i
  case fdiv n d a b q f =>
    dsimp only at ht
    split at ht
    · rename_i u c1 hsrc
      have h1 := Core.source_settled h hsrc
      refine issueLate_runs hr ((lateSource_then _ h hready hsrc).trans <| (run_bind_ok (rdX_settled h1 b)).trans <|
        (run_bind_ok (drawM_ok ((canDraw_source hsrc).trans hdraw))).trans ?_)
      exact fpuLate_ok ((drawn_settled _ _ _ _).trans h1) ht
    · cases ht
  case fsqrt n d a q f =>
    dsimp only at ht
    split at ht
    · rename_i u c1 hsrc
      have h1 := Core.source_settled h hsrc
      refine issueLate_runs hr ((lateSource_then _ h hready hsrc).trans <| (run_bind_ok (drawM_ok ((canDraw_source hsrc).trans hdraw))).trans ?_)
      exact fpuLate_ok ((drawn_settled _ _ _ _).trans h1) ht
    · cases ht
  all_goals cases ht

end Sys2Proof.Slice0
end

section
/-!
SUPPORT. The floating-point vector words (R120, R174, R180 to R192): what each of them computes from its operands and its draws, and how its operation is
dispatched, runs alone, or ends.
-/

namespace Sys2Proof.Slice0

open Sys2Proof.Machine

/-- What follows a step that is one of two goes on from either. -/
theorem run_ite_then {σ α β : Type} {p : Prop} [Decidable p] {m n : StateT σ (Except Stop) α} {f : α → StateT σ (Except Stop) β} {s t : σ} {a : α}
    (hm : p → m s = .ok (a, t)) (hn : ¬p → n s = .ok (a, t)) : (if p then m >>= f else n >>= f) s = f a t := by
  split
  · exact run_bind_ok (hm ‹_›)
  · exact run_bind_ok (hn ‹_›)

/-! ### Operands that a draw leaves -/

theorem rdGroup_settled {x : Ctx} {c : Core} (h : c.settled x.st = true) (hx : x.st = .e) (n : BitVec 5) (g : Nat) :
    rdGroup x n g c = .ok ((List.range g).map fun j => c.vreg (n + BitVec.ofNat 5 j), c) := by
  unfold rdGroup
  induction List.range g with
  | nil => rfl
  | cons j l ih => simp [List.mapM_cons, rdV_settled h hx, ih]

theorem homeX_run (x : Ctx) (n : BitVec 5) (c : Core) : homeX x n c = .ok (c.homeOf x.st n, c) := rfl

/-! ### What a word computes -/

/-- Word i is a word of the SAU, with the effect m on its core. -/
def RunsSau (i : Instr) (m : Ctx → CM Unit) : Prop := ∀ s, exec i s = issueSau i (fun x => onCore x.core (m x)) s

/-- On core c, once nothing that came before is left to wait for, word i hands the lanes p.1 to the SAU, from core p.2, in which its draws are taken. -/
structure Computes (x : Ctx) (c : Core) (i : Instr) (p : Lanes × Core) : Prop where
  drawn : ∃ u, p.2 = { c with ctl := u }
  effect : ∃ m, RunsSau i m ∧ (c.settled x.st = true → fpBegin x c = .ok ((), c) → m x c = sauWord x true p.1.passes p.1.writes p.1.flags p.2)

/-- An element of VFMAW: the product of two narrow elements, and an addend and a result of the wide format (R181). -/
theorem laneFma_widened (x : Ctx) (f : Fmt) (r : BitVec 32) (u v w : Nat) : laneFma x f .f32 0 r u v w = deliver x .f32 r
    (Val.fma (x.mode == .rdn) (f.input (fpSub x.fpctl) u) (f.input (fpSub x.fpctl) v) (Fmt.f32.input (fpSub x.fpctl) w)) := rfl

section

variable {x : Ctx} {c : Core} {i : Instr} {d a b : BitVec 5} {k : BitVec 3} {f : BitVec 2} {op : Nat} {p : Lanes × Core}
  (hst : x.st = .e) (hdraw : canDraw x c = true)
include hst hdraw

/-- The elements of a word of one format, each with its draw (R117, R180). -/
theorem vecMap_floats {g : BitVec 32 → Nat → Nat × BitVec 5} (hs : c.settled x.st = true) (h : some (floats x c f d k g) = some p) :
    (do let ds ← drawsM x (1024 / (Fmt.ofCode f).width)
        vecMap x true (1024 / (Fmt.ofCode f).width) (Fmt.ofCode f).width d k fun i => g (ds.getD i 0) i : CM Unit) c
      = sauWord x true p.1.passes p.1.writes p.1.flags p.2 := by
  obtain rfl := Option.some.inj h
  exact (run_bind_ok (drawsM_ok _ hdraw)).trans (vecMap_run ((drawn_settled _ _ _ _).trans hs) hst)

omit hst hdraw in
theorem floats_core {g : BitVec 32 → Nat → Nat × BitVec 5} (h : some (floats x c f d k g) = some p) : ∃ u, p.2 = { c with ctl := u } := by
  obtain rfl := Option.some.inj h
  exact drawn_core x c _

theorem vecFlt_computes (hi : ∀ s, exec i s = issueSau i (vecFlt op d a b k f) s)
    (h : some (floats x c f d k fun r j =>
      laneFlt x (Fmt.ofCode f) op r (lane (Fmt.ofCode f).width (c.vreg a) j) (lane (Fmt.ofCode f).width (c.vreg b) j)) = some p) :
    Computes x c i p := by
  refine ⟨floats_core h, _, hi, fun hs hbegin => ?_⟩
  refine (run_bind_ok hbegin).trans <| (run_bind_ok (rdV_settled hs hst a)).trans <| (run_bind_ok (rdV_settled hs hst b)).trans ?_
  have hlanes := vecMap_floats hst hdraw hs h
  exact hlanes

theorem vecFlt1_computes (hi : ∀ s, exec i s = issueSau i (vecFlt1 op d a k f) s)
    (h : some (floats x c f d k fun r j => laneFlt x (Fmt.ofCode f) op r (lane (Fmt.ofCode f).width (c.vreg a) j) 0) = some p) : Computes x c i p := by
  refine ⟨floats_core h, _, hi, fun hs hbegin => ?_⟩
  refine (run_bind_ok hbegin).trans <| (run_bind_ok (rdV_settled hs hst a)).trans ?_
  have hlanes := vecMap_floats hst hdraw hs h
  exact hlanes

theorem vecFma_computes (hi : ∀ s, exec i s = issueSau i (vecFma op d a b k f) s)
    (h : some (floats x c f d k fun r j => laneFma x (Fmt.ofCode f) (Fmt.ofCode f) op r (lane (Fmt.ofCode f).width (c.vreg a) j)
      (lane (Fmt.ofCode f).width (c.vreg b) j) (lane (Fmt.ofCode f).width (c.vreg d) j)) = some p) : Computes x c i p := by
  refine ⟨floats_core h, _, hi, fun hs hbegin => ?_⟩
  refine (run_bind_ok hbegin).trans <| (run_bind_ok (rdV_settled hs hst a)).trans <|
    (run_bind_ok (rdV_settled hs hst b)).trans <| (run_bind_ok (rdV_settled hs hst d)).trans ?_
  have hlanes := vecMap_floats hst hdraw hs h
  exact hlanes

theorem vecScale_computes {un : Bool} {cc : BitVec 2} (hi : ∀ s, exec i s = issueSau i (vecScale un d a b k cc f) s)
    (h : some (floats x c f d k fun r j => laneScale x (Fmt.ofCode f) un r (lane (Fmt.ofCode f).width (c.vreg a) j)
      (lane 8 (c.vreg b) (j / (8 * 2 ^ cc.toNat)))) = some p) : Computes x c i p := by
  refine ⟨floats_core h, _, hi, fun hs hbegin => ?_⟩
  refine (run_bind_ok hbegin).trans <| (run_bind_ok (rdV_settled hs hst a)).trans <|
    (run_bind_ok (rdV_settled hs hst b)).trans ?_
  have hlanes := vecMap_floats hst hdraw hs h
  exact hlanes

theorem vecRedF_computes (hi : ∀ s, exec i s = issueSau i (vecRedF op d a k f) s)
    (h : some (let ds := drawn x c (1024 / (Fmt.ofCode f).width - 1)
       let r := treeReduce (nodeFlt x (Fmt.ofCode f) op) 8 (reduced c (Fmt.ofCode f).width a k (identFlt (Fmt.ofCode f) op)) ds.1
       (toX x c d r.1 r.2, ds.2)) = some p) : Computes x c i p := by
  obtain rfl := Option.some.inj h
  refine ⟨drawn_core x c _, _, hi, fun hs hbegin => ?_⟩
  refine (run_bind_ok hbegin).trans <| (run_bind_ok (rdV_settled hs hst a)).trans <|
    (run_bind_ok (rdK_settled hs hst _)).trans <| (run_bind_ok (homeX_run x d c)).trans <| (run_bind_ok (drawsM_ok _ hdraw)).trans ?_
  rfl

theorem vfmaw_computes (n : BitVec 3) (h : fltLanes x c (.vfmaw n d a b k f) = some p) : Computes x c (.vfmaw n d a b k f) p := by
  unfold fltLanes at h
  dsimp only at h
  obtain rfl := Option.some.inj h
  refine ⟨drawn_core x c _, _, fun _ => rfl, fun hs hbegin => ?_⟩
  refine (run_bind_ok hbegin).trans <| (run_bind_ok (rdV_settled hs hst a)).trans <|
    (run_bind_ok (rdV_settled hs hst b)).trans <| (run_bind_ok (rdV_settled hs hst d)).trans <| (run_bind_ok (rdV_settled hs hst _)).trans <|
    (run_bind_ok (rdK_settled hs hst _)).trans <| (run_bind_ok (drawsM_ok _ hdraw)).trans ?_
  dsimp only [laneFma_widened, pairNext]

omit hdraw in
theorem vcmp_computes {n : BitVec 3} {g : BitVec 1} {j w : BitVec 2} (h : fltLanes x c (.vcmp n d a b k g j w) = some p) :
    Computes x c (.vcmp n d a b k g j w) p := by
  obtain ⟨rfl, h⟩ := guard_some h
  obtain rfl := Option.some.inj h
  refine ⟨⟨c.ctl, rfl⟩, _, fun _ => rfl, fun hs hbegin => ?_⟩
  refine (run_bind_ok hbegin).trans <| (run_bind_ok (rdV_settled hs hst a)).trans <|
    (run_bind_ok (rdV_settled hs hst b)).trans <| (run_bind_ok (rdK_settled hs hst _)).trans ?_
  rfl

theorem vcvt_computes {n : BitVec 3} {cc xx : BitVec 5} (h : fltLanes x c (.vcvt n d a cc k xx) = some p) :
    Computes x c (.vcvt n d a cc k xx) p := by
  obtain rfl := Option.some.inj h
  refine ⟨drawn_if_core x c _ _ _, _, fun _ => rfl, fun hs hbegin => ?_⟩
  refine (run_bind_ok hbegin).trans <| (run_bind_ok (rdGroup_settled hs hst a _)).trans <| (run_bind_ok (rdK_settled hs hst _)).trans ?_
  set old := if k = 0 then [] else (List.range (vcvtGroup (vcvtCount cc xx) xx)).map fun j => c.vreg (d + BitVec.ofNat 5 j) with hold
  refine (run_ite_then (a := old) (t := c) (fun hk => ?_) fun hk => ?_).trans ?_
  · rw [hold, if_pos hk]
    rfl
  · rw [hold, if_neg hk]
    exact rdGroup_settled hs hst d _
  exact drawsM_if_then _ fun _ => hdraw

end

/-- What the table gives of a floating-point vector word is what its effect hands over. -/
theorem fltLanes_computes {x : Ctx} {c : Core} {i : Instr} {p : Lanes × Core} (hst : x.st = .e) (hdraw : canDraw x c = true)
    (h : fltLanes x c i = some p) : Computes x c i p := by
  cases i
  case vfmaw => exact vfmaw_computes hst hdraw _ h
  case vcmp => exact vcmp_computes hst h
  case vcvt => exact vcvt_computes hst hdraw h
  case vfadd => exact vecFlt_computes (op := 0) hst hdraw (fun _ => rfl) h
  case vfsub => exact vecFlt_computes (op := 1) hst hdraw (fun _ => rfl) h
  case vfmul => exact vecFlt_computes (op := 2) hst hdraw (fun _ => rfl) h
  case vfmin => exact vecFlt_computes (op := 3) hst hdraw (fun _ => rfl) h
  case vfmax => exact vecFlt_computes (op := 4) hst hdraw (fun _ => rfl) h
  case vfrcp => exact vecFlt1_computes (op := 5) hst hdraw (fun _ => rfl) h
  case vfrsq => exact vecFlt1_computes (op := 6) hst hdraw (fun _ => rfl) h
  case vfabs => exact vecFlt1_computes (op := 7) hst hdraw (fun _ => rfl) h
  case vfma => exact vecFma_computes (op := 0) hst hdraw (fun _ => rfl) h
  case vfms => exact vecFma_computes (op := 1) hst hdraw (fun _ => rfl) h
  case vfnma => exact vecFma_computes (op := 2) hst hdraw (fun _ => rfl) h
  case vscale => exact vecScale_computes (un := false) hst hdraw (fun _ => rfl) h
  case vunscale => exact vecScale_computes (un := true) hst hdraw (fun _ => rfl) h
  case vrfadd => exact vecRedF_computes (op := 3) hst hdraw (fun _ => rfl) h
  case vrfmin => exact vecRedF_computes (op := 4) hst hdraw (fun _ => rfl) h
  case vrfmax => exact vecRedF_computes (op := 5) hst hdraw (fun _ => rfl) h
  all_goals cases h

/-! ### Dispatch (R174) -/

/-- A list of changes that each keep what g reads keeps it. -/
theorem foldl_keeps {α β γ : Type} (g : β → γ) {f : β → α → β} (h : ∀ b a, g (f b a) = g b) (l : List α) (b : β) : g (l.foldl f b) = g b := by
  induction l generalizing b with
  | nil => rfl
  | cons a l ih => rw [List.foldl_cons, ih, h]

@[simp] theorem setPend_sauq (c : Core) (st : Strm) (h : Nat) : (c.setPend st h).sauq = c.sauq := by
  unfold Core.setPend
  split
  · rfl
  · exact c.modSeq_sauq st _

@[simp] theorem setPend_ctl (c : Core) (st : Strm) (h : Nat) : (c.setPend st h).ctl = c.ctl := by
  unfold Core.setPend
  split
  · rfl
  · exact c.modSeq_ctl st _

/-- The operation that a word places in the dispatch queue. -/
def opOf (x : Ctx) (passes : Nat) (dests : List Nat) (work : SauWork) : SauOp := ⟨work, passes, dests, x.short, x.prio, x.grp, false, false⟩

/-- A dispatch that finds room, of a word that runs alone or not. -/
theorem dispatchM_run {x : Ctx} {c : Core} {alone : Bool} {passes : Nat} {dests : List Nat} {work : SauWork} (hs : c.settled x.st = true)
    (hroom : c.sauq.length < 8) : dispatchM x alone passes dests work c
      = .ok ((), dests.foldl (fun c h => c.setPend .e h) { c with sauq := c.sauq ++ [{ opOf x passes dests work with alone := alone }] }) := by
  unfold dispatchM
  refine (run_bind_ok rfl).trans <| (stallIf_then (decide_eq_false (not_le.mpr hroom)) _).trans <| (run_bind_ok (forM_free hs dests)).trans rfl

/-- What dispatches joins the end of the queue, and does not run alone. -/
theorem dispatched_alone {x : Ctx} {c c1 : Core} {r : Lanes} (h : dispatched x c r = some c1) : ∀ o ∈ c1.sauq.drop c.sauq.length, o.alone = false := by
  obtain ⟨-, h⟩ := guard_some h
  obtain rfl := Option.some.inj h
  rw [foldl_keeps Core.sauq fun _ _ => setPend_sauq _ _ _]
  simp

/-! ### The operation of a word that can raise an exception (R120) -/

/-- On core c, once nothing that came before is left to wait for, word i hands operation o to the SAU, from core c1, in which its draws are taken. -/
structure Dispatches (x : Ctx) (c : Core) (i : Instr) (o : SauOp) (c1 : Core) : Prop where
  op : o = opOf x o.passes o.dests o.work
  drawn : ∃ u, c1 = { c with ctl := u }
  effect : ∃ m, RunsSau i m ∧ (c.settled x.st = true → fpBegin x c = .ok ((), c) → m x c = dispatchM x (aloneM x true) o.passes o.dests o.work c1)

theorem vtab_dispatches {x : Ctx} {c c1 : Core} {n : BitVec 3} {d a b : BitVec 5} {k : BitVec 3} {f : BitVec 2} {o : SauOp} (hst : x.st = .e)
    (hdraw : canDraw x c = true) (h : fpOp x c (.vtab n d a b k f) = some (o, c1)) : Dispatches x c (.vtab n d a b k f) o c1 := by
  obtain ⟨-, h⟩ := ite_none h
  dsimp only at h
  obtain ⟨rfl, rfl⟩ := Prod.mk.inj (Option.some.inj h)
  refine ⟨rfl, drawn_core x c _, _, fun _ => rfl, fun hs hbegin => ?_⟩
  refine (run_bind_ok hbegin).trans <| (run_bind_ok (rdV_settled hs hst a)).trans <| (run_bind_ok (rdK_settled hs hst _)).trans ?_
  refine (run_ite_then (a := if k = 0 then 0 else c.vreg d) (t := c) (fun hk => ?_) fun hk => ?_).trans <| (run_bind_ok (drawsM_ok _ hdraw)).trans rfl
  · rw [if_pos hk]
    rfl
  · rw [if_neg hk]
    exact rdV_settled hs hst d

theorem fpOp_guard {x : Ctx} {c : Core} {i : Instr} {q : SauOp × Core} (h : fpOp x c i = some q) : x.st = .e ∧ canDraw x c = true := by
  obtain ⟨hguard, -⟩ := ite_none h
  rw [not_or, Bool.not_eq_false] at hguard
  refine ⟨?_, hguard.2⟩
  cases hst : x.st
  · exact absurd hst hguard.1
  · rfl

/-- What fpOp gives of a word is the operation that its effect hands over. -/
theorem fpOp_dispatches {x : Ctx} {c c1 : Core} {i : Instr} {o : SauOp} (h : fpOp x c i = some (o, c1)) : Dispatches x c i o c1 := by
  obtain ⟨hst, hdraw⟩ := fpOp_guard h
  obtain ⟨-, hop⟩ := ite_none h
  split at hop
  · exact vtab_dispatches hst hdraw h
  · obtain ⟨p, hp, hop⟩ := Option.bind_eq_some_iff.mp hop
    obtain ⟨-, hop⟩ := ite_none hop
    obtain ⟨rfl, rfl⟩ := Prod.mk.inj (Option.some.inj hop)
    obtain ⟨hdrawn, heffect⟩ := fltLanes_computes hst hdraw hp
    exact ⟨rfl, hdrawn, heffect⟩

/-! ### A word that dispatches while no enable is set -/

/-- With no enable set nothing is waited for, and the operation joins the queue. -/
theorem fvecWord_completes : Completes dueSau fvecWord := by
  intro s i c2 hs ht hr
  have h := State.atIssue_settled hs
  obtain ⟨hguard, ht⟩ := ite_none ht
  simp only [not_or, not_not, Bool.not_eq_false] at hguard
  obtain ⟨hne, hoff, hdraw⟩ := hguard
  have hst : s.ctx.st = .e := by
    cases hx : s.ctx.st
    · exact absurd hx hne
    · rfl
  obtain ⟨p, hp, ht⟩ := Option.bind_eq_some_iff.mp ht
  obtain ⟨-, hd⟩ := ite_none ht
  obtain ⟨⟨u, hu⟩, m, hi, hm⟩ := fltLanes_computes hst hdraw hp
  have h1 : p.2.settled s.ctx.st = true := by rwa [hu, Core.withCtl_settled]
  have hq : p.2.sauq = (s.core s.cur).sauq := by
    rw [hu]
    exact Core.modSeq_sauq _ _ _
  rw [hi s]
  refine issueSau_runs hr hs (fun o ho => dispatched_alone hd o (by rwa [hq])) ?_
  exact (hm h (fpBegin_ok h (by simp [fpReady, hoff]))).trans (sauWord_ok h1 (by simp [aloneM, hoff]) hd)

/-! ### A word that goes on running (R67, R120) -/

@[simp] theorem State.soon_core (s : State) (e : Ev) (n : Nat) : (s.soon e).core n = s.core n := by
  unfold State.soon
  split <;> rfl

theorem State.soon_setCore (s : State) (e : Ev) (n : Nat) (c : Core) : (s.soon e).setCore n c = (s.setCore n c).soon e := by
  unfold State.soon
  rw [State.setCore_later]
  split <;> rfl

/-- A word that issues alone and goes on running: its stream stands at it. -/
theorem issue_runsOn {i : Instr} {eff : Ctx → DM Next} {s s2 : State} (ha : issuesAlone s i = true)
    (hb : (s.core s.cur).selectorBefore s.strm (selector i) = true) (hu : (s.core s.cur).unharmed s.strm = true)
    (he : eff s.ctx (s.setCore s.cur s.atIssue) = .ok (.run, s2)) : issue i eff s = .next (runningOn s s2 s.ctx) := by
  obtain ⟨hissues, halone, huntimed, hjx, hlegal⟩ := issuesAlone_iff.mp ha
  have hcore : (s.setCore s.cur s.atIssue).core s.cur = s.atIssue := State.setCore_atIssue_core (canIssue_run hissues)
  have hfirst : firstWait s s.ctx (selector i) eff = none := if_pos hu
  have hperform : performM s.ctx (selector i) eff s = .ok ((.run, 0, false), s2) := by
    unfold performM
    refine (run_bind_ok (onCore_ok (before_ok hb))).trans <| (run_bind_ok rfl).trans ?_
    have hnojx : (((s.setCore s.cur s.atIssue).core s.cur).seq s.strm).jx = false := by
      rw [hcore, State.atIssue, Core.modSeq_seq, Seq.takeTgt_jx, hjx]
    refine (congrFun (if_neg (ne_true_of_eq_false hnojx)) _).trans ?_
    exact (run_bind_ok he).trans rfl
  simp only [issue, hissues, fwdFull_of_alone halone, huntimed, Bool.not_true, Bool.or_false, Bool.false_eq_true, if_false, hlegal]
  rw [show mkCtx s.cur s.strm s ((s.core s.cur).seq s.strm) (s.core s.cur).ctl.fpctl = s.ctx from rfl]
  simp only [tryWord, hfirst, hperform]

/-- The stream of a word that goes on running, once its branch target and condition are those from before it. -/
def standingAt (q r : Seq) : Seq :=
  { r with bt := q.bt, brPred := q.brPred, brSense := q.brSense, qstall := false, starved := false, waiting := true, safeAt := none, tried := false }

/-- The core of such a word: its stream st, which stood as q before it, stands at it. -/
def standsAt (c : Core) (st : Strm) (q : Seq) : Core := { c with ctl := { c.ctl with wdogCount := 0 } }.modSeq st (standingAt q)

theorem runningOn_eq (s s2 : State) :
    runningOn s s2 s.ctx = s2.setCore s.cur (standsAt (s2.core s.cur) s.strm ((s.core s.cur).seq s.strm)) := rfl

theorem standingAt_takeTgt (q : Seq) : (standingAt q q.takeTgt).data = q.data ∧ (standingAt q q.takeTgt).pc = q.pc := by
  unfold Seq.takeTgt
  split <;> exact ⟨rfl, rfl⟩

/-- The TGT of the word's group is taken back, and nothing else of its core has changed. -/
theorem standsAt_takeTgt (c : Core) (st : Strm) : Core.sameData st (standsAt (c.modSeq st Seq.takeTgt) st (c.seq st)) c
    ∧ ((standsAt (c.modSeq st Seq.takeTgt) st (c.seq st)).seq st).pc = (c.seq st).pc := by
  obtain ⟨hdata, hpc⟩ := standingAt_takeTgt (c.seq st)
  have hcore := congrArg ((c.data st).setSeq st) hdata
  cases st <;> exact ⟨⟨hcore, rfl, rfl⟩, hpc⟩

/-- Over core d, in which its effect leaves all but the branch target of its group, a word that goes on running changes no data. -/
theorem runningOn_stepped {s s2 : State} {d : Core} (hd : d.run ≠ .idle) (hcore : s2.core s.cur = d.modSeq s.strm Seq.takeTgt)
    (hseq : d.seq s.strm = (s.core s.cur).seq s.strm) :
    Stepped (s2.setCore s.cur d) (runningOn s s2 s.ctx) s.cur s.strm
      ∧ (((runningOn s s2 s.ctx).core s.cur).seq s.strm).pc = ((s.core s.cur).seq s.strm).pc := by
  obtain ⟨hdata, hpc⟩ := standsAt_takeTgt d s.strm
  have hrun := hdata.2.2.trans_ne hd
  rw [runningOn_eq, hcore, ← hseq]
  refine ⟨?_, by rw [State.setCore_core_self _ _ hrun, hpc]⟩
  rw [← State.setCore_setCore s2 s.cur hd hrun]
  exact Stepped.of_setCore (by rwa [State.setCore_core_self _ _ hd]) hrun

/-! ### A word that runs alone while an enable is set -/

@[simp] theorem setPend_run (c : Core) (st : Strm) (h : Nat) : (c.setPend st h).run = c.run := by
  unfold Core.setPend
  split
  · rfl
  · exact c.modSeq_run st _

/-- Core c once a word has handed operation o to the SAU to run alone, its draws reserved up to seed (R117, R120). -/
def startsAlone (x : Ctx) (c : Core) (o : SauOp) (seed : Word) : Core :=
  { c with
    sauq := [{ o with alone := true }]
    ctl := { c.ctl with srseed := seed }
    fpRun := some ⟨false, x.fpctl, x.short, (c.ctl.srseed, seed), none⟩ }

/-- What follows the effect of a word that runs alone: nothing of it is left but its operation and its draws (R120). -/
theorem fpStart_alone {s s1 : State} {x : Ctx} {o : SauOp} (hq : (s.core x.core).sauq = []) (hrun : (s.core x.core).fpRun = none)
    (hq1 : (s1.core x.core).sauq = [{ o with alone := true }]) (hbody : x.body = false) :
    fpStart s x s1 = .ok (.run, (s.setCore x.core (startsAlone x (s.core x.core) o (s1.core x.core).ctl.srseed)).soon (.sauStart (siteOf x.core))) := by
  have halone : (s.core x.core).alone? (s1.core x.core) = some { o with alone := true } := by
    simp [Core.alone?, hrun, hq, hq1]
  simp only [fpStart, run_bind, run_get, halone, run_set, run_pure]
  simp only [State.modCore, startsAlone, hq, hbody, List.nil_append]

theorem startsAlone_takeTgt (x : Ctx) (c : Core) (o : SauOp) (seed : Word) (st : Strm) :
    startsAlone x (c.modSeq st Seq.takeTgt) o seed = (startsAlone x c o seed).modSeq st Seq.takeTgt := by
  cases st <;> rfl

/-- The effect of a word that runs alone: its operation stands alone in the queue. -/
theorem Dispatches.alone {x : Ctx} {c c1 : Core} {i : Instr} {o : SauOp} (h : Dispatches x c i o c1) (hs : c.settled x.st = true)
    (hon : fpEnables x.fpctl ≠ 0) (hready : fpReady x c = true) (hq : c.sauq = []) :
    ∃ m c2, RunsSau i m ∧ m x c = .ok ((), c2) ∧ c2.sauq = [{ o with alone := true }] ∧ c2.ctl = c1.ctl ∧ c2.run = c.run := by
  obtain ⟨ho, ⟨u, rfl⟩, m, hi, hm⟩ := h
  have halone : aloneM x true = true := bne_iff_ne.mpr hon
  refine ⟨m, _, hi, (hm hs (fpBegin_ok hs hready)).trans (dispatchM_run ((Core.withCtl_settled _ _ _).trans hs) ?_), ?_, ?_, ?_⟩
  · show c.sauq.length < 8
    rw [hq]
    decide
  · rw [foldl_keeps Core.sauq fun _ _ => setPend_sauq _ _ _, hq, halone, ← ho]
    rfl
  · exact foldl_keeps Core.ctl (fun _ _ => setPend_ctl _ _ _) _ _
  · exact foldl_keeps Core.run (fun _ _ => setPend_run _ _ _) _ _

/-- A word of the SAU whose effect has left its operation alone in the queue goes on running. -/
theorem sauM_alone {m : Ctx → CM Unit} {s : State} {x : Ctx} {c2 : Core} {o : SauOp} (hq : (s.core x.core).sauq = [])
    (hrun : (s.core x.core).fpRun = none) (hbody : x.body = false) (hm : m x (s.core x.core) = .ok ((), c2)) (hidle : c2.run ≠ .idle)
    (hq2 : c2.sauq = [{ o with alone := true }]) : sauM (fun x => onCore x.core (m x)) x s
      = .ok (.run, (s.setCore x.core (startsAlone x (s.core x.core) o c2.ctl.srseed)).soon (.sauStart (siteOf x.core))) := by
  have hcore : (s.setCore x.core c2).core x.core = c2 := State.setCore_core_self _ _ hidle
  have hstart := fpStart_alone (s1 := s.setCore x.core c2) hq hrun (by rw [hcore, hq2]) hbody
  rw [hcore] at hstart
  unfold sauM
  refine (run_bind_ok (run_get _)).trans ?_
  rw [hrun]
  exact (run_bind_ok (onCore_ok hm)).trans hstart

theorem Core.settled_unharmed {c : Core} {st : Strm} (h : c.settled st = true) : c.unharmed st = true := by
  obtain ⟨-, -, hexp, -, hbad, -⟩ := Core.settled_iff.mp h
  simp [Core.unharmed, hexp, hbad]

/-- Such a word's stream stands at it, with the branch target from before it. -/
theorem startsAlone_stepped {s : State} {o : SauOp} {seed : Word} {e : Ev} (hidle : (s.core s.cur).run ≠ .idle) :
    Stepped ((s.setCore s.cur (startsAlone s.ctx (s.core s.cur) o seed)).soon e)
        (runningOn s (((s.setCore s.cur s.atIssue).setCore s.cur (startsAlone s.ctx s.atIssue o seed)).soon e) s.ctx) s.cur s.strm
      ∧ (((runningOn s (((s.setCore s.cur s.atIssue).setCore s.cur (startsAlone s.ctx s.atIssue o seed)).soon e) s.ctx).core s.cur).seq s.strm).pc
        = ((s.core s.cur).seq s.strm).pc := by
  have hidle0 : s.atIssue.run ≠ .idle := by rwa [State.atIssue_run]
  have hidle2 : (startsAlone s.ctx s.atIssue o seed).run ≠ .idle := hidle0
  set s1 := ((s.setCore s.cur s.atIssue).setCore s.cur (startsAlone s.ctx s.atIssue o seed)).soon e with hs1
  have hcore : s1.core s.cur = (startsAlone s.ctx (s.core s.cur) o seed).modSeq s.strm Seq.takeTgt := by
    rw [hs1, State.soon_core, State.setCore_core_self _ _ hidle2]
    exact startsAlone_takeTgt _ _ _ _ _
  have hidle3 : (startsAlone s.ctx (s.core s.cur) o seed).run ≠ .idle := hidle
  have hput : s1.setCore s.cur (startsAlone s.ctx (s.core s.cur) o seed) = (s.setCore s.cur (startsAlone s.ctx (s.core s.cur) o seed)).soon e := by
    rw [hs1, State.soon_setCore, State.setCore_setCore _ _ hidle2 hidle3, State.setCore_setCore _ _ hidle0 hidle3]
  rw [← hput]
  exact runningOn_stepped hidle hcore rfl

/-- With one set the word hands over its operation, and stands until its flags are known. -/
theorem fpOp_startsAlone {s : State} {i : Instr} {o : SauOp} {c1 : Core} (hs : (s.core s.cur).settled s.strm = true)
    (hon : fpEnables s.ctx.fpctl ≠ 0) (hready : fpReady s.ctx s.atIssue = true) (hop : fpOp s.ctx s.atIssue i = some (o, c1))
    (ha : issuesAlone s i = true) (hb : (s.core s.cur).selectorBefore s.strm (selector i) = true) :
    ∃ t, exec i s = .next t
      ∧ Stepped ((s.setCore s.cur (startsAlone s.ctx (s.core s.cur) o c1.ctl.srseed)).soon (.sauStart (siteOf s.cur))) t s.cur s.strm
      ∧ ((t.core s.cur).seq s.strm).pc = ((s.core s.cur).seq s.strm).pc := by
  have h := State.atIssue_settled hs
  have hrunning := canIssue_run (issuesAlone_iff.mp ha).1
  have hidle : (s.core s.cur).run ≠ .idle := by rw [hrunning]; decide
  have hidle0 : s.atIssue.run ≠ .idle := by rwa [State.atIssue_run]
  have hcore0 : (s.setCore s.cur s.atIssue).core s.ctx.core = s.atIssue := State.setCore_atIssue_core hrunning
  have hempty : s.atIssue.sauq = [] := by
    simp only [fpReady, Bool.or_eq_true, beq_iff_eq, hon, false_or, Bool.and_eq_true, List.isEmpty_iff] at hready
    exact hready.1.1.1
  obtain ⟨-, -, -, -, -, -, hnorun, -⟩ := Core.settled_iff.mp h
  obtain ⟨m, c2, hi, hm, hq2, hctl2, hrun2⟩ := (fpOp_dispatches hop).alone h hon hready hempty
  have hsau := sauM_alone (m := m) (s := s.setCore s.cur s.atIssue) (x := s.ctx) (by rw [hcore0, hempty]) (by rw [hcore0, hnorun]) rfl
    (by rwa [hcore0]) (hrun2.trans_ne hidle0) hq2
  rw [hcore0, hctl2] at hsau
  exact ⟨_, (hi s).trans (issue_runsOn ha hb (Core.settled_unharmed hs) hsau), startsAlone_stepped hidle⟩

/-! ### The end of a word that has run alone -/

@[simp] theorem Core.setMain_settled (c : Core) (st st' : Strm) (h : Nat) (v : Vec) : (c.setMain st h v).settled st' = c.settled st' := by
  unfold Core.setMain
  split_ifs <;> cases st <;> cases st' <;> rfl

/-- A write leaves a settled core settled (R95, R96). -/
theorem Core.putHome_settled {c : Core} {st : Strm} (hs : c.settled st = true) (h : Nat) (v : Vec) : (c.putHome st h v).settled st = true := by
  obtain ⟨hpend, hpunty, hexp, hwb, hbad, hvrep, hrun, huse⟩ := Core.settled_iff.mp hs
  rw [Core.putHome, Core.setMain_settled, Core.settled_iff]
  cases st <;> simp_all [Core.freeHome, Core.modSeq, Core.setSeq, Core.seq, Core.puntyUse]

theorem Core.result_settled {x : Ctx} {c : Core} (hs : c.settled x.st = true) (hshort : x.short = false) (h : Nat) (v : Vec) :
    (c.result x h v).settled x.st = true := by
  unfold Core.result
  split
  · exact hs
  · rw [hshort, if_neg Bool.false_ne_true]
    exact Core.putHome_settled hs h v

/-- The results of a word that has run alone, each in its register (R95). -/
theorem forM_wrHome {x : Ctx} {c : Core} {ws : List (Nat × Vec)} (hs : c.settled x.st = true) (hlen : ws.length ≤ if x.short then 1 else 32) :
    (ws.forM fun w => wrHome x w.1 w.2 : CM Unit) c = .ok ((), ws.foldl (fun c w => c.result x w.1 w.2) c) := by
  induction ws generalizing c with
  | nil => rfl
  | cons w ws ih =>
    refine (run_bind_ok (wrHome_settled hs w.1 w.2)).trans ?_
    by_cases hshort : x.short = true
    · obtain rfl : ws = [] := by simpa [hshort] using hlen
      rfl
    · have hmore : ws.length ≤ if x.short then 1 else 32 := by
        rw [List.length_cons] at hlen
        omega
      exact ih (Core.result_settled hs (by simpa using hshort) w.1 w.2) hmore

/-- The core once such a word has delivered its results, in terms of a single result. -/
theorem ranAlone_eq {x : Ctx} (hst : x.st = .e) (short : Bool) (c : Core) (ws : List (Nat × Vec)) (fl : BitVec 5) :
    ranAlone x short c ws fl = ws.foldl (fun c w => c.result { x with short := short } w.1 w.2) ({ c with fpRun := none }.orFlags fl x.cycle) := by
  unfold ranAlone Core.result
  rw [hst]

@[simp] theorem Core.result_run (c : Core) (x : Ctx) (h : Nat) (v : Vec) : (c.result x h v).run = c.run := by
  unfold Core.result
  split_ifs
  · rfl
  · exact Core.putShort_run _ _ _ _ _
  · exact Core.putHome_run _ _ _ _

theorem ranAlone_run {x : Ctx} (hst : x.st = .e) (short : Bool) (c : Core) (ws : List (Nat × Vec)) (fl : BitVec 5) :
    (ranAlone x short c ws fl).run = c.run := by
  rw [ranAlone_eq hst]
  exact foldl_keeps Core.run (fun _ _ => Core.result_run _ _ _ _) _ _

/-- Such a word ends in its results and flags, when none of these is enabled (R120). -/
theorem fpFinish_ran {x : Ctx} {s : State} {r : FpRun} {ws : List (Nat × Vec)} {fl : BitVec 5} (hst : x.st = .e)
    (hs : ({ s.core x.core with fpRun := none } : Core).settled x.st = true) (hlen : ws.length ≤ if r.short then 1 else 32)
    (hoff : fl &&& fpEnables r.fpctl = 0) :
    fpFinish x r ws fl s = .ok (.seq, s.setCore x.core (ranAlone x r.short (s.core x.core) ws fl)) := by
  have hflags : flagged { x with fpctl := r.fpctl } { s.core x.core with fpRun := none } fl
      = some (({ s.core x.core with fpRun := none } : Core).orFlags fl x.cycle) := if_pos hoff
  unfold fpFinish
  refine (run_bind_ok (onCore_ok (a := ()) ?_)).trans rfl
  refine (run_bind_ok (run_modify _ _)).trans <| (run_bind_ok (fpEnd_flagged hflags)).trans ?_
  rw [ranAlone_eq hst]
  exact forM_wrHome (x := { x with short := r.short }) (flagged_settled hs hflags) hlen

/-- A TGT of the group leaves a core settled whose word has run alone. -/
theorem atIssue_settled_ran {s : State} (h : ({ s.core s.cur with fpRun := none } : Core).settled s.strm = true)
    (hrun : (s.core s.cur).run ≠ .idle) : ({ s.atIssue with fpRun := none } : Core).settled s.ctx.st = true := by
  have hself : (s.setCore s.cur { s.core s.cur with fpRun := none }).core s.cur = { s.core s.cur with fpRun := none } :=
    State.setCore_core_self _ _ hrun
  have hat := State.atIssue_settled (s := s.setCore s.cur { s.core s.cur with fpRun := none })
    (by rw [State.setCore_cur, State.setCore_strm, hself]; exact h)
  unfold State.atIssue at hat ⊢
  rw [State.setCore_cur, State.setCore_strm, hself] at hat
  revert hat
  show Core.settled _ s.strm = true → Core.settled _ s.strm = true
  cases s.strm <;> exact id

/-- The end of such a word: its results and flags are there, and it goes on with its selector (R120). -/
theorem fpOp_ends {s : State} {i : Instr} {o : SauOp} {c1 : Core} {f : Word} {short : Bool} {seed : Word × Word} {ws : List (Nat × Vec)} {fl : BitVec 5}
    (hfp : (s.core s.cur).fpRun = some ⟨false, f, short, seed, some (ws, fl)⟩)
    (hs : ({ s.core s.cur with fpRun := none } : Core).settled s.strm = true) (hop : fpOp s.ctx s.atIssue i = some (o, c1))
    (hlen : ws.length ≤ if short then 1 else 32) (hoff : fl &&& fpEnables f = 0) (hr : s.runs i (ranAlone s.ctx short s.atIssue ws fl) = true) :
    ∃ t, exec i s = .next t ∧ Stepped (s.setCore s.cur (ranAlone s.ctx short s.atIssue ws fl)) t s.cur s.strm
      ∧ Goes s.ctx (selector i) (s.atIssue.seq s.strm) (ranAlone s.ctx short s.atIssue ws fl) (t.core s.cur) := by
  obtain ⟨hst, -⟩ := fpOp_guard hop
  obtain ⟨-, -, m, hi, -⟩ := fpOp_dispatches hop
  have hrunning := State.runs_running hr
  have hcore0 := State.setCore_atIssue_core hrunning
  have hrun : (ranAlone s.ctx short s.atIssue ws fl).run = (s.core s.cur).run := (ranAlone_run hst _ _ _ _).trans (State.atIssue_run s)
  have hself : (s.setCore s.cur (ranAlone s.ctx short s.atIssue ws fl)).core s.cur = ranAlone s.ctx short s.atIssue ws fl :=
    State.setCore_core_self _ _ (by rw [hrun, hrunning]; decide)
  have hfp0 : s.atIssue.fpRun = some ⟨false, f, short, seed, some (ws, fl)⟩ := (Core.modSeq_fpRun _ _ _).trans hfp
  have hfinish := fpFinish_ran (x := s.ctx) (s := s.setCore s.cur s.atIssue) (r := ⟨false, f, short, seed, some (ws, fl)⟩) hst
    (by rw [State.ctx_core, hcore0]; exact atIssue_settled_ran hs (by rw [hrunning]; decide)) hlen hoff
  rw [State.ctx_core, hcore0] at hfinish
  have hsau : sauM (fun x => onCore x.core (m x)) s.ctx (s.setCore s.cur s.atIssue)
      = .ok (.seq, (s.setCore s.cur s.atIssue).setCore s.cur (ranAlone s.ctx short s.atIssue ws fl)) := by
    unfold sauM
    refine (run_bind_ok (run_get _)).trans ?_
    rw [State.ctx_core, hcore0, hfp0]
    exact hfinish
  have hgoes := issue_setCore_goes hrun (by rwa [hself]) hsau
  rw [hself] at hgoes
  rwa [hi s]

/-- Settles O21: a word computes its lanes from its operands and its draws alike, whether it is then dispatched or runs alone. That .sat leaves
VFMIN, VFMAX, VFABS, VRFMIN and VRFMAX alone, and that stochastic rounding has no cut-off towards integers, are the model's choices (log entries 128,
129). -/
theorem vectorFloatWords : Obligations.VectorFloatWords :=
  ⟨fvecWord_completes, fun _ _ _ _ => fpOp_startsAlone, fun _ _ _ _ _ _ _ _ _ => fpOp_ends⟩

end Sys2Proof.Slice0
end

section
/-!
SUPPORT. The scalar integer words (R130 to R133, R136, R138 to R140): what each of them computes, in the terms of the table of effects, the word of LEA,
and words that the spec prints.
-/

namespace Sys2Proof.Machine

/-! ### Values -/

/-- The amount of an immediate shift is one of the 64 that a shift tells apart (R131). -/
theorem shiftImm_mod (im : BitVec 5) (h : BitVec 1) : (shiftImm im h).toNat % 64 = 32 * h.toNat + im.toNat := by
  have him := im.isLt
  have hh := h.isLt
  rw [shiftImm, BitVec.toNat_ofNat]
  omega

/-- The product is the low half of the product of the unsigned values (R136). -/
theorem mul_eq_ofNat (u v : Word) : u * v = BitVec.ofNat 64 (u.toNat * v.toNat) := BitVec.eq_of_toNat_eq (BitVec.toNat_mul u v)

/-- A scaled sum wraps only at its end (R139). -/
theorem add_shiftLeft_eq_ofNat (u v : Word) (k : Nat) : u + v <<< k = BitVec.ofNat 64 (u.toNat + v.toNat * 2 ^ k) := by
  apply BitVec.eq_of_toNat_eq
  rw [BitVec.toNat_add, BitVec.toNat_shiftLeft, Nat.shiftLeft_eq, Nat.add_mod_mod, BitVec.toNat_ofNat]

/-- A first source in a register takes nothing from a queue (R130). -/
theorem Core.source_register (c : Core) (st : Strm) (n : BitVec 5) : c.source st 0 n = some (c.reg st n, c) := rfl

end Sys2Proof.Machine

namespace Sys2Proof.Slice0

open Sys2Proof.Machine

/-! ### The table of one source and a function -/

section

variable {x : Ctx} {c c2 : Core} {d a b : BitVec 5} {q : BitVec 2} {f g : Core → Word → Word}

/-- Only what the function says on the core that the source leaves counts. -/
theorem fromSource_congr (hfg : ∀ u c1, c.source x.st q a = some (u, c1) → f c1 u = g c1 u) : fromSource x c q d a f = fromSource x c q d a g := by
  unfold fromSource
  split
  · rename_i u c1 hsrc
    rw [hfg u c1 hsrc]
  · rfl

/-- A word whose operands are all registers reads them all from the core before it. -/
theorem fromSource_register (x : Ctx) (c : Core) (d a : BitVec 5) (f : Core → Word → Word) :
    fromSource x c 0 d a f = some (c.resultX x d (f c (c.reg x.st a))) := rfl

/-! ### The words that read more than their two operands -/

/-- SEL reads its predicate before its source, which changes no predicate (R131). -/
theorem sel_ok {p : BitVec 3} (hs : c.settled x.st = true)
    (ht : fromSource x c q d a (fun c1 u => if (c1.seq x.st).pred p.toNat then u else c1.reg x.st b) = some c2) :
    (do let t ← rdP x p.toNat; alu2 (fun u v => if t then u else v) q d a b x : CM Unit) c = .ok ((), c2) := by
  refine (run_bind_ok (show rdP x p.toNat c = .ok ((c.seq x.st).pred p.toNat, c) from rfl)).trans (alu2_fromSource hs (fun _ _ => rfl) ?_)
  refine (fromSource_congr fun u c1 hsrc => ?_).trans ht
  rw [(source_frame hsrc).1]

/-- BFI reads its destination before its source (R138). -/
theorem bfi_ok (hs : c.settled x.st = true) (ht : fromSource x c 0 d a (fun c1 u => bfiW (c1.reg x.st d) u (c1.reg x.st b)) = some c2) :
    (do let old ← rdX x d; alu2 (bfiW old) 0 d a b x : CM Unit) c = .ok ((), c2) := by
  refine (run_bind_ok (rdX_settled hs d)).trans (alu2_ok hs (c.source_register x.st a) ?_)
  rwa [fromSource_register] at ht

/-- GEOM reads the geometry register before its source (R140). -/
theorem geom_ok {k : BitVec 2} (hs : c.settled x.st = true) (ht : fromSource x c 0 d a (fun c1 u => geomW c1.ctl.geo u.toNat k) = some c2) :
    (do let s ← get; alu1 (fun u => geomW s.ctl.geo u.toNat k) 0 d a x : CM Unit) c = .ok ((), c2) := by
  refine (run_bind_ok (run_get c)).trans (alu1_ok hs (c.source_register x.st a) ?_)
  rwa [fromSource_register] at ht

end

/-! ### The statements -/

/-- Settles O11: every word waits for nothing, takes its source and delivers one result, in one of the three shapes of R130 and R133; only SEL, BFI and
GEOM read anything else. -/
theorem integerWords : Obligations.IntegerWords := by
  intro s i c hs ht hr
  have h := State.atIssue_settled hs
  cases i
  case add | sub | and | or | xor | shl | shr | sha | mulh | mulhZ64 | bfx | bfxZ64 | lea =>
    exact issueU_runs hr (alu2_fromSource h (fun _ _ => rfl) ht)
  case min | max => exact issueU_runs hr (alu2_fromSource h (fun _ _ => (if_congr BitVec.slt_iff_toInt_lt rfl rfl).symm) ht)
  case minZ64 | maxZ64 => exact issueU_runs hr (alu2_fromSource h (fun _ _ => (if_congr BitVec.ult_iff_lt rfl rfl).symm) ht)
  case mul => exact issueU_runs hr (alu2_fromSource h (fun _ _ => (mul_eq_ofNat _ _).symm) ht)
  case clz | popc | mov => exact issueU_runs hr (alu1_fromSource h (fun _ _ => rfl) ht)
  case shlImm _ _ _ im _ k => exact issueU_runs hr (alu1_fromSource h (fun _ u => congrArg (u <<< ·) (shiftImm_mod im k).symm) ht)
  case shrImm _ _ _ im _ k => exact issueU_runs hr (alu1_fromSource h (fun _ u => congrArg (u >>> ·) (shiftImm_mod im k).symm) ht)
  case shaImm _ _ _ im _ k => exact issueU_runs hr (alu1_fromSource h (fun _ u => congrArg u.sshiftRight (shiftImm_mod im k).symm) ht)
  case addImm | andImm | orImm | xorImm => exact issueU_runs hr (aluImm_fromSource h (fun _ _ => rfl) ht)
  case sel => exact issueU_runs hr (sel_ok h ht)
  case bfi => exact issueU_runs hr (bfi_ok h ht)
  case geom => exact issueU_runs hr (geom_ok h ht)
  all_goals cases ht

/-- The low byte of LEA holds fn 4 + sc of major 3 (R139). -/
theorem encode_lea (n : BitVec 3) (d a b : BitVec 5) (k : BitVec 2) :
    encode (.lea n d a b k) = some (n ++ 3#6 ++ d ++ a ++ b ++ (4#8 + k.setWidth 8)) := by
  have hfn : 4#8 + k.setWidth 8 = 1#6 ++ k := by
    revert k
    decide
  rw [hfn]
  exact congrArg some BitVec.append_assoc

/-- What the table says of LEA: both of its operands are registers, and its sum wraps once (R139). -/
theorem intWord_lea (x : Ctx) (c : Core) (n : BitVec 3) (d a b : BitVec 5) (k : BitVec 2) :
    intWord x c (.lea n d a b k) = some (c.resultX x d (BitVec.ofNat 64 ((c.reg x.st a).toNat + (c.reg x.st b).toNat * 2 ^ k.toNat))) := by
  rw [← add_shiftLeft_eq_ofNat]
  exact fromSource_register x c d a fun c u => u + c.reg x.st b <<< k.toNat

/-- Settles O13: LEA encodes as its row has it, and is one of the integer words. -/
theorem leaAddsScaled : Obligations.LeaAddsScaled := by
  intro s n d a b k
  refine ⟨encode_lea n d a b k, fun hs hr => ?_⟩
  obtain ⟨t, hexec, hstepped, -⟩ := integerWords s _ _ hs (intWord_lea s.ctx s.atIssue n d a b k) hr
  exact ⟨t, hexec, hstepped⟩

/-- Settles O1: each of the fifteen words, a closed fact of the decoder. -/
theorem sampleWordsDecode : Obligations.SampleWordsDecode := by
  unfold Obligations.SampleWordsDecode
  decide

end Sys2Proof.Slice0
end

section
/-!
SUPPORT. Accesses that no window of the owner admits (R165 to R167, R299).
-/

namespace Sys2Proof.Machine

/-- A packet that is done leaves every core as it was. -/
theorem State.settle_core (s : State) (p : Packet) (status : Int) : (s.settle p status).core = s.core :=
  State.read_eq_of_offNet (s.settle_offNet p status) State.core fun _ => rfl

end Sys2Proof.Machine

namespace Sys2Proof.Slice0

open Sys2Proof.Machine

section
variable {s : State} {p : Packet} {n : Nat}

/-- A read that no window grants is answered with -1 as it arrives. -/
theorem read_refused {a len back : Nat} (hp : s.packet? p.id = some p) (hl : s.landing p = .at_ n) (hphase : p.phase = 0)
    (hpay : p.pay = .read a len back) (hnone : ((s.core n).admitting fun w => windowGrants w 62 a len (s.core p.src)) = none) :
    exec (.packetArrival p.id) s = .next (s.settle p (-1)) := by
  have hcore : forCore p.pay = true := by rw [hpay]; rfl
  have hfresh : staleReply s p = false := by simp only [staleReply, hpay]
  have hfree : replyWaits s p = false := by simp only [replyWaits, hpay]
  rw [exec_packetArrival, execPacketArrival_eq_land hp hphase hcore hfresh hfree, State.land_at hl]
  simp only [performed, hpay, hnone, Option.isNone_none, if_true]

/-- A deposit that no window admits is answered with -1 as it arrives, whatever register it names. -/
theorem deposit_refused {reg : Nat} {v : Word} {retry : Bool} (hp : s.packet? p.id = some p) (hl : s.landing p = .at_ n) (hphase : p.phase = 0)
    (hpay : p.pay = .deposit reg v retry false) (hnone : ((s.core n).admitting fun w => windowDeposits w (some reg) (s.core p.src)) = none) :
    exec (.depositArrival p.id) s = .next (s.settle p (-1)) := by
  simp [execDepositArrival, hp, hpay, hphase, State.land_at hl, hnone]

theorem notify_refused {m : BitVec 32} (hp : s.packet? p.id = some p) (hl : s.landing p = .at_ n) (hphase : p.phase = 0)
    (hpay : p.pay = .notify m) (hnone : ((s.core n).admitting fun w => windowDeposits w none (s.core p.src)) = none) :
    exec (.notifyArrival p.id) s = .next (s.settle p (-1)) := by
  simp [execNotifyArrival, hp, hpay, hphase, State.land_at hl, hnone]

/-- A write that comes from another core and that no window grants is answered with -1 when it would land. -/
theorem write_refused {kind a : Nat} {bs : List Byte} {post : Option Nat} (hl : s.landing p = .at_ n) (hsrc : n ≠ p.src)
    (hpay : p.pay = .write kind a bs post) (hnone : ((s.core n).admitting fun w => windowGrants w 61 a bs.length (s.core p.src)) = none) :
    s.landNow p false = s.settle p (-1) := by
  have hother : ¬ (kind = 2 ∧ n = p.src) := fun h => hsrc h.2
  simp only [State.landNow, State.land_at hl, hpay, landWrite, hother, false_and, if_false, hnone]

end

/-- Settles O59: each of the four accesses is settled with -1 at once, and what settles a packet touches the network alone. -/
theorem refusedAccessesChangeNothing : Obligations.RefusedAccessesChangeNothing := by
  intro s p n hp hl hsrc
  refine ⟨fun i hphase h => ?_, fun kind a bs post hpay hnone => write_refused hl hsrc hpay hnone, congrFun (s.settle_core p (-1)) n⟩
  obtain ⟨rfl, a, len, back, hpay, hnone⟩ | ⟨rfl, reg, v, retry, hpay, hnone⟩ | ⟨rfl, m, hpay, hnone⟩ := h
  · exact read_refused hp hl hphase hpay hnone
  · exact deposit_refused hp hl hphase hpay hnone
  · exact notify_refused hp hl hphase hpay hnone

end Sys2Proof.Slice0
end

section
/-!
SUPPORT. The steps of the matrix slice (R200 to R217), and of the joins of MMAJ and ROT (R162 to R164, R211), under the conditions that their table names.
-/

namespace Sys2Proof.Machine

/-! ### Rows that a core sends to itself (R216, R217) -/

theorem State.setCore_core_self_of_ne (s : State) (n : Nat) {c : Core} (h : c ≠ {}) : (s.setCore n c).core n = c := Store.get_set_self_of_ne _ _ h

/-- A core with a word in its matrix queue has a place among the cores of the module. -/
theorem Core.ne_default_of_queue {c : Core} (h : c.mat.queue ≠ []) : c ≠ {} := by
  rintro rfl
  exact h rfl

/-- The parts of a core that tell where it stands, and what its matrix slice has to do. -/
def Core.standing (c : Core) : Nat × Matrix := (c.logical, c.mat)

@[simp] theorem Core.landUlm_standing (c : Core) (a : Nat) (bs : List Byte) : (c.landUlm a bs).standing = c.standing := by
  obtain ⟨u, ws, gs, h⟩ := c.landUlm_eq a bs
  rw [h]
  rfl

@[simp] theorem Core.wake_standing (c : Core) (ask : Nat) (bit : Word) : (c.wake ask bit).standing = c.standing := by
  unfold Core.wake
  split
  · split <;> rfl
  · rfl

@[simp] theorem Core.arrive_standing (c : Core) (ctr amount : Nat) : (c.arrive ctr amount).standing = c.standing := Core.wake_standing _ _ _

/-- A change of a core that leaves its matrix queue, which holds a word, is read back. -/
theorem State.modCore_standing {s : State} {n : Nat} {f : Core → Core} (hf : (f (s.core n)).standing = (s.core n).standing)
    (hq : (s.core n).mat.queue ≠ []) : ((s.modCore n f).core n).standing = (s.core n).standing := by
  have hmat : (f (s.core n)).mat = (s.core n).mat := congrArg Prod.snd hf
  rw [State.modCore, s.setCore_core_self_of_ne n (Core.ne_default_of_queue (hmat ▸ hq)), hf]

/-- What lands in the ULM of a core with a word in its matrix queue leaves where the core stands. -/
theorem landPosted_standing {s : State} {n a : Nat} {bs : List Byte} {post : Option Nat} (hq : (s.core n).mat.queue ≠ []) :
    ((landPosted s n a bs post).2.core n).standing = (s.core n).standing := by
  cases herr : (s.core n).keepError a bs.length with
  | some e => rw [landPosted_of_error post herr]
  | none =>
    have hland : ((s.modCore n fun c => c.landUlm a bs).core n).standing = (s.core n).standing := State.modCore_standing (Core.landUlm_standing _ a bs) hq
    have hposted : (landPosted s n a bs post).2 = postArrival (s.modCore n fun c => c.landUlm a bs) n post := by
      simp only [landPosted, landRemote, herr, if_true]
      rfl
    rw [hposted]
    cases post with
    | none => exact hland
    | some k =>
      have hmat : ((s.modCore n fun c => c.landUlm a bs).core n).mat = (s.core n).mat := congrArg Prod.snd hland
      exact (State.modCore_standing (Core.arrive_standing _ k 1) (hmat ▸ hq)).trans hland

theorem landPosted_census (s : State) (n a : Nat) (bs : List Byte) (post : Option Nat) : (landPosted s n a bs post).2.census = s.census := by
  cases herr : (s.core n).keepError a bs.length with
  | some e => rw [landPosted_of_error post herr]
  | none =>
    simp only [landPosted, landRemote, herr, if_true]
    cases post <;> rfl

theorem landPosted_logicalOf {s : State} {n a : Nat} {bs : List Byte} {post : Option Nat} (hq : (s.core n).mat.queue ≠ []) :
    (landPosted s n a bs post).2.logicalOf n = s.logicalOf n := by
  have hlogical : ((landPosted s n a bs post).2.core n).logical = (s.core n).logical := congrArg Prod.fst (landPosted_standing hq)
  simp only [State.logicalOf, State.tileAt, hlogical, landPosted_census]

/-- Only a queue that holds a word has a first word of a unit. -/
theorem Core.matHead_queue {c : Core} {u : Nat} {h : List MatEntry × MatEntry × List MatEntry} (hh : c.matHead u = some h) : c.mat.queue ≠ [] := by
  intro hnil
  rw [Core.matHead, hnil] at hh
  cases hh

/-! ### The regions of a ROT (R163, R247) -/

/-- No region of a ROT waits for an older access, and every byte of theirs is sound. -/
theorem rots_ready {s : State} {len : Nat} {rs : List (Nat × Nat × Nat × Nat × Nat)}
    (h : (rs.all fun r => !(s.core r.1).engineBlocked r.2.1 r.2.2.1 len true && ((s.core r.1).ulmError r.2.2.1 len).isNone) = true) :
    (rs.any fun r => (s.core r.1).engineBlocked r.2.1 r.2.2.1 len true) = false
      ∧ (rs.findSome? fun r => ((s.core r.1).ulmError r.2.2.1 len).map fun e => (r.1, e)) = none := by
  simp only [List.all_eq_true, Bool.and_eq_true, Bool.not_eq_true', Option.isNone_iff_eq_none] at h
  refine ⟨List.any_eq_false.mpr fun r hr => ?_, List.findSome?_eq_none_iff.mpr fun r hr => ?_⟩
  · rw [(h r hr).1]
    decide
  · rw [(h r hr).2]
    rfl

/-! ### Accesses to global memory -/

/-- An access that is translated and can act does not wait (R382, R431). -/
theorem State.accessWaits_of_canAct {s : State} {core loc : Nat} {d : Bool} {k : Cmd} (hxl : k.xl = some (loc, d)) (h : Slice0.canAct s k loc = true) :
    s.accessWaits core k = none := by
  simp only [Slice0.canAct, Bool.and_eq_true, Bool.not_eq_true'] at h
  obtain ⟨hheld, hfar⟩ := h
  rw [State.accessWaits, hxl]
  cases htarget : k.target with
  | none => rfl
  | some r =>
    obtain ⟨va, len, kind⟩ := r
    cases hf : k.far with
    | none => simp [hheld]
    | some f =>
      simp only [hf] at hfar
      simp only [hheld, Bool.false_eq_true, if_false]
      exact if_pos hfar

end Sys2Proof.Machine

namespace Sys2Proof.Slice0

open Sys2Proof.Machine

section
variable {s t : State} {n : Nat}

/-- The joins that the table ends are those that the step ends. -/
theorem joinsEnd_eq {tile : Nat} {js : List (Nat × JoinWait)} {r : Option Nat} (h : s.joins tile = js) : joinsEnd s tile r = s.setJoins js r :=
  h ▸ rfl

/-- The loader fills a latch from ULM, or begins a global stream. -/
theorem mldFill_happens (h : matrixStep s (.mldFill n) = some t) : exec (.mldFill n) s = .next t := by
  simp only [matrixStep] at h
  rw [exec_mldFill, execMldFill]
  cases hhead : (s.core n).matHead 0 with
  | none => simp only [hhead] at h; cases h
  | some r =>
    obtain ⟨before, e, after⟩ := r
    simp only [hhead] at h ⊢
    cases hword : e.word
    case mld id target tr srcbytes wbits rows =>
      simp only [hword] at h ⊢
      obtain ⟨⟨hwaits, hfree, hclean⟩, rfl⟩ := onlyIf_eq h
      have hunblocked : (rows.any fun a => (s.core n).engineBlocked id a srcbytes false) = false := by simpa using hfree
      have hsound : (rows.findSome? fun a => (s.core n).ulmError a srcbytes) = none := by simpa using hclean
      simp only [hwaits, Bool.false_eq_true, if_false, hunblocked, hsound]
    case stream id target =>
      simp only [hword] at h ⊢
      obtain ⟨hwaits, rfl⟩ := onlyIf_eq h
      simp only [hwaits, Bool.false_eq_true, if_false]
    all_goals simp only [hword] at h; cases h

/-- A piece of a source row arrives; the last piece of the last row ends the load. -/
theorem globalStreamRow_happens {id : Nat} (h : matrixStep s (.globalStreamRow n id) = some t) : exec (.globalStreamRow n id) s = .next t := by
  simp only [matrixStep] at h
  rw [exec_globalStreamRow, execGlobalStreamRow]
  cases hcmd : (s.core n).cmd? id with
  | none => simp only [hcmd] at h; cases h
  | some k =>
    simp only [hcmd] at h ⊢
    cases hop : k.op
    case mldStream target nsrc srcbytes va stride tr wbits =>
      cases hxl : k.xl with
      | none => simp only [hop, hxl] at h; cases h
      | some place =>
        obtain ⟨loc, described⟩ := place
        simp only [hop, hxl] at h ⊢
        obtain ⟨⟨hopen, hact, hsound⟩, rfl⟩ := onlyIf_eq h
        have hmore (u v : Nat) : decide (u < v) = !decide (v ≤ u) := by rw [← decide_not, decide_eq_decide, Nat.not_le]
        simp only [Cmd.open_, hopen, State.accessWaits_of_canAct hxl hact, hsound, hmore, ← apply_ite Host.Outcome.next]
        refine congrArg _ ?_
        -- whether the row is at its end, and whether it is a column of the latch
        cases decide (srcbytes ≤ (chunkOf (va + k.row * stride) srcbytes k.gran).1 + (chunkOf (va + k.row * stride) srcbytes k.gran).2)
        · cases tr <;> rfl
        · cases tr <;> rfl
    all_goals simp only [hop] at h; cases h

theorem multiplyStart_happens (h : matrixStep s (.multiplyStart n) = some t) : exec (.multiplyStart n) s = .next t := by
  simp only [matrixStep] at h
  rw [exec_multiplyStart, execMultiplyStart]
  cases hhead : (s.core n).matHead 1 with
  | none => simp only [hhead] at h; cases h
  | some r =>
    obtain ⟨before, e, after⟩ := r
    simp only [hhead] at h ⊢
    obtain ⟨hwaits, rfl⟩ := onlyIf_eq h
    rw [if_neg (by rw [hwaits]; decide)]

/-- A multiply, or a clear, which heals the accumulator that it clears as a whole (R94, R209). -/
theorem multiplyComplete_happens (h : matrixStep s (.multiplyComplete n) = some t) : exec (.multiplyComplete n) s = .next t := by
  simp only [matrixStep] at h
  rw [exec_multiplyComplete, execMultiplyComplete]
  cases hhead : (s.core n).matHead 1 with
  | none => simp only [hhead] at h; cases h
  | some r =>
    obtain ⟨before, e, after⟩ := r
    simp only [hhead] at h ⊢
    cases hword : e.word
    case mma acc la afmt lb bfmt sp k joint =>
      simp only [hword] at h ⊢
      obtain ⟨hruns, rfl⟩ := onlyIf_eq h
      simp [hruns]
    case mzero acc k =>
      simp only [hword] at h ⊢
      obtain ⟨hruns, rfl⟩ := onlyIf_eq h
      rw [if_neg (by rw [hruns]; decide)]
      by_cases hk : k = BitVec.allOnes 128
      · rw [if_pos hk, if_pos hk]
        have hheal : ∀ j : Nat, (!([badKey .e (1100 + acc)] : List Nat).contains j) = (j != badKey .e (1100 + acc)) := by
          intro j
          rw [List.contains_cons, List.contains_nil, Bool.or_false]
          rfl
        simp only [hheal]
      · rw [if_neg hk, if_neg hk]
        simp
    all_goals simp only [hword] at h; cases h

/-- The writer converts an accumulator, and then sends one row: nowhere, to the core itself, or to another. -/
theorem mstRowSend_happens (h : matrixStep s (.mstRowSend n) = some t) : exec (.mstRowSend n) s = .next t := by
  simp only [matrixStep] at h
  rw [exec_mstRowSend, execMstRowSend]
  cases hhead : (s.core n).matHead 2 with
  | none => simp only [hhead] at h; cases h
  | some r =>
    obtain ⟨before, e, after⟩ := r
    have hq := Core.matHead_queue hhead
    simp only [hhead] at h ⊢
    cases hword : e.word
    case mst id acc fmt addr stride cols base post map rm sub sat draws rows row =>
      simp only [hword] at h ⊢
      cases hstarted : e.started with
      | false =>
        simp only [hstarted, if_true, Bool.not_false] at h ⊢
        exact congrArg _ (Option.some.inj h)
      | true =>
        simp only [hstarted, Bool.true_eq_false, if_false, Bool.not_true, Bool.false_eq_true] at h ⊢
        cases hdest : rowDest map (s.logicalOf n) base row with
        | none =>
          simp only [hdest] at h ⊢
          exact congrArg _ (Option.some.inj h)
        | some dst =>
          cases dst with
          | some dst =>
            simp only [hdest] at h ⊢
            exact congrArg _ (Option.some.inj h)
          | none =>
            simp only [hdest] at h ⊢
            obtain ⟨hfree, rfl⟩ := onlyIf_eq h
            simp only [hfree, Bool.false_eq_true, if_false]
            exact congrArg (fun me => Host.Outcome.next (((landPosted s n (addr + row * stride) (rows.getD row []) post).2.mstNext n id before after
              (.mst id acc fmt addr stride cols base post map rm sub sat draws rows row)).ack n id row
              (landRemote s n (addr + row * stride) (rows.getD row [])).1 me (addr + row * stride))) (landPosted_logicalOf hq)
    all_goals simp only [hword] at h; cases h

/-- The four words of a join start together, or do not fit (R211). -/
theorem mmajJoin_happens {tile : Nat} (h : matrixStep s (.mmajJoin tile) = some t) : exec (.mmajJoin tile) s = .next t := by
  simp only [matrixStep] at h
  rw [exec_mmajJoin, execMmajJoin]
  cases hjs : s.joins tile with
  | nil => simp only [hjs] at h; cases h
  | cons p r =>
    obtain ⟨m, j⟩ := p
    simp only [hjs] at h ⊢
    obtain ⟨hall, h⟩ := ite_none h
    rw [not_not] at hall
    rw [if_neg (by rw [hall]; decide)]
    by_cases hfit : joinMismatch ((m, j) :: r) = true
    · obtain rfl := Option.some.inj ((if_pos hfit).symm.trans h)
      rw [if_pos hfit, joinsEnd_eq hjs]
    · obtain ⟨hloaded, rfl⟩ := onlyIf_eq ((if_neg hfit).symm.trans h)
      rw [if_neg hfit, joinsEnd_eq hjs]
      exact if_neg (ne_true_of_eq_false hloaded)

theorem mmajJoinTimeout_happens {tile : Nat} (h : matrixStep s (.mmajJoinTimeout tile) = some t) : exec (.mmajJoinTimeout tile) s = .next t := by
  simp only [matrixStep] at h
  rw [exec_mmajJoinTimeout, execMmajJoinTimeout]
  cases hjs : s.joins tile with
  | nil => simp only [hjs] at h; cases h
  | cons p r =>
    obtain ⟨m, j⟩ := p
    simp only [hjs] at h ⊢
    obtain ⟨⟨hpart, hlate⟩, rfl⟩ := onlyIf_eq h
    rw [joinsEnd_eq hjs]
    exact if_neg (not_or.mpr ⟨Nat.not_lt.mpr hlate, fun hall => hpart (Nat.succ.inj hall)⟩)

theorem rotJoin_happens {tile : Nat} (h : matrixStep s (.rotJoin tile) = some t) : exec (.rotJoin tile) s = .next t := by
  simp only [matrixStep] at h
  rw [exec_rotJoin, execRotJoin]
  cases hrs : s.rots tile with
  | nil => simp only [hrs] at h; cases h
  | cons p rest =>
    obtain ⟨m, id, a, len, d⟩ := p
    simp only [hrs] at h ⊢
    by_cases habsent : ((tileCores tile).any fun k => (s.core k).absent (s.core m).asid) = true
    · rw [if_pos habsent]
      exact congrArg _ (Option.some.inj ((if_pos habsent).symm.trans h))
    · obtain ⟨hall, h⟩ := ite_none ((if_neg habsent).symm.trans h)
      rw [not_not] at hall
      rw [if_neg habsent, if_neg (by rw [List.length_cons, hall]; decide)]
      by_cases hfit : (rest.any fun r => r.2.2.2.1 != len || r.2.2.2.2 != d) = true
      · rw [if_pos hfit]
        exact congrArg _ (Option.some.inj ((if_pos hfit).symm.trans h))
      · obtain ⟨hready, rfl⟩ := onlyIf_eq ((if_neg hfit).symm.trans h)
        obtain ⟨hfree, hclean⟩ := rots_ready hready
        rw [if_neg hfit, if_neg (by rw [hfree]; decide)]
        simp only [hclean]
        rfl

theorem rotJoinTimeout_happens {tile : Nat} (h : matrixStep s (.rotJoinTimeout tile) = some t) : exec (.rotJoinTimeout tile) s = .next t := by
  simp only [matrixStep] at h
  rw [exec_rotJoinTimeout, execRotJoinTimeout]
  cases hsince : s.rotSince tile with
  | none => simp only [hsince] at h; cases h
  | some u =>
    simp only [hsince] at h ⊢
    obtain ⟨⟨-, hpart, hlate⟩, rfl⟩ := onlyIf_eq h
    exact if_neg (not_or.mpr ⟨Nat.not_lt.mpr hlate, hpart⟩)

end

/-- Settles O48: step by step, the conditions of the table choose the branch of the step that it describes. That a halted core is absent from a join of
ROT, so that the join ends with -16 at once, is the model's choice (log entry 30). -/
theorem matrixSteps : Obligations.MatrixSteps := by
  intro s i t h
  cases i
  case mldFill => exact mldFill_happens h
  case globalStreamRow => exact globalStreamRow_happens h
  case multiplyStart => exact multiplyStart_happens h
  case multiplyComplete => exact multiplyComplete_happens h
  case mstRowSend => exact mstRowSend_happens h
  case mmajJoin => exact mmajJoin_happens h
  case mmajJoinTimeout => exact mmajJoinTimeout_happens h
  case rotJoin => exact rotJoin_happens h
  case rotJoinTimeout => exact rotJoinTimeout_happens h
  all_goals exact absurd h (Option.some_ne_none t).symm

end Sys2Proof.Slice0
end

section
/-!
SUPPORT. Words that start a command (R242 to R248) on a settled core: the steps before its start only read the core, and it starts as the tables say.
-/

namespace Sys2Proof.Machine

/-! ### The module as the effect of an issuing word finds it -/

/-- The module as the effect of the moving stream's word finds it: a TGT of the group has set the branch target (R48, R67). -/
def State.issuing (s : State) : State := s.setCore s.cur s.atIssue

section
variable {α : Type} {s : State}

theorem State.atIssue_not_idle (hrun : (s.core s.cur).run = .running) : s.atIssue.run ≠ .idle := by
  rw [State.atIssue_run, hrun]
  decide

theorem State.issuing_core (hrun : (s.core s.cur).run = .running) : s.issuing.core s.ctx.core = s.atIssue := State.setCore_atIssue_core hrun

theorem State.issuing_setCore (hrun : (s.core s.cur).run = .running) {c : Core} (hc : c.run ≠ .idle) :
    s.issuing.setCore s.cur c = s.setCore s.cur c := s.setCore_setCore s.cur (State.atIssue_not_idle hrun) hc

/-- A step of an effect that only reads its core. -/
theorem onCore_issuing {m : CM α} {a : α} (hrun : (s.core s.cur).run = .running) (h : m s.atIssue = .ok (a, s.atIssue)) :
    onCore s.ctx.core m s.issuing = .ok (a, s.issuing) := by
  rw [onCore_ok (by rw [State.issuing_core hrun]; exact h)]
  exact congrArg (fun u => Except.ok (a, u)) (State.issuing_setCore hrun (State.atIssue_not_idle hrun))

theorem rdX_issuing (hrun : (s.core s.cur).run = .running) (hs : (s.core s.cur).settled s.strm = true) (n : BitVec 5) :
    onCore s.ctx.core (rdX s.ctx n) s.issuing = .ok (s.atIssue.reg s.ctx.st n, s.issuing) :=
  onCore_issuing hrun (rdX_settled (State.atIssue_settled hs) n)

end

/-! ### Room for a command (R242, R244, R246, R282, R284, R286) -/

/-- Nothing holds back accesses of classes cl, and a slot and so many scoreboard entries are free. -/
def Core.hasRoom (c : Core) (x : Ctx) (cl : BitVec 6) (slot : Bool) (entries : Nat) : Bool :=
  !((c.fences.any fun f => f.succ &&& cl != 0) || (cl &&& 0x1F != 0 && c.cmds.any Cmd.acquiring) || (cl != 0 && x.st == .e && c.inPhase)
    || (slot && decide (8 ≤ c.cmds.countP fun j => j.slot)) || decide (16 < c.entriesUsed + entries))

theorem Core.hasRoom_mono {c : Core} {x : Ctx} {cl : BitVec 6} {slot : Bool} {m n : Nat} (h : c.hasRoom x cl slot n = true) (hmn : m ≤ n) :
    c.hasRoom x cl slot m = true := by
  simp only [Core.hasRoom, Bool.not_eq_true', Bool.or_eq_false_iff, decide_eq_false_iff_not] at h ⊢
  exact ⟨h.1, by omega⟩

/-- A command for which there is room waits for nothing on a settled core. -/
theorem cmdRoom_ok {x : Ctx} {c : Core} {cl : BitVec 6} {slot : Bool} {entries : Nat} (tok : BitVec 5) (hs : c.settled x.st = true)
    (h : c.hasRoom x cl slot entries = true) : cmdRoom x cl slot tok entries c = .ok ((), c) := by
  simp only [Core.hasRoom, Bool.not_eq_true', Bool.or_eq_false_iff] at h
  obtain ⟨⟨⟨⟨hfences, hacquires⟩, hphase⟩, hslot⟩, hentries⟩ := h
  have hfree : classFree x cl c = .ok ((), c) := by
    rw [classFree, run_bind_ok (run_get c), stallIf_run, hfences, hacquires, hphase]
    rfl
  rw [cmdRoom, run_bind_ok hfree, run_bind_ok (run_get c)]
  refine (stallIf_then hslot _).trans ?_
  rw [stallIf_then hentries]
  exact destFree_settled hs _

/-- What a stream's change leaves of its core, a home that becomes pending leaves too. -/
theorem Core.setPend_keeps {α : Type} (g : Core → α) (hg : ∀ (c : Core) (st : Strm) (f : Seq → Seq), g (c.modSeq st f) = g c) (c : Core) (st : Strm)
    (h : Nat) : g (c.setPend st h) = g c := by
  unfold Core.setPend
  split
  · rfl
  · exact hg _ _ _

end Sys2Proof.Machine

namespace Sys2Proof.Slice0

open Sys2Proof.Machine

/-! ### The start of a command (R242, R244, R246) -/

/-- The scoreboard entries that a command takes. -/
def entriesOf (k : Start) : Nat := (if k.rd.isSome then 1 else 0) + (if k.wr.isSome then 1 else 0)

/-- The command that a word starts. -/
def commandOf (s : State) (x : Ctx) (c : Core) (i : Instr) (k : Start) : Cmd where
  id := s.fresh
  strm := x.st
  word := (encode i).getD 0
  at_ := x.pc.setWidth 19
  tok := k.tok
  home := c.homeOf x.st k.tok
  slot := k.slot
  slotNo := if k.slot then c.freeSlot else 0
  op := k.op
  rd := k.rd
  wr := k.wr
  user := !c.ctl.lvl
  sided := c.committed

/-- Core c once a word has started command k. -/
def commanded (c : Core) (st : Strm) (k : Cmd) : Core := Core.setPend { c with cmds := c.cmds ++ [k] } st k.home

theorem commanded_run (c : Core) (st : Strm) (k : Cmd) : (commanded c st k).run = c.run := setPend_run _ _ _

theorem commanded_cmds (c : Core) (st : Strm) (k : Cmd) : (commanded c st k).cmds = c.cmds ++ [k] := Core.setPend_keeps Core.cmds Core.modSeq_cmds _ _ _

theorem commanded_asid (c : Core) (st : Strm) (k : Cmd) : (commanded c st k).asid = c.asid := Core.setPend_keeps Core.asid Core.modSeq_asid _ _ _

/-- A change of the command that has just started, whose number no other has. -/
theorem commanded_modCmd_cmds {c : Core} {k : Cmd} (st : Strm) (f : Cmd → Cmd) (hnew : (c.cmds.any fun j => j.id == k.id) = false) :
    ((commanded c st k).modCmd k.id f).cmds = c.cmds ++ [f k] := by
  have hold : (c.cmds.map fun j => if j.id = k.id then f j else j) = c.cmds := by
    refine (List.map_congr_left fun j hj => if_neg ?_).trans (List.map_id _)
    simpa using List.any_eq_false.mp hnew j hj
  rw [Core.modCmd, commanded_cmds, List.map_append, hold]
  simp

section
variable {s s1 : State} {x : Ctx} {c : Core} {i : Instr} {k : Start}

/-- What the table says of a word that starts a command: there is room for it, and it joins the commands of its core. -/
theorem begun_eq (h : begun s x c i k = some s1) : c.hasRoom x k.op.classes k.slot (entriesOf k) = true
    ∧ s1 = { s.setCore x.core (commanded c x.st (commandOf s x c i k)) with fresh := s.fresh + 1 } := by
  obtain ⟨hroom, h⟩ := ite_none h
  refine ⟨?_, (Option.some.inj h).symm⟩
  rw [Core.hasRoom, Bool.not_eq_true']
  exact eq_false_of_ne_true hroom

/-- The start of a command changes no group and no reduction. -/
theorem begun_group (h : begun s x c i k = some s1) : s1.group = s.group := by
  rw [(begun_eq h).2]
  rfl

theorem begun_red (h : begun s x c i k = some s1) : s1.red = s.red := by
  rw [(begun_eq h).2]
  rfl

/-- A command starts as the table says. -/
theorem startCmd_begun (hrun : (s.core s.cur).run = .running) (hs : (s.core s.cur).settled s.strm = true)
    (h : begun s s.ctx s.atIssue i k = some s1) : startCmd s.ctx i k s.issuing = .ok (s.fresh, s1) := by
  obtain ⟨hroom, rfl⟩ := begun_eq h
  have hstart := cmdRoom_ok k.tok (State.atIssue_settled hs) hroom
  have hidle : (commanded s.atIssue s.ctx.st (commandOf s s.ctx s.atIssue i k)).run ≠ .idle := by
    rw [commanded_run]
    exact State.atIssue_not_idle hrun
  have hcore : ({ s.issuing with fresh := s.fresh + 1 } : State).core s.ctx.core = s.atIssue := State.issuing_core hrun
  rw [startCmd, run_bind_ok (freshId_run s.issuing)]
  refine (run_bind_ok (onCore_ok (a := ()) (c := commanded s.atIssue s.ctx.st (commandOf s s.ctx s.atIssue i k)) ?_)).trans ?_
  · refine (congrArg _ hcore).trans ?_
    exact run_bind_ok hstart
  · refine congrArg (fun u => Except.ok (s.fresh, u)) ?_
    exact congrArg (fun u : State => { u with fresh := s.fresh + 1 }) (State.issuing_setCore hrun hidle)

end

/-- A word whose effect, at the module, leaves it as s2. -/
theorem issue_completes {i : Instr} {eff : Ctx → DM Next} {s s2 : State} (hi : exec i s = issue i eff s) (hr : s.runs i (s2.core s.cur) = true)
    (he : eff s.ctx s.issuing = .ok (.seq, s2)) : CompletesAs s i s2 := by
  obtain ⟨t, hexec, hstep, hgoes⟩ := issue_goes hr he (by simp)
  exact ⟨t, hi.trans hexec, hstep, hgoes rfl⟩

end Sys2Proof.Slice0
end

section
/-!
SUPPORT. The words that reach other cores (R163, R168 to R170, R298 to R307): their checks, and what they send.
-/

namespace Sys2Proof.Machine

/-! ### The bytes of a core (R151, R154, R435) -/

/-- What an access to ULM finds in a core: its bytes, their errors, and where they lie. -/
def Core.ulmPart (c : Core) : Store Byte × List Nat × List Nat × Store Word := (c.ulm, c.ulmBad, c.ulmChk, c.ctl.swz)

section
variable {c d : Core}

theorem Core.phys_congr (h : d.ulmPart = c.ulmPart) (a : Nat) : d.phys a = c.phys a := by
  have hswz : d.ctl.swz = c.ctl.swz := congrArg (fun p => p.2.2.2) h
  simp only [Core.phys, Core.bank, hswz]

theorem Core.ulmBytes_congr (h : d.ulmPart = c.ulmPart) (a n : Nat) : d.ulmBytes a n = c.ulmBytes a n := by
  have hulm : d.ulm = c.ulm := congrArg (fun p => p.1) h
  induction n generalizing a with
  | zero => rfl
  | succ n ih => rw [Core.ulmBytes, Core.ulmBytes, ih, Core.ulmByte, Core.ulmByte, Core.phys_congr h, hulm]

theorem Core.ulmError_congr (h : d.ulmPart = c.ulmPart) (a n : Nat) : d.ulmError a n = c.ulmError a n := by
  have hbad : d.ulmBad = c.ulmBad := congrArg (fun p => p.2.1) h
  have hchk : d.ulmChk = c.ulmChk := congrArg (fun p => p.2.2.1) h
  induction n generalizing a with
  | zero => rfl
  | succ n ih => rw [Core.ulmError, Core.ulmError, ih, Core.phys_congr h, hbad, hchk]

end

/-! ### Numbers in a flow (R296) -/

/-- Taking a number leaves the cores. -/
theorem State.reserve_core (s : State) (core id dst : Nat) : (s.reserve core id dst).2.core = s.core := by
  unfold State.reserve
  split <;> rfl

theorem State.reserveAll_core (s : State) (core id : Nat) (dests : List (Nat × Nat)) : (s.reserveAll core id dests).2.core = s.core :=
  Slice0.foldl_keeps (fun r : List (Nat × Nat × Option Nat) × State => r.2.core) (fun r d => r.2.reserve_core core id d.2) dests ([], s)

/-- Every destination of an MCAST has its entry. -/
theorem State.reserveAll_isEmpty (s : State) (core id : Nat) (dests : List (Nat × Nat)) : (s.reserveAll core id dests).1.isEmpty = dests.isEmpty := by
  obtain rfl | ⟨l, d, rfl⟩ := dests.eq_nil_or_concat'
  · rfl
  · rw [State.reserveAll, List.foldl_append]
    cases l <;> simp

/-! ### The source of a command that sends it (R169, R247, R303) -/

/-- Command id of a core, with operation op, has not read its source, and finds the bytes and the older commands of core c. -/
structure ReadsSource (s : State) (core id : Nat) (c : Core) (op : CmdOp) : Prop where
  cmd : ∃ k, (s.core core).cmd? id = some k ∧ k.op = op ∧ k.status = none ∧ k.waitFor = 0
  blocked : ∀ a n, (s.core core).engineBlocked id a n false = c.engineBlocked id a n false
  ulm : (s.core core).ulmPart = c.ulmPart
  asid : (s.core core).asid = c.asid

section
variable {s : State} {core id a len : Nat} {c : Core}

theorem State.passNumbers_unsent {k : Cmd} (hstatus : k.status = none) (hwait : k.waitFor = 0) :
    s.passNumbers core k = k.op.numbers.foldl (fun s d => s.passNumber core d.1 d.2) s := by
  rw [State.passNumbers, hstatus, hwait]
  exact if_neg (by simp)

theorem sendSource_putr {dst r : Nat} {num : Option Nat} (h : ReadsSource s core id c (.putr a len dst r num)) :
    s.sendSource core id = if c.engineBlocked id a len false then s.postpone (.engineGranule core id)
      else (c.ulmError a len).elim
        (if num.isSome then (s.armCmd core id 1).sendAs ⟨core, dst, c.asid, true, 0, .write 0 r (c.ulmBytes a len) none, id, 0⟩ num
          else (s.armCmd core id 1).remoteWrite ⟨core, dst, c.asid, true, 0, .write 0 r (c.ulmBytes a len) none, id, 0⟩)
        fun e => (num.elim s (s.passNumber core dst)).endCmd core id (sourceStatus e.1) dst r := by
  obtain ⟨⟨k, hcmd, hop, hstatus, hwait⟩, hblocked, hulm, hasid⟩ := h
  rw [State.sendSource, hcmd]
  simp only [hstatus, hwait, hop, hblocked, Core.ulmError_congr hulm, Core.ulmBytes_congr hulm, hasid, State.passNumbers_unsent hstatus hwait]
  cases c.ulmError a len with
  | none => rfl
  | some e => cases num <;> rfl

theorem sendSource_mcast {d : Nat} {post : Option Nat} {dests : List (Nat × Nat × Option Nat)}
    (h : ReadsSource s core id c (.mcast a len d post dests)) :
    s.sendSource core id = if dests.isEmpty then s.endCmd core id 1 0 0
      else if c.engineBlocked id a len false then s.postpone (.engineGranule core id)
      else (c.ulmError a len).elim (s.multicast core id d post dests (c.ulmBytes a len))
        fun e => ((CmdOp.mcast a len d post dests).numbers.foldl (fun s p => s.passNumber core p.1 p.2) s).endCmd core id (sourceStatus e.1) 0 a := by
  obtain ⟨⟨k, hcmd, hop, hstatus, hwait⟩, hblocked, hulm, hasid⟩ := h
  rw [State.sendSource, hcmd]
  simp only [hstatus, hwait, hop, hblocked, Core.ulmError_congr hulm, Core.ulmBytes_congr hulm, State.passNumbers_unsent hstatus hwait]
  cases c.ulmError a len <;> rfl

end

end Sys2Proof.Machine

namespace Sys2Proof.Slice0

open Sys2Proof.Machine

theorem commanded_ulmPart (c : Core) (st : Strm) (k : Cmd) : (commanded c st k).ulmPart = c.ulmPart :=
  Core.setPend_keeps Core.ulmPart (fun c st f => by simp [Core.ulmPart]) _ _ _

/-- A command that has just started, and whose operation is then put in full, finds its core as the word found it. -/
theorem begun_readsSource {s s1 t : State} {x : Ctx} {c : Core} {i : Instr} {k : Start} (op : CmdOp) (h : begun s x c i k = some s1)
    (hrun : c.run ≠ .idle) (hnew : (c.cmds.any fun j => j.id == s.fresh) = false) (ht : t.core = s1.core) :
    ReadsSource (t.modCmd x.core s.fresh fun j => { j with op := op }) x.core s.fresh c op := by
  set k0 := commandOf s x c i k
  set d := (commanded c x.st k0).modCmd k0.id fun j => { j with op := op }
  have hcore : (t.modCmd x.core s.fresh fun j => { j with op := op }).core x.core = d := by
    have hs1 : s1.core x.core = commanded c x.st k0 := by
      rw [(begun_eq h).2]
      exact s.setCore_core_self x.core (by rwa [commanded_run])
    rw [State.modCmd, State.modCore, ht, hs1]
    exact t.setCore_core_self x.core (by show (commanded c x.st k0).run ≠ .idle; rwa [commanded_run])
  have hcmds : d.cmds = c.cmds ++ [{ k0 with op := op }] := commanded_modCmd_cmds x.st _ hnew
  refine ⟨⟨{ k0 with op := op }, ?_, rfl, rfl, rfl⟩, fun a n => ?_, ?_, ?_⟩
  · rw [hcore, Core.cmd?, hcmds, List.find?_append, List.find?_eq_none.mpr (by simpa using hnew)]
    simp [k0, commandOf]
  · rw [hcore, Core.engineBlocked, Core.engineBlocked, hcmds, List.any_append]
    simp [k0, commandOf]
  · rw [hcore]
    exact commanded_ulmPart c x.st k0
  · rw [hcore]
    exact commanded_asid c x.st k0

/-! ### DEPOSIT and NOTIFY (R298, R299) -/

section
variable {s s2 : State} {n : BitVec 3} {t l b r a d : BitVec 5}

theorem remoteM_sends {i : Instr} {op : CmdOp} {dst : Nat} {pay : Payload} (hrun : (s.core s.cur).run = .running)
    (hs : (s.core s.cur).settled s.strm = true) (h : sends s s.ctx s.atIssue i { tok := t, op := op } dst pay = some s2) :
    remoteM i t op dst pay s.ctx s.issuing = .ok (.seq, s2) := by
  obtain ⟨s1, hb, rfl⟩ := Option.map_eq_some_iff.mp h
  rw [remoteM, run_bind_ok (startCmd_begun hrun hs hb)]
  rfl

theorem deposit_completes {y : BitVec 1} (hs : (s.core s.cur).settled s.strm = true)
    (ht : remoteWord s s.ctx s.atIssue (.deposit n t r b y) = some s2) (hr : s.runs (.deposit n t r b y) (s2.core s.cur) = true) :
    CompletesAs s (.deposit n t r b y) s2 := by
  have hrun := State.runs_running hr
  refine issue_completes rfl hr ?_
  rw [run_bind_ok (rdX_issuing hrun hs r), run_bind_ok (rdX_issuing hrun hs b)]
  exact remoteM_sends hrun hs ht

theorem notify_completes (hs : (s.core s.cur).settled s.strm = true)
    (ht : remoteWord s s.ctx s.atIssue (.notify n t r b) = some s2) (hr : s.runs (.notify n t r b) (s2.core s.cur) = true) :
    CompletesAs s (.notify n t r b) s2 := by
  have hrun := State.runs_running hr
  refine issue_completes rfl hr ?_
  rw [run_bind_ok (rdX_issuing hrun hs r), run_bind_ok (rdX_issuing hrun hs b)]
  exact remoteM_sends hrun hs ht

/-! ### ROT (R163, R164) -/

theorem rot_completes {k : BitVec 2} (hs : (s.core s.cur).settled s.strm = true)
    (ht : remoteWord s s.ctx s.atIssue (.rot n t a l k) = some s2) (hr : s.runs (.rot n t a l k) (s2.core s.cur) = true) :
    CompletesAs s (.rot n t a l k) s2 := by
  have hrun := State.runs_running hr
  obtain ⟨hfits, ht⟩ := ite_none ht
  obtain ⟨s1, hb, rfl⟩ := Option.map_eq_some_iff.mp ht
  push Not at hfits
  obtain ⟨haddr, hlen, hsome, hrange⟩ := hfits
  refine issue_completes rfl hr ?_
  rw [run_bind_ok (rdX_issuing hrun hs a), run_bind_ok (rdX_issuing hrun hs l)]
  rw [run_bind_ok (onCore_issuing (a := ()) hrun ?_), run_bind_ok (startCmd_begun hrun hs hb)]
  · rfl
  · rw [raiseIf_then (by simpa [haddr, hlen] using hsome)]
    rw [raiseIf_run, if_neg (by simpa using hrange)]

/-! ### PUTR and GETR (R168 to R170) -/

/-- The operands of PUTR and GETR pass the checks that the table names. -/
theorem remoteArgs_ok {x : Ctx} {c : Core} {cl : BitVec 6} {p : Nat × Nat × Nat × Nat} (hs : c.settled x.st = true)
    (hroom : c.hasRoom x cl true 1 = true) (h : remoteParts x c l b = some p) : remoteArgs x cl t l b c = .ok (p, c) := by
  obtain ⟨hfits, hp⟩ := ite_none h
  obtain rfl := Option.some.inj hp
  push Not at hfits
  obtain ⟨hsome, hmost, hlen, haddr, hremote, hrange⟩ := hfits
  rw [remoteArgs, run_bind_ok (rdX_settled hs l), run_bind_ok (rdX_settled hs b), run_bind_ok (cmdRoom_ok t hs hroom)]
  rw [raiseIf_then (by simpa [hsome, hlen, haddr, hremote] using hmost), raiseIf_then (by simpa using hrange)]
  rfl

theorem getr_completes (hs : (s.core s.cur).settled s.strm = true)
    (ht : remoteWord s s.ctx s.atIssue (.getr n t l b) = some s2) (hr : s.runs (.getr n t l b) (s2.core s.cur) = true) :
    CompletesAs s (.getr n t l b) s2 := by
  have hrun := State.runs_running hr
  simp only [remoteWord] at ht
  cases hparts : remoteParts s.ctx s.atIssue l b with
  | none => simp only [hparts] at ht; cases ht
  | some p =>
    obtain ⟨a, len, r, dst⟩ := p
    simp only [hparts] at ht
    obtain ⟨s1, hb, rfl⟩ := Option.map_eq_some_iff.mp ht
    refine issue_completes rfl hr ?_
    have hargs : remoteArgs s.ctx clCR t l b s.atIssue = .ok ((a, len, r, dst), s.atIssue) :=
      remoteArgs_ok (State.atIssue_settled hs) (begun_eq hb).1 hparts
    rw [run_bind_ok (onCore_issuing hrun hargs)]
    dsimp only
    rw [run_bind_ok (startCmd_begun hrun hs hb), run_bind_ok (run_get s1)]
    split <;> rfl

/-- PUTR takes its number in its flow before its source is read. -/
theorem putr_completes (hs : (s.core s.cur).settled s.strm = true)
    (ht : remoteWord s s.ctx s.atIssue (.putr n t l b) = some s2) (hr : s.runs (.putr n t l b) (s2.core s.cur) = true) :
    CompletesAs s (.putr n t l b) s2 := by
  have hrun := State.runs_running hr
  simp only [remoteWord] at ht
  cases hparts : remoteParts s.ctx s.atIssue l b with
  | none => simp only [hparts] at ht; cases ht
  | some p =>
    obtain ⟨a, len, r, dst⟩ := p
    simp only [hparts] at ht
    obtain ⟨hnew, ht⟩ := ite_none ht
    obtain ⟨s1, hb, rfl⟩ := Option.map_eq_some_iff.mp ht
    have hargs : remoteArgs s.ctx clCW t l b s.atIssue = .ok ((a, len, r, dst), s.atIssue) :=
      remoteArgs_ok (State.atIssue_settled hs) (begun_eq hb).1 hparts
    refine issue_completes rfl hr ?_
    rw [run_bind_ok (onCore_issuing hrun hargs)]
    dsimp only
    rw [run_bind_ok (startCmd_begun hrun hs hb), run_bind_ok (run_get s1)]
    have hsource := begun_readsSource (.putr a len dst r (s1.reserve s.ctx.core s.fresh dst).1) hb (State.atIssue_not_idle hrun)
      (eq_false_of_ne_true hnew) (s1.reserve_core s.ctx.core s.fresh dst)
    refine congrArg (fun u => Except.ok (Next.seq, u)) ((sendSource_putr hsource).trans ?_)
    cases s.atIssue.ulmError a len with
    | none => rfl
    | some e => cases (s1.reserve s.ctx.core s.fresh dst).1 <;> rfl

/-! ### MCAST (R301 to R303) -/

/-- MCAST reads three registers and names its destinations before its command starts; their numbers are taken before its source is read. -/
theorem mcast_completes {y : BitVec 1} (hs : (s.core s.cur).settled s.strm = true)
    (ht : remoteWord s s.ctx s.atIssue (.mcast n t l b y) = some s2) (hr : s.runs (.mcast n t l b y) (s2.core s.cur) = true) :
    CompletesAs s (.mcast n t l b y) s2 := by
  have hrun := State.runs_running hr
  obtain ⟨hfits, ht⟩ := ite_none ht
  push Not at hfits
  obtain ⟨haddr, hdest, hlen, hsome, hmost, hrange, hroom⟩ := hfits
  have hiss : s.setCore s.ctx.core s.atIssue = s.issuing := rfl
  have hnext : b + 1 = pairNext b := rfl
  simp only [hiss, hnext] at ht
  cases hall : rankCores s.issuing s.atIssue.asid (fieldOf (s.atIssue.reg s.ctx.st b) 20 8)
    (maskRanks (s.atIssue.reg s.ctx.st (pairNext b)) (fieldOf (s.atIssue.reg s.ctx.st b) 32 14)) with
  | error e => simp only [hall] at ht; cases ht
  | ok all =>
    simp only [hall] at ht
    obtain ⟨hnew, ht⟩ := ite_none ht
    obtain ⟨s1, hb, rfl⟩ := Option.map_eq_some_iff.mp ht
    have hstart : s.atIssue.hasRoom s.ctx clCW true 1 = true := Core.hasRoom_mono (begun_eq hb).1 (Nat.le_add_right 1 _)
    refine issue_completes rfl hr ?_
    rw [run_bind_ok (rdX_issuing hrun hs l), run_bind_ok (rdX_issuing hrun hs b), run_bind_ok (rdX_issuing hrun hs (pairNext b))]
    rw [run_bind_ok (onCore_issuing (a := ()) hrun ?_), run_bind_ok (run_get _)]
    · dsimp only
      rw [State.issuing_core hrun, hall]
      dsimp only
      rw [run_bind_ok (startCmd_begun hrun hs hb), run_bind_ok (run_get s1)]
      simp only [run_bind, run_set, run_pure]
      rw [sendSource_mcast (begun_readsSource _ hb (State.atIssue_not_idle hrun) (eq_false_of_ne_true hnew) (s1.reserveAll_core _ _ _)),
        State.reserveAll_isEmpty]
      cases s.atIssue.ulmError (fieldOf (s.atIssue.reg s.ctx.st l) 0 19) (fieldOf (s.atIssue.reg s.ctx.st l) 32 10) <;> rfl
    · rw [run_bind_ok (cmdRoom_ok t (State.atIssue_settled hs) hstart)]
      rw [raiseIf_then (by simp [haddr, hdest, hlen, hsome, hmost]), raiseIf_run, if_neg (by simp [hrange, hroom])]

/-! ### REDUCE and REDABORT (R304 to R307) -/

theorem forbid_ok {c : Core} (h : outside c = true) : forbidTask c = .ok ((), c) ∧ forbidTourney c = .ok ((), c) := by
  simp only [outside, Bool.and_eq_true, Bool.not_eq_true', beq_iff_eq] at h
  obtain ⟨htask, hscope⟩ := h
  constructor
  · rw [forbidTask, run_bind_ok (run_get c), raiseIf_run, htask]
    rfl
  · rw [forbidTourney, run_bind_ok (run_get c), raiseIf_run, hscope]
    rfl

theorem memberRank_ok {c d : Core} {grp slot : Nat} {g : Group} (hslot : c.slotOf grp = some slot) (hg : s.group c.asid.toNat grp = some g) :
    memberRank c s grp d = .ok (gmemRank (c.gmem slot), d) := by
  rw [memberRank, hslot, hg]
  rfl

theorem redabort_completes (hs : (s.core s.cur).settled s.strm = true)
    (ht : remoteWord s s.ctx s.atIssue (.redabort n t b) = some s2) (hr : s.runs (.redabort n t b) (s2.core s.cur) = true) :
    CompletesAs s (.redabort n t b) s2 := by
  have hrun := State.runs_running hr
  obtain ⟨hmember, ht⟩ := ite_none ht
  obtain ⟨s1, hb, rfl⟩ := Option.map_eq_some_iff.mp ht
  push Not at hmember
  obtain ⟨hout, hslot, hgroup⟩ := hmember
  have hroom : s.atIssue.hasRoom s.ctx 0 true 0 = true := (begun_eq hb).1
  obtain ⟨htask, htourney⟩ := forbid_ok (by simpa using hout)
  obtain ⟨slot, hslot⟩ := Option.ne_none_iff_exists'.mp hslot
  obtain ⟨g, hgroup⟩ : ∃ g, s.issuing.group s.atIssue.asid.toNat (fieldOf (s.atIssue.reg s.ctx.st b) 20 8) = some g :=
    Option.ne_none_iff_exists'.mp hgroup
  refine issue_completes rfl hr ?_
  rw [run_bind_ok (rdX_issuing hrun hs b)]
  rw [run_bind_ok (onCore_issuing hrun (cmdRoom_ok t (State.atIssue_settled hs) hroom))]
  rw [run_bind_ok (onCore_issuing hrun htask), run_bind_ok (onCore_issuing hrun htourney), run_bind_ok (run_get _)]
  dsimp only
  rw [State.issuing_core hrun]
  rw [run_bind_ok (onCore_issuing hrun (memberRank_ok hslot hgroup)), run_bind_ok (startCmd_begun hrun hs hb), run_bind_ok (run_get s1),
    begun_red hb]
  split <;> rfl

/-- REDUCE reads its contribution before its command starts; the first contribution of a reduction sets its operation, its type and its length. -/
theorem reduce_completes {f : BitVec 1} {o : BitVec 3} {y : BitVec 2} (hs : (s.core s.cur).settled s.strm = true)
    (ht : remoteWord s s.ctx s.atIssue (.reduce n t l b f o y) = some s2) (hr : s.runs (.reduce n t l b f o y) (s2.core s.cur) = true) :
    CompletesAs s (.reduce n t l b f o y) s2 := by
  have hrun := State.runs_running hr
  obtain ⟨hfits, ht⟩ := ite_none ht
  push Not at hfits
  obtain ⟨hout, haddr, hdest, hlen, hsome, hmost, hrange, hroom, hfree, hclean⟩ := hfits
  obtain ⟨htask, htourney⟩ := forbid_ok (by simpa using hout)
  have hiss : s.setCore s.ctx.core s.atIssue = s.issuing := rfl
  simp only [hiss] at ht
  cases hslot : s.atIssue.slotOf (fieldOf (s.atIssue.reg s.ctx.st b) 20 8) with
  | none => simp only [hslot] at ht; cases ht
  | some slot =>
    cases hgroup : s.issuing.group s.atIssue.asid.toNat (fieldOf (s.atIssue.reg s.ctx.st b) 20 8) with
    | none => simp only [hslot, hgroup] at ht; cases ht
    | some g =>
      simp only [hslot, hgroup] at ht
      obtain ⟨s1, hb, rfl⟩ := Option.map_eq_some_iff.mp ht
      have hstart : s.atIssue.hasRoom s.ctx clCW true 0 = true := (begun_eq hb).1
      have hgroup1 : s1.group s.atIssue.asid.toNat (fieldOf (s.atIssue.reg s.ctx.st b) 20 8) = some g := by
        rw [begun_group hb]
        exact hgroup
      refine issue_completes rfl hr ?_
      rw [run_bind_ok (rdX_issuing hrun hs l), run_bind_ok (rdX_issuing hrun hs b)]
      rw [run_bind_ok (onCore_issuing hrun (cmdRoom_ok t (State.atIssue_settled hs) hstart))]
      rw [run_bind_ok (onCore_issuing hrun htask), run_bind_ok (onCore_issuing hrun htourney)]
      rw [run_bind_ok (onCore_issuing (a := ()) hrun ?_), run_bind_ok (run_get _)]
      · dsimp only
        rw [State.issuing_core hrun]
        rw [run_bind_ok (onCore_issuing hrun (memberRank_ok hslot hgroup))]
        rw [run_bind_ok (onCore_issuing hrun (rdUlm_ok (eq_false_of_ne_true hfree) (Option.isNone_iff_eq_none.mp (by simpa using hclean))))]
        rw [run_bind_ok (startCmd_begun hrun hs hb), run_bind_ok (run_get s1), begun_red hb, hgroup1]
        generalize s.red (redKey s.atIssue.asid.toNat (fieldOf (s.atIssue.reg s.ctx.st b) 20 8) (fieldOf (s.atIssue.reg s.ctx.st b) 32 8)) = kept
        simp only [Bool.and_eq_true, List.isEmpty_iff]
        by_cases hfirst : kept.waiting = [] ∧ kept.ranks = []
        · simp only [if_pos hfirst]
          split <;> rfl
        · simp only [if_neg hfirst]
          split <;> rfl
      · rw [raiseIf_then (by simp [haddr, hdest, hlen, hsome, hmost]), raiseIf_run, if_neg (by simp [hrange, hroom])]

end

/-- Settles O33: every step of such a word before its command starts only reads its core, on which nothing has to be waited for; the command starts as
the table says, and what the word then sends is what the table sends. That the first REDUCE to issue measures a reduction is the model's choice (log
entry 36). -/
theorem remoteWords : Obligations.RemoteWords := by
  intro s i s2 hs ht hr
  cases i
  case putr => exact putr_completes hs ht hr
  case getr => exact getr_completes hs ht hr
  case deposit => exact deposit_completes hs ht hr
  case notify => exact notify_completes hs ht hr
  case mcast => exact mcast_completes hs ht hr
  case reduce => exact reduce_completes hs ht hr
  case redabort => exact redabort_completes hs ht hr
  case rot => exact rot_completes hs ht hr
  all_goals exact absurd ht (Option.some_ne_none s2).symm

end Sys2Proof.Slice0
end

section
/-!
SUPPORT. The vector words that raise no floating-point exception, and the words of the interpolation tables (R174, R178 to R192, R196): what each of
them hands to the SAU, or does in its core.
-/

namespace Sys2Proof.Slice0

open Sys2Proof.Machine

/-! ### A word of the SAU that its effect completes -/

/-- On core c the effect of word i, a word of the SAU, leaves core c2, in which it has dispatched nothing that runs alone. -/
structure Leaves (x : Ctx) (c : Core) (i : Instr) (c2 : Core) : Prop where
  effect : ∃ m, RunsSau i m ∧ m x c = .ok ((), c2)
  alone : ∀ o ∈ c2.sauq.drop c.sauq.length, o.alone = false

theorem strm_e_of_ne {st : Strm} (h : ¬st = .a) : st = .e := by
  cases st
  · exact absurd rfl h
  · rfl

/-- A table whose words leave the cores that it names on a settled core is a table of words that complete, with the SAU due (R174, R175). -/
theorem completes_of_leaves {table : Ctx → Core → Instr → Option Core}
    (h : ∀ {x c i c2}, x.body = false → c.settled x.st = true → table x c i = some c2 → Leaves x c i c2) : Completes dueSau table := by
  intro s i c2 hs ht hr
  obtain ⟨⟨m, hi, hm⟩, halone⟩ := h rfl (State.atIssue_settled hs) ht
  rw [State.atIssue, Core.modSeq_sauq] at halone
  rw [hi s]
  exact issueSau_runs hr hs halone hm

/-! ### What a word hands to the SAU -/

/-- On core c word i, which can raise no floating-point exception, hands the lanes r to the SAU. -/
def HandsOver (x : Ctx) (c : Core) (i : Instr) (r : Lanes) : Prop :=
  ∃ m, RunsSau i m ∧ m x c = sauWord x false r.passes r.writes r.flags c

theorem HandsOver.leaves {x : Ctx} {c c2 : Core} {i : Instr} {r : Lanes} (h : HandsOver x c i r) (hs : c.settled x.st = true)
    (hd : dispatched x c r = some c2) : Leaves x c i c2 := by
  obtain ⟨m, hi, hm⟩ := h
  exact ⟨⟨m, hi, hm.trans (sauWord_ok hs rfl hd)⟩, dispatched_alone hd⟩

section

variable {x : Ctx} {c : Core} {i : Instr} {d a b : BitVec 5} {k : BitVec 3} {w : BitVec 2} {op : Nat}
  (hs : c.settled x.st = true) (hst : x.st = .e)
include hs hst

/-- Integer lanes (R179). -/
theorem vecInt_handsOver (hi : ∀ s, exec i s = issueSau i (vecInt op d a b k w) s) :
    HandsOver x c i (ints c d a b k w fun z u v => laneInt op z x.sat u v) :=
  ⟨_, hi, (run_bind_ok (rdV_settled hs hst a)).trans <| (run_bind_ok (rdV_settled hs hst b)).trans (vecMap_run hs hst)⟩

/-- Shuffles of two sources (R187). -/
theorem vecShuffle_handsOver {g : Nat → Nat} (hop : op ≠ 5) (hi : ∀ s, exec i s = issueSau i (vecShuffle op d a b k w) s)
    (hg : ∀ j, laneShuffle op (laneWidth w) (1024 / laneWidth w) (c.vreg a) (c.vreg b) j = g j) :
    HandsOver x c i (lanes c (laneWidth w) d k fun j => (g j, 0)) := by
  obtain rfl : _ = g := funext hg
  exact ⟨_, hi, (run_bind_ok (rdV_settled hs hst a)).trans <|
    (run_ite_then (fun h => absurd h hop) fun _ => rdV_settled hs hst b).trans (vecMap_run hs hst)⟩

/-- VREV reads one source (R187). -/
theorem vrev_handsOver (n : BitVec 3) :
    HandsOver x c (.vrev n d a k w) (lanes c (laneWidth w) d k fun j => (lane (laneWidth w) (c.vreg a) (1024 / laneWidth w - 1 - j), 0)) :=
  ⟨_, fun _ => rfl, (run_bind_ok (rdV_settled hs hst a)).trans (vecMap_run hs hst)⟩

/-- Integer reductions (R188). -/
theorem vecRed_handsOver (hi : ∀ s, exec i s = issueSau i (vecRed op d a k w) s) :
    HandsOver x c i (toX x c d (toBits 64 (sextNat (laneWidth w)
      (treeReduce (nodeInt op (laneWidth w)) 8 (reduced c (laneWidth w) a k (identInt op (laneWidth w))) []).1)) 0) :=
  ⟨_, hi, (run_bind_ok (rdV_settled hs hst a)).trans <| (run_bind_ok (rdK_settled hs hst _)).trans <| (run_bind_ok (homeX_run x d c)).trans rfl⟩

/-- Bitwise words (R196). -/
theorem vecBit_handsOver {f : Vec → Vec → Vec} (hi : ∀ s, exec i s = issueSau i (vecBit f d a b k) s) :
    HandsOver x c i (bytes c d k (f (c.vreg a) (c.vreg b))) :=
  ⟨_, hi, (run_bind_ok (rdV_settled hs hst a)).trans <| (run_bind_ok (rdV_settled hs hst b)).trans (vecMap_run (z := 8) hs hst)⟩

/-- Mask logic (R196). -/
theorem maskLogic_handsOver {f : Mask → Mask → Mask} (hi : ∀ s, exec i s = issueSau i (maskLogic f d a b) s) :
    HandsOver x c i (toK d (f (c.kreg a.toNat) (c.kreg b.toNat))) :=
  ⟨_, hi, (run_bind_ok (rdK_settled hs hst _)).trans <| (run_bind_ok (rdK_settled hs hst _)).trans rfl⟩

/-- An integer compare (R185). -/
theorem vcmp_handsOver {n : BitVec 3} {f : BitVec 1} {j : BitVec 2} {r : Lanes} (h : intLanes x c (.vcmp n d a b k f j w) = some r) :
    HandsOver x c (.vcmp n d a b k f j w) r := by
  obtain ⟨hf, h⟩ := ite_none h
  obtain rfl := Option.some.inj h
  have hint : (f == 1) = false := beq_eq_false_iff_ne.mpr hf
  refine ⟨_, fun _ => rfl, ?_⟩
  rw [hint]
  refine (run_ite_then (n := pure ()) (a := ()) (t := c) (fun h => absurd h Bool.false_ne_true) fun _ => rfl).trans ?_
  exact (run_bind_ok (rdV_settled hs hst a)).trans <| (run_bind_ok (rdV_settled hs hst b)).trans <| (run_bind_ok (rdK_settled hs hst _)).trans rfl

theorem vcompress_handsOver {n : BitVec 3} {r : Lanes} (h : intLanes x c (.vcompress n d a k w) = some r) :
    HandsOver x c (.vcompress n d a k w) r := by
  obtain rfl := Option.some.inj h
  exact ⟨_, fun _ => rfl, (run_bind_ok (rdV_settled hs hst a)).trans <| (run_bind_ok (rdK_settled hs hst _)).trans rfl⟩

theorem vmov_handsOver (n : BitVec 3) : HandsOver x c (.vmov n d a k) (bytes c d k (c.vreg a)) :=
  ⟨_, fun _ => rfl, (run_bind_ok (rdV_settled hs hst a)).trans (vecMap_run (z := 8) hs hst)⟩

theorem vbcast_handsOver (n : BitVec 3) :
    HandsOver x c (.vbcast n d a k w) (lanes c (laneWidth w) d k fun _ => ((c.reg x.st a).toNat % 2 ^ laneWidth w, 0)) :=
  ⟨_, fun _ => rfl, (run_bind_ok (rdX_settled hs a)).trans (vecMap_run hs hst)⟩

theorem vext_handsOver {n : BitVec 3} {r : Lanes} (h : intLanes x c (.vext n d a b w) = some r) : HandsOver x c (.vext n d a b w) r := by
  obtain rfl := Option.some.inj h
  exact ⟨_, fun _ => rfl, (run_bind_ok (rdV_settled hs hst a)).trans <| (run_bind_ok (rdX_settled hs b)).trans <|
    (run_bind_ok (homeX_run x d c)).trans rfl⟩

theorem vins_handsOver {n : BitVec 3} {r : Lanes} (h : intLanes x c (.vins n d a b w) = some r) : HandsOver x c (.vins n d a b w) r := by
  obtain rfl := Option.some.inj h
  exact ⟨_, fun _ => rfl, (run_bind_ok (rdX_settled hs a)).trans <| (run_bind_ok (rdX_settled hs b)).trans <|
    (run_bind_ok (rdV_settled hs hst d)).trans rfl⟩

theorem vsel_handsOver {n : BitVec 3} {r : Lanes} (h : intLanes x c (.vsel n d a b k) = some r) : HandsOver x c (.vsel n d a b k) r := by
  obtain rfl := Option.some.inj h
  exact ⟨_, fun _ => rfl, (run_bind_ok (rdV_settled hs hst a)).trans <| (run_bind_ok (rdV_settled hs hst b)).trans <|
    (run_bind_ok (rdK_settled hs hst _)).trans rfl⟩

theorem kfromv_handsOver (n : BitVec 3) : HandsOver x c (.kfromv n d a) (toK d ((c.vreg a).setWidth 128)) :=
  ⟨_, fun _ => rfl, (run_bind_ok (rdV_settled hs hst a)).trans rfl⟩

theorem vfromk_handsOver {n : BitVec 3} {r : Lanes} (h : intLanes x c (.vfromk n d a) = some r) : HandsOver x c (.vfromk n d a) r := by
  obtain rfl := Option.some.inj h
  exact ⟨_, fun _ => rfl, (run_bind_ok (rdK_settled hs hst _)).trans rfl⟩

theorem kpopc_handsOver (n : BitVec 3) :
    HandsOver x c (.kpopc n d a) (toX x c d ((List.range 128).countP fun j => (c.kreg a.toNat).getLsbD j) 0) :=
  ⟨_, fun _ => rfl, (run_bind_ok (rdK_settled hs hst _)).trans <| (run_bind_ok (homeX_run x d c)).trans rfl⟩

/-- What the table gives of a word is what its effect hands over. -/
theorem intLanes_handsOver {r : Lanes} (h : intLanes x c i = some r) : HandsOver x c i r := by
  cases i
  case vcmp => exact vcmp_handsOver hs hst h
  case vcompress => exact vcompress_handsOver hs hst h
  case vext => exact vext_handsOver hs hst h
  case vins => exact vins_handsOver hs hst h
  case vsel => exact vsel_handsOver hs hst h
  case vfromk => exact vfromk_handsOver hs hst h
  case vadd => obtain rfl := Option.some.inj h; exact vecInt_handsOver (op := 0) hs hst fun _ => rfl
  case vsub => obtain rfl := Option.some.inj h; exact vecInt_handsOver (op := 1) hs hst fun _ => rfl
  case vmul => obtain rfl := Option.some.inj h; exact vecInt_handsOver (op := 2) hs hst fun _ => rfl
  case vmin => obtain rfl := Option.some.inj h; exact vecInt_handsOver (op := 3) hs hst fun _ => rfl
  case vmax => obtain rfl := Option.some.inj h; exact vecInt_handsOver (op := 4) hs hst fun _ => rfl
  case vshl => obtain rfl := Option.some.inj h; exact vecInt_handsOver (op := 5) hs hst fun _ => rfl
  case vshr => obtain rfl := Option.some.inj h; exact vecInt_handsOver (op := 6) hs hst fun _ => rfl
  case vsha => obtain rfl := Option.some.inj h; exact vecInt_handsOver (op := 7) hs hst fun _ => rfl
  case vperm =>
    obtain rfl := Option.some.inj h
    exact vecShuffle_handsOver (op := 0) hs hst (by decide) (fun _ => rfl) fun _ => rfl
  case vziplo =>
    obtain rfl := Option.some.inj h
    exact vecShuffle_handsOver (op := 1) hs hst (by decide) (fun _ => rfl) fun _ => by rw [apply_ite c.vreg]; rfl
  case vziphi =>
    obtain rfl := Option.some.inj h
    exact vecShuffle_handsOver (op := 2) hs hst (by decide) (fun _ => rfl) fun _ => by rw [apply_ite c.vreg]; rfl
  case vunzipe =>
    obtain rfl := Option.some.inj h
    exact vecShuffle_handsOver (op := 3) hs hst (by decide) (fun _ => rfl) fun _ => rfl
  case vunzipo =>
    obtain rfl := Option.some.inj h
    exact vecShuffle_handsOver (op := 4) hs hst (by decide) (fun _ => rfl) fun _ => rfl
  case vrev => obtain rfl := Option.some.inj h; exact vrev_handsOver hs hst _
  case vradd => obtain rfl := Option.some.inj h; exact vecRed_handsOver (op := 0) hs hst fun _ => rfl
  case vrmin => obtain rfl := Option.some.inj h; exact vecRed_handsOver (op := 1) hs hst fun _ => rfl
  case vrmax => obtain rfl := Option.some.inj h; exact vecRed_handsOver (op := 2) hs hst fun _ => rfl
  case vmov => obtain rfl := Option.some.inj h; exact vmov_handsOver hs hst _
  case vbcast => obtain rfl := Option.some.inj h; exact vbcast_handsOver hs hst _
  case vand => obtain rfl := Option.some.inj h; exact vecBit_handsOver (f := fun u v => u &&& v) hs hst fun _ => rfl
  case vor => obtain rfl := Option.some.inj h; exact vecBit_handsOver (f := fun u v => u ||| v) hs hst fun _ => rfl
  case vxor => obtain rfl := Option.some.inj h; exact vecBit_handsOver (f := fun u v => u ^^^ v) hs hst fun _ => rfl
  case vandn => obtain rfl := Option.some.inj h; exact vecBit_handsOver (f := fun u v => u &&& ~~~v) hs hst fun _ => rfl
  case kand => obtain rfl := Option.some.inj h; exact maskLogic_handsOver (f := fun u v => u &&& v) hs hst fun _ => rfl
  case kor => obtain rfl := Option.some.inj h; exact maskLogic_handsOver (f := fun u v => u ||| v) hs hst fun _ => rfl
  case kxor => obtain rfl := Option.some.inj h; exact maskLogic_handsOver (f := fun u v => u ^^^ v) hs hst fun _ => rfl
  case knot => obtain rfl := Option.some.inj h; exact maskLogic_handsOver (f := fun u _ => ~~~u) hs hst fun _ => rfl
  case kfromv => obtain rfl := Option.some.inj h; exact kfromv_handsOver hs hst _
  case kpopc => obtain rfl := Option.some.inj h; exact kpopc_handsOver hs hst _
  all_goals cases h

end

/-! ### The words of the vector queues (R64, R196) -/

@[simp] theorem setMain_sauq (c : Core) (st : Strm) (h : Nat) (v : Vec) : (c.setMain st h v).sauq = c.sauq := by
  unfold Core.setMain
  split_ifs
  · rfl
  · exact c.modSeq_sauq st _
  · rfl
  · rfl

@[simp] theorem freeHome_sauq (c : Core) (st : Strm) (h : Nat) : (c.freeHome st h).sauq = c.sauq := c.modSeq_sauq st _

@[simp] theorem result_sauq (c : Core) (x : Ctx) (h : Nat) (v : Vec) : (c.result x h v).sauq = c.sauq := by
  unfold Core.result
  split_ifs with hconst
  · rfl
  · simp [Core.putShort, hconst]
  · simp [Core.putHome]

/-- Nothing has been dispatched to a queue of operations that is as it was. -/
theorem alone_of_sauq_eq {c c2 : Core} (h : c2.sauq = c.sauq) : ∀ o ∈ c2.sauq.drop c.sauq.length, o.alone = false := by
  rw [h, List.drop_length]
  exact fun o ho => absurd ho List.not_mem_nil

theorem vrepNames_settled {x : Ctx} {c : Core} (hs : c.settled x.st = true) (h : Nat) : c.vrepNames x h = false := by
  obtain ⟨-, -, -, -, -, hvrep, -⟩ := Core.settled_iff.mp hs
  simp [Core.vrepNames, hvrep]

theorem popVldq_settled {x : Ctx} {c : Core} {v : Vec} {r : List Vec} (hs : c.settled x.st = true) (hq : c.q.vldq = v :: r) :
    popVldq x c = .ok (v, { c with q := { c.q with vldq := r } }) := by
  unfold popVldq
  refine (run_bind_ok (run_get c)).trans <| (stallIf_then (vrepNames_settled hs _) _).trans ?_
  rw [hq]
  rfl

theorem vmovFromVldq_leaves {x : Ctx} {c c2 : Core} {n : BitVec 3} {d : BitVec 5} (hs : c.settled x.st = true)
    (h : vecWord x c (.vmovFromVldq n d) = some c2) : Leaves x c (.vmovFromVldq n d) c2 := by
  obtain ⟨-, h⟩ := ite_none h
  obtain ⟨-, h⟩ := ite_none h
  cases hq : c.q.vldq with
  | nil => simp only [hq] at h; cases h
  | cons v r =>
    simp only [hq] at h
    obtain rfl := Option.some.inj h
    refine ⟨⟨_, fun _ => rfl, ?_⟩, alone_of_sauq_eq (result_sauq _ _ _ _)⟩
    exact (run_bind_ok (destFree_settled hs _)).trans <| (run_bind_ok (popVldq_settled hs hq)).trans
      (wrHome_settled (c := { c with q := { c.q with vldq := r } }) hs _ _)

/-- A row that is pushed to vstq: discarded towards a halted stream, and else it finds room (R64, R83). -/
theorem pushVstq_settled {x : Ctx} {c c2 : Core} {v : VSlot} (hs : c.settled x.st = true)
    (h : (if c.a.halted then some c
      else if c.q.vstq.length < 8 then some { c with q := { c.q with vstq := c.q.vstq ++ [v] } } else none) = some c2) :
    pushVstq x v c = .ok ((), c2) ∧ c2.sauq = c.sauq := by
  unfold pushVstq
  split at h
  · rename_i hhalted
    obtain rfl := Option.some.inj h
    refine ⟨(run_bind_ok (run_get c)).trans <| (stallIf_then (vrepNames_settled hs _) _).trans ?_, rfl⟩
    rw [if_pos hhalted]
    rfl
  · rename_i hhalted
    obtain ⟨hroom, h⟩ := guard_some h
    obtain rfl := Option.some.inj h
    refine ⟨(run_bind_ok (run_get c)).trans <| (stallIf_then (vrepNames_settled hs _) _).trans ?_, rfl⟩
    rw [if_neg hhalted, if_neg (Nat.not_le.mpr hroom)]
    rfl

theorem vmovToVstq_leaves {x : Ctx} {c c2 : Core} {n : BitVec 3} {a : BitVec 5} (hbody : x.body = false) (hs : c.settled x.st = true)
    (h : vecWord x c (.vmovToVstq n a) = some c2) : Leaves x c (.vmovToVstq n a) c2 := by
  obtain ⟨hst, h⟩ := ite_none h
  obtain ⟨-, h⟩ := ite_none h
  obtain ⟨hpush, hq⟩ := pushVstq_settled hs h
  refine ⟨⟨_, fun _ => rfl, ?_⟩, alone_of_sauq_eq hq⟩
  refine (run_bind_ok (run_get c)).trans ?_
  rw [hbody, Bool.false_and, if_neg Bool.false_ne_true]
  exact (run_bind_ok (rdV_settled hs (strm_e_of_ne hst) a)).trans hpush

theorem vecWord_leaves {x : Ctx} {c c2 : Core} {i : Instr} (hbody : x.body = false) (hs : c.settled x.st = true) (h : vecWord x c i = some c2) :
    Leaves x c i c2 := by
  obtain ⟨hst, hword⟩ := ite_none h
  split at hword
  · exact vmovFromVldq_leaves hs h
  · exact vmovToVstq_leaves hbody hs h
  · obtain ⟨r, hr, hd⟩ := Option.bind_eq_some_iff.mp hword
    exact (intLanes_handsOver hs (strm_e_of_ne hst) hr).leaves hs hd

/-- Settles O20: on a settled core each word reads its operands at once, and hands over the lanes of the table; the words of the vector queues dispatch
nothing. -/
theorem vectorWords : Obligations.VectorWords := completes_of_leaves vecWord_leaves

/-! ### The words of the tables (R190 to R192) -/

/-- A dispatch with room, of a word that does not run alone, leaves its operation at the end of the queue. -/
theorem dispatchM_leaves {x : Ctx} {c c1 c2 : Core} {i : Instr} {m : Ctx → CM Unit} {passes : Nat} {dests : List Nat} {work : SauWork}
    (hi : RunsSau i m) (hm : m x c = dispatchM x false passes dests work c1) (hs : c1.settled x.st = true) (hq : c1.sauq = c.sauq)
    (h : (if c1.sauq.length < 8 then
        some (dests.foldl (fun c h => c.setPend .e h) { c1 with sauq := c1.sauq ++ [opOf x passes dests work] })
      else none) = some c2) : Leaves x c i c2 := by
  obtain ⟨hroom, h⟩ := guard_some h
  obtain rfl := Option.some.inj h
  refine ⟨⟨m, hi, hm.trans (dispatchM_run hs hroom)⟩, ?_⟩
  rw [foldl_keeps Core.sauq fun _ _ => setPend_sauq _ _ _, hq]
  simp [opOf]

/-- VTAB dispatches while no enable is set, its draws taken (R117, R120, R190). -/
theorem vtab_leaves {x : Ctx} {c c2 : Core} {n : BitVec 3} {d a b : BitVec 5} {k : BitVec 3} {f : BitVec 2} (hs : c.settled x.st = true)
    (h : tabWord x c (.vtab n d a b k f) = some c2) : Leaves x c (.vtab n d a b k f) c2 := by
  obtain ⟨hst, h⟩ := ite_none h
  obtain ⟨hguard, h⟩ := ite_none h
  simp only [not_or, not_not, Bool.not_eq_false] at hguard
  obtain ⟨hoff, hdraw⟩ := hguard
  obtain ⟨-, -, m, hi, hm⟩ := vtab_dispatches (n := n) (d := d) (a := a) (b := b) (k := k) (f := f) (strm_e_of_ne hst) hdraw
    (if_neg (not_or.mpr ⟨hst, by rw [hdraw]; decide⟩))
  have hrun := hm hs (fpBegin_ok hs (by simp [fpReady, hoff]))
  have halone : aloneM x true = false := by simp [aloneM, hoff]
  rw [halone] at hrun
  have hq : (drawn x c (1024 / (Fmt.ofCode f).width)).2.sauq = c.sauq := by
    obtain ⟨u, hu⟩ := drawn_core x c (1024 / (Fmt.ofCode f).width)
    rw [hu]
  exact dispatchM_leaves hi hrun ((drawn_settled _ _ _ _).trans hs) hq h

theorem tload_leaves {x : Ctx} {c c2 : Core} {n : BitVec 3} {d a b : BitVec 5} (hs : c.settled x.st = true)
    (h : tabWord x c (.tload n d a b) = some c2) : Leaves x c (.tload n d a b) c2 := by
  obtain ⟨hst, h⟩ := ite_none h
  exact dispatchM_leaves (fun _ => rfl) (run_bind_ok (rdV_settled hs (strm_e_of_ne hst) a)) hs rfl h

theorem tcfg_leaves {x : Ctx} {c c2 : Core} {n : BitVec 3} {d a : BitVec 5} (hs : c.settled x.st = true)
    (h : tabWord x c (.tcfg n d a) = some c2) : Leaves x c (.tcfg n d a) c2 := by
  obtain ⟨hst, h⟩ := ite_none h
  exact dispatchM_leaves (fun _ => rfl) (run_bind_ok (rdX_settled hs a)) hs rfl h

theorem tabWord_leaves {x : Ctx} {c c2 : Core} {i : Instr} (_ : x.body = false) (hs : c.settled x.st = true) (h : tabWord x c i = some c2) :
    Leaves x c i c2 := by
  cases i
  case vtab => exact vtab_leaves hs h
  case tload => exact tload_leaves hs h
  case tcfg => exact tcfg_leaves hs h
  all_goals
    obtain ⟨-, h⟩ := ite_none h
    cases h

/-- Settles O22: on a settled core the word reads its source, VTAB its merged register, mask and draws besides, and dispatches one operation. -/
theorem tableWords : Obligations.TableWords := completes_of_leaves tabWord_leaves

end Sys2Proof.Slice0
end

section
/-!
SUPPORT. VREP (R193 to R195): what it checks and hands over, and where its stream goes on.
-/

namespace Sys2Proof.Slice0

open Sys2Proof.Machine

/-! ### A word that passes over others -/

/-- Where no loop level of the current frame ends, a word ends no body (R78). -/
theorem endCheck_passes {q : Seq} {addr : Word} (h : ∀ j, j < q.loopDepth → (q.level j).frame = q.depth → (q.level j).le ≠ addr)
    (next : Word) (k : Nat) : endCheck q addr next k = (next, false, q) := by
  cases k with
  | zero => rfl
  | succ k =>
    unfold endCheck
    split
    · rfl
    · rename_i hdepth
      refine if_pos ?_
      by_contra hend
      rw [not_or, not_not, not_not] at hend
      exact h _ (Nat.sub_one_lt hdepth) hend.1 hend.2.symm

/-- A word that ends no body changes none of its stream's loops. -/
theorem loopsM_passes {x : Ctx} {n : BitVec 3} {nx : Next} {a : Word} {c : Core}
    (hends : endCheck (c.seq x.st) x.pc a 3 = (a, false, c.seq x.st)) : ∃ keep, loopsM x n nx a false c = .ok ((a, keep), c) := by
  have hput : (set (c.setSeq x.st (c.seq x.st)) : CM PUnit) c = .ok ((), c) := by rw [run_set, Core.setSeq_self]
  unfold loopsM
  refine ⟨false || a == x.pc + 4 || (nx.inSequence && a == a), (run_bind_ok (run_get c)).trans ?_⟩
  rw [if_neg Bool.false_ne_true, hends]
  exact (run_bind_ok hput).trans rfl

/-- A word with selector 0 that passes over the words up to a, and ends no body, goes on at a. -/
theorem resolveM_skips {x : Ctx} {q0 : Seq} {a : Word} {s : State}
    (hends : endCheck ((s.core x.core).seq x.st) x.pc a 3 = (a, false, (s.core x.core).seq x.st)) :
    ∃ keep, resolveM x 0 q0 (.skip a) s = .ok ((.skip a, a, keep), s.setCore x.core (s.core x.core)) := by
  obtain ⟨keep, hloops⟩ := loopsM_passes (n := 0) (nx := .skip a) hends
  have hselect : selectM x 0 q0 (.skip a) (s.core x.core) = .ok ((a, false), s.core x.core) := rfl
  exact ⟨keep, (run_bind_ok (onCore_ok ((run_bind_ok hselect).trans hloops))).trans rfl⟩

section

variable {i : Instr} {eff : Ctx → DM Next} {s s2 : State} {a : Word}

/-- The parts of such a word that lie around its effect leave the module as its effect does. -/
theorem performM_skips (hrunning : (s.core s.cur).run = .running) (hjx : ((s.core s.cur).seq s.strm).jx = false)
    (hbefore : (s.core s.cur).selectorBefore s.strm 0 = true) (hidle : (s2.core s.cur).run ≠ .idle)
    (he : eff s.ctx (s.setCore s.cur s.atIssue) = .ok (.skip a, s2))
    (hends : endCheck ((s2.core s.cur).seq s.strm) s.ctx.pc a 3 = (a, false, (s2.core s.cur).seq s.strm)) :
    ∃ keep, performM s.ctx 0 eff s = .ok ((.skip a, a, keep), s2.setCore s.cur (s2.core s.cur)) := by
  have hcore : (s.setCore s.cur s.atIssue).core s.cur = s.atIssue := State.setCore_atIssue_core hrunning
  have hself : (s2.setCore s.cur (s2.core s.cur)).core s.cur = s2.core s.cur := s2.setCore_core_self s.cur hidle
  have hnojx : (((s.setCore s.cur s.atIssue).core s.cur).seq s.strm).jx = false := by
    rw [hcore, State.atIssue, Core.modSeq_seq, Seq.takeTgt_jx, hjx]
  obtain ⟨keep, hresolve⟩ := resolveM_skips (x := s.ctx) (q0 := ((s.setCore s.cur s.atIssue).core s.cur).seq s.strm) (a := a)
    (s := s2.setCore s.cur (s2.core s.cur)) (by rw [State.ctx_core, hself]; exact hends)
  rw [State.ctx_core, hself, State.setCore_setCore _ _ hidle hidle] at hresolve
  refine ⟨keep, ?_⟩
  unfold performM
  refine (run_bind_ok (onCore_ok (before_ok hbefore))).trans <| (run_bind_ok (run_get _)).trans ?_
  refine (congrFun (if_neg (ne_true_of_eq_false hnojx)) _).trans ?_
  exact (run_bind_ok he).trans <| (run_bind_ok (onCore_ok rfl)).trans <| (run_bind_ok (run_get _)).trans hresolve

/-- The commit of a word outside gangs puts its own core alone, whose stream goes on at the next address. -/
theorem commit_leaveRunner {x : Ctx} {n : BitVec 3} {c0 : Core} {keep : Bool} (hidle : (s2.core x.core).run ≠ .idle)
    (hgang : (s2.core x.core).gang = none) :
    ∃ e, commit ((s2.setCore x.core (s2.core x.core)).modCore x.core fun c => c.leaveRunner c0 x) x i n a keep = s2.setCore x.core e
      ∧ e.run ≠ .idle ∧ (e.seq x.st).pc = a := by
  have hself : (s2.setCore x.core (s2.core x.core)).core x.core = s2.core x.core := s2.setCore_core_self x.core hidle
  obtain ⟨-, hgang', hrun'⟩ := Core.leaveRunner_sameData (s2.core x.core) c0 x x.st
  have hidle' := hrun'.trans_ne hidle
  have hself' : (s2.setCore x.core ((s2.core x.core).leaveRunner c0 x)).core x.core = (s2.core x.core).leaveRunner c0 x :=
    s2.setCore_core_self x.core hidle'
  rw [State.modCore, hself, State.setCore_setCore _ _ hidle hidle']
  obtain ⟨e, hcommit, ⟨-, -, hrun⟩, hseq, -⟩ := commit_alone (s := s2.setCore x.core ((s2.core x.core).leaveRunner c0 x)) (x := x) i n a keep
    (by rw [hself', hgang', hgang]) (by rwa [hself'])
  rw [hself'] at hrun
  have heidle := hrun.trans_ne hidle'
  exact ⟨e, hcommit.trans (State.setCore_setCore _ _ hidle' heidle), heidle, congrArg Seq.pc hseq⟩

/-- A word with selector 0 that runs, passes over the words up to a, and ends no body: its stream goes on at a, and nothing else changes. -/
theorem issue_skips (hr : s.runs i (s2.core s.cur) = true) (hsel : selector i = 0) (he : eff s.ctx (s.setCore s.cur s.atIssue) = .ok (.skip a, s2))
    (hends : endCheck ((s2.core s.cur).seq s.strm) s.ctx.pc a 3 = (a, false, (s2.core s.cur).seq s.strm)) :
    ∃ t, issue i eff s = .next t ∧ Stepped s2 t s.cur s.strm ∧ ((t.core s.cur).seq s.strm).pc = a := by
  obtain ⟨t, hissue, hstep, -⟩ := issue_goes hr he ⟨by simp, by simp⟩
  refine ⟨t, hissue, hstep, ?_⟩
  have hrunning := State.runs_running hr
  simp only [State.runs, Bool.and_eq_true, bne_iff_ne, ne_eq, Bool.not_eq_true', Option.isNone_iff_eq_none] at hr
  obtain ⟨⟨⟨⟨⟨⟨⟨⟨⟨hcan, halone⟩, hgang⟩, hidle⟩, huntimed⟩, hlegal⟩, hsound⟩, hjx⟩, hbefore⟩, -⟩ := hr
  obtain ⟨keep, hperform⟩ := performM_skips hrunning hjx (hsel ▸ hbefore) hidle he hends
  obtain ⟨e, hcommit, heidle, hpc⟩ := commit_leaveRunner (x := s.ctx) (i := i) (n := selector i) (a := a) (c0 := s.core s.cur) (keep := keep)
    hidle hgang
  rw [← hsel] at hperform
  have hfirst : firstWait s s.ctx (selector i) eff = none := if_pos hsound
  have hput : issue i eff s = .next (s2.setCore s.cur e) := by
    simp only [issue, hcan, fwdFull_of_alone halone, huntimed, Bool.not_true, Bool.or_false, Bool.false_eq_true, if_false, hlegal]
    rw [show mkCtx s.cur s.strm s ((s.core s.cur).seq s.strm) (s.core s.cur).ctl.fpctl = s.ctx from rfl]
    simp only [tryWord, hfirst, hperform]
    exact congrArg _ hcommit
  rw [hissue] at hput
  obtain rfl := Host.Outcome.next.inj hput
  rw [s2.setCore_core_self s.cur heidle]
  exact hpc

end

/-! ### What VREP checks (R194) -/

/-- A list of readings that each succeed and change nothing. -/
theorem mapM_reads {σ α β : Type} {f : α → StateT σ (Except Stop) β} {g : α → β} {s : σ} {l : List α}
    (h : ∀ a ∈ l, f a s = .ok (g a, s)) : l.mapM f s = .ok (l.map g, s) := by
  induction l with
  | nil => rfl
  | cons a l ih =>
    rw [List.mapM_cons]
    exact (run_bind_ok (h a List.mem_cons_self)).trans <| (run_bind_ok (ih fun b hb => h b (List.mem_cons_of_mem a hb))).trans rfl

theorem bodyOf_some {x : Ctx} {c : Core} {n : Nat} {ws : List Insn} (h : bodyOf x c n = some ws) :
    (∀ j, j < n → (x.pc + BitVec.ofNat 64 (4 + 4 * j)).toNat + 4 ≤ Config.ulmBytes
      ∧ c.ulmError (x.pc + BitVec.ofNat 64 (4 + 4 * j)).toNat 4 = none
      ∧ bodyFault (!c.ctl.lvl) (c.fetchWord x.st (x.pc + BitVec.ofNat 64 (4 + 4 * j)).toNat) = none)
    ∧ ws = (List.range n).map fun j => c.fetchWord x.st (x.pc + BitVec.ofNat 64 (4 + 4 * j)).toNat := by
  obtain ⟨hall, h⟩ := guard_some h
  refine ⟨fun j hj => ?_, (Option.some.inj h).symm⟩
  simpa [and_assoc] using List.all_eq_true.mp hall j (List.mem_range.mpr hj)

/-- A legal body in readable ULM is read (R194). -/
theorem rdBody_bodyOf {x : Ctx} {c : Core} {n : Nat} {ws : List Insn} (h : bodyOf x c n = some ws) : rdBody x n c = .ok (ws, c) := by
  obtain ⟨hwords, rfl⟩ := bodyOf_some h
  refine (run_bind_ok (run_get c)).trans (mapM_reads fun j hj => ?_)
  obtain ⟨hin, hsound, hlegal⟩ := hwords j (List.mem_range.mp hj)
  refine (raiseIf_then (decide_eq_false (Nat.not_lt.mpr hin)) _).trans ?_
  simp only [hsound, hlegal]
  rfl

/-! ### What VREP hands over (R193, R195) -/

section

variable {x : Ctx} {c c1 c2 : Core} {i : Instr} {n : Nat} {v : Word} {count : Ctx → CM Word}

/-- Taking the count from a queue leaves the body that the stream fetches. -/
theorem bodyOf_withQ (x : Ctx) (c : Core) (u : Queues) (n : Nat) : bodyOf x { c with q := u } n = bodyOf x c n := by
  unfold bodyOf
  cases x.st <;> rfl

/-- A body that is handed over, and one of count 0, leave all of the core but the sequencer. -/
theorem handedOver_eq (h : handedOver x c n v = some c2) :
    ∃ r, c2 = { c with vrep := r } ∧ (v = 0 → r = c.vrep) ∧ (v ≠ 0 → r.isSome = true) := by
  obtain ⟨ws, -, h⟩ := Option.map_eq_some_iff.mp h
  split at h
  · exact ⟨c.vrep, h.symm, fun _ => rfl, fun hv => absurd ‹_› hv⟩
  · exact ⟨_, h.symm, fun hv => absurd hv ‹_›, fun _ => rfl⟩

/-- With a legal body and its count, VREP leaves what the table says, and the sequencer due where it holds the body. -/
theorem vrepM_skips {s : State} {u : Queues} (hs : (s.core s.cur).settled x.st = true) (hcore : x.core = s.cur)
    (hidle : (s.core s.cur).run ≠ .idle) (hends : endsInBody x (s.core s.cur).e n = false) (hcount : count x (s.core s.cur) = .ok (v, c1))
    (hc1 : c1 = { s.core s.cur with q := u }) (h : handedOver x c1 n v = some c2) :
    vrepM i n count x s = .ok (.skip (x.pc + BitVec.ofNat 64 (4 + 4 * n)), dueVrep (s.setCore s.cur c2)) := by
  obtain ⟨-, -, -, -, -, hvrep, -⟩ := Core.settled_iff.mp hs
  obtain ⟨r, hc2, hnone, hsome⟩ := handedOver_eq h
  obtain ⟨ws, hbody, hput⟩ := Option.map_eq_some_iff.mp h
  rw [hc1, bodyOf_withQ] at hbody
  have hself : (s.setCore s.cur c2).core s.cur = c2 := s.setCore_core_self s.cur (by rw [hc2, hc1]; exact hidle)
  have heffect : c2.vrep.isSome = !decide (v = 0) := by
    by_cases hv : v = 0
    · rw [hc2, hnone hv, hc1, hvrep, hv]
      rfl
    · rw [hc2, hsome hv, decide_eq_false hv]
      rfl
  unfold vrepM
  rw [hcore]
  refine (run_bind_ok (onCore_ok (a := !decide (v = 0)) (c := c2) ?_)).trans ?_
  · refine (run_bind_ok (run_get _)).trans ?_
    rw [hvrep]
    refine (run_bind_ok (rdBody_bodyOf hbody)).trans <| (raiseIf_then hends _).trans <| (run_bind_ok hcount).trans ?_
    subst hc1
    by_cases hv : v = 0
    · rw [if_pos hv] at hput ⊢
      rw [← hput, decide_eq_true hv]
      rfl
    · rw [if_neg hv] at hput ⊢
      rw [← hput, decide_eq_false hv]
      rfl
  · unfold dueVrep
    rw [State.setCore_cur, hself, heffect]
    by_cases hv : v = 0
    · rw [decide_eq_true hv]
      rfl
    · rw [decide_eq_false hv]
      rfl

/-- A loop of the current frame that ends at the word ends in its body, when the body lies behind the word. -/
theorem endCheck_vrep {q : Seq} (hends : endsInBody x q n = false) (hbehind : x.pc.toNat < (x.pc + BitVec.ofNat 64 (4 + 4 * n)).toNat)
    (next : Word) (k : Nat) : endCheck q x.pc next k = (next, false, q) := by
  refine endCheck_passes (fun j hj hframe hle => ?_) next k
  have hno := List.any_eq_false.mp hends j (List.mem_range.mpr hj)
  rw [hle, hframe, beq_self_eq_true, decide_eq_true le_rfl, decide_eq_true hbehind] at hno
  exact hno rfl

end

/-- The body of a word in ULM lies behind it. -/
theorem pc_lt_behind {pc : Word} {n : Nat} (hin : pc.toNat + 4 ≤ Config.ulmBytes) (hn : n ≤ 32) :
    pc.toNat < (pc + BitVec.ofNat 64 (4 + 4 * n)).toNat := by
  have hulm : Config.ulmBytes = 393216 := rfl
  rw [BitVec.toNat_add, BitVec.toNat_ofNat]
  omega

theorem dueVrep_core (s : State) (n : Nat) : (dueVrep s).core n = s.core n := by
  unfold dueVrep
  split
  · exact State.soon_core _ _ _
  · rfl

/-- VREP, with either source of its count, completes where its word lies in ULM. -/
theorem vrepM_completes {s : State} {i : Instr} {c c1 : Core} {n : Nat} {v : Word} {count : Ctx → CM Word} {u : Queues}
    (hi : exec i s = issue i (vrepM i n count) s) (hsel : selector i = 0) (hn : n ≤ 32) (hin : s.ctx.pc.toNat + 4 ≤ Config.ulmBytes)
    (hs : (s.core s.cur).settled s.strm = true) (hst : s.ctx.st = .e) (hends : endsInBody s.ctx s.atIssue.e n = false)
    (hcount : count s.ctx s.atIssue = .ok (v, c1)) (hc1 : c1 = { s.atIssue with q := u }) (h : handedOver s.ctx c1 n v = some c)
    (hr : s.runs i c = true) : ∃ t, exec i s = .next t ∧ Stepped (dueVrep (s.setCore s.cur c)) t s.cur s.strm
      ∧ ((t.core s.cur).seq s.strm).pc = s.ctx.pc + BitVec.ofNat 64 (4 + 4 * n) := by
  have hrunning := State.runs_running hr
  have hidle : s.atIssue.run ≠ .idle := by rw [State.atIssue_run, hrunning]; decide
  have hcore : (s.setCore s.cur s.atIssue).core s.cur = s.atIssue := State.setCore_atIssue_core hrunning
  obtain ⟨r, hc, -⟩ := handedOver_eq h
  have hcidle : c.run ≠ .idle := by rw [hc, hc1]; exact hidle
  have hseq : ((dueVrep (s.setCore s.cur c)).core s.cur).seq s.strm = s.atIssue.e := by
    rw [dueVrep_core, s.setCore_core_self s.cur hcidle, show s.strm = .e from hst, hc, hc1]
    rfl
  have heff := vrepM_skips (i := i) (count := count) (s := s.setCore s.cur s.atIssue) (x := s.ctx) (n := n) (v := v) (c1 := c1) (c2 := c) (u := u)
    (by rw [State.setCore_cur, hcore]; exact State.atIssue_settled hs) rfl (by rwa [State.setCore_cur, hcore])
    (by rwa [State.setCore_cur, hcore]) (by rwa [State.setCore_cur, hcore]) (by rwa [State.setCore_cur, hcore]) h
  rw [State.setCore_cur, State.setCore_setCore _ _ hidle hcidle] at heff
  rw [hi]
  refine issue_skips (by rwa [dueVrep_core, s.setCore_core_self s.cur hcidle]) hsel heff ?_
  rw [hseq]
  exact endCheck_vrep hends (pc_lt_behind hin hn) _ _

/-- What VrepWords says of a word that lies in ULM, as AtWord has it of every word that a step issues: the sequencer holds the body, and the stream goes
on behind it. -/
theorem vrepWord_completes {s : State} {i : Instr} {c : Core} (hin : s.ctx.pc.toNat + 4 ≤ Config.ulmBytes)
    (hs : (s.core s.cur).settled s.strm = true) (h : vrepWord s.ctx s.atIssue i = some c) (hr : s.runs i c = true) :
    ∃ t, exec i s = .next t ∧ Stepped (dueVrep (s.setCore s.cur c)) t s.cur s.strm
      ∧ ((t.core s.cur).seq s.strm).pc = s.ctx.pc + BitVec.ofNat 64 (4 + 4 * bodyLength i) := by
  obtain ⟨hguard, h⟩ := ite_none h
  rw [not_or, Bool.not_eq_true] at hguard
  obtain ⟨hst, hends⟩ := hguard
  have hst := strm_e_of_ne hst
  cases i with
  | vrep n e => exact vrepM_completes rfl rfl n.isLt hin hs hst hends (rdX_settled (State.atIssue_settled hs) e) rfl h hr
  | vrepQ n =>
    cases hq : s.atIssue.q.ldq with
    | nil => simp only [hq] at h; cases h
    | cons o r =>
      cases o with
      | none => simp only [hq] at h; cases h
      | some v =>
        simp only [hq] at h
        refine vrepM_completes rfl rfl n.isLt hin hs hst hends (u := { s.atIssue.q with ldq := r }) ?_ rfl h hr
        unfold popData
        refine (run_bind_ok (run_get _)).trans ?_
        rw [hst, hq]
        rfl
  | _ => cases h

/-! ### A word at the end of the address space -/

/-- A running core whose E-stream stands at the last word address of 64 bits, in a loop that ends there and goes back to 0x100: a VADD lies at
address 0, which is the next address. -/
def atLastAddress : Core :=
  { run := .running
    ulm := [(0, 1), (1, 0x43), (2, 0x04), (3, 0x12)]
    e := { pc := 0xFFFFFFFFFFFFFFFC, loopDepth := 1, loops := { l0 := { lc := 5, ls := 0x100, le := 0xFFFFFFFFFFFFFFFC } } } }

/-- The module with that core alone. -/
def lastAddress : State := { State.reset with strm := .e, cores := [(0, atLastAddress)] }

/-- VREP with count 0 meets every condition of the statement there. -/
theorem vrep_lastAddress_met : (lastAddress.core 0).settled .e = true ∧ vrepWord lastAddress.ctx lastAddress.atIssue (.vrep 0 0) = some atLastAddress
    ∧ lastAddress.runs (.vrep 0 0) atLastAddress = true := by
  decide

/-- It goes back to the start of the loop. -/
theorem vrep_lastAddress_pc : (match exec (.vrep 0 0) lastAddress with | .next t => (t.core 0).e.pc | _ => 0) = 0x100 := by
  decide

/-- Refutes O23: nothing in the statement places the word in ULM. At address 2^64 - 4 the address behind the body is less than the word's, so that the
comparisons by which R194 refuses a body where a loop ends miss a loop that ends at the word itself; the end check of R78 then goes back to the start
of that loop, and not behind the body. Of a word in ULM the statement holds (vrepWord_completes). -/
theorem not_vrepWords : ¬ Obligations.VrepWords := by
  intro h
  obtain ⟨hs, ht, hr⟩ := vrep_lastAddress_met
  obtain ⟨t, hexec, -, hpc⟩ := h lastAddress (.vrep 0 0) atLastAddress hs ht hr
  have hback := vrep_lastAddress_pc
  rw [hexec] at hback
  exact absurd (hback.symm.trans hpc) (by decide)

end Sys2Proof.Slice0
end

section
/-!
SUPPORT. The steps of the SAU and of the vector sequencer (R174 to R177, R195): they happen as the table says where the array of tiles is in its
canonical form, and one of them does not where it is not.
-/

namespace Sys2Proof.Machine

/-! ### A value that is written back -/

/-- In a canonical array, writing back what an index reads as changes nothing. -/
theorem Store.set_get {α : Type} [DecidableEq α] {d : α} {m : Store α} (k : Nat) (hw : Store.wf d m = true) :
    Store.set d m k (Store.get d m k) = m := by
  suffices ∀ b, Store.wfFrom d b m = true → Store.set d m k (Store.get d m k) = m from this 0 hw
  induction m with
  | nil => exact fun _ _ => if_pos rfl
  | cons p m ih =>
    obtain ⟨j, v⟩ := p
    intro b hb
    simp only [Store.wfFrom, Bool.and_eq_true, decide_eq_true_eq] at hb
    obtain ⟨⟨-, hv⟩, hm⟩ := hb
    by_cases hbelow : k < j
    · simp only [Store.get, Store.set, if_pos hbelow, if_true]
    · by_cases hat : k = j
      · subst hat
        simp only [Store.get, Store.set, if_neg hbelow, if_true, if_neg hv]
      · simp only [Store.get, Store.set, if_neg hbelow, if_neg hat, ih (Store.wfFrom_mono (Nat.zero_le _) hm) _ hm]

theorem State.setTile_tile {s : State} (n : Nat) (hw : Store.wf {} s.tiles = true) : s.setTile n (s.tile n) = s := by
  unfold State.setTile State.tile
  rw [Store.set_get n hw]

/-! ### An operation that reads and writes no table (R190) -/

theorem SauOp.readTable_none {o : SauOp} (h : o.work.readsTab = none) (t : Tile) (asid : Nat) : o.readTable t asid = o := by
  unfold SauOp.readTable
  cases hwork : o.work
  case vtab => rw [hwork] at h; cases h
  all_goals rfl

theorem Tile.write_none {w : SauWork} (h : w.writesTab = none) (t : Tile) (asid : Nat) : t.write asid w = t := by
  cases w
  case tload => cases h
  case tcfg => cases h
  all_goals rfl

/-- The only head of a tile that is ready is the one that starts (R175). -/
theorem State.starts_single {s : State} {t n : Nat} (h : s.ready t = [n]) : s.starts t = [n] := by
  unfold State.starts
  rw [h]
  rfl

/-- Core c once operation o, the only one in its queue, has started: it stands until it completes (R176). -/
def Core.startedAll (c : Core) (o : SauOp) : Core := { c with sauq := [], sauFly := c.sauFly ++ [o] }

theorem startPass_single {s : State} {t n : Nat} {o : SauOp} (hq : (s.core n).sauq = [o]) (hp : o.passes ≤ 1) (hr : o.work.readsTab = none) :
    startPass s t n = (s.setCore n ((s.core n).startedAll o)).postpone (.sauComplete n) := by
  simp only [startPass, hq, if_neg (Nat.not_lt.mpr hp), SauOp.readTable_none hr, Core.startedAll]

/-- No operation is left in the tile when the only one has started. -/
theorem startedAll_queues {s : State} {t n : Nat} {o : SauOp} (hidle : (s.core n).run ≠ .idle)
    (hothers : ((coresAt t).all fun m => m == n || (s.core m).sauq.isEmpty) = true) :
    ((coresAt t).any fun m => !((s.setCore n ((s.core n).startedAll o)).core m).sauq.isEmpty) = false := by
  have hidle' : ((s.core n).startedAll o).run ≠ .idle := hidle
  refine List.any_eq_false.mpr fun m hm => ?_
  by_cases hmn : m = n
  · rw [hmn, State.setCore_core_self _ _ hidle']
    exact Bool.false_ne_true
  · rw [State.setCore_core_ne _ hidle' hmn]
    simpa [hmn] using List.all_eq_true.mp hothers m hm

/-- An operation that writes no table writes the tile back as it stands (R190). -/
theorem writeTables_none {s s0 : State} {t n : Nat} {o : SauOp} (hq : (s0.core n).sauq = [o]) (hw : o.work.writesTab = none)
    (htiles : Store.wf {} s.tiles = true) : writeTables s s0 t n = s := by
  simp only [writeTables, hq, State.modTile, Tile.write_none hw, State.setTile_tile t htiles, ite_self]

end Sys2Proof.Machine

namespace Sys2Proof.Slice0

open Sys2Proof.Machine

section

variable {s t : State}

/-- The only core of a tile with an operation to start starts it (R175, R176). -/
theorem sauStart_happens {tile : Nat} (htiles : Store.wf {} s.tiles = true) (h : sauStep s (.sauStart tile) = some t) :
    exec (.sauStart tile) s = .next t := by
  simp only [sauStep] at h
  split at h
  · rename_i n hready
    split at h
    · rename_i o hq
      obtain ⟨⟨hpasses, hreads, hwrites, -, hothers, hidle⟩, rfl⟩ := onlyIf_eq h
      have hwrite := writeTables_none (t := tile) (s := (s.setCore n ((s.core n).startedAll o)).postpone (.sauComplete n)) hq hwrites htiles
      rw [exec_sauStart, execSauStart]
      simp only [State.starts_single hready, hready, List.foldl_cons, List.foldl_nil, startPass_single hq hpasses hreads, hwrite]
      refine (congrArg Host.Outcome.next (if_neg (ne_true_of_eq_false (startedAll_queues hidle hothers)))).trans ?_
      simp [State.modTile, Core.startedAll]
    · cases h
  · cases h

/-- The oldest started operation completes (R177). -/
theorem sauComplete_happens {n : Nat} (h : sauStep s (.sauComplete n) = some t) : exec (.sauComplete n) s = .next t := by
  simp only [sauStep] at h
  rw [exec_sauComplete, execSauComplete]
  cases hfly : (s.core n).sauFly with
  | nil => simp only [hfly] at h; cases h
  | cons o r =>
    simp only [hfly] at h ⊢
    cases hwork : o.work with
    | result ws fl =>
      simp only [hwork] at h
      simp only [Core.finish, hwork]
      split at h
      · rename_i halone
        rw [if_pos halone]
        exact congrArg _ (Option.some.inj h)
      · rename_i halone
        rw [if_neg halone]
        exact congrArg _ (Option.some.inj h)
    | tload =>
      simp only [hwork] at h
      simp only [Core.finish, hwork]
      exact congrArg _ (Option.some.inj h)
    | tcfg =>
      simp only [hwork] at h
      simp only [Core.finish, hwork]
      exact congrArg _ (Option.some.inj h)
    | vtab => simp only [hwork] at h; cases h

/-- The sequencer dispatches the next word of its body, goes on running, waits, or traps (R195). -/
theorem vrepDispatch_happens {n : Nat} (h : sauStep s (.vrepDispatch n) = some t) : exec (.vrepDispatch n) s = .next t := by
  simp only [sauStep] at h
  rw [exec_vrepDispatch, execVrepDispatch]
  cases hvrep : (s.core n).vrep with
  | none => simp only [hvrep] at h; cases h
  | some r =>
    simp only [State.modCore, hvrep] at h ⊢
    have hfree {u : State} (hu : onlyIf (r.held = false) u = some t) : (if r.held = true then (.next s : Out) else .next u) = .next t := by
      obtain ⟨hheld, rfl⟩ := onlyIf_eq hu
      exact if_neg (ne_true_of_eq_false hheld)
    split at h
    · exact hfree h
    · exact hfree h
    · exact hfree h
    · exact hfree h

/-- What VectorSteps says, of a module whose array of tiles is in its canonical form. -/
theorem sauStep_happens {i : Instr} (htiles : Store.wf {} s.tiles = true) (h : sauStep s i = some t) : exec i s = .next t := by
  cases i
  case sauStart => exact sauStart_happens htiles h
  case sauComplete => exact sauComplete_happens h
  case vrepDispatch => exact vrepDispatch_happens h
  all_goals exact absurd h (Option.some_ne_none t).symm

end

/-! ### A module whose array of tiles is not in its canonical form -/

/-- An operation of one pass without a table. -/
def plainOp : SauOp := ⟨.result [(601, 5)] 0, 1, [601], false, 0, 0, false, false⟩

/-- A module with that operation to start on core 0, and tile 0 listed twice: first as it is after reset. -/
def tileTwice : State :=
  { State.reset with
    cores := [(0, { run := .running, sauq := [plainOp] })]
    tiles := [(0, {}), (0, { sauPtr := 1 })] }

/-- What the table says there: the first of the two entries is replaced, and the second one stays. -/
theorem sauStep_tileTwice : (sauStep tileTwice (.sauStart 0)).map (fun t => t.tiles.length) = some 2 := by
  decide

/-- What the step does there: it writes the tile back unchanged, which drops the entry of the default, and then replaces the other one. -/
theorem exec_tileTwice : (match exec (.sauStart 0) tileTwice with | .next t => t.tiles.length | _ => 0) = 1 := by
  decide

/-- Refutes O47: nothing in the statement asks for an array of tiles in its canonical form. SAU_START writes its tile twice, for the tables and for the
round-robin pointer, where the table writes it once; on a list that holds the tile twice, first with the default, the first write drops an entry. Of a
module whose array of tiles is in its canonical form the statement holds (sauStep_happens). -/
theorem not_vectorSteps : ¬ Obligations.VectorSteps := by
  intro h
  obtain ⟨t, ht, hlength⟩ := Option.map_eq_some_iff.mp sauStep_tileTwice
  have hstep := exec_tileTwice
  rw [h _ _ _ ht] at hstep
  exact absurd (hlength.symm.trans hstep) (by decide)

end Sys2Proof.Slice0
end

section
/-!
SUPPORT. The words of the matrix slice (R200 to R218) on a settled core: what they wait for and check, what enters the slice's queue, and the command
of a global stream, which waits for more than its table names.
-/

namespace Sys2Proof.Machine

open Slice0 (rdV_settled rdK_settled canDraw drawn queueFree latchOk operandsOk queuedMat loadRows begun)

/-! ### What a word of the matrix slice waits for and checks (R60, R200) -/

theorem queueRoom_ok {c : Core} (h : queueFree c = true) : queueRoom c = .ok ((), c) := by
  have hroom : decide (4 ≤ c.mat.queue.countP fun e => !e.started) = false := decide_eq_false (Nat.not_le.mpr (of_decide_eq_true h))
  rw [queueRoom, run_bind_ok (run_get c), stallIf_run, hroom]
  rfl

theorem latchOk_iff {c : Core} {t : Nat} :
    latchOk c t = true ↔ Store.get 0 c.mat.latch (latchOf t) ≠ 2 ∧ Store.get 0 c.mat.latch (latchOf t) ≠ 3 := by
  simp [latchOk]

theorem latchesReady_ok {c : Core} {ts : List Nat} (h : ∀ t ∈ ts, latchOk c t = true) : latchesReady ts c = .ok ((), c) := by
  have hpending : (ts.any fun t => Store.get 0 c.mat.latch (latchOf t) == 2) = false :=
    List.any_eq_false.mpr fun t ht => by simpa using (latchOk_iff.mp (h t ht)).1
  have hvoid : (ts.any fun t => Store.get 0 c.mat.latch (latchOf t) == 3) = false :=
    List.any_eq_false.mpr fun t ht => by simpa using (latchOk_iff.mp (h t ht)).2
  refine (run_bind_ok (run_get c)).trans <| (stallIf_then hpending _).trans ?_
  rw [raiseIf_run, hvoid]
  rfl

theorem operandsOk_iff {c : Core} {a b : Nat} :
    operandsOk c a (some b) = true ↔ ∀ t ∈ [a, 4 + a, 2 + b, 6 + b], latchOk c t = true := by
  simp [operandsOk, and_assoc]

/-- No accumulator of a core without damaged registers is damaged (R94). -/
theorem accGood_settled {c : Core} {st : Strm} (hs : c.settled st = true) (acc : Nat) : accGood acc c = .ok ((), c) := by
  obtain ⟨-, -, -, -, hbad, -⟩ := Core.settled_iff.mp hs
  rw [accGood, run_bind_ok (run_get c), raiseIf_run, hbad]
  rfl

theorem pushMat_run (w : MatWord) (c : Core) : pushMat w false c = .ok ((), queuedMat c w) := rfl

/-! ### The rows of a load (R204) -/

/-- Within a branch of a choice, the same choice is made. -/
theorem ite_branch {α β : Type} {p : Prop} [Decidable p] (g : α → β) (a b : α) (d : β) :
    (if p then g (if p then a else b) else d) = if p then g a else d := by
  split <;> rfl

/-- Of the rows of a load that is not a global stream, none lies outside ULM. -/
theorem notGlobal_find?_none {f : BitVec 2} {addrs : List Nat} {out : Nat → Bool} (h : f ≠ 3 → addrs.any out ≠ true) :
    (if f = 3 then none else addrs.find? out) = none := by
  split
  · rfl
  · exact List.find?_eq_none.mpr (by simpa using h ‹_›)

/-- A load that the table admits passes every check, each of which finds nothing, and has the rows that the table gives. -/
theorem mldArgs_ok {x : Ctx} {c : Core} {l b : BitVec 5} {f : BitVec 2} {tr : BitVec 1} {g : BitVec 4} {bytes wbits : Nat} {rows : List Nat}
    (hs : c.settled x.st = true) (hst : x.st = .e) (h : loadRows x c l b f tr g = some (bytes, wbits, rows)) :
    mldArgs x l b f tr g c = .ok (⟨bytes, wbits, rows⟩, c) := by
  obtain ⟨hfits, h⟩ := Slice0.ite_none h
  simp only [Option.some.injEq, Prod.mk.injEq] at h
  obtain ⟨rfl, rfl, rfl⟩ := h
  push Not at hfits
  obtain ⟨hrows, hcap, hmany, htr, hbase, hstride, haddrs, hrange, hpoints⟩ := hfits
  refine (run_bind_ok (rdX_settled hs l)).trans ?_
  refine (Slice0.run_ite_then (a := if f = 3 then c.reg x.st b else 0) (t := c) (fun hf => ?_) fun hf => ?_).trans ?_
  · rw [if_pos hf]; exact rdX_settled hs b
  · rw [if_neg hf]; rfl
  refine (Slice0.run_ite_then (a := if f = 1 then c.vreg b else 0) (t := c) (fun hf => ?_) fun hf => ?_).trans ?_
  · rw [if_pos hf]; exact rdV_settled hs hst b
  · rw [if_neg hf]; rfl
  refine (run_bind_ok (run_get c)).trans ?_
  have hlane (r d : Nat) : (if f = 1 then lane 16 (if f = 1 then c.vreg b else 0) r else d) = if f = 1 then lane 16 (c.vreg b) r else d :=
    ite_branch (lane 16 · r) _ _ _
  rw [ite_branch vaOf]
  simp only [hlane]
  generalize (if f = 3 then vaOf (c.reg x.st b) else fieldOf (c.reg x.st l) 0 19) = base at *
  generalize (if f = 3 then fieldOf (c.reg x.st l) 0 35 else fieldOf (c.reg x.st l) 20 15) = stride at *
  generalize (if fieldOf (c.reg x.st l) 42 5 = 0 then 32 else fieldOf (c.reg x.st l) 42 5) * 4 = wbytes at *
  generalize (if tr = 1 then 16 / 2 ^ fieldOf (c.reg x.st l) 56 2 else 8) = wbits at *
  generalize fieldOf (c.reg x.st l) 35 7 = rows at *
  generalize fieldOf (c.reg x.st l) 56 2 = ew at *
  refine (raiseIf_then (by simpa [hrows] using hcap) _).trans ?_
  refine (raiseIf_then (by simpa using hmany) _).trans ?_
  refine (raiseIf_then (by simpa using fun h => (htr h).1) _).trans ?_
  refine (raiseIf_then (by simpa using fun h => (htr h).2) _).trans ?_
  refine (raiseIf_then (by simpa [hbase, hstride] using haddrs) _).trans ?_
  rw [notGlobal_find?_none hrange]
  exact raiseIf_then (by simpa using hpoints) _

/-- A word that has issued leaves the matrix slice as its effect does. -/
theorem Stepped.mat {s2 t : State} {n : Nat} {st : Strm} (h : Stepped s2 t n st) : (t.core n).mat = (s2.core n).mat := by
  have hmat (c : Core) : (c.data st).mat = c.mat := by rw [← Core.modSeq_mat c st Seq.data]; rfl
  rw [← hmat, h.core, hmat]

end Sys2Proof.Machine

namespace Sys2Proof.Slice0

open Sys2Proof.Machine

/-! ### Words that start a command or a multiply -/

/-- A command starts from whatever core its word has left, as the table says. -/
theorem startCmd_from {s s1 : State} {c : Core} {i : Instr} {k : Start} (hc : c.run ≠ .idle)
    (hs : c.settled s.strm = true) (h : begun s s.ctx c i k = some s1) :
    startCmd s.ctx i k (s.setCore s.cur c) = .ok (s.fresh, s1) := by
  obtain ⟨hroom, rfl⟩ := begun_eq h
  have hidle : (commanded c s.ctx.st (commandOf s s.ctx c i k)).run ≠ .idle := by rwa [commanded_run]
  have hcore : ({ s.setCore s.cur c with fresh := s.fresh + 1 } : State).core s.ctx.core = c := s.setCore_core_self s.cur hc
  have hstart : cmdRoom s.ctx k.op.classes k.slot k.tok (entriesOf k) c = .ok ((), c) := cmdRoom_ok k.tok hs hroom
  rw [startCmd, run_bind_ok (freshId_run _)]
  refine (run_bind_ok (onCore_ok (a := ()) (c := commanded c s.ctx.st (commandOf s s.ctx c i k)) ?_)).trans ?_
  · exact (congrArg _ hcore).trans (run_bind_ok hstart)
  · refine congrArg (fun u => Except.ok (s.fresh, u)) ?_
    exact congrArg (fun u : State => { u with fresh := s.fresh + 1 }) (s.setCore_setCore s.cur hc hidle)

section
variable {s s2 : State} {i : Instr}

/-- A word that changes its core and asks for the next multiply. -/
theorem issue_multiplies {m : Ctx → CM Unit} {c : Core} (hi : exec i s = issue i (fun x => do
      onCore x.core (m x)
      postEvent (.multiplyStart x.core)
      pure .seq) s)
    (hc : c.run = (s.core s.cur).run) (hm : m s.ctx s.atIssue = .ok ((), c))
    (hr : s.runs i (((s.setCore s.cur c).post (.multiplyStart s.cur)).core s.cur) = true) :
    CompletesAs s i ((s.setCore s.cur c).post (.multiplyStart s.cur)) := by
  have hrun := State.runs_running hr
  have hidle : c.run ≠ .idle := by rw [hc, hrun]; decide
  refine issue_completes hi hr ?_
  rw [run_bind_ok (onCore_ok (by rw [State.issuing_core hrun]; exact hm))]
  exact congrArg (fun u : State => Except.ok (Next.seq, u.post (.multiplyStart s.cur))) (State.issuing_setCore hrun hidle)

/-- The effects of the table are those of a word of the E-stream that finds a place in the queue (R200). -/
theorem matrixWord_room (ht : matrixWord s s.ctx s.atIssue i = some s2) : s.ctx.st = .e ∧ queueFree s.atIssue = true := by
  obtain ⟨hslice, -⟩ := ite_none ht
  rw [not_or, Bool.not_eq_false] at hslice
  exact ⟨strm_e_of_ne hslice.1, hslice.2⟩

/-! ### MMA, MMAS, MZERO, MMAP and a joined MMAJ (R207 to R211, R214) -/

/-- A multiply whose latches can be read, and whose metadata, where it is sparse, is sound (R200, R207). -/
theorem mmaM_completes {cc : BitVec 5} {a b : BitVec 1} {f g : BitVec 4} {k : BitVec 3} {sparse : Nat}
    (hi : exec i s = issue i (mmaM cc a f b g k sparse) s) (hs : (s.core s.cur).settled s.strm = true) (hst : s.ctx.st = .e)
    (hqueue : queueFree s.atIssue = true) (hdense : operandsOk s.atIssue a.toNat (some b.toNat) = true)
    (hsparse : sparse ≠ 0 → latchOk s.atIssue (8 + a.toNat) = true
      ∧ ((List.range 16).all fun r => (List.range (16 / codeWidth f.toNat)).all fun j =>
        metaOk sparse (s.atIssue.mat.metaWord a.toNat (16 / codeWidth f.toNat) r j)) = true)
    (h2 : s2 = (s.setCore s.cur (queuedMat s.atIssue
      (.mma cc.toNat a.toNat f.toNat b.toNat g.toNat sparse (s.atIssue.kreg k.toNat) none))).post (.multiplyStart s.cur))
    (hr : s.runs i (s2.core s.cur) = true) : CompletesAs s i s2 := by
  subst h2
  have h := State.atIssue_settled hs
  have hlatches : ∀ t ∈ [a.toNat, 4 + a.toNat, 2 + b.toNat, 6 + b.toNat] ++ (if sparse = 0 then [] else [8 + a.toNat]),
      latchOk s.atIssue t = true := by
    intro t ht
    obtain ht | ht := List.mem_append.mp ht
    · exact operandsOk_iff.mp hdense t ht
    · split at ht
      · cases ht
      · rw [List.mem_singleton.mp ht]
        exact (hsparse ‹_›).1
  refine issue_multiplies hi s.atIssue_run ?_ hr
  rw [run_bind_ok (rdK_settled h hst _), run_bind_ok (queueRoom_ok hqueue), run_bind_ok (latchesReady_ok hlatches), run_bind_ok (accGood_settled h _)]
  split
  · rfl
  · rename_i hne
    refine (run_bind_ok (run_get _)).trans (raiseIf_then ?_ _)
    simpa [List.all_eq_true] using (hsparse hne).2

theorem mma_completes {n : BitVec 3} {cc : BitVec 5} {a b : BitVec 1} {f g : BitVec 4} {k : BitVec 3} (hs : (s.core s.cur).settled s.strm = true)
    (ht : matrixWord s s.ctx s.atIssue (.mma n cc a f b g k) = some s2) (hr : s.runs (.mma n cc a f b g k) (s2.core s.cur) = true) :
    CompletesAs s (.mma n cc a f b g k) s2 := by
  obtain ⟨hst, hqueue⟩ := matrixWord_room ht
  obtain ⟨-, ht⟩ := ite_none ht
  obtain ⟨hready, ht⟩ := guard_some ht
  exact mmaM_completes rfl hs hst hqueue hready (fun h => absurd rfl h) (Option.some.inj ht).symm hr

theorem mmas_completes {n : BitVec 3} {cc : BitVec 5} {a b : BitVec 1} {f g : BitVec 4} {k : BitVec 3} {m : BitVec 2}
    (hs : (s.core s.cur).settled s.strm = true) (ht : matrixWord s s.ctx s.atIssue (.mmas n cc a f b g k m) = some s2)
    (hr : s.runs (.mmas n cc a f b g k m) (s2.core s.cur) = true) : CompletesAs s (.mmas n cc a f b g k m) s2 := by
  obtain ⟨hst, hqueue⟩ := matrixWord_room ht
  obtain ⟨-, ht⟩ := ite_none ht
  obtain ⟨⟨hready, hsparse⟩, ht⟩ := guard_some ht
  exact mmaM_completes rfl hs hst hqueue hready (fun _ => hsparse) (Option.some.inj ht).symm hr

theorem mzero_completes {n k : BitVec 3} {cc : BitVec 5} (hs : (s.core s.cur).settled s.strm = true)
    (ht : matrixWord s s.ctx s.atIssue (.mzero n cc k) = some s2) (hr : s.runs (.mzero n cc k) (s2.core s.cur) = true) :
    CompletesAs s (.mzero n cc k) s2 := by
  obtain ⟨hst, hqueue⟩ := matrixWord_room ht
  obtain ⟨-, ht⟩ := ite_none ht
  obtain rfl := Option.some.inj ht
  refine issue_multiplies rfl s.atIssue_run ?_ hr
  rw [run_bind_ok (rdK_settled (State.atIssue_settled hs) hst _), run_bind_ok (queueRoom_ok hqueue)]
  rfl

/-- MMAP writes the row map as it issues (log entry 23). -/
theorem mmap_completes {n : BitVec 3} {r : BitVec 5} (hs : (s.core s.cur).settled s.strm = true)
    (ht : matrixWord s s.ctx s.atIssue (.mmap n r) = some s2) (hr : s.runs (.mmap n r) (s2.core s.cur) = true) : CompletesAs s (.mmap n r) s2 := by
  obtain ⟨hst, hqueue⟩ := matrixWord_room ht
  obtain ⟨-, ht⟩ := ite_none ht
  obtain rfl := Option.some.inj ht
  refine issueU_setCore_goes s.atIssue_run hr ?_
  rw [run_bind_ok (rdV_settled (State.atIssue_settled hs) hst r), run_bind_ok (queueRoom_ok hqueue)]
  rfl

/-- A joined MMAJ takes the result of its join (R211). -/
theorem mmaj_completes {n : BitVec 3} {cc : BitVec 5} {a b : BitVec 1} {f g : BitVec 4} {k : BitVec 3} {m : BitVec 2}
    (ht : joinedWord s s.ctx s.atIssue (.mmaj n cc a f b g k m) = some s2) (hr : s.runs (.mmaj n cc a f b g k m) (s2.core s.cur) = true) :
    CompletesAs s (.mmaj n cc a f b g k m) s2 := by
  have hrun := State.runs_running hr
  cases hjoin : s.atIssue.join with
  | none => simp only [joinedWord, hjoin] at ht; cases ht
  | some j =>
    simp only [joinedWord, hjoin] at ht
    obtain ⟨hdone, ht⟩ := guard_some ht
    obtain rfl := Option.some.inj ht
    have hidle : ({ s.atIssue with join := none } : Core).run ≠ .idle := State.atIssue_not_idle hrun
    refine issue_completes rfl hr ?_
    rw [run_bind_ok (onCore_issuing hrun (run_get _)), hjoin]
    dsimp only
    rw [hdone]
    dsimp only
    rw [run_bind_ok (onCore_ok (run_modify _ _)), State.issuing_core hrun]
    exact congrArg (fun u : State => Except.ok (Next.seq, u.post (.multiplyStart s.cur))) (State.issuing_setCore hrun hidle)

end

/-! ### MLD (R201 to R205) -/

/-- No FENCE of the core holds back the global reads of copies (R274, R282). -/
def copyReadsFree (c : Core) : Bool := !c.fences.any fun f => f.succ &&& clCR != 0

/-- Where no FENCE holds back copy reads, a command of stream reads has the room that a command of copy reads needs. -/
theorem hasRoom_copyReads {c : Core} {x : Ctx} {slot : Bool} {entries : Nat} (hfree : copyReadsFree c = true)
    (h : c.hasRoom x clMR slot entries = true) : c.hasRoom x clCR slot entries = true := by
  simp only [copyReadsFree, Bool.not_eq_true'] at hfree
  simp only [Core.hasRoom, Bool.not_eq_true', Bool.or_eq_false_iff] at h ⊢
  obtain ⟨⟨⟨⟨-, hacquires⟩, hphase⟩, hslot⟩, hentries⟩ := h
  exact ⟨⟨⟨⟨hfree, hacquires⟩, hphase⟩, hslot⟩, hentries⟩

section
variable {s s1 s2 : State}

/-- The core of a word that has started a command is not idle. -/
theorem begun_core_run {x : Ctx} {c : Core} {i : Instr} {k : Start} (hc : c.run ≠ .idle) (h : begun s x c i k = some s1) :
    (s1.core x.core).run ≠ .idle := by
  have hidle : (commanded c x.st (commandOf s x c i k)).run ≠ .idle := by rwa [commanded_run]
  rw [(begun_eq h).2]
  exact (congrArg Core.run (s.setCore_core_self x.core hidle)).trans_ne hidle

/-- A load enters the queue, and its target becomes pending (R200). -/
theorem load_enters {n : Nat} (w : MatWord) (target : Nat) (hidle : (s1.core n).run ≠ .idle) :
    (do onCore n (pushMat w false)
        onCore n (modify fun c => c.setLatch target 2)
        postEvent (.mldFill n)
        pure .seq : DM Next) s1
      = .ok (.seq, (s1.modCore n fun c => (queuedMat c w).setLatch target 2).post (.mldFill n)) := by
  have hqueued : (queuedMat (s1.core n) w).run ≠ .idle := hidle
  have hlatched : ((queuedMat (s1.core n) w).setLatch target 2).run ≠ .idle := hidle
  rw [run_bind_ok (onCore_ok (pushMat_run w _)), run_bind_ok (onCore_ok (run_modify _ _)), s1.setCore_core_self n hqueued,
    s1.setCore_setCore n hqueued hlatched]
  rfl

theorem mld_completes {n : BitVec 3} {t l b : BitVec 5} {f : BitVec 2} {tr : BitVec 1} {g : BitVec 4}
    (hs : (s.core s.cur).settled s.strm = true) (hfree : f = 3 → copyReadsFree (s.core s.cur) = true)
    (ht : matrixWord s s.ctx s.atIssue (.mld n t l b f tr g) = some s2) (hr : s.runs (.mld n t l b f tr g) (s2.core s.cur) = true) :
    CompletesAs s (.mld n t l b f tr g) s2 := by
  obtain ⟨hst, hqueue⟩ := matrixWord_room ht
  have h := State.atIssue_settled hs
  have hrun := State.runs_running hr
  have hidle := State.atIssue_not_idle hrun
  obtain ⟨-, ht⟩ := ite_none ht
  dsimp only at ht
  cases hrows : loadRows s.ctx s.atIssue l b f tr g with
  | none => simp only [hrows] at ht; cases ht
  | some p =>
    obtain ⟨bytes, wbits, rows⟩ := p
    have hargs := mldArgs_ok h hst hrows
    simp only [hrows] at ht
    refine issue_completes rfl hr ?_
    by_cases hf : f = 3
    · rw [if_pos hf] at ht
      obtain ⟨s1, hb, rfl⟩ := Option.map_eq_some_iff.mp ht
      have hroom : s.atIssue.hasRoom s.ctx clCR true 0 = true :=
        hasRoom_copyReads (by simpa [copyReadsFree, State.atIssue] using hfree hf) (begun_eq hb).1
      rw [run_bind_ok (onCore_issuing (a := ⟨bytes, wbits, rows⟩) hrun ?_)]
      · rw [if_pos hf, run_bind_ok (rdX_issuing hrun hs b), run_bind_ok (rdX_issuing hrun hs l), run_bind_ok (startCmd_begun hrun hs hb)]
        exact load_enters _ _ (begun_core_run hidle hb)
      · rw [run_bind_ok (queueRoom_ok hqueue), if_pos hf, run_bind_ok (cmdRoom_ok t h hroom)]
        exact hargs
    · rw [if_neg hf] at ht
      obtain ⟨s1, hb, rfl⟩ := Option.map_eq_some_iff.mp ht
      have hroom : s.atIssue.hasRoom s.ctx 0 false 1 = true := (begun_eq hb).1
      rw [run_bind_ok (onCore_issuing (a := ⟨bytes, wbits, rows⟩) hrun ?_)]
      · rw [if_neg hf, run_bind_ok (startCmd_begun hrun hs hb)]
        exact load_enters _ _ (begun_core_run hidle hb)
      · rw [run_bind_ok (queueRoom_ok hqueue), if_neg hf, run_bind_ok (cmdRoom_ok 0 h hroom)]
        exact hargs

/-! ### MST (R214 to R217) -/

/-- The core from which a word has drawn differs in its control registers alone (R117). -/
theorem drawn_atIssue {n : Nat} {ds : List (BitVec 32)} {c : Core} (hrun : (s.core s.cur).run = .running)
    (hs : (s.core s.cur).settled s.strm = true) (hd : drawn s.ctx s.atIssue n = (ds, c)) :
    c.run ≠ .idle ∧ c.settled s.strm = true ∧ c.mat = s.atIssue.mat
      ∧ ∀ cl slot e, c.hasRoom s.ctx cl slot e = s.atIssue.hasRoom s.ctx cl slot e := by
  obtain ⟨u, hu⟩ := drawn_core s.ctx s.atIssue n
  rw [hd] at hu
  obtain rfl : c = _ := hu
  exact ⟨State.atIssue_not_idle hrun, (Core.withCtl_settled _ _ _).trans (State.atIssue_settled hs), rfl, fun _ _ _ => rfl⟩

/-- From row 0 on, a core sends itself every row that its map sends to it (R216). -/
theorem ownRows_zero (map : Store (BitVec 16)) (me base addr stride : Nat) :
    ownRows map me base addr stride 0 = ((List.range 16).filter fun r => rowDest map me base r == some none).map fun r => addr + r * stride := by
  simp [ownRows]

/-- An MST takes a scoreboard entry where it stores rows in its own core (R216, R246). -/
theorem entriesOf_store {t : BitVec 5} {own : List Nat} {r : Nat × Nat} :
    entriesOf { tok := t, op := .mst, wr := if own.isEmpty = true then none else some r } = if own.isEmpty = true then 0 else 1 := by
  unfold entriesOf
  cases own <;> rfl

/-- An MST enters the queue, and its command waits for the rows that it sends (R216, R217). -/
theorem store_enters {n : Nat} (w : MatWord) (id : Nat) (f : Cmd → Cmd) (hidle : (s1.core n).run ≠ .idle) :
    (do onCore n (pushMat w false)
        let s ← get
        set ((s.modCmd n id f).post (.mstRowSend n))
        pure .seq : DM Next) s1
      = .ok (.seq, (s1.modCore n fun c => (queuedMat c w).modCmd id f).post (.mstRowSend n)) := by
  have hqueued : (queuedMat (s1.core n) w).run ≠ .idle := hidle
  have hchanged : ((queuedMat (s1.core n) w).modCmd id f).run ≠ .idle := hidle
  rw [run_bind_ok (onCore_ok (pushMat_run w _)), run_bind_ok (run_get _), State.modCmd, State.modCore, s1.setCore_core_self n hqueued,
    s1.setCore_setCore n hqueued hchanged]
  rfl

/-- With no enable set, MST waits for its room, draws, and checks its rows; what it then stores is captured at its issue (R214 to R216). -/
theorem mst_completes {n : BitVec 3} {t l b : BitVec 5} {cc : BitVec 2} {f : BitVec 4} (hs : (s.core s.cur).settled s.strm = true)
    (ht : matrixWord s s.ctx s.atIssue (.mst n t l b cc f) = some s2) (hr : s.runs (.mst n t l b cc f) (s2.core s.cur) = true) :
    CompletesAs s (.mst n t l b cc f) s2 := by
  obtain ⟨-, hqueue⟩ := matrixWord_room ht
  have h := State.atIssue_settled hs
  have hrun := State.runs_running hr
  obtain ⟨-, ht⟩ := ite_none ht
  cases hd : drawn s.ctx s.atIssue 1024 with | mk ds c
  obtain ⟨hidle, hsettled, hmat, hsame⟩ := drawn_atIssue hrun hs hd
  simp only [hd, ← ownRows_zero] at ht
  obtain ⟨hfits, ht⟩ := ite_none ht
  obtain ⟨s1, hb, rfl⟩ := Option.map_eq_some_iff.mp ht
  push Not at hfits
  obtain ⟨haddr, hstride, hrange, hflags, hdraw⟩ := hfits
  have hroom := (begun_eq hb).1
  rw [entriesOf_store, hsame] at hroom
  have hplain : (fpEnables s.ctx.fpctl != 0) = false := by simp [hflags]
  refine issue_completes rfl hr ?_
  rw [run_bind_ok (rdX_issuing hrun hs l), run_bind_ok (rdX_issuing hrun hs b), run_bind_ok (run_get _), State.issuing_core hrun, hplain]
  rw [run_bind_ok (onCore_ok (a := ds) (c := c) ?_)]
  · rw [show s.issuing.setCore s.ctx.core c = s.setCore s.cur c from State.issuing_setCore hrun hidle,
      run_bind_ok (onCore_ok (run_get _)), show (s.setCore s.cur c).core s.ctx.core = c from s.setCore_core_self s.cur hidle,
      show (s.setCore s.cur c).setCore s.ctx.core c = s.setCore s.cur c from s.setCore_setCore s.cur hidle hidle,
      if_neg Bool.false_ne_true, run_bind_ok (run_pure [] _)]
    dsimp only
    rw [← hmat] at hb ⊢
    refine (run_bind_ok (startCmd_from hidle hsettled hb)).trans ?_
    exact store_enters _ _ _ (begun_core_run hidle hb)
  · rw [State.issuing_core hrun, run_bind_ok (queueRoom_ok hqueue)]
    refine (run_bind_ok (cmdRoom_ok (cl := clMW) t h hroom)).trans ?_
    rw [if_neg Bool.false_ne_true]
    dsimp only
    rw [run_bind_ok (drawsM_ok 1024 (by simpa using hdraw)), hd, run_bind_ok (accGood_settled hsettled _),
      raiseIf_then (by simp [haddr, hstride]), raiseIf_then (decide_eq_false (Nat.not_lt.mpr hrange))]
    rfl

end

/-! ### The tables -/

/-- What Effects matrixWord says, of every word but a global stream behind a FENCE that holds back copy reads. -/
theorem matrixWord_completes {s s2 : State} {i : Instr} (hs : (s.core s.cur).settled s.strm = true)
    (hfree : ∀ n t l b tr g, i = .mld n t l b 3 tr g → copyReadsFree (s.core s.cur) = true)
    (ht : matrixWord s s.ctx s.atIssue i = some s2) (hr : s.runs i (s2.core s.cur) = true) : CompletesAs s i s2 := by
  cases i
  case mld n t l b f tr g => exact mld_completes hs (fun hf => hfree n t l b tr g (hf ▸ rfl)) ht hr
  case mma => exact mma_completes hs ht hr
  case mmas => exact mmas_completes hs ht hr
  case mzero => exact mzero_completes hs ht hr
  case mmap => exact mmap_completes hs ht hr
  case mst => exact mst_completes hs ht hr
  all_goals exact absurd (ite_none ht).2 (Option.some_ne_none s2).symm

theorem joinedWord_effects : Effects joinedWord := by
  intro s i s2 _ ht hr
  cases i
  case mmaj => exact mmaj_completes ht hr
  all_goals exact absurd ht (Option.some_ne_none s2).symm

/-! ### A global stream behind a FENCE that holds back copy reads -/

/-- A running core whose FENCE holds back the global reads of copies and nothing else (R274, R282); e1 asks for one row of 32 words (R204). -/
def copyFenced : Core :=
  { run := .running
    e := { regs := [(1, 0x800000000)] }
    fences := [⟨1, 0, 1, 0, clCR, false⟩] }

/-- The module with that core alone. -/
def copyFencedModule : State := { State.reset with strm := .e, cores := [(0, copyFenced)] }

/-- MLD of one row at global address 0 into A latch 0, with token e1 (R201). -/
def streamLoad : Instr := .mld 0 1 1 0 3 0 0

/-- The table lets the load enter the slice's queue there, and nothing else holds the word up. -/
theorem streamLoad_met : (copyFencedModule.core 0).settled .e = true
    ∧ (matrixWord copyFencedModule copyFencedModule.ctx copyFencedModule.atIssue streamLoad).any (fun t =>
      copyFencedModule.runs streamLoad (t.core 0) && (t.core 0).mat.queue.length == 1) = true := by
  decide

/-- The word waits: the queue stays empty. -/
theorem streamLoad_waits : (match exec streamLoad copyFencedModule with | .next t => (t.core 0).mat.queue.length | _ => 0) = 0 := by
  decide

/-- Refutes O34: the reads of a global stream are of class MR (R274), and the table lets its MLD issue where no FENCE holds back that class; MLD as the
model has it also waits for class CR, the reads of copies, so that it stays behind a FENCE that holds back those alone. Where no FENCE does, the
statement holds of MLD, and of every other word it holds everywhere (matrixWord_completes, joinedWord_effects). That MMAP writes
the row map as it issues and that a column count beyond 64 is taken as 64 are the model's choices (log entries 23, 149). -/
theorem not_matrixWords : ¬ Obligations.MatrixWords := by
  rintro ⟨hmatrix, -⟩
  obtain ⟨hs, hmet⟩ := streamLoad_met
  obtain ⟨s2, ht, hmet⟩ := (Option.any_eq_true _ _).mp hmet
  obtain ⟨hr, hqueued⟩ := Bool.and_eq_true_iff.mp hmet
  obtain ⟨t, hexec, hstep, -⟩ := hmatrix copyFencedModule streamLoad s2 hs ht hr
  have hmat : (t.core 0).mat = (s2.core 0).mat := hstep.mat
  have hwaits := streamLoad_waits
  rw [hexec] at hwaits
  rw [← hmat, beq_iff_eq] at hqueued
  exact absurd (hqueued.symm.trans hwaits) Nat.one_ne_zero

end Sys2Proof.Slice0
end

section
/-!
SUPPORT. The steps of the signal box and of the points network's applications (R224, R225, R237, R238), under the conditions that their table names.
-/

namespace Sys2Proof.Slice0

open Sys2Proof.Machine

section
variable {s t : State} {n : Nat}

/-- The box takes the request whose turn it is, while no other is under way (R225). -/
theorem solveStart_happens (h : solveStep s (.solveStart n) = some t) : exec (.solveStart n) s = .next t := by
  simp only [solveStep] at h
  rw [exec_solveStart, execSolveStart]
  cases hnext : (List.range 4).findSome? fun k => (s.tile n).solves.find? fun q => q.core % 4 == ((s.tile n).solvePtr + k) % 4 with
  | none => simp only [hnext] at h; cases h
  | some q =>
    simp only [hnext] at h ⊢
    obtain ⟨hidle, rfl⟩ := onlyIf_eq h
    have hnone : ((s.tile n).solves.any fun q => q.started) = false := by simpa using hidle
    exact if_neg (ne_true_of_eq_false hnone)

/-- The settings go to what has captured the version, and into the register that still holds it (R224 to R226). -/
theorem solveComplete_happens (h : solveStep s (.solveComplete n) = some t) : exec (.solveComplete n) s = .next t := by
  simp only [solveStep] at h
  rw [exec_solveComplete, execSolveComplete]
  cases hrun : (s.tile n).solves.find? fun q => q.started with
  | none => simp only [hrun] at h; cases h
  | some q =>
    simp only [hrun] at h ⊢
    exact congrArg Host.Outcome.next (Option.some.inj h)

/-- Where a row of an application lies whose number depends on its direction. -/
theorem rowAt_ite (inv : Bool) (base stride a b : Nat) :
    base + (if inv = true then a else b) * stride = if inv = true then base + a * stride else base + b * stride := by
  split <;> rfl

/-- The rows of an application, written one after another (R237). -/
theorem putRows_range (c : Core) (m : Nat) (to_ : Nat → Nat) (bytes : Nat → List Byte) :
    c.putRows ((List.range m).map fun o => (((List.range m).map to_).getD o 0, bytes o))
      = (List.range m).foldl (fun d o => d.landUlm (to_ o) (bytes o)) c := by
  have hrows : ((List.range m).map fun o => (((List.range m).map to_).getD o 0, bytes o)) = (List.range m).map fun o => (to_ o, bytes o) :=
    List.map_congr_left fun o ho => by rw [List.getD_eq_getElem?_getD, List.getElem?_map, List.getElem?_range (List.mem_range.mp ho)]; rfl
  rw [hrows, Core.putRows, List.foldl_map]

/-- An application takes a staging buffer in its turn and reads its rows, and then writes them (R237, R238). -/
theorem pointsApplication_happens {id : Nat} (h : solveStep s (.pointsApplication n id) = some t) : exec (.pointsApplication n id) s = .next t := by
  simp only [solveStep] at h
  rw [exec_pointsApplication, execPointsApplication]
  cases hcmd : (s.core n).cmd? id with
  | none => simp only [hcmd] at h; cases h
  | some k =>
    simp only [hcmd] at h ⊢
    cases hop : k.op
    case papply pm version m idx inv src ss dst ds w =>
      simp only [hop] at h ⊢
      cases hstaged : s.staged? n id with
      | none =>
        simp only [hstaged] at h ⊢
        obtain ⟨⟨hfull, hturn, hsound⟩, rfl⟩ := onlyIf_eq h
        have hclean : ((List.range m).findSome? fun r => (s.core n).ulmError (src + r * ss) w) = none := by simpa using hsound
        rw [if_neg (by rw [hfull, hturn]; simp), hclean]
      | some g =>
        simp only [hstaged, rowAt_ite] at h ⊢
        obtain ⟨hkept, rfl⟩ := onlyIf_eq h
        rw [Option.isNone_iff_eq_none.mp hkept]
        dsimp only
        rw [putRows_range]
    all_goals simp only [hop] at h; cases h

end

/-- Settles O49: step by step, the conditions of the table choose the branch of the step that it describes. That of one core's applications the oldest
that is ready takes the next buffer is the model's choice (log entry 151). -/
theorem pointsSteps : Obligations.PointsSteps := by
  intro s i t h
  cases i
  case solveStart => exact solveStart_happens h
  case solveComplete => exact solveComplete_happens h
  case pointsApplication => exact pointsApplication_happens h
  all_goals exact absurd h (Option.some_ne_none t).symm

end Sys2Proof.Slice0
end

section
/-!
SUPPORT. What the words of the points network do (R227 to R237) on a settled core whose points port is free.
-/

namespace Sys2Proof.Machine

/-! ### Predicates (R127) -/

/-- A predicate other than q0 reads as it was written. -/
theorem Seq.pred_setPred_self (q : Seq) {n : Nat} (b : Bool) (h0 : n ≠ 0) (h8 : n < 8) : (q.setPred n b).pred n = b := by
  cases b <;> simp [Seq.setPred, Seq.pred, h0, h8]

/-- A write of a predicate leaves the others, and one of q0 leaves all. -/
theorem Seq.pred_setPred_other (q : Seq) {m n : Nat} (b : Bool) (h : m ≠ n ∨ n = 0) : (q.setPred n b).pred m = q.pred m := by
  by_cases h0 : n = 0
  · rw [Seq.setPred, if_pos h0]
  · have hm : m ≠ n := h.resolve_right h0
    have hbit : (1#8 <<< n).getLsbD m = false := by simp; omega
    rw [Seq.setPred, if_neg h0, Seq.pred, Seq.pred]
    cases b with
    | true => simp only [if_true, BitVec.getLsbD_or, hbit, Bool.or_false]
    | false =>
      have hlow : q.preds.getLsbD m = true → m < 8 := BitVec.lt_of_getLsbD
      simp only [Bool.false_eq_true, if_false, BitVec.getLsbD_and, BitVec.getLsbD_not, hbit]
      cases hp : q.preds.getLsbD m with
      | true => simp [hlow hp]
      | false => rfl

@[simp] theorem Seq.takeTgt_pred (q : Seq) (n : Nat) : q.takeTgt.pred n = q.pred n := by
  unfold Seq.takeTgt
  split <;> rfl

/-- A word that has issued leaves the predicates of its stream as its effect does. -/
theorem Stepped.preds {s2 t : State} {n : Nat} {st : Strm} (h : Stepped s2 t n st) : ((t.core n).seq st).preds = ((s2.core n).seq st).preds := by
  have hpreds (c : Core) : ((c.data st).seq st).preds = (c.seq st).preds := by cases st <;> rfl
  rw [← hpreds, h.core, hpreds]

theorem Stepped.pred {s2 t : State} {n : Nat} {st : Strm} (h : Stepped s2 t n st) (m : Nat) :
    ((t.core n).seq st).pred m = ((s2.core n).seq st).pred m := by
  rw [Seq.pred, Seq.pred, h.preds]

/-! ### Legal words (R53) -/

/-- No register field of a legal word breaks its form (R44, R45, R53). -/
theorem operandBad_of_legal {st : Strm} {user : Bool} {hs : List Hint} {i : Instr} (h : illegal st user hs i = none) : operandBad i = false := by
  unfold illegal at h
  split_ifs at h
  exact eq_false_of_ne_true ‹_›

/-! ### The points port and the checks of R229 -/

theorem portFree_ok {c : Core} (h : c.port = none) : portFree c = .ok ((), c) := by
  rw [portFree, run_bind_ok (run_get c), stallIf_run, h]
  rfl

theorem rowsOk_ok {n : Nat} (c : Core) (h : (decide (1 ≤ n) && decide (n ≤ 64)) = true) : rowsOk n c = .ok ((), c) := by
  rw [Bool.and_eq_true_iff, decide_eq_true_eq, decide_eq_true_eq] at h
  rw [rowsOk, if_neg (by omega)]
  rfl

theorem validM_ok {c : Core} {r : BitVec 5} (d : Core) (h : (c.points r.toNat).valid = true) : validM c r d = .ok (c.points r.toNat, d) := by
  rw [validM, if_pos h]
  rfl

@[simp] theorem State.atIssue_points (s : State) (i : Nat) : s.atIssue.points i = (s.core s.cur).points i := by
  rw [State.atIssue, Core.points, Core.modSeq_pm, Core.points]

@[simp] theorem State.atIssue_port (s : State) : s.atIssue.port = (s.core s.cur).port := Core.modSeq_port _ _ _

/-- No row is wrong among rows that are in range and differ from one another (R229). -/
theorem badRow_none {cand : List Nat} {n k : Nat} (hrange : ∀ j < n, cand.getD j 0 < n) (hdiff : (cand.take n).Nodup) (hn : n ≤ cand.length)
    (hk : k ≤ n) : badRow cand n k = none := by
  induction k with
  | zero => rfl
  | succ k ih =>
    have hfirst : ((List.range (n - (k + 1))).find? fun j => cand.getD j 0 == cand.getD (n - (k + 1)) 0) = none := by
      rw [List.find?_eq_none]
      intro j hj heq
      have hlt : j < n - (k + 1) := List.mem_range.mp hj
      have hsame : (cand.take n)[j]'(by simp; omega) = (cand.take n)[n - (k + 1)]'(by simp; omega) := by
        simpa [List.getD_eq_getElem?_getD, show j < cand.length by omega, show n - (k + 1) < cand.length by omega] using heq
      exact absurd (hdiff.getElem_inj_iff.mp hsame) (by omega)
    simp only [badRow]
    rw [if_neg (Nat.not_le.mpr (hrange _ (by omega))), hfirst]
    exact ih (by omega)

/-! ### The shuffle (R233) -/

theorem swapRows_length (idx : List Nat) (i j : Nat) : (swapRows idx i j).length = idx.length := by simp [swapRows]

/-- The generator's 32 bits choose one of the rows up to i. -/
theorem shuffle_row_le (w : BitVec 32) (i : Nat) : w.toNat * (i + 2) / 2 ^ 32 ≤ i + 1 := by
  refine Nat.lt_succ_iff.mp (Nat.div_lt_of_lt_mul ?_)
  exact Nat.mul_lt_mul_of_pos_right w.isLt (by omega)

theorem swapRows_above (idx : List Nat) {i j k : Nat} (hi : i < k) (hj : j < k) : (swapRows idx i j).getD k 0 = idx.getD k 0 := by
  simp [swapRows, List.getD_eq_getElem?_getD, List.getElem?_set_ne (Nat.ne_of_lt hi), List.getElem?_set_ne (Nat.ne_of_lt hj)]

theorem shuffle_length (i : Nat) (st : Word) (idx : List Nat) : (shuffle i st idx).2.length = idx.length := by
  induction i generalizing st idx with
  | zero => rfl
  | succ i ih => exact (ih _ _).trans (swapRows_length _ _ _)

/-- The shuffle from row i downward leaves the rows above i. -/
theorem shuffle_above {i k : Nat} (h : i < k) (st : Word) (idx : List Nat) : (shuffle i st idx).2.getD k 0 = idx.getD k 0 := by
  induction i generalizing st idx with
  | zero => rfl
  | succ i ih =>
    have hrow := shuffle_row_le ((xorshift st).extractLsb' 32 32) i
    exact (ih (by omega) _ _).trans (swapRows_above idx h (by omega))

/-- A shuffle of n rows has fixed points from n upward (R221, R233). -/
theorem shuffle_fixed {n : Nat} (hn : 1 ≤ n) (st : Word) {j : Nat} (hj : n ≤ j) (hlt : j < 64) : (shuffle (n - 1) st (List.range 64)).2.getD j 0 = j := by
  rw [shuffle_above (by omega), List.getD_eq_getElem _ _ (by simpa using hlt), List.getElem_range]

end Sys2Proof.Machine

namespace Sys2Proof.Slice0

open Sys2Proof.Machine

/-! ### A word that writes a points register (R220, R225) -/

@[simp] theorem Core.setPoints_run (c : Core) (i : Nat) (p : Points) : (c.setPoints i p).run = c.run := rfl

/-- The effects of the table are those of words of the E-stream that find the points port free (R227). -/
theorem pointsWord_ready {s s2 : State} {x : Ctx} {c : Core} {i : Instr} (ht : pointsWord s x c i = some s2) :
    x.st = .e ∧ (usesPort i = true → c.port = none) := by
  obtain ⟨hready, -⟩ := ite_none ht
  push Not at hready
  exact ⟨strm_e_of_ne hready.1, hready.2⟩

section
variable {s s2 : State} {n : BitVec 3} {d a b : BitVec 5}

/-- A word that computes a points register and asks for a solve, or does not. -/
theorem pointsM_completes {i : Instr} {f : Ctx → Core → CM (Points × Bool)} {p : Points} {ask : Bool} {c : Core}
    (hi : exec i s = issue i (pointsM d f) s) (hport : s.atIssue.port = none) (hc : c.run = (s.core s.cur).run)
    (hf : f s.ctx s.atIssue s.atIssue = .ok ((p, ask), c)) (hr : s.runs i ((loaded s s.ctx c d p ask).core s.cur) = true) :
    CompletesAs s i (loaded s s.ctx c d p ask) := by
  have hrun := State.runs_running hr
  have hidle : c.run ≠ .idle := by rw [hc, hrun]; decide
  have hidle2 : (c.setPoints d.toNat p).run ≠ .idle := hidle
  refine issue_completes hi hr ?_
  rw [pointsM, run_bind_ok (onCore_issuing hrun (portFree_ok hport)), run_bind_ok (onCore_issuing hrun (run_get _)),
    run_bind_ok (onCore_ok (a := (p, ask)) (c := c) (by rw [State.issuing_core hrun]; exact hf))]
  dsimp only
  rw [State.ctx_core, State.issuing_setCore hrun hidle, run_bind_ok (onCore_ok (run_modify _ _)), s.setCore_core_self s.cur hidle,
    s.setCore_setCore s.cur hidle hidle2]
  rfl

theorem pld_completes (hs : (s.core s.cur).settled s.strm = true) (ht : pointsWord s s.ctx s.atIssue (.pld n d a b) = some s2)
    (hr : s.runs (.pld n d a b) (s2.core s.cur) = true) : CompletesAs s (.pld n d a b) s2 := by
  obtain ⟨hst, hport⟩ := pointsWord_ready ht
  have h := State.atIssue_settled hs
  obtain ⟨-, ht⟩ := ite_none ht
  obtain ⟨⟨hrows, hrange, hdiff⟩, ht⟩ := guard_some ht
  obtain rfl := Option.some.inj ht
  refine pointsM_completes rfl (hport rfl) s.atIssue_run ?_ hr
  rw [run_bind_ok (rdV_settled h hst a), run_bind_ok (rdX_settled h b), run_bind_ok (rowsOk_ok _ hrows)]
  have hlen : (s.atIssue.reg s.ctx.st b).toNat ≤ 64 := of_decide_eq_true (Bool.and_eq_true_iff.mp hrows).2
  have hgood := badRow_none (k := (s.atIssue.reg s.ctx.st b).toNat) (by simpa using hrange) hdiff (by simpa using hlen) le_rfl
  simp only [hgood]
  rfl

theorem pldSet_completes (hs : (s.core s.cur).settled s.strm = true) (ht : pointsWord s s.ctx s.atIssue (.pldSet n d a) = some s2)
    (hr : s.runs (.pldSet n d a) (s2.core s.cur) = true) : CompletesAs s (.pldSet n d a) s2 := by
  obtain ⟨hst, hport⟩ := pointsWord_ready ht
  obtain ⟨-, ht⟩ := ite_none ht
  obtain rfl := Option.some.inj ht
  refine pointsM_completes rfl (hport rfl) s.atIssue_run ?_ hr
  exact run_bind_ok (rdV_settled (State.atIssue_settled hs) hst a)

theorem pid_completes (hs : (s.core s.cur).settled s.strm = true) (ht : pointsWord s s.ctx s.atIssue (.pid n d a) = some s2)
    (hr : s.runs (.pid n d a) (s2.core s.cur) = true) : CompletesAs s (.pid n d a) s2 := by
  obtain ⟨-, hport⟩ := pointsWord_ready ht
  obtain ⟨-, ht⟩ := ite_none ht
  obtain ⟨hrows, ht⟩ := ite_none ht
  obtain rfl := Option.some.inj ht
  refine pointsM_completes rfl (hport rfl) s.atIssue_run ?_ hr
  have hzero (v : Word) : (v = 0) = (v.toNat = 0) := propext BitVec.toNat_eq
  rw [run_bind_ok (rdX_settled (State.atIssue_settled hs) a), if_neg hrows]
  simp only [hzero]
  rfl

theorem pmov_completes (ht : pointsWord s s.ctx s.atIssue (.pmov n d a) = some s2)
    (hr : s.runs (.pmov n d a) (s2.core s.cur) = true) : CompletesAs s (.pmov n d a) s2 := by
  obtain ⟨-, hport⟩ := pointsWord_ready ht
  obtain ⟨-, ht⟩ := ite_none ht
  obtain rfl := Option.some.inj ht
  exact pointsM_completes rfl (hport rfl) s.atIssue_run rfl hr

theorem prot_completes (hs : (s.core s.cur).settled s.strm = true) (ht : pointsWord s s.ctx s.atIssue (.prot n d a b) = some s2)
    (hr : s.runs (.prot n d a b) (s2.core s.cur) = true) : CompletesAs s (.prot n d a b) s2 := by
  obtain ⟨-, hport⟩ := pointsWord_ready ht
  have h := State.atIssue_settled hs
  obtain ⟨-, ht⟩ := ite_none ht
  obtain ⟨hrows, ht⟩ := guard_some ht
  obtain rfl := Option.some.inj ht
  refine pointsM_completes rfl (hport rfl) s.atIssue_run ?_ hr
  rw [run_bind_ok (rdX_settled h a), run_bind_ok (rdX_settled h b)]
  exact run_bind_ok (rowsOk_ok _ hrows)

theorem pcomp_completes (ht : pointsWord s s.ctx s.atIssue (.pcomp n d a b) = some s2)
    (hr : s.runs (.pcomp n d a b) (s2.core s.cur) = true) : CompletesAs s (.pcomp n d a b) s2 := by
  obtain ⟨-, hport⟩ := pointsWord_ready ht
  obtain ⟨-, ht⟩ := ite_none ht
  obtain ⟨⟨ha, hb⟩, ht⟩ := guard_some ht
  obtain rfl := Option.some.inj ht
  refine pointsM_completes rfl (hport rfl) s.atIssue_run ?_ hr
  rw [run_bind_ok (validM_ok _ ha), run_bind_ok (validM_ok _ hb)]
  rfl

theorem pinv_completes (ht : pointsWord s s.ctx s.atIssue (.pinv n d a) = some s2)
    (hr : s.runs (.pinv n d a) (s2.core s.cur) = true) : CompletesAs s (.pinv n d a) s2 := by
  obtain ⟨-, hport⟩ := pointsWord_ready ht
  obtain ⟨-, ht⟩ := ite_none ht
  obtain ⟨ha, ht⟩ := guard_some ht
  obtain rfl := Option.some.inj ht
  refine pointsM_completes rfl (hport rfl) s.atIssue_run ?_ hr
  exact run_bind_ok (validM_ok _ ha)

/-- A shuffle of n rows is a register of n rows (R221, R233). -/
theorem shuffled_eq {m : Nat} (hm : 1 ≤ m) (st : Word) :
    Points.fresh m (shuffle (m - 1) st (List.range 64)).2 = rowsFrom m fun j => (shuffle (m - 1) st (List.range 64)).2.getD j 0 := by
  have hlen : (shuffle (m - 1) st (List.range 64)).2.length = 64 := (shuffle_length _ _ _).trans List.length_range
  refine congrArg (Points.fresh m) (List.ext_getElem (by simpa using hlen) fun j hj hj' => ?_)
  rw [List.getElem_map, List.getElem_range, ← List.getD_eq_getElem _ 0 hj]
  split
  · rfl
  · exact shuffle_fixed hm st (by omega) (by omega)

/-- PRAND leaves its generator's state in its second register, and writes a shuffle of its rows (R233). -/
theorem prand_completes (hs : (s.core s.cur).settled s.strm = true) (ht : pointsWord s s.ctx s.atIssue (.prand n d a b) = some s2)
    (hr : s.runs (.prand n d a b) (s2.core s.cur) = true) : CompletesAs s (.prand n d a b) s2 := by
  obtain ⟨-, hport⟩ := pointsWord_ready ht
  have h := State.atIssue_settled hs
  obtain ⟨-, ht⟩ := ite_none ht
  obtain ⟨hrows, ht⟩ := guard_some ht
  obtain rfl := Option.some.inj ht
  refine pointsM_completes rfl (hport rfl) (by simp) ?_ hr
  rw [run_bind_ok (rdX_settled h a), run_bind_ok (rdX_settled h b), run_bind_ok (rowsOk_ok _ hrows)]
  dsimp only
  rw [run_bind_ok (wrX_settled h b _), shuffled_eq (of_decide_eq_true (Bool.and_eq_true_iff.mp hrows).1)]
  rfl

/-! ### A word that reads points registers (R226, R230, R234, R235) -/

theorem pst_completes (hs : (s.core s.cur).settled s.strm = true) (ht : pointsWord s s.ctx s.atIssue (.pst n d a) = some s2)
    (hr : s.runs (.pst n d a) (s2.core s.cur) = true) : CompletesAs s (.pst n d a) s2 := by
  obtain ⟨-, hport⟩ := pointsWord_ready ht
  obtain ⟨-, ht⟩ := ite_none ht
  obtain rfl := Option.some.inj ht
  refine issueU_setCore_goes ((Core.result_run _ _ _ _).trans s.atIssue_run) hr ?_
  rw [run_bind_ok (portFree_ok (hport rfl)), run_bind_ok (run_get _)]
  exact wrHome_settled (State.atIssue_settled hs) _ _

/-- The end of an effect that writes its core, and then changes the module by g. -/
theorem write_then_set {m : CM Unit} {c : Core} {g : State → State} (hrun : (s.core s.cur).run = .running) (hm : m s.atIssue = .ok ((), c))
    (hc : c.run = (s.core s.cur).run) :
    (do onCore s.ctx.core m
        let u ← get
        set (g u)
        pure .seq : DM Next) s.issuing = .ok (.seq, g (s.setCore s.cur c)) := by
  rw [run_bind_ok (onCore_ok (by rw [State.issuing_core hrun]; exact hm)), State.ctx_core, State.issuing_setCore hrun (by rw [hc, hrun]; decide)]
  rfl

/-- A PST.set takes the settings that stand, or waits at the points port for those of the version that stands (R226). -/
theorem pstSet_completes (hs : (s.core s.cur).settled s.strm = true) (ht : pointsWord s s.ctx s.atIssue (.pstSet n d a) = some s2)
    (hr : s.runs (.pstSet n d a) (s2.core s.cur) = true) : CompletesAs s (.pstSet n d a) s2 := by
  obtain ⟨-, hport⟩ := pointsWord_ready ht
  have h := State.atIssue_settled hs
  have hrun := State.runs_running hr
  obtain ⟨-, ht⟩ := ite_none ht
  obtain ⟨hvalid, ht⟩ := ite_none ht
  rw [Bool.not_eq_false] at hvalid
  refine issue_completes rfl hr ?_
  rw [run_bind_ok (onCore_issuing hrun (portFree_ok (hport rfl))), run_bind_ok (onCore_issuing hrun (run_get _)),
    run_bind_ok (onCore_issuing hrun (validM_ok _ hvalid))]
  by_cases hsolved : (s.atIssue.points a.toNat).solved = true
  · obtain rfl := Option.some.inj ((if_pos hsolved).symm.trans ht)
    simp only [hsolved, if_true]
    exact write_then_set (g := id) hrun (wrHome_settled h _ _) (by simp)
  · obtain rfl := Option.some.inj ((if_neg hsolved).symm.trans ht)
    simp only [hsolved]
    exact write_then_set (g := fun u => u.capture s.cur a.toNat (s.atIssue.points a.toNat).version) hrun (run_bind_ok (destFree_settled h _)) (by simp)

theorem pcyc_completes {k : BitVec 3} (hs : (s.core s.cur).settled s.strm = true) (ht : pointsWord s s.ctx s.atIssue (.pcyc n d a b k) = some s2)
    (hr : s.runs (.pcyc n d a b k) (s2.core s.cur) = true) : CompletesAs s (.pcyc n d a b k) s2 := by
  obtain ⟨-, hport⟩ := pointsWord_ready ht
  have h := State.atIssue_settled hs
  obtain ⟨-, ht⟩ := ite_none ht
  obtain ⟨hvalid, ht⟩ := guard_some ht
  obtain rfl := Option.some.inj ht
  refine issueU_setCore_goes (by simp) hr ?_
  rw [run_bind_ok (portFree_ok (hport rfl)), run_bind_ok (run_get _), run_bind_ok (rdX_settled h b)]
  refine (run_ite_then (a := s.atIssue.points a.toNat) (t := s.atIssue) (fun _ => rfl) fun hk => ?_).trans (wrX_settled h d _)
  exact validM_ok _ (hvalid.resolve_left hk)

theorem peq_completes (ht : pointsWord s s.ctx s.atIssue (.peq n d a b) = some s2)
    (hr : s.runs (.peq n d a b) (s2.core s.cur) = true) : CompletesAs s (.peq n d a b) s2 := by
  obtain ⟨-, hport⟩ := pointsWord_ready ht
  obtain ⟨-, ht⟩ := ite_none ht
  obtain rfl := Option.some.inj ht
  refine issueU_setCore_goes (by simp) hr ?_
  rw [run_bind_ok (portFree_ok (hport rfl)), run_bind_ok (run_get _)]
  rfl

/-! ### PAPPLY (R236, R237) -/

/-- A PAPPLY whose register, rows and room are as they must be starts, captures the version that stands, and its application comes due (R226, R237). -/
theorem papply_completes {t l : BitVec 5} {im : BitVec 1} {q : BitVec 3} (hs : (s.core s.cur).settled s.strm = true)
    (ht : pointsWord s s.ctx s.atIssue (.papply n t l b im q) = some s2) (hr : s.runs (.papply n t l b im q) (s2.core s.cur) = true) :
    CompletesAs s (.papply n t l b im q) s2 := by
  have hrun := State.runs_running hr
  obtain ⟨-, ht⟩ := ite_none ht
  obtain ⟨hfits, ht⟩ := ite_none ht
  obtain ⟨s1, hb, rfl⟩ := Option.map_eq_some_iff.mp ht
  push Not at hfits
  obtain ⟨hvalid, hsrc, hss, hdst, hds, hread, hwrite⟩ := hfits
  have hroom : s.atIssue.hasRoom s.ctx 0 true 2 = true := (begun_eq hb).1
  have hq : (q.setWidth 5).toNat = q.toNat := BitVec.toNat_setWidth_of_le (by decide)
  have hvalidM : validM s.atIssue (q.setWidth 5) s.atIssue = .ok (s.atIssue.points q.toNat, s.atIssue) := by
    rw [validM_ok _ (by rw [hq]; simpa using hvalid), hq]
  refine issue_completes rfl hr ?_
  rw [run_bind_ok (rdX_issuing hrun hs l), run_bind_ok (rdX_issuing hrun hs b),
    run_bind_ok (onCore_issuing hrun (cmdRoom_ok t (State.atIssue_settled hs) hroom)), run_bind_ok (onCore_issuing hrun (run_get _)),
    run_bind_ok (onCore_issuing hrun hvalidM)]
  rw [run_bind_ok (onCore_issuing (a := ()) hrun ?_), run_bind_ok (startCmd_begun hrun hs hb)]
  · rfl
  · rw [raiseIf_then (by simp [hsrc, hss]), raiseIf_then (by simp [hdst, hds]), raiseIf_then (decide_eq_false (Nat.not_lt.mpr hread)), raiseIf_run,
      decide_eq_false (Nat.not_lt.mpr hwrite)]
    rfl

end

/-- Settles O35: on a settled core whose points port is free, every step of such a word before it writes only reads the core, and each check of R229
passes; what the word then writes, and asks for, is what the table says. -/
theorem pointsWords : Obligations.PointsWords := by
  intro s i s2 hs ht hr
  cases i
  case pld => exact pld_completes hs ht hr
  case pldSet => exact pldSet_completes hs ht hr
  case pid => exact pid_completes hs ht hr
  case pst => exact pst_completes hs ht hr
  case pstSet => exact pstSet_completes hs ht hr
  case pmov => exact pmov_completes ht hr
  case prot => exact prot_completes hs ht hr
  case pcomp => exact pcomp_completes ht hr
  case pinv => exact pinv_completes ht hr
  case prand => exact prand_completes hs ht hr
  case pcyc => exact pcyc_completes hs ht hr
  case peq => exact peq_completes ht hr
  case papply => exact papply_completes hs ht hr
  all_goals exact absurd (ite_none ht).2 (Option.some_ne_none s2).symm

/-- A PEQ that runs is legal, so that it names a predicate of its stream (R44, R53). -/
theorem peq_runs_pred {s : State} {n : BitVec 3} {d a b : BitVec 5} {c : Core} (h : s.runs (.peq n d a b) c = true) : d.toNat < 8 := by
  simp only [State.runs, Bool.and_eq_true] at h
  obtain ⟨⟨⟨⟨⟨-, hlegal⟩, -⟩, -⟩, -⟩, -⟩ := h
  have hform := operandBad_of_legal (Option.isNone_iff_eq_none.mp hlegal)
  simp only [operandBad, above7, Bool.or_eq_false_iff, decide_eq_false_iff_not, Nat.not_le] at hform
  obtain ⟨⟨hd, -⟩, -⟩ := hform
  exact hd

/-- Settles O36: PEQ completes as its table says, and its one write of a predicate is read back and leaves every other. -/
theorem equalPointsCompare : Obligations.EqualPointsCompare := by
  intro s n d a b hst hs hport hr
  set same := ((s.core s.cur).points a.toNat).valid && ((s.core s.cur).points b.toNat).valid
    && ((s.core s.cur).points a.toNat).idx == ((s.core s.cur).points b.toNat).idx with hsame
  set c := s.atIssue.modSeq .e fun q => q.setPred d.toNat same with hc
  have hidle : c.run ≠ .idle := by rw [hc, Core.modSeq_run]; exact State.atIssue_not_idle (State.runs_running hr)
  have hcore : (s.setCore s.cur c).core s.cur = c := s.setCore_core_self s.cur hidle
  have hx : s.ctx.st = .e := hst
  have ht : pointsWord s s.ctx s.atIssue (.peq n d a b) = some (s.setCore s.cur c) := by
    simp [pointsWord, hx, hport, hc, hsame]
  obtain ⟨t, hexec, hstep, -⟩ := peq_completes ht (by rw [hcore]; exact hr)
  have hpred (p : Nat) : (t.core s.cur).e.pred p = ((s.core s.cur).e.takeTgt.setPred d.toNat same).pred p := by
    have hp := hstep.pred p
    rw [hst, hcore] at hp
    refine hp.trans ?_
    rw [hc, State.atIssue, hst]
    rfl
  refine ⟨t, hexec, fun hd => ?_, fun p hp => ?_⟩
  · have hd0 : d.toNat ≠ 0 := fun h0 => hd (BitVec.eq_of_toNat_eq h0)
    rw [hpred, Seq.pred_setPred_self _ _ hd0 (peq_runs_pred hr), hsame]
    simp [and_assoc]
  · have hp0 : p ≠ d.toNat ∨ d.toNat = 0 := hp.imp_right fun hd => by rw [hd]; rfl
    rw [hpred, Seq.pred_setPred_other _ _ hp0, Seq.takeTgt_pred]

end Sys2Proof.Slice0
end

section
/-!
SUPPORT. The words of global memory (R249 to R253, R268 to R272, R281 to R284, R361) on a settled core: their checks, the command that each starts, and
the first step that comes due.
-/

namespace Sys2Proof.Slice0

open Sys2Proof.Machine

/-! ### Copies (R251 to R253) -/

/-- A copy with no row, or with rows of no byte, moves nothing (R251). -/
def emptyCopy (a : CopyArgs) : Bool := a.rows == 0 || a.rowbytes == 0

/-- A copy whose operands fit passes the checks of R252. -/
theorem copyChecks_ok {a : CopyArgs} (c : Core) (h : copyFits a = true) : copyChecks a c = .ok ((), c) := by
  simp only [copyFits, Bool.and_eq_true, Bool.or_eq_true, beq_iff_eq, decide_eq_true_eq] at h
  obtain ⟨⟨⟨⟨⟨haddr, hbytes⟩, hlstride⟩, hva⟩, hgstride⟩, hrange⟩ := h
  rw [copyChecks, raiseIf_then (by simp [haddr, hbytes, hlstride, hva, hgstride])]
  split
  · rfl
  · next hmoves =>
    obtain ⟨hlocal, hglobal⟩ := hrange.resolve_left hmoves
    rw [raiseIf_then (decide_eq_false (Nat.not_lt.mpr hlocal)), raiseIf_run, decide_eq_false (Nat.not_lt.mpr hglobal)]
    rfl

/-- A copy takes one scoreboard entry, or none when it is empty (R246). -/
theorem entriesOf_copyStart (a : CopyArgs) (t : BitVec 5) (d q e : BitVec 1) (sc : BitVec 3) :
    entriesOf (copyStart a t d q e sc) = if emptyCopy a then 0 else 1 := by
  rw [entriesOf, copyStart, emptyCopy]
  by_cases hd : d = 1#1
  · cases a.rows == 0 || a.rowbytes == 0 <;> simp [hd]
  · cases a.rows == 0 || a.rowbytes == 0 <;> simp [hd]

/-- A copy out writes global memory, and a copy in reads it (R274). -/
theorem classes_copyStart (a : CopyArgs) (t : BitVec 5) (d q e : BitVec 1) (sc : BitVec 3) :
    (copyStart a t d q e sc).op.classes = if d = 1 then clCW else clCR := by
  by_cases hd : d = 1 <;> simp [copyStart, CmdOp.classes, hd]

section
variable {s s1 s2 : State} {i : Instr} {x : Ctx} {c : Core} {a : CopyArgs} {n sc : BitVec 3} {t l r b : BitVec 5} {d q e : BitVec 1} {h z : BitVec 2}

/-- A copy that starts has found the room for which its word waits before its checks (R60, R242). -/
theorem copyRoom_ok (hs : c.settled x.st = true) (hb : begun s x c i (copyStart a t d q e sc) = some s1) :
    copyRoom x t d (emptyCopy a) c = .ok ((), c) := by
  have hroom := (begun_eq hb).1
  rw [entriesOf_copyStart, classes_copyStart] at hroom
  exact cmdRoom_ok t hs hroom

/-- What a copy does first, once its command has started and its points register is captured (R226, R253). -/
theorem copyGoes_eq (hb : begun s x c i (copyStart a t d q e sc) = some s1) :
    copyGoes s1 x a q e =
      let u := if a.perm.isEmpty then s1 else s1.capture x.core a.pm a.version
      if q = 1 then u.post (.acquireComplete x.core s.fresh) else u.copyBegin x.core s.fresh (e == 1) (emptyCopy a) := by
  have hid : s1.fresh - 1 = s.fresh := by rw [(begun_eq hb).2]; rfl
  simp only [copyGoes, State.copyBegin, emptyCopy, hid]
  by_cases hrows : a.rows = 0 <;> by_cases hbytes : a.rowbytes = 0 <;> simp [hrows, hbytes]

/-- A copy word whose operands are read as a, once there is room, completes as the table says of a. -/
theorem copyM_completes {args : Ctx → CM CopyArgs} (hi : exec i s = issue i (copyM i t d q e sc args) s) (hs : (s.core s.cur).settled s.strm = true)
    (hargs : copyRoom s.ctx t d (emptyCopy a) s.atIssue = .ok ((), s.atIssue) → args s.ctx s.atIssue = .ok (a, s.atIssue))
    (ht : copyDone s s.ctx s.atIssue i t d q e sc a = some s2) (hr : s.runs i (s2.core s.cur) = true) : CompletesAs s i s2 := by
  have hrun := State.runs_running hr
  obtain ⟨hfits, ht⟩ := guard_some ht
  obtain ⟨s1, hb, rfl⟩ := Option.map_eq_some_iff.mp ht
  have hread := hargs (copyRoom_ok (State.atIssue_settled hs) hb)
  refine issue_completes hi hr ?_
  rw [copyM, run_bind_ok (onCore_issuing hrun hread), run_bind_ok (onCore_issuing hrun (copyChecks_ok _ hfits)), copyGoes_eq hb]
  simp only [beq_iff_eq]
  exact run_bind_ok (startCmd_begun hrun hs hb)

theorem copy_completes (hs : (s.core s.cur).settled s.strm = true) (ht : globalWord s s.ctx s.atIssue (.copy n t l b d q e sc h) = some s2)
    (hr : s.runs (.copy n t l b d q e sc h) (s2.core s.cur) = true) : CompletesAs s (.copy n t l b d q e sc h) s2 := by
  have hset := State.atIssue_settled hs
  refine copyM_completes rfl hs (fun hroom => ?_) ht hr
  rw [run_bind_ok (rdX_settled hset l), run_bind_ok (rdX_settled hset b)]
  exact run_bind_ok hroom

theorem copy2_completes (hs : (s.core s.cur).settled s.strm = true) (ht : globalWord s s.ctx s.atIssue (.copy2 n t l b d q e sc h) = some s2)
    (hr : s.runs (.copy2 n t l b d q e sc h) (s2.core s.cur) = true) : CompletesAs s (.copy2 n t l b d q e sc h) s2 := by
  have hset := State.atIssue_settled hs
  refine copyM_completes rfl hs (fun hroom => ?_) ht hr
  rw [run_bind_ok (rdX_settled hset l), run_bind_ok (rdX_settled hset (pairNext l)), run_bind_ok (rdX_settled hset b),
    run_bind_ok (rdX_settled hset (pairNext b))]
  rw [emptyCopy, Bool.or_comm] at hroom
  exact run_bind_ok hroom

/-- COPYP reads its points register's version as well, which has to be valid, and its rows have 4 to 128 bytes (R251, R252). -/
theorem copyp_completes (hs : (s.core s.cur).settled s.strm = true) (ht : globalWord s s.ctx s.atIssue (.copyp n t l b d q e sc h) = some s2)
    (hr : s.runs (.copyp n t l b d q e sc h) (s2.core s.cur) = true) : CompletesAs s (.copyp n t l b d q e sc h) s2 := by
  have hset := State.atIssue_settled hs
  obtain ⟨⟨hvalid, hleast, hmost⟩, ht⟩ := guard_some ht
  have hnext : l + 1 = pairNext l := rfl
  rw [hnext] at hvalid hleast hmost
  refine copyM_completes rfl hs (fun hroom => ?_) ht hr
  rw [run_bind_ok (rdX_settled hset l), run_bind_ok (rdX_settled hset (pairNext l)), run_bind_ok (rdX_settled hset b),
    run_bind_ok (rdX_settled hset (pairNext b)), run_bind_ok (run_get _)]
  dsimp only
  rw [hvalid, Bool.not_true, Bool.false_or]
  refine (run_bind_ok hroom).trans ?_
  rw [raiseIf_then rfl, raiseIf_then (by simp [hleast, hmost])]
  rfl

/-! ### Commands whose first access is to be translated (R259, R268 to R270, R283, R284, R361) -/

/-- The room that the table finds for such a command, of its classes of accesses. -/
theorem translating_room {op : CmdOp} {cl : BitVec 6} (ht : translating s x c i { tok := t, op := op } = some s2) (hcl : op.classes = cl) :
    c.hasRoom x cl true 0 = true := by
  obtain ⟨s1, hb, -⟩ := Option.map_eq_some_iff.mp ht
  exact hcl ▸ (begun_eq hb).1

/-- The end of a word that starts such a command. -/
theorem startCmd_translating {k : Start} (hrun : (s.core s.cur).run = .running) (hs : (s.core s.cur).settled s.strm = true)
    (ht : translating s s.ctx s.atIssue i k = some s2) :
    (do let id ← startCmd s.ctx i k
        postEvent (.translationRequest s.ctx.core id)
        pure .seq : DM Next) s.issuing = .ok (.seq, s2) := by
  obtain ⟨s1, hb, rfl⟩ := Option.map_eq_some_iff.mp ht
  exact run_bind_ok (startCmd_begun hrun hs hb)

theorem gld_completes {g : BitVec 1} (hs : (s.core s.cur).settled s.strm = true) (ht : globalWord s s.ctx s.atIssue (.gld n t b g z h) = some s2)
    (hr : s.runs (.gld n t b g z h) (s2.core s.cur) = true) : CompletesAs s (.gld n t b g z h) s2 := by
  have hrun := State.runs_running hr
  obtain ⟨halign, ht⟩ := guard_some ht
  have hroom : s.atIssue.hasRoom s.ctx clR true 0 = true := translating_room ht rfl
  refine issue_completes rfl hr ?_
  rw [run_bind_ok (rdX_issuing hrun hs b), run_bind_ok (onCore_issuing hrun (cmdRoom_ok t (State.atIssue_settled hs) hroom)),
    run_bind_ok (onCore_issuing (a := ()) hrun (by rw [raiseIf_run, halign]; rfl))]
  exact startCmd_translating hrun hs ht

theorem gst_completes (hs : (s.core s.cur).settled s.strm = true) (ht : globalWord s s.ctx s.atIssue (.gst n t r b z h) = some s2)
    (hr : s.runs (.gst n t r b z h) (s2.core s.cur) = true) : CompletesAs s (.gst n t r b z h) s2 := by
  have hrun := State.runs_running hr
  obtain ⟨halign, ht⟩ := guard_some ht
  have hroom : s.atIssue.hasRoom s.ctx clW true 0 = true := translating_room ht rfl
  refine issue_completes rfl hr ?_
  rw [run_bind_ok (rdX_issuing hrun hs r), run_bind_ok (rdX_issuing hrun hs b),
    run_bind_ok (onCore_issuing hrun (cmdRoom_ok t (State.atIssue_settled hs) hroom)),
    run_bind_ok (onCore_issuing (a := ()) hrun (by rw [raiseIf_run, halign]; rfl))]
  exact startCmd_translating hrun hs ht

/-- A command that neither a committed task nor a member of a tournament may start finds its room (R346, R395). -/
theorem outsideRoom_ok {cl : BitVec 6} {slot : Bool} {entries : Nat} (hs : c.settled x.st = true) (hout : outside c = true)
    (hroom : c.hasRoom x cl slot entries = true) : (do cmdRoom x cl slot t entries; forbidTask; forbidTourney) c = .ok ((), c) := by
  obtain ⟨htask, htourney⟩ := forbid_ok hout
  rw [run_bind_ok (cmdRoom_ok t hs hroom), run_bind_ok htask, htourney]

/-- AMO reads the second register of a pair for a compare and swap alone (R283). -/
theorem amo_completes {o : BitVec 3} {g : BitVec 2} (hs : (s.core s.cur).settled s.strm = true)
    (ht : globalWord s s.ctx s.atIssue (.amo n t r b o g sc) = some s2) (hr : s.runs (.amo n t r b o g sc) (s2.core s.cur) = true) :
    CompletesAs s (.amo n t r b o g sc) s2 := by
  have hrun := State.runs_running hr
  have hset := State.atIssue_settled hs
  obtain ⟨⟨hout, halign⟩, ht⟩ := guard_some ht
  have hroom : s.atIssue.hasRoom s.ctx (clR ||| clW) true 0 = true := translating_room ht rfl
  have hpair : (if o = 7 then rdX s.ctx (pairNext r) else pure 0 : CM Word) s.atIssue
      = .ok (if o = 7 then s.atIssue.reg s.ctx.st (r + 1) else 0, s.atIssue) := by
    split
    · exact rdX_settled hset _
    · rfl
  refine issue_completes rfl hr ?_
  rw [run_bind_ok (rdX_issuing hrun hs r), run_bind_ok (onCore_issuing hrun hpair), run_bind_ok (rdX_issuing hrun hs b),
    run_bind_ok (onCore_issuing hrun (outsideRoom_ok hset hout hroom)),
    run_bind_ok (onCore_issuing (a := ()) hrun (by rw [raiseIf_run, halign]; rfl))]
  exact startCmd_translating hrun hs ht

/-- The command of a QUERY (R361). -/
def queryStart (x : Ctx) (c : Core) (t l b : BitVec 5) (form : Bool) : Start where
  tok := t
  op := .query (vaOf (c.reg x.st b)) (fieldOf (c.reg x.st l) 0 19) (fieldOf (c.reg x.st l) 20 3) (fieldOf (c.reg x.st l) 0 4)
    ((c.reg x.st l).getLsbD 23) form

/-- Both forms of QUERY: the answer's place has to fit in the form that answers into ULM, and its message register be named in the other (R361). -/
theorem queryWord_completes {form : Bool} (hi : exec i s = issue i (queryM i t l b form) s) (hs : (s.core s.cur).settled s.strm = true)
    (hout : outside s.atIssue = true) (halign : vaOf (s.atIssue.reg s.ctx.st b) % 64 = 0)
    (hulm : form = false → fieldOf (s.atIssue.reg s.ctx.st l) 0 19 % 16 = 0 ∧ fieldOf (s.atIssue.reg s.ctx.st l) 0 19 + 16 ≤ Config.ulmBytes)
    (hmsg : form = true → fieldOf (s.atIssue.reg s.ctx.st l) 0 4 ≠ 0)
    (ht : translating s s.ctx s.atIssue i (queryStart s.ctx s.atIssue t l b form) = some s2)
    (hr : s.runs i (s2.core s.cur) = true) : CompletesAs s i s2 := by
  have hrun := State.runs_running hr
  have hroom : s.atIssue.hasRoom s.ctx 0 true 0 = true := translating_room ht rfl
  refine issue_completes hi hr ?_
  rw [queryM, run_bind_ok (rdX_issuing hrun hs l), run_bind_ok (rdX_issuing hrun hs b),
    run_bind_ok (onCore_issuing hrun (outsideRoom_ok (State.atIssue_settled hs) hout hroom)),
    run_bind_ok (onCore_issuing (a := ()) hrun ?_)]
  · exact startCmd_translating hrun hs ht
  · cases form with
    | false =>
      obtain ⟨hplace, hrange⟩ := hulm rfl
      rw [raiseIf_then (by simp [halign, hplace]), raiseIf_then (by simpa using hrange)]
      rfl
    | true =>
      rw [raiseIf_then (by simp [halign]), raiseIf_then (by simp), raiseIf_run, if_neg (by simpa using hmsg rfl)]

theorem query_completes (hs : (s.core s.cur).settled s.strm = true) (ht : globalWord s s.ctx s.atIssue (.query n t l b) = some s2)
    (hr : s.runs (.query n t l b) (s2.core s.cur) = true) : CompletesAs s (.query n t l b) s2 := by
  obtain ⟨⟨hout, halign, hplace, hrange⟩, ht⟩ := guard_some ht
  exact queryWord_completes rfl hs hout halign (fun _ => ⟨hplace, hrange⟩) (by simp) ht hr

theorem queryM_completes (hs : (s.core s.cur).settled s.strm = true) (ht : globalWord s s.ctx s.atIssue (.queryM n t l b) = some s2)
    (hr : s.runs (.queryM n t l b) (s2.core s.cur) = true) : CompletesAs s (.queryM n t l b) s2 := by
  obtain ⟨⟨hout, halign, hmsg⟩, ht⟩ := guard_some ht
  exact queryWord_completes rfl hs hout halign (by simp) (fun _ => hmsg) ht hr

/-! ### FENCE and STINV (R271, R272, R281, R282) -/

/-- Core c once a word has started FENCE id; one of order sc names every class (R281, R282). -/
def fenced (c : Core) (id : Nat) (sc : BitVec 3) (o : BitVec 2) (p f : BitVec 6) : Core :=
  { c with fences := c.fences ++ [⟨id, sc.toNat, o.toNat, if o = 0 then 63 else p, if o = 0 then 63 else f, false⟩] }

/-- A FENCE stands among its core's fences, and its first half comes due. -/
theorem fence_completes {o : BitVec 2} {p f : BitVec 6} (ht : globalWord s s.ctx s.atIssue (.fence n sc o p f) = some s2)
    (hr : s.runs (.fence n sc o p f) (s2.core s.cur) = true) : CompletesAs s (.fence n sc o p f) s2 := by
  have hrun := State.runs_running hr
  obtain rfl := Option.some.inj ht
  have hcore : ({ s.issuing with fresh := s.fresh + 1 } : State).core s.ctx.core = s.atIssue := State.issuing_core hrun
  have hput : s.issuing.setCore s.cur (fenced s.atIssue s.fresh sc o p f) = s.setCore s.cur (fenced s.atIssue s.fresh sc o p f) :=
    State.issuing_setCore hrun (State.atIssue_not_idle hrun)
  refine issue_completes rfl hr ?_
  rw [run_bind_ok (freshId_run _)]
  simp only [beq_iff_eq]
  refine (run_bind_ok (onCore_ok (congrArg (fun c => Except.ok ((), fenced c s.fresh sc o p f)) hcore))).trans ?_
  exact congrArg (fun u : State => Except.ok (Next.seq, { u with fresh := s.fresh + 1 }.post
    (if o = 1 then .acquireComplete s.cur s.fresh else .releasePerformed s.cur s.fresh))) hput

theorem stinv_completes {k : BitVec 3} {v : BitVec 5} (hs : (s.core s.cur).settled s.strm = true)
    (ht : globalWord s s.ctx s.atIssue (.stinv n k v) = some s2) (hr : s.runs (.stinv n k v) (s2.core s.cur) = true) :
    CompletesAs s (.stinv n k v) s2 := by
  obtain rfl := Option.some.inj ht
  refine issue_completes rfl hr ?_
  rw [run_bind_ok (rdX_issuing (State.runs_running hr) hs v)]
  rfl

end

/-- Settles O32: every step of such a word before its command starts only reads its core, on which nothing has to be waited for, and each check passes;
the command starts as the table says, and its first step comes due. -/
theorem globalWords : Obligations.GlobalWords := by
  intro s i s2 hs ht hr
  cases i
  case copy => exact copy_completes hs ht hr
  case copy2 => exact copy2_completes hs ht hr
  case copyp => exact copyp_completes hs ht hr
  case gld => exact gld_completes hs ht hr
  case gst => exact gst_completes hs ht hr
  case amo => exact amo_completes hs ht hr
  case query => exact query_completes hs ht hr
  case queryM => exact queryM_completes hs ht hr
  case fence => exact fence_completes ht hr
  case stinv => exact stinv_completes hs ht hr
  all_goals exact absurd ht (Option.some_ne_none s2).symm

end Sys2Proof.Slice0
end

section
/-!
SUPPORT. The steps of commands, translation and copies (R238, R244, R245, R247, R253, R254, R259 to R270), under the conditions that their table names.
-/

namespace Sys2Proof.Machine

/-- The command that a core lists under a number has that number. -/
theorem Core.cmd?_id {c : Core} {id : Nat} {k : Cmd} (h : c.cmd? id = some k) : k.id = id := by
  simpa using List.find?_some h

/-- An access that is open, translated, and can act, does not wait (R382, R431). -/
theorem State.openAccess_acts {s u : State} {core loc : Nat} {d : Bool} {k : Cmd} (hopen : k.status = none) (hxl : k.xl = some (loc, d))
    (h : Slice0.canAct s k loc = true) : (if k.open_ then s.accessWaits core k else some u) = none := by
  rw [Cmd.open_, hopen]
  exact State.accessWaits_of_canAct hxl h

/-! ### The staging buffer of a permuted copy (R238, R253) -/

/-- The state in which a copy has the staging buffer that it needs; none while it is not its turn. -/
def State.buffered (s : State) (core id : Nat) (perm : List Nat) : Option State := if perm.isEmpty then some s else s.stageCopy core id

/-- Whether an access fails does not depend on the staging buffers. -/
theorem State.buffered_accessFails {s t : State} {core id : Nat} {perm : List Nat} (h : s.buffered core id perm = some t) :
    t.accessFails = s.accessFails := by
  unfold State.buffered State.stageCopy at h
  dsimp only at h
  split_ifs at h
  all_goals
    obtain rfl := Option.some.inj h
    rfl

end Sys2Proof.Machine

namespace Sys2Proof.Slice0

open Sys2Proof.Machine

section
variable {s t : State} {n id : Nat}

/-- The status of a command reaches its token (R244, R245). -/
theorem tokenStatusWrite_happens (h : commandStep s (.tokenStatusWrite n id) = some t) : exec (.tokenStatusWrite n id) s = .next t := by
  simp only [commandStep] at h
  rw [exec_tokenStatusWrite, execTokenStatusWrite]
  cases hcmd : (s.core n).cmd? id with
  | none => simp only [hcmd] at h; cases h
  | some k =>
    cases hstatus : k.status with
    | none => simp only [hcmd, hstatus] at h; cases h
    | some r =>
      obtain ⟨st, who, addr⟩ := r
      simp only [hcmd, hstatus] at h ⊢
      obtain ⟨hattached, rfl⟩ := onlyIf_eq h
      exact if_neg (not_not.mpr hattached)

/-! ### Translation (R259 to R262, R266, R269) -/

/-- An access is due for its translation when it is open, not held by a fault, and not translated yet. -/
theorem due_of_open {k : Cmd} (hopen : k.status = none) (hheld : k.held = false) (hxl : k.xl = none) : (!k.open_ || k.held || k.xl.isSome) = false := by
  simp [Cmd.open_, hopen, hheld, hxl]

/-- The station's cache serves a request, or stops it at a fault, or a walk begins. -/
theorem translationRequest_happens (h : commandStep s (.translationRequest n id) = some t) : exec (.translationRequest n id) s = .next t := by
  simp only [commandStep] at h
  rw [exec_translationRequest, execTranslationRequest]
  cases hcmd : (s.core n).cmd? id with
  | none => simp only [hcmd] at h; cases h
  | some k =>
    cases htarget : k.target with
    | none => simp only [hcmd, htarget] at h; cases h
    | some r =>
      obtain ⟨va, len, kind⟩ := r
      simp only [hcmd, htarget] at h ⊢
      obtain ⟨⟨hopen, hheld, hxl, hwaits⟩, rfl⟩ := onlyIf_eq h
      obtain rfl := Core.cmd?_id hcmd
      have hfree : (s.core n).wordWaits k va len = false := hwaits
      rw [due_of_open hopen hheld hxl, hfree]
      cases s.cached (stationOf n va) (s.core n).asid.toNat va ⟨kind, k.user⟩ with
      | none => rfl
      | some q =>
        obtain ⟨found, leaf, size⟩ := q
        cases found <;> rfl

/-- A walk translates its access, or stops it at a fault. -/
theorem pageWalk_happens (h : commandStep s (.pageWalk n id) = some t) : exec (.pageWalk n id) s = .next t := by
  simp only [commandStep] at h
  rw [exec_pageWalk, execPageWalk]
  cases hcmd : (s.core n).cmd? id with
  | none => simp only [hcmd] at h; cases h
  | some k =>
    cases htarget : k.target with
    | none => simp only [hcmd, htarget] at h; cases h
    | some r =>
      obtain ⟨va, len, kind⟩ := r
      simp only [hcmd, htarget] at h ⊢
      obtain ⟨⟨hopen, hheld, hxl, hwaits⟩, rfl⟩ := onlyIf_eq h
      obtain rfl := Core.cmd?_id hcmd
      have hfree : (s.core n).wordWaits k va len = false := hwaits
      rw [due_of_open hopen hheld hxl, hfree]
      cases s.walkFor (stationOf n va) (s.core n).asid.toNat va ⟨kind, k.user⟩ <;> rfl

/-! ### The kernel's answers to a fault (R254, R267) -/

/-- The kernel answers the record of a core's fault: what it held walks again, past no table entry that the station keeps. -/
theorem faultRetry_happens (h : commandStep s (.faultRetry n id) = some t) : exec (.faultRetry n id) s = .next t := by
  simp only [commandStep] at h
  rw [exec_faultRetry, execFaultRetry]
  cases htake : s.takeFault n id with
  | none => simp only [htake] at h; cases h
  | some q =>
    obtain ⟨r, s1⟩ := q
    simp only [htake] at h ⊢
    obtain ⟨⟨hcore, hup, hnear⟩, rfl⟩ := onlyIf_eq h
    rw [if_neg (ne_true_of_eq_false hup), if_neg (ne_true_of_eq_false hnear), if_neg (by omega), if_neg (by omega), if_neg (by omega)]
    rfl

/-- The kernel declines a record: what it held ends with -5. -/
theorem faultDecline_happens (h : commandStep s (.faultDecline n id) = some t) : exec (.faultDecline n id) s = .next t := by
  simp only [commandStep] at h
  rw [exec_faultDecline, execFaultDecline]
  cases htake : s.takeFault n id with
  | none => simp only [htake] at h; cases h
  | some q =>
    obtain ⟨r, s1⟩ := q
    simp only [htake] at h ⊢
    obtain ⟨⟨hcore, hup⟩, rfl⟩ := onlyIf_eq h
    rw [if_neg (ne_true_of_eq_false hup), if_neg (by omega), if_neg (by omega), if_neg (by omega)]

/-! ### The engine (R238, R247, R253, R254, R264, R269) -/

/-- The buffer that the table gives a copy is the one that it takes in its turn. -/
theorem buffered_eq (perm : List Nat) :
    (if perm = [] ∨ (s.staged? n id).isSome = true then some s
      else if (s.tile (siteOf n)).stagingFull = false ∧ s.nextApply (siteOf n) = some (n, id) then
        some (s.modTile (siteOf n) fun t => { t with applyPtr := (n + 1) % 4, staging := t.staging ++ [⟨n, id, []⟩] })
      else none) = s.buffered n id perm := by
  unfold State.buffered State.stageCopy
  cases perm with
  | nil => simp
  | cons p ps =>
    cases (s.staged? n id).isSome
    · cases hfull : (s.tile (siteOf n)).stagingFull
      · by_cases hturn : s.nextApply (siteOf n) = some (n, id) <;> simp [hfull, hturn]
      · simp [hfull]
    · simp

/-- A check that a granule is made for, and passes, finds nothing. -/
theorem sound_of_imp {made passes : Bool} (h : made = true → passes = true) : (made && !passes) = false := by
  simpa using h

/-- A granule leaves ULM, or lands in it; the copy goes on to the next. -/
theorem copyGranule_happens {k : Cmd} {out q e inv : Bool} {sc addr ls rb rows va gs pm version loc : Nat} {perm : List Nat} {desc : Bool}
    (hcmd : (s.core n).cmd? id = some k) (hop : k.op = .copy out q e sc addr ls rb rows va gs perm inv pm version) (hxl : k.xl = some (loc, desc))
    (h : commandStep s (.engineGranule n id) = some t) : execEngineGranule n id s = .next t := by
  rcases hrow : copyRow perm out inv k.row with ⟨ur, gr⟩
  rcases hchunk : chunkOf (va + gr * gs) rb k.gran with ⟨off, len⟩
  simp only [commandStep, hcmd, hop, hxl, hrow, hchunk, buffered_eq] at h
  simp only [execEngineGranule, hcmd, hop, hxl, hrow, hchunk]
  cases hbuffer : s.buffered n id perm with
  | none => simp only [hbuffer] at h; cases h
  | some s0 =>
    simp only [hbuffer] at h
    obtain ⟨hready, h⟩ := ite_none h
    push Not at hready
    obtain ⟨hopen, hact, hfree⟩ := hready
    rw [State.openAccess_acts hopen hxl (Bool.of_not_eq_false hact), Bool.eq_false_of_not_eq_true hfree]
    have hfails := State.buffered_accessFails hbuffer
    rw [State.buffered] at hbuffer
    cases out with
    | true =>
      obtain ⟨⟨hordered, hsound, hwhole, hlen⟩, rfl⟩ := onlyIf_eq ((if_pos rfl).symm.trans h)
      simp only [hordered, hbuffer, Option.isNone_iff_eq_none.mp hsound, hfails]
      have hgood : ¬(len < 64 ∧ s.accessFails n loc len ≠ 0) := fun hpart => hwhole.elim hpart.1.ne hpart.2
      rw [if_neg (by decide), if_pos trivial, if_neg hgood]
    | false =>
      obtain ⟨⟨hsound, hblock, hkept⟩, rfl⟩ := onlyIf_eq ((if_neg Bool.false_ne_true).symm.trans h)
      simp only [hbuffer, hfails, sound_of_imp hblock, Option.isNone_iff_eq_none.mp hkept]
      rw [if_neg (by simp), if_neg Bool.false_ne_true, if_neg (not_not.mpr hsound), if_neg Bool.false_ne_true]

/-- A GLD or GST that has reached its page, and waits for no older access, is performed. -/
theorem execEngineGranule_performs {k : Cmd} {va size loc : Nat} {desc : Bool} (hcmd : (s.core n).cmd? id = some k) (hxl : k.xl = some (loc, desc))
    (hopen : k.status = none) (hact : canAct s k loc = true) (hword : (∃ sg, k.op = .gld va size sg) ∨ ∃ v, k.op = .gst va size v)
    (hfree : (s.core n).wordWaits k va (2 ^ size) = false) : execEngineGranule n id s = .next (s.performWord n k loc) := by
  obtain ⟨sg, hop⟩ | ⟨v, hop⟩ := hword
  all_goals
    simp only [execEngineGranule, hcmd, hop, hxl]
    rw [State.openAccess_acts hopen hxl hact, hfree]
    rfl

/-- The engine moves a granule of a copy, performs a GLD or GST that has reached its page, or sends what has waited for its source. -/
theorem engineGranule_happens (h : commandStep s (.engineGranule n id) = some t) : exec (.engineGranule n id) s = .next t := by
  rw [exec_engineGranule]
  cases hcmd : (s.core n).cmd? id with
  | none => simp only [commandStep, hcmd] at h; cases h
  | some k =>
    cases hop : k.op
    case copy =>
      cases hxl : k.xl with
      | none => simp only [commandStep, hcmd, hop, hxl] at h; cases h
      | some place => exact copyGranule_happens hcmd hop hxl h
    case gld va size sg =>
      cases hxl : k.xl with
      | none => simp only [commandStep, hcmd, hop, hxl] at h; cases h
      | some place =>
        simp only [commandStep, hcmd, hop, hxl] at h
        obtain ⟨⟨hopen, hact, hordered⟩, rfl⟩ := onlyIf_eq h
        refine execEngineGranule_performs hcmd hxl hopen hact (.inl ⟨sg, hop⟩) ?_
        rw [Core.wordWaits, hop, Core.cmd?_id hcmd]
        exact hordered
    case gst va size v =>
      cases hxl : k.xl with
      | none => simp only [commandStep, hcmd, hop, hxl] at h; cases h
      | some place =>
        simp only [commandStep, hcmd, hop, hxl] at h
        obtain ⟨⟨hopen, hact, hordered⟩, rfl⟩ := onlyIf_eq h
        refine execEngineGranule_performs hcmd hxl hopen hact (.inr ⟨v, hop⟩) ?_
        rw [Core.wordWaits, hop, Core.cmd?_id hcmd]
        exact hordered
    case putr | mcast =>
      simp only [commandStep, hcmd, hop] at h
      simp only [execEngineGranule, hcmd, hop]
      exact congrArg _ (Option.some.inj h)
    all_goals simp only [commandStep, hcmd, hop] at h; cases h

end

/-- Settles O50: step by step, the conditions of the table choose the branch of the step that it describes. How long a station keeps what a walk has
read, and that faults of one ASID, page and station join one record, are the model's choices (log entries 26 and 27). -/
theorem commandSteps : Obligations.CommandSteps := by
  intro s i t h
  cases i
  case tokenStatusWrite => exact tokenStatusWrite_happens h
  case translationRequest => exact translationRequest_happens h
  case pageWalk => exact pageWalk_happens h
  case faultRetry => exact faultRetry_happens h
  case faultDecline => exact faultDecline_happens h
  case engineGranule => exact engineGranule_happens h
  all_goals exact absurd h (Option.some_ne_none t).symm

end Sys2Proof.Slice0
end

section
/-!
SUPPORT. A step whose agenda names a step of the device runs the instruction of the same name (R60; log entry 3).
-/

namespace Sys2Proof.Slice0

open Sys2Proof.Machine

/-- The meaning of an event is that of the instruction which stands for it. -/
theorem runEvent_toEv {i : Instr} {e : Ev} (h : i.toEv? = some e) : runEvent e = exec i := by
  cases i <;> cases h <;> rfl

/-- Settles O7: the agent exists and the clocks run, so that nothing stands between the agenda and the event's meaning. -/
theorem stepRunsEvents : Obligations.StepRunsEvents := by
  intro s i e r hname hplan hagent hruns
  have hclocks : ({ s with plan := r } : State).isl.clocksStand = false := by rw [Island.clocksStand, hruns, Bool.false_and]
  calc step s = eventMove e { s with plan := r } := by rw [step, stepWith, hplan]
    _ = runEvent e { s with plan := r } := by simp [eventMove, hagent, hclocks]
    _ = exec i { s with plan := r } := by rw [runEvent_toEv hname]

end Sys2Proof.Slice0
end

section
/-!
SUPPORT. The steps of the island (R263, R426, R437 to R442), and what a corrected error counts (R436).
-/

namespace Sys2Proof.Slice0

open Sys2Proof.Machine

/-! ### Power modes (R437 to R439) -/

/-- The request that the table takes is the one that the island applies. -/
theorem requested_eq (s : State) : requested s = s.applyRequest := rfl

section
variable {s t : State}

/-- A written mode of 0 to 2 is requested, or waits for the end of a switch. -/
theorem pmodeWrite_happens {v : Word} (h : islandStep s (.pmodeWrite v) = some t) : exec (.pmodeWrite v) s = .next t := by
  obtain ⟨⟨hup, hmode⟩, rfl⟩ := onlyIf_eq h
  rw [exec_pmodeWrite, execPmodeWrite, State.pmodePut]
  have hwritten : ¬(s.isl.recovery = true ∨ 2 < (v.extractLsb' 0 4).toNat) := not_or.mpr ⟨ne_true_of_eq_false hup, hmode.not_gt⟩
  rw [if_neg hwritten]
  rfl

/-- The clocks restart in the new mode, and a request that has come meanwhile is taken. -/
theorem modeSwitchRestart_happens (h : islandStep s .modeSwitchRestart = some t) : exec .modeSwitchRestart s = .next t := by
  obtain ⟨⟨hbusy, hstands, hpast⟩, rfl⟩ := onlyIf_eq h
  have hdue : ¬(s.isl.restartAt = 0 ∨ s.ns < s.isl.restartAt) := by omega
  rw [exec_modeSwitchRestart, execModeSwitchRestart, hbusy, if_neg (by decide), if_neg hdue]
  rfl

/-- An exceeded limit lowers the mode and holds the cap. -/
theorem powerLimitExceeded_happens (h : islandStep s .powerLimitExceeded = some t) : exec .powerLimitExceeded s = .next t := by
  obtain ⟨⟨hup, hruns⟩, rfl⟩ := onlyIf_eq h
  rw [exec_powerLimitExceeded, execPowerLimitExceeded, hup, hruns, if_neg (by decide), if_neg (by decide)]
  exact (apply_ite _ _ _ _).symm

/-- 100 ms below the limit release the cap. -/
theorem powerCapRelease_happens (h : islandStep s .powerCapRelease = some t) : exec .powerCapRelease s = .next t := by
  obtain ⟨⟨hup, hcap, hruns, hcool⟩, rfl⟩ := onlyIf_eq h
  have hdue : ¬(s.isl.recovery = true ∨ (!s.isl.cap) = true ∨ s.ns < s.isl.coolSince + 100000000) := by
    simp [hup, hcap, hcool]
  rw [exec_powerCapRelease, execPowerCapRelease, if_neg hdue, hruns, if_neg (by decide)]
  rfl

/-! ### Firmware, attestation and reset (R440 to R442) -/

/-- An attestation signs the registers and takes a new ephemeral key. -/
theorem attestationRequest_happens {nonce : BitVec 256} {peer : BitVec 768} (h : islandStep s (.attestationRequest nonce peer) = some t) :
    exec (.attestationRequest nonce peer) s = .next t := by
  obtain ⟨hup, rfl⟩ := onlyIf_eq h
  rw [exec_attestationRequest, execAttestationRequest, hup, if_neg (by decide)]
  rfl

/-! ### Heartbeats (R426) -/

/-- A due heartbeat goes out, and the next falls due a millisecond later. -/
theorem heartbeatSend_happens (h : islandStep s .heartbeatSend = some t) : exec .heartbeatSend s = .next t := by
  obtain ⟨⟨hdue, hrunning, hup⟩, rfl⟩ := onlyIf_eq h
  have hsends : ¬(s.ns < s.isl.beatAt ∨ s.isl.complexDown = true ∨ s.isl.recovery = true) := by simp [hdue, hrunning, hup]
  rw [exec_heartbeatSend, execHeartbeatSend, if_neg hsends]
  rfl

/-- A missed beat counts for its neighbour, and a quorum of neighbours that have missed three in a row sends its messages. -/
theorem heartbeatMiss_happens {nb : Nat} (h : islandStep s (.heartbeatMiss nb) = some t) : exec (.heartbeatMiss nb) s = .next t := by
  obtain ⟨⟨hnb, hlimit, hbeat, hnew⟩, rfl⟩ := onlyIf_eq h
  have hcounts : ¬(s.isl.neighbours ≤ nb ∨ 16 ≤ nb ∨ s.isl.beat.toNat = 0
      ∨ ((Store.get (0, 0) s.isl.missed nb).1 ≠ 0 ∧ (Store.get (0, 0) s.isl.missed nb).2 = s.isl.beat.toNat)) := by
    push Not
    exact ⟨hnb, hlimit, hbeat, fun hmissed => hnew.resolve_left hmissed⟩
  rw [exec_heartbeatMiss, execHeartbeatMiss]
  refine (if_neg hcounts).trans ?_
  simp only [apply_ite Host.Outcome.next]
  rfl

/-- A reset message is counted or discarded, and a quorum takes the complex down. -/
theorem resetMessage_happens {from_ target n : Nat} {tag : BitVec 384} (h : islandStep s (.resetMessage from_ target n tag) = some t) :
    exec (.resetMessage from_ target n tag) s = .next t := by
  obtain ⟨hup, rfl⟩ := onlyIf_eq h
  rw [exec_resetMessage]
  unfold execResetMessage resetTag
  dsimp only
  rw [hup, if_neg (by decide)]
  cases hkey : s.isl.key with
  | none => rfl
  | some k =>
    dsimp only
    cases hvalid : tag == Config.hmac k (toBytes 8 from_ ++ toBytes 8 target ++ toBytes 8 n) && decide (Store.get 0 s.isl.counters from_ < n)
      && target == Config.identity && decide (from_ < Nat.min s.isl.neighbours 16)
    · rfl
    · rw [if_neg (by decide)]
      split <;> rfl

end

/-- Settles O58: step by step, the conditions of the table choose the branch of the step that it describes. The beat of a miss, the tag of a message,
what the restarted kernel does first, and the layout of an image are the model's choices (log entries 85, 87, 88 and 141). -/
theorem islandSteps : Obligations.IslandSteps := by
  intro s i t h
  cases i
  case pmodeWrite => exact pmodeWrite_happens h
  case modeSwitchRestart => exact modeSwitchRestart_happens h
  case powerLimitExceeded => exact powerLimitExceeded_happens h
  case powerCapRelease => exact powerCapRelease_happens h
  case firmwareImage | flashWriteInterrupted | deviceReset => exact congrArg _ (Option.some.inj h)
  case attestationRequest => exact attestationRequest_happens h
  case heartbeatSend => exact heartbeatSend_happens h
  case heartbeatMiss => exact heartbeatMiss_happens h
  case resetMessage => exact resetMessage_happens h
  all_goals exact absurd h (Option.some_ne_none t).symm

/-! ### Corrected errors (R436) -/

/-- A corrected error sends the unit's record when it is the hour's first beyond the unit's threshold, and no other record. -/
theorem corrected_records {s : State} {unit hour count sent : Nat} (h : Store.get (0, 0, 0) s.isl.hourly unit = (hour, count, sent)) :
    (s.corrected unit).isl.records = s.isl.records ++
      (if (if hour = s.ns / 3600000000000 then sent = 0 ∧ Store.get 1024 s.isl.thresholds unit < count + 1
        else Store.get 1024 s.isl.thresholds unit < 1) then [(1, unit)] else []) := by
  unfold State.corrected hourNs
  rw [h]
  by_cases hhour : hour = s.ns / 3600000000000
  · by_cases hdue : sent = 0 ∧ Store.get 1024 s.isl.thresholds unit ≤ count <;> simp [hhour, hdue, State.machineCheck]
  · by_cases hdue : Store.get 1024 s.isl.thresholds unit = 0 <;> simp [hhour, hdue, State.machineCheck]

/-- A corrected error counts for its unit, up to 2^32 - 1. -/
theorem corrected_counter (s : State) (unit : Nat) :
    (s.corrected unit).isl.corrected = Store.modify 0 s.isl.corrected unit fun k => Nat.min (k + 1) 0xFFFFFFFF := by
  unfold State.corrected
  dsimp only
  split_ifs <;> rfl

/-- A corrected error touches no core and no global memory. -/
theorem corrected_outside (s : State) (unit : Nat) : (s.corrected unit).core = s.core ∧ (s.corrected unit).home = s.home := by
  unfold State.corrected
  dsimp only
  split_ifs <;> exact ⟨rfl, rfl⟩

/-- The error of a site that the statement names counts for the unit that it names. -/
theorem softError_corrects {s : State} {site : ErrSite} {unit : Nat}
    (h : (∃ loc, site = .hbm loc ∧ loc < farBase ∧ unit = stationOfLoc loc)
      ∨ (∃ n a, site = .ulm n a ∧ n < Config.cores ∧ a < Config.ulmBytes ∧ unit = 16 + n)
      ∨ ∃ n h, site = .reg n h ∧ n < Config.cores ∧ unit = 9232 + n) :
    exec (.softError site false) s = .next (s.corrected unit) := by
  rw [exec_softError]
  obtain ⟨loc, rfl, hloc, rfl⟩ | ⟨n, a, rfl, hcore, haddr, rfl⟩ | ⟨n, a, rfl, hcore, rfl⟩ := h
  · exact if_neg hloc.not_ge
  · exact if_neg (not_or.mpr ⟨hcore.not_ge, haddr.not_ge⟩)
  · exact if_neg hcore.not_ge

/-- Settles O60: a counter is written with a value that is not 0, so that it reads back whatever the form of the table of counters. That hours count
from reset, and the numbers of the units, are the model's choices (log entries 28 and 29). -/
theorem correctedErrorsCount : Obligations.CorrectedErrorsCount := by
  refine ⟨fun _ => rfl, fun s site unit hsite => ⟨s.corrected unit, softError_corrects hsite, ?_⟩⟩
  obtain ⟨hcores, hhome⟩ := corrected_outside s unit
  have hpos : Nat.min (Store.get 0 s.isl.corrected unit + 1) 4294967295 ≠ 0 := by
    have := Nat.le_min.mpr ⟨Nat.le_add_left 1 (Store.get 0 s.isl.corrected unit), (by decide : 1 ≤ 4294967295)⟩
    exact Nat.one_le_iff_ne_zero.mp this
  refine ⟨?_, fun u hu => ?_, corrected_records rfl, hcores, hhome⟩
  · rw [corrected_counter]
    exact Store.get_set_self_of_ne _ _ hpos
  · rw [corrected_counter]
    exact Store.get_set_ne_of_ne _ hu hpos

end Sys2Proof.Slice0
end

section
/-!
SUPPORT. The steps of the ports, of the error sites and of the kernel's harts (R280, R427 to R436), under the conditions that their table names.
-/

namespace Sys2Proof.Machine

/-! ### A core that is written back -/

/-- Writing back what an index reads as changes nothing where that is not the default, whatever the array. -/
theorem Store.set_get_of_ne {α : Type} [DecidableEq α] {d : α} {m : Store α} {k : Nat} (h : Store.get d m k ≠ d) :
    Store.set d m k (Store.get d m k) = m := by
  induction m with
  | nil => exact absurd rfl h
  | cons p m ih =>
    obtain ⟨j, v⟩ := p
    by_cases hbelow : k < j
    · exact absurd (if_pos hbelow) h
    · by_cases hat : k = j
      · have hv : v ≠ d := by simpa [Store.get, hat] using h
        simp [Store.get, Store.set, hat, hv]
      · have htail : Store.get d ((j, v) :: m) k = Store.get d m k := by simp only [Store.get, if_neg hbelow, if_neg hat]
        rw [htail] at h ⊢
        simp only [Store.set, if_neg hbelow, if_neg hat, ih h]

theorem State.setCore_core_of_ne {s : State} {n : Nat} (h : s.core n ≠ {}) : s.setCore n (s.core n) = s := by
  unfold State.setCore State.core
  rw [Store.set_get_of_ne h]

end Sys2Proof.Machine

namespace Sys2Proof.Slice0

open Sys2Proof.Machine

section
variable {s t : State} {port : Nat}

/-! ### Host ports (R427, R428, R441) -/

/-- The control space of BAR0, written out. -/
theorem inBar0_iff {a n : Nat} : inBar0 a n = true ↔ bar0 ≤ a ∧ a - bar0 + n ≤ 2 ^ 24 := by
  rw [inBar0, Bool.and_eq_true, decide_eq_true_eq, decide_eq_true_eq]

/-- The access that the table performs is the port's. -/
theorem accessed_eq (s : State) (a : HostAcc) : accessed s a = s.windowAccess a := by
  unfold accessed State.windowAccess
  cases s.isl.hostPend.any fun b => b.port == a.port <;> rfl

/-- A write goes to the control space, or in payloads to the window. -/
theorem hostWindowWrite_happens {a : Nat} {bs : List Byte} (h : portStep s (.hostWindowWrite port a bs) = some t) :
    exec (.hostWindowWrite port a bs) s = .next t := by
  simp only [portStep, accessed_eq] at h
  obtain rfl := Option.some.inj h
  rw [exec_hostWindowWrite, execHostWindowWrite]
  simp only [inBar0_iff]
  rfl

/-- A read is one of the control space, or of the window. -/
theorem hostWindowRead_happens {a n : Nat} (h : portStep s (.hostWindowRead port a n) = some t) : exec (.hostWindowRead port a n) s = .next t := by
  simp only [portStep, accessed_eq] at h
  obtain rfl := Option.some.inj h
  rw [exec_hostWindowRead, execHostWindowRead]
  simp only [inBar0_iff]
  simp only [apply_ite Host.Outcome.next]
  rfl

/-- A link trains at a rate and a width of PCIe. -/
theorem hostLinkTrain_happens {rate width : Nat} (h : portStep s (.hostLinkTrain port rate width) = some t) :
    exec (.hostLinkTrain port rate width) s = .next t := by
  obtain ⟨⟨hrate, hwidth⟩, rfl⟩ := onlyIf_eq h
  rw [exec_hostLinkTrain, execHostLinkTrain, hrate, hwidth]
  rfl

/-! ### Scale-up ports (R431) -/

/-- A port that goes down leaves the live set. -/
theorem scaleupLinkDown_happens (h : portStep s (.scaleupLinkDown port) = some t) : exec (.scaleupLinkDown port) s = .next t := by
  obtain ⟨hlive, rfl⟩ := onlyIf_eq h
  rw [exec_scaleupLinkDown, execScaleupLinkDown, hlive, if_neg (by decide)]
  rfl

/-! ### Error sites (R94, R151, R313, R433, R435, R436) -/

/-- An error at a site of the module is corrected and counted, or kept with its place. -/
theorem softError_happens {site : ErrSite} {multi : Bool} (h : portStep s (.softError site multi) = some t) : exec (.softError site multi) s = .next t := by
  rw [exec_softError]
  cases site with
  | hbm loc =>
    obtain ⟨hloc, rfl⟩ := onlyIf_eq h
    refine (if_neg hloc.not_ge).trans ?_
    cases multi <;> rfl
  | ulm n a =>
    obtain ⟨⟨hcore, haddr⟩, rfl⟩ := onlyIf_eq h
    refine (if_neg (not_or.mpr ⟨hcore.not_ge, haddr.not_ge⟩)).trans ?_
    cases multi <;> rfl
  | check n a =>
    obtain ⟨⟨hcore, haddr⟩, rfl⟩ := onlyIf_eq h
    exact congrArg _ (if_neg (not_or.mpr ⟨hcore.not_ge, haddr.not_ge⟩))
  | exit p =>
    obtain ⟨hsound, rfl⟩ := onlyIf_eq h
    exact congrArg _ (if_neg (ne_true_of_eq_false hsound))
  | reg n home =>
    obtain ⟨hcore, rfl⟩ := onlyIf_eq h
    refine (if_neg hcore.not_ge).trans ?_
    cases multi
    · rfl
    · cases hbad : (s.core n).regBad.contains home
      · rw [if_neg Bool.false_ne_true, if_neg (by decide), if_neg (by decide), State.modCore, hbad]
        rfl
      · have hmarked : s.core n ≠ {} := fun hreset => by simp [hreset] at hbad
        have hkept : (s.modCore n fun c => if c.regBad.contains home then c else { c with regBad := home :: c.regBad }) = s := by
          rw [State.modCore, hbad, if_pos rfl, State.setCore_core_of_ne hmarked]
        exact congrArg Host.Outcome.next hkept
  | answer n id =>
    obtain ⟨va, hflight, rfl⟩ := Option.map_eq_some_iff.mp h
    simp only [execSoftError, hflight]
  | siding | tables | packet | beat => exact congrArg _ (Option.some.inj h)

/-! ### The kernel's harts (R280, R382, R435, R441) -/

/-- A hart is a party of its own, whose access waits for a page in transit. -/
theorem kernelHartAccess_happens {hart : Nat} {op : HartOp} (h : portStep s (.kernelHartAccess hart op) = some t) :
    exec (.kernelHartAccess hart op) s = .next t := by
  rw [exec_kernelHartAccess]
  obtain ⟨hacts, h⟩ := ite_none h
  refine (if_neg hacts).trans ?_
  cases op with
  | fence => exact congrArg _ (Option.some.inj h)
  | store asid va bs =>
    obtain ⟨locs, hplaces, rfl⟩ := Option.map_eq_some_iff.mp h
    simp only [hplaces]
  | load asid va n =>
    cases hplaces : s.hartPlaces asid va 0 n with
    | none => 
      simp only [hplaces] at h ⊢
      exact congrArg _ (Option.some.inj h)
    | some locs => 
      simp only [hplaces] at h ⊢
      split at h
      next hheld => rw [if_pos hheld]; exact congrArg _ (Option.some.inj h)
      next hfree =>
        rw [if_neg hfree]
        split at h
        next hbad => rw [if_pos hbad]; exact congrArg _ (Option.some.inj h)
        next hsound => rw [if_neg hsound]; exact congrArg _ (Option.some.inj h)

end

/-- Settles O57: step by step, the conditions of the table choose the branch of the step that it describes. The 2^36 place of the control space, the
numbers of units and parties, what a host may write there, and a hart's access to a bad byte are the model's choices (log entries 29, 86, 89, 99 and
140). -/
theorem portSteps : Obligations.PortSteps := by
  intro s i t h
  cases i
  case hostWindowWrite => exact hostWindowWrite_happens h
  case hostWindowRead => exact hostWindowRead_happens h
  case hostLinkTrain => exact hostLinkTrain_happens h
  case cxlSnoop | linkFlitRetry | linkRetrain | scrub => exact congrArg _ (Option.some.inj h)
  case scaleupLinkDown => exact scaleupLinkDown_happens h
  case softError => exact softError_happens h
  case kernelHartAccess => exact kernelHartAccess_happens h
  all_goals exact absurd h (Option.some_ne_none t).symm

end Sys2Proof.Slice0
end

section
/-!
SUPPORT. What the functions of the model that write no global memory leave: each gives a state with the same global memory (R276).
-/

namespace Sys2Proof.Machine
open Sys2Proof.Slice0
@[simp] theorem foldl_home {α : Type} {f : State → α → State} (hf : ∀ s a, (f s a).home = s.home) (l : List α) (s : State) :
    (l.foldl f s).home = s.home := foldl_keeps State.home hf l s
@[simp] theorem State.setTile_home (s : State) (n : Nat) (t : Tile) : (State.setTile s n t).home = s.home := rfl
@[simp] theorem State.modTile_home (s : State) (n : Nat) (f : Tile → Tile) : (State.modTile s n f).home = s.home := rfl
@[simp] theorem State.post_home (s : State) (e : Ev) : (State.post s e).home = s.home := rfl
@[simp] theorem State.postpone_home (s : State) (e : Ev) : (State.postpone s e).home = s.home := rfl
@[simp] theorem State.soon_home (s : State) (e : Ev) : (State.soon s e).home = s.home := by
  unfold State.soon
  split <;> rfl
@[simp] theorem State.report_home (s : State) (kind subject : Nat) : (State.report s kind subject).home = s.home := rfl
@[simp] theorem disbandGang_home (s : State) (core : Nat) : (disbandGang s core).home = s.home := by
  unfold disbandGang
  split
  · rfl
  · exact foldl_keeps State.home (fun s p => by (repeat' split) <;> rfl) _ _
@[simp] theorem State.silence_home (s : State) (core : Nat) : (State.silence s core).home = s.home := rfl
@[simp] theorem State.endTimetable_home (s : State) : (State.endTimetable s).home = s.home := rfl
@[simp] theorem forward_home (s : State) (x : Ctx) (w : Insn) : (forward s x w).home = s.home := by
  unfold forward
  split <;> rfl
@[simp] theorem commit_home (s : State) (x : Ctx) (i : Instr) (n : BitVec 3) (next : Word) (keep : Bool) :
    (commit s x i n next keep).home = s.home := by
  unfold commit
  dsimp only
  (repeat' split) <;> simp
@[simp] theorem standing_home (s : State) (x : Ctx) (n : BitVec 3) (why : Why) (stuck : Bool) : (standing s x n why stuck).home = s.home := rfl
@[simp] theorem holding_home (s s' : State) (x : Ctx) (n : BitVec 3) : (holding s s' x n).home = s'.home := rfl
@[simp] theorem runningOn_home (s s' : State) (x : Ctx) : (runningOn s s' x).home = s'.home := rfl
@[simp] theorem waits_home (s : State) (x : Ctx) (n : BitVec 3) (eff : Ctx → DM Next) (w : Why) : (waits s x n eff w).home = s.home := rfl
@[simp] theorem State.landDevice_home (s : State) (core : Nat) : (State.landDevice s core).home = s.home := by
  unfold State.landDevice
  dsimp only
  (repeat' split) <;> simp
@[simp] theorem deviceDeposit_home (s : State) (core : Nat) (v : Word) : (deviceDeposit s core v).home = s.home := by
  unfold deviceDeposit
  dsimp only
  (repeat' split) <;> simp
@[simp] theorem State.machineCheck_home (s : State) (kind unit : Nat) : (State.machineCheck s kind unit).home = s.home := rfl
@[simp] theorem State.modContestant_home (s : State) (scope idx : Nat) (f : Contestant → Contestant) :
    (State.modContestant s scope idx f).home = s.home := rfl
@[simp] theorem State.acquire_home (s : State) (core sc : Nat) : (State.acquire s core sc).home = s.home := rfl
@[simp] theorem State.noteRead_home (s : State) (core loc h : Nat) (known : List Nat) : (State.noteRead s core loc h known).home = s.home := by
  unfold State.noteRead
  dsimp only
  (repeat' split) <;> simp
@[simp] theorem State.noteBack_home (s : State) (core loc n : Nat) : (State.noteBack s core loc n).home = s.home := by
  unfold State.noteBack
  dsimp only
  (repeat' split) <;> simp
@[simp] theorem State.readHome_home (s : State) (core loc n : Nat) : (State.readHome s core loc n).2.home = s.home := by
  unfold State.readHome
  dsimp only
  (repeat' split) <;> simp
@[simp] theorem State.setSideBad_home (s : State) (core : Nat) (f : List Nat → List Nat) : (State.setSideBad s core f).home = s.home := by
  unfold State.setSideBad
  split <;> rfl
@[simp] theorem State.unpoisonAll_home (s : State) (locs : List Nat) : (State.unpoisonAll s locs).home = s.home := rfl
@[simp] theorem State.holdDevice_home (s : State) (asid va kind : Nat) (f : WalkFault) : (State.holdDevice s asid va kind f).home = s.home := by
  unfold State.holdDevice
  split <;> rfl
@[simp] theorem State.invalidate_home (s : State) (kind : Nat) (operand : Word) : (State.invalidate s kind operand).home = s.home := rfl
@[simp] theorem State.setTileMap_home (s : State) (t : Nat) (m : TileMap) : (State.setTileMap s t m).home = s.home := rfl
@[simp] theorem State.modCmd_home (s : State) (core id : Nat) (f : Cmd → Cmd) : (State.modCmd s core id f).home = s.home := rfl
@[simp] theorem State.kickMat_home (s : State) (core : Nat) : (State.kickMat s core).home = s.home := rfl
@[simp] theorem State.unstage_home (s : State) (core id : Nat) : (State.unstage s core id).home = s.home := by
  unfold State.unstage
  split <;> rfl
@[simp] theorem State.endCmd_home (s : State) (core id : Nat) (status : Int) (who addr : Nat) :
    (State.endCmd s core id status who addr).home = s.home := by
  unfold State.endCmd
  (repeat' split) <;> simp
@[simp] theorem State.endCmdWith_home (s : State) (core id : Nat) (v : Word) : (State.endCmdWith s core id v).home = s.home := by
  unfold State.endCmdWith
  simp
@[simp] theorem State.noteDetached_home (s : State) (asid : Nat) (k : Cmd) : (State.noteDetached s asid k).home = s.home := by
  unfold State.noteDetached
  dsimp only
  (repeat' split) <;> simp
@[simp] theorem State.askSolve_home (s : State) (core reg : Nat) : (State.askSolve s core reg).home = s.home := rfl
@[simp] theorem State.capture_home (s : State) (core reg version : Nat) : (State.capture s core reg version).home = s.home := rfl
@[simp] theorem State.dropRequests_home (s : State) (core : Nat) : (State.dropRequests s core).home = s.home := rfl
@[simp] theorem State.stageCopy_home (s : State) (core id : Nat) : ∀ t, State.stageCopy s core id = some t → t.home = s.home := by
  unfold State.stageCopy
  split <;> simp
@[simp] theorem State.enterNet_home (s : State) (p : Packet) (first : Nat → Ev) : (State.enterNet s p first).home = s.home := rfl
@[simp] theorem State.inject_home (s : State) (p : Packet) : (State.inject s p).home = s.home := rfl
@[simp] theorem State.takeSeq_home (s : State) (src dst : Nat) : (State.takeSeq s src dst).2.home = s.home := rfl
@[simp] theorem State.sendAs_home (s : State) (k : Send) (num : Option Nat) : (State.sendAs s k num).home = s.home := rfl
@[simp] theorem State.send_home (s : State) (k : Send) : (State.send s k).home = s.home := by
  unfold State.send
  split <;> rfl
@[simp] theorem State.sendLeaves_home (s : State) (src : Nat) (asid : BitVec 12) (leaves : List TreeDest) (data : List Byte) :
    (State.sendLeaves s src asid leaves data).home = s.home := by
  unfold State.sendLeaves
  split <;> rfl
@[simp] theorem State.sendTree_home (s : State) (src : Nat) (asid : BitVec 12) (leaves : List TreeDest) (data : List Byte) :
    (State.sendTree s src asid leaves data).home = s.home := by
  simp only [State.sendTree, State.sendLeaves_home]
  exact foldl_keeps (fun r : State × List TreeDest => r.1.home) (fun _ _ => by rfl) _ _
@[simp] theorem State.modPacket_home (s : State) (id : Nat) (f : Packet → Packet) : (State.modPacket s id f).home = s.home := rfl
@[simp] theorem State.movePacket_home (s : State) (id : Nat) (f : Packet → Packet) : (State.movePacket s id f).home = s.home := rfl
@[simp] theorem State.dropPacket_home (s : State) (id : Nat) : (State.dropPacket s id).home = s.home := rfl
@[simp] theorem State.noteRefused_home (s : State) (core : Nat) : (State.noteRefused s core).home = s.home := rfl
@[simp] theorem State.ack_home (s : State) (core id idx : Nat) (status : Int) (who addr : Nat) :
    (State.ack s core id idx status who addr).home = s.home := by
  unfold State.ack
  dsimp only
  (repeat' split) <;> simp
@[simp] theorem State.respond_home (s : State) (p : Packet) (pay : Payload) : (State.respond s p pay).home = s.home := rfl
@[simp] theorem State.answer_home (s : State) (p : Packet) (status : Int) : (State.answer s p status).home = s.home := rfl
@[simp] theorem State.refuse_home (s : State) (p : Packet) (phase how : Nat) : (State.refuse s p phase how).home = s.home := rfl
@[simp] theorem State.setRed_home (s : State) (key : Nat) (r : Reduction) : (State.setRed s key r).home = s.home := rfl
@[simp] theorem State.handOut_home (s : State) (asid grp tag : Nat) (r : Reduction) : (State.handOut s asid grp tag r).home = s.home := by
  unfold State.handOut
  simp
@[simp] theorem State.dropParts_home (s : State) (asid grp tag : Nat) : (State.dropParts s asid grp tag).home = s.home := rfl
@[simp] theorem State.endRed_home (s : State) (asid grp tag how : Nat) (r : Reduction) : (State.endRed s asid grp tag how r).home = s.home := by
  unfold State.endRed
  simp
@[simp] theorem State.resultDone_home (s : State) (p : Packet) (grp tag rank : Nat) (status : Int) :
    (State.resultDone s p grp tag rank status).home = s.home := by
  unfold State.resultDone
  exact foldl_keeps State.home (fun s w => by split <;> simp) _ _
@[simp] theorem State.lostRanks_home (s : State) (p : Packet) (asid grp tag : Nat) (ranks : List Nat) :
    (State.lostRanks s p asid grp tag ranks).home = s.home := by
  unfold State.lostRanks
  exact foldl_keeps State.home (fun s w => by rfl) _ _
@[simp] theorem landRemote_home (s : State) (n a : Nat) (bs : List Byte) : (landRemote s n a bs).2.home = s.home := by
  unfold landRemote
  dsimp only
  (repeat' split) <;> simp
@[simp] theorem postArrival_home (s : State) (n : Nat) (post : Option Nat) : (postArrival s n post).home = s.home := by
  unfold postArrival
  split <;> rfl
@[simp] theorem landPosted_home (s : State) (n a : Nat) (bs : List Byte) (post : Option Nat) : (landPosted s n a bs post).2.home = s.home := by
  unfold landPosted
  dsimp only
  (repeat' split) <;> simp
@[simp] theorem landWrite_home (s : State) (p : Packet) (n kind a : Nat) (bs : List Byte) (post : Option Nat) :
    (landWrite s p n kind a bs post).2.home = s.home := by
  unfold landWrite
  (repeat' split) <;> simp
@[simp] theorem State.advanceFlow_home (s : State) (p : Packet) : (State.advanceFlow s p).home = s.home := by
  unfold State.advanceFlow
  dsimp only
  (repeat' split) <;> simp
@[simp] theorem State.settle_home (s : State) (p : Packet) (status : Int) : (State.settle s p status).home = s.home := by
  unfold State.settle
  simp
@[simp] theorem State.passNumber_home (s : State) (src dst n : Nat) : (State.passNumber s src dst n).home = s.home := by
  unfold State.passNumber
  dsimp only
  (repeat' split) <;> simp
@[simp] theorem State.passNumbers_home (s : State) (core : Nat) (k : Cmd) : (State.passNumbers s core k).home = s.home := by
  unfold State.passNumbers
  split <;> simp
@[simp] theorem State.lose_home (s : State) (p : Packet) : (State.lose s p).home = s.home := by
  unfold State.lose
  (repeat' split) <;> simp
@[simp] theorem State.forward_home (s : State) (p : Packet) (site : Nat) : (State.forward s p site).home = s.home := rfl
@[simp] theorem State.nobody_home (s : State) (p : Packet) : (State.nobody s p).home = s.home := by
  unfold State.nobody
  split <;> simp
@[simp] theorem State.landDepositPacket_home (s : State) (p : Packet) (n reg : Nat) (v : Word) (own sawFull : Bool) :
    (State.landDepositPacket s p n reg v own sawFull).home = s.home := by
  unfold State.landDepositPacket
  dsimp only
  (repeat' split) <;> simp
@[simp] theorem State.landLatch_home (s : State) (n : Nat) : (State.landLatch s n).home = s.home := by
  unfold State.landLatch
  dsimp only
  (repeat' split) <;> simp
@[simp] theorem State.reached_home (s : State) (core cmd : Nat) : (State.reached s core cmd).home = s.home := by
  unfold State.reached
  split <;> rfl
@[simp] theorem State.landPage_home (s : State) (p : Packet) (core cmd page : Nat) : (State.landPage s p core cmd page).home = s.home := by
  unfold State.landPage
  dsimp only
  (repeat' split) <;> simp
@[simp] theorem State.sendPage_home (s : State) (core cmd page : Nat) : (State.sendPage s core cmd page).home = s.home := by
  unfold State.sendPage
  split <;> simp
@[simp] theorem State.nacked_home (s : State) (pkt how : Nat) (g : BitVec 16) : (State.nacked s pkt how g).home = s.home := rfl
@[simp] theorem resend_home (s : State) (pkt : Nat) (again : Ev) : (resend s pkt again).home = s.home := by
  unfold resend
  (repeat' split) <;> rfl
@[simp] theorem State.syncCopy_home (s : State) (station : Nat) : (State.syncCopy s station).home = s.home := rfl
@[simp] theorem State.hop_home (s : State) (p : Packet) : (State.hop s p).home = s.home := by
  unfold State.hop
  dsimp only
  (repeat' split) <;> simp
@[simp] theorem State.branch_home (s : State) (p : Packet) (leaves : List TreeDest) (data : List Byte) :
    (State.branch s p leaves data).home = s.home := by
  unfold State.branch
  dsimp only
  split
  · rfl
  · split
    · simp
    · exact (foldl_keeps State.home (fun s ls => by split <;> simp) _ _).trans (foldl_keeps State.home (fun _ _ => by rfl) _ _)
@[simp] theorem State.reserve_home (s : State) (core id dst : Nat) : (State.reserve s core id dst).2.home = s.home := by
  unfold State.reserve
  split <;> rfl
@[simp] theorem State.remoteWrite_home (s : State) (k : Send) : (State.remoteWrite s k).home = s.home := by
  unfold State.remoteWrite
  (repeat' split) <;> simp
@[simp] theorem State.armCmd_home (s : State) (core id packets : Nat) : (State.armCmd s core id packets).home = s.home := rfl
@[simp] theorem State.multicast_home (s : State) (core id : Nat) (daddr : Nat) (post : Option Nat) (dests : List (Nat × Nat × Option Nat))
    (bs : List Byte) : (State.multicast s core id daddr post dests bs).home = s.home := by
  unfold State.multicast
  simp
@[simp] theorem State.reserveAll_home (s : State) (core id : Nat) (dests : List (Nat × Nat)) :
    (State.reserveAll s core id dests).2.home = s.home := by
  unfold State.reserveAll
  exact foldl_keeps (fun r : List (Nat × Nat × Option Nat) × State => r.2.home) (fun r d => by simp) _ _
@[simp] theorem State.sendSource_home (s : State) (core id : Nat) : (State.sendSource s core id).home = s.home := by
  unfold State.sendSource
  dsimp only
  (repeat' split) <;> simp
@[simp] theorem State.flushComb_home (s : State) (e : Comb) : (State.flushComb s e).home = s.home := by
  unfold State.flushComb
  dsimp only
  (repeat' split) <;> simp
@[simp] theorem State.contribute_home (s : State) (p : Packet) (asid grp tag op ty len : Nat) (bs : List Byte) (ranks : List Nat) :
    (State.contribute s p asid grp tag op ty len bs ranks).home = s.home := by
  unfold State.contribute
  dsimp only
  (repeat' split) <;> simp
@[simp] theorem State.recheckReds_home (s : State) (asid grp : Nat) : (State.recheckReds s asid grp).home = s.home := by
  unfold State.recheckReds
  exact (foldl_keeps State.home (fun s p => by (repeat' split) <;> simp [apply_ite State.home]) _ _).trans (foldl_keeps State.home (by simp) _ _)
@[simp] theorem State.parkCombs_home (s : State) (site : Nat) : (State.parkCombs s site).home = s.home := rfl
@[simp] theorem State.modPipe_home (s : State) (asid grp : Nat) (f : Pipe → Pipe) : (State.modPipe s asid grp f).home = s.home := rfl
@[simp] theorem State.modRing_home (s : State) (asid grp j : Nat) (f : Ring → Ring) : (State.modRing s asid grp j f).home = s.home := rfl
@[simp] theorem State.freeSlot_home (s : State) (asid grp j i : Nat) : (State.freeSlot s asid grp j i).home = s.home := rfl
@[simp] theorem State.ringCount_home (s : State) (asid va n : Nat) : (State.ringCount s asid va n).home = s.home := by
  unfold State.ringCount
  dsimp only
  (repeat' split) <;> simp
@[simp] theorem State.ringRead_home (s : State) (core va n : Nat) : (State.ringRead s core va n).home = s.home := by
  unfold State.ringRead
  dsimp only
  (repeat' split) <;> simp
@[simp] theorem State.hold_home (s : State) (core id va kind : Nat) (f : WalkFault) : (State.hold s core id va kind f).home = s.home := by
  unfold State.hold
  dsimp only
  (repeat' split) <;> simp
@[simp] theorem State.accessWaits_home (s : State) (core : Nat) (k : Cmd) : ∀ t, State.accessWaits s core k = some t → t.home = s.home := by
  unfold State.accessWaits
  (repeat' split) <;> simp
@[simp] theorem State.dropFaults_home (s : State) (core : Nat) : (State.dropFaults s core).home = s.home := rfl
@[simp] theorem State.freshWalk_home (s : State) (station asid : Nat) : (State.freshWalk s station asid).home = s.home := rfl
@[simp] theorem State.answerPacket_home (s : State) (core id err : Nat) : (State.answerPacket s core id err).home = s.home := rfl
@[simp] theorem State.copyBegin_home (s : State) (core id : Nat) (rel empty : Bool) : (State.copyBegin s core id rel empty).home = s.home := by
  unfold State.copyBegin
  (repeat' split) <;> simp
@[simp] theorem State.unpoison_home (s : State) (core : Nat) (sided : Bool) (loc n : Nat) : (State.unpoison s core sided loc n).home = s.home := by
  unfold State.unpoison
  (repeat' split) <;> simp
@[simp] theorem State.copyStep_home (s : State) (core : Nat) (k : Cmd) (off n : Nat) : (State.copyStep s core k off n).home = s.home := by
  unfold State.copyStep
  dsimp only
  (repeat' split) <;> simp
@[simp] theorem State.dropFence_home (s : State) (core id : Nat) : (State.dropFence s core id).home = s.home := rfl
@[simp] theorem State.setBar_home (s : State) (asid grp : Nat) (b : Barrier) : (State.setBar s asid grp b).home = s.home := rfl
@[simp] theorem State.resizeSlots_home (s : State) (asid grp size : Nat) :
    (State.resizeSlots s asid grp size).home = s.home := foldl_keeps State.home (fun _ _ => by rfl) _ _
@[simp] theorem State.checkBar_home (s : State) (asid grp : Nat) : (State.checkBar s asid grp).home = s.home := by
  unfold State.checkBar
  dsimp only
  split
  · rfl
  · rw [State.setBar_home]
    split
    · exact (State.resizeSlots_home ..).trans (foldl_keeps State.home (fun _ _ => by rfl) _ _)
    · exact foldl_keeps State.home (fun _ _ => by rfl) _ _
@[simp] theorem State.resize_home (s : State) (asid grp old new : Nat) : (State.resize s asid grp old new).home = s.home := by
  unfold State.resize
  dsimp only
  (repeat' split) <;> simp
@[simp] theorem State.depart_home (s : State) (core : Nat) :
    (State.depart s core).home = s.home := foldl_keeps State.home (fun s i => by dsimp only; split <;> simp) _ _
@[simp] theorem State.gangGo_home (s : State) (leader : Nat) : (State.gangGo s leader).home = s.home := foldl_keeps State.home (fun _ _ => by rfl) _ _
@[simp] theorem State.setGangs_home (s : State) (ms : List Nat) (r : Nat) :
    (State.setGangs s ms r).home = s.home := foldl_keeps State.home (fun _ _ => by rfl) _ _
@[simp] theorem State.latchBeat_home (s : State) (core track t : Nat) : (State.latchBeat s core track t).2.home = s.home := by
  unfold State.latchBeat
  dsimp only
  (repeat' split) <;> rfl
@[simp] theorem State.latchBeats_home (s : State) (core track t k i : Nat) (v : Vec) (m : Marks) :
    (State.latchBeats s core track t k i v m).2.home = s.home := by
  induction k generalizing s i v m with
  | zero => rfl
  | succ k ih => exact (ih ..).trans (State.latchBeat_home ..)
@[simp] theorem State.resolveSel_home (s : State) (core : Nat) (w : Sel) : (State.resolveSel s core w).home = s.home := by
  unfold State.resolveSel
  split
  · rfl
  · exact State.latchBeats_home ..
@[simp] theorem State.latchDue_home (s : State) (core : Nat) : ∀ r, (State.latchDue s core r).home = s.home := by
  intro k
  induction k generalizing s with
  | zero => rfl
  | succ k ih =>
    unfold State.latchDue
    (repeat' split) <;> simp [ih]
@[simp] theorem State.clearBeats_home (s : State) (block : Nat) : (State.clearBeats s block).home = s.home := by
  unfold State.clearBeats
  split <;> rfl
@[simp] theorem State.startAt_home (s : State) (core pa pe : Nat) : (State.startAt s core pa pe).home = s.home := rfl
@[simp] theorem State.modDom_home (s : State) (asid grp : Nat) (f : Domain → Domain) : (State.modDom s asid grp f).home = s.home := rfl
@[simp] theorem State.setRec_home (s : State) (asid idx : Nat) (r : Option ContRec) : (State.setRec s asid idx r).home = s.home := rfl
@[simp] theorem State.abortTask_home (s : State) (core : Nat) : (State.abortTask s core).home = s.home := by
  unfold State.abortTask
  dsimp only
  (repeat' split) <;> simp
@[simp] theorem State.dropRunner_home (s : State) (core : Nat) :
    (State.dropRunner s core).home = s.home := foldl_keeps State.home (fun s d => by split <;> rfl) _ _
@[simp] theorem State.dropClaims_home (s : State) (core : Nat) : (State.dropClaims s core).home = s.home := by
  unfold State.dropClaims
  dsimp only
  (repeat' split) <;> simp
@[simp] theorem State.withdrawClaims_home (s : State) (core : Nat) : (State.withdrawClaims s core).home = s.home := by
  unfold State.withdrawClaims
  simp
@[simp] theorem State.modQueue_home (s : State) (q : Nat) (f : Queue → Queue) : (State.modQueue s q f).home = s.home := rfl
@[simp] theorem State.endOf_home (s : State) (core scope : Nat) : (State.endOf s core scope).home = s.home := by
  have hq : ∀ (s : State) (q : Nat × Queue), ((q.2.pkts.filter fun p => p.cores.contains core).foldl (fun s p => s.post (.packetComplete q.1 p.seqno))
      (s.modQueue q.1 fun d => { d with pkts := d.pkts.map fun p => p.without core })).home = s.home :=
    fun s q => foldl_keeps State.home (fun _ _ => by rfl) _ _
  unfold State.endOf
  dsimp only
  split <;> exact foldl_keeps State.home hq _ _
@[simp] theorem State.coreDone_home (s : State) (core logical : Nat) : (State.coreDone s core logical).home = s.home := by
  unfold State.coreDone
  dsimp only
  (repeat' split) <;> simp
@[simp] theorem State.rename_home (s : State) (a b : Nat) : (State.rename s a b).home = s.home := rfl
@[simp] theorem State.leaveSite_home (s : State) (core : Nat) : (State.leaveSite s core).home = s.home := rfl
@[simp] theorem State.killEvicted_home (s : State) (logical : Nat) : (State.killEvicted s logical).home = s.home := by
  unfold State.killEvicted
  split <;> simp
@[simp] theorem State.unparkAll_home (s : State) (ms : List Nat) :
    (State.unparkAll s ms).home = s.home := foldl_keeps State.home (fun _ _ => by rfl) _ _
@[simp] theorem State.parkStep_home (s : State) (core : Nat) (st : Strm) : ∀ t, State.parkStep s core st = some t → t.home = s.home := by
  unfold State.parkStep
  dsimp only
  (repeat' split) <;> simp
@[simp] theorem State.stallStep_home (s : State) (core : Nat) (st : Strm) : ∀ t, State.stallStep s core st = some t → t.home = s.home := by
  unfold State.stallStep
  dsimp only
  (repeat' split) <;> simp
@[simp] theorem State.holdLatch_home (s : State) (core : Nat) : (State.holdLatch s core).home = s.home := by
  unfold State.holdLatch
  split <;> rfl
@[simp] theorem State.forwardHeld_home (s : State) (logical : Nat) :
    (State.forwardHeld s logical).home = s.home := foldl_keeps State.home (fun _ _ => by rfl) _ _
@[simp] theorem State.rejoin_home (s : State) (core : Nat) : (State.rejoin s core).home = s.home := by
  unfold State.rejoin
  dsimp only
  (repeat' split) <;> simp
@[simp] theorem State.notice_home (s : State) (core : Nat) (v : Word) : (State.notice s core v).home = s.home := by
  unfold State.notice
  split <;> simp
@[simp] theorem State.startRecast_home (s : State) (t from_ to_ now : Nat) : (State.startRecast s t from_ to_ now).home = s.home := by
  unfold State.startRecast
  simp
@[simp] theorem State.spare_home (s : State) (t from_ to_ : Nat) : (State.spare s t from_ to_).home = s.home := by
  unfold State.spare
  simp
@[simp] theorem State.donateFrom_home (s : State) (die role target now : Nat) : (State.donateFrom s die role target now).1.home = s.home := by
  unfold State.donateFrom
  dsimp only
  (repeat' split) <;> simp
@[simp] theorem State.donate_home (s : State) (die target now : Nat) : ∀ r, (State.donate s die target now r).home = s.home := by
  intro ys
  induction ys generalizing s with
  | nil => rfl
  | cons y r ih =>
    unfold State.donate
    dsimp only
    split <;> simp [ih]
@[simp] theorem State.censusDie_home (s : State) (die now : Nat) : (State.censusDie s die now).home = s.home := by
  unfold State.censusDie
  dsimp only
  (repeat' split) <;> simp
@[simp] theorem State.lapse_home (s : State) : (State.lapse s).home = s.home := rfl
@[simp] theorem resetCore_home (s : State) (n : Nat) : (resetCore s n).home = s.home := rfl
@[simp] theorem State.moveSaved_home (s : State) (from_ to_ : Nat) : (State.moveSaved s from_ to_).home = s.home := by
  unfold State.moveSaved
  split <;> simp
@[simp] theorem State.migrateTile_home (s : State) (t u to_ : Nat) (g : BitVec 16) : (State.migrateTile s t u to_ g).home = s.home := by
  unfold State.migrateTile
  exact (foldl_keeps State.home (fun _ _ => by rfl) _ _).trans (foldl_keeps State.home (fun s i => by simp) _ _)
@[simp] theorem State.endTransit_home (s : State) (page home site : Nat) : (State.endTransit s page home site).home = s.home := by
  unfold State.endTransit
  exact foldl_keeps State.home (fun s p => by split <;> simp) _ _
@[simp] theorem State.putLease_home (s : State) (l : Lease) : (State.putLease s l).home = s.home := by
  unfold State.putLease
  simp
@[simp] theorem State.lease_home (s : State) (asid holder first count dur : Nat) : (State.lease s asid holder first count dur).2.home = s.home := by
  unfold State.lease
  dsimp only
  (repeat' split) <;> simp
@[simp] theorem State.renew_home (s : State) (asid holder handle dur : Nat) : (State.renew s asid holder handle dur).2.home = s.home := by
  unfold State.renew
  dsimp only
  (repeat' split) <;> simp
@[simp] theorem State.ldrop_home (s : State) (asid handle : Nat) : (State.ldrop s asid handle).2.home = s.home := by
  unfold State.ldrop
  dsimp only
  (repeat' split) <;> simp
@[simp] theorem State.setJoins_home (s : State) (js : List (Nat × JoinWait)) (r : Option Nat) :
    (State.setJoins s js r).home = s.home := foldl_keeps State.home (fun _ _ => by rfl) _ _
@[simp] theorem State.joinMultiply_home (s : State) (joint : Store Byte × Store Byte) (p : Nat × JoinWait) :
    (State.joinMultiply s joint p).home = s.home := rfl
@[simp] theorem State.endRots_home (s : State) (tile : Nat) (rs : List (Nat × Nat × Nat × Nat × Nat)) (st : Int) (who addr : Nat) :
    (State.endRots s tile rs st who addr).home = s.home := by
  unfold State.endRots
  dsimp only
  (repeat' split) <;> simp
@[simp] theorem State.remember_home (s : State) (key : BitVec 384) (objs : List Obj) : (State.remember s key objs).home = s.home := rfl
@[simp] theorem State.becomeRunner_home (s : State) (core grp : Nat) : (State.becomeRunner s core grp).home = s.home := rfl
@[simp] theorem State.giveRecord_home (s : State) (asid grp core idx : Nat) (r : ContRec) :
    (State.giveRecord s asid grp core idx r).home = s.home := rfl
@[simp] theorem State.failRecord_home (s : State) (asid grp core idx : Nat) : (State.failRecord s asid grp core idx).home = s.home := rfl
@[simp] theorem State.sendHeld_home (s : State) (core : Nat) (rs : List (Nat × Nat × Nat × List Byte × Option Nat)) :
    (State.sendHeld s core rs).home = s.home := foldl_keeps State.home (fun s r => by split <;> simp) _ _
@[simp] theorem State.freeTask_home (s : State) (asid idx : Nat) : (State.freeTask s asid idx).home = s.home := by
  unfold State.freeTask
  split <;> rfl
@[simp] theorem State.failTask_home (s : State) (core : Nat) : (State.failTask s core).home = s.home := by
  unfold State.failTask
  dsimp only
  (repeat' split) <;> simp
@[simp] theorem State.regrant_home (s : State) (asid grp j : Nat) : (State.regrant s asid grp j).home = s.home := rfl
@[simp] theorem State.grantProd_home (s : State) (asid grp j : Nat) : (State.grantProd s asid grp j).home = s.home := by
  unfold State.grantProd
  dsimp only
  (repeat' split) <;> simp
@[simp] theorem State.closeRing_home (s : State) (asid grp j : Nat) : (State.closeRing s asid grp j).home = s.home := by
  unfold State.closeRing
  dsimp only
  (repeat' split) <;> simp
@[simp] theorem State.markMove_home (s : State) (asid grp : Nat) (p : Pipe) (k to_ : Nat) : (State.markMove s asid grp p k to_).home = s.home := by
  unfold State.markMove
  dsimp only
  (repeat' split) <;> simp
@[simp] theorem State.shunt_home (s : State) (asid grp : Nat) (p : Pipe) (j : Nat) : (State.shunt s asid grp p j).home = s.home := by
  unfold State.shunt
  dsimp only
  (repeat' split) <;> simp
@[simp] theorem State.setCoreUp_home (s : State) (core asid logical grp rank epoch size : Nat) (m : Image) (params : List (Nat × Word))
    (geo seed : Word) : (State.setCoreUp s core asid logical grp rank epoch size m params geo seed).home = s.home := rfl
@[simp] theorem State.modScope_home (s : State) (id : Nat) (f : Scope → Scope) : (State.modScope s id f).home = s.home := rfl
@[simp] theorem State.stopRound_home (s : State) (ms : List Nat) : (State.stopRound s ms).home = s.home := by
  have hs :=
    foldl_keeps State.home (l := ms) (fun s m => State.modCore_home s m fun c => { c with roundStop := true, ctl :=
      { c.ctl with allowStop := false } }) s
  unfold State.stopRound
  dsimp only
  (repeat' split) <;> exact hs
@[simp] theorem State.failContestant_home (s : State) (core : Nat) : ∀ t, State.failContestant s core = some t → t.home = s.home := by
  unfold State.failContestant
  dsimp only
  (repeat' split) <;> simp
@[simp] theorem State.modMember_home (s : State) (m : Nat) (f : Core → Core) : (State.modMember s m f).home = s.home := by
  unfold State.modMember
  (repeat' split) <;> rfl
@[simp] theorem State.giveShares_home (s : State) (allowance : Nat) (t : Contestant) : (State.giveShares s allowance t).home = s.home := by
  unfold State.giveShares
  simp
@[simp] theorem State.endMember_home (s : State) (core : Nat) : (State.endMember s core).home = s.home := by
  unfold State.endMember
  simp
@[simp] theorem State.endNamed_home (s : State) (m : Nat) : (State.endNamed s m).home = s.home := by
  unfold State.endNamed
  (repeat' split) <;> simp
@[simp] theorem State.saveGang_home (s : State) (ms : List Nat) : (State.saveGang s ms).home = s.home := by
  unfold State.saveGang
  refine (foldl_keeps State.home (fun _ _ => by rfl) _ _).trans ((State.unparkAll_home ..).trans ?_)
  (repeat' split) <;> simp
@[simp] theorem State.ctlPut_home (s : State) (v : Word) : ∀ r, (State.ctlPut s v r).home = s.home := by
  intro r
  cases r <;> rfl
@[simp] theorem State.modPkt_home (s : State) (q id : Nat) (f : QPacket → QPacket) : (State.modPkt s q id f).home = s.home := rfl
@[simp] theorem State.failPkt_home (s : State) (q id err : Nat) : (State.failPkt s q id err).home = s.home := by
  unfold State.failPkt
  dsimp only
  (repeat' split) <;> simp
@[simp] theorem State.faultPkt_home (s : State) (q id va kind : Nat) (f : WalkFault) : (State.faultPkt s q id va kind f).home = s.home := rfl
@[simp] theorem State.stopPkt_home (s : State) (q id : Nat) : ∀ r, (State.stopPkt s q id r).home = s.home := by
  intro r
  cases r <;> simp [State.stopPkt, apply_ite State.home]
@[simp] theorem State.schedule_home (s : State) (q : Nat) : (State.schedule s q).home = s.home := by
  unfold State.schedule
  dsimp only
  (repeat' split) <;> simp
@[simp] theorem State.endWork_home (s : State) (q id : Nat) : (State.endWork s q id).home = s.home := rfl
@[simp] theorem State.growQueue_home (s : State) (q : Nat) : (State.growQueue s q).home = s.home := foldl_keeps State.home (fun _ _ => by rfl) _ _
@[simp] theorem State.begin_home (s : State) (q id : Nat) : (State.begin_ s q id).home = s.home := by
  unfold State.begin_
  simp
@[simp] theorem State.resumePkts_home (s : State) (q : Nat) :
    (State.resumePkts s q).home = s.home := foldl_keeps State.home (fun s p => by split <;> rfl) _ _
@[simp] theorem State.advanceRd_home (s : State) (q : Nat) : (State.advanceRd s q).home = s.home := rfl
@[simp] theorem State.discardSent_home (s : State) (killed : List Nat) : (State.discardSent s killed).home = s.home := by
  unfold State.discardSent
  exact foldl_keeps State.home (fun s e => by (repeat' split) <;> rfl) _ _
@[simp] theorem State.startSwitch_home (s : State) (mode : BitVec 4) : (State.startSwitch s mode).home = s.home := by
  unfold State.startSwitch
  simp
@[simp] theorem State.applyRequest_home (s : State) : (State.applyRequest s).home = s.home := by
  unfold State.applyRequest
  dsimp only
  (repeat' split) <;> simp
@[simp] theorem State.pmodePut_home (s : State) (value : Word) : (State.pmodePut s value).home = s.home := by
  unfold State.pmodePut
  dsimp only
  (repeat' split) <;> simp
@[simp] theorem State.ctlWrite_home (s : State) (v : Word) : ∀ r, (State.ctlWrite s v r).home = s.home := by
  intro r
  unfold State.ctlWrite
  split <;> simp
@[simp] theorem State.ctlBytes_home (s : State) (off : Nat) (data : List Byte) : (State.ctlBytes s off data).home = s.home := by
  unfold State.ctlBytes
  simp
@[simp] theorem State.corrected_home (s : State) (unit : Nat) : (State.corrected s unit).home = s.home := by
  unfold State.corrected
  dsimp only
  (repeat' split) <;> simp
@[simp] theorem State.sendReset_home (s : State) (nb : Nat) : (State.sendReset s nb).home = s.home := rfl
@[simp] theorem startPass_home (s : State) (tile n : Nat) : (startPass s tile n).home = s.home := by
  unfold startPass
  dsimp only
  (repeat' split) <;> simp
@[simp] theorem writeTables_home (s s0 : State) (tile n : Nat) : (writeTables s s0 tile n).home = s.home := by
  unfold writeTables
  (repeat' split) <;> rfl
@[simp] theorem State.tidy_home (s : State) : (State.tidy s).home = s.home := by
  unfold State.tidy
  dsimp only
  (repeat' split) <;> simp
@[simp] theorem State.withFetchWord_home (s : State) (nbits w : Nat) : (State.withFetchWord s nbits w).home = s.home := rfl

end Sys2Proof.Machine
end

section
/-!
SUPPORT. The functions that perform writes: from canonical global memory they give canonical global memory (R276; log entry 6).
-/

namespace Sys2Proof.Machine
open Sys2Proof.Slice0
@[simp] theorem takeTrap_home (s : State) (core : Nat) (st : Strm) (t : TrapInfo) : (takeTrap s core st t).home = s.home := by
  unfold takeTrap
  dsimp only
  (repeat' split) <;> simp
@[simp] theorem State.goOn_home (s : State) (target logical : Nat) (c : Core) : (State.goOn s target logical c).home = s.home := by
  unfold State.goOn
  dsimp only
  (repeat' split) <;> simp [apply_ite State.home]
@[simp] theorem State.mstNext_home (s : State) (core id : Nat) (before after : List MatEntry) (w : MatWord) :
    (State.mstNext s core id before after w).home = s.home := by
  unfold State.mstNext
  dsimp only
  (repeat' split) <;> simp
@[simp] theorem wordTrap_home (s : State) (x : Ctx) (start : Word) (cause sub : Nat) (addr info : Word) (word : Option Word) :
    (wordTrap s x start cause sub addr info word).home = s.home := by
  unfold wordTrap
  simp
@[simp] theorem State.resumeAway_home (s : State) (target logical : Nat) (r : Core) : (State.resumeAway s target logical r).home = s.home := by
  unfold State.resumeAway
  dsimp only
  (repeat' split) <;> simp
@[simp] theorem State.addressTrap_home (s : State) (cause : Nat) (word : Word) : (State.addressTrap s cause word).home = s.home := by
  unfold State.addressTrap
  simp
@[simp] theorem State.resumeAt_home (s : State) (target logical : Nat) (r : Core) : (State.resumeAt s target logical r).home = s.home := by
  unfold State.resumeAt
  (repeat' split) <;> simp
@[simp] theorem State.illegalWord_home (s : State) (w : Insn) (sub : Nat) : (State.illegalWord s w sub).home = s.home := by
  unfold State.illegalWord
  split <;> simp
theorem foldl_modify_wf {α : Type} {f : Store (List Version) → α → Store (List Version)} (hf : ∀ m a, Memory.wf m = true → Memory.wf
    (f m a) = true) (l : List α)
    {m : Store (List Version)} (hm : Memory.wf m = true) : Memory.wf (l.foldl f m) = true :=
  List.foldlRecOn l f hm fun m hm a _ => hf m a hm
theorem foldl_wf {α : Type} {f : State → α → State} (hf : ∀ s a, Memory.wf s.home = true → Memory.wf (f s a).home = true) (l : List α) {s : State}
    (h : Memory.wf s.home = true) : Memory.wf (l.foldl f s).home = true :=
  List.foldlRecOn l f h fun s hs a _ => hf s a hs
@[simp] theorem State.perform_wf {s : State} (party sc : Nat) (bytes : Store (Option Byte)) (observed : List (Nat × Nat × Nat)) (commit : Bool)
    (h : Memory.wf s.home = true) : Memory.wf (s.perform party sc bytes observed commit).home = true := by
  unfold State.perform
  refine foldl_modify_wf (fun m p hm => ?_) _ (foldl_modify_wf (fun m p hm => Store.wf_modify _ _ hm) _ h)
  split
  · exact Store.wf_modify _ _ hm
  · exact hm
theorem State.land_home {s : State} {p : Packet} {f : Nat → State} (hf : ∀ n, (f n).home = s.home) : (s.land p f).home = s.home := by
  unfold State.land
  split <;> simp [hf]
@[simp] theorem State.landNow_home (s : State) (p : Packet) (sawFull : Bool) : (s.landNow p sawFull).home = s.home := by
  refine State.land_home fun n => ?_
  (repeat' split) <;> simp [apply_ite State.home]
@[simp] theorem State.landAll_home (s : State) : s.landAll.home = s.home :=
  (foldl_keeps State.home (fun s n => by simp) _ _).trans (foldl_keeps State.home (fun s p => by simp) _ _)
@[simp] theorem State.landContribution_home (s : State) (p : Packet) (asid grp tag op ty len : Nat) (bs : List Byte) (ranks : List Nat) :
    (s.landContribution p asid grp tag op ty len bs ranks).home = s.home := by
  unfold State.landContribution
  (repeat' split) <;> simp [State.land_home]
@[simp] theorem State.cycleEnds_home (s : State) (cycles : Nat) : (s.cycleEnds cycles).home = s.home :=
  (foldl_keeps State.home (fun _ _ => by rfl) _ _).trans s.landAll_home
@[simp] theorem State.pass_home (s : State) (cycles ns : Nat) : (s.pass cycles ns).home = s.home := by
  unfold State.pass
  simp [apply_ite State.home]
@[simp] theorem State.partyWrite_wf {s : State} (party sc loc : Nat) (bs : List Byte) (h : Memory.wf s.home = true) :
    Memory.wf (State.partyWrite s party sc loc bs).home = true := by
  unfold State.partyWrite
  simp [h]
@[simp] theorem State.release_wf {s : State} (core sc : Nat) (h : Memory.wf s.home = true) : Memory.wf (State.release s core sc).home = true := by
  unfold State.release
  dsimp only
  (repeat' split) <;> simp [h]
@[simp] theorem State.putGlobal_wf {s : State} (core loc : Nat) (bs : List Byte) (sided : Bool) (h : Memory.wf s.home = true) :
    Memory.wf (State.putGlobal s core loc bs sided).home = true := by
  unfold State.putGlobal
  dsimp only
  (repeat' split) <;> simp [h]
@[simp] theorem State.amoWrite_wf {s : State} (core sc loc : Nat) (bs : List Byte) (h : Memory.wf s.home = true) :
    Memory.wf (State.amoWrite s core sc loc bs).home = true := by
  have hr : Memory.wf (if (s.core core).setFull loc bs.length then s.release core 3 else s).home = true := by split <;> simp [h]
  exact State.perform_wf _ _ _ _ _ (foldl_wf (fun s i hs => by split <;> simp [hs]) _ hr)
@[simp] theorem State.releasePart_wf {s : State} (core sc loc n : Nat) (h : Memory.wf s.home = true) :
    Memory.wf (State.releasePart s core sc loc n).home = true := by
  unfold State.releasePart
  dsimp only
  (repeat' split) <;> simp [h]
@[simp] theorem State.markLeaf_wf {s : State} (l : Leaf) (a : Access) (h : Memory.wf s.home = true) :
    Memory.wf (State.markLeaf s l a).home = true := by
  unfold State.markLeaf
  split <;> simp [h]
theorem State.walkFor_wf {s t : State} {station asid va loc size : Nat} {a : Access} {w : Word} (h : Memory.wf s.home = true)
    (hw : s.walkFor station asid va a = .ok (loc, w, size, t)) : Memory.wf t.home = true := by
  revert hw
  unfold State.walkFor
  (repeat' split) <;> intro hw <;> cases hw
  simp [h]
@[simp] theorem State.touchPage_wf {s : State} (asid va : Nat) (a : Access) (h : Memory.wf s.home = true) :
    Memory.wf (State.touchPage s asid va a).home = true := by
  unfold State.touchPage
  (repeat' split) <;> simp [h]
@[simp] theorem State.touch_wf {s : State} (asid va n : Nat) (a : Access) (h : Memory.wf s.home = true) :
    Memory.wf (State.touch s asid va n a).home = true := by
  unfold State.touch
  split
  · exact h
  · exact foldl_wf (fun s i hs => State.touchPage_wf _ _ _ hs) _ h
theorem State.landHome_wf {s : State} {bytes : List (Nat × Byte)} {write : State → List (Nat × Byte) → State}
    (hw : ∀ s bs, Memory.wf s.home = true → Memory.wf (write s bs).home = true) (h : Memory.wf s.home = true) :
        Memory.wf (s.landHome bytes write).home = true := by
  have hb := hw (s.unpoisonAll ((s.landable bytes).map Prod.fst)) (s.landable bytes) h
  unfold State.landHome
  dsimp only
  split <;> simp [hb]
@[simp] theorem State.deviceWrite_wf {s : State} (asid va : Nat) (bs : List Byte) (h : Memory.wf s.home = true) :
    Memory.wf (State.deviceWrite s asid va bs).home = true := by
  unfold State.deviceWrite
  dsimp only
  split
  · simp [h]
  · split
    · exact h
    · exact State.landHome_wf (fun s bs hs => State.perform_wf _ _ _ _ _ hs) (State.touch_wf _ _ _ _ h)
@[simp] theorem State.retryDevice_wf {s : State} (declined : Option (Nat × Nat)) (h : Memory.wf s.home = true) :
    Memory.wf (State.retryDevice s declined).home = true := foldl_wf (fun _ _ hs => State.deviceWrite_wf _ _ _ hs) _ h
@[simp] theorem State.answerDevice_wf {s : State} (r : FaultRec) (decline : Bool) (h : Memory.wf s.home = true) :
    Memory.wf (State.answerDevice s r decline).home = true := by
  unfold State.answerDevice
  (repeat' split) <;> simp [h]
@[simp] theorem State.copyWrote_wf {s : State} (core : Nat) (sided : Bool) (va loc n : Nat) (h : Memory.wf s.home = true) :
    Memory.wf (State.copyWrote s core sided va loc n).home = true := by
  unfold State.copyWrote
  dsimp only
  (repeat' split) <;> simp [h]
@[simp] theorem State.performWord_wf {s : State} (core : Nat) (k : Cmd) (loc : Nat) (h : Memory.wf s.home = true) :
    Memory.wf (State.performWord s core k loc).home = true := by
  unfold State.performWord
  dsimp only
  (repeat' split) <;> simp [h]
@[simp] theorem State.translated_wf {s : State} (core : Nat) (k : Cmd) (loc : Nat) (leaf : Word) (size : Nat) (h : Memory.wf s.home = true) :
    Memory.wf (State.translated s core k loc leaf size).home = true := by
  unfold State.translated
  (repeat' split) <;> simp [h]
@[simp] theorem State.hostAccess_wf {s : State} (a : HostAcc) (locs : List Nat) (h : Memory.wf s.home = true) :
    Memory.wf (State.hostAccess s a locs).home = true := by
  unfold State.hostAccess
  (repeat' split) <;> simp [h]
@[simp] theorem State.drainWindow_wf {s : State} (port n : Nat) (h : Memory.wf s.home = true) : Memory.wf (s.drainWindow port n).home = true := by
  induction n generalizing s with
  | zero => exact h
  | succ n ih =>
    unfold State.drainWindow
    split
    · exact h
    · dsimp only
      split
      · exact h
      · split
        · simp [h]
        · exact ih (State.hostAccess_wf _ _ (State.touch_wf _ _ _ _ h))
@[simp] theorem State.declineWindow_wf {s : State} (port : Nat) (h : Memory.wf s.home = true) :
    Memory.wf (State.declineWindow s port).home = true := by
  unfold State.declineWindow
  split
  · exact h
  · exact State.drainWindow_wf _ _ h
@[simp] theorem State.coreHalts_wf {s : State} (core : Nat) (h : Memory.wf s.home = true) : Memory.wf (State.coreHalts s core).home = true := by
  unfold State.coreHalts
  simp [h]
@[simp] theorem State.killCore_wf {s : State} (core : Nat) (h : Memory.wf s.home = true) : Memory.wf (State.killCore s core).home = true := by
  unfold State.killCore
  dsimp only
  (repeat' split) <;> simp [h]
@[simp] theorem State.killNamed_wf {s : State} (m : Nat) (h : Memory.wf s.home = true) : Memory.wf (State.killNamed s m).home = true := by
  unfold State.killNamed
  (repeat' split) <;> simp [h]
@[simp] theorem State.saveRecord_wf {s : State} (core area : Nat) (la le : BitVec 20) (ranges : List (Nat × Nat)) (h : Memory.wf s.home = true) :
    Memory.wf (State.saveRecord s core area la le ranges).home = true := foldl_wf (fun _ _ hs => State.partyWrite_wf _ _ _ _ hs) _ h
@[simp] theorem State.writeRec_wf {s : State} (asid idx : Nat) (r : ContRec) (h : Memory.wf s.home = true) :
    Memory.wf (State.writeRec s asid idx r).home = true := by
  unfold State.writeRec
  simp [h]
@[simp] theorem State.handRecord_wf {s : State} (asid grp core idx : Nat) (r : ContRec) (h : Memory.wf s.home = true) :
    Memory.wf (State.handRecord s asid grp core idx r).home = true := by
  unfold State.handRecord
  dsimp only
  (repeat' split) <;> simp [h]
@[simp] theorem State.takeYield_wf {s : State} (core : Nat) (h : Memory.wf s.home = true) : Memory.wf (State.takeYield s core).home = true := by
  unfold State.takeYield
  dsimp only
  (repeat' split) <;> simp [h]
@[simp] theorem State.commit_wf {s : State} (core : Nat) (siding : Store (Option Byte)) (bad : List Nat) (remote : List
    (Nat × Nat × Nat × List Byte × Option Nat)) (copies : List (Nat × Nat)) (h : Memory.wf s.home = true) :
    Memory.wf (State.commit s core siding bad remote copies).home = true := by
  unfold State.commit
  split <;> simp [h]
@[simp] theorem State.touchLaunch_wf {s : State} (asid : Nat) (r : LaunchReq) (h : Memory.wf s.home = true) :
    Memory.wf (State.touchLaunch s asid r).home = true := by
  have hr := foldl_wf (fun s (p : Nat × Nat) hs => State.touch_wf asid (r.va + p.1) p.2 ⟨0, false⟩ hs) (s.objRanges asid r.va) h
  unfold State.touchLaunch
  dsimp only
  (repeat' split) <;> simp [hr]
@[simp] theorem State.writeGroup_wf {s : State} (asid grp home size : Nat) (ranks : List (Nat × Nat)) (h : Memory.wf s.home = true) :
    Memory.wf (State.writeGroup s asid grp home size ranks).home = true :=
  State.partyWrite_wf _ _ _ _ (foldl_wf (fun _ _ hs => State.partyWrite_wf _ _ _ _ hs) _ h)
@[simp] theorem State.launchNow_wf {s : State} (asid : Nat) (p : LaunchPlan) (scope : Nat × Nat) (h : Memory.wf s.home = true) :
    Memory.wf (State.launchNow s asid p scope).home = true := by
  unfold State.launchNow
  simp only [apply_ite State.home, State.soon_home, ite_self]
  refine foldl_wf (fun s i hs => ?_) _ ?_
  · split <;> simp [hs]
  · simp only [State.setBar_home]
    refine State.writeGroup_wf _ _ _ _ _ ?_
    split
    · refine foldl_wf (fun s g hs => State.deviceWrite_wf _ _ _ hs) _ ?_
      split <;> simp [h]
    · split <;> simp [h]
@[simp] theorem State.clearGroup_wf {s : State} (asid grp : Nat) (h : Memory.wf s.home = true) :
    Memory.wf (State.clearGroup s asid grp).home = true := by
  unfold State.clearGroup
  simp [h]
@[simp] theorem State.killContestant_wf {s : State} (id : Nat) (k : Scope) (i : Nat) (h : Memory.wf s.home = true) :
    Memory.wf (State.killContestant s id k i).home = true := by
  unfold State.killContestant
  split <;> simp [h]
@[simp] theorem State.growBy_wf {s : State} (id : Nat) (k : Scope) (i : Nat) (added : List Nat) (round : Nat) (h : Memory.wf s.home = true) :
    Memory.wf (State.growBy s id k i added round).home = true := by
  unfold State.growBy
  split
  · exact h
  · dsimp only
    split
    · exact h
    · exact foldl_wf (fun s n hs => by simp [hs]) _ (foldl_wf (fun s p hs => by simp [hs]) _ (by simp [h]))
@[simp] theorem State.endScope_wf {s : State} (id : Nat) (k : Scope) (record : List Byte) (h : Memory.wf s.home = true) :
    Memory.wf (State.endScope s id k record).home = true := by
  unfold State.endScope
  exact foldl_wf (fun s t hs => State.clearGroup_wf _ _ hs) _ (foldl_wf (fun s n hs => by dsimp only; split <;> simp [hs]) _ h)
@[simp] theorem State.finishScope_wf {s : State} (id w : Nat) (h : Memory.wf s.home = true) : Memory.wf (State.finishScope s id w).home = true := by
  unfold State.finishScope
  (repeat' split) <;> simp [h]
@[simp] theorem State.touchScope_wf {s : State} (asid va : Nat) (h : Memory.wf s.home = true) :
    Memory.wf (State.touchScope s asid va).home = true := by
  unfold State.touchScope
  dsimp only
  refine foldl_wf (fun s i hs => ?_) _ (State.touch_wf _ _ _ _ h)
  (repeat' split) <;> simp [hs]
@[simp] theorem State.startScope_wf {s : State} (p : ScopePlan) (h : Memory.wf s.home = true) : Memory.wf (State.startScope s p).home = true := by
  unfold State.startScope
  exact foldl_wf (fun s n hs => by simp [hs]) _ (foldl_wf (fun s q hs => State.launchNow_wf _ _ _ hs) _ h)
theorem State.packetWrite_wf {s t : State} {locs : List Nat} {bs : List Byte} (h : Memory.wf s.home = true) (hw : s.packetWrite locs bs = .ok t) :
    Memory.wf t.home = true := by
  unfold State.packetWrite at hw
  split at hw
  · cases hw
  · cases hw
    simp [h]
theorem State.packetAmo_wf {s t : State} {asid va : Nat} {f : Word → Word} (h : Memory.wf s.home = true) (hw : s.packetAmo asid va f = .ok t) :
    Memory.wf t.home = true := by
  unfold State.packetAmo at hw
  cases hp : s.placesFor asid va 2 8 with
  | error e => rw [hp] at hw; cases hw
  | ok locs =>
    rw [hp] at hw
    exact State.packetWrite_wf (State.touch_wf asid va 8 ⟨2, false⟩ h) hw
theorem State.packetCopy_wf {s t : State} {asid src dst n : Nat} (h : Memory.wf s.home = true) (hw : s.packetCopy asid src dst n = .ok t) :
    Memory.wf t.home = true := by
  unfold State.packetCopy at hw
  cases hr : s.readFor asid src n with
  | error e => rw [hr] at hw; cases hw
  | ok bs =>
    cases hp : s.placesFor asid dst 1 n with
    | error e => rw [hr, hp] at hw; cases hw
    | ok locs =>
      rw [hr, hp] at hw
      exact State.packetWrite_wf (State.touch_wf _ _ _ _ (State.touch_wf _ _ _ _ h)) hw
@[simp] theorem State.writeRecord_wf {s : State} (q idx : Nat) (h : Memory.wf s.home = true) : Memory.wf (State.writeRecord s q idx).home = true := by
  unfold State.writeRecord
  split
  · split
    · simp [h]
    · split
      · simp [h]
      · next hw => simp [State.packetWrite_wf (State.touch_wf _ _ _ _ h) hw]
  · exact h
theorem State.scopeAbort_wf {s t : State} {scope : Nat} (h : Memory.wf s.home = true) (hx : execScopeAbort scope s = .next t) :
    Memory.wf t.home = true := by
  unfold execScopeAbort at hx
  (repeat' split at hx) <;> cases hx <;> simp [h]
@[simp] theorem State.startReset_wf {s : State} (q : Nat) (h : Memory.wf s.home = true) : Memory.wf (State.startReset s q).home = true := by
  unfold State.startReset
  dsimp only
  refine foldl_wf (fun s e hs => ?_) _ (foldl_wf (fun s n hs => State.killNamed_wf _ hs) _ h)
  refine State.deviceWrite_wf _ _ _ ?_
  split
  · exact hs
  · split
    · next ht => exact State.scopeAbort_wf hs ht
    · exact hs
@[simp] theorem State.windowAccess_wf {s : State} (a : HostAcc) (h : Memory.wf s.home = true) : Memory.wf (State.windowAccess s a).home = true := by
  unfold State.windowAccess
  dsimp only
  split <;> simp [h]

end Sys2Proof.Machine
end

section
/-!
SUPPORT. Outcomes and operations on the module that keep global memory canonical, and the parts of a word's issue (R60, R67).
-/

namespace Sys2Proof.Machine
open Sys2Proof.Slice0
/-- The state that an outcome answers, if it answers one, has canonical memory. -/
def KeepsMem (o : Out) : Prop := ∀ t, o = .next t → Memory.wf t.home = true
@[simp] theorem keepsMem_next (t : State) : KeepsMem (.next t) ↔ Memory.wf t.home = true :=
  ⟨fun h => h t rfl, fun h _ ht => by cases ht; exact h⟩
@[simp] theorem keepsMem_fault (f : Fault) : KeepsMem (.fault f) := fun _ h => nomatch h
@[simp] theorem keepsMem_refused (r : Refusal) : KeepsMem (.refused r) := fun _ h => nomatch h
theorem keepsMem_ite {p : Prop} [Decidable p] {o o' : Out} (ho : KeepsMem o) (ho' : KeepsMem o') : KeepsMem (if p then o else o') := by
  split
  · exact ho
  · exact ho'

set_option mvcgen.warning false
open Std.Do
/-- An operation on the module that leaves canonical memory canonical. -/
abbrev KeepsMemM {α : Type} (m : DM α) : Prop :=
  ⦃fun s => ⌜Memory.wf s.home = true⌝⦄ m ⦃post⟨fun _ s => ⌜Memory.wf s.home = true⌝, fun _ => ⌜True⌝⟩⦄
theorem keepsMemM_iff {α : Type} {m : DM α} : KeepsMemM m ↔ ∀ s a t, Memory.wf s.home = true → m s = .ok (a, t) → Memory.wf t.home = true := by
  constructor
  · intro hm s a t h ht
    have hs := hm s h
    have hr : StateT.run m s = .ok (a, t) := ht
    simp only [wp, PredTrans.apply_pushArg, hr] at hs
    exact hs
  · intro hm s h
    simp only [wp, PredTrans.apply_pushArg]
    cases hr : StateT.run m s with
    | error e => trivial
    | ok p => exact hm s p.1 p.2 h hr
theorem keepsMemM_throw {α : Type} (e : Stop) : KeepsMemM (throw e : DM α) := keepsMemM_iff.2 fun _ _ _ _ hm => nomatch hm
theorem keepsMemM_onCore {α : Type} (n : Nat) (m : CM α) : KeepsMemM (onCore n m) := keepsMemM_iff.2 fun s a t h hm => by
  unfold onCore at hm
  split at hm <;> cases hm
  exact h
theorem keepsMemM_postEvent (e : Ev) : KeepsMemM (postEvent e) := by mvcgen [postEvent]
theorem keepsMemM_soonEvent (e : Ev) : KeepsMemM (soonEvent e) := keepsMemM_iff.2 fun _ _ _ h hm => by cases hm; simp [h]
theorem keepsMemM_freshId : KeepsMemM freshId := keepsMemM_iff.2 fun _ _ _ h hm => by cases hm; exact h
theorem keepsMemM_startCmd (cx : Ctx) (i : Instr) (k : Start) : KeepsMemM (startCmd cx i k) := by
  mvcgen [startCmd, keepsMemM_freshId, keepsMemM_onCore]
theorem keepsMemM_resolveM (x : Ctx) (n : BitVec 3) (q0 : Seq) (nx : Next) : KeepsMemM (resolveM x n q0 nx) := by mvcgen [resolveM, keepsMemM_onCore]
theorem keepsMemM_performM {eff : Ctx → DM Next} (he : ∀ x, KeepsMemM (eff x)) (x : Ctx) (n : BitVec 3) : KeepsMemM (performM x n eff) := by
  mvcgen [performM, keepsMemM_onCore, keepsMemM_resolveM, he]

theorem tryWord_wf {s : State} {eff : Ctx → DM Next} (he : ∀ x, KeepsMemM (eff x)) (h : Memory.wf s.home = true) (i : Instr) (x : Ctx) :
    Memory.wf (tryWord i s x eff).home = true := by
  unfold tryWord
  dsimp only
  split
  · simp [h]
  · split
    case h_1 hp => simp [keepsMemM_iff.1 (keepsMemM_performM he _ _) _ _ _ h hp]
    case h_2 hp => simp [keepsMemM_iff.1 (keepsMemM_performM he _ _) _ _ _ h hp]
    case h_3 hp => simp [keepsMemM_iff.1 (keepsMemM_performM he _ _) _ _ _ h hp]
    · simp [h]
    · simp [h]
theorem issue_keepsMem {s : State} {eff : Ctx → DM Next} (he : ∀ x, KeepsMemM (eff x)) (h : Memory.wf s.home = true) (i : Instr) :
    KeepsMem (issue i eff s) := by
  unfold issue
  dsimp only
  (repeat' split) <;> simp [h, tryWord_wf he h]
theorem issueC_keepsMem {s : State} (h : Memory.wf s.home = true) (i : Instr) (eff : Ctx → CM Next) : KeepsMem (issueC i eff s) :=
  issue_keepsMem (fun _ => keepsMemM_onCore _ _) h i
theorem issueU_keepsMem {s : State} (h : Memory.wf s.home = true) (i : Instr) (eff : Ctx → CM Unit) :
    KeepsMem (issueU i eff s) := issueC_keepsMem h i _
theorem issueLate_keepsMem {s : State} (h : Memory.wf s.home = true) (i : Instr) (eff : Ctx → CM Unit) : KeepsMem (issueLate i eff s) :=
  issue_keepsMem (fun _ => by mvcgen [keepsMemM_onCore, keepsMemM_postEvent]) h i
theorem issueHint_keepsMem {s : State} (h : Memory.wf s.home = true) (i : Instr) (hint : Hint) : KeepsMem (issueHint i hint s) := by
  unfold issueHint
  dsimp only
  (repeat' split) <;> simp [h]
theorem issueBar_keepsMem {s : State} {eff : Ctx → DM Next} (he : ∀ x, KeepsMemM (eff x)) (h : Memory.wf s.home = true) (i : Instr) :
    KeepsMem (issueBar i eff s) := by
  have hi := issue_keepsMem he h i
  unfold issueBar
  dsimp only
  split
  · next ht => split <;> simp [hi _ ht]
  · exact hi
theorem issueTimed_keepsMem {s : State} {eff : Ctx → DM Next} (he : ∀ x, KeepsMemM (eff x)) (h : Memory.wf s.home = true) (i : Instr) :
    KeepsMem (issueTimed i eff s) := by
  have hi := issue_keepsMem he h i
  unfold issueTimed
  dsimp only
  split
  · next ht => simp [hi _ ht]
  · exact hi
theorem solo_keepsMem {s : State} {f : State → Out} (h : Memory.wf s.home = true) (hf : ∀ s, Memory.wf s.home = true → KeepsMem (f s)) :
    KeepsMem (solo f s) := by
  unfold solo
  split
  · simp [h]
  · exact hf s h
theorem runnerWord_keepsMem {s : State} {f : State → Out} (hf : KeepsMem (f s)) : KeepsMem (runnerWord f s) := by
  unfold runnerWord
  split
  · next ht => dsimp only; (repeat' split) <;> simp [hf _ ht]
  · exact hf
theorem State.takeFault_home {s t : State} {core id : Nat} {r : FaultRec} (h : s.takeFault core id = some (r, t)) : t.home = s.home := by
  unfold State.takeFault at h
  split at h <;> cases h
  rfl
theorem State.scheduled_keepsMem {s : State} {f : State → State} (h : Memory.wf s.home = true) (again : Ev)
    (hf : Memory.wf (f s).home = true) : KeepsMem (s.scheduled again f) := by
  unfold State.scheduled
  split <;> simp [h, hf]
theorem State.inTurn_keepsMem {s : State} {f : Queue → QPacket → State} (h : Memory.wf s.home = true) (q id type : Nat) (again : Ev)
    (hf : ∀ d p, Memory.wf (f d p).home = true) : KeepsMem (s.inTurn q id type again f) := by
  refine State.scheduled_keepsMem h again ?_
  (repeat' split) <;> simp [h, hf]

/-! ### The words whose effect leaves their core -/

variable {cx : Ctx}
theorem keepsMemM_pointsM (d : BitVec 5) (f : Ctx → Core → CM (Points × Bool)) : KeepsMemM (pointsM d f cx) := by
  mvcgen [pointsM, keepsMemM_onCore]
  split <;> simp [*]
theorem keepsMemM_remoteM (i : Instr) (t : BitVec 5) (op : CmdOp) (dst : Nat) (pay : Payload) : KeepsMemM (remoteM i t op dst pay cx) := by
  mvcgen [remoteM, keepsMemM_startCmd]
  simp [*]
theorem keepsMemM_copyM (i : Instr) (t : BitVec 5) (d q e : BitVec 1) (sc : BitVec 3) (args : Ctx → CM CopyArgs) :
    KeepsMemM (copyM i t d q e sc args cx) := by
  mvcgen [copyM, keepsMemM_onCore, keepsMemM_startCmd]
  simp +zetaDelta [*, apply_ite State.home]
theorem keepsMemM_queryM (i : Instr) (t l b : BitVec 5) (form : Bool) : KeepsMemM (queryM i t l b form cx) := by
  mvcgen [queryM, keepsMemM_onCore, keepsMemM_startCmd, keepsMemM_postEvent]
theorem keepsMemM_barM (d g : BitVec 5) (kind scope : Nat) : KeepsMemM (barM d g kind scope cx) := by
  mvcgen -trivial [barM, keepsMemM_onCore, keepsMemM_postEvent] <;> simp +zetaDelta [*]
theorem keepsMemM_gangM (d x : BitVec 5) : KeepsMemM (gangM d x cx) := by
  mvcgen [gangM, keepsMemM_onCore, keepsMemM_soonEvent]
theorem keepsMemM_xbeginM (d g l : BitVec 5) : KeepsMemM (xbeginM d g l cx) := by
  mvcgen [xbeginM, keepsMemM_onCore, keepsMemM_postEvent, keepsMemM_soonEvent]
theorem keepsMemM_xmitM (c : BitVec 9) (r : BitVec 5) (k : BitVec 1) (t : BitVec 8) : KeepsMemM (xmitM c r k t cx) := by
  mvcgen [xmitM, keepsMemM_onCore]
  simp [*]
theorem keepsMemM_censusM (i : Instr) (d : BitVec 5) (op : CmdOp) : KeepsMemM (censusM i d op cx) := by
  mvcgen [censusM, keepsMemM_startCmd, keepsMemM_postEvent]
theorem keepsMemM_mmaM (c : BitVec 5) (a : BitVec 1) (f : BitVec 4) (b : BitVec 1) (g : BitVec 4) (k : BitVec 3) (sparse : Nat) :
    KeepsMemM (mmaM c a f b g k sparse cx) := by
  mvcgen [mmaM, keepsMemM_onCore, keepsMemM_postEvent]
theorem keepsMemM_spawnM (d a e : BitVec 5) (com : Bool) : KeepsMemM (spawnM d a e com cx) := by
  mvcgen [spawnM, keepsMemM_onCore]
  simp [*]
theorem keepsMemM_retireM (cancel : Bool) : KeepsMemM (retireM cancel cx) := by
  mvcgen [retireM, keepsMemM_onCore]
  simp +zetaDelta only [State.becomeRunner_home, State.depart_home]
  (repeat' split) <;> simp [*]
theorem keepsMemM_stageM (notFirst notLast : Bool) : KeepsMemM (stageM notFirst notLast cx) := by
  mvcgen [stageM, keepsMemM_onCore]
theorem keepsMemM_scoreM (kind : Nat) (v : Ctx → CM Word) : KeepsMemM (scoreM kind v cx) := by
  mvcgen [scoreM, keepsMemM_onCore, keepsMemM_postEvent]
theorem keepsMemM_sysrM (x : BitVec 12) (d : BitVec 5) : KeepsMemM (sysrM x d cx) := by
  mvcgen [sysrM, keepsMemM_onCore]
theorem keepsMemM_fpFinish (r : FpRun) (ws : List (Nat × Vec)) (fl : BitVec 5) : KeepsMemM (fpFinish cx r ws fl) := by
  mvcgen [fpFinish, keepsMemM_onCore]
theorem keepsMemM_fpStart {s : State} (h : Memory.wf s.home = true) : KeepsMemM (fpStart s cx) := by
  mvcgen [fpStart]
  · simp [h]
  · split <;> simp [*]
theorem keepsMemM_sauM {eff : Ctx → DM Unit} (he : ∀ x, KeepsMemM (eff x)) : KeepsMemM (sauM eff cx) := by
  mvcgen [sauM, keepsMemM_fpFinish, keepsMemM_fpStart, he]
  exact fun _ _ => ‹_›
theorem keepsMemM_vrepM (i : Instr) (n : Nat) (count : Ctx → CM Word) : KeepsMemM (vrepM i n count cx) := by
  mvcgen [vrepM, keepsMemM_onCore, keepsMemM_soonEvent]
theorem keepsMemM_pure {α : Type} (a : α) : KeepsMemM (pure a : DM α) := keepsMemM_iff.2 fun _ _ _ h hm => by cases hm; exact h
theorem keepsMemM_bodyEff (i : Instr) (x : Ctx) : KeepsMemM (bodyEff i x) := by
  cases i
  case vadd | vsub | vmul | vmin | vmax | vshl | vshr | vsha | vfadd | vfsub | vfmul | vfmin | vfmax | vfrcp | vfrsq | vfabs | vfma | vfms
      | vfnma | vfmaw | vcvt | vscale | vunscale | vcmp | vperm | vziplo | vziphi | vunzipe | vunzipo | vrev | vcompress | vradd | vrmin
      | vrmax | vrfadd | vrfmin | vrfmax | vtab | vmov | vmovFromVldq | vmovToVstq | vbcast | vext | vins | vand | vor | vxor | vandn
      | vsel | kand | kor | kxor | knot | kfromv | vfromk | kpopc => exact keepsMemM_onCore _ _
  all_goals exact keepsMemM_pure ()
end Sys2Proof.Machine
end

section
/-!
SUPPORT. Every step of the device keeps global memory canonical.
-/

namespace Sys2Proof.Machine
open Sys2Proof.Slice0

theorem execFetch_keepsMem (core : Nat) (str : Strm) {s : State} (h : Memory.wf s.home = true) : KeepsMem (execFetch core str s) := by
  unfold execFetch
  dsimp only
  (repeat' split) <;> simp [h]
theorem execResultWriteback_keepsMem (core : Nat) (str : Strm) {s : State} (h : Memory.wf s.home = true) :
    KeepsMem (execResultWriteback core str s) := by
  unfold execResultWriteback
  simp [h]
theorem execPuntyExpire_keepsMem (core : Nat) (str : Strm) (idx : Nat) {s : State} (h : Memory.wf s.home = true) :
    KeepsMem (execPuntyExpire core str idx s) := by
  unfold execPuntyExpire
  dsimp only
  (repeat' split) <;> simp [h]
theorem execRefreshCycle_keepsMem (_core _bank : Nat) {s : State} (h : Memory.wf s.home = true) : KeepsMem (execRefreshCycle _core _bank s) := by
  unfold execRefreshCycle
  simp [h]
theorem execTrapEntry_keepsMem (core : Nat) (str : Strm) {s : State} (h : Memory.wf s.home = true) : KeepsMem (execTrapEntry core str s) := by
  unfold execTrapEntry
  dsimp only
  (repeat' split) <;> simp [h]
theorem execEventDelivery_keepsMem (core : Nat) {s : State} (h : Memory.wf s.home = true) : KeepsMem (execEventDelivery core s) := by
  unfold execEventDelivery
  dsimp only
  (repeat' split) <;> simp [h]
theorem execWatchdog_keepsMem (core : Nat) {s : State} (h : Memory.wf s.home = true) : KeepsMem (execWatchdog core s) := by
  unfold execWatchdog
  dsimp only
  (repeat' split) <;> simp [h]
theorem execPairedSafePoint_keepsMem (core : Nat) {s : State} (h : Memory.wf s.home = true) : KeepsMem (execPairedSafePoint core s) := by
  unfold execPairedSafePoint
  dsimp only
  (repeat' split) <;> simp [h]
theorem execPreemptRequest_keepsMem (core timeoutNs area : Nat) (ranges : List (Nat × Nat)) {s : State} (h : Memory.wf s.home = true) :
    KeepsMem (execPreemptRequest core timeoutNs area ranges s) := by
  unfold execPreemptRequest
  (repeat' split) <;> simp [h]
theorem execPreemptOverdue_keepsMem (core : Nat) {s : State} (h : Memory.wf s.home = true) : KeepsMem (execPreemptOverdue core s) := by
  unfold execPreemptOverdue
  (repeat' split) <;> simp [h]
theorem execContextSave_keepsMem (core : Nat) {s : State} (h : Memory.wf s.home = true) : KeepsMem (execContextSave core s) := by
  unfold execContextSave
  extract_lets c l party s1 s2
  split
  · simp [h]
  · split
    · simp [h]
    · split
      · simp [h]
      · split
        · simp [h]
        · extract_lets s3 s4 c1 s5
          have h1 : Memory.wf s1.home = true := State.release_wf _ _ h
          have h2 : Memory.wf s2.home = true := (congrArg Memory.wf (State.holdLatch_home s1 core)).trans h1
          have h3 : Memory.wf s3.home = true := State.saveRecord_wf _ _ _ _ _ h2
          have h5 : Memory.wf s5.home = true := State.saveRecord_wf _ _ _ _ _ h1
          clear_value s3 s5
          refine keepsMem_ite ?_ ?_
          · rw [keepsMem_next, State.post_home]
            exact (congrArg Memory.wf (State.modCore_home s3 core Core.asSaved)).trans h3
          · rw [keepsMem_next]
            exact (congrArg Memory.wf (State.modCore_home s5 core Core.asSaved)).trans h5
theorem execContextResume_keepsMem (core target : Nat) {s : State} (h : Memory.wf s.home = true) : KeepsMem (execContextResume core target s) := by
  unfold execContextResume
  dsimp only
  (repeat' split) <;> simp [h]
theorem execCoreKill_keepsMem (core : Nat) {s : State} (h : Memory.wf s.home = true) : KeepsMem (execCoreKill core s) := by
  unfold execCoreKill
  simp [h]
theorem execSleepWake_keepsMem (core : Nat) {s : State} (h : Memory.wf s.home = true) : KeepsMem (execSleepWake core s) := by
  unfold execSleepWake
  simp [h]
theorem execSleepTimeout_keepsMem (core : Nat) {s : State} (h : Memory.wf s.home = true) : KeepsMem (execSleepTimeout core s) := by
  unfold execSleepTimeout
  dsimp only
  (repeat' split) <;> simp [h]
theorem execSauStart_keepsMem (tile : Nat) {s : State} (h : Memory.wf s.home = true) : KeepsMem (execSauStart tile s) := by
  unfold execSauStart
  dsimp only
  (repeat' split) <;> simp [h]
theorem execSauComplete_keepsMem (core : Nat) {s : State} (h : Memory.wf s.home = true) : KeepsMem (execSauComplete core s) := by
  unfold execSauComplete
  dsimp only
  (repeat' split) <;> simp [h]
theorem execVrepDispatch_keepsMem (core : Nat) {s : State} (h : Memory.wf s.home = true) : KeepsMem (execVrepDispatch core s) := by
  unfold execVrepDispatch
  dsimp only
  split
  · simp [h]
  · refine keepsMem_ite (by simp [h]) ?_
    split
    · next hr => simp [keepsMemM_iff.1 (keepsMemM_sauM fun _ => keepsMemM_bodyEff _ _) _ _ _ (by simp [h]) hr]
    · next hr => split <;> simp [keepsMemM_iff.1 (keepsMemM_sauM fun _ => keepsMemM_bodyEff _ _) _ _ _ (by simp [h]) hr]
    · simp [h]
    · simp [h]
theorem execMldFill_keepsMem (core : Nat) {s : State} (h : Memory.wf s.home = true) : KeepsMem (execMldFill core s) := by
  unfold execMldFill
  dsimp only
  (repeat' split) <;> simp [h]
theorem execGlobalStreamRow_keepsMem (core id : Nat) {s : State} (h : Memory.wf s.home = true) : KeepsMem (execGlobalStreamRow core id s) := by
  unfold execGlobalStreamRow
  dsimp only
  split
  · simp [h]
  · split
    · refine keepsMem_ite (by simp [h]) ?_
      split
      · next ht => simp [State.accessWaits_home _ _ _ _ ht, h]
      · exact keepsMem_ite (by simp [h]) (keepsMem_ite (by simp [h]) (by simp [h]))
    · simp [h]
theorem execMultiplyStart_keepsMem (core : Nat) {s : State} (h : Memory.wf s.home = true) : KeepsMem (execMultiplyStart core s) := by
  unfold execMultiplyStart
  dsimp only
  (repeat' split) <;> simp [h]
theorem execMultiplyComplete_keepsMem (core : Nat) {s : State} (h : Memory.wf s.home = true) : KeepsMem (execMultiplyComplete core s) := by
  unfold execMultiplyComplete
  dsimp only
  (repeat' split) <;> simp [h]
theorem execMstRowSend_keepsMem (core : Nat) {s : State} (h : Memory.wf s.home = true) : KeepsMem (execMstRowSend core s) := by
  unfold execMstRowSend
  dsimp only
  (repeat' split) <;> simp [h]
theorem execMmajJoin_keepsMem (tile : Nat) {s : State} (h : Memory.wf s.home = true) : KeepsMem (execMmajJoin tile s) := by
  unfold execMmajJoin
  dsimp only
  split
  · refine keepsMem_ite (by simp [h]) (keepsMem_ite (by simp [h]) (keepsMem_ite (by simp [h]) ((keepsMem_next _).2 ?_)))
    exact foldl_wf (fun s p hs => by simp [hs]) _ (by simp [h])
  · simp [h]
theorem execMmajJoinTimeout_keepsMem (tile : Nat) {s : State} (h : Memory.wf s.home = true) : KeepsMem (execMmajJoinTimeout tile s) := by
  unfold execMmajJoinTimeout
  dsimp only
  (repeat' split) <;> simp [h]
theorem execRotJoin_keepsMem (tile : Nat) {s : State} (h : Memory.wf s.home = true) : KeepsMem (execRotJoin tile s) := by
  unfold execRotJoin
  dsimp only
  split
  · simp [h]
  · refine keepsMem_ite (by simp [h]) (keepsMem_ite (by simp [h]) (keepsMem_ite (by simp [h]) (keepsMem_ite (by simp [h]) ?_)))
    split
    · simp [h]
    · rw [keepsMem_next, State.endRots_home]
      exact foldl_wf (fun s r hs => by simp [hs]) _ h
theorem execRotJoinTimeout_keepsMem (tile : Nat) {s : State} (h : Memory.wf s.home = true) : KeepsMem (execRotJoinTimeout tile s) := by
  unfold execRotJoinTimeout
  dsimp only
  (repeat' split) <;> simp [h]
theorem execSolveStart_keepsMem (tile : Nat) {s : State} (h : Memory.wf s.home = true) : KeepsMem (execSolveStart tile s) := by
  unfold execSolveStart
  dsimp only
  (repeat' split) <;> simp [h]
theorem execSolveComplete_keepsMem (tile : Nat) {s : State} (h : Memory.wf s.home = true) : KeepsMem (execSolveComplete tile s) := by
  unfold execSolveComplete
  dsimp only
  (repeat' split) <;> simp [h]
theorem execPointsApplication_keepsMem (core id : Nat) {s : State} (h : Memory.wf s.home = true) : KeepsMem (execPointsApplication core id s) := by
  unfold execPointsApplication
  dsimp only
  (repeat' split) <;> simp [h]
theorem execEngineGranule_keepsMem (core id : Nat) {s : State} (h : Memory.wf s.home = true) : KeepsMem (execEngineGranule core id s) := by
  have hacc : ∀ (k : Cmd) (t : State), (if k.open_ then s.accessWaits core k else some s) = some t → Memory.wf t.home = true := by
    intro k t ht
    split at ht
    · simp [State.accessWaits_home _ _ _ _ ht, h]
    · cases ht
      exact h
  unfold execEngineGranule
  extract_lets c
  split
  · simp [h]
  · next k _ =>
    split
    · dsimp only
      split
      · next ht => simp [hacc k _ ht]
      · refine keepsMem_ite (by simp [h]) ?_
        split
        · simp [h]
        · next s1 ht =>
          have h1 : Memory.wf s1.home = true := by
            split at ht
            · cases ht
              exact h
            · simp [State.stageCopy_home _ _ _ _ ht, h]
          split
          · split
            · simp [h1]
            · split <;> simp [h1]
          · split
            · simp [h1]
            · refine keepsMem_ite (by simp [h1]) ?_
              split <;> simp [h1]
    · simp [h]
    · simp [h]
    · split
      · next ht => simp [hacc k _ ht]
      · split <;> simp [h]
    · split
      · next ht => simp [hacc k _ ht]
      · split <;> simp [h]
    · simp [h]
theorem execTokenStatusWrite_keepsMem (core id : Nat) {s : State} (h : Memory.wf s.home = true) : KeepsMem (execTokenStatusWrite core id s) := by
  unfold execTokenStatusWrite
  dsimp only
  (repeat' split) <;> simp [h]
theorem execRouterHop_keepsMem (pkt : Nat) {s : State} (h : Memory.wf s.home = true) : KeepsMem (execRouterHop pkt s) := by
  unfold execRouterHop
  (repeat' split) <;> simp [h]
theorem execOccupancyUpdate_keepsMem {s : State} (h : Memory.wf s.home = true) : KeepsMem (execOccupancyUpdate s) := by
  unfold execOccupancyUpdate
  simp [h]
theorem execPacketArrival_keepsMem (pkt : Nat) {s : State} (h : Memory.wf s.home = true) : KeepsMem (execPacketArrival pkt s) := by
  unfold execPacketArrival
  split
  · simp [h]
  · refine keepsMem_ite (by simp [h]) ?_
    split
    · split <;> simp [h]
    · split <;> simp [h]
    · simp [h]
    · exact keepsMem_ite (by simp [h]) (keepsMem_ite (by simp [h]) (by rw [keepsMem_next, State.land_home fun n => by simp]; exact h))
    · rw [keepsMem_next, State.land_home fun n => by dsimp only; (repeat' split) <;> simp]
      exact h
    · rw [keepsMem_next, State.land_home fun n => by simp]
      exact h
theorem execReorderResend_keepsMem (pkt : Nat) {s : State} (h : Memory.wf s.home = true) : KeepsMem (execReorderResend pkt s) := by
  unfold execReorderResend
  simp [h]
theorem execRemapNack_keepsMem (pkt : Nat) {s : State} (h : Memory.wf s.home = true) : KeepsMem (execRemapNack pkt s) := by
  unfold execRemapNack
  dsimp only
  (repeat' split) <;> simp [h]
theorem execDepositArrival_keepsMem (pkt : Nat) {s : State} (h : Memory.wf s.home = true) : KeepsMem (execDepositArrival pkt s) := by
  unfold execDepositArrival
  split
  · simp [h]
  · split
    · refine keepsMem_ite (by simp [h]) ?_
      rw [keepsMem_next, State.land_home fun n => by dsimp only; (repeat' split) <;> simp]
      exact h
    · simp [h]
theorem execDepositLatchTimeout_keepsMem (core : Nat) {s : State} (h : Memory.wf s.home = true) : KeepsMem (execDepositLatchTimeout core s) := by
  unfold execDepositLatchTimeout
  dsimp only
  (repeat' split) <;> simp [h]
theorem execBusyResend_keepsMem (pkt : Nat) {s : State} (h : Memory.wf s.home = true) : KeepsMem (execBusyResend pkt s) := by
  unfold execBusyResend
  simp [h]
theorem execRetryDepositResend_keepsMem (pkt : Nat) {s : State} (h : Memory.wf s.home = true) : KeepsMem (execRetryDepositResend pkt s) := by
  unfold execRetryDepositResend
  simp [h]
theorem execDeviceDepositLand_keepsMem (core : Nat) {s : State} (h : Memory.wf s.home = true) : KeepsMem (execDeviceDepositLand core s) := by
  unfold execDeviceDepositLand
  dsimp only
  (repeat' split) <;> simp [h]
theorem execNotifyArrival_keepsMem (pkt : Nat) {s : State} (h : Memory.wf s.home = true) : KeepsMem (execNotifyArrival pkt s) := by
  unfold execNotifyArrival
  split
  · simp [h]
  · split
    · refine keepsMem_ite (by simp [h]) ?_
      rw [keepsMem_next, State.land_home fun n => by dsimp only; split <;> simp]
      exact h
    · simp [h]
theorem execCombine_keepsMem (pkt : Nat) {s : State} (h : Memory.wf s.home = true) : KeepsMem (execCombine pkt s) := by
  unfold execCombine
  dsimp only
  (repeat' split) <;> simp [h]
theorem execReduceResultLand_keepsMem (asid grp tag : Nat) {s : State} (h : Memory.wf s.home = true) :
    KeepsMem (execReduceResultLand asid grp tag s) := by
  unfold execReduceResultLand
  dsimp only
  refine keepsMem_ite (by simp [h]) ?_
  rw [keepsMem_next, State.sendTree_home]
  split
  · simp [h]
  · exact foldl_wf (fun s w hs => by simp [hs]) _ (by simp [h])
theorem execCombinePark_keepsMem (asid grp tag : Nat) {s : State} (h : Memory.wf s.home = true) : KeepsMem (execCombinePark asid grp tag s) := by
  unfold execCombinePark
  dsimp only
  (repeat' split) <;> simp [h]
theorem execTranslationRequest_keepsMem (core id : Nat) {s : State} (h : Memory.wf s.home = true) : KeepsMem (execTranslationRequest core id s) := by
  unfold execTranslationRequest
  dsimp only
  (repeat' split) <;> simp [h]
theorem execPageWalk_keepsMem (core id : Nat) {s : State} (h : Memory.wf s.home = true) : KeepsMem (execPageWalk core id s) := by
  unfold execPageWalk
  dsimp only
  split
  · simp [h]
  · split
    · simp [h]
    · refine keepsMem_ite (by simp [h]) (keepsMem_ite (by simp [h]) ?_)
      split
      · next hw => simp [State.walkFor_wf h hw]
      · simp [h]
theorem execFaultRetry_keepsMem (core id : Nat) {s : State} (h : Memory.wf s.home = true) : KeepsMem (execFaultRetry core id s) := by
  unfold execFaultRetry
  refine keepsMem_ite (by simp [h]) (keepsMem_ite (by simp [h]) ?_)
  split
  · split <;> simp [h]
  · next ht =>
    have hw := h
    rw [← State.takeFault_home ht] at hw
    refine keepsMem_ite (by simp [hw]) (keepsMem_ite (by simp [hw]) (keepsMem_ite (by simp [hw]) ((keepsMem_next _).2 ?_)))
    exact foldl_wf (fun s p hs => by simp [hs]) _ (by simp [hw])
theorem execFaultDecline_keepsMem (core id : Nat) {s : State} (h : Memory.wf s.home = true) : KeepsMem (execFaultDecline core id s) := by
  unfold execFaultDecline
  refine keepsMem_ite (by simp [h]) ?_
  split
  · simp [h]
  · next ht =>
    have hw := h
    rw [← State.takeFault_home ht] at hw
    refine keepsMem_ite (by simp [hw]) (keepsMem_ite (by simp [hw]) (keepsMem_ite (by simp [hw]) ((keepsMem_next _).2 ?_)))
    exact foldl_wf (fun s p hs => by simp [hs]) _ hw
theorem execAmoHome_keepsMem (core id : Nat) {s : State} (h : Memory.wf s.home = true) : KeepsMem (execAmoHome core id s) := by
  unfold execAmoHome
  dsimp only
  split
  · simp [h]
  · split
    · refine keepsMem_ite (by simp [h]) ?_
      split
      · next ht => simp [State.accessWaits_home _ _ _ _ ht, h]
      · refine keepsMem_ite (by simp [h]) (keepsMem_ite (by simp [h]) ?_)
        split <;> split <;> simp [h]
    · simp [h]
theorem execReleasePerformed_keepsMem (core id : Nat) {s : State} (h : Memory.wf s.home = true) : KeepsMem (execReleasePerformed core id s) := by
  unfold execReleasePerformed
  dsimp only
  (repeat' split) <;> simp [h]
theorem execAcquireComplete_keepsMem (core id : Nat) {s : State} (h : Memory.wf s.home = true) : KeepsMem (execAcquireComplete core id s) := by
  unfold execAcquireComplete
  dsimp only
  (repeat' split) <;> simp [h]
theorem execStationInvalidate_keepsMem (kind operand : Nat) {s : State} (h : Memory.wf s.home = true) :
    KeepsMem (execStationInvalidate kind operand s) := by
  unfold execStationInvalidate
  simp [h]
theorem execBarrierArrival_keepsMem (core : Nat) {s : State} (h : Memory.wf s.home = true) : KeepsMem (execBarrierArrival core s) := by
  unfold execBarrierArrival
  dsimp only
  (repeat' split) <;> simp [h]
theorem execBarrierWithdrawal_keepsMem (core : Nat) {s : State} (h : Memory.wf s.home = true) : KeepsMem (execBarrierWithdrawal core s) := by
  unfold execBarrierWithdrawal
  dsimp only
  (repeat' split) <;> simp [h]
theorem execGroupAbort_keepsMem (asid grp : Nat) {s : State} (h : Memory.wf s.home = true) : KeepsMem (execGroupAbort asid grp s) := by
  unfold execGroupAbort
  simp [h, apply_ite State.home]
theorem execExchangeJoin_keepsMem (asid grp : Nat) {s : State} (h : Memory.wf s.home = true) : KeepsMem (execExchangeJoin asid grp s) := by
  unfold execExchangeJoin
  refine keepsMem_ite (by simp [h]) (keepsMem_ite ((keepsMem_next _).2 ?_) ((keepsMem_next _).2 ?_))
  · exact foldl_wf (fun s p hs => by simp [hs]) _ h
  · rw [State.soon_home]
    exact foldl_wf (fun s p hs => by simp [hs]) _ h
theorem execExchangeJoinTimeout_keepsMem (asid grp : Nat) {s : State} (h : Memory.wf s.home = true) :
    KeepsMem (execExchangeJoinTimeout asid grp s) := by
  unfold execExchangeJoinTimeout
  refine keepsMem_ite (by simp [h]) (keepsMem_ite (by simp [h]) ((keepsMem_next _).2 ?_))
  exact foldl_wf (fun s p hs => by simp [hs]) _ h
theorem execPhaseEnd_keepsMem (asid grp : Nat) {s : State} (h : Memory.wf s.home = true) : KeepsMem (execPhaseEnd asid grp s) := by
  have hl := foldl_wf (fun s m hs => by simp [hs]) (s.phaseMembers asid grp) h (f := fun s m => s.latchDue m 512)
  unfold execPhaseEnd
  dsimp only
  split
  · simp [h]
  · refine keepsMem_ite (by simpa using hl) ((keepsMem_next _).2 ?_)
    rw [State.clearBeats_home]
    exact foldl_wf (fun s p hs => by simp [hs]) _ hl
theorem execGangJoin_keepsMem (core : Nat) {s : State} (h : Memory.wf s.home = true) : KeepsMem (execGangJoin core s) := by
  unfold execGangJoin
  dsimp only
  split
  · refine keepsMem_ite (by simp [h]) (keepsMem_ite (by simp [h]) ((keepsMem_next _).2 ?_))
    exact foldl_wf (fun s p hs => by simp [hs]) _ h
  · simp [h]
theorem execGangJoinTimeout_keepsMem (core : Nat) {s : State} (h : Memory.wf s.home = true) : KeepsMem (execGangJoinTimeout core s) := by
  unfold execGangJoinTimeout
  dsimp only
  (repeat' split) <;> simp [h]
theorem execTaskHandover_keepsMem (asid grp : Nat) {s : State} (h : Memory.wf s.home = true) : KeepsMem (execTaskHandover asid grp s) := by
  unfold execTaskHandover
  dsimp only
  (repeat' split) <;> simp [h]
theorem execDomainDrain_keepsMem (asid grp : Nat) {s : State} (h : Memory.wf s.home = true) : KeepsMem (execDomainDrain asid grp s) := by
  unfold execDomainDrain
  refine keepsMem_ite (by simp [h]) (keepsMem_ite (by simp [h]) ((keepsMem_next _).2 ?_))
  rw [State.modDom_home]
  exact foldl_wf (fun s p hs => by simp [hs]) _ h
theorem execTaskReady_keepsMem (asid grp rec : Nat) {s : State} (h : Memory.wf s.home = true) : KeepsMem (execTaskReady asid grp rec s) := by
  unfold execTaskReady
  (repeat' split) <;> simp [h]
theorem execProdGrant_keepsMem (asid grp ring : Nat) {s : State} (h : Memory.wf s.home = true) : KeepsMem (execProdGrant asid grp ring s) := by
  unfold execProdGrant
  simp [h]
theorem execConsGrant_keepsMem (asid grp ring : Nat) {s : State} (h : Memory.wf s.home = true) : KeepsMem (execConsGrant asid grp ring s) := by
  unfold execConsGrant
  dsimp only
  (repeat' split) <;> simp [h]
theorem execShunterInterval_keepsMem (asid grp : Nat) {s : State} (h : Memory.wf s.home = true) : KeepsMem (execShunterInterval asid grp s) := by
  unfold execShunterInterval
  (repeat' split) <;> simp [h]
theorem execStageSwitch_keepsMem (core : Nat) {s : State} (h : Memory.wf s.home = true) : KeepsMem (execStageSwitch core s) := by
  unfold execStageSwitch
  dsimp only
  (repeat' split) <;> simp [h]
theorem execDistributorServe_keepsMem (core id : Nat) {s : State} (h : Memory.wf s.home = true) : KeepsMem (execDistributorServe core id s) := by
  unfold execDistributorServe
  dsimp only
  split
  · simp [h]
  · split
    · refine keepsMem_ite (by simp [h]) ?_
      split
      · next ht => simp [State.accessWaits_home _ _ _ _ ht, h]
      · refine keepsMem_ite (by simp [h]) (keepsMem_ite (by simp [h]) ?_)
        split
        · simp [h]
        · exact keepsMem_ite (by simp [h]) (by simp [apply_ite State.home, h])
    · simp [h]
theorem execCensusInterval_keepsMem {s : State} (h : Memory.wf s.home = true) : KeepsMem (execCensusInterval s) := by
  unfold execCensusInterval
  refine keepsMem_ite (by simp [h]) ?_
  rw [keepsMem_next, State.soon_home]
  exact foldl_wf (fun s d hs => by simp [hs]) _ (foldl_wf (fun s r hs => by simp [hs]) _ (by simp [h]))
theorem execRecastCommit_keepsMem (tile : Nat) {s : State} (h : Memory.wf s.home = true) : KeepsMem (execRecastCommit tile s) := by
  unfold execRecastCommit
  split
  · simp [h]
  · extract_lets m die s1
    dsimp only
    refine keepsMem_ite ((keepsMem_next _).2 (foldl_wf (fun s n hs => by simp [hs]) _ h)) ?_
    simp only [keepsMem_next, State.soon_home, State.post_home, State.parkCombs_home, apply_ite State.home, ite_self, foldl_home State.syncCopy_home]
    split
    · rw [State.migrateTile_home]
      exact h
    · simp only [apply_ite State.home, foldl_home resetCore_home, ite_self]
      exact h
theorem execRecastOrder_keepsMem (die donor target : Nat) {s : State} (h : Memory.wf s.home = true) :
    KeepsMem (execRecastOrder die donor target s) := by
  unfold execRecastOrder
  dsimp only
  (repeat' split) <;> simp [h]
theorem execCensusPolicyWrite_keepsMem (offset : Nat) (value : BitVec 64) {s : State} (h : Memory.wf s.home = true) :
    KeepsMem (execCensusPolicyWrite offset value s) := by
  unfold execCensusPolicyWrite
  (repeat' split) <;> simp [h]
theorem execCensusRequest_keepsMem (core id : Nat) {s : State} (h : Memory.wf s.home = true) : KeepsMem (execCensusRequest core id s) := by
  unfold execCensusRequest
  extract_lets c asid
  split
  · simp [h]
  · refine keepsMem_ite (by simp [h]) ?_
    extract_lets ans
    cases ha : ans with
    | none => simp [h]
    | some p =>
      obtain ⟨v, t⟩ := p
      have hw : t.home = s.home := by
        simp only [ans] at ha
        split at ha <;> simp only [Option.some.injEq, reduceCtorEq] at ha
        all_goals
          rw [← show _ = t from congrArg Prod.snd ha]
          simp
      simp [hw, h]
theorem execLeaseExpiry_keepsMem (asid slot : Nat) {s : State} (h : Memory.wf s.home = true) : KeepsMem (execLeaseExpiry asid slot s) := by
  unfold execLeaseExpiry
  dsimp only
  (repeat' split) <;> simp [h]
theorem execExpiringNotice_keepsMem (asid slot : Nat) {s : State} (h : Memory.wf s.home = true) : KeepsMem (execExpiringNotice asid slot s) := by
  unfold execExpiringNotice
  dsimp only
  (repeat' split) <;> simp [h]
theorem execPageEvacuation_keepsMem (tile : Nat) {s : State} (h : Memory.wf s.home = true) : KeepsMem (execPageEvacuation tile s) := by
  unfold execPageEvacuation
  (repeat' split) <;> simp [h]
theorem execRelayDrainDeadline_keepsMem (tile : Nat) {s : State} (h : Memory.wf s.home = true) : KeepsMem (execRelayDrainDeadline tile s) := by
  unfold execRelayDrainDeadline
  dsimp only
  (repeat' split) <;> simp [h]
theorem execAnnealComplete_keepsMem (tile : Nat) {s : State} (h : Memory.wf s.home = true) : KeepsMem (execAnnealComplete tile s) := by
  unfold execAnnealComplete
  dsimp only
  split
  · simp [h]
  · refine keepsMem_ite (by simp [h]) ((keepsMem_next _).2 ?_)
    exact foldl_wf (fun s n hs => by simp [hs]) _ h
theorem execScoreArrival_keepsMem (scope : Nat) {s : State} (h : Memory.wf s.home = true) : KeepsMem (execScoreArrival scope s) := by
  unfold execScoreArrival
  (repeat' split) <;> simp [h]
theorem execAllowanceStop_keepsMem (core : Nat) {s : State} (h : Memory.wf s.home = true) : KeepsMem (execAllowanceStop core s) := by
  unfold execAllowanceStop
  dsimp only
  (repeat' split) <;> simp [h]
theorem execRoundEnd_keepsMem (scope : Nat) {s : State} (h : Memory.wf s.home = true) : KeepsMem (execRoundEnd scope s) := by
  unfold execRoundEnd
  split
  · simp [h]
  · refine keepsMem_ite (by simp [h]) (keepsMem_ite (by simp [h]) ?_)
    have hr := fun (ms : List Nat) => foldl_wf (f := fun s n => s.release n 4) (fun s n hs => by simp [hs]) ms h
    refine keepsMem_ite (by simp [hr]) ?_
    have hk := fun (ds : List Nat) (k : Scope) {s1 : State} (h1 : Memory.wf s1.home = true) =>
      foldl_wf (f := fun s i => s.killContestant scope k i) (fun s n hs => by simp [hs]) ds h1
    refine keepsMem_ite (by simp [hr, hk]) ((keepsMem_next _).2 ?_)
    exact foldl_wf (fun s p hs => by simp [hs]) _ (hk _ _ (by simp [hr]))
theorem execRoundStart_keepsMem (scope : Nat) {s : State} (h : Memory.wf s.home = true) : KeepsMem (execRoundStart scope s) := by
  unfold execRoundStart
  dsimp only
  (repeat' split) <;> simp [h, apply_ite State.home]
theorem execScopeAbort_keepsMem (scope : Nat) {s : State} (h : Memory.wf s.home = true) : KeepsMem (execScopeAbort scope s) := by
  unfold execScopeAbort
  (repeat' split) <;> simp [h]
theorem execQueueWake_keepsMem (q : Nat) {s : State} (h : Memory.wf s.home = true) : KeepsMem (execQueueWake q s) := by
  refine State.scheduled_keepsMem h _ ?_
  dsimp only
  (repeat' split) <;> simp [h]
theorem execPacketFetch_keepsMem (q : Nat) {s : State} (h : Memory.wf s.home = true) : KeepsMem (execPacketFetch q s) := by
  refine State.scheduled_keepsMem h _ ?_
  dsimp only
  (repeat' split) <;> simp [h]
theorem execLaunchPacket_keepsMem (q idx : Nat) {s : State} (h : Memory.wf s.home = true) : KeepsMem (execLaunchPacket q idx s) := by
  refine State.inTurn_keepsMem h _ _ _ _ fun d p => ?_
  dsimp only
  (repeat' split) <;> simp [h]
theorem execCopyPacket_keepsMem (q idx : Nat) {s : State} (h : Memory.wf s.home = true) : KeepsMem (execCopyPacket q idx s) := by
  unfold execCopyPacket
  dsimp only
  split
  · simp [h]
  · refine keepsMem_ite (State.scheduled_keepsMem h _ ?_) (State.inTurn_keepsMem h _ _ _ _ fun d p => ?_)
    · split
      · exact h
      · split
        · next ht => simp [State.packetCopy_wf h ht]
        · simp [h]
    · split
      · simp [h]
      · split
        · next ht => simp [State.packetCopy_wf (by simp [h]) ht]
        · simp [h]
theorem execWaitPacket_keepsMem (q idx : Nat) {s : State} (h : Memory.wf s.home = true) : KeepsMem (execWaitPacket q idx s) := by
  unfold execWaitPacket
  dsimp only
  split
  · simp [h]
  · refine keepsMem_ite (by simp [h]) (State.inTurn_keepsMem h _ _ _ _ fun d p => ?_)
    (repeat' split) <;> simp [h]
theorem execWaitPoll_keepsMem (q idx : Nat) {s : State} (h : Memory.wf s.home = true) : KeepsMem (execWaitPoll q idx s) := by
  refine State.scheduled_keepsMem h _ ?_
  dsimp only
  (repeat' split) <;> simp [h]
theorem execWaitTimeout_keepsMem (q idx : Nat) {s : State} (h : Memory.wf s.home = true) : KeepsMem (execWaitTimeout q idx s) := by
  refine State.scheduled_keepsMem h _ ?_
  (repeat' split) <;> simp [h]
theorem execSignalPacket_keepsMem (q idx : Nat) {s : State} (h : Memory.wf s.home = true) : KeepsMem (execSignalPacket q idx s) := by
  unfold execSignalPacket
  dsimp only
  split
  · simp [h]
  · refine keepsMem_ite (State.scheduled_keepsMem h _ ?_) (State.inTurn_keepsMem h _ _ _ _ fun d p => ?_)
    · split
      · exact h
      · split
        · next ht => simp [State.packetAmo_wf h ht]
        · simp [h]
    · split
      · simp [h]
      · split
        · next ht => simp [State.packetAmo_wf (by simp [h]) ht]
        · simp [h]
theorem execIndirectPacket_keepsMem (q idx : Nat) {s : State} (h : Memory.wf s.home = true) : KeepsMem (execIndirectPacket q idx s) := by
  refine State.inTurn_keepsMem h _ _ _ _ fun d p => ?_
  dsimp only
  (repeat' split) <;> simp [h]
theorem execLoopPacket_keepsMem (q idx : Nat) {s : State} (h : Memory.wf s.home = true) : KeepsMem (execLoopPacket q idx s) := by
  refine State.inTurn_keepsMem h _ _ _ _ fun d p => ?_
  dsimp only
  (repeat' split) <;> simp [h]
theorem execFetchFencePacket_keepsMem (q idx : Nat) {s : State} (h : Memory.wf s.home = true) : KeepsMem (execFetchFencePacket q idx s) := by
  refine State.inTurn_keepsMem h _ _ _ _ fun d p => ?_
  dsimp only
  (repeat' split) <;> simp [h]
theorem execTourneyPacket_keepsMem (q idx : Nat) {s : State} (h : Memory.wf s.home = true) : KeepsMem (execTourneyPacket q idx s) := by
  unfold execTourneyPacket
  dsimp only
  split
  · simp [h]
  · refine keepsMem_ite (State.scheduled_keepsMem h _ ?_) (State.inTurn_keepsMem h _ _ _ _ fun d p => ?_)
    · split <;> simp [h]
    · (repeat' split) <;> simp [h]
theorem execLeasePacket_keepsMem (q idx : Nat) {s : State} (h : Memory.wf s.home = true) : KeepsMem (execLeasePacket q idx s) := by
  refine State.inTurn_keepsMem h _ _ _ _ fun d p => ?_
  dsimp only
  split
  · simp [h]
  · split
    · simp [h]
    · split
      · simp [h]
      · next ht => simp [State.packetWrite_wf (by simp [h]) ht]
theorem execResetQueuePacket_keepsMem (q idx : Nat) {s : State} (h : Memory.wf s.home = true) : KeepsMem (execResetQueuePacket q idx s) := by
  refine State.inTurn_keepsMem h _ _ _ _ fun d p => ?_
  dsimp only
  (repeat' split) <;> simp [h]
theorem execQueueResetControl_keepsMem (q : Nat) {s : State} (h : Memory.wf s.home = true) : KeepsMem (execQueueResetControl q s) := by
  refine State.scheduled_keepsMem h _ ?_
  extract_lets s1 d s2
  have h1 : Memory.wf s1.home = true := by
    simp only [s1]
    split <;> simp [h]
  have h2 : Memory.wf s2.home = true := (State.discardSent_home s1 _).symm ▸ h1
  split
  · rw [State.soon_home]
    exact h2
  · exact foldl_wf (fun s a hs => by simp [hs]) _ h2
theorem execPacketComplete_keepsMem (q idx : Nat) {s : State} (h : Memory.wf s.home = true) : KeepsMem (execPacketComplete q idx s) := by
  refine State.scheduled_keepsMem h _ ?_
  dsimp only
  split
  · exact h
  · split
    · simp [h]
    · split
      · exact h
      · split
        · simp [h]
        · next ht =>
          split at ht
          · simp [apply_ite State.home, State.packetAmo_wf h ht]
          · cases ht
            simp [apply_ite State.home, h]
theorem execHeartbeatSend_keepsMem {s : State} (h : Memory.wf s.home = true) : KeepsMem (execHeartbeatSend s) := by
  unfold execHeartbeatSend
  split <;> simp [h]
theorem execHeartbeatMiss_keepsMem (nb : Nat) {s : State} (h : Memory.wf s.home = true) : KeepsMem (execHeartbeatMiss nb s) := by
  unfold execHeartbeatMiss
  dsimp only
  refine keepsMem_ite (by simp [h]) (keepsMem_ite (by simp [h]) (keepsMem_ite ((keepsMem_next _).2 ?_) (keepsMem_ite (by simp [h]) (by simp [h]))))
  exact foldl_wf (fun s n hs => by simp [hs]) _ h
theorem execResetMessage_keepsMem (sender target counter : Nat) (tag : BitVec 384) {s : State} (h : Memory.wf s.home = true) :
    KeepsMem (execResetMessage sender target counter tag s) := by
  unfold execResetMessage
  dsimp only
  (repeat' split) <;> simp [h]
theorem execHostWindowWrite_keepsMem (port addr : Nat) (data : List Byte) {s : State} (h : Memory.wf s.home = true) :
    KeepsMem (execHostWindowWrite port addr data s) := by
  unfold execHostWindowWrite
  rw [keepsMem_next]
  split
  · split <;> simp [h]
  · split
    · exact foldl_wf (fun s p hs => by simp [hs]) _ h
    · exact h
theorem execHostWindowRead_keepsMem (port addr len : Nat) {s : State} (h : Memory.wf s.home = true) :
    KeepsMem (execHostWindowRead port addr len s) := by
  unfold execHostWindowRead
  (repeat' split) <;> simp [h]
theorem execHostLinkTrain_keepsMem (port rate width : Nat) {s : State} (h : Memory.wf s.home = true) :
    KeepsMem (execHostLinkTrain port rate width s) := by
  unfold execHostLinkTrain
  split <;> simp [h]
theorem execLinkFlitRetry_keepsMem (port : Nat) {s : State} (h : Memory.wf s.home = true) : KeepsMem (execLinkFlitRetry port s) := by
  unfold execLinkFlitRetry
  simp [h]
theorem execScaleupLinkDown_keepsMem (port : Nat) {s : State} (h : Memory.wf s.home = true) : KeepsMem (execScaleupLinkDown port s) := by
  unfold execScaleupLinkDown
  split <;> simp [h]
theorem execLinkRetrain_keepsMem (port : Nat) {s : State} (h : Memory.wf s.home = true) : KeepsMem (execLinkRetrain port s) := by
  unfold execLinkRetrain
  simp [h]
theorem execScrub_keepsMem (station : Nat) {s : State} (h : Memory.wf s.home = true) : KeepsMem (execScrub station s) := by
  unfold execScrub
  dsimp only
  (repeat' split) <;> simp [h]
theorem execPmodeWrite_keepsMem (value : Word) {s : State} (h : Memory.wf s.home = true) : KeepsMem (execPmodeWrite value s) := by
  unfold execPmodeWrite
  simp [h]
theorem execModeSwitchRestart_keepsMem {s : State} (h : Memory.wf s.home = true) : KeepsMem (execModeSwitchRestart s) := by
  unfold execModeSwitchRestart
  dsimp only
  (repeat' split) <;> simp [h]
theorem execPowerLimitExceeded_keepsMem {s : State} (h : Memory.wf s.home = true) : KeepsMem (execPowerLimitExceeded s) := by
  unfold execPowerLimitExceeded
  (repeat' split) <;> simp [h]
theorem execPowerCapRelease_keepsMem {s : State} (h : Memory.wf s.home = true) : KeepsMem (execPowerCapRelease s) := by
  unfold execPowerCapRelease
  (repeat' split) <;> simp [h]
theorem execFirmwareImage_keepsMem (image : List Byte) {s : State} (h : Memory.wf s.home = true) : KeepsMem (execFirmwareImage image s) := by
  unfold execFirmwareImage
  split <;> simp [h]
theorem execFlashWriteInterrupted_keepsMem {s : State} (h : Memory.wf s.home = true) : KeepsMem (execFlashWriteInterrupted s) := by
  unfold execFlashWriteInterrupted
  simp [h]
theorem execAttestationRequest_keepsMem (nonce : BitVec 256) (peer : BitVec 768) {s : State} (h : Memory.wf s.home = true) :
    KeepsMem (execAttestationRequest nonce peer s) := by
  unfold execAttestationRequest
  split <;> simp [h]
theorem execDeviceReset_keepsMem {s : State} (h : Memory.wf s.home = true) : KeepsMem (execDeviceReset s) := by
  rw [execDeviceReset, keepsMem_next]
  exact Store.wf_filter _ h
theorem execSwzWrite_keepsMem (core idx : Nat) (value : BitVec 64) {s : State} (h : Memory.wf s.home = true) :
    KeepsMem (execSwzWrite core idx value s) := by
  unfold execSwzWrite
  (repeat' split) <;> simp [h]
theorem execFpctlWrite_keepsMem (core : Nat) (value : BitVec 64) {s : State} (h : Memory.wf s.home = true) :
    KeepsMem (execFpctlWrite core value s) := by
  unfold execFpctlWrite
  split <;> simp [h]
theorem execFpctlRead_keepsMem (core : Nat) (str : Strm) (dst : BitVec 5) {s : State} (h : Memory.wf s.home = true) :
    KeepsMem (execFpctlRead core str dst s) := by
  unfold execFpctlRead
  dsimp only
  (repeat' split) <;> simp [h]
theorem execSrseedWrite_keepsMem (core : Nat) (value : BitVec 64) {s : State} (h : Memory.wf s.home = true) :
    KeepsMem (execSrseedWrite core value s) := by
  unfold execSrseedWrite
  split <;> simp [h]
theorem execWinWrite_keepsMem (core : Nat) (str : Strm) (value : BitVec 64) {s : State} (h : Memory.wf s.home = true) :
    KeepsMem (execWinWrite core str value s) := by
  unfold execWinWrite
  simp [h]
theorem execRegisterWrite_keepsMem (core : Nat) (reg : CtlReg) (value : BitVec 64) {s : State} (h : Memory.wf s.home = true) :
    KeepsMem (execRegisterWrite core reg value s) := by
  unfold execRegisterWrite
  split <;> simp [h]
theorem execCxlSnoop_keepsMem (port _addr : Nat) {s : State} (h : Memory.wf s.home = true) : KeepsMem (execCxlSnoop port _addr s) := by
  unfold execCxlSnoop
  split <;> simp [h]
theorem execSiteEviction_keepsMem (core : Nat) {s : State} (h : Memory.wf s.home = true) : KeepsMem (execSiteEviction core s) := by
  unfold execSiteEviction
  dsimp only
  (repeat' split) <;> simp [h]
theorem execSoftError_keepsMem (site : ErrSite) (multi : Bool) {s : State} (h : Memory.wf s.home = true) : KeepsMem (execSoftError site multi s) := by
  unfold execSoftError
  (repeat' split) <;> simp [h]
theorem execKernelHartAccess_keepsMem (hart : Nat) (op : HartOp) {s : State} (h : Memory.wf s.home = true) :
    KeepsMem (execKernelHartAccess hart op s) := by
  unfold execKernelHartAccess
  refine keepsMem_ite (by simp [h]) ?_
  dsimp only
  split
  · split
    · simp [h]
    · refine keepsMem_ite (by simp [h]) (keepsMem_ite (by simp [h]) ((keepsMem_next _).2 ?_))
      have hr := fun (locs : List Nat) (b : List Byte × State) => foldl_keeps (fun r : List Byte × State => r.2.home)
        (f := fun r l => (r.1 ++ (r.2.readHome (Config.cores + hart) l 1).1, (r.2.readHome (Config.cores + hart) l 1).2)) (fun r l => by simp) locs b
      rw [hr]
      simp [h]
  · split
    · simp [h]
    · rw [keepsMem_next]
      split
      · simp [h]
      · exact State.landHome_wf (fun s ws hs => foldl_wf (fun s w hs => by simp [hs]) ws hs) (by simp [h])
  · simp [h]

end Sys2Proof.Machine
end

section
/-!
SUPPORT. The words whose effect leaves their core keep global memory canonical.
-/

namespace Sys2Proof.Machine
open Sys2Proof.Slice0
set_option mvcgen.warning false
variable {s : State} (hs : Memory.wf s.home = true)
include hs
theorem execPapply_keepsMem (n : BitVec 3) (t l b : BitVec 5) (im : BitVec 1) (p : BitVec 3) : KeepsMem (execPapply n t l b im p s) :=
  issue_keepsMem (fun cx => by mvcgen [keepsMemM_onCore, keepsMemM_startCmd]) hs _
theorem execPstSet_keepsMem (n : BitVec 3) (d a : BitVec 5) : KeepsMem (execPstSet n d a s) :=
  issue_keepsMem (fun cx => by mvcgen [keepsMemM_onCore]; split <;> simp [*]) hs _
theorem execPutr_keepsMem (n : BitVec 3) (t l b : BitVec 5) : KeepsMem (execPutr n t l b s) :=
  issue_keepsMem (fun cx => by mvcgen [keepsMemM_onCore, keepsMemM_startCmd]; simp [*]) hs _
theorem execGetr_keepsMem (n : BitVec 3) (t l b : BitVec 5) : KeepsMem (execGetr n t l b s) :=
  issue_keepsMem (fun cx => by mvcgen [keepsMemM_onCore, keepsMemM_startCmd]; simp [*]) hs _
theorem execDeposit_keepsMem (n : BitVec 3) (t x b : BitVec 5) (y : BitVec 1) : KeepsMem (execDeposit n t x b y s) :=
  issue_keepsMem (fun cx => by mvcgen [keepsMemM_onCore, keepsMemM_remoteM]) hs _
theorem execNotify_keepsMem (n : BitVec 3) (t x b : BitVec 5) : KeepsMem (execNotify n t x b s) :=
  issue_keepsMem (fun cx => by mvcgen [keepsMemM_onCore, keepsMemM_remoteM]) hs _
theorem execMcast_keepsMem (n : BitVec 3) (t l b : BitVec 5) (y : BitVec 1) : KeepsMem (execMcast n t l b y s) :=
  issue_keepsMem (fun cx => by mvcgen [keepsMemM_onCore, keepsMemM_startCmd, keepsMemM_throw, -Std.Do.Spec.throw_Except]; simp [*]) hs _
theorem execReduce_keepsMem (n : BitVec 3) (t l b : BitVec 5) (f : BitVec 1) (o : BitVec 3) (y : BitVec 2) : KeepsMem (execReduce n t l b f o y s) :=
  issue_keepsMem (fun cx => by mvcgen [keepsMemM_onCore, keepsMemM_startCmd, keepsMemM_soonEvent]; simp [*]) hs _
theorem execRedabort_keepsMem (n : BitVec 3) (t b : BitVec 5) : KeepsMem (execRedabort n t b s) :=
  issue_keepsMem (fun cx => by mvcgen [keepsMemM_onCore, keepsMemM_startCmd] <;> simp [*]) hs _
theorem execGld_keepsMem (n : BitVec 3) (t b : BitVec 5) (x : BitVec 1) (z h : BitVec 2) : KeepsMem (execGld n t b x z h s) :=
  issue_keepsMem (fun cx => by mvcgen [keepsMemM_onCore, keepsMemM_startCmd, keepsMemM_postEvent]) hs _
theorem execGst_keepsMem (n : BitVec 3) (t x b : BitVec 5) (z h : BitVec 2) : KeepsMem (execGst n t x b z h s) :=
  issue_keepsMem (fun cx => by mvcgen [keepsMemM_onCore, keepsMemM_startCmd, keepsMemM_postEvent]) hs _
theorem execFence_keepsMem (n c : BitVec 3) (o : BitVec 2) (p x : BitVec 6) : KeepsMem (execFence n c o p x s) :=
  issue_keepsMem (fun cx => by mvcgen [keepsMemM_onCore, keepsMemM_freshId, keepsMemM_postEvent]) hs _
theorem execAmo_keepsMem (n : BitVec 3) (t x b : BitVec 5) (o : BitVec 3) (g : BitVec 2) (c : BitVec 3) : KeepsMem (execAmo n t x b o g c s) :=
  issue_keepsMem (fun cx => by mvcgen [keepsMemM_onCore, keepsMemM_startCmd, keepsMemM_postEvent]) hs _
theorem execStinv_keepsMem (n k : BitVec 3) (a : BitVec 5) : KeepsMem (execStinv n k a s) :=
  issue_keepsMem (fun cx => by mvcgen [keepsMemM_onCore]) hs _
theorem execGetid_keepsMem (n : BitVec 3) (d x : BitVec 5) : KeepsMem (execGetid n d x s) :=
  issue_keepsMem (fun cx => by mvcgen [keepsMemM_onCore]) hs _
theorem execLease_keepsMem (n : BitVec 3) (d x t : BitVec 5) : KeepsMem (execLease n d x t s) :=
  issue_keepsMem (fun cx => by mvcgen [keepsMemM_onCore, keepsMemM_censusM]) hs _
theorem execLeaseR_keepsMem (n : BitVec 3) (d h t : BitVec 5) : KeepsMem (execLeaseR n d h t s) :=
  issue_keepsMem (fun cx => by mvcgen [keepsMemM_onCore, keepsMemM_censusM]) hs _
theorem execLdrop_keepsMem (n : BitVec 3) (d h : BitVec 5) : KeepsMem (execLdrop n d h s) :=
  issue_keepsMem (fun cx => by mvcgen [keepsMemM_onCore, keepsMemM_censusM]) hs _
theorem execRoleq_keepsMem (n : BitVec 3) (d x : BitVec 5) (c : BitVec 2) : KeepsMem (execRoleq n d x c s) :=
  issue_keepsMem (fun cx => by mvcgen [keepsMemM_onCore, keepsMemM_censusM]) hs _
theorem execMld_keepsMem (n : BitVec 3) (t l b : BitVec 5) (f : BitVec 2) (x : BitVec 1) (g : BitVec 4) : KeepsMem (execMld n t l b f x g s) :=
  issue_keepsMem (fun cx => by mvcgen [keepsMemM_onCore, keepsMemM_startCmd, keepsMemM_postEvent]) hs _
theorem execMzero_keepsMem (n : BitVec 3) (c : BitVec 5) (k : BitVec 3) : KeepsMem (execMzero n c k s) :=
  issue_keepsMem (fun cx => by mvcgen [keepsMemM_onCore, keepsMemM_postEvent]) hs _
theorem execMmaj_keepsMem (n : BitVec 3) (c : BitVec 5) (a : BitVec 1) (f : BitVec 4) (b : BitVec 1) (g : BitVec 4) (k : BitVec 3) (x : BitVec 2) :
    KeepsMem (execMmaj n c a f b g k x s) :=
  issue_keepsMem (fun cx => by mvcgen [keepsMemM_onCore, keepsMemM_postEvent]) hs _
theorem execMst_keepsMem (n : BitVec 3) (t l b : BitVec 5) (c : BitVec 2) (f : BitVec 4) : KeepsMem (execMst n t l b c f s) :=
  issue_keepsMem (fun cx => by mvcgen [keepsMemM_onCore, keepsMemM_startCmd]) hs _
theorem execRot_keepsMem (n : BitVec 3) (t a l : BitVec 5) (d : BitVec 2) : KeepsMem (execRot n t a l d s) :=
  issue_keepsMem (fun cx => by mvcgen [keepsMemM_onCore, keepsMemM_startCmd]; simp [*]) hs _
theorem execProd_keepsMem (n : BitVec 3) (d x : BitVec 5) : KeepsMem (execProd n d x s) :=
  issue_keepsMem (fun cx => by mvcgen [keepsMemM_onCore, keepsMemM_startCmd, keepsMemM_stageM]) hs _
theorem execCons_keepsMem (n : BitVec 3) (d : BitVec 5) : KeepsMem (execCons n d s) :=
  issue_keepsMem (fun cx => by mvcgen [keepsMemM_onCore, keepsMemM_startCmd, keepsMemM_stageM]) hs _
theorem execProdClose_keepsMem (n : BitVec 3) (d : BitVec 5) : KeepsMem (execProdClose n d s) :=
  issue_keepsMem (fun cx => by mvcgen [keepsMemM_onCore, keepsMemM_startCmd, keepsMemM_stageM]) hs _
theorem execSnext_keepsMem (n : BitVec 3) (d : BitVec 5) : KeepsMem (execSnext n d s) :=
  issue_keepsMem (fun cx => by mvcgen [keepsMemM_onCore, keepsMemM_stageM]) hs _
theorem execTq_keepsMem (n : BitVec 3) (d c : BitVec 5) : KeepsMem (execTq n d c s) :=
  issue_keepsMem (fun cx => by mvcgen [keepsMemM_onCore]) hs _
theorem execXsel_keepsMem (c : BitVec 9) (r : BitVec 5) (k : BitVec 1) (t : BitVec 8) : KeepsMem (execXsel c r k t s) :=
  issueTimed_keepsMem (fun cx => by mvcgen [keepsMemM_onCore]) hs _
theorem execSleep_keepsMem (n : BitVec 3) (d x t : BitVec 5) : KeepsMem (execSleep n d x t s) := by
  refine solo_keepsMem hs fun s hs => ?_
  have hi := issueC_keepsMem hs (.sleep n d x t) (sleepM n d x t)
  dsimp only
  split
  · next ht => split <;> simp [hi _ ht]
  · exact hi
theorem execGang_keepsMem (d x : BitVec 5) : KeepsMem (execGang d x s) := by
  have hi := issue_keepsMem (eff := gangM d x) (fun _ => keepsMemM_gangM d x) hs (.gang d x)
  unfold execGang
  dsimp only
  split
  · next ht => (repeat' split) <;> simp [hi _ ht]
  · exact hi
theorem execUngang_keepsMem (n : BitVec 3) (d : BitVec 5) : KeepsMem (execUngang n d s) := by
  unfold execUngang
  dsimp only
  refine keepsMem_ite (issueU_keepsMem hs _ _) ?_
  have hi := fun (s1 : State) (h1 : s1.home = s.home) => issueU_keepsMem (s := s1) (h1 ▸ hs) (.ungang n d) fun cx => do
    let c ← get
    wrX cx d (match c.gang with | some g => BitVec.ofNat 64 g.pos | none => BitVec.allOnes 64)
  split
  · next ht => split <;> simp [hi _ (State.setCore_home _ _ _) _ ht]
  · exact hi _ (State.setCore_home _ _ _)
theorem execXend_keepsMem (d : BitVec 5) : KeepsMem (execXend d s) := by
  have hi := issueC_keepsMem hs (.xend d) (xendM d)
  unfold execXend
  dsimp only
  split
  · next ht => split <;> simp [hi _ ht]
  · exact hi
theorem execHalt_keepsMem (n : BitVec 3) : KeepsMem (execHalt n s) := by
  refine solo_keepsMem hs fun s hs => ?_
  have hi := issueU_keepsMem hs (.halt n) haltM
  dsimp only
  split
  · next ht => split <;> simp [hi _ ht]
  · exact hi
theorem execAwait_keepsMem (d t : BitVec 5) : KeepsMem (execAwait d t s) := runnerWord_keepsMem (solo_keepsMem hs fun _ hs => issueC_keepsMem hs _ _)
theorem execYield_keepsMem (d : BitVec 5) : KeepsMem (execYield d s) := runnerWord_keepsMem (solo_keepsMem hs fun _ hs => issueC_keepsMem hs _ _)
theorem retire_keepsMem (i : Instr) (cancel : Bool) : KeepsMem (runnerWord (solo (issue i (retireM cancel))) s) :=
  runnerWord_keepsMem (solo_keepsMem hs fun _ hs => issue_keepsMem (fun _ => keepsMemM_retireM cancel) hs i)

end Sys2Proof.Machine
end

section
/-!
SUPPORT. Every step keeps global memory canonical (R276 to R278; log entry 6).
-/

namespace Sys2Proof.Machine
open Sys2Proof.Slice0
variable {s : State} (h : Memory.wf s.home = true)
include h
theorem runEvent_keepsMem (e : Ev) : KeepsMem (runEvent e s) := by
  cases e
  case fetch => exact execFetch_keepsMem _ _ h
  case resultWriteback => exact execResultWriteback_keepsMem _ _ h
  case puntyExpire => exact execPuntyExpire_keepsMem _ _ _ h
  case refreshCycle core bank => exact execRefreshCycle_keepsMem core bank h
  case trapEntry => exact execTrapEntry_keepsMem _ _ h
  case eventDelivery => exact execEventDelivery_keepsMem _ h
  case watchdog => exact execWatchdog_keepsMem _ h
  case pairedSafePoint => exact execPairedSafePoint_keepsMem _ h
  case preemptRequest => exact execPreemptRequest_keepsMem _ _ _ _ h
  case preemptOverdue => exact execPreemptOverdue_keepsMem _ h
  case contextSave => exact execContextSave_keepsMem _ h
  case contextResume => exact execContextResume_keepsMem _ _ h
  case coreKill => exact execCoreKill_keepsMem _ h
  case sleepWake => exact execSleepWake_keepsMem _ h
  case sleepTimeout => exact execSleepTimeout_keepsMem _ h
  case sauStart => exact execSauStart_keepsMem _ h
  case sauComplete => exact execSauComplete_keepsMem _ h
  case vrepDispatch => exact execVrepDispatch_keepsMem _ h
  case mldFill => exact execMldFill_keepsMem _ h
  case globalStreamRow => exact execGlobalStreamRow_keepsMem _ _ h
  case multiplyStart => exact execMultiplyStart_keepsMem _ h
  case multiplyComplete => exact execMultiplyComplete_keepsMem _ h
  case mstRowSend => exact execMstRowSend_keepsMem _ h
  case mmajJoin => exact execMmajJoin_keepsMem _ h
  case mmajJoinTimeout => exact execMmajJoinTimeout_keepsMem _ h
  case rotJoin => exact execRotJoin_keepsMem _ h
  case rotJoinTimeout => exact execRotJoinTimeout_keepsMem _ h
  case solveStart => exact execSolveStart_keepsMem _ h
  case solveComplete => exact execSolveComplete_keepsMem _ h
  case pointsApplication => exact execPointsApplication_keepsMem _ _ h
  case engineGranule => exact execEngineGranule_keepsMem _ _ h
  case tokenStatusWrite => exact execTokenStatusWrite_keepsMem _ _ h
  case routerHop => exact execRouterHop_keepsMem _ h
  case occupancyUpdate => exact execOccupancyUpdate_keepsMem h
  case packetArrival => exact execPacketArrival_keepsMem _ h
  case reorderResend => exact execReorderResend_keepsMem _ h
  case remapNack => exact execRemapNack_keepsMem _ h
  case depositArrival => exact execDepositArrival_keepsMem _ h
  case depositLatchTimeout => exact execDepositLatchTimeout_keepsMem _ h
  case busyResend => exact execBusyResend_keepsMem _ h
  case retryDepositResend => exact execRetryDepositResend_keepsMem _ h
  case deviceDepositLand => exact execDeviceDepositLand_keepsMem _ h
  case notifyArrival => exact execNotifyArrival_keepsMem _ h
  case combine => exact execCombine_keepsMem _ h
  case reduceResultLand => exact execReduceResultLand_keepsMem _ _ _ h
  case combinePark => exact execCombinePark_keepsMem _ _ _ h
  case translationRequest => exact execTranslationRequest_keepsMem _ _ h
  case pageWalk => exact execPageWalk_keepsMem _ _ h
  case faultRetry => exact execFaultRetry_keepsMem _ _ h
  case faultDecline => exact execFaultDecline_keepsMem _ _ h
  case amoHome => exact execAmoHome_keepsMem _ _ h
  case releasePerformed => exact execReleasePerformed_keepsMem _ _ h
  case acquireComplete => exact execAcquireComplete_keepsMem _ _ h
  case stationInvalidate => exact execStationInvalidate_keepsMem _ _ h
  case barrierArrival => exact execBarrierArrival_keepsMem _ h
  case barrierWithdrawal => exact execBarrierWithdrawal_keepsMem _ h
  case groupAbort => exact execGroupAbort_keepsMem _ _ h
  case exchangeJoin => exact execExchangeJoin_keepsMem _ _ h
  case exchangeJoinTimeout => exact execExchangeJoinTimeout_keepsMem _ _ h
  case phaseEnd => exact execPhaseEnd_keepsMem _ _ h
  case gangJoin => exact execGangJoin_keepsMem _ h
  case gangJoinTimeout => exact execGangJoinTimeout_keepsMem _ h
  case taskHandover => exact execTaskHandover_keepsMem _ _ h
  case domainDrain => exact execDomainDrain_keepsMem _ _ h
  case taskReady => exact execTaskReady_keepsMem _ _ _ h
  case prodGrant => exact execProdGrant_keepsMem _ _ _ h
  case consGrant => exact execConsGrant_keepsMem _ _ _ h
  case shunterInterval => exact execShunterInterval_keepsMem _ _ h
  case stageSwitch => exact execStageSwitch_keepsMem _ h
  case distributorServe => exact execDistributorServe_keepsMem _ _ h
  case censusInterval => exact execCensusInterval_keepsMem h
  case recastCommit => exact execRecastCommit_keepsMem _ h
  case recastOrder => exact execRecastOrder_keepsMem _ _ _ h
  case censusPolicyWrite => exact execCensusPolicyWrite_keepsMem _ _ h
  case censusRequest => exact execCensusRequest_keepsMem _ _ h
  case leaseExpiry => exact execLeaseExpiry_keepsMem _ _ h
  case expiringNotice => exact execExpiringNotice_keepsMem _ _ h
  case pageEvacuation => exact execPageEvacuation_keepsMem _ h
  case relayDrainDeadline => exact execRelayDrainDeadline_keepsMem _ h
  case annealComplete => exact execAnnealComplete_keepsMem _ h
  case scoreArrival => exact execScoreArrival_keepsMem _ h
  case allowanceStop => exact execAllowanceStop_keepsMem _ h
  case roundEnd => exact execRoundEnd_keepsMem _ h
  case roundStart => exact execRoundStart_keepsMem _ h
  case scopeAbort => exact execScopeAbort_keepsMem _ h
  case queueWake => exact execQueueWake_keepsMem _ h
  case packetFetch => exact execPacketFetch_keepsMem _ h
  case launchPacket => exact execLaunchPacket_keepsMem _ _ h
  case copyPacket => exact execCopyPacket_keepsMem _ _ h
  case waitPacket => exact execWaitPacket_keepsMem _ _ h
  case waitPoll => exact execWaitPoll_keepsMem _ _ h
  case waitTimeout => exact execWaitTimeout_keepsMem _ _ h
  case signalPacket => exact execSignalPacket_keepsMem _ _ h
  case indirectPacket => exact execIndirectPacket_keepsMem _ _ h
  case loopPacket => exact execLoopPacket_keepsMem _ _ h
  case fetchFencePacket => exact execFetchFencePacket_keepsMem _ _ h
  case tourneyPacket => exact execTourneyPacket_keepsMem _ _ h
  case leasePacket => exact execLeasePacket_keepsMem _ _ h
  case resetQueuePacket => exact execResetQueuePacket_keepsMem _ _ h
  case queueResetControl => exact execQueueResetControl_keepsMem _ h
  case packetComplete => exact execPacketComplete_keepsMem _ _ h
  case heartbeatSend => exact execHeartbeatSend_keepsMem h
  case heartbeatMiss => exact execHeartbeatMiss_keepsMem _ h
  case resetMessage => exact execResetMessage_keepsMem _ _ _ _ h
  case hostWindowWrite => exact execHostWindowWrite_keepsMem _ _ _ h
  case hostWindowRead => exact execHostWindowRead_keepsMem _ _ _ h
  case hostLinkTrain => exact execHostLinkTrain_keepsMem _ _ _ h
  case linkFlitRetry => exact execLinkFlitRetry_keepsMem _ h
  case scaleupLinkDown => exact execScaleupLinkDown_keepsMem _ h
  case linkRetrain => exact execLinkRetrain_keepsMem _ h
  case scrub => exact execScrub_keepsMem _ h
  case pmodeWrite => exact execPmodeWrite_keepsMem _ h
  case modeSwitchRestart => exact execModeSwitchRestart_keepsMem h
  case powerLimitExceeded => exact execPowerLimitExceeded_keepsMem h
  case powerCapRelease => exact execPowerCapRelease_keepsMem h
  case firmwareImage => exact execFirmwareImage_keepsMem _ h
  case flashWriteInterrupted => exact execFlashWriteInterrupted_keepsMem h
  case attestationRequest => exact execAttestationRequest_keepsMem _ _ h
  case deviceReset => exact execDeviceReset_keepsMem h
  case swzWrite => exact execSwzWrite_keepsMem _ _ _ h
  case fpctlWrite => exact execFpctlWrite_keepsMem _ _ h
  case fpctlRead => exact execFpctlRead_keepsMem _ _ _ h
  case srseedWrite => exact execSrseedWrite_keepsMem _ _ h
  case winWrite => exact execWinWrite_keepsMem _ _ _ h
  case registerWrite => exact execRegisterWrite_keepsMem _ _ _ h
  case cxlSnoop port addr => exact execCxlSnoop_keepsMem port addr h
  case siteEviction => exact execSiteEviction_keepsMem _ h
  case softError => exact execSoftError_keepsMem _ _ h
  case kernelHartAccess => exact execKernelHartAccess_keepsMem _ _ h
theorem issueSau_keepsMem {eff : Ctx → DM Unit} (he : ∀ x, KeepsMemM (eff x)) (i : Instr) : KeepsMem (issueSau i eff s) :=
  issue_keepsMem (fun _ => keepsMemM_sauM he) h i
/-- Every instruction keeps global memory canonical: a step of the device as its event does, and a word as the parts of its issue do. -/
theorem exec_keepsMem (i : Instr) : KeepsMem (exec i s) := by
  cases he : i.toEv? with
  | some e =>
    rw [← runEvent_toEv he]
    exact runEvent_keepsMem h e
  | none =>
    cases i
    case add | sub | and | or | xor | shl | shr | sha | min | minZ64 | max | maxZ64 | clz | popc | mov | movFromCtl | movToCtl | shlImm | shrImm
        | shaImm | sel | mul | mulh | mulhZ64 | cmp | bfx | bfxZ64 | bfi | lea | geom | addImm | andImm | orImm | xorImm | ldS | ldZ | st | ldq
        | stq | vldq | vstq | ldb | ldbS64 | stb | ntake | take | peek | waitm | putm | waitn | setn | decn | fadd | fsub | fmul | fmin | fmax
        | fma | fcmp | fcvt | fclass | movEFromCtl | movEToCtl | mmap | pst | pcyc | peq | sysw | spill | fill | nop | ifence =>
      exact issueU_keepsMem h _ _
    case div | divZ64 | rem | remZ64 | fdiv | fsqrt => exact issueLate_keepsMem h _ _
    case rot => exact execRot_keepsMem h _ _ _ _ _
    case putr => exact execPutr_keepsMem h _ _ _ _
    case getr => exact execGetr_keepsMem h _ _ _ _
    case copy | copy2 | copyp => exact issue_keepsMem (fun _ => keepsMemM_copyM _ _ _ _ _ _ _) h _
    case gld => exact execGld_keepsMem h _ _ _ _ _ _
    case gst => exact execGst_keepsMem h _ _ _ _ _ _
    case amo => exact execAmo_keepsMem h _ _ _ _ _ _ _
    case deposit => exact execDeposit_keepsMem h _ _ _ _ _
    case notify => exact execNotify_keepsMem h _ _ _ _
    case mcast => exact execMcast_keepsMem h _ _ _ _ _
    case reduce => exact execReduce_keepsMem h _ _ _ _ _ _ _
    case redabort => exact execRedabort_keepsMem h _ _ _
    case query | queryM => exact issue_keepsMem (fun _ => keepsMemM_queryM _ _ _ _ _) h _
    case bar | barx | phase => exact issueBar_keepsMem (fun _ => keepsMemM_barM _ _ _ _) h _
    case fence => exact execFence_keepsMem h _ _ _ _ _
    case gang => exact execGang_keepsMem h _ _
    case ungang => exact execUngang_keepsMem h _ _
    case spawn | spawnC => exact issue_keepsMem (fun _ => keepsMemM_spawnM _ _ _ _) h _
    case await => exact execAwait_keepsMem h _ _
    case yield => exact execYield_keepsMem h _
    case retire | retireCancel => exact retire_keepsMem h _ _
    case prod => exact execProd_keepsMem h _ _ _
    case cons => exact execCons_keepsMem h _ _
    case snext => exact execSnext_keepsMem h _ _
    case prodClose => exact execProdClose_keepsMem h _ _
    case lease => exact execLease_keepsMem h _ _ _ _
    case leaseR => exact execLeaseR_keepsMem h _ _ _ _
    case ldrop => exact execLdrop_keepsMem h _ _ _
    case roleq => exact execRoleq_keepsMem h _ _ _ _
    case scoreS64 | scoreZ64 | scoreF64 | scoreClr => exact issue_keepsMem (fun _ => keepsMemM_scoreM _ _) h _
    case heat | trap | tret | loop | loopQ | loopr | looprQ | brk => exact issueC_keepsMem h _ _
    case tq => exact execTq_keepsMem h _ _ _
    case vadd | vsub | vmul | vmin | vmax | vshl | vshr | vsha | vfadd | vfsub | vfmul | vfmin | vfmax | vfrcp | vfrsq | vfabs | vfma | vfms
        | vfnma | vfmaw | vcvt | vscale | vunscale | vcmp | vperm | vziplo | vziphi | vunzipe | vunzipo | vrev | vcompress | vradd | vrmin
        | vrmax | vrfadd | vrfmin | vrfmax | vtab | tload | tcfg | vmov | vmovFromVldq | vmovToVstq | vbcast | vext | vins | vand | vor | vxor
        | vandn | vsel | kand | kor | kxor | knot | kfromv | vfromk | kpopc => exact issueSau_keepsMem h (fun _ => keepsMemM_onCore _ _) _
    case vrep | vrepQ => exact issue_keepsMem (fun _ => keepsMemM_vrepM _ _ _) h _
    case mld => exact execMld_keepsMem h _ _ _ _ _ _ _
    case mma | mmas => exact issue_keepsMem (fun _ => keepsMemM_mmaM _ _ _ _ _ _ _) h _
    case mzero => exact execMzero_keepsMem h _ _ _
    case mmaj => exact execMmaj_keepsMem h _ _ _ _ _ _ _ _
    case mst => exact execMst_keepsMem h _ _ _ _ _ _
    case pld | pldSet | pid | pmov | prot | pcomp | pinv | prand => exact issue_keepsMem (fun _ => keepsMemM_pointsM _ _) h _
    case pstSet => exact execPstSet_keepsMem h _ _ _
    case papply => exact execPapply_keepsMem h _ _ _ _ _ _
    case xbegin => exact issue_keepsMem (fun _ => keepsMemM_xbeginM _ _ _) h _
    case xend => exact execXend_keepsMem h _
    case xmit => exact issueTimed_keepsMem (fun _ => keepsMemM_xmitM _ _ _ _) h _
    case xsel => exact execXsel_keepsMem h _ _ _ _
    case sysr => exact issue_keepsMem (fun _ => keepsMemM_sysrM _ _) h _
    case stinv => exact execStinv_keepsMem h _ _ _
    case sleep => exact execSleep_keepsMem h _ _ _ _
    case halt => exact execHalt_keepsMem h _
    case getid => exact execGetid_keepsMem h _ _ _
    case tgt | imm | live | jtab | mod | sched | xt => exact issueHint_keepsMem h _ _
    all_goals cases he
theorem runWord_keepsMem (w : Insn) : KeepsMem (runWord exec w s) := by
  unfold runWord
  split
  · exact exec_keepsMem h _
  · simp [h]
  · simp [h]
theorem State.boundary_wf {t : State} (ht : s.boundary = some t) : Memory.wf t.home = true := by
  have hs : ∀ {o : Out}, KeepsMem o → Out.state? o = some t → Memory.wf t.home = true := by
    intro o ho hot
    unfold Out.state? at hot
    split at hot <;> cases hot
    exact ho _ rfl
  unfold State.boundary at ht
  dsimp only at ht
  split at ht
  · cases ht
  · split at ht
    · exact hs (execTrapEntry_keepsMem _ _ h) ht
    · split at ht
      · exact hs (execWatchdog_keepsMem _ h) ht
      · split at ht
        · simp [State.stallStep_home _ _ _ _ ht, h]
        · split at ht
          · next hf =>
            cases ht
            simp [State.failContestant_home _ _ _ hf, h]
          · split at ht
            · next hp =>
              cases ht
              simp [State.parkStep_home _ _ _ _ hp, h]
            · split at ht
              · exact hs (execEventDelivery_keepsMem _ h) ht
              · cases ht
/-- What the moving stream does next, be it a boundary or a word, it does in a state with canonical memory. -/
def Ready.state : Ready → State
  | .moved s => s
  | .word _ s => s
omit h in
@[simp] theorem State.nextWord_home (s : State) : s.nextWord.state.home = s.home := by
  unfold State.nextWord
  dsimp only
  (repeat' split) <;> simp [Ready.state]
theorem State.nextMove_wf : Memory.wf s.nextMove.state.home = true := by
  unfold State.nextMove
  dsimp only
  split
  · next hb => exact State.boundary_wf (by simp [h]) hb
  · split
    · exact (congrArg Memory.wf s.tidy_home).trans h
    · rw [State.nextWord_home, State.tidy_home]
      exact h
theorem issueMove_keepsMem : KeepsMem (issueMove exec s) := by
  have hn := State.nextMove_wf h
  unfold issueMove
  split
  · next hm =>
    rw [hm] at hn
    exact (keepsMem_next _).2 hn
  · next hm =>
    rw [hm] at hn
    exact runWord_keepsMem hn _
theorem eventMove_keepsMem (e : Ev) : KeepsMem (eventMove e s) := by
  unfold eventMove
  exact keepsMem_ite (by simp) (keepsMem_ite (by simp [h]) (runEvent_keepsMem h e))
omit h in
@[simp] theorem State.round_home (s : State) : s.round.home = s.home := by simp [State.round]
omit h in
@[simp] theorem State.turn_home (s : State) : s.turn.home = s.home := by
  unfold State.turn
  split
  · rfl
  · split <;> simp
theorem step_keepsMem : KeepsMem (step s) := by
  rw [step, stepWith]
  split
  · next r _ => exact eventMove_keepsMem (s := { s with plan := r }) h _
  · exact keepsMem_ite (by simp) (keepsMem_ite (by simp [h]) (issueMove_keepsMem (by simp [h])))
  · simp [h]
  · refine keepsMem_ite (by simp [h]) ?_
    have hi := issueMove_keepsMem h
    split
    · next ht => simp [hi _ ht]
    · exact hi
end Sys2Proof.Machine
namespace Sys2Proof.Slice0
open Sys2Proof.Machine
/-- Settles O10: only the performing of writes and the reset of the device touch global memory, by changes of one place and by leaving out places;
both keep the canonical form. -/
theorem stepKeepsMemory : Obligations.StepKeepsMemory := by
  intro s t h ht
  exact step_keepsMem h t ht
end Sys2Proof.Slice0
end


section
/-!
SUPPORT. The steps of releases, acquires, AMOs and distributors (R276 to R284, R361), under the conditions that their table names.
-/

namespace Sys2Proof.Slice0

open Sys2Proof.Machine

section
variable {s t : State} {n id : Nat}

/-- The release of a fence or of a copy is performed. -/
theorem releasePerformed_happens (h : orderStep s (.releasePerformed n id) = some t) : exec (.releasePerformed n id) s = .next t := by
  delta orderStep at h
  dsimp only at h
  rw [exec_releasePerformed, execReleasePerformed]
  cases hfence : (s.core n).fence? id with
  | some f =>
    simp only [hfence] at h ⊢
    obtain ⟨⟨hreleased, hdone⟩, rfl⟩ := onlyIf_eq h
    rw [hreleased, hdone]
    exact (apply_ite Host.Outcome.next _ _ _).symm
  | none =>
    cases hcmd : (s.core n).cmd? id with
    | none => simp only [hfence, hcmd] at h; cases h
    | some k =>
      simp only [hfence, hcmd] at h ⊢
      split at h
      · next hop =>
        obtain ⟨⟨hopen, hdone⟩, rfl⟩ := onlyIf_eq h
        simp only [Cmd.open_, hopen, hdone]
        rfl
      · cases h

/-- The acquire of a fence, a copy or an AMO is complete. -/
theorem acquireComplete_happens (h : orderStep s (.acquireComplete n id) = some t) : exec (.acquireComplete n id) s = .next t := by
  delta orderStep at h
  dsimp only at h
  rw [exec_acquireComplete, execAcquireComplete]
  cases hfence : (s.core n).fence? id with
  | some f =>
    simp only [hfence] at h ⊢
    obtain ⟨⟨horder, hdone, hready⟩, rfl⟩ := onlyIf_eq h
    have hgoes : (!(s.core n).releasesDone id || (f.order = 1 && !(s.core n).classDone id f.pred) || (f.order != 1 && !f.released)) = false := by
      split at hready <;> simp_all
    rw [if_neg horder, hgoes]
    rfl
  | none =>
    cases hcmd : (s.core n).cmd? id with
    | none => simp only [hfence, hcmd] at h; cases h
    | some k =>
      simp only [hfence, hcmd] at h ⊢
      split at h
      · next hop =>
        obtain ⟨⟨hopen, hacqd, hdone⟩, rfl⟩ := onlyIf_eq h
        simp only [Cmd.open_, hopen, hacqd, hdone]
        rfl
      · next hop =>
        cases hresult : k.result with
        | none => simp only [hresult] at h; cases h
        | some v =>
          simp only [hresult] at h
          obtain ⟨⟨hopen, hdone⟩, rfl⟩ := onlyIf_eq h
          simp only [Cmd.open_, hopen, hdone]
          rfl
      · cases h

/-- What an AMO writes, its comparisons being those of signed numbers (R284). -/
theorem amoValue_eq (op : Nat) (old opnd new_ : Word) : amoValue op old opnd new_ = match op with
    | 0 => old + opnd
    | 1 => if opnd.toInt < old.toInt then opnd else old
    | 2 => if old.toInt < opnd.toInt then opnd else old
    | 3 => old &&& opnd
    | 4 => old ||| opnd
    | 5 => old ^^^ opnd
    | 6 => opnd
    | _ => if old = opnd then new_ else old := by
  unfold amoValue
  split <;> simp [BitVec.slt_iff_toInt_lt]

/-- An AMO acts at the home of its location. -/
theorem amoHome_happens (h : orderStep s (.amoHome n id) = some t) : exec (.amoHome n id) s = .next t := by
  delta orderStep at h
  dsimp only at h
  rw [exec_amoHome, execAmoHome]
  cases hcmd : (s.core n).cmd? id with
  | none => simp only [hcmd] at h; cases h
  | some k =>
    simp only [hcmd] at h ⊢
    split at h
    · next op order sc va opnd new_ loc d hop hxl =>
      obtain ⟨⟨hopen, hresult, hfree, holder, hact, hsound⟩, rfl⟩ := onlyIf_eq h
      have holder : (decide (2 ≤ order) && !(s.core n).globalDone id) = false := by simpa using holder
      simp only [Cmd.open_, hopen, hresult, State.accessWaits_of_canAct hxl hact, hfree, holder, hsound, amoValue_eq]
      exact (apply_ite Host.Outcome.next _ _ _).symm
    · cases h

/-- A distributor hands out its next items. -/
theorem distributorServe_happens (h : orderStep s (.distributorServe n id) = some t) : exec (.distributorServe n id) s = .next t := by
  delta orderStep at h
  dsimp only at h
  rw [exec_distributorServe, execDistributorServe]
  cases hcmd : (s.core n).cmd? id with
  | none => simp only [hcmd] at h; cases h
  | some k =>
    simp only [hcmd] at h ⊢
    split at h
    · next va addr ctr mreg post form loc d hop hxl =>
      obtain ⟨hgoes, h⟩ := ite_none h
      simp only [not_or, not_and, not_not, Bool.not_eq_false, Bool.not_eq_true] at hgoes
      obtain ⟨hopen, hresult, hwait, hact, hsound, hfree⟩ := hgoes
      have hfree : (!form && (s.core n).engineBlocked id addr 16 true) = false := by
        cases form with
        | true => rfl
        | false => exact hfree rfl
      simp only [Cmd.open_, hopen, hresult, hwait, State.accessWaits_of_canAct hxl hact, hfree, hsound]
      split at h
      · obtain rfl := Option.some.inj h
        rfl
      · simp only [decide_eq_true_eq]
        cases form with
        | true =>
          obtain rfl := Option.some.inj h
          rfl
        | false =>
          obtain rfl := Option.some.inj h
          rfl
    · cases h

/-- The kernel invalidates entries of the stations. -/
theorem stationInvalidate_happens {kind operand : Nat} (h : orderStep s (.stationInvalidate kind operand) = some t) :
    exec (.stationInvalidate kind operand) s = .next t :=
  congrArg Host.Outcome.next (Option.some.inj h)

end

/-- Settles O51: under its condition each step is its own definition. That an AMO's destination is written after its acquire, and what a distributor in
the far tier answers, are the model's choices (log entries 18 and 20). -/
theorem orderSteps : Obligations.OrderSteps := by
  intro s i t h
  cases i
  case releasePerformed => exact releasePerformed_happens h
  case acquireComplete => exact acquireComplete_happens h
  case amoHome => exact amoHome_happens h
  case distributorServe => exact distributorServe_happens h
  case stationInvalidate => exact stationInvalidate_happens h
  all_goals exact absurd h (Option.some_ne_none t).symm

end Sys2Proof.Slice0
end

section
/-!
SUPPORT. The steps of domains, pipelines and the shunter (R341, R345, R347, R354 to R358), under the conditions that their table names.
-/

namespace Sys2Proof.Slice0

open Sys2Proof.Machine

section
variable {s t : State} {asid grp : Nat}

/-- One record goes to one runner, or the domain is looked at for its end. -/
theorem taskHandover_happens (h : taskStep s (.taskHandover asid grp) = some t) : exec (.taskHandover asid grp) s = .next t := by
  delta taskStep at h
  dsimp only at h
  rw [exec_taskHandover, execTaskHandover]
  cases hmatch : s.match_ asid (s.dom asid grp) with
  | none =>
    simp only [hmatch] at h ⊢
    obtain ⟨hempty, rfl⟩ := onlyIf_eq h
    simp [hempty]
  | some m =>
    obtain ⟨n, k, r⟩ := m
    simp only [hmatch] at h ⊢
    obtain ⟨hfree, h⟩ := ite_none h
    rw [not_or, Option.isSome_iff_ne_none, not_not] at hfree
    obtain ⟨hfault, hheld⟩ := hfree
    simp only [State.handRecord, hfault, if_neg hheld]
    split at h
    · obtain rfl := Option.some.inj h
      rfl
    · cases h

/-- A yielded task is ready again. -/
theorem taskReady_happens {k : Nat} (h : taskStep s (.taskReady asid grp k) = some t) : exec (.taskReady asid grp k) s = .next t := by
  delta taskStep at h
  dsimp only at h
  rw [exec_taskReady, execTaskReady]
  cases hrec : s.rec? asid k with
  | none => simp only [hrec] at h; cases h
  | some r =>
    simp only [hrec] at h ⊢
    obtain ⟨⟨hready, hout, hruns⟩, rfl⟩ := onlyIf_eq h
    simp [hready, hout, hruns]

/-- The domain has drained, and its runners start at their drain addresses. -/
theorem domainDrain_happens (h : taskStep s (.domainDrain asid grp) = some t) : exec (.domainDrain asid grp) s = .next t := by
  delta taskStep at h
  dsimp only at h
  rw [exec_domainDrain, execDomainDrain]
  obtain ⟨⟨hlive, hrunners, htakes, hthere⟩, rfl⟩ := onlyIf_eq h
  have htakes : ((s.dom asid grp).runners.any fun m => !s.takesRecord m) = false := by simpa using htakes
  simp only [List.all_filter, htakes, hlive, hrunners]
  rw [if_neg]
  · rfl
  · simp only [ne_eq, not_true_eq_false, false_or, Bool.not_eq_false]
    refine Eq.trans (congrArg _ (funext fun m => ?_)) hthere
    simp [bne]

/-- The oldest PROD whose turn it is gets the free slot. -/
theorem prodGrant_happens {j : Nat} (h : taskStep s (.prodGrant asid grp j) = some t) : exec (.prodGrant asid grp j) s = .next t := by
  delta taskStep at h
  dsimp only at h
  rw [exec_prodGrant, execProdGrant, State.grantProd]
  cases hpipe : s.pipe asid grp with
  | none => simp only [hpipe] at h; cases h
  | some p =>
    cases hclaim : (p.ring j).prodClaims.find? fun k => s.claimFirst k.1 k.2 with
    | none =>
      simp only [hpipe, hclaim] at h ⊢
      rw [Option.some.inj h]
    | some c =>
      obtain ⟨n, id⟩ := c
      simp only [hpipe, hclaim] at h ⊢
      cases hcmd : (s.core n).cmd? id with
      | none => simp only [hcmd] at h; cases h
      | some k =>
        simp only [hcmd] at h ⊢
        obtain ⟨hfree, rfl⟩ := onlyIf_eq h
        rw [if_neg (not_not.mpr hfree)]

/-- A ring is at its end when it is closed and holds no slot that is filling or full. -/
theorem ended_iff (r : Ring) : r.ended = true ↔ r.closed = true ∧ (r.slots.all fun v => v.2.st != 1 && v.2.st != 2) = true := by
  simp [Ring.ended]

/-- The oldest CONS whose turn it is gets the next full slot. -/
theorem consGrant_happens {j : Nat} (h : taskStep s (.consGrant asid grp j) = some t) : exec (.consGrant asid grp j) s = .next t := by
  delta taskStep at h
  dsimp only at h
  rw [exec_consGrant, execConsGrant]
  generalize s.closeRing asid grp j = s0 at h ⊢
  cases hpipe : s0.pipe asid grp with
  | none => simp only [hpipe] at h; cases h
  | some p =>
    simp only [hpipe, ended_iff] at h ⊢
    split at h
    · next hended => rw [if_pos hended, Option.some.inj h]
    · next hmore =>
      rw [if_neg hmore]
      cases hclaim : (p.ring j).consClaims.find? fun k => ((p.ring j).draining k.1).isNone && s0.claimFirst k.1 k.2 with
      | none =>
        simp only [hclaim] at h ⊢
        rw [Option.some.inj h]
      | some c =>
        obtain ⟨n, id⟩ := c
        simp only [hclaim] at h ⊢
        obtain ⟨hfull, rfl⟩ := onlyIf_eq h
        rw [if_pos hfull]

/-- A look at a ring takes no time. -/
theorem shunts_ns (s : State) (asid grp : Nat) (p : Pipe) (js : List Nat) : (js.foldl (fun s j => s.shunt asid grp p j) s).ns = s.ns :=
  foldl_keeps State.ns (fun s j => by simp only [State.shunt, State.markMove]; (repeat' split) <;> rfl) js s

/-- The shunter looks at every ring of a pipeline. -/
theorem shunterInterval_happens (h : taskStep s (.shunterInterval asid grp) = some t) : exec (.shunterInterval asid grp) s = .next t := by
  delta taskStep at h
  dsimp only at h
  rw [exec_shunterInterval, execShunterInterval]
  cases hpipe : s.pipe asid grp with
  | none => simp only [hpipe] at h; cases h
  | some p =>
    simp only [hpipe] at h ⊢
    obtain ⟨hdue, rfl⟩ := onlyIf_eq h
    rw [if_neg (Nat.not_lt.mpr hdue), shunts_ns]

/-- A core that is in no gang starts at its new stage. -/
theorem stageSwitch_happens {n : Nat} (h : taskStep s (.stageSwitch n) = some t) : exec (.stageSwitch n) s = .next t := by
  delta taskStep at h
  dsimp only at h
  rw [exec_stageSwitch, execStageSwitch]
  obtain ⟨⟨hgang, hparked, hq, hswitch, hclaims, hquiet⟩, rfl⟩ := onlyIf_eq h
  simp only [hparked, hq, hswitch, hclaims, hquiet, disbandGang, hgang]
  rfl

end

/-- Settles O52: under its condition each step is its own definition. The phase that a grant returns and what becomes of a malformed record are the
model's choices (log entries 47 and 119). -/
theorem taskSteps : Obligations.TaskSteps := by
  intro s i t h
  cases i
  case taskHandover => exact taskHandover_happens h
  case taskReady => exact taskReady_happens h
  case domainDrain => exact domainDrain_happens h
  case prodGrant => exact prodGrant_happens h
  case consGrant => exact consGrant_happens h
  case shunterInterval => exact shunterInterval_happens h
  case stageSwitch => exact stageSwitch_happens h
  all_goals exact absurd h (Option.some_ne_none t).symm

end Sys2Proof.Slice0
end

section
/-!
SUPPORT. The steps of the census (R366 to R383), under the conditions that their table names.
-/

namespace Sys2Proof.Slice0

open Sys2Proof.Machine

section
variable {s t : State} {tile : Nat}

/-- The model's lapse of leases is the table's. -/
theorem lapse_eq (s : State) : s.lapse = lapsed s := rfl

/-- The policy write, in the model's words. -/
theorem censusPolicyWrite_happens {off : Nat} {v : BitVec 64} (h : censusStep s (.censusPolicyWrite off v) = some t) :
    exec (.censusPolicyWrite off v) s = .next t := by
  delta censusStep at h
  dsimp only at h
  rw [exec_censusPolicyWrite, execCensusPolicyWrite]
  by_cases hblock : off < 0x100
  · rw [if_pos hblock] at h
    obtain ⟨hword, rfl⟩ := onlyIf_eq h
    rw [if_neg (not_not.mpr hword), if_pos hblock]
    rfl
  · rw [if_neg hblock] at h
    obtain ⟨⟨hword, htable⟩, rfl⟩ := onlyIf_eq h
    rw [if_neg (not_not.mpr hword), if_neg hblock, if_pos htable]
    rfl

/-- The census at the end of an interval. -/
theorem censusInterval_happens (h : censusStep s .censusInterval = some t) : exec .censusInterval s = .next t := by
  delta censusStep at h
  dsimp only at h
  rw [exec_censusInterval, execCensusInterval]
  obtain ⟨hdue, rfl⟩ := onlyIf_eq h
  rw [if_neg (Nat.not_lt.mpr hdue)]
  rfl

/-- What an order does when it has tokens: the first tile in census order that is eligible starts. -/
theorem donateFrom_of_find {die role target now t0 : Nat} {r : List Nat} {u : Nat} (horder : s.censusOrder die role target = t0 :: r)
    (hfind : (t0 :: r).find? (fun t => State.eligible (if (s.census.leases.any fun l => l.covers t0) = true then s.spare t0 role target else s) t false)
      = some u) :
    (s.donateFrom die role target now).1 =
      spend ((if (s.census.leases.any fun l => l.covers t0) = true then s.spare t0 role target else s).startRecast u role target now) die := by
  simp only [State.donateFrom, horder, hfind]
  rfl

/-- An order of the kernel starts a re-cast. -/
theorem recastOrder_happens {die donor target : Nat} (h : censusStep s (.recastOrder die donor target) = some t) :
    exec (.recastOrder die donor target) s = .next t := by
  delta censusStep at h
  dsimp only at h
  rw [exec_recastOrder, execRecastOrder]
  split at h
  · next t0 r horder =>
    split at h
    · next u hfind =>
      obtain ⟨⟨hdie, hdonor, htarget, hother, htokens⟩, rfl⟩ := onlyIf_eq h
      rw [if_neg (by
        rintro (hd | hd | ht | he | hl)
        · omega
        · omega
        · omega
        · exact hother he
        · exact absurd htokens (Nat.not_le.mpr hl))]
      exact congrArg _ (donateFrom_of_find horder hfind)
    · cases h
  · cases h

/-- The module under a new generation of the map. -/
def nextGeneration (s : State) : State := withCensus s fun c => { c with g := c.g + 1 }

/-- The module when a tile's pending re-cast has been taken off the list. -/
def uncautioned (s : State) (tile : Nat) : State := withCensus (lapsed s) fun c => { c with pending := c.pending.filter fun q => q.tile != tile }

/-- Where a committed re-cast puts the tile's resident work. -/
def recastTarget (s : State) (tile : Nat) : Option Nat := if (s.tileMap tile).role = 0 ∧ s.resident tile = true then s.receiver tile else none

/-- What a commit does with the tile, and the tile that anneals: the one that gave its site, or the tile itself. -/
def recastLeaves (s : State) (tile to_ : Nat) : Option Nat → State × Nat
  | some u => (s.migrateTile tile u to_ s.census.g, u)
  | none =>
    let m := s.tileMap tile
    let s1 := s.setTileMap tile ⟨m.site, m.role, some to_, s.census.g.toNat⟩
    (if m.role = 0 then (tileCores m.site).foldl resetCore s1 else s1, tile)

/-- How the annealing of a tile begins, in the model's order: a routing tile's entries are parked before the role's own step becomes due. -/
def annealBegins (m : TileMap) (s : State) (u : Nat) : State :=
  let s1 := (List.range 16).foldl State.syncCopy (withCensus s fun c => { c with annealing := Store.set 0 c.annealing u s.ns })
  let s2 := if m.role = 2 then s1.parkCombs m.site else s1
  (if m.role = 1 then s2.post (.pageEvacuation u) else if m.role = 2 then s2.soon (.relayDrainDeadline u) else s2).soon (.annealComplete u)

/-- A commit in the model's order. -/
def commits (s : State) (tile to_ : Nat) : State :=
  let s1 := nextGeneration s
  let p := recastLeaves s1 tile to_ (recastTarget s1 tile)
  annealBegins (s.tileMap tile) p.1 p.2

/-- Neither a new name nor an empty site takes time. -/
theorem rename_ns (s : State) (m n : Nat) : (s.rename m n).ns = s.ns := rfl

theorem leaveSite_ns (s : State) (n : Nat) : (s.leaveSite n).ns = s.ns := rfl

theorem dropRunner_ns (s : State) (n : Nat) : (s.dropRunner n).ns = s.ns := foldl_keeps State.ns (fun s d => by split <;> rfl) s.doms s

/-- A saved core's move to another site takes no time. -/
theorem moveSaved_ns (s : State) (m u : Nat) : (s.moveSaved m u).ns = s.ns := by
  unfold State.moveSaved
  split
  · simp only [rename_ns, leaveSite_ns, State.setCore_ns, dropRunner_ns]
  · rfl

/-- A migration takes no time. -/
theorem migrateTile_ns (s : State) (m u to_ : Nat) (g : BitVec 16) : (s.migrateTile m u to_ g).ns = s.ns := by
  unfold State.migrateTile
  refine (foldl_keeps State.ns (fun _ _ => State.modCore_ns _ _ _) _ _).trans ((foldl_keeps State.ns (fun s _ => moveSaved_ns s _ _) _ _).trans rfl)

/-- What a commit does with the tile takes no time. -/
theorem recastLeaves_ns (s : State) (tile to_ : Nat) (target : Option Nat) : (recastLeaves s tile to_ target).1.ns = s.ns := by
  cases target with
  | some u => exact migrateTile_ns s tile u to_ s.census.g
  | none =>
    simp only [recastLeaves]
    split
    · exact foldl_keeps State.ns (f := resetCore) (fun _ _ => rfl) _ _
    · rfl

/-- The table's order is the model's: no tile has both a routing tile's entries and a storage tile's pages. -/
theorem annealBegins_eq (m : TileMap) (s : State) (u : Nat) {s1 : State}
    (hs1 : s1 = (List.range 16).foldl State.syncCopy (withCensus s fun c => { c with annealing := Store.set 0 c.annealing u s.ns })) :
    annealBegins m s u = (if m.role = 1 then s1.post (.pageEvacuation u)
      else if m.role = 2 then (s1.parkCombs m.site).soon (.relayDrainDeadline u) else s1).soon (.annealComplete u) := by
  subst hs1
  unfold annealBegins
  by_cases hrouting : m.role = 2
  · simp [hrouting]
  · simp [hrouting]

/-- The table's commit is the model's. -/
theorem recasts_eq_commits (s : State) (tile to_ : Nat) : recasts s tile to_ = commits s tile to_ := by
  have htime := recastLeaves_ns (nextGeneration s) tile to_ (recastTarget (nextGeneration s) tile)
  let s1 := withCensus s fun c => { c with g := s.census.g + 1 }
  have htable : (if (s.tileMap tile).role = 0 ∧ s1.resident tile = true then s1.receiver tile else none) = recastTarget (nextGeneration s) tile := rfl
  unfold commits
  rw [annealBegins_eq _ _ _ rfl, htime, recasts]
  simp only [s1] at htable
  cases htarget : recastTarget (nextGeneration s) tile <;> simp only [htable, htarget] <;> rfl

/-- A due re-cast is cancelled or commits, in the model's words. -/
theorem execRecastCommit_due {r : Recast} (h : (s.census.pending.find? fun r => r.tile == tile && decide (r.commitAt ≤ 10000 * s.census.done)) = some r) :
    execRecastCommit tile s =
      if (r.cancelled || !(uncautioned s tile).eligible tile true || decide ((uncautioned s tile).roleCount (siteDie (s.tileMap tile).site) r.from_
          ≤ (uncautioned s tile).census.minOf (siteDie (s.tileMap tile).site) r.from_)) = true then
        .next (r.who.foldl (fun s1 n => s1.notice n (noticeWord 4 r.from_ r.to_ s1.census.g.toNat tile (s.tileMap tile).site 0)) (uncautioned s tile))
      else .next (commits (uncautioned s tile) tile r.to_) := by
  rw [execRecastCommit, h]
  dsimp -zeta only
  extract_lets +onlyGivenNames m die s0 c0 s1
  have hs1 : s1 = uncautioned s tile := rfl
  clear_value s1
  subst hs1
  refine ite_congr rfl (fun _ => rfl) (fun _ => ?_)
  extract_lets +onlyGivenNames g c1 s2
  have hs2 : s2 = nextGeneration (uncautioned s tile) := rfl
  have hg : g = (nextGeneration (uncautioned s tile)).census.g := rfl
  clear_value g s2
  subst hs2 hg
  change (match recastLeaves (nextGeneration (uncautioned s tile)) tile r.to_ (recastTarget (nextGeneration (uncautioned s tile)) tile) with
    | (s2, u) => Host.Outcome.next (annealBegins (s.tileMap tile) s2 u)) = _
  rfl

/-- A pending re-cast commits or is cancelled. -/
theorem recastCommit_happens (h : censusStep s (.recastCommit tile) = some t) : exec (.recastCommit tile) s = .next t := by
  delta censusStep at h
  dsimp only at h
  rw [exec_recastCommit]
  split at h
  · next r hpending =>
    rw [execRecastCommit_due hpending]
    simp only [Bool.or_eq_true, Bool.not_eq_true', decide_eq_true_eq, or_assoc]
    split at h
    · next hcancel => exact (if_pos hcancel).trans (congrArg Host.Outcome.next (Option.some.inj h))
    · next hgoes => exact (if_neg hgoes).trans (congrArg Host.Outcome.next ((recasts_eq_commits _ _ _).symm.trans (Option.some.inj h)))
  · cases h

/-- The census answers a word. -/
theorem censusRequest_happens {n id : Nat} (h : censusStep s (.censusRequest n id) = some t) : exec (.censusRequest n id) s = .next t := by
  delta censusStep at h
  dsimp only at h
  rw [exec_censusRequest, execCensusRequest]
  cases hcmd : (s.core n).cmd? id with
  | none => simp only [hcmd] at h; cases h
  | some k =>
    simp only [hcmd] at h ⊢
    split at h
    · next v s1 hanswer =>
      obtain ⟨hopen, rfl⟩ := onlyIf_eq h
      simp only [hopen, Bool.not_true, Bool.false_eq_true, if_false]
      split at hanswer
      case h_5 => cases hanswer
      case h_4 =>
        obtain ⟨rfl, rfl⟩ := Prod.mk.inj (Option.some.inj hanswer)
        rfl
      all_goals simp only [Option.some.inj hanswer]
    · cases h

/-- A leaving storage tile's lowest page goes into transit, or its copy ends. -/
theorem pageEvacuation_happens (h : censusStep s (.pageEvacuation tile) = some t) : exec (.pageEvacuation tile) s = .next t := by
  delta censusStep at h
  dsimp only at h
  rw [exec_pageEvacuation, execPageEvacuation]
  cases hpages : s.pagesOf tile with
  | nil => simp only [hpages] at h; cases h
  | cons page r =>
    simp only [hpages] at h ⊢
    obtain ⟨hleaves, rfl⟩ := onlyIf_eq h
    simp only [hleaves, if_true, List.head?_cons]
    cases s.census.transit.find? fun t => t.1 == page <;> rfl

/-- What the relay store still holds at the deadline is injected again. -/
theorem relayDrainDeadline_happens (h : censusStep s (.relayDrainDeadline tile) = some t) : exec (.relayDrainDeadline tile) s = .next t := by
  delta censusStep at h
  dsimp only at h
  rw [exec_relayDrainDeadline, execRelayDrainDeadline]
  obtain ⟨⟨hleaves, hdue⟩, rfl⟩ := onlyIf_eq h
  rw [if_neg hleaves, if_neg (Nat.not_lt.mpr hdue)]

/-- A tile that has left its role is normal in its new one. -/
theorem annealComplete_happens (h : censusStep s (.annealComplete tile) = some t) : exec (.annealComplete tile) s = .next t := by
  delta censusStep at h
  dsimp only at h
  rw [exec_annealComplete, execAnnealComplete]
  cases htoward : (s.tileMap tile).toward with
  | none => simp only [htoward] at h; cases h
  | some to_ =>
    simp only [htoward] at h ⊢
    obtain ⟨hleft, rfl⟩ := onlyIf_eq h
    simp [hleft, withCensus]

/-- A lease's expiry is seen. -/
theorem leaseExpiry_happens {asid k : Nat} (h : censusStep s (.leaseExpiry asid k) = some t) : exec (.leaseExpiry asid k) s = .next t := by
  obtain rfl := Option.some.inj h
  rfl

/-- The EXPIRING notice of a lease is sent once it is due. -/
theorem expiringNotice_happens {asid k : Nat} (h : censusStep s (.expiringNotice asid k) = some t) : exec (.expiringNotice asid k) s = .next t := by
  delta censusStep at h
  dsimp only at h
  rw [exec_expiringNotice, execExpiringNotice]
  split at h
  · next l hlease =>
    obtain ⟨⟨hunsent, hdue⟩, rfl⟩ := onlyIf_eq h
    simp only [lapse_eq, hlease, hunsent, Bool.false_eq_true, if_false]
    exact (if_neg (Nat.not_lt.mpr hdue)).trans rfl
  · cases h

end

/-- Settles O53: under its condition each step of the census is its own definition. That a receiver's logical tile exchanges sites and anneals, that
a page's bytes stand in one place and when an expiry is seen are the model's choices (log entries 42, 51 and 52). -/
theorem censusSteps : Obligations.CensusSteps := by
  intro s i t h
  cases i
  case censusInterval => exact censusInterval_happens h
  case recastOrder => exact recastOrder_happens h
  case recastCommit => exact recastCommit_happens h
  case censusPolicyWrite => exact censusPolicyWrite_happens h
  case censusRequest => exact censusRequest_happens h
  case pageEvacuation => exact pageEvacuation_happens h
  case relayDrainDeadline => exact relayDrainDeadline_happens h
  case annealComplete => exact annealComplete_happens h
  case leaseExpiry => exact leaseExpiry_happens h
  case expiringNotice => exact expiringNotice_happens h
  all_goals exact absurd h (Option.some_ne_none t).symm

end Sys2Proof.Slice0
end

section
/-!
SUPPORT. The steps of a tournament (R389 to R398), under the conditions that their table names.
-/

namespace Sys2Proof.Slice0

open Sys2Proof.Machine

section
variable {s t : State} {id : Nat}

/-- The oldest SCORE on its way reaches its register. -/
theorem scoreArrival_happens (h : tourneyStep s (.scoreArrival id) = some t) : exec (.scoreArrival id) s = .next t := by
  delta tourneyStep at h
  dsimp only at h
  rw [exec_scoreArrival, execScoreArrival]
  cases hscope : s.scope? id with
  | none => simp only [hscope] at h; cases h
  | some k =>
    cases hscores : k.scores with
    | nil => simp only [hscope, hscores] at h; cases h
    | cons v r =>
      simp only [hscope, hscores] at h ⊢
      rw [Option.some.inj h]

/-- A gang whose core's allowance is spent stops for the round. -/
theorem allowanceStop_happens {n : Nat} (h : tourneyStep s (.allowanceStop n) = some t) : exec (.allowanceStop n) s = .next t := by
  delta tourneyStep at h
  dsimp only at h
  rw [exec_allowanceStop, execAllowanceStop]
  obtain ⟨⟨hact, hparked⟩, rfl⟩ := onlyIf_eq h
  simp [hact, hparked]

/-- A round starts: shares are given, and the members go on. -/
theorem roundStart_happens (h : tourneyStep s (.roundStart id) = some t) : exec (.roundStart id) s = .next t := by
  delta tourneyStep at h
  dsimp only at h
  rw [exec_roundStart, execRoundStart]
  cases hscope : s.scope? id with
  | none => simp only [hscope] at h; cases h
  | some k =>
    simp only [hscope] at h ⊢
    obtain ⟨⟨hlive, hrests⟩, rfl⟩ := onlyIf_eq h
    simp only [hlive, hrests, Bool.or_self, Bool.false_eq_true, if_false]

/-- A round ends: the scope finishes, or the survivors grow. -/
theorem roundEnd_happens (h : tourneyStep s (.roundEnd id) = some t) : exec (.roundEnd id) s = .next t := by
  delta tourneyStep at h
  dsimp only at h
  rw [exec_roundEnd, execRoundEnd]
  cases hscope : s.scope? id with
  | none => simp only [hscope] at h; cases h
  | some k =>
    simp only [hscope] at h ⊢
    obtain ⟨⟨hlive, hbegun, hscores, hstop, hquiet⟩, rfl⟩ := onlyIf_eq h
    rw [if_neg (by simp [hlive, hbegun, hscores, hstop]), if_neg (by simp [hquiet])]
    rw [apply_ite Host.Outcome.next, apply_ite Host.Outcome.next]
    rfl

/-- A scope that is not over is aborted. -/
theorem scopeAbort_happens (h : tourneyStep s (.scopeAbort id) = some t) : exec (.scopeAbort id) s = .next t := by
  delta tourneyStep at h
  dsimp only at h
  rw [exec_scopeAbort, execScopeAbort]
  cases hscope : s.scope? id with
  | none => simp only [hscope] at h; cases h
  | some k =>
    simp only [hscope] at h ⊢
    obtain ⟨hlive, rfl⟩ := onlyIf_eq h
    simp [hlive]

end

/-- Settles O54: under its condition each step of a tournament is its own definition. What a round's end waits for and what it does to its members
are the model's choices (log entries 61, 65, 66, 67, 136 and 137). -/
theorem tournamentSteps : Obligations.TournamentSteps := by
  intro s i t h
  cases i
  case scoreArrival => exact scoreArrival_happens h
  case allowanceStop => exact allowanceStop_happens h
  case roundStart => exact roundStart_happens h
  case roundEnd => exact roundEnd_happens h
  case scopeAbort => exact scopeAbort_happens h
  all_goals exact absurd h (Option.some_ne_none t).symm

end Sys2Proof.Slice0
end

section
/-!
SUPPORT. The steps of command queues (R418 to R426), under the conditions that their table names.
-/

namespace Sys2Proof.Slice0

open Sys2Proof.Machine

/-! ### Schedulers (R418, R426) -/

section
variable {s t : State} {q id type : Nat}

/-- While the complex is up a scheduler acts. -/
theorem scheduled_up (hup : s.isl.complexDown = false) (again : Ev) (f : State → State) : s.scheduled again f = .next (f s) := by
  simp only [State.scheduled, hup, Bool.false_eq_true, if_false]

/-- While the complex is down what is due comes again. -/
theorem scheduled_down (hdown : s.isl.complexDown = true) (again : Ev) (f : State → State) : s.scheduled again f = .next (s.soon again) := by
  simp only [State.scheduled, hdown, if_true]

/-- The packet that is served now starts. -/
theorem inTurn_served {d : Queue} {p : QPacket} (hup : s.isl.complexDown = false) (h : servedNow s q id type = some (d, p)) (again : Ev)
    (f : Queue → QPacket → State) : s.inTurn q id type again f = .next (f d p) := by
  simp only [servedNow] at h
  rw [State.inTurn, scheduled_up hup]
  cases hturn : s.turn? q id type with
  | none => simp only [hturn] at h; cases h
  | some e =>
    obtain ⟨d', p'⟩ := e
    simp only [hturn] at h ⊢
    split at h
    · next hserves =>
      obtain ⟨rfl, rfl⟩ := Prod.mk.inj (Option.some.inj h)
      rw [if_pos hserves]
    · cases h

/-- The packet that is served now has the type of the step. -/
theorem type_of_served {d : Queue} {p : QPacket} (h : servedNow s q id type = some (d, p)) : p.type = type := by
  simp only [servedNow, State.turn?] at h
  cases hfirst : (s.queue q).first with
  | none => simp only [hfirst] at h; cases h
  | some p' =>
    simp only [hfirst] at h
    by_cases hturn : p'.seqno = id ∧ p'.type = type ∧ (s.queue q).ready = true
    · simp only [if_pos hturn] at h
      split at h
      · obtain ⟨rfl, rfl⟩ := Prod.mk.inj (Option.some.inj h)
        exact hturn.2.1
      · cases h
    · simp only [if_neg hturn] at h; cases h

/-- A packet that is not resumed and has not started is in its queue. -/
theorem unstarted_eq (h : unstarted s q id = true) : ∃ p, (s.queue q).pkt? id = some p ∧ p.started = false := by
  simp only [unstarted] at h
  cases hpkt : (s.queue q).pkt? id with
  | none => simp only [hpkt] at h; cases h
  | some p =>
    simp only [hpkt, Bool.not_eq_true'] at h
    exact ⟨p, rfl, h⟩

/-- What a resumed packet is. -/
theorem resumed_eq {p : QPacket} (h : resumed s q id type = some p) :
    (s.queue q).pkt? id = some p ∧ p.started = true ∧ p.over_ = false ∧ p.completed = false ∧ p.held = false ∧ p.type = type ∧ p.failing = 0 := by
  simp only [resumed] at h
  cases hpkt : (s.queue q).pkt? id with
  | none => simp only [hpkt] at h; cases h
  | some p' =>
    simp only [hpkt] at h
    split at h
    · next hruns =>
      obtain rfl := Option.some.inj h
      exact ⟨rfl, hruns⟩
    · cases h

/-- The events of the packets that have started, one after another. -/
theorem resumePkts_eq (s : State) (q : Nat) :
    s.resumePkts q = (((s.queue q).pkts.filter fun p => p.started && !p.completed && !p.held && !p.over_).filterMap fun p =>
      startEvent q p.seqno p.type).foldl State.post s := by
  rw [State.resumePkts, List.foldl_filterMap]
  refine List.foldl_ext _ _ _ fun s p _ => ?_
  cases startEvent q p.seqno p.type <;> rfl

/-- A queue wakes. -/
theorem queueWake_happens (hup : s.isl.complexDown = false) (h : queueWork s (.queueWake q) = some t) : exec (.queueWake q) s = .next t := by
  obtain rfl := Option.some.inj h
  rw [exec_queueWake, execQueueWake, scheduled_up hup]
  simp only [← resumePkts_eq]
  by_cases hrests : (s.queue q).en = false ∨ 2 ≤ (s.queue q).state
  · rw [if_pos hrests, if_pos (or_assoc.mp (Or.inl hrests))]
  · rw [if_neg hrests]
    by_cases hformed : (s.queue q).formed = true
    · by_cases hempty : (s.queue q).rd = (s.queue q).wr <;> simp [hrests, hformed, hempty]
    · simp [hrests, hformed]

/-- The next packet of a queue is read. -/
theorem packetFetch_happens (hup : s.isl.complexDown = false) (h : queueWork s (.packetFetch q) = some t) : exec (.packetFetch q) s = .next t := by
  delta queueWork at h
  dsimp only at h
  rw [exec_packetFetch, execPacketFetch, scheduled_up hup]
  cases hfirst : (s.queue q).first with
  | none =>
    simp only [hfirst] at h ⊢
    split at h
    · next bs hread =>
      obtain ⟨⟨hen, hstate, hmore⟩, rfl⟩ := onlyIf_eq h
      simp [hen, hstate, Nat.not_le.mpr hmore]
    · cases h
  | some p =>
    simp only [hfirst] at h ⊢
    split at h
    · next bs hread =>
      obtain ⟨⟨hen, hstate, hbytes, hheld⟩, rfl⟩ := onlyIf_eq h
      simp [hen, hstate, List.isEmpty_iff.mp hbytes, hheld, hread]
    · cases h

/-- A LAUNCH packet starts. -/
theorem launchPacket_happens (hup : s.isl.complexDown = false) (h : queueWork s (.launchPacket q id) = some t) :
    exec (.launchPacket q id) s = .next t := by
  delta queueWork at h
  dsimp only at h
  rw [exec_launchPacket, execLaunchPacket]
  split at h
  · next d p hserved =>
    rw [inTurn_served hup hserved]
    split at h
    · next e hparse => simp only [Option.some.inj h]
    · next r hparse =>
      split at h
      · next e hplan => simp only [Option.some.inj h]
      · next hplan => simp only [Option.some.inj h]
      · next l hplan => simp only [Option.some.inj h]
  · cases h

/-- A COPY packet starts, or runs again after an answer to its fault. -/
theorem copyPacket_happens (hup : s.isl.complexDown = false) (h : queueWork s (.copyPacket q id) = some t) :
    exec (.copyPacket q id) s = .next t := by
  delta queueWork at h
  dsimp only at h
  rw [exec_copyPacket, execCopyPacket]
  split at h
  · next p hresumed =>
    obtain ⟨hpkt, hstarted, hlive, hopen, hfree, htype, hsound⟩ := resumed_eq hresumed
    obtain rfl := Option.some.inj h
    simp only [hpkt, hstarted, if_true, scheduled_up hup, hlive, hopen, hfree, htype, hsound, bne_self_eq_false, Bool.or_self, Bool.false_eq_true,
      if_false, packetWork]
  · split at h
    · next d p hserved =>
      obtain ⟨hwaits, rfl⟩ := onlyIf_eq h
      obtain ⟨p0, hpkt, hstarted⟩ := unstarted_eq hwaits
      simp only [hpkt, hstarted, Bool.false_eq_true, if_false, inTurn_served hup hserved, packetWork, type_of_served hserved, if_true]
    · cases h

/-- A SIGNAL packet starts, or runs again after an answer to its fault. -/
theorem signalPacket_happens (hup : s.isl.complexDown = false) (h : queueWork s (.signalPacket q id) = some t) :
    exec (.signalPacket q id) s = .next t := by
  delta queueWork at h
  dsimp only at h
  rw [exec_signalPacket, execSignalPacket]
  split at h
  · next p hresumed =>
    obtain ⟨hpkt, hstarted, hlive, hopen, hfree, htype, hsound⟩ := resumed_eq hresumed
    obtain rfl := Option.some.inj h
    simp only [hpkt, hstarted, if_true, scheduled_up hup, hlive, hopen, hfree, htype, hsound, bne_self_eq_false, Bool.or_self, Bool.false_eq_true,
      if_false, packetWork, if_neg (show (4 : Nat) ≠ 2 by decide)]
  · split at h
    · next d p hserved =>
      obtain ⟨hwaits, rfl⟩ := onlyIf_eq h
      obtain ⟨p0, hpkt, hstarted⟩ := unstarted_eq hwaits
      simp only [hpkt, hstarted, Bool.false_eq_true, if_false, inTurn_served hup hserved, packetWork, type_of_served hserved,
        if_neg (show (4 : Nat) ≠ 2 by decide)]
    · cases h

/-- A WAIT packet starts. -/
theorem waitPacket_happens (hup : s.isl.complexDown = false) (h : queueWork s (.waitPacket q id) = some t) :
    exec (.waitPacket q id) s = .next t := by
  delta queueWork at h
  dsimp only at h
  rw [exec_waitPacket, execWaitPacket]
  split at h
  · next d p hserved =>
    obtain ⟨hwaits, rfl⟩ := onlyIf_eq h
    obtain ⟨p0, hpkt, hstarted⟩ := unstarted_eq hwaits
    simp only [hpkt, hstarted, Bool.false_eq_true, if_false, inTurn_served hup hserved]
    by_cases hlimit : p.dw 0x28 / 2 ^ 32 = 0
    · simp only [hlimit, if_true]
    · simp only [hlimit, if_false]
  · cases h

/-- A WAIT looks at its word. -/
theorem waitPoll_happens (hup : s.isl.complexDown = false) (h : queueWork s (.waitPoll q id) = some t) : exec (.waitPoll q id) s = .next t := by
  delta queueWork at h
  dsimp only at h
  rw [exec_waitPoll, execWaitPoll, scheduled_up hup]
  split at h
  · next p hresumed =>
    obtain ⟨hpkt, hstarted, hlive, hopen, hfree, htype, hsound⟩ := resumed_eq hresumed
    simp only [hpkt, hstarted, hlive, hopen, hfree, htype, hsound, bne_self_eq_false, Bool.or_self, Bool.not_true, Bool.false_eq_true, if_false]
    split at h
    · next bs hread =>
      simp only [hread, ← Option.some.inj h]
      generalize p.dw 0x28 % 8 = test
      rcases test with _ | _ | _ | _ | _ | test <;> simp [waitTest]
    · next e hread => simp only [hread, Option.some.inj h]
  · cases h

/-- A WAIT whose time is over fails. -/
theorem waitTimeout_happens (hup : s.isl.complexDown = false) (h : queueWork s (.waitTimeout q id) = some t) :
    exec (.waitTimeout q id) s = .next t := by
  delta queueWork at h
  dsimp only at h
  rw [exec_waitTimeout, execWaitTimeout, scheduled_up hup]
  cases hpkt : (s.queue q).pkt? id with
  | none => simp only [hpkt] at h; cases h
  | some p =>
    simp only [hpkt] at h ⊢
    obtain ⟨⟨hstarted, hlive, hopen, htype, hsound, hlimit, hdue⟩, rfl⟩ := onlyIf_eq h
    simp [hstarted, hlive, hopen, htype, hsound, hlimit, Nat.not_lt.mpr hdue]

/-- An INDIRECT packet's list runs in its place. -/
theorem indirectPacket_happens (hup : s.isl.complexDown = false) (h : queueWork s (.indirectPacket q id) = some t) :
    exec (.indirectPacket q id) s = .next t := by
  delta queueWork at h
  dsimp only at h
  rw [exec_indirectPacket, execIndirectPacket]
  split at h
  · next d p hserved =>
    rw [inTurn_served hup hserved]
    split at h
    · next hbad => simp only [if_pos hbad, Option.some.inj h]
    · next hgood =>
      simp only [if_neg hgood]
      split at h
      · next hdeep => simp only [if_pos hdeep, Option.some.inj h]
      · next hflat =>
        simp only [if_neg hflat]
        split at h
        · next e hread => simp only [Option.some.inj h]
        · next bs hread => simp only [Option.some.inj h]
  · cases h

/-- A LOOP packet takes its body. -/
theorem loopPacket_happens (hup : s.isl.complexDown = false) (h : queueWork s (.loopPacket q id) = some t) :
    exec (.loopPacket q id) s = .next t := by
  delta queueWork at h
  dsimp only at h
  rw [exec_loopPacket, execLoopPacket]
  split at h
  · next d p hserved => rw [inTurn_served hup hserved, ← Option.some.inj h]
  · cases h

/-- A FETCH_FENCE packet discards what has been fetched after it. -/
theorem fetchFencePacket_happens (hup : s.isl.complexDown = false) (h : queueWork s (.fetchFencePacket q id) = some t) :
    exec (.fetchFencePacket q id) s = .next t := by
  delta queueWork at h
  dsimp only at h
  rw [exec_fetchFencePacket, execFetchFencePacket]
  split at h
  · next d p hserved => rw [inTurn_served hup hserved, ← Option.some.inj h]
  · cases h

/-- A tournament's packet starts its scope, or writes the record of one that is over. -/
theorem tourneyPacket_happens (hup : s.isl.complexDown = false) (h : queueWork s (.tourneyPacket q id) = some t) :
    exec (.tourneyPacket q id) s = .next t := by
  delta queueWork at h
  dsimp only at h
  rw [exec_tourneyPacket, execTourneyPacket]
  cases hpkt : (s.queue q).pkt? id with
  | none => simp only [hpkt] at h; cases h
  | some p =>
    simp only [hpkt] at h ⊢
    split at h
    · next hstarted =>
      obtain ⟨⟨hlive, hopen, hfree, htype⟩, rfl⟩ := onlyIf_eq h
      simp [hstarted, scheduled_up hup, hlive, hopen, hfree, htype]
    · next hwaits =>
      rw [if_neg hwaits]
      split at h
      · next d p hserved =>
        rw [inTurn_served hup hserved]
        split at h
        · next hbad => simp only [if_pos hbad, Option.some.inj h]
        · next hgood =>
          simp only [if_neg hgood]
          split at h
          · next e hplan => simp only [Option.some.inj h]
          · next k hplan => simp only [Option.some.inj h]
      · cases h

/-- A LEASE packet takes a lease and writes its answer. -/
theorem leasePacket_happens (hup : s.isl.complexDown = false) (h : queueWork s (.leasePacket q id) = some t) :
    exec (.leasePacket q id) s = .next t := by
  delta queueWork at h
  dsimp only at h
  rw [exec_leasePacket, execLeasePacket]
  split at h
  · next d p hserved =>
    rw [inTurn_served hup hserved]
    split at h
    · next hbad => simp only [if_pos hbad, Option.some.inj h]
    · next hgood =>
      simp only [if_neg hgood]
      split at h
      · next e hplaces => simp only [Option.some.inj h]
      · next locs hplaces => simp only [← Option.some.inj h]
  · cases h

/-- A RESET_QUEUE packet resets another queue. -/
theorem resetQueuePacket_happens (hup : s.isl.complexDown = false) (h : queueWork s (.resetQueuePacket q id) = some t) :
    exec (.resetQueuePacket q id) s = .next t := by
  delta queueWork at h
  dsimp only at h
  rw [exec_resetQueuePacket, execResetQueuePacket]
  split at h
  · next d p hserved =>
    rw [inTurn_served hup hserved]
    split at h
    · next hbad => simp only [if_pos hbad, Option.some.inj h]
    · next hgood =>
      simp only [if_neg hgood]
      split at h
      · next hforeign => simp only [if_pos hforeign, Option.some.inj h]
      · next hours => simp only [if_neg hours, Option.some.inj h]
  · cases h

/-- The reset of a queue goes on, or ends. -/
theorem queueResetControl_happens (hup : s.isl.complexDown = false) (h : queueWork s (.queueResetControl q) = some t) :
    exec (.queueResetControl q) s = .next t := by
  obtain rfl := Option.some.inj h
  rw [exec_queueResetControl, execQueueResetControl, scheduled_up hup]

/-- A packet whose work has ended completes. -/
theorem packetComplete_happens (hup : s.isl.complexDown = false) (h : queueWork s (.packetComplete q id) = some t) :
    exec (.packetComplete q id) s = .next t := by
  delta queueWork at h
  dsimp only at h
  rw [exec_packetComplete, execPacketComplete, scheduled_up hup]
  cases hpkt : (s.queue q).pkt? id with
  | none => simp only [hpkt] at h; cases h
  | some p =>
    simp only [hpkt] at h ⊢
    split at h
    · next hfails => simp only [if_pos hfails, Option.some.inj h]
    · next hgoes =>
      simp only [if_neg hgoes]
      split at h
      · next s1 hsignalled =>
        obtain ⟨hworked, rfl⟩ := onlyIf_eq h
        simp only [hworked, Bool.true_eq_false, if_false, hsignalled]
      · next e hsignalled =>
        obtain ⟨hworked, rfl⟩ := onlyIf_eq h
        simp only [hworked, Bool.true_eq_false, if_false, hsignalled]

/-- While the complex is up each step of a queue is its own definition. -/
theorem queueWork_happens {i : Instr} (hup : s.isl.complexDown = false) (h : queueWork s i = some t) : exec i s = .next t := by
  cases i
  case queueWake => exact queueWake_happens hup h
  case packetFetch => exact packetFetch_happens hup h
  case launchPacket => exact launchPacket_happens hup h
  case copyPacket => exact copyPacket_happens hup h
  case signalPacket => exact signalPacket_happens hup h
  case waitPacket => exact waitPacket_happens hup h
  case waitPoll => exact waitPoll_happens hup h
  case waitTimeout => exact waitTimeout_happens hup h
  case indirectPacket => exact indirectPacket_happens hup h
  case loopPacket => exact loopPacket_happens hup h
  case fetchFencePacket => exact fetchFencePacket_happens hup h
  case tourneyPacket => exact tourneyPacket_happens hup h
  case leasePacket => exact leasePacket_happens hup h
  case resetQueuePacket => exact resetQueuePacket_happens hup h
  case queueResetControl => exact queueResetControl_happens hup h
  case packetComplete => exact packetComplete_happens hup h
  all_goals exact absurd h (Option.some_ne_none t).symm

end

/-- Settles O56: under its condition each step of a queue is its own definition, and while the complex is down what is due comes again. The codes of
malformed descriptors and lists, what a rejected packet has touched and a LAUNCH in one step are the model's choices (log entries 62, 72 and 122). -/
theorem queueSteps : Obligations.QueueSteps := by
  intro s i t h
  unfold queueStep at h
  cases hdown : s.isl.complexDown with
  | false =>
    rw [hdown] at h
    exact queueWork_happens hdown h
  | true =>
    rw [hdown, if_pos rfl] at h
    cases i
    case queueWake | packetFetch | packetComplete | launchPacket | waitPoll | waitTimeout | queueResetControl =>
      obtain rfl := Option.some.inj h
      simp only [exec_queueWake, execQueueWake, exec_packetFetch, execPacketFetch, exec_packetComplete, execPacketComplete, exec_launchPacket,
        execLaunchPacket, exec_waitPoll, execWaitPoll, exec_waitTimeout, execWaitTimeout, exec_queueResetControl, execQueueResetControl, State.inTurn,
        scheduled_down hdown]
    all_goals exact absurd h (Option.some_ne_none t).symm

end Sys2Proof.Slice0
end

section
/-!
SUPPORT. The words that ask the census, and the words of a tournament (R376 to R378, R391 to R394): a read of the core, then what the word sends.
-/

namespace Sys2Proof.Slice0

open Sys2Proof.Machine

section
variable {s s2 : State} {n : BitVec 3} {d a b : BitVec 5}

/-! ### The census (R376 to R378) -/

/-- A core in no tournament may issue a lease word, once there is room for its command. -/
theorem leaseFree_ok {x : Ctx} {c : Core} (hs : c.settled x.st = true) (hroom : c.hasRoom x 0 false 0 = true) (hscope : c.scope.1 = 0) (d : BitVec 5) :
    leaseFree x d c = .ok ((), c) := by
  rw [leaseFree, run_bind_ok (cmdRoom_ok d hs hroom), forbidTourney, run_bind_ok (run_get c), raiseIf_run, hscope]
  rfl

/-- A word that asks the census starts its command and posts its request. -/
theorem censusM_asks {i : Instr} {op : CmdOp} {s1 : State} (hrun : (s.core s.cur).run = .running) (hs : (s.core s.cur).settled s.strm = true)
    (hb : begun s s.ctx s.atIssue i { tok := d, slot := false, op := op } = some s1) :
    censusM i d op s.ctx s.issuing = .ok (.seq, s1.post (.censusRequest s.ctx.core s.fresh)) := by
  rw [censusM, run_bind_ok (startCmd_begun hrun hs hb)]
  rfl

theorem lease_completes (hs : (s.core s.cur).settled s.strm = true) (ht : censusWord s s.ctx s.atIssue (.lease n d a b) = some s2)
    (hr : s.runs (.lease n d a b) (s2.core s.cur) = true) : CompletesAs s (.lease n d a b) s2 := by
  have hrun := State.runs_running hr
  obtain ⟨hscope, ht⟩ := ite_none ht
  obtain ⟨s1, hb, rfl⟩ := Option.map_eq_some_iff.mp ht
  refine issue_completes rfl hr ?_
  rw [run_bind_ok (rdX_issuing hrun hs a), run_bind_ok (rdX_issuing hrun hs b)]
  rw [run_bind_ok (onCore_issuing hrun (leaseFree_ok (State.atIssue_settled hs) (begun_eq hb).1 (not_not.mp hscope) d))]
  exact censusM_asks hrun hs hb

theorem leaseR_completes (hs : (s.core s.cur).settled s.strm = true) (ht : censusWord s s.ctx s.atIssue (.leaseR n d a b) = some s2)
    (hr : s.runs (.leaseR n d a b) (s2.core s.cur) = true) : CompletesAs s (.leaseR n d a b) s2 := by
  have hrun := State.runs_running hr
  obtain ⟨hscope, ht⟩ := ite_none ht
  obtain ⟨s1, hb, rfl⟩ := Option.map_eq_some_iff.mp ht
  refine issue_completes rfl hr ?_
  rw [run_bind_ok (rdX_issuing hrun hs a), run_bind_ok (rdX_issuing hrun hs b)]
  rw [run_bind_ok (onCore_issuing hrun (leaseFree_ok (State.atIssue_settled hs) (begun_eq hb).1 (not_not.mp hscope) d))]
  exact censusM_asks hrun hs hb

theorem ldrop_completes (hs : (s.core s.cur).settled s.strm = true) (ht : censusWord s s.ctx s.atIssue (.ldrop n d a) = some s2)
    (hr : s.runs (.ldrop n d a) (s2.core s.cur) = true) : CompletesAs s (.ldrop n d a) s2 := by
  have hrun := State.runs_running hr
  obtain ⟨hscope, ht⟩ := ite_none ht
  obtain ⟨s1, hb, rfl⟩ := Option.map_eq_some_iff.mp ht
  refine issue_completes rfl hr ?_
  rw [run_bind_ok (rdX_issuing hrun hs a)]
  rw [run_bind_ok (onCore_issuing hrun (leaseFree_ok (State.atIssue_settled hs) (begun_eq hb).1 (not_not.mp hscope) d))]
  exact censusM_asks hrun hs hb

theorem roleq_completes {k : BitVec 2} (hs : (s.core s.cur).settled s.strm = true) (ht : censusWord s s.ctx s.atIssue (.roleq n d a k) = some s2)
    (hr : s.runs (.roleq n d a k) (s2.core s.cur) = true) : CompletesAs s (.roleq n d a k) s2 := by
  have hrun := State.runs_running hr
  obtain ⟨s1, hb, rfl⟩ := Option.map_eq_some_iff.mp ht
  refine issue_completes rfl hr ?_
  rw [run_bind_ok (rdX_issuing hrun hs a)]
  exact censusM_asks hrun hs hb

/-! ### Tournaments (R391 to R394) -/

/-- A SCORE in a scope is sent toward the home station. -/
theorem scoreM_sends {kind : Nat} {m : Ctx → CM Word} {v : Word} (hrun : (s.core s.cur).run = .running) (hscope : s.atIssue.scope.1 ≠ 0)
    (hv : onCore s.ctx.core (m s.ctx) s.issuing = .ok (v, s.issuing)) :
    scoreM kind m s.ctx s.issuing = .ok (.seq, (s.issuing.modScope (s.atIssue.scope.1 - 1) fun k =>
      { k with scores := k.scores ++ [(s.ctx.core, s.atIssue.scope.2, v, kind)] }).post (.scoreArrival (s.atIssue.scope.1 - 1))) := by
  have hget : onCore s.ctx.core get s.issuing = .ok (s.atIssue, s.issuing) := onCore_issuing hrun (run_get s.atIssue)
  have hin : raiseIf (s.atIssue.scope.1 == 0) cTourney 1 0 0 s.atIssue = .ok ((), s.atIssue) := by
    rw [raiseIf_run, if_neg (by simpa using hscope)]
  rw [scoreM, run_bind_ok hv, run_bind_ok hget, run_bind_ok (onCore_issuing hrun hin)]
  rfl

/-- Each form of SCORE sends its value with its kind. -/
theorem score_completes {i : Instr} {kind : Nat} {m : Ctx → CM Word} {v : Word} (hi : exec i s = issue i (scoreM kind m) s)
    (hm : m s.ctx s.atIssue = .ok (v, s.atIssue))
    (ht : (if s.atIssue.scope.1 = 0 then none
      else some ((s.issuing.modScope (s.atIssue.scope.1 - 1) fun k => { k with scores := k.scores ++ [(s.cur, s.atIssue.scope.2, v, kind)] }).post
        (.scoreArrival (s.atIssue.scope.1 - 1)))) = some s2)
    (hr : s.runs i (s2.core s.cur) = true) : CompletesAs s i s2 := by
  have hrun := State.runs_running hr
  obtain ⟨hscope, hs2⟩ := ite_none ht
  obtain rfl := Option.some.inj hs2
  exact issue_completes hi hr (scoreM_sends hrun hscope (onCore_issuing hrun hm))

/-- A word whose effect, in its core, leaves that core as c. -/
theorem issueC_completes {i : Instr} {eff : Ctx → CM Next} {c : Core} (hi : exec i s = issueC i eff s) (hc : c.run = (s.core s.cur).run)
    (hr : s.runs i ((s.setCore s.cur c).core s.cur) = true) (he : eff s.ctx s.atIssue = .ok (.seq, c)) : CompletesAs s i (s.setCore s.cur c) := by
  have hcore : (s.setCore s.cur c).core s.cur = c := s.setCore_core_self s.cur (by rw [hc, State.runs_running hr]; decide)
  obtain ⟨t, hexec, hstep, hgoes⟩ := issueC_goes (by rwa [hcore] at hr) he (by simp)
  refine ⟨t, hi.trans hexec, hstep, ?_⟩
  rw [hcore]
  exact hgoes rfl

/-- The end of a wait leaves what a core can read. -/
theorem waitOver_settled {c : Core} {st : Strm} (h : c.settled st = true) : ({ c with wait := none } : Core).settled st = true := by
  cases st <;> exact h

/-- HEAT goes on in the round that has begun. -/
theorem heat_completes (hs : (s.core s.cur).settled s.strm = true) (ht : tourneyWord s s.ctx s.atIssue (.heat d) = some s2)
    (hr : s.runs (.heat d) (s2.core s.cur) = true) : CompletesAs s (.heat d) s2 := by
  have hrun := State.runs_running hr
  simp only [tourneyWord] at ht
  split at ht
  · next r hwait =>
    obtain rfl := Option.some.inj ht
    refine issueC_completes rfl (by simp) hr ?_
    rw [heatM, run_bind_ok (run_get _), hwait]
    dsimp only
    rw [run_bind_ok (run_modify _ _), run_bind_ok (wrX_settled (waitOver_settled (State.atIssue_settled hs)) d _)]
    rfl
  · cases ht

/-- TQ reads its selector. -/
theorem tq_completes {k : BitVec 5} (hs : (s.core s.cur).settled s.strm = true) (ht : tourneyWord s s.ctx s.atIssue (.tq n d k) = some s2)
    (hr : s.runs (.tq n d k) (s2.core s.cur) = true) : CompletesAs s (.tq n d k) s2 := by
  have hrun := State.runs_running hr
  obtain rfl := Option.some.inj ht
  refine issue_setCore_goes (by simp) hr ?_
  rw [run_bind, run_get]
  dsimp only
  rw [run_bind, onCore_ok (by rw [State.ctx_core, State.setCore_atIssue_core hrun]; exact wrX_settled (State.atIssue_settled hs) d _)]
  rfl

end

/-- Settles O41: such a word reads its registers, of which nothing has to be waited for, its command starts, and the request for it becomes due. -/
theorem censusWords : Obligations.CensusWords := by
  intro s i s2 hs ht hr
  cases i
  case lease => exact lease_completes hs ht hr
  case leaseR => exact leaseR_completes hs ht hr
  case ldrop => exact ldrop_completes hs ht hr
  case roleq => exact roleq_completes hs ht hr
  all_goals exact absurd ht (Option.some_ne_none s2).symm

/-- Settles O42: a SCORE sends what it has read, a HEAT whose round has begun writes its number, and TQ writes what its selector reads. -/
theorem tournamentWords : Obligations.TournamentWords := by
  intro s i s2 hs ht hr
  have hread := State.atIssue_settled hs
  cases i
  case scoreClr => exact score_completes rfl rfl ht hr
  case scoreS64 n a => exact score_completes rfl (rdX_settled hread a) ht hr
  case scoreZ64 n a => exact score_completes rfl (rdX_settled hread a) ht hr
  case scoreF64 n a => exact score_completes rfl (rdX_settled hread a) ht hr
  case heat => exact heat_completes hs ht hr
  case tq => exact tq_completes hs ht hr
  all_goals exact absurd ht (Option.some_ne_none s2).symm

end Sys2Proof.Slice0
end

section
/-!
SUPPORT. The words that raise an exception of their own, and the return from one (R394, R403, R410 to R414).
-/

namespace Sys2Proof.Machine

/-! ### A word whose effect raises an exception (R67, R410) -/

/-- What follows a step that raises does not happen. -/
theorem run_bind_error {σ α β : Type} {m : StateT σ (Except Stop) α} {f : α → StateT σ (Except Stop) β} {s : σ} {e : Stop} (h : m s = .error e) :
    (m >>= f) s = .error e := by
  rw [run_bind, h]

theorem onCore_error {α : Type} {n : Nat} {m : CM α} {s : State} {e : Stop} (h : m (s.core n) = .error e) : onCore n m s = .error e := by
  rw [onCore_run, h]

section
variable {s : State} {i : Instr} {eff : Ctx → DM Next}

/-- Nothing of a word happens whose effect stops. -/
theorem performM_error {x : Ctx} {n : BitVec 3} {e : Stop} (hidle : (s.core x.core).run ≠ .idle) (hjx : ((s.core x.core).seq x.st).jx = false)
    (hbefore : (s.core x.core).selectorBefore x.st n = true)
    (he : eff x (s.setCore x.core ((s.core x.core).modSeq x.st Seq.takeTgt)) = .error e) : performM x n eff s = .error e := by
  have hcore : (s.setCore x.core ((s.core x.core).modSeq x.st Seq.takeTgt)).core x.core = (s.core x.core).modSeq x.st Seq.takeTgt :=
    s.setCore_core_self x.core (by rwa [Core.modSeq_run])
  have hnojx : (((s.setCore x.core ((s.core x.core).modSeq x.st Seq.takeTgt)).core x.core).seq x.st).jx = false := by
    rw [hcore, Core.modSeq_seq, Seq.takeTgt_jx, hjx]
  unfold performM
  refine (run_bind_ok (onCore_ok (before_ok hbefore))).trans <| (run_bind_ok (run_get _)).trans ?_
  refine (congrFun (if_neg (ne_true_of_eq_false hnojx)) _).trans ?_
  exact run_bind_error he

/-- A word that issues alone and raises an exception traps, and does nothing else. -/
theorem issue_traps {cause sub : Nat} {addr info : Word} (ha : Slice0.issuesAlone s i = true)
    (hbefore : (s.core s.cur).selectorBefore s.strm (selector i) = true) (hfirst : firstWait s s.ctx (selector i) eff = none) (hcause : cause ≠ cIllegal)
    (he : eff s.ctx s.issuing = .error (.trap cause sub addr info none)) :
    issue i eff s = .next (wordTrap s s.ctx ((s.core s.cur).seq s.strm).groupStart cause sub addr info none) := by
  obtain ⟨hissues, halone, huntimed, hjx, hlegal⟩ := Slice0.issuesAlone_iff.mp ha
  have hperform : performM s.ctx (selector i) eff s = .error (.trap cause sub addr info none) :=
    performM_error (by rw [State.ctx_core, Slice0.canIssue_run hissues]; decide) hjx hbefore he
  have hinfo : trapInfo i cause info none = info := by
    rw [trapInfo, if_neg (by simp [hcause])]
  simp only [issue, hissues, Slice0.fwdFull_of_alone halone, huntimed, Bool.not_true, Bool.or_false, Bool.false_eq_true, if_false, hlegal]
  rw [show mkCtx s.cur s.strm s ((s.core s.cur).seq s.strm) (s.core s.cur).ctl.fpctl = s.ctx from rfl]
  simp only [tryWord, hfirst, hperform, hinfo]
  rfl

end

end Sys2Proof.Machine

namespace Sys2Proof.Slice0

open Sys2Proof.Machine

/-! ### TQ, and a SCORE outside a scope (R394) -/

section
variable {s : State}

/-- A core in no scope is no contestant's. -/
theorem tqValue_outside {n : Nat} (sel : Nat) (h : (s.core n).scope.1 = 0) : s.tqValue n sel = 0 := by
  rw [State.tqValue, State.contestant, if_pos h]

/-- A SCORE outside a scope raises TOURNEY_FAULT. -/
theorem scoreM_raises {kind : Nat} {m : Ctx → CM Word} {v : Word} (hrun : (s.core s.cur).run = .running) (hscope : (s.core s.cur).scope.1 = 0)
    (hv : m s.ctx s.atIssue = .ok (v, s.atIssue)) : scoreM kind m s.ctx s.issuing = .error (.trap cTourney 1 0 0 none) := by
  have hget : onCore s.ctx.core get s.issuing = .ok (s.atIssue, s.issuing) := onCore_issuing hrun (run_get s.atIssue)
  have hout : s.atIssue.scope.1 = 0 := by
    rw [State.atIssue]
    cases s.strm <;> exact hscope
  rw [scoreM, run_bind_ok (onCore_issuing hrun hv), run_bind_ok hget]
  refine run_bind_error (onCore_error ?_)
  rw [raiseIf_run, hout]
  rfl

theorem score_traps {i : Instr} {kind : Nat} {m : Ctx → CM Word} {v : Word} (hi : exec i s = issue i (scoreM kind m) s)
    (hm : m s.ctx s.atIssue = .ok (v, s.atIssue)) (hs : (s.core s.cur).settled s.strm = true) (ha : issuesAlone s i = true)
    (hbefore : (s.core s.cur).selectorBefore s.strm (selector i) = true) (hscope : (s.core s.cur).scope.1 = 0)
    (ht : takes (s.core s.cur) 24 = true) : ∃ t, exec i s = .next t ∧ onlyCore s t s.cur
      ∧ Trapped (s.core s.cur) (t.core s.cur) s.strm 24 1 0 0 ((s.core s.cur).seq s.strm).pc ((s.core s.cur).seq s.strm).groupStart := by
  obtain ⟨hissues, halone, -⟩ := issuesAlone_iff.mp ha
  have hsound : (s.core s.cur).unharmed s.strm = true := by
    simp only [Core.settled, Bool.and_eq_true] at hs
    obtain ⟨⟨⟨⟨⟨⟨⟨-, -⟩, hexpired⟩, -⟩, hbad⟩, -⟩, -⟩, -⟩ := hs
    rw [Core.unharmed, hexpired, hbad]
    rfl
  have hexec := issue_traps (eff := scoreM kind m) ha hbefore (if_pos hsound) (by decide) (scoreM_raises (canIssue_run hissues) hscope hm)
  obtain ⟨honly, -, htrapped⟩ := wordTrap_spec (x := s.ctx) (cause := cTourney) ((s.core s.cur).seq s.strm).groupStart 1 0 0 halone ht
  exact ⟨_, hi.trans hexec, honly, htrapped⟩

end

/-- Settles O43: TQ reads the scope of the contestant whose core it is, and the check of its scope is the first thing that a SCORE does. -/
theorem tournamentQuery : Obligations.TournamentQuery := by
  refine ⟨fun s n sel h => tqValue_outside sel h, fun s n id k t h => ?_, fun s i n a hi hs ha hbefore hscope ht => ?_⟩
  · simp [State.tqValue, h]
  · have hread := rdX_settled (State.atIssue_settled hs) a
    obtain rfl | rfl | rfl | rfl := hi
    · exact score_traps rfl hread hs ha hbefore hscope ht
    · exact score_traps rfl hread hs ha hbefore hscope ht
    · exact score_traps rfl hread hs ha hbefore hscope ht
    · exact score_traps rfl rfl hs ha hbefore hscope ht

/-! ### TRAP and BRK (R403, R413) -/

/-- A core at system level whose handler is active. -/
def inSystemHandler : State := { State.reset with strm := .a, cores := [(0, { run := .running, ctl := { lvl := true, sb := true } })] }

/-- Its BRK issues. -/
theorem inSystemHandler_issues : issuesAlone inSystemHandler (.brk 0) = true ∧ takes (inSystemHandler.core inSystemHandler.cur) 17 = false := by
  decide

/-- Refutes O27: the model keeps beside a core that a double fault stops the record of the trap that it could not take, so the dead core is not
the core before with its run state alone changed; BRK in a handler of system level is such a double fault. -/
theorem not_trapWordsTrap : ¬ Obligations.TrapWordsTrap := by
  intro h
  obtain ⟨hissues, hdouble⟩ := inSystemHandler_issues
  obtain ⟨-, -, hdead⟩ := h inSystemHandler (.brk 0) 17 0 inSystemHandler.ctx.pc rfl hissues
  obtain ⟨t, hexec, -, hcore, -⟩ := hdead hdouble
  have htrap := issue_traps (eff := fun x => onCore x.core (raise cBrk 0 0 0)) hissues (by decide) (by decide) (by decide) rfl
  obtain rfl := Host.Outcome.next.inj (hexec.symm.trans htrap)
  have hfatal := congrArg Core.fatal hcore
  exact absurd hfatal (by decide)

/-! ### TRET (R414) -/

/-- Core c after its stream st has returned from the handler of its level. -/
def returned (c : Core) (st : Strm) : Core :=
  let r := recordOf c st c.ctl.lvl
  let d := (c.modSeq st fun q => q.leave r).modSeq st.other fun q => { q with stopped := false, stopNext := false }
  { d with
    e := { d.e with parked := d.e.parked || d.runnerAt.isSome }
    ctl := { d.ctl with
      lvl := r.cause.getLsbD 17
      sb := d.ctl.sb && !c.ctl.lvl
      ub := d.ctl.ub && c.ctl.lvl } }

/-- A word that is not the end of the innermost level ends no body. -/
theorem endCheck_innermost {q : Seq} {pc : Word} (h : q.loopDepth = 0 ∨ (q.level (q.loopDepth - 1)).le ≠ pc) (next : Word) (k : Nat) :
    endCheck q pc next k = (next, false, q) := by
  cases k with
  | zero => rfl
  | succ k =>
    unfold endCheck
    split
    · rfl
    · next hdepth => exact if_pos (Or.inr (h.resolve_left hdepth).symm)

/-- TRET in an active handler returns, to the address that its record keeps. -/
theorem tretM_returns {x : Ctx} {c : Core} (hactive : (if c.ctl.lvl then c.ctl.sb else c.ctl.ub) = true) :
    tretM x c = .ok (.jump (((recordOf c x.st c.ctl.lvl).epc.extractLsb' 0 19).setWidth 64), returned c x.st) := by
  have hlegal : (if c.ctl.lvl then !c.ctl.sb else !c.ctl.ub) = false := by
    cases hlvl : c.ctl.lvl <;> simpa [hlvl] using hactive
  rw [tretM, run_bind_ok (run_get c)]
  rw [run_bind_ok (show raiseIf _ cIllegal 1 0 0 c = .ok ((), c) by rw [raiseIf_run, hlegal]; rfl)]
  rw [run_bind_ok (run_set _ _)]
  simp only [run_pure, returned, recordOf, Core.modSeq_ctl]
  cases c.ctl.lvl <;> simp

/-- TRET returns from core c: its handler is active, and the loop that it restores does not end at it (R78, R414). -/
structure Returns (c : Core) (st : Strm) (pc : Word) : Prop where
  active : (if c.ctl.lvl then c.ctl.sb else c.ctl.ub) = true
  ends : ((recordOf c st c.ctl.lvl).cause.extractLsb' 18 2).toNat = 0
    ∨ ((c.seq st).level (((recordOf c st c.ctl.lvl).cause.extractLsb' 18 2).toNat - 1)).le ≠ pc

/-- A change of the stream that leaves its records and its loops leaves its return. -/
theorem Returns.of_eq {c d : Core} {st : Strm} {pc : Word} (h : Returns c st pc) (hctl : d.ctl = c.ctl) (hsys : (d.seq st).sysRec = (c.seq st).sysRec)
    (huser : (d.seq st).userRec = (c.seq st).userRec) (hloops : (d.seq st).loops = (c.seq st).loops) : Returns d st pc := by
  have hrec : recordOf d st d.ctl.lvl = recordOf c st c.ctl.lvl := by rw [recordOf, hsys, huser, hctl]; rfl
  have hlevel (j : Nat) : (d.seq st).level j = (c.seq st).level j := by rw [Seq.level, hloops]; rfl
  exact ⟨by rw [hctl]; exact h.active, by rw [hrec, hlevel]; exact h.ends⟩

/-- A branch target is no part of what a return restores from. -/
theorem takeTgt_keeps (q : Seq) : q.takeTgt.sysRec = q.sysRec ∧ q.takeTgt.userRec = q.userRec ∧ q.takeTgt.loops = q.loops := by
  unfold Seq.takeTgt
  split <;> exact ⟨rfl, rfl, rfl⟩

/-- Core c, at whose stream a TGT of the group has set the branch target, once the stream has returned from its handler. -/
def returnedCore (c : Core) (st : Strm) : Core := returned (c.modSeq st Seq.takeTgt) st

section
variable {c : Core} {st : Strm} {pc : Word}

theorem Returns.takeTgt (h : Returns c st pc) : Returns (c.modSeq st Seq.takeTgt) st pc := by
  obtain ⟨hsys, huser, hloops⟩ := takeTgt_keeps (c.seq st)
  exact h.of_eq (Core.modSeq_ctl _ _ _) (by simpa using hsys) (by simpa using huser) (by simpa using hloops)

theorem Returns.readable (h : Returns c st pc) : Returns (c.readable st) st pc := by
  cases st <;> exact h.of_eq rfl rfl rfl rfl

/-- A returning stream takes all from its record but whether it stands still for a runner. -/
theorem returned_seq (c : Core) (st : Strm) : ∃ p, (returned c st).seq st = { (c.seq st).leave (recordOf c st c.ctl.lvl) with parked := p } := by
  cases st
  · exact ⟨c.a.parked, rfl⟩
  · exact ⟨c.e.parked || c.runnerAt.isSome, rfl⟩

theorem restoreLoops_le (now saved : Levels) (j : Nat) : ((restoreLoops now saved).get j).le = (now.get j).le := by
  rcases j with _ | _ | _ | j <;> rfl

theorem readable_jx (c : Core) (st : Strm) : ((c.readable st).seq st).jx = (c.seq st).jx := by cases st <;> rfl

theorem returnedCore_run (c : Core) (st : Strm) : (returnedCore c st).run = c.run := by cases st <;> rfl

theorem returnedCore_gang (c : Core) (st : Strm) : (returnedCore c st).gang = c.gang := by cases st <;> rfl

theorem recordOf_takeTgt (c : Core) (st : Strm) (sys : Bool) : recordOf (c.modSeq st Seq.takeTgt) st sys = recordOf c st sys := by
  obtain ⟨hsys, huser, -⟩ := takeTgt_keeps (c.seq st)
  simp only [recordOf, Core.modSeq_seq, hsys, huser]

theorem Returns.endCheck (h : Returns c st pc) (next : Word) : Machine.endCheck ((returned c st).seq st) pc next 3 = (next, false, (returned c st).seq st) := by
  obtain ⟨p, hseq⟩ := returned_seq c st
  refine endCheck_innermost ?_ next 3
  rw [hseq]
  refine h.ends.imp id fun hle => ?_
  rwa [Seq.level, Seq.leave, restoreLoops_le]

end

/-- TRET is performed on a core from which it returns. -/
theorem performM_tret {s : State} {x : Ctx} (hrun : (s.core x.core).run = .running) (hjx : ((s.core x.core).seq x.st).jx = false)
    (h : Returns (s.core x.core) x.st x.pc) : ∃ a keep, a = ((recordOf (s.core x.core) x.st (s.core x.core).ctl.lvl).epc.extractLsb' 0 19).setWidth 64
      ∧ performM x 0 (fun x => onCore x.core (tretM x)) s = .ok ((.jump a, a, keep), s.setCore x.core (returnedCore (s.core x.core) x.st)) := by
  set c := s.core x.core with hc
  set d := c.modSeq x.st Seq.takeTgt with hd
  set a : Word := ((recordOf d x.st d.ctl.lvl).epc.extractLsb' 0 19).setWidth 64 with ha
  have hidle : d.run ≠ .idle := by rw [hd, Core.modSeq_run, hrun]; decide
  have hidle' : (returned d x.st).run ≠ .idle := by
    show (returnedCore c x.st).run ≠ .idle
    rw [returnedCore_run, hrun]
    decide
  have hcore : (s.setCore x.core d).core x.core = d := s.setCore_core_self x.core hidle
  have hself : (s.setCore x.core (returned d x.st)).core x.core = returned d x.st := s.setCore_core_self x.core hidle'
  obtain ⟨keep, hloops⟩ := loopsM_passes (x := x) (n := 0) (nx := .jump a) (h.takeTgt.endCheck a)
  have hnojx : (((s.setCore x.core d).core x.core).seq x.st).jx = false := by
    rw [hcore, hd, Core.modSeq_seq, Seq.takeTgt_jx, hjx]
  have heffect : onCore x.core (tretM x) (s.setCore x.core d) = .ok (.jump a, s.setCore x.core (returned d x.st)) := by
    rw [onCore_ok (by rw [hcore]; exact tretM_returns h.takeTgt.active), State.setCore_setCore _ _ hidle hidle']
  refine ⟨a, keep, by rw [ha, recordOf_takeTgt, hd, Core.modSeq_ctl], ?_⟩
  unfold performM
  refine (run_bind_ok (onCore_ok (before_ok (by simp [Core.selectorBefore])))).trans <| (run_bind_ok (run_get _)).trans ?_
  refine (congrFun (if_neg (ne_true_of_eq_false hnojx)) _).trans ?_
  have hkeep : (s.setCore x.core (returned d x.st)).setCore x.core (returned d x.st) = s.setCore x.core (returned d x.st) :=
    State.setCore_setCore _ _ hidle' hidle'
  have hresolve (q0 : Seq) : resolveM x 0 q0 (.jump a) (s.setCore x.core (returned d x.st)) = .ok ((.jump a, a, keep), s.setCore x.core (returned d x.st)) := by
    have hselect : selectM x 0 q0 (.jump a) (returned d x.st) = .ok ((a, false), returned d x.st) := rfl
    refine (run_bind_ok (onCore_ok (a := (a, keep)) (c := returned d x.st) ?_)).trans ?_
    · rw [hself]
      exact (run_bind_ok hselect).trans hloops
    · rw [hkeep]
      rfl
  have hlive : onCore x.core (raiseIf ((0 : BitVec 3) == 7 && Core.livePunty ((s.setCore x.core d).core x.core) x.st) cLiveMap 0 0 0)
      (s.setCore x.core (returned d x.st)) = .ok ((), s.setCore x.core (returned d x.st)) := by
    rw [onCore_ok (a := ()) (c := (s.setCore x.core (returned d x.st)).core x.core) rfl, hself, hkeep]
  exact (run_bind_ok heffect).trans <| (run_bind_ok hlive).trans <| (run_bind_ok (run_get _)).trans (hresolve _)

/-- A word that can be performed with every register readable waits for none. -/
theorem firstWait_of_performs {s : State} {x : Ctx} {n : BitVec 3} {eff : Ctx → DM Next} {p : (Next × Word × Bool) × State}
    (h : performM x n eff (s.setCore x.core ((s.core x.core).readable x.st)) = .ok p) : firstWait s x n eff = none := by
  unfold firstWait
  dsimp only
  rw [h]
  split <;> rfl

/-- The commit of a word outside gangs that leaves its core as c: the stream goes on, and no data of the core changes. -/
theorem commit_putsCore {s : State} {x : Ctx} {i : Instr} {n : BitVec 3} {a : Word} {keep : Bool} {c c0 : Core} (hidle : c.run ≠ .idle)
    (hgang : c.gang = none) :
    ∃ e, commit ((s.setCore x.core c).modCore x.core fun c => c.leaveRunner c0 x) x i n a keep = s.setCore x.core e ∧ Core.sameData x.st e c
      ∧ e.seq x.st = (c.seq x.st).advance x n a keep := by
  obtain ⟨-, hgang', hrun'⟩ := Core.leaveRunner_sameData c c0 x x.st
  have hidle' := hrun'.trans_ne hidle
  have hself : (s.setCore x.core c).core x.core = c := s.setCore_core_self x.core hidle
  have hself' : (s.setCore x.core (c.leaveRunner c0 x)).core x.core = c.leaveRunner c0 x := s.setCore_core_self x.core hidle'
  rw [State.modCore, hself, State.setCore_setCore _ _ hidle hidle']
  obtain ⟨e, hcommit, hdata, hseq, -⟩ := commit_alone (s := s.setCore x.core (c.leaveRunner c0 x)) (x := x) i n a keep
    (by rw [hself', hgang', hgang]) (by rwa [hself'])
  rw [hself'] at hdata hseq
  rw [Core.leaveRunner_seq] at hseq
  exact ⟨e, hcommit.trans (State.setCore_setCore _ _ hidle' (hdata.2.2.trans_ne hidle')), hdata.trans (Core.leaveRunner_sameData c c0 x x.st), hseq⟩

/-- TRET of a core alone returns its stream, and nothing else changes. -/
theorem tret_returns {s : State} (ha : issuesAlone s .tret = true) (h : Returns (s.core s.cur) s.strm s.ctx.pc) :
    ∃ e keep, exec .tret s = .next (s.setCore s.cur e) ∧ Core.sameData s.strm e (returnedCore (s.core s.cur) s.strm)
      ∧ e.seq s.strm = ((returnedCore (s.core s.cur) s.strm).seq s.strm).advance s.ctx 0
        (((recordOf (s.core s.cur) s.strm (s.core s.cur).ctl.lvl).epc.extractLsb' 0 19).setWidth 64) keep := by
  obtain ⟨hissues, halone, huntimed, hjx, hlegal⟩ := issuesAlone_iff.mp ha
  have hrun := canIssue_run hissues
  obtain ⟨a, keep, rfl, hperform⟩ := performM_tret (x := s.ctx) hrun hjx h
  have hreadable : (s.setCore s.cur ((s.core s.cur).readable s.strm)).core s.cur = (s.core s.cur).readable s.strm :=
    s.setCore_core_self s.cur (by show ((s.core s.cur).modSeq s.strm _).run ≠ .idle; rw [Core.modSeq_run, hrun]; decide)
  have hfirst : firstWait s s.ctx 0 (fun x => onCore x.core (tretM x)) = none := by
    obtain ⟨a, keep, -, hreads⟩ := performM_tret (s := s.setCore s.cur ((s.core s.cur).readable s.strm)) (x := s.ctx)
      (by rw [State.ctx_core, hreadable]; exact (Core.modSeq_run _ _ _).trans hrun)
      (by rw [State.ctx_core, hreadable]; exact (readable_jx _ _).trans hjx)
      (by rw [State.ctx_core, hreadable]; exact h.readable)
    exact firstWait_of_performs hreads
  have hidle : (returnedCore (s.core s.cur) s.strm).run ≠ .idle := by rw [returnedCore_run, hrun]; decide
  obtain ⟨e, hcommit, hdata, hseq⟩ := commit_putsCore (s := s) (x := s.ctx) (i := .tret) (n := 0)
    (a := ((recordOf (s.core s.cur) s.strm (s.core s.cur).ctl.lvl).epc.extractLsb' 0 19).setWidth 64) (keep := keep) (c0 := s.core s.cur) hidle
    (by rw [returnedCore_gang, halone])
  refine ⟨e, keep, ?_, hdata, hseq⟩
  show issue .tret (fun x => onCore x.core (tretM x)) s = _
  simp only [issue, hissues, fwdFull_of_alone halone, huntimed, Bool.not_true, Bool.or_false, Bool.false_eq_true, if_false, hlegal]
  rw [show mkCtx s.cur s.strm s ((s.core s.cur).seq s.strm) (s.core s.cur).ctl.fpctl = s.ctx from rfl]
  simp only [tryWord, show selector .tret = 0 from rfl, hfirst, hperform]
  exact congrArg _ hcommit

/-- What the returning core reads of its level and its handlers, of the other stream, and of its registers. -/
theorem returnedCore_reads (c : Core) (st : Strm) : (returnedCore c st).ctl.lvl = (recordOf c st c.ctl.lvl).cause.getLsbD 17
    ∧ (returnedCore c st).ctl.sb = (c.ctl.sb && !c.ctl.lvl) ∧ (returnedCore c st).ctl.ub = (c.ctl.ub && c.ctl.lvl)
    ∧ ((returnedCore c st).seq st.other).stopped = false ∧ (returnedCore c st).a.regs = c.a.regs ∧ (returnedCore c st).e.regs = c.e.regs := by
  have hregs (q : Seq) : q.takeTgt.regs = q.regs := by
    unfold Seq.takeTgt
    split <;> rfl
  have hlvl : (returnedCore c st).ctl.lvl = (recordOf (c.modSeq st Seq.takeTgt) st (c.modSeq st Seq.takeTgt).ctl.lvl).cause.getLsbD 17 := rfl
  rw [recordOf_takeTgt, Core.modSeq_ctl] at hlvl
  refine ⟨hlvl, ?_⟩
  cases st
  · exact ⟨rfl, rfl, rfl, hregs c.a, rfl⟩
  · exact ⟨rfl, rfl, rfl, rfl, hregs c.e⟩

/-- These are data of a core. -/
theorem sameData_reads {st : Strm} {c d : Core} (h : c.data st = d.data st) : c.ctl.lvl = d.ctl.lvl ∧ c.ctl.sb = d.ctl.sb ∧ c.ctl.ub = d.ctl.ub
    ∧ (c.seq st.other).stopped = (d.seq st.other).stopped ∧ c.a.regs = d.a.regs ∧ c.e.regs = d.e.regs := by
  refine ⟨congrArg (fun c => c.ctl.lvl) h, congrArg (fun c => c.ctl.sb) h, congrArg (fun c => c.ctl.ub) h, ?_⟩
  cases st
  · exact ⟨congrArg (fun c => c.e.stopped) h, congrArg (fun c => c.a.regs) h, congrArg (fun c => c.e.regs) h⟩
  · exact ⟨congrArg (fun c => c.a.stopped) h, congrArg (fun c => c.a.regs) h, congrArg (fun c => c.e.regs) h⟩

/-- The stream of a returning core. -/
theorem returnedCore_seq (c : Core) (st : Strm) :
    ∃ p, (returnedCore c st).seq st = { (c.seq st).takeTgt.leave (recordOf c st c.ctl.lvl) with parked := p } := by
  obtain ⟨p, hseq⟩ := returned_seq (c.modSeq st Seq.takeTgt) st
  rw [recordOf_takeTgt, Core.modSeq_ctl, Core.modSeq_seq] at hseq
  exact ⟨p, hseq⟩

/-- A restored level keeps its live values, and takes its frame and its shadows from the record. -/
theorem restoreLoops_get (now saved : Levels) {j : Nat} (h : j < 3) :
    (restoreLoops now saved).get j = { now.get j with frame := (saved.get j).frame, shLs := (saved.get j).shLs, shLe := (saved.get j).shLe } := by
  obtain rfl | rfl | rfl : j = 0 ∨ j = 1 ∨ j = 2 := by omega
  all_goals rfl

/-- An address within ULM is its low 19 bits. -/
theorem low19_eq_and (w : Word) : (w.extractLsb' 0 19).setWidth 64 = w &&& 0x7FFFF := by
  refine BitVec.eq_of_toNat_eq ?_
  have hmask := Nat.and_two_pow_sub_one_eq_mod w.toNat 19
  have hand : (w &&& 0x7FFFF).toNat = w.toNat % 2 ^ 19 := by
    rw [BitVec.toNat_and]
    exact hmask
  rw [hand, BitVec.toNat_setWidth, BitVec.extractLsb'_toNat, Nat.shiftRight_zero]
  omega

/-- Settles O28: TRET puts back in its stream what the record keeps, and its end check finds no body that ends at it. -/
theorem tretReturns : Obligations.TretReturns := by
  intro s ha hactive hends
  obtain ⟨e, keep, hexec, ⟨hdata, -, hrun⟩, hseq⟩ := tret_returns ha ⟨hactive, hends⟩
  have hidle : e.run ≠ .idle := by
    rw [hrun, returnedCore_run, canIssue_run (issuesAlone_iff.mp ha).1]
    decide
  obtain ⟨hlvl, hsb, hub, hother, hregsA, hregsE⟩ := sameData_reads hdata
  obtain ⟨hlvl', hsb', hub', hother', hregsA', hregsE'⟩ := returnedCore_reads (s.core s.cur) s.strm
  obtain ⟨p, hret⟩ := returnedCore_seq (s.core s.cur) s.strm
  rw [hret] at hseq
  obtain ⟨-, -, hloops⟩ := takeTgt_keeps ((s.core s.cur).seq s.strm)
  refine ⟨_, hexec, ⟨fun m hm => s.setCore_core_ne hidle hm, rfl, rfl⟩, ?_⟩
  rw [s.setCore_core_self s.cur hidle, hlvl, hsb, hub, hother, hregsA, hregsE, hseq]
  refine ⟨low19_eq_and _, hlvl', hsb', hub', rfl, rfl, rfl, fun j hj => ?_, rfl, rfl, hother', hregsA', hregsE'⟩
  refine (restoreLoops_get _ _ hj).trans ?_
  rw [hloops]
  rfl

end Sys2Proof.Slice0
end

section
/-!
SUPPORT. GANG (R330): what a word in a gang leaves of the core that issues it, through the commit and the start of its followers.
-/

namespace Sys2Proof.Machine

section
variable {α : Type} [DecidableEq α] {d : α}

/-- A value that a sparse array holds outlasts a write at another place. -/
theorem Store.get_set_of_held {m : Store α} {k n : Nat} (v : α) (h : n ≠ k) (hheld : Store.get d m n ≠ d) :
    Store.get d (Store.set d m k v) n = Store.get d m n := by
  by_cases hv : v = d
  · subst hv
    induction m with
    | nil => exact absurd rfl hheld
    | cons p m ih =>
      obtain ⟨j, w⟩ := p
      rw [Store.get] at hheld ⊢
      by_cases hn : n < j
      · rw [if_pos hn] at hheld
        exact absurd rfl hheld
      · rw [if_neg hn] at hheld ⊢
        rw [Store.set]
        by_cases hk : k < j
        · rw [if_pos hk, if_pos rfl, Store.get, if_neg hn]
        · rw [if_neg hk]
          by_cases hkj : k = j
          · rw [if_pos hkj, if_pos rfl, if_neg (by omega)]
          · rw [if_neg hkj, Store.get, if_neg hn]
            by_cases hnj : n = j
            · rw [if_pos hnj, if_pos hnj]
            · rw [if_neg hnj] at hheld ⊢
              rw [if_neg hnj, ih hheld]
  · exact Store.get_set_ne_of_ne m h hv

end

/-- A running core is changed by a change of its own alone. -/
theorem State.modCore_running {s : State} {n m : Nat} {f : Core → Core} (hrun : (s.core m).run = .running) (hf : ∀ c, (f c).run = c.run) :
    (s.modCore n f).core m = if m = n then f (s.core m) else s.core m := by
  by_cases hm : m = n
  · subst hm
    rw [if_pos rfl]
    exact s.setCore_core_self m (by rw [hf, hrun]; decide)
  · rw [if_neg hm]
    refine Store.get_set_of_held _ hm fun he => ?_
    have : (s.core m).run = .idle := congrArg Core.run he
    rw [hrun] at this
    cases this

/-- What a word in a gang leaves: the core's run state, its wait, its gang and its A-stream's registers. -/
def Core.gangView (c : Core) : Run × Option Wait × Option Gang × Store Word := (c.run, c.wait, c.gang, c.a.regs)

end Sys2Proof.Machine

namespace Sys2Proof.Slice0

open Sys2Proof.Machine

/-- A change of any core that keeps this view keeps it of a running core. -/
theorem gangView_modCore {s : State} {n m : Nat} {f : Core → Core} (hrun : (s.core m).run = .running) (hf : ∀ c, (f c).gangView = c.gangView) :
    ((s.modCore n f).core m).gangView = (s.core m).gangView := by
  rw [State.modCore_running hrun fun c => congrArg (·.1) (hf c)]
  split
  · exact hf _
  · rfl

theorem gangView_modSeq {c : Core} {st : Strm} {f : Seq → Seq} (hf : ∀ q : Seq, (f q).regs = q.regs) : (c.modSeq st f).gangView = c.gangView := by
  cases st
  · simp only [Core.gangView, Core.modSeq, Core.setSeq, Core.seq, hf]
  · rfl

theorem gangView_countIssue (c : Core) : c.countIssue.gangView = c.gangView := by
  unfold Core.countIssue
  (repeat' split) <;> rfl

theorem gangView_leaveRunner (c c0 : Core) (x : Ctx) : (c.leaveRunner c0 x).gangView = c.gangView := by
  unfold Core.leaveRunner
  split <;> rfl

theorem takeTgt_regs (q : Seq) : q.takeTgt.regs = q.regs := by
  unfold Seq.takeTgt
  split <;> rfl

theorem follow_regs (q : Seq) : q.follow.regs = q.regs := by
  unfold Seq.follow
  split <;> rfl

/-- What a core of a gang sees in common with a core whose data it shares. -/
theorem gangView_of_sameData {c d : Core} (h : Core.sameData .a c d) : c.gangView = d.gangView := by
  obtain ⟨hdata, hgang, hrun⟩ := h
  have hwait : c.wait = d.wait := congrArg (fun c => c.wait) hdata
  have hregs : c.a.regs = d.a.regs := congrArg (fun c => c.a.regs) hdata
  simp only [Core.gangView, hgang, hrun, hwait, hregs]

/-- The commit of a word, in a gang too, keeps this view of its core. -/
theorem commit_gangView {s : State} {x : Ctx} {i : Instr} {n : BitVec 3} {next : Word} {keep : Bool} (hrun : (s.core x.core).run = .running) :
    ((commit s x i n next keep).core x.core).gangView = (s.core x.core).gangView := by
  have hissue (c : Core) : (let c := c.countIssue.modSeq x.st fun q => q.advance x n next keep
      let c := { c with ctl := { c.ctl with wdogCount := 0 } }
      if c.follower then c.modSeq x.st Seq.follow else c : Core).gangView = c.gangView := by
    have hadvance : (c.countIssue.modSeq x.st fun q => q.advance x n next keep).gangView = c.gangView := by
      refine (gangView_modSeq ?_).trans (gangView_countIssue c)
      exact fun q => rfl
    dsimp only
    split
    · exact (gangView_modSeq follow_regs).trans hadvance
    · exact hadvance
  have hown := gangView_modCore (n := x.core) hrun hissue
  unfold commit
  dsimp only
  split
  · unfold forward
    dsimp only
    split
    · refine (gangView_modCore ((congrArg (·.1) hown).trans hrun) fun c => gangView_modSeq ?_).trans hown
      exact fun q => rfl
    · exact hown
  · exact hown

/-- So does the start of the followers of a leader. -/
theorem gangGo_gangView {s : State} {n m : Nat} (hrun : (s.core m).run = .running) : ((s.gangGo n).core m).gangView = (s.core m).gangView := by
  have hfollow (c : Core) (l : Core) : ({ c with a := c.a.takeCtl l.a, e := c.e.takeCtl l.e } : Core).gangView = c.gangView := rfl
  have hall (ns : List Nat) (l : Core) : ∀ s : State, (s.core m).run = .running →
      ((ns.foldl (fun s n => s.modCore n fun c => { c with a := c.a.takeCtl l.a, e := c.e.takeCtl l.e }) s).core m).gangView = (s.core m).gangView := by
    induction ns with
    | nil => exact fun s _ => rfl
    | cons k ns ih =>
      intro s hrun
      have hone := gangView_modCore (n := k) hrun fun c => hfollow c l
      exact (ih _ ((congrArg (·.1) hone).trans hrun)).trans hone
  have hfollowers := hall (s.followers n) (s.core n) s hrun
  unfold State.gangGo
  refine (gangView_modCore (f := Core.unpark) ((congrArg (·.1) hfollowers).trans hrun) ?_).trans hfollowers
  exact fun c => rfl

/-! ### A result, and the end of a wait -/

theorem waitOver_setMain (c : Core) (st : Strm) (h : Nat) (v : Vec) :
    ({ c with wait := none } : Core).setMain st h v = { c.setMain st h v with wait := none } := by
  unfold Core.setMain
  split_ifs <;> cases st <;> rfl

theorem waitOver_freeHome (c : Core) (st : Strm) (h : Nat) : ({ c with wait := none } : Core).freeHome st h = { c.freeHome st h with wait := none } := by
  cases st <;> rfl

theorem waitOver_putHome (c : Core) (st : Strm) (h : Nat) (v : Vec) :
    ({ c with wait := none } : Core).putHome st h v = { c.putHome st h v with wait := none } := by
  rw [Core.putHome, waitOver_freeHome, waitOver_setMain]
  rfl

theorem waitOver_putShort (c : Core) (st : Strm) (h : Nat) (v : Vec) (t : Nat) :
    ({ c with wait := none } : Core).putShort st h v t = { c.putShort st h v t with wait := none } := by
  unfold Core.putShort
  split
  · rfl
  · rw [waitOver_freeHome]
    cases st <;> rfl

/-- The end of a wait is no part of a result. -/
theorem waitOver_resultX (c : Core) (x : Ctx) (d : BitVec 5) (v : Word) :
    ({ c with wait := none } : Core).resultX x d v = { c.resultX x d v with wait := none } := by
  have hhome : ({ c with wait := none } : Core).homeOf x.st d = c.homeOf x.st d := by cases x.st <;> rfl
  rw [Core.resultX, Core.resultX, hhome, Core.result, Core.result, waitOver_putShort, waitOver_putHome]
  split_ifs <;> rfl

/-- What no stream, no register of a tile and no mark of a damaged register holds, a result leaves as it was. -/
theorem resultX_keeps {α : Type} (g : Core → α) (hseq : ∀ c st f, g (Core.modSeq c st f) = g c) 
    (hbad : ∀ (c : Core) bad, g { c with regBad := bad } = g c)
    (hv : ∀ (c : Core) v, g { c with v := v } = g c) (hk : ∀ (c : Core) k, g { c with k := k } = g c) (c : Core) (x : Ctx) (d : BitVec 5) (v : Word) :
    g (c.resultX x d v) = g c := by
  have hfree (h : Nat) : g (c.freeHome x.st h) = g c := (hbad _ _).trans (hseq c x.st _)
  have hmain (c : Core) (h : Nat) (w : Vec) : g (c.setMain x.st h w) = g c := by
    unfold Core.setMain
    split_ifs
    · rfl
    · exact hseq c x.st _
    · exact hv c _
    · exact hk c _
  unfold Core.resultX Core.result Core.putShort Core.putHome
  split_ifs
  · rfl
  · exact (hseq _ _ _).trans (hfree _)
  · exact (hmain _ _ _).trans (hfree _)

/-- A result leaves the core's gang as it was. -/
theorem resultX_gang (c : Core) (x : Ctx) (d : BitVec 5) (v : Word) : (c.resultX x d v).gang = c.gang :=
  resultX_keeps Core.gang (fun c st f => by cases st <;> rfl) (fun _ _ => rfl) (fun _ _ => rfl) (fun _ _ => rfl) c x d v

/-! ### A word that passes on -/

section
variable {s s2 : State} {i : Instr} {n : BitVec 3} {eff : Ctx → DM Next}

/-- The parts of a word with selector 0 or 7 that lie around its effect touch its stream's loops only. -/
theorem performM_passes (hn : n = 0 ∨ n = 7) (hrunning : (s.core s.cur).run = .running) (hjx : ((s.core s.cur).seq s.strm).jx = false)
    (hbefore : (s.core s.cur).selectorBefore s.strm n = true) (hidle : (s2.core s.cur).run ≠ .idle)
    (he : eff s.ctx s.issuing = .ok (.seq, s2)) :
    ∃ a keep c, performM s.ctx n eff s = .ok ((.seq, a, keep), s2.setCore s.cur c) ∧ Core.sameData s.strm c (s2.core s.cur)
      ∧ c.bits s.strm = (s2.core s.cur).bits s.strm
      ∧ (∃ d l, c.seq s.strm = { (s2.core s.cur).seq s.strm with loopDepth := d, loops := l })
      ∧ (a, (c.seq s.strm).loopDepth) = ((s2.core s.cur).seq s.strm).afterLoops s.ctx.pc (s.ctx.pc + 4) := by
  have hcore : (s.setCore s.cur s.atIssue).core s.cur = s.atIssue := State.setCore_atIssue_core hrunning
  have hself : (s2.setCore s.cur (s2.core s.cur)).core s.cur = s2.core s.cur := s2.setCore_core_self s.cur hidle
  have hnojx : (((s.setCore s.cur s.atIssue).core s.cur).seq s.strm).jx = false := by
    rw [hcore, State.atIssue, Core.modSeq_seq, Seq.takeTgt_jx, hjx]
  have hlive : (n == 7 && ((s.setCore s.cur s.atIssue).core s.cur).livePunty s.strm) = false := by
    rw [hcore, State.atIssue, Core.takeTgt_livePunty]
    exact Core.selectorBefore_live hbefore
  have hselect (q0 : Seq) : selectM s.ctx n q0 .seq (s2.core s.cur) = .ok ((s.ctx.pc + 4, false), s2.core s.cur) := by
    rcases hn with rfl | rfl <;> rfl
  obtain ⟨a, keep, c, hloops, hdata, hbits, hwindow, -, hon⟩ := loopsM_ok s.ctx n .seq (s.ctx.pc + 4) false (s2.core s.cur)
  have hc : c.run ≠ .idle := hdata.2.2.trans_ne hidle
  have hresolve (q0 : Seq) : resolveM s.ctx n q0 .seq (s2.setCore s.cur (s2.core s.cur)) = .ok ((.seq, a, keep), s2.setCore s.cur c) := by
    refine (run_bind_ok (onCore_ok ((run_bind_ok ((congrArg _ hself).trans (hselect q0))).trans hloops))).trans ?_
    rw [State.setCore_setCore _ _ hidle hc]
    rfl
  have hraise : onCore s.cur (raiseIf (n == 7 && ((s.setCore s.cur s.atIssue).core s.cur).livePunty s.strm) cLiveMap 0 0 0) s2
      = .ok ((), s2.setCore s.cur (s2.core s.cur)) := onCore_ok (by rw [hlive]; rfl)
  have hno6 : (n == 6) = false := by rcases hn with rfl | rfl <;> rfl
  refine ⟨a, keep, c, ?_, hdata, hbits, hwindow, hon rfl⟩
  unfold performM
  refine (run_bind_ok (onCore_ok (before_ok hbefore))).trans <| (run_bind_ok (run_get _)).trans ?_
  refine (congrFun (if_neg (ne_true_of_eq_false hnojx)) _).trans ?_
  refine (run_bind_ok he).trans <| (run_bind_ok hraise).trans <| (run_bind_ok (run_get _)).trans <| (congrFun (if_neg ?_) _).trans (hresolve _)
  rw [hno6]
  exact Bool.false_ne_true

/-- A word that its parts let run is committed. -/
theorem issue_commits {a : Word} {keep : Bool} {t : State} (hcan : s.canIssue = true) (hfull : s.fwdFull s.cur s.strm = false)
    (htable : ∀ k, s.inTimetable = some k → endsTimetable k i = false)
    (hlegal : illegal s.strm (!(s.core s.cur).ctl.lvl) ((s.core s.cur).seq s.strm).hints i = none) (hu : (s.core s.cur).unharmed s.strm = true)
    (hp : performM s.ctx (selector i) eff s = .ok ((.seq, a, keep), t)) :
    issue i eff s = .next (commit (t.modCore s.cur fun c => c.leaveRunner (s.core s.cur) s.ctx) s.ctx i (selector i) a keep) := by
  have hwait : firstWait s s.ctx (selector i) eff = none := by
    unfold firstWait
    exact if_pos hu
  have hends : (match s.inTimetable with | some k => endsTimetable k i | none => false) = false := by
    split
    · next k hk => exact htable k hk
    · rfl
  have htry : tryWord i s s.ctx eff = commit (t.modCore s.cur fun c => c.leaveRunner (s.core s.cur) s.ctx) s.ctx i (selector i) a keep := by
    unfold tryWord
    simp only [hwait, hp, State.ctx_core]
  unfold issue
  refine (if_neg (by rw [hcan, hfull]; decide)).trans ((if_neg ?_).trans ?_)
  · exact ne_true_of_eq_false hends
  · dsimp only
    rw [hlegal]
    exact congrArg _ htry

/-- A word of the A-stream with selector 7 that runs, in a gang or not, leaves this view of its core as its effect does. -/
theorem issue_gangView {c : Core} (hsel : selector i = 7) (hcan : s.canIssue = true) (hfull : s.fwdFull s.cur .a = false) (hst : s.strm = .a)
    (hjx : (s.core s.cur).a.jx = false) (hs : (s.core s.cur).settled .a = true) (hbefore : (s.core s.cur).selectorBefore .a 7 = true)
    (hlegal : illegal .a (!(s.core s.cur).ctl.lvl) (s.core s.cur).a.hints i = none) (hc : c.run = .running)
    (he : eff s.ctx s.issuing = .ok (.seq, s.setCore s.cur c)) :
    ∃ t, issue i eff s = .next t ∧ (t.core s.cur).gangView = c.gangView := by
  have hidle : c.run ≠ .idle := by rw [hc]; decide
  have hrunning : (s.core s.cur).run = .running := by
    simp only [State.canIssue, Bool.and_eq_true, beq_iff_eq] at hcan
    exact hcan.1.1.1.1.1.1.1
  have hcore : (s.setCore s.cur c).core s.cur = c := s.setCore_core_self s.cur hidle
  have htable : s.inTimetable = none := by rw [State.inTimetable, hst]
  obtain ⟨a, keep, d, hp, hdata, -⟩ := performM_passes (n := 7) (.inr rfl) hrunning (by rwa [hst]) (by rwa [hst]) (by rwa [hcore]) he
  rw [hcore, hst] at hdata
  have hview : d.gangView = c.gangView := gangView_of_sameData hdata
  have hdrun : d.run = .running := (congrArg (·.1) hview).trans hc
  rw [State.setCore_setCore _ _ hidle (by rw [hdrun]; decide)] at hp
  refine ⟨_, issue_commits hcan (by rwa [hst]) (by simp [htable]) (by rw [hst]; exact hlegal) (by rw [hst]; exact Core.settled_unharmed hs)
    (by rw [hsel]; exact hp), ?_⟩
  have hd : (s.setCore s.cur d).core s.cur = d := s.setCore_core_self s.cur (by rw [hdrun]; decide)
  have hleft := gangView_modCore (s := s.setCore s.cur d) (n := s.cur) (m := s.cur) (by rw [hd, hdrun]) fun e => gangView_leaveRunner e (s.core s.cur) s.ctx
  have hrun' := (congrArg (·.1) hleft).trans ((congrArg Core.run hd).trans hdrun)
  exact (commit_gangView (x := s.ctx) hrun').trans (hleft.trans ((congrArg Core.gangView hd).trans hview))

end

/-- The effect of GANG, once its join has succeeded, is the core's position. -/
theorem gangM_joined {s : State} {d a : BitVec 5} {size since : Nat} {ready : Bool} (hrun : (s.core s.cur).run = .running)
    (hs : (s.core s.cur).settled s.strm = true) (hwait : (s.core s.cur).wait = some (.gang size since ready (some 0)))
    (hlast : posIn (gangCores s.cur size) s.cur ≠ 0 ∨ ((gangCores s.cur size).all fun m => m == s.cur || !(s.core m).atGang) = true) :
    gangM d a s.ctx s.issuing = .ok (.seq, s.setCore s.cur (({ s.atIssue with wait := none } : Core).resultX s.ctx d
      (BitVec.ofNat 64 (posIn (gangCores s.cur size) s.cur)))) := by
  have hwait' : s.atIssue.wait = some (.gang size since ready (some 0)) := by
    rw [← hwait, State.atIssue]
    cases s.strm <;> rfl
  have hothers (m : Nat) (hm : m ≠ s.cur) : s.issuing.core m = s.core m := s.setCore_core_ne (State.atIssue_not_idle hrun) hm
  have hgo : ¬(posIn (gangCores s.cur size) s.cur = 0 ∧ ((gangCores s.cur size).any fun m => m != s.cur && (s.issuing.core m).atGang) = true) := by
    rintro ⟨hpos, hany⟩
    have hall := hlast.resolve_left (not_not.mpr hpos)
    obtain ⟨m, hm, hat⟩ := List.any_eq_true.mp hany
    simp only [Bool.and_eq_true, bne_iff_ne] at hat
    have hno := List.all_eq_true.mp hall m hm
    rw [← hothers m hat.1, hat.2] at hno
    simp [hat.1] at hno
  have hresult : (do
      modify fun c => { c with wait := none }
      wrX s.ctx d (BitVec.ofNat 64 (posIn (gangCores s.cur size) s.cur)) : CM Unit) s.atIssue
        = .ok ((), ({ s.atIssue with wait := none } : Core).resultX s.ctx d (BitVec.ofNat 64 (posIn (gangCores s.cur size) s.cur))) :=
    (run_bind_ok (run_modify _ _)).trans (wrX_settled (waitOver_settled (State.atIssue_settled hs)) d _)
  rw [gangM, run_bind_ok (run_get _), State.issuing_core hrun, hwait']
  dsimp only
  rw [State.ctx_core, if_neg hgo, run_bind_ok (onCore_ok (by rw [← State.ctx_core s, State.issuing_core hrun]; exact hresult)),
    State.issuing_setCore hrun (by rw [Core.resultX_run]; exact State.atIssue_not_idle hrun)]
  rfl

/-- Settles O38: the effect of GANG ends its wait and writes the position; what goes on to the core's gang and from it changes neither. -/
theorem gangCompletes : Obligations.GangCompletes := by
  intro s d a size since ready hwait hs hst hcan hfull hjx hbefore hlegal hlast
  have hrun : (s.core s.cur).run = .running := by
    simp only [State.canIssue, Bool.and_eq_true, beq_iff_eq] at hcan
    exact hcan.1.1.1.1.1.1.1
  have hrun' (v : Word) : (s.atIssue.resultX s.ctx d v).run = .running := (Core.resultX_run _ _ _ _).trans ((State.atIssue_run s).trans hrun)
  have he := gangM_joined (a := a) (d := d) hrun (by rwa [hst]) hwait hlast
  rw [waitOver_resultX] at he
  obtain ⟨t, hissue, hview⟩ := issue_gangView (i := .gang d a) (c := { s.atIssue.resultX s.ctx d _ with wait := none }) rfl hcan hfull hst hjx hs
    hbefore hlegal (hrun' _) he
  have hstarts : execGang d a s = .next (t.gangGo s.cur) ∨ execGang d a s = .next t := by
    unfold execGang
    rw [hissue]
    exact ite_eq_or_eq _ _ _
  obtain ⟨u, hexec, hgo⟩ : ∃ u, execGang d a s = .next u ∧ (u.core s.cur).gangView = (t.core s.cur).gangView := by
    rcases hstarts with hexec | hexec
    · exact ⟨_, hexec, gangGo_gangView ((congrArg (·.1) hview).trans (hrun' _))⟩
    · exact ⟨t, hexec, rfl⟩
  have hview := hgo.trans hview
  simp only [Core.gangView, Prod.mk.injEq] at hview
  obtain ⟨-, huwait, hugang, huregs⟩ := hview
  refine ⟨u, hexec, huwait, hugang.trans ?_, huregs⟩
  exact (resultX_gang _ _ _ _).trans (congrArg (·.2.2.1) (gangView_modSeq (c := s.core s.cur) takeTgt_regs))

end Sys2Proof.Slice0
end

section
/-!
SUPPORT. The timetabled exchange (R308 to R313): XBEGIN and XEND end their waits, and a word of a timetable, whose stream is in its phase, acts at its
cycle.
-/

namespace Sys2Proof.Machine

/-- Where a stream stands: what Goes speaks of (R67, R68, R78, R91). -/
def Seq.course (q : Seq) : Word × Word × BitVec 5 × BitVec 16 × Store Word × Nat := (q.pc, q.lk, q.cur, q.depth, q.links, q.loopDepth)

/-- Where a word sends its stream is read in where the stream then stands, and in the branch outcomes that wait. -/
theorem Goes.of_course {x : Ctx} {n : BitVec 3} {q0 : Seq} {c t u : Core} (h : Goes x n q0 c t) (hq : (u.seq x.st).course = (t.seq x.st).course)
    (hb : u.bits x.st = t.bits x.st) : Goes x n q0 c u := by
  simp only [Seq.course, Prod.mk.injEq] at hq
  obtain ⟨hpc, hlk, hcur, hdepth, hlinks, hloop⟩ := hq
  constructor
  · rw [hpc]; exact h.away
  · rw [hpc, hloop]; exact h.on
  · rw [hpc, hloop]; exact h.left
  · rw [hlk, hcur, hdepth, hlinks, hloop]; exact h.call
  · rw [hlk, hcur, hdepth]; exact h.ret
  · rw [hlk, hcur, hdepth, hlinks]; exact h.window
  · rw [hb]; exact h.bits

/-- A word with selector 0 or 7 goes on in sequence. -/
theorem Goes.passes {x : Ctx} {n : BitVec 3} {q0 : Seq} {c t : Core} (hn : n = 0 ∨ n = 7)
    (hon : ((t.seq x.st).pc, (t.seq x.st).loopDepth) = (c.seq x.st).afterLoops x.pc (x.pc + 4))
    (hwindow : (t.seq x.st).lk = (c.seq x.st).lk ∧ (t.seq x.st).cur = (c.seq x.st).cur ∧ (t.seq x.st).depth = (c.seq x.st).depth
      ∧ (t.seq x.st).links = (c.seq x.st).links) (hbits : t.bits x.st = c.bits x.st) : Goes x n q0 c t := by
  have hnot : c.taken x n q0 = false := by rcases hn with rfl | rfl <;> rfl
  have hno (k : BitVec 3) (h0 : k ≠ 0) (h7 : k ≠ 7) : n ≠ k := by rcases hn with rfl | rfl <;> [exact h0.symm; exact h7.symm]
  constructor
  · exact fun htaken => absurd (hnot.symm.trans htaken) Bool.false_ne_true
  · exact fun _ => hon
  · exact fun htaken => absurd (hnot.symm.trans htaken) Bool.false_ne_true
  · exact fun h4 => absurd h4 (hno 4 (by decide) (by decide))
  · exact fun h5 => absurd h5 (hno 5 (by decide) (by decide))
  · exact fun _ _ => hwindow
  · rw [if_neg (hno 3 (by decide) (by decide)), hbits]

/-- A change of the moving core that keeps its data keeps a step one. -/
theorem Stepped.modCore {s2 t : State} {n : Nat} {st : Strm} {f : Core → Core} (h : Stepped s2 t n st) (hrun : (f (t.core n)).run ≠ .idle)
    (hdata : (f (t.core n)).data st = (t.core n).data st) : Stepped s2 (t.modCore n f) n st := by
  constructor
  · exact fun m hm => (t.setCore_core_ne hrun hm).trans (h.others m hm)
  · exact h.outside
  · exact (congrArg (Core.data · st) (t.setCore_core_self n hrun)).trans (hdata.trans h.core)

end Sys2Proof.Machine

namespace Sys2Proof.Slice0

open Sys2Proof.Machine

section
variable {s s2 : State} {i : Instr} {eff : Ctx → DM Next}

/-- A word with selector 0 or 7 that runs alone, in a timetable too: its effect happens, its stream goes on, and nothing else changes. -/
theorem issue_passes (hn : selector i = 0 ∨ selector i = 7) (hcan : s.canIssue = true) (hgang : (s.core s.cur).gang = none)
    (htable : ∀ k, s.inTimetable = some k → endsTimetable k i = false)
    (hlegal : illegal s.strm (!(s.core s.cur).ctl.lvl) ((s.core s.cur).seq s.strm).hints i = none) (hu : (s.core s.cur).unharmed s.strm = true)
    (hjx : ((s.core s.cur).seq s.strm).jx = false) (hbefore : (s.core s.cur).selectorBefore s.strm (selector i) = true)
    (hgang2 : (s2.core s.cur).gang = none) (hrun2 : (s2.core s.cur).run = .running) (he : eff s.ctx s.issuing = .ok (.seq, s2)) :
    ∃ t, issue i eff s = .next t ∧ (t.core s.cur).run = .running ∧ Stepped s2 t s.cur s.strm
      ∧ Goes s.ctx (selector i) (s.atIssue.seq s.strm) (s2.core s.cur) (t.core s.cur) := by
  have hidle : (s2.core s.cur).run ≠ .idle := by rw [hrun2]; decide
  obtain ⟨a, keep, d, hp, hdata, hbits, ⟨depth, loops, hwindow⟩, hon⟩ := performM_passes hn (canIssue_run hcan) hjx hbefore hidle he
  obtain ⟨hddata, hdgang, hdrun⟩ := hdata
  have hdidle : d.run ≠ .idle := hdrun.trans_ne hidle
  obtain ⟨-, hlgang, hlrun⟩ := Core.leaveRunner_sameData d (s.core s.cur) s.ctx s.strm
  have hlidle : (d.leaveRunner (s.core s.cur) s.ctx).run ≠ .idle := hlrun.trans_ne hdidle
  have hd : (s2.setCore s.cur d).core s.cur = d := s2.setCore_core_self s.cur hdidle
  have hl : (s2.setCore s.cur (d.leaveRunner (s.core s.cur) s.ctx)).core s.ctx.core = d.leaveRunner (s.core s.cur) s.ctx :=
    s2.setCore_core_self s.cur hlidle
  obtain ⟨e, hcommit, hedata, heseq, hebits⟩ := commit_alone (s := s2.setCore s.cur (d.leaveRunner (s.core s.cur) s.ctx)) (x := s.ctx) i
    (selector i) a keep (by rw [hl, hlgang, hdgang, hgang2]) (by rwa [hl])
  rw [hl] at hedata heseq hebits
  rw [Core.leaveRunner_seq] at heseq
  rw [Core.leaveRunner_bits] at hebits
  have hsame : Core.sameData s.strm e (s2.core s.cur) := (hedata.trans (Core.leaveRunner_sameData d _ _ _)).trans ⟨hddata, hdgang, hdrun⟩
  have heidle : e.run ≠ .idle := hsame.2.2.trans_ne hidle
  have hput : commit ((s2.setCore s.cur d).modCore s.cur fun c => c.leaveRunner (s.core s.cur) s.ctx) s.ctx i (selector i) a keep
      = s2.setCore s.cur e := by
    rw [State.modCore, hd, State.setCore_setCore _ _ hdidle hlidle, hcommit]
    exact State.setCore_setCore _ _ hlidle heidle
  have he : (s2.setCore s.cur e).core s.cur = e := s2.setCore_core_self s.cur heidle
  refine ⟨s2.setCore s.cur e, ?_, ?_, Stepped.of_setCore hsame heidle, ?_⟩
  · rw [← hput]
    exact issue_commits hcan (fwdFull_of_alone hgang) htable hlegal hu hp
  · rw [he, hsame.2.2, hrun2]
  · rw [he]
    refine .passes hn ?_ ?_ (hebits.trans hbits)
    · rw [heseq]
      exact hon
    · rw [heseq, show s.ctx.st = s.strm from rfl, hwindow]
      exact ⟨rfl, rfl, rfl, rfl⟩

end

/-! ### The words of a timetable (R308, R311, R312) -/

/-- A legal word that no TGT may stand before finds the branch target as it was (R48, R53). -/
theorem takeTgt_of_bare {st : Strm} {user : Bool} {q : Seq} {i : Instr} (hlegal : illegal st user q.hints i = none) (hhint : isHint i = false)
    (htgt : ∀ p s o, hintOk (form i) (selector i) (.tgt p s o) = false) : q.takeTgt = q := by
  have hbad : groupBad48 (form i) (selector i) q.hints = false := by
    unfold illegal at hlegal
    split_ifs at hlegal with _ _ hbad
    simp only [hhint, Bool.not_false, Bool.true_and, Bool.or_eq_true, not_or, Bool.not_eq_true] at hbad
    exact hbad.2
  have hhints : (q.hints.any fun h => !hintOk (form i) (selector i) h) = false := by
    simp only [groupBad48, Bool.or_eq_false_iff] at hbad
    exact hbad.1.1.1
  unfold Seq.takeTgt
  split
  · next p s o hsome =>
    obtain ⟨h, hmem, hsome⟩ := List.exists_of_findSome?_eq_some hsome
    have hok := List.any_eq_false.mp hhints h hmem
    cases h
    case tgt p s o => simp [htgt p s o] at hok
    all_goals cases hsome
  · rfl

/-- Such a word finds its core as it was. -/
theorem atIssue_of_bare {s : State} {user : Bool} {i : Instr} (hlegal : illegal s.strm user ((s.core s.cur).seq s.strm).hints i = none)
    (hhint : isHint i = false) (htgt : ∀ p o a, hintOk (form i) (selector i) (.tgt p o a) = false) : s.atIssue = s.core s.cur := by
  have hseq := takeTgt_of_bare hlegal hhint htgt
  unfold State.atIssue
  revert hseq
  cases s.strm
  · intro hseq
    exact congrArg (fun q => { s.core s.cur with a := q }) hseq
  · intro hseq
    exact congrArg (fun q => { s.core s.cur with e := q }) hseq

/-- A word of a timetable whose phase cycle has come passes the checks of R311. -/
theorem phaseM_ok {c : Core} {p : XPhase} {now cyc n busy reg : Nat} (hp : c.xph = some p)
    (hin : inPhase p now cyc n busy (Store.get 0 p.regAt reg) = true) :
    phaseM cyc n busy reg c = .ok (p, c) := by
  simp only [inPhase, Bool.and_eq_true, Bool.not_eq_true', decide_eq_true_eq] at hin
  obtain ⟨⟨⟨⟨⟨⟨hin, hbegun⟩, hnext⟩, hbusy⟩, hreg⟩, hend⟩, -⟩ := hin
  rw [phaseM, run_bind_ok (run_get c), hp]
  dsimp only
  have h1 : (p.left || !p.begun) = false := by rw [hin, hbegun]; rfl
  have h2 : (decide (cyc < p.next) || decide (cyc < busy) || decide (cyc < Store.get 0 p.regAt reg)) = false := by
    simp only [Bool.or_eq_false_iff, decide_eq_false_iff_not]
    omega
  have h3 : decide (p.plen < cyc + n) = false := decide_eq_false (by omega)
  rw [h1, h2, h3]
  rfl

/-- The effect of XSEL: its latch is armed, and its beats are latched once they are known (R312). -/
def xselM (c : BitVec 9) (r : BitVec 5) (k : BitVec 1) (t : BitVec 8) (cx : Ctx) : DM Next := do
  let s ← get
  let core := s.core cx.core
  let h := xHome core k r
  let nb := if k = 0 then 4 else 1
  let cyc := c.toNat
  let p ← onCore cx.core (phaseM cyc nb (match core.xph with | some p => p.rxFree | none => 0) 0)
  if cx.cycle < p.start + cyc then pure .hold
  else do
    onCore cx.core do
      destFree cx h
      modify fun c => { c with xph := some { p with
        next := cyc + 1
        rxFree := cyc + nb
        regAt := Store.set 0 p.regAt h (cyc + nb)
        sels := p.sels ++ [⟨h, t.toNat, cyc, nb⟩] } }
    pure .seq

theorem execXsel_eq (c : BitVec 9) (r : BitVec 5) (k : BitVec 1) (t : BitVec 8) : execXsel c r k t = issueTimed (.xsel c r k t) (xselM c r k t) := rfl

section
variable {s s2 : State} {i : Instr} {eff : Ctx → DM Next} {cy : BitVec 9} {r : BitVec 5} {k : BitVec 1} {t : BitVec 8}

theorem trackHome_eq (c : Core) (k : BitVec 1) (r : BitVec 5) : xHome c k r = trackHome c k r := rfl

/-- What XMIT drives, once its cycle has come and its register stands. -/
theorem xmitM_drives {p : XPhase} (hrun : (s.core s.cur).run = .running) (hst : s.strm = .e) (hs : (s.core s.cur).settled .e = true)
    (hp : (s.core s.cur).xph = some p) (hat : s.atIssue = s.core s.cur)
    (hin : inPhase p s.cycle cy.toNat (if k = 0 then 4 else 1) p.txFree (Store.get 0 p.regAt (trackHome (s.core s.cur) k r)) = true)
    (hsels : (p.sels.all fun w => w.home != trackHome (s.core s.cur) k r || trackHome (s.core s.cur) k r == 0) = true) :
    xmitM cy r k t s.ctx s.issuing = .ok (.seq, { s.setCore s.cur { s.core s.cur with
        xph := some { p with next := cy.toNat + 1, txFree := cy.toNat + (if k = 0 then 4 else 1) } } with
      beats := s.beats ++ (List.range (if k = 0 then 4 else 1)).map fun b => ⟨blockOf s.cur, t.toNat, p.start + cy.toNat + b, s.cur,
        (if k = 0 then (s.core s.cur).vreg r else ((s.core s.cur).reg .e r).setWidth 1024 : Vec).extractLsb' (256 * b) 256, false⟩ }) := by
  have hset : (s.ctx).st = .e := hst
  have hsettled : (s.core s.cur).settled s.ctx.st = true := by rwa [hset]
  have hphase := phaseM_ok (reg := trackHome (s.core s.cur) k r) hp hin
  have hcore : s.issuing.core s.cur = s.core s.cur := (State.issuing_core hrun).trans hat
  have hon {α : Type} {m : CM α} {v : α} (h : m (s.core s.cur) = .ok (v, s.core s.cur)) : onCore s.cur m s.issuing = .ok (v, s.issuing) :=
    onCore_issuing hrun (by rw [hat]; exact h)
  have hnow : ¬s.ctx.cycle < p.start + cy.toNat := by
    simp only [inPhase, Bool.and_eq_true, decide_eq_true_eq] at hin
    exact Nat.not_lt.mpr hin.2
  have hread : (if k = 0 then rdV s.ctx r else do
      let e ← rdX s.ctx r
      pure (e.setWidth 1024)) (s.core s.cur)
        = .ok (if k = 0 then (s.core s.cur).vreg r else ((s.core s.cur).reg .e r).setWidth 1024, s.core s.cur) := by
    by_cases hk : k = 0
    · rw [if_pos hk, if_pos hk]
      exact rdV_settled hsettled hset r
    · rw [if_neg hk, if_neg hk, run_bind_ok (rdX_settled hsettled r), hset]
      rfl
  have hfind : (p.sels.find? fun w => w.home == trackHome (s.core s.cur) k r && trackHome (s.core s.cur) k r != 0) = none := by
    rw [List.find?_eq_none]
    intro w hw
    have := List.all_eq_true.mp hsels w hw
    revert this
    cases h1 : w.home == trackHome (s.core s.cur) k r <;> cases h2 : trackHome (s.core s.cur) k r == 0 <;> simp [bne, h1, h2]
  unfold xmitM
  rw [run_bind_ok (run_get _)]
  dsimp only
  rw [State.ctx_core, hcore, trackHome_eq, hp]
  dsimp only
  rw [run_bind_ok (hon hphase), if_neg hnow, hfind]
  dsimp only
  rw [run_bind_ok (hon hread), run_bind_ok (run_modify _ _)]
  refine (run_bind_ok (onCore_ok (run_modify _ _))).trans (congrArg (fun t => Except.ok (Next.seq, t)) ?_)
  show ({ s.issuing.setCore s.cur { s.issuing.core s.cur with xph := _ } with beats := _ } : State) = _
  have hidle : ({ s.core s.cur with xph := some { p with next := cy.toNat + 1, txFree := cy.toNat + (if k = 0 then 4 else 1) } } : Core).run ≠ .idle := by
    show (s.core s.cur).run ≠ .idle
    rw [hrun]
    decide
  rw [hcore, State.issuing_setCore hrun hidle]
  rfl

/-- What XSEL arms, once its cycle has come. -/
theorem xselM_arms {p : XPhase} (hrun : (s.core s.cur).run = .running) (hst : s.strm = .e) (hs : (s.core s.cur).settled .e = true)
    (hp : (s.core s.cur).xph = some p) (hat : s.atIssue = s.core s.cur)
    (hin : inPhase p s.cycle cy.toNat (if k = 0 then 4 else 1) p.rxFree (Store.get 0 p.regAt 0) = true) :
    xselM cy r k t s.ctx s.issuing = .ok (.seq, s.setCore s.cur { s.core s.cur with
      xph := some { p with
        next := cy.toNat + 1
        rxFree := cy.toNat + (if k = 0 then 4 else 1)
        regAt := Store.set 0 p.regAt (trackHome (s.core s.cur) k r) (cy.toNat + (if k = 0 then 4 else 1))
        sels := p.sels ++ [⟨trackHome (s.core s.cur) k r, t.toNat, cy.toNat, if k = 0 then 4 else 1⟩] } }) := by
  have hset : (s.ctx).st = .e := hst
  have hsettled : (s.core s.cur).settled s.ctx.st = true := by rwa [hset]
  have hphase := phaseM_ok (reg := 0) hp hin
  have hcore : s.issuing.core s.cur = s.core s.cur := (State.issuing_core hrun).trans hat
  have hon : onCore s.cur (phaseM cy.toNat (if k = 0 then 4 else 1) p.rxFree 0) s.issuing = .ok (p, s.issuing) :=
    onCore_issuing hrun (by rw [hat]; exact hphase)
  have hnow : ¬s.ctx.cycle < p.start + cy.toNat := by
    simp only [inPhase, Bool.and_eq_true, decide_eq_true_eq] at hin
    exact Nat.not_lt.mpr hin.2
  unfold xselM
  rw [run_bind_ok (run_get _)]
  dsimp only
  rw [State.ctx_core, hcore, trackHome_eq, hp]
  dsimp only
  rw [run_bind_ok hon, if_neg hnow]
  refine (run_bind_ok (onCore_ok (a := ()) ?_)).trans (congrArg (fun t => Except.ok (Next.seq, t)) (State.issuing_setCore hrun ?_))
  · rw [hcore, run_bind_ok (destFree_settled hsettled _)]
    rfl
  · show (s.core s.cur).run ≠ .idle
    rw [hrun]
    decide

/-- Every stream in a timetable is an E-stream. -/
theorem inTimetable_strm {plen : Nat} (h : s.inTimetable = some plen) : s.strm = .e := by
  unfold State.inTimetable at h
  split at h
  · assumption
  · cases h

/-- A word of a timetable whose effect happens: its stream goes on, waiting for nothing outside, and nothing else changes. -/
theorem issueTimed_passes {plen : Nat} (hn : selector i = 0) (hcan : s.canIssue = true) (hgang : (s.core s.cur).gang = none)
    (htable : s.inTimetable = some plen) (hends : endsTimetable plen i = false)
    (hlegal : illegal s.strm (!(s.core s.cur).ctl.lvl) ((s.core s.cur).seq s.strm).hints i = none) (hs : (s.core s.cur).settled s.strm = true)
    (hjx : ((s.core s.cur).seq s.strm).jx = false) (hgang2 : (s2.core s.cur).gang = none) (hrun2 : (s2.core s.cur).run = .running)
    (he : eff s.ctx s.issuing = .ok (.seq, s2)) :
    ∃ t, issueTimed i eff s = .next t ∧ Stepped s2 t s.cur s.strm ∧ Goes s.ctx 0 (s.atIssue.seq s.strm) (s2.core s.cur) (t.core s.cur) := by
  obtain ⟨t, hissue, hrun, hstep, hgoes⟩ := issue_passes (.inl hn) hcan hgang
    (fun k hk => by rw [← Option.some.inj (htable.symm.trans hk), hends]) hlegal (Core.settled_unharmed hs) hjx (by rw [hn]; rfl) hgang2 hrun2 he
  rw [hn] at hgoes
  have hidle : ((t.core s.cur).modSeq .e fun q => { q with waiting := false }).run ≠ .idle := by rw [Core.modSeq_run, hrun]; decide
  refine ⟨t.modCore s.cur fun c => c.modSeq .e fun q => { q with waiting := false }, ?_, hstep.modCore hidle ?_, ?_⟩
  · unfold issueTimed
    rw [hissue]
  · rw [inTimetable_strm htable]
    rfl
  · rw [State.modCore, t.setCore_core_self s.cur hidle]
    refine hgoes.of_course ?_ ?_ <;> cases s.ctx.st <;> rfl

end

/-- The words of a timetable complete. -/
theorem trackWords : Timetabled trackWord := by
  intro s i s2 plen hs htable hends hcan hgang hjx hlegal ht
  have hrun := canIssue_run hcan
  have hst := inTimetable_strm htable
  have hcore (p : XPhase) : (s.setCore s.cur { s.core s.cur with xph := some p }).core s.cur = { s.core s.cur with xph := some p } :=
    s.setCore_core_self s.cur (by show (s.core s.cur).run ≠ .idle; rw [hrun]; decide)
  cases i
  case xmit cy r k t =>
    have hat := atIssue_of_bare hlegal rfl fun _ _ _ => rfl
    simp only [trackWord] at ht
    split at ht
    · next p hp =>
      obtain ⟨⟨hin, hsels⟩, rfl⟩ := onlyIf_eq ht
      refine issueTimed_passes rfl hcan hgang htable hends hlegal hs hjx ?_ ?_ (xmitM_drives hrun hst (hst ▸ hs) hp hat hin hsels)
      · show ((s.setCore s.cur { s.core s.cur with xph := _ }).core s.cur).gang = none
        rw [hcore, ← hgang]
      · show ((s.setCore s.cur { s.core s.cur with xph := _ }).core s.cur).run = .running
        rw [hcore, ← hrun]
    · cases ht
  case xsel cy r k t =>
    have hat := atIssue_of_bare hlegal rfl fun _ _ _ => rfl
    simp only [trackWord] at ht
    split at ht
    · next p hp =>
      obtain ⟨hin, rfl⟩ := onlyIf_eq ht
      refine issueTimed_passes rfl hcan hgang htable hends hlegal hs hjx ?_ ?_ (xselM_arms hrun hst (hst ▸ hs) hp hat hin)
      · show ((s.setCore s.cur { s.core s.cur with xph := _ }).core s.cur).gang = none
        rw [hcore, ← hgang]
      · show ((s.setCore s.cur { s.core s.cur with xph := _ }).core s.cur).run = .running
        rw [hcore, ← hrun]
    · cases ht
  all_goals exact absurd ht (Option.some_ne_none s2).symm

/-! ### XBEGIN and XEND (R310, R313) -/

section
variable {s : State} {d : BitVec 5} {c : Core}

/-- XBEGIN goes on once its phase has begun. -/
theorem xbegin_completes {g l : BitVec 5} (hs : (s.core s.cur).settled s.strm = true) (ht : exchangeWord s.ctx s.atIssue (.xbegin d g l) = some c)
    (hr : s.runs (.xbegin d g l) c = true) : CompletesIn id s (.xbegin d g l) c := by
  have hrun := State.runs_running hr
  simp only [exchangeWord] at ht
  split at ht
  · next grp plen xret since ready hwait =>
    obtain rfl := Option.some.inj ht
    set c : Core := { s.atIssue with wait := none, armed := none }
    have hc : c.settled s.ctx.st = true := by
      have := State.atIssue_settled hs
      revert this
      cases s.ctx.st <;> exact id
    have hcrun : (c.resultX s.ctx d 0).run = (s.core s.cur).run := (Core.resultX_run _ _ _ _).trans (State.atIssue_run s)
    have hself : (s.setCore s.cur (c.resultX s.ctx d 0)).core s.cur = c.resultX s.ctx d 0 := s.setCore_core_self s.cur (by rw [hcrun, hrun]; decide)
    have heff : xbeginM d g l s.ctx s.issuing = .ok (.seq, s.issuing.setCore s.cur (c.resultX s.ctx d 0)) := by
      rw [xbeginM, run_bind_ok (run_get _), State.issuing_core hrun, hwait]
      dsimp only
      refine (run_bind_ok (onCore_ok (a := ()) ?_)).trans rfl
      rw [State.issuing_core hrun, run_bind_ok (run_modify _ _)]
      exact wrX_settled hc d 0
    obtain ⟨t, hissue, hstep, hgoes⟩ := issue_setCore_goes hcrun (by rwa [hself]) heff
    rw [hself] at hgoes
    exact ⟨t, hissue, hstep, hgoes⟩
  · cases ht

/-- What a step of a word leaves of its core's failed parity checks. -/
theorem Stepped.xpar {s2 t : State} {n : Nat} {st : Strm} (h : Stepped s2 t n st) : (t.core n).xpar = (s2.core n).xpar := by
  have hdata := congrArg Core.xpar h.core
  revert hdata
  cases st <;> exact id

/-- XEND completes as its effect in the core does, where no parity check has failed that it would have to report. -/
theorem execXend_completes (he : xendM d s.ctx s.atIssue = .ok (.seq, c)) (hr : s.runs (.xend d) c = true)
    (hpar : (s.core s.cur).xpar = true → c.xpar = true) : CompletesIn id s (.xend d) c := by
  obtain ⟨t, hissue, hstep, hgoes⟩ := issueC_goes (i := .xend d) hr he (by simp)
  have hcidle : c.run ≠ .idle := by
    simp only [State.runs, Bool.and_eq_true, bne_iff_ne, ne_eq] at hr
    exact hr.1.1.1.1.1.1.2
  have hxpar : (t.core s.cur).xpar = c.xpar := (Stepped.xpar hstep).trans (congrArg Core.xpar (s.setCore_core_self s.cur hcidle))
  have hno : ((s.core s.cur).xpar && !(t.core s.cur).xpar) = false := by
    cases hb : (s.core s.cur).xpar
    · rfl
    · rw [hxpar, hpar hb]
      rfl
  refine ⟨t, ?_, hstep, hgoes rfl⟩
  show execXend d s = .next t
  unfold execXend
  rw [hissue]
  dsimp only
  rw [hno]
  rfl

/-- Outside a phase XEND writes 0. -/
theorem xendM_outside {x : Ctx} (hs : c.settled x.st = true) (hwait : c.wait ≠ some (.xend true)) (hout : ∀ p, c.xph = some p → p.begun = false) :
    xendM d x c = .ok (.seq, c.resultX x d 0) := by
  have hwrites : (do
      wrX x d 0
      pure .seq : CM Next) c = .ok (.seq, c.resultX x d 0) := run_bind_ok (wrX_settled hs d 0)
  rw [xendM, run_bind_ok (run_get _)]
  cases hp : c.xph with
  | none =>
    simp only [Bool.false_eq_true, if_false]
    exact hwrites
  | some p =>
    simp only [hout p hp, Bool.false_eq_true, if_false]
    exact hwrites

/-- XEND writes the bits of the phase that has ended, and 0 outside a phase. -/
theorem xend_completes (hs : (s.core s.cur).settled s.strm = true) (ht : exchangeWord s.ctx s.atIssue (.xend d) = some c)
    (hr : s.runs (.xend d) c = true) : CompletesIn id s (.xend d) c := by
  have hread := State.atIssue_settled hs
  have hpar : s.atIssue.xpar = (s.core s.cur).xpar := by
    unfold State.atIssue
    cases s.strm <;> rfl
  have hkeeps (c : Core) (v : Word) : (c.resultX s.ctx d v).xpar = c.xpar :=
    resultX_keeps Core.xpar (fun c st f => by cases st <;> rfl) (fun _ _ => rfl) (fun _ _ => rfl) (fun _ _ => rfl) c s.ctx d v
  simp only [exchangeWord] at ht
  split at ht
  · next hwait =>
    obtain ⟨hno, ht⟩ := ite_none ht
    obtain rfl := Option.some.inj ht
    refine execXend_completes ?_ hr fun hb => absurd (hpar.trans hb) hno
    rw [xendM, run_bind_ok (run_get _), hwait]
    dsimp only
    rw [run_bind_ok (run_set _ _), run_bind_ok (wrX_settled ?_ d _)]
    · rfl
    · revert hread
      cases s.ctx.st <;> exact id
  · next hwait =>
    obtain ⟨hout, ht⟩ := ite_none ht
    obtain rfl := Option.some.inj ht
    refine execXend_completes ?_ hr fun hb => (hkeeps _ _).trans (hpar.trans hb)
    refine xendM_outside hread hwait fun p hp => ?_
    rw [hp] at hout
    exact eq_false_of_ne_true hout

end

/-- Settles O39: XBEGIN and XEND end a wait or find none, and a word of a timetable acts at its cycle. -/
theorem exchangeWords : Obligations.ExchangeWords := by
  refine ⟨?_, trackWords⟩
  intro s i c hs ht hr
  cases i
  case xbegin => exact xbegin_completes hs ht hr
  case xend => exact xend_completes hs ht hr
  all_goals exact absurd ht (Option.some_ne_none c).symm

end Sys2Proof.Slice0
end

section
/-!
SUPPORT. BAR, BARX, PHASE and UNGANG (R286, R322, R333): the object's answer has come, or the core is in no gang.
-/

namespace Sys2Proof.Slice0

open Sys2Proof.Machine

section
variable {s s2 : State} {i : Instr} {n : BitVec 3} {d g : BitVec 5}

/-- What a core can read stands in the next epoch of a group too. -/
theorem nextEpoch_settled {c : Core} {st : Strm} (h : c.settled st = true) (grp : Nat) :
    ({ c.nextEpoch grp with wait := none } : Core).settled st = true := by
  unfold Core.nextEpoch
  split <;> exact waitOver_settled h

theorem nextEpoch_run (c : Core) (grp : Nat) : (c.nextEpoch grp).run = c.run := by
  unfold Core.nextEpoch
  split <;> rfl

/-- A word that only the A-stream has issues from it. -/
theorem strm_of_bareA {user : Bool} {hs : List Hint} {st : Strm} (hlegal : illegal st user hs i = none) (hstream : streamOk .e i = false) : st = .a := by
  cases st
  · rfl
  · simp only [illegal, hstream, Bool.not_false, if_true] at hlegal
    split at hlegal <;> cases hlegal

/-- A barrier word, whatever it does with its safe point, completes as its effect leaves the module. -/
theorem issueBar_completes {eff : Ctx → DM Next} (hi : exec i s = issueBar i eff s) (hstream : streamOk .e i = false)
    (hrun2 : (s2.core s.cur).run = .running) (hr : s.runs i (s2.core s.cur) = true) (he : eff s.ctx s.issuing = .ok (.seq, s2)) : CompletesAs s i s2 := by
  have hst : s.strm = .a := by
    simp only [State.runs, Bool.and_eq_true, Option.isNone_iff_eq_none] at hr
    exact strm_of_bareA hr.1.1.1.1.2 hstream
  obtain ⟨t, hissue, hstep, hgoes⟩ := issue_goes hr he (by simp)
  have hgoes := hgoes rfl
  have hrun : (t.core s.cur).run = .running := by
    have hdata := congrArg Core.run hstep.core
    rw [hst] at hdata
    exact hdata.trans hrun2
  have hbar : issueBar i eff s = .next (t.modCore s.cur fun c => { c with a := { c.a with safeAt := none } }) ∨ issueBar i eff s = .next t := by
    unfold issueBar
    rw [hissue]
    dsimp only
    split
    · exact .inl rfl
    · exact .inr rfl
  rcases hbar with hbar | hbar
  · have hidle : ({ t.core s.cur with a := { (t.core s.cur).a with safeAt := none } } : Core).run ≠ .idle := by
      show (t.core s.cur).run ≠ .idle
      rw [hrun]
      decide
    refine ⟨_, hi.trans hbar, hstep.modCore hidle ?_, ?_⟩
    · rw [hst]
      rfl
    · rw [State.modCore, t.setCore_core_self s.cur hidle]
      refine hgoes.of_course ?_ ?_ <;> cases s.ctx.st <;> rfl
  · exact ⟨t, hi.trans hbar, hstep, hgoes⟩

/-- The state once a barrier word has written the object's answer v. -/
def answered (s : State) (d : BitVec 5) (grp : Nat) (v : Word) : State :=
  s.setCore s.cur (({ s.atIssue.nextEpoch grp with wait := none } : Core).resultX s.ctx d v)

theorem answered_run (grp : Nat) (v : Word) :
    (({ s.atIssue.nextEpoch grp with wait := none } : Core).resultX s.ctx d v).run = (s.core s.cur).run := by
  rw [Core.resultX_run]
  exact (nextEpoch_run _ _).trans (State.atIssue_run s)

theorem answered_core (hrun : (s.core s.cur).run = .running) (grp : Nat) (v : Word) :
    (answered s d grp v).core s.cur = ({ s.atIssue.nextEpoch grp with wait := none } : Core).resultX s.ctx d v :=
  s.setCore_core_self s.cur (by rw [answered_run, hrun]; decide)

/-- Once the object has answered, the effect of a barrier word is the answer, and the acquire of a PHASE. -/
theorem barM_ends {kind scope grp e k wide : Nat} {st : Int} {late : Bool} (hrun : (s.core s.cur).run = .running)
    (hs : (s.core s.cur).settled s.strm = true) (hwait : s.atIssue.wait = some (.barrier grp e k wide (some st) late))
    (hfree : kind = 2 → s.atIssue.releasing = false) :
    barM d g kind scope s.ctx s.issuing = .ok (.seq, if kind = 2 then (answered s d grp (BitVec.ofInt 64 st)).acquire s.cur wide
      else answered s d grp (BitVec.ofInt 64 st)) := by
  have hgo : ¬(kind = 2 ∧ s.atIssue.releasing = true) := fun ⟨hk, hbusy⟩ => Bool.false_ne_true ((hfree hk).symm.trans hbusy)
  have hwrite : onCore s.cur (do
      modify fun c => { c.nextEpoch grp with wait := none }
      wrX s.ctx d (BitVec.ofInt 64 st)) s.issuing = .ok ((), answered s d grp (BitVec.ofInt 64 st)) := by
    have hresult := wrX_settled (nextEpoch_settled (State.atIssue_settled hs) grp) d (BitVec.ofInt 64 st)
    rw [onCore_ok (a := ()) (by
      rw [← State.ctx_core s, State.issuing_core hrun]
      exact (run_bind_ok (run_modify _ _)).trans hresult), State.issuing_setCore hrun]
    · rfl
    · rw [answered_run, hrun]
      decide
  rw [barM, run_bind_ok (run_get _), State.issuing_core hrun, hwait]
  dsimp only
  rw [if_neg hgo, State.ctx_core, run_bind_ok hwrite]
  by_cases hk : kind = 2
  · rw [if_pos hk, if_pos hk]
    rfl
  · rw [if_neg hk, if_neg hk]
    rfl

/-- Each barrier word completes with the object's answer. -/
theorem barrier_completes {kind scope : Nat} (hi : exec i s = issueBar i (barM d g kind scope) s) (hstream : streamOk .e i = false)
    (hs : (s.core s.cur).settled s.strm = true)
    (ht : (match s.atIssue.wait with
      | some (.barrier grp _ _ wide (some st) _) =>
        let s1 := s.setCore s.ctx.core ({ s.atIssue.nextEpoch grp with wait := none }.resultX s.ctx d (BitVec.ofInt 64 st))
        if kind = 2 then (if s.atIssue.releasing then none else some (s1.acquire s.ctx.core wide)) else some s1
      | _ => none) = some s2)
    (hr : s.runs i (s2.core s.cur) = true) : CompletesAs s i s2 := by
  have hrun := State.runs_running hr
  split at ht
  · next grp e k wide st late hwait =>
    have hcore := answered_core (d := d) hrun grp (BitVec.ofInt 64 st)
    have hcrun := (congrArg Core.run hcore).trans ((answered_run grp _).trans hrun)
    by_cases hk : kind = 2
    · rw [if_pos hk] at ht
      obtain ⟨hfree, ht⟩ := ite_none ht
      obtain rfl := Option.some.inj ht
      have heff := barM_ends (d := d) (g := g) (scope := scope) (kind := kind) hrun hs hwait fun _ => eq_false_of_ne_true hfree
      rw [if_pos hk] at heff
      refine issueBar_completes hi hstream ?_ hr heff
      refine (congrArg Core.run (State.setCore_core_self _ s.cur ?_)).trans hcrun
      show ((answered s d grp (BitVec.ofInt 64 st)).core s.cur).run ≠ .idle
      rw [hcrun]
      decide
    · rw [if_neg hk] at ht
      obtain rfl := Option.some.inj ht
      have heff := barM_ends (d := d) (g := g) (scope := scope) (kind := kind) hrun hs hwait fun h => absurd h hk
      rw [if_neg hk] at heff
      exact issueBar_completes hi hstream hcrun hr heff
  · cases ht

/-- Outside a gang UNGANG writes -1. -/
theorem ungang_completes (hs : (s.core s.cur).settled s.strm = true)
    (hr : s.runs (.ungang n d) ((s.setCore s.cur (s.atIssue.resultX s.ctx d (BitVec.allOnes 64))).core s.cur) = true) :
    CompletesAs s (.ungang n d) (s.setCore s.cur (s.atIssue.resultX s.ctx d (BitVec.allOnes 64))) := by
  have hgang : (s.core s.cur).gang = none := by
    simp only [State.runs, Bool.and_eq_true, Option.isNone_iff_eq_none] at hr
    exact hr.1.1.1.1.1.1.1.1.2
  have hgang' : s.atIssue.gang = none := by
    rw [← hgang, State.atIssue]
    cases s.strm <;> rfl
  have hi : exec (.ungang n d) s = issueU (.ungang n d) (fun cx => do
      let c ← get
      wrX cx d (match c.gang with | some g => BitVec.ofNat 64 g.pos | none => BitVec.allOnes 64)) s := by
    show execUngang n d s = _
    unfold execUngang
    refine if_pos ?_
    rw [hgang]
  have heff : (do
      let c ← get
      wrX s.ctx d (match c.gang with | some g => BitVec.ofNat 64 g.pos | none => BitVec.allOnes 64) : CM Unit) s.atIssue
        = .ok ((), s.atIssue.resultX s.ctx d (BitVec.allOnes 64)) := by
    rw [run_bind_ok (run_get _), hgang']
    exact wrX_settled (State.atIssue_settled hs) d _
  have hrun : (s.atIssue.resultX s.ctx d (BitVec.allOnes 64)).run = (s.core s.cur).run := (Core.resultX_run _ _ _ _).trans (State.atIssue_run s)
  obtain ⟨t, hissue, hstep, hgoes⟩ := issueU_setCore_goes (i := .ungang n d)
    (eff := fun cx => do
      let c ← get
      wrX cx d (match c.gang with | some g => BitVec.ofNat 64 g.pos | none => BitVec.allOnes 64)) hrun hr heff
  exact ⟨t, hi.trans hissue, hstep, hgoes⟩

end

/-- Settles O37: a barrier word goes on with the object's answer, and UNGANG outside a gang with -1. -/
theorem barrierWords : Obligations.BarrierWords := by
  intro s i s2 hs ht hr
  cases i
  case bar => exact barrier_completes rfl rfl hs ht hr
  case barx => exact barrier_completes rfl rfl hs ht hr
  case phase => exact barrier_completes rfl rfl hs ht hr
  case ungang =>
    obtain rfl := Option.some.inj ht
    exact ungang_completes hs hr
  all_goals exact absurd ht (Option.some_ne_none s2).symm

end Sys2Proof.Slice0
end

section
/-!
SUPPORT. SNEXT (R355): the model lets it issue only while its core's scoreboard has room, which the table does not ask for.
-/

namespace Sys2Proof.Slice0

open Sys2Proof.Machine

/-- A command with both entries of the scoreboard. -/
def scoredCmd : Cmd :=
  { id := 0, strm := .a, word := 0, at_ := 0, tok := 0, home := 0, slot := false, op := .cons, rd := some (0, 1), wr := some (1, 2) }

/-- A core in the one stage of group 0's pipeline, with nine commands whose entries take two places more than the scoreboard has. -/
def overScored : State := { State.reset with
  strm := .a
  cores := [(0, { run := .running, ctl := { stage := 0x8000000000000000 }, cmds := List.replicate 9 scoredCmd })]
  pipes := [(0, some { stages := 1 })] }

/-- What the table gives for its SNEXT: the number of its stage is written. -/
theorem overScored_table : (overScored.core overScored.cur).settled overScored.strm = true
    ∧ taskWord overScored overScored.ctx overScored.atIssue (.snext 0 1)
      = some (overScored.setCore 0 (overScored.atIssue.resultX overScored.ctx 1 0))
    ∧ overScored.runs (.snext 0 1) ((overScored.setCore 0 (overScored.atIssue.resultX overScored.ctx 1 0)).core overScored.cur) = true := by
  refine ⟨?_, ?_, ?_⟩
  · decide
  · rfl
  · decide

/-- What the model does: the word stands. -/
theorem overScored_stands : (match exec (.snext 0 1) overScored with | .next t => (t.core 0).a.pc == 0 | _ => false) = true := by decide

/-- Refutes O40: SNEXT stands while the entries of its core's commands take more places than a scoreboard has, and the table has it complete; no run
fills a scoreboard so far, but the statement speaks of every state. -/
theorem not_taskWords : ¬ Obligations.TaskWords := by
  intro h
  obtain ⟨hsettled, htable, hruns⟩ := overScored_table
  obtain ⟨t, hexec, -, hgoes⟩ := h overScored (.snext 0 1) _ hsettled htable hruns
  have hstands := overScored_stands
  rw [hexec] at hstands
  have hpc : (t.core 0).a.pc = 0 := beq_iff_eq.mp hstands
  have hon : (t.core 0).a.pc = 4 := congrArg Prod.fst (hgoes.on rfl)
  exact absurd (hpc.symm.trans hon) (by decide)

end Sys2Proof.Slice0
end
